-- ==== Sys2Proof/Word.lean ====
section
/-! DEFINITION. The plain words of the model: register and address widths, and the one sparse table
type that holds register files, memories and the other large arrays of the machine as plain data. -/

namespace Sys2Proof

/-- One 32-bit register or constant (R35, R37). -/
abbrev Word := BitVec 32
/-- One byte of a memory space (R5). -/
abbrev Byte := BitVec 8
/-- One 64-bit value: a register pair, a tile predicate, a hub register. -/
abbrev DWord := BitVec 64
/-- A word offset from CODEBASE (R12). -/
abbrev Pc := BitVec 24
/-- One bit per lane of a group (R9: at most 64 lanes). -/
abbrev Mask := BitVec 64

/-- A sparse table: key and value pairs, keys strictly rising, no entry equal to what an unlisted key
reads as. `Machine/Table.lean` holds its operations. -/
abbrev Tab (α : Type) := List (Nat × α)

end Sys2Proof
end

