-- ==== Sys2Proof/Config.lean ====
section
/-! DEFINITION. What the manual fixes for every part, and the values it leaves open. The open values are
opaque: nothing can be proved of them beyond their type. -/

namespace Sys2Proof.Config

/-- The n-th value the manual leaves open (undefined private words, unlisted registers after a safe-point
resume and the like); log entry 1. -/
opaque free64 : Nat → BitVec 64

/-- The pattern the function unit gives for function `f` (the low byte of OPC) of an operand, outside the
special and exact cases (R153); the machine keeps it within the table's bound. Log entry 3. -/
opaque special : Nat → Word → Word

/-- Bodies of SPDM and MCTP responses that depend on keys, certificates, nonces and sensors (R377, R381). -/
opaque response : Nat → List Nat → List Byte

/-- Bytes of a sideboard's work area (R266, R273, R289): the spec gives no size. Log entry 52. -/
opaque workArea : Nat

/-- Word `w` of the control store of unit `u` of stack `k` once an image is loaded (R266, R267). Log entry 52. -/
opaque microWord : Nat → Nat → Nat → BitVec 128

/-- Stacks per package (R2). -/
def nStacks : Nat := 8
/-- Channels per stack (R2). -/
def nChannels : Nat := 32
/-- t_pre, t_switch and t_step of R269, t_srv and t_acc of R270, in cycles. -/
def tPre : Nat := 48
def tSwitch : Nat := 32
def tStep : Nat := 64
def tSrv : Nat := 2
def tAcc : Nat := 160
/-- D of R270. -/
def chanQueue : Nat := 256
/-- Bytes of a page (R166). -/
def pageBytes : Nat := 65536
/-- HBM frames of the package: 8 stacks of 64 GiB in 64 KiB frames (R3, R177). -/
def hbmFrames : Nat := 8388608
/-- Words per instruction-cache block (R14). -/
def blkWords : Nat := 16
/-- Package requests outstanding to the host's page request interface (R170). -/
def maxPri : Nat := 512

end Sys2Proof.Config
end

