-- ==== Sys2Proof/Syntax.lean ====
section
/-! DEFINITION. The instructions and steps of the Keralune IF-8: operand fields, modifier types, the
operand record of each family of opcodes, and `Instr`, one constructor per row of the opcode table. The
163 instruction rows carry a header (guard and hints) and their family's operands; the 116 rows that are
steps of the device rather than words of a program carry the data that says which one happens. -/

namespace Sys2Proof

/-- One operand field: file selector and 8-bit index (R35). -/
inductive Opnd where
  /-- selector 00: v0 to v255, one value per lane. -/
  | vec (i : BitVec 8)
  /-- selector 01: s0 to s255, one value per group. -/
  | uni (i : BitVec 8)
  /-- selector 10: predicate, tile predicate or special name (R36). -/
  | spc (i : BitVec 8)
  /-- selector 11: constant table; index 0xFF names IMM (R37). -/
  | con (i : BitVec 8)
  deriving DecidableEq, Repr

/-- Guard and hints of a word (R33, R39, R42, R46). -/
structure Hdr where
  /-- G[83]: the guard is negated. -/
  neg  : Bool
  /-- G[82:80]: predicate index, 7 is pt. -/
  pred : BitVec 3
  /-- HINT[7] SAFE. -/
  safe : Bool
  /-- HINT[6] SW. -/
  sw   : Bool
  /-- HINT[5] RA. -/
  ra   : Bool
  /-- HINT[4] RB. -/
  rb   : Bool
  deriving DecidableEq, Repr

/-- X.TYPE of classes 0x1 to 0x7 (R40); codes 0x4 and 0xF are reserved. -/
inductive Ty where
  | dflt | i8 | i16 | i32 | r4 | n8 | n16 | n32 | f32 | bf16 | f16 | e4m3 | e5m2 | e2m1 | b1 | rF
  deriving DecidableEq, Repr

/-- X.RND (R40). -/
inductive Rnd where
  | rne | rtz | rup | rdn
  deriving DecidableEq, Repr

/-- X.TYPE of class 0x8 (R184); `r4`, `r8` to `rB`, `rE` and `rF` are the reserved codes. -/
inductive MemTy where
  | dflt | i8 | i16 | i32 | r4 | n8 | n16 | n32 | r8 | r9 | rA | rB | b64 | b128 | rE | rF
  deriving DecidableEq, Repr

/-- X.TYPE of class 0x9 (R194). -/
inductive AtTy where
  | i32 | n32 | f32 | n64
  deriving DecidableEq, Repr

/-- The four address spaces (R159, R184). -/
inductive Space where
  | g | p | s | c
  deriving DecidableEq, Repr

/-- ORD (R191, R194, R302). -/
inductive Ord where
  | rlx | acq | rel | ar
  deriving DecidableEq, Repr

/-- SCOPE (R191); the last six codes are reserved. -/
inductive Scope where
  | thread | group | team | core | cluster | die | package | host | fabric | system
  | r10 | r11 | r12 | r13 | r14 | r15
  deriving DecidableEq, Repr

/-- Operands of class 0x0 but REP (R122). -/
structure CtlOps where
  d : Opnd
  a : Opnd
  b : Opnd
  imm : Word
  deriving DecidableEq, Repr

/-- Fields of the REP word (R49). -/
structure RepOps where
  countM1 : BitVec 6
  sd : BitVec 2
  sa : BitVec 2
  sb : BitVec 2
  sc : BitVec 2
  deriving DecidableEq, Repr

/-- Operands of classes 0x1 to 0x7 (R33, R40). -/
structure AluOps where
  d : Opnd
  a : Opnd
  b : Opnd
  ty : Ty
  rnd : Rnd
  sat : Bool
  mod : BitVec 3
  imm : Word
  deriving DecidableEq, Repr

/-- Operands of class 0x8 but FENCE (R184). -/
structure MemOps where
  d : Opnd
  a : Opnd
  b : Opnd
  ty : MemTy
  space : Space
  idx : Bool
  mod : BitVec 2
  imm : Word
  deriving DecidableEq, Repr

/-- Fields of FENCE (R191). -/
structure FenceOps where
  ord : Ord
  scope : Scope
  deriving DecidableEq, Repr

/-- Operands of class 0x9 (R194). -/
structure AtomOps where
  d : Opnd
  a : Opnd
  b : Opnd
  ty : AtTy
  space : Space
  ord : Ord
  scope : Scope
  c : Opnd
  op : BitVec 4
  sh : BitVec 3
  deriving DecidableEq, Repr

/-- Operands of class 0xA (R302). `flag` is MOD[40]. For CELLCFG, MOD is the constructor and `hidx` is
X[45:44]. -/
structure CellOps where
  d : Opnd
  a : Opnd
  b : Opnd
  huse : Bool
  hidx : BitVec 2
  flag : Bool
  ord : Ord
  scope : Scope
  imm : Word
  deriving DecidableEq, Repr

/-- Operands of the matrix instructions (R222). -/
structure MatOps where
  d : Opnd
  a : Opnd
  b : Opnd
  c : Opnd
  sreg : BitVec 8
  sb : BitVec 2
  tq : Bool
  qi : BitVec 3
  au : Bool
  sat : Bool
  deriving DecidableEq, Repr

/-- Operands of STATION, UNSTAT and WLOAD (R211). -/
structure ShelfOps where
  d : Opnd
  a : Opnd
  b : Opnd
  reuse : Bool
  cell : BitVec 6
  deriving DecidableEq, Repr

/-- Operands of QLD, QSET and QLOG (R226). -/
structure TileOps where
  d : Opnd
  a : Opnd
  b : Opnd
  imm : Word
  deriving DecidableEq, Repr

/-- Operands of FFPSEL, FFPBND and FFPFCH (R231). -/
structure FfpOps where
  d : Opnd
  a : Opnd
  b : Opnd
  abs : Bool
  imm : Word
  deriving DecidableEq, Repr

/-- Operands of ISECT (R202). -/
structure IsectOps where
  d : Opnd
  a : Opnd
  b : Opnd
  c : Opnd
  emit : Bool
  deriving DecidableEq, Repr

/-- Operands of XCOPY, XGATH and TQPOST (R243). -/
structure EngOps where
  d : Opnd
  a : Opnd
  b : Opnd
  res : Bool
  imm : Word
  deriving DecidableEq, Repr

/-- Operands of GLAUNCH, TRIG, CHUNK, MBOXARM, STEP and LHINT (R91). `rel` is X[46]. -/
structure LaunchOps where
  d : Opnd
  a : Opnd
  b : Opnd
  prio : BitVec 3
  cen : Bool
  rel : Bool
  imm : Word
  deriving DecidableEq, Repr

/-- A normal request of a memory channel (R270): its tag, and whether it writes. -/
structure NormReq where
  tag : Nat
  write : Bool
  deriving DecidableEq, Repr

/-- One fabric flit (R367): header fields, and the payload as bytes. `addr` is the form-00 logical address
at the receiver; `mask` the byte mask of a WR flit; `op`, `size`, `val`, `val2` the aggregated request of an
ATOM flit; `stat` the status of a response (0 good, 1 refused, 2 uncorrectable error). -/
structure Flit where
  kind : BitVec 8
  src : BitVec 6
  dst : BitVec 6
  seq : Word
  addr : Nat
  tag : Nat
  op : BitVec 8
  size : Nat
  val : DWord
  val2 : DWord
  stat : Nat
  mask : List Bool
  data : List Byte
  /-- MERGE fields (R372). -/
  round : Word
  tree : BitVec 4
  km1 : BitVec 8
  count : BitVec 9
  first : BitVec 9
  nent : BitVec 5
  deriving DecidableEq, Repr

/-- A host page as an ATS completion reports it (R169): its number, and how many pages of 4 KiB it has. -/
structure HostPage where
  page : Nat
  pages : Nat
  deriving DecidableEq, Repr

/-- Who writes a hub register: host system software, a supervisor routine, the hub's firmware, or another agent of the device. -/
inductive Writer where
  | system | supervisor | firmware | other
  deriving DecidableEq, Repr

/-- Every row of the opcode table. Instruction rows take a header and their family's operands. Step rows
take plain data: `slot` is a group slot number (32 × (6 × core + partition) + slot), `tid` a team number,
`id` the number of a command or outstanding result, `grid` a grid number, `stack` and `ch` a channel. -/
inductive Instr where
  | nop (h : Hdr) (o : CtlOps)
  | bra (h : Hdr) (o : CtlOps)
  | brx (h : Hdr) (o : CtlOps)
  | call (h : Hdr) (o : CtlOps)
  | callx (h : Hdr) (o : CtlOps)
  | ret (h : Hdr) (o : CtlOps)
  | exit (h : Hdr) (o : CtlOps)
  | meetSet (h : Hdr) (o : CtlOps)
  | meetSave (h : Hdr) (o : CtlOps)
  | meetRestore (h : Hdr) (o : CtlOps)
  | yield (h : Hdr) (o : CtlOps)
  | sleep (h : Hdr) (o : CtlOps)
  | trap (h : Hdr) (o : CtlOps)
  | eret (h : Hdr) (o : CtlOps)
  | csrr (h : Hdr) (o : CtlOps)
  | csrw (h : Hdr) (o : CtlOps)
  | iadd (h : Hdr) (o : AluOps)
  | iadd3 (h : Hdr) (o : AluOps)
  | isub (h : Hdr) (o : AluOps)
  | imul (h : Hdr) (o : AluOps)
  | imulh (h : Hdr) (o : AluOps)
  | imad (h : Hdr) (o : AluOps)
  | imadw (h : Hdr) (o : AluOps)
  | imin (h : Hdr) (o : AluOps)
  | imax (h : Hdr) (o : AluOps)
  | iabs (h : Hdr) (o : AluOps)
  | ineg (h : Hdr) (o : AluOps)
  | isad (h : Hdr) (o : AluOps)
  | lea (h : Hdr) (o : AluOps)
  | idp4 (h : Hdr) (o : AluOps)
  | idp2 (h : Hdr) (o : AluOps)
  | land (h : Hdr) (o : AluOps)
  | lor (h : Hdr) (o : AluOps)
  | lxor (h : Hdr) (o : AluOps)
  | lnot (h : Hdr) (o : AluOps)
  | logt (h : Hdr) (o : AluOps)
  | shl (h : Hdr) (o : AluOps)
  | shr (h : Hdr) (o : AluOps)
  | sar (h : Hdr) (o : AluOps)
  | rot (h : Hdr) (o : AluOps)
  | fshl (h : Hdr) (o : AluOps)
  | popc (h : Hdr) (o : AluOps)
  | clz (h : Hdr) (o : AluOps)
  | ctz (h : Hdr) (o : AluOps)
  | brev (h : Hdr) (o : AluOps)
  | bfe (h : Hdr) (o : AluOps)
  | bfi (h : Hdr) (o : AluOps)
  | bmix (h : Hdr) (o : AluOps)
  | icmp (h : Hdr) (o : AluOps)
  | fcmp (h : Hdr) (o : AluOps)
  | plog (h : Hdr) (o : AluOps)
  | sel (h : Hdr) (o : AluOps)
  | mov (h : Hdr) (o : AluOps)
  | movi (h : Hdr) (o : AluOps)
  | movs (h : Hdr) (o : AluOps)
  | rdlane (h : Hdr) (o : AluOps)
  | pmov (h : Hdr) (o : AluOps)
  | pmovP (h : Hdr) (o : AluOps)
  | fadd (h : Hdr) (o : AluOps)
  | fsub (h : Hdr) (o : AluOps)
  | fmul (h : Hdr) (o : AluOps)
  | ffma (h : Hdr) (o : AluOps)
  | fmin (h : Hdr) (o : AluOps)
  | fmax (h : Hdr) (o : AluOps)
  | frnd (h : Hdr) (o : AluOps)
  | fclass (h : Hdr) (o : AluOps)
  | fscl (h : Hdr) (o : AluOps)
  | pkadd (h : Hdr) (o : AluOps)
  | pkmul (h : Hdr) (o : AluOps)
  | pkfma (h : Hdr) (o : AluOps)
  | pkmin (h : Hdr) (o : AluOps)
  | pkmax (h : Hdr) (o : AluOps)
  | frcp (h : Hdr) (o : AluOps)
  | frsq (h : Hdr) (o : AluOps)
  | fsqrt (h : Hdr) (o : AluOps)
  | fex2 (h : Hdr) (o : AluOps)
  | flg2 (h : Hdr) (o : AluOps)
  | fsin (h : Hdr) (o : AluOps)
  | fcos (h : Hdr) (o : AluOps)
  | ftanh (h : Hdr) (o : AluOps)
  | fsigm (h : Hdr) (o : AluOps)
  | cvt (h : Hdr) (o : AluOps)
  | cvtp (h : Hdr) (o : AluOps)
  | cvtu (h : Hdr) (o : AluOps)
  | amax (h : Hdr) (o : AluOps)
  | scaleq (h : Hdr) (o : AluOps)
  | abssum (h : Hdr) (o : AluOps)
  | shfl (h : Hdr) (o : AluOps)
  | vote (h : Hdr) (o : AluOps)
  | redl (h : Hdr) (o : AluOps)
  | scanl (h : Hdr) (o : AluOps)
  | matchl (h : Hdr) (o : AluOps)
  | ld (h : Hdr) (o : MemOps)
  | st (h : Hdr) (o : MemOps)
  | ldu (h : Hdr) (o : MemOps)
  | pfetch (h : Hdr) (o : MemOps)
  | ldx (h : Hdr) (o : MemOps)
  | flush (h : Hdr) (o : MemOps)
  | flushAll (h : Hdr) (o : MemOps)
  | invl (h : Hdr) (o : MemOps)
  | invlAll (h : Hdr) (o : MemOps)
  | atom (h : Hdr) (o : AtomOps)
  | atomc (h : Hdr) (o : AtomOps)
  | red (h : Hdr) (o : AtomOps)
  | atomord (h : Hdr) (o : AtomOps)
  | waita (h : Hdr) (o : AtomOps)
  | cellcfgFree (h : Hdr) (o : CellOps)
  | cellcfgSem (h : Hdr) (o : CellOps)
  | cellcfgBar (h : Hdr) (o : CellOps)
  | cellcfgRing (h : Hdr) (o : CellOps)
  | cellcfgQueue (h : Hdr) (o : CellOps)
  | cellcfgBind (h : Hdr) (o : CellOps)
  | cellcfgUnbind (h : Hdr) (o : CellOps)
  | cellrd (h : Hdr) (o : CellOps)
  | semsig (h : Hdr) (o : CellOps)
  | semwait (h : Hdr) (o : CellOps)
  | bararv (h : Hdr) (o : CellOps)
  | barwait (h : Hdr) (o : CellOps)
  | ringpub (h : Hdr) (o : CellOps)
  | ringawtData (h : Hdr) (o : CellOps)
  | ringawtFree (h : Hdr) (o : CellOps)
  | ringrel (h : Hdr) (o : CellOps)
  | qpush (h : Hdr) (o : CellOps)
  | qpop (h : Hdr) (o : CellOps)
  | mmaF4b (h : Hdr) (o : MatOps)
  | mmaF8a (h : Hdr) (o : MatOps)
  | mmaF8b (h : Hdr) (o : MatOps)
  | mmaB16 (h : Hdr) (o : MatOps)
  | mmaH16 (h : Hdr) (o : MatOps)
  | mmaI8 (h : Hdr) (o : MatOps)
  | mmaspF4b (h : Hdr) (o : MatOps)
  | mmaspF8a (h : Hdr) (o : MatOps)
  | mmaspI8 (h : Hdr) (o : MatOps)
  | station (h : Hdr) (o : ShelfOps)
  | unstat (h : Hdr) (o : ShelfOps)
  | wload (h : Hdr) (o : ShelfOps)
  | qld (h : Hdr) (o : TileOps)
  | qsetV (h : Hdr) (o : TileOps)
  | qsetRange (h : Hdr) (o : TileOps)
  | qsetAll (h : Hdr) (o : TileOps)
  | qsetRd (h : Hdr) (o : TileOps)
  | qlog (h : Hdr) (o : TileOps)
  | ffpsel (h : Hdr) (o : FfpOps)
  | ffpbnd (h : Hdr) (o : FfpOps)
  | ffpfch (h : Hdr) (o : FfpOps)
  | xcopy (h : Hdr) (o : EngOps)
  | xgath (h : Hdr) (o : EngOps)
  | tqpost (h : Hdr) (o : EngOps)
  | glaunchK (h : Hdr) (o : LaunchOps)
  | glaunchG (h : Hdr) (o : LaunchOps)
  | glaunchSeal (h : Hdr) (o : LaunchOps)
  | glaunchFree (h : Hdr) (o : LaunchOps)
  | trig (h : Hdr) (o : LaunchOps)
  | chunk (h : Hdr) (o : LaunchOps)
  | mboxarm (h : Hdr) (o : LaunchOps)
  | mboxarmD (h : Hdr) (o : LaunchOps)
  | stepCtr (h : Hdr) (o : LaunchOps)
  | lhint (h : Hdr) (o : LaunchOps)
  | rep (h : Hdr) (o : RepOps)
  | fence (h : Hdr) (o : FenceOps)
  | isect (h : Hdr) (o : IsectOps)
  | fetchBlockArrive (slot blk : Nat) (cached : Bool)
  | switchResultWrite (slot id : Nat) (lanes : Mask)
  | ldxDatumArrive (slot id lane : Nat)
  | storeQueuePerform (slot : Nat)
  | fenceComplete (slot : Nat)
  | flushComplete (slot : Nat)
  | activeRotation (part : Nat)
  | sleepExpire (slot : Nat)
  | cellWaiterWake (slot ticket : Nat)
  | waitaReread (slot lane : Nat)
  | stationMacrosGranted (slot : Nat)
  | unstatRelease (slot : Nat)
  | wloadComplete (tid shelf : Nat)
  | ffpbndCheckStart (tid id : Nat)
  | ffpbndCheckEnd (tid id : Nat)
  | ffpfchGatherStart (tid id : Nat)
  | ffpfchGatherEnd (tid id : Nat)
  | copyStart (id : Nat)
  | copyFinish (id : Nat)
  | gatherStart (id : Nat)
  | gatherFinish (id : Nat)
  | tileTaskStart (id : Nat)
  | tileTaskFinish (id : Nat)
  | engineGranuleBoundary (id : Nat)
  | fixedLatencyResultWrite (slot : Nat)
  | queueNotify (q : Nat) (v : BitVec 16)
  | queueEnable (q : Nat) (cfg : DWord)
  | queueDisable (q : Nat)
  | qsemvalWrite (sem : Nat) (v : Word)
  | queueKernelEntry (q : Nat)
  | queueGraphEntry (q : Nat)
  | queueSemaphoreEntry (q : Nat)
  | queueSealEntry (q : Nat)
  | queueFreeEntry (q : Nat)
  | teamStart (grid : Nat)
  | clusterReserve (grid core : Nat)
  | gangAgeExpire (grid : Nat)
  | graphNodeStart (run node : Nat)
  | graphNodeComplete (run node : Nat)
  | teamEnd (tid : Nat)
  | gridRetire (grid : Nat)
  | fabricFlushTimeout (grid : Nat)
  | mailboxArrival (mbox : Nat)
  | teamStopRequest (tid : Nat)
  | prectlGo (grid : Word) (hard : Bool)
  | prectlResume (grid : Word)
  | groupStop (slot : Nat)
  | hardPreempt (tid : Nat)
  | contextSave (tid : Nat)
  | teamResume (tid : Nat)
  | watchdogExpire (slot lane : Nat)
  | translationWalkDone (core pasid vpage : Nat)
  | atsCompletion (core pasid page : Nat) (r w : Bool) (hpage : HostPage)
  | pageRequestResponse (pasid page : Nat) (ok : Bool)
  | atsInvalidationRequest (pasid page npages : Nat)
  | tinvctlGo (v : DWord)
  | invalidationComplete (id : Nat)
  | stepvalWrite (v : DWord)
  | hostRead (off n : Nat)
  | hostWrite (off : Nat) (bytes : List Byte)
  | registerWrite (off : Nat) (v : DWord) (by_ : Writer)
  | pageMove (page dest : Nat)
  | evictionStart
  | pagePromote (page dest : Nat)
  | placementEpochEnd
  | orderedStreamRequest (id : Nat)
  | streamRecordTimeout (slice addr : Nat)
  | nodeStackStart (nid stack : Nat)
  | nodeGranule (nid stack : Nat)
  | nodeStackFinish (nid stack : Nat)
  | nodeComplete (nid : Nat)
  | walkMessageReceive (stack src : Nat)
  | nodeStop (nid : Nat)
  | nodeResume (nid : Nat)
  | channelEnterPreIn (stack ch : Nat)
  | channelEnterSwIn (stack ch : Nat)
  | channelAbortPreIn (stack ch : Nat)
  | channelEnterCompute (stack ch : Nat)
  | computeStep (stack ch : Nat)
  | channelEnterPreOut (stack ch : Nat)
  | channelEnterSwOut (stack ch : Nat)
  | channelEnterNormal (stack ch : Nat)
  | normalRequestComplete (stack ch : Nat)
  | normalRequestArrive (stack ch : Nat) (req : NormReq)
  | wrFlit (f : Flit)
  | rdFlit (f : Flit)
  | rdrspFlit (f : Flit)
  | atomFlit (f : Flit)
  | atomrspFlit (f : Flit)
  | ackFlit (f : Flit)
  | nakFlit (f : Flit)
  | flushFlit (f : Flit)
  | flushackFlit (f : Flit)
  | mboxFlit (f : Flit)
  | mergeFlit (f : Flit)
  | scrubRead (sector : Nat) (correctable : Bool)
  | scrubCheck
  | coreDisable (core : Nat)
  | cxlLinkChange (port : Nat) (up : Bool) (size : BitVec 16)
  | powerThrottle (watts junction : Nat)
  | thermalTrip
  | coldReset
  | warmReset
  | getVersion
  | getCapabilities
  | negotiateAlgorithms (asym hash : Nat)
  | getDigests
  | getCertificate (off len : Nat)
  | challenge (nonce : Nat)
  | getMeasurements (idx : Nat)
  | mctpControlMessage (cmd : Nat)
  | mctpVendorRead (what idx : Nat)
  | fabricPortChange (port : Nat) (up : Bool)
  | msiXVectorUnmask (vector : Nat)
  | mergeTreeClearEn (tree : Nat)
  | channelMapOut (stack ch : Nat)
  | correctedErrorHourEnd
  | undefinedKindFlit (f : Flit)
  deriving DecidableEq, Repr

end Sys2Proof
end

