-- ==== Sys2Proof/Machine/State.lean ====
section
/-! DEFINITION. The state of the Keralune IF-8 as plain data: threads, groups, teams and grids; sync
cells, shelves and engine commands; caches, translation and placement; the hub's registers, queues, graphs
and mailboxes; the near-memory search units; the fabric and the platform. `State.reset` is the machine
after a cold reset. Free counters and the agenda are the model's own fields (log entries 1 and 2). -/

namespace Sys2Proof.Machine

/-- Reasons a step may stop with a fault. -/
inductive Fault where
  /-- Every clock is stopped until a cold reset (R379: junction of 115 °C). Raised by the step function
  for every action but a cold reset; safe. -/
  | clocksStopped
  deriving DecidableEq, Repr

/-- Reasons the model may refuse. -/
inductive Refusal where
  /-- The instruction with this mnemonic has no meaning yet. Raised by the dispatcher; safe. -/
  | notModelled (mnemonic : String)
  deriving DecidableEq, Repr

/-! ### Memory locations, translation and caches -/

/-- A resolved location of one byte: device memory of this package by logical address (R360, form 00), a
peer package's memory (form 01), host memory (R169), a core's physical scratchpad byte (macro × 65,536 +
offset), a supervisor area byte (R352), a mailbox doorbell (form 10) or a merge ingress (form 11). -/
inductive Loc where
  | dev (a : Nat)
  | peer (pkg a : Nat)
  | host (a : Nat)
  | scr (core a : Nat)
  | sup (tid a : Nat)
  | door (pkg mbox : Nat)
  | ingress (tree round : Nat)
  deriving DecidableEq, Repr

/-- What a translation of one 4 KiB page gave (R166, R169, R349): a frame with its rights, or a reason, or an
uncorrectable table entry. `w` allows writes; `x` allows fetches, and for a host page reads too. -/
inductive Xl where
  | ok (frame : Nat) (host w : Bool) (x : Bool)
  | bad (reason : Nat)
  | data
  deriving DecidableEq, Repr

/-- Who makes an access: a group (twice its slot) with the lanes concerned, or an agent (twice its command plus one; 1 the
hub) with every bit set. -/
abbrev Asker := Nat × Mask

/-- The two askers share a lane. -/
def Asker.meets (a b : Asker) : Bool := a.1 == b.1 && a.2 &&& b.2 != 0

/-- One entry of a core's translation buffers (R167, R169): `size` pages of 4 KiB from `page` on, a device page having 16
or 16,384; `frame` is that of the first. The hub's agents use core number 1000. A `bad` or `data` result belongs to the
accesses `who` that waited for it, each until its trap. -/
structure TlbEnt where
  core : Nat
  pasid : Nat
  page : Nat
  size : Nat
  res : Xl
  who : List Asker
  deriving DecidableEq, Repr

/-- How far an outstanding translation is (R166, R170): walking, at the host's translation agent, at its page
request interface, waiting for one of the 512 page requests, or at the agent once more after a success. -/
inductive WalkSt where
  | walk | ats | pri | priWait | again
  deriving DecidableEq, Repr

/-- One outstanding translation miss (R167): its page (while it walks, the 64 KiB page around it), and the accesses that
wait for it, each with whether it writes. -/
structure Walk where
  core : Nat
  pasid : Nat
  page : Nat
  who : List (Asker × Bool)
  st : WalkSt
  deriving DecidableEq, Repr

/-- One valid byte of a core's L1 (R172), tagged by PASID and virtual address. -/
structure L1Byte where
  val : Byte
  dirty : Bool
  /-- filled or written by a private-space access (R173) -/
  priv : Bool
  loc : Loc
  /-- the grid whose thread wrote it (R359) -/
  grid : Nat
  deriving DecidableEq, Repr

/-- One line of a home slice (R174): its device line number and the sectors present. Its bytes are those of device
memory, which the slice merges writes into. -/
structure L2Line where
  line : Nat
  secs : BitVec 4
  deriving DecidableEq, Repr

/-- An invalidation in progress (R171): from TINVCTL or from the host. -/
structure Inval where
  id : Nat
  pasid : Nat
  page : Nat
  npages : Nat
  all : Bool
  fromHost : Bool
  deriving DecidableEq, Repr

/-- One fetch block in an instruction buffer or instruction cache (R99). `sup` marks the supervisor image. -/
structure Blk where
  sup : Bool
  pasid : Nat
  addr : Nat
  words : List (BitVec 96)
  deriving DecidableEq, Repr

/-- A block of the buffer, or the trap its fetch met: cause, detail and address (R46, R348). -/
structure IBuf where
  sup : Bool
  blk : Nat
  words : List (BitVec 96)
  err : Option (Nat × Nat × Nat)
  deriving DecidableEq, Repr

/-- One core's caches, counter and compute-in-memory macros. -/
structure Core where
  /-- in service (R376) -/
  en : Bool
  /-- %core number while enabled (R36) -/
  num : Nat
  /-- value of the hub's cycle count when this core was reset (R131, R378) -/
  base : Nat
  /-- L1 bytes by PASID × 2^56 + address -/
  l1 : Tab (Option L1Byte)
  /-- lines of the L1 by their latest fill or store, oldest first, with whether `.ev` marks them (R185, R187) -/
  order : List (Nat × Bool)
  icache : List Blk
  /-- macros mapped out of compute mode (R220) -/
  mapout : List Nat
  /-- last partition the array served (R114) -/
  arr : Nat
  /-- runs of kernels here by KID and grid, the latest to start a team first, with the shelf sources each named (R88) -/
  kids : List (Word × Nat × List Nat)
  deriving DecidableEq, Repr

/-! ### Threads and groups -/

/-- One thread (R12, R13, R51, R93, R100, R345). -/
structure Lane where
  pc : Pc
  meet : Pc
  repk : BitVec 6
  /-- arrived by ERET or resume (R51), and the REP word at which `repk` was left by an interruption: only that word
  continues at `repk` (R52); all ones where none is -/
  resumed : Bool
  repAt : Pc
  exited : Bool
  /-- executed TRIG -/
  trig : Bool
  /-- in supervisor mode: a member of the trapped set -/
  sup : Bool
  /-- waits at an ERET for the rest of the trapped set (R350) -/
  atEret : Bool
  /-- raised a trap while another routine of the group runs (R345) -/
  trapHeld : Bool
  /-- wait count (R100) -/
  wait : Nat
  /-- the group issue at which the lane last issued (R101) -/
  lastIss : Nat
  /-- since when the lane is held, 0 while it is not; of a stopped lane, the cycles it had waited (R355) -/
  since : Nat
  v : Tab Word
  /-- p0 to p6 -/
  p : BitVec 7
  deriving DecidableEq, Repr

/-- State of a group slot (R104). -/
inductive GSt where
  | free | pending | active | benched | stopped
  deriving DecidableEq, Repr

/-- A register the scoreboard can hold (R110): file 0 vector, 1 uniform, 2 tile predicate, and index. -/
structure RegRef where
  file : Nat
  idx : Nat
  deriving DecidableEq, Repr

/-- The source of one lane's outstanding datum: bytes still to be read, each with its L1 key (0 where the space
is not cached) and place; words already known; or words that another party will supply. -/
inductive Datum where
  | mem (bs : List (Nat × Loc))
  | words (ws : List Word)
  | wait
  deriving DecidableEq, Repr

/-- One lane of an outstanding switch-class result. -/
structure PLane where
  lane : Nat
  /-- global or private virtual address of the first byte; 0 elsewhere -/
  va : Nat
  datum : Datum
  deriving DecidableEq, Repr

/-- How a datum becomes registers: `n` bytes, sign-extended or not; `priv` a private access. -/
structure Form where
  n : Nat
  signed : Bool
  priv : Bool
  nofill : Bool
  /-- `.ev`: the lines it fills leave the L1 first (R185) -/
  ev : Bool
  deriving DecidableEq, Repr

/-- One outstanding switch-class result (R43): destination file and index, and its lanes. File 0 vector,
1 uniform (one pseudo-lane), 2 tile predicates (two words each), 3 none. -/
structure Pend where
  id : Nat
  file : Nat
  dst : Nat
  form : Form
  /-- PASID of the accesses -/
  pasid : Nat
  /-- the acquire performed when the values return (R196) -/
  acq : Option Scope
  /-- an LDX: lanes leave one by one to this word (R189) -/
  ldx : Option Pc
  lanes : List PLane
  deriving DecidableEq, Repr

/-- One lane's part of a class 0x9 request. -/
structure AtLane where
  lane : Nat
  loc : Loc
  va : Nat
  v : DWord
  new : DWord
  tag : Word
  /-- number of the request that left the core; 0 waiting, 1 sent, 2 answered, 3 refused, 4 error; old value -/
  rid : Nat
  ph : Nat
  old : DWord
  deriving DecidableEq, Repr

/-- Which class 0x9 operation an entry performs. -/
inductive AtKind where
  | atom | atomc | red | ord
  deriving DecidableEq, Repr

/-- An atomic entry: kind, operation code, type, lanes; `pend` is the result that receives old values. -/
structure AtReq where
  kind : AtKind
  op : Nat
  ty : AtTy
  lanes : List AtLane
  pend : Nat
  deriving DecidableEq, Repr

/-- One byte of a store entry. `va` is the PASID-tagged L1 key for global and private stores. -/
structure StByte where
  loc : Loc
  key : Nat
  priv : Bool
  ev : Bool
  val : Byte
  deriving DecidableEq, Repr

/-- What a store-queue entry does when performed (R316). -/
inductive SqKind where
  | store (bs : List StByte)
  | atomic (r : AtReq)
  deriving DecidableEq, Repr

/-- One store-queue entry: number, PASID, grid and work. `sent` marks an entry whose fabric requests are out. -/
structure SqEnt where
  id : Nat
  pasid : Nat
  grid : Nat
  sent : Bool
  kind : SqKind
  deriving DecidableEq, Repr

/-- An outstanding FENCE (R191), which holds the group's later memory instructions, or an acquire that waits for earlier
loads (R317); `mark` numbers what was issued before it. -/
structure FenceEnt where
  mark : Nat
  instr : Bool
  rel : Bool
  acq : Bool
  scope : Scope
  deriving DecidableEq, Repr

/-- An outstanding FLUSH (R192): the L1 keys it names, or all; `mark` numbers what was issued before it. -/
structure FlushEnt where
  mark : Nat
  all : Bool
  inv : Bool
  keys : List Nat
  deriving DecidableEq, Repr

/-- One lane of a WAITA: its global address, or the place in scratchpad, and the value compared (R201). -/
structure WaitaLane where
  lane : Nat
  va : Nat
  fix : Option Loc
  c : Word
  deriving DecidableEq, Repr

/-- A WAITA in progress: condition, destination, acquire, lanes. -/
structure WaitaSt where
  op : Nat
  dst : Opnd
  acq : Option Scope
  lanes : List WaitaLane
  deriving DecidableEq, Repr

/-- Why a subgroup does not issue although its lanes are not held. The first six are synchronisation
instructions (R108, R189, R212); the rest wait for room or for another party. -/
inductive Why where
  /-- a class 0xA wait; the waiter's ticket -/
  | cell (ticket : Nat)
  /-- SLEEP until this cycle of the core -/
  | sleep (wake : Nat)
  /-- WAITA: its lanes -/
  | waita (w : WaitaSt)
  /-- STATION waiting for macros: order of issue, index and descriptor (R212) -/
  | station (ticket idx desc : Nat)
  /-- UNSTAT of an index waiting for its readers (R215) -/
  | unstat (idx : Nat)
  /-- an LDX lane without its datum (R189) -/
  | ldx
  /-- waits for store-queue entries numbered below this (R185) -/
  | drain (mark : Nat)
  /-- FFPSEL until the store queue has been performed: list, first row, and the rows of the block selected (R232) -/
  | ffpsel (list r0 : Nat) (rows : List Nat)
  /-- a translation, ATS or PRI wait (R167, R170) -/
  | xlate (pasid page : Nat)
  /-- bytes requested from a peer package by requests numbered below this (R368) -/
  | peer (mark : Nat)
  /-- an atomic of this store-queue entry at a peer's home (R198, R368) -/
  | atom (entry : Nat)
  /-- a release that is not complete yet -/
  | release
  /-- a line owned by an agent (R175) -/
  | owned (line : Nat)
  /-- an atomic with an acquire whose old values have not returned (R317) -/
  | acq
  /-- a shelf that is LOADING (R223) -/
  | shelf (idx : Nat)
  /-- a shelf that a tile task still reads (R224, R238) -/
  | reading (idx : Nat)
  /-- room in the command queue (0) or the task scheduler (1) (R250, R261) -/
  | room (which : Nat)
  deriving DecidableEq, Repr

/-- A set of lanes that waits at one word. -/
structure Blocked where
  mask : Mask
  pc : Pc
  /-- the sequential successor -/
  next : Pc
  why : Why
  since : Nat
  /-- the LIVE word of the instruction, when it carries SAFE (R46) -/
  live : Option (BitVec 96)
  deriving DecidableEq, Repr

/-- REP in progress for one subgroup (R115): lanes, the REP word, target word, strides, next repeat. -/
structure RepSt where
  mask : Mask
  pc : Pc
  word : BitVec 96
  live : Option (BitVec 96)
  k : Nat
  countM1 : Nat
  sd : Nat
  sa : Nat
  sb : Nat
  sc : Nat
  deriving DecidableEq, Repr

/-- One group slot (R12, R99, R104, R105, R109, R110, R316, R347). -/
structure Group where
  st : GSt
  /-- when it entered the active set (age) -/
  age : Nat
  tid : Nat
  gidx : Nat
  width : Nat
  lanes : List Lane
  s : Tab Word
  q : Tab DWord
  h : Tab DWord
  fstat : BitVec 7
  trapvec : BitVec 52
  trapcause : Word
  trappc : Pc
  trapaddr : BitVec 56
  pend : List Pend
  score : List RegRef
  sq : List SqEnt
  fences : List FenceEnt
  flushes : List FlushEnt
  blocked : List Blocked
  rep : Option RepSt
  ibuf : List IBuf
  fetch : List (Bool × Nat)
  /-- issues of the group so far, and the cycle of its partition at the latest (R107) -/
  issues : Nat
  lastCyc : Nat
  /-- lanes that have waited at a switch marker and have not issued since (R109) -/
  swMask : Mask
  /-- YIELD in force until this cycle for these lanes (R127) -/
  yieldTill : Nat
  yieldMask : Mask
  /-- the LIVE word and lanes of the latest SAFE instruction, when it is the latest word (R336) -/
  safePt : Option (BitVec 96 × Mask)
  deriving DecidableEq, Repr

/-- One scheduler partition (R105 to R107, R113): pending list, head first; cycle of the last entry. -/
structure Part where
  pending : List Nat
  lastEnter : Nat
  /-- cycles of the partition: one ends when neither port has anything left to take -/
  cyc : Nat
  /-- port 0 has selected in this cycle, and the slot it took -/
  done0 : Bool
  taken : Option Nat
  /-- partition cycle until which an issue holds port 0 and port 1 -/
  busy0 : Nat
  busy1 : Nat
  deriving DecidableEq, Repr

/-! ### Teams, cells, shelves and commands -/

/-- Kind of a sync cell (R299). -/
inductive CellKind where
  | none | sem | bar | ring | queue
  deriving DecidableEq, Repr

/-- One sync cell: state words W0 to W3 without KIND, its configuration, and its hidden state (R299). -/
structure Cell where
  kind : CellKind
  w0 : Word
  w1 : Word
  w2 : Word
  w3 : Word
  cfg0 : Word
  cfg1 : Word
  released : List Word
  allow : Tab Nat
  deriving DecidableEq, Repr

/-- What a class 0xA waiter waits for (R308, R310, R311, R312). -/
inductive WaitOp where
  | sem (t : Word) (take : Bool)
  | bar (token : Word)
  | ringData (n : Word)
  | ringFree (n : Word)
  | push (p : Nat) (v : Word)
  | pop
  deriving DecidableEq, Repr

/-- One waiter of a cell, in order of arrival. `sat` holds its result once satisfied; `wrong` marks a
waiter whose cell changed kind (R305). -/
structure Waiter where
  ticket : Nat
  slot : Nat
  mask : Mask
  lanes : Mask
  tid : Nat
  cell : Nat
  name : Word
  op : WaitOp
  dst : Opnd
  acq : Option Scope
  next : Pc
  sat : Option Word
  /-- detail of the cell-misuse trap the wait ends in; 0: none (R303, R305) -/
  wrong : Nat
  deriving DecidableEq, Repr

/-- State of a shelf index (R208). -/
inductive ShelfSt where
  | free | empty | loading | ready | failed
  deriving DecidableEq, Repr

/-- A shelf (R208 to R210): descriptor fields and state. `src` is its source address; `ffp` holds the
command that filled it by FFPFCH (R241). -/
structure Shelf where
  st : ShelfSt
  src : Nat
  fmt : Nat
  nrl : Bool
  m0 : Nat
  nm : Nat
  nrows : Nat
  klen : Nat
  ffp : Option (List Word)
  deriving DecidableEq, Repr

/-- A retained copy (R216). -/
structure Retained where
  core : Nat
  pasid : Nat
  src : Nat
  fmt : Nat
  nrows : Nat
  klen : Nat
  macs : List Nat
  used : Nat
  deriving DecidableEq, Repr

/-- What a team is doing. -/
inductive TeamSt where
  | running | stopping | stopped | ended
  deriving DecidableEq, Repr

/-- One agent signal (R300): the cell, what a SEM adds, the arrivals of a BAR, the status a BAR takes (0 OK), and the kind
of cell its command names, where it names one (R257). -/
structure Sig where
  cell : Nat
  add : Word
  arr : Nat
  status : Nat
  want : Option CellKind
  deriving DecidableEq, Repr

/-- One resident or stopped team. -/
structure Team where
  used : Bool
  grid : Nat
  idx : Nat
  core : Nat
  rank : Nat
  /-- private base and bytes (R162, R163) -/
  pb : Nat
  pbytes : Nat
  slots : List Nat
  /-- physical macro of each logical slot in use (R205) -/
  macs : List (Nat × Nat)
  cells : Tab Cell
  shelves : Tab Shelf
  st : TeamSt
  /-- cycle of the stop request; hard; requested through PRECTL (R334, R336) -/
  stopAt : Nat
  hard : Bool
  byPrectl : Bool
  resume : Bool
  /-- set from a watchdog or abort: run nothing more -/
  dead : Bool
  /-- TAIL, HEAD, NFAIL, LASTFAIL of the command queue (R244) -/
  qtail : Word
  qhead : Word
  qnfail : Word
  qlastfail : Word
  /-- the context: groups (R341; its bytes stand in `State.scr`), and the shadow pages reserved -/
  saved : List Group
  shpages : Nat
  /-- held agent signals of a stopped team, oldest first (R301) -/
  held : List Sig
  deriving DecidableEq, Repr

/-- Kind of an agent command (R315). -/
inductive CmdKind where
  | copy | gather | wload | ffpbnd | ffpfch | tile | nodeCopy
  deriving DecidableEq, Repr

/-- State of an agent command. -/
inductive CmdSt where
  | accepted | running
  deriving DecidableEq, Repr

/-- One agent command: its 32 or 64 bytes as words, where it came from, and how far it is. -/
structure Cmd where
  id : Nat
  kind : CmdKind
  tid : Nat
  core : Nat
  pasid : Nat
  grid : Nat
  /-- serial number in the team's command queue (R245) -/
  serial : Nat
  words : List Word
  st : CmdSt
  /-- entries of this slot's store queue with smaller numbers come first (R250) -/
  slot : Nat
  mark : Nat
  /-- position: bytes, indices, rows or row blocks done, and partial counts -/
  pos : Nat
  cnt0 : Nat
  cnt1 : Nat
  cnt2 : Nat
  /-- shelf, cell and the like -/
  aux0 : Nat
  aux1 : Nat
  aux2 : Nat
  aux3 : Nat
  /-- cause of failure already known -/
  cause : Nat
  /-- destination lines owned (R175), and lines pinned (R176) -/
  owns : List Nat
  pins : List Nat
  /-- words read at start -/
  data : List Word
  /-- awaiting a fabric answer: tag -/
  tag : Option Nat
  deriving DecidableEq, Repr

/-! ### Grids, graphs and mailboxes -/

/-- A working-set region (R19). -/
structure Region where
  src : Nat
  len : Nat
  dest : Nat
  lprio : Nat
  stage : Bool
  nextuse : Word
  deriving DecidableEq, Repr

/-- A kernel record (R16). -/
structure Kernel where
  codebase : Nat
  codelen : Nat
  entry : Nat
  width : Nat
  clw : Nat
  clh : Nat
  tthreads : Nat
  regs : Nat
  uregs : Nat
  cells : Nat
  nregion : Nat
  plen : Nat
  pwords : Nat
  scratch : Nat
  regions : Nat
  kid : Word
  deriving DecidableEq, Repr

/-- A launch record (R23). -/
structure Launch where
  krec : Nat
  nteams : Nat
  rscope : Nat
  fab : Bool
  early : Bool
  cirq : Bool
  param : Nat
  stepadv : Word
  deriving DecidableEq, Repr

/-- Where a launch came from, and so whom its end is reported to. -/
inductive Source where
  /-- the dispatched entry of queue `q` with number `id` -/
  | queue (q id : Nat)
  /-- GLAUNCH of team `tid`, with the cell to signal -/
  | team (tid : Nat) (cell : Option Nat)
  /-- a kernel node of a graph run -/
  | node (run node : Nat)
  /-- a mailbox handler -/
  | mbox (n : Nat)
  deriving DecidableEq, Repr

/-- State of a grid. -/
inductive GridSt where
  | waiting | running | done
  deriving DecidableEq, Repr

/-- One grid (R23, R89, R329, R350, R359). -/
structure Grid where
  num : Nat
  pasid : Nat
  lrec : Nat
  l : Launch
  k : Kernel
  regs : List Region
  src : Source
  prio : Nat
  st : GridSt
  /-- parameter words, read when the first team starts -/
  params : Option (List Word)
  /-- teams started and teams ended -/
  started : Nat
  ended : Nat
  /-- some thread has issued (R20) -/
  issued : Bool
  faulted : Bool
  fabfail : Bool
  /-- peers written (R359), FLUSH sent, peers still to answer, cycle of the FLUSH -/
  peers : Mask
  flushed : Bool
  waitAck : Mask
  flushAt : Nat
  /-- reserved rectangle of a cluster (R89): cores chosen, cores reserved, start of the age in µs, aged -/
  rect : List Nat
  resv : List Nat
  ageUs : Nat
  aged : Bool
  /-- the order of acceptance and of start -/
  seq : Nat
  startSeq : Nat
  /-- from a queue with PRE = 1 (R86) -/
  pre : Bool
  /-- mailbox slot address handed to the handler (R32) -/
  slotVa : Option Nat
  deriving DecidableEq, Repr

/-- A graph node as sealed (R26). -/
structure GNode where
  kind : Nat
  ep : Nat
  stackMask : Nat
  cell : Nat
  cellen : Bool
  gran : Nat
  lrec : Nat
  sigval : Word
  xcmd : List Word
  args : List DWord
  /-- the launch record copied at the seal -/
  l : Option Launch
  deriving DecidableEq, Repr

/-- A sealed graph (R28): nodes, and edges as (from, to, early). -/
structure Sealed where
  handle : Nat
  pasid : Nat
  valid : Bool
  nodes : List GNode
  edges : List (Nat × Nat × Bool)
  /-- the HBM frames its image holds (R177): stack and number of frames -/
  stack : Nat
  frames : Nat
  deriving DecidableEq, Repr

/-- Progress of one node of a run (R29); `ending` knows its outcome (cause 0: OK) and is not completed yet. -/
inductive NodeSt where
  | waiting | running | ending (cause : Nat) | done | failed (cause : Nat)
  deriving DecidableEq, Repr

/-- One run of a sealed graph. -/
structure Run where
  num : Nat
  pasid : Nat
  nodes : List GNode
  edges : List (Nat × Nat × Bool)
  src : Source
  prio : Nat
  st : List NodeSt
  /-- its launch came from a queue with PRE = 1, or from a grid that did (R86) -/
  pre : Bool
  /-- grid of the team that executed GLAUNCH, whose agents its nodes are (R315); 2^32 for a run of a host queue -/
  grid : Nat
  deriving DecidableEq, Repr

/-- One arrival for a mailbox (R32): source field and payload. -/
structure Arrival where
  src : Nat
  payload : List Byte
  deriving DecidableEq, Repr

/-- One mailbox (R31, R32, R95). -/
structure Mbox where
  armed : Bool
  disarming : Bool
  pasid : Nat
  mrec : Nat
  slot : Nat
  hrec : Nat
  prio : Nat
  held : List Arrival
  running : Option Nat
  seq : Word
  count : Word
  deriving DecidableEq, Repr

/-- One dispatched entry that has not completed (R82): its number among all entries ever dispatched, its index, the
address of its slot when it was dispatched, and the entry as it was read. -/
structure QRun where
  id : Nat
  idx : Nat
  slot : Nat
  entry : Nat
  deriving DecidableEq, Repr

/-- Dispatch state of one launch queue beside its registers: entries read and waiting, entries running, and whether
the wait of the entry at HEAD has been found satisfied (R84). -/
structure Queue where
  latched : List (Nat × List Byte)
  busy : List QRun
  go : Bool
  deriving DecidableEq, Repr

/-- A write of the hub to a record that waits for a translation, the host or a peer, or an owned line. -/
structure HubWrite where
  pasid : Nat
  va : Nat
  bytes : List Byte
  deriving DecidableEq, Repr

/-- What an outstanding launch instruction asks the hub for (R91 to R95): a launch record, a sealed graph's handle with
the cells of the issuing team, a graph header to seal, or a mailbox record to arm. -/
inductive HubAsk where
  | kernel (va : Nat)
  | graph (handle cells : Nat)
  | seal (va : Nat)
  | arm (va : Nat)
  deriving DecidableEq, Repr

/-- A request of a launch instruction that the hub has not answered (R92): the outstanding result it answers, with its
group slot, the issuing team and PASID, the priority and PRE it carries, and its CEN cell. -/
structure HubReq where
  pend : Nat
  slot : Nat
  tid : Nat
  pasid : Nat
  ask : HubAsk
  prio : Nat
  pre : Bool
  cen : Option Nat
  deriving DecidableEq, Repr

/-! ### Near-memory search -/

/-- Phase of a channel (R269). -/
inductive Phase where
  | normal | preIn | swIn | compute | preOut | swOut
  deriving DecidableEq, Repr

/-- One channel: phase, cycle of entry, requests queued, how many of them stood there when the phase began, and the
nodes whose compute step is still due. -/
structure Chan where
  phase : Phase
  since : Nat
  queue : List NormReq
  atEntry : Nat
  work : List Nat
  /-- a stop has taken a granule not begun from the channel (R275) -/
  halt : Bool
  deriving DecidableEq, Repr

/-- A walker (R290): its record's fields. -/
structure Walker where
  node : Nat
  snap : Nat
  qid : Nat
  budget : Nat
  vslot : Nat
  dist : Word
  run : Nat
  deriving DecidableEq, Repr

/-- One stack's part of a running node. -/
structure NStack where
  stack : Nat
  /-- started, finished -/
  started : Bool
  fin : Bool
  stopped : Bool
  /-- next granule, whether its compute steps have been given to the channels, and granules written (EMBAG) -/
  gran : Nat
  posted : Bool
  wrote : Nat
  /-- items done, and the corpus descriptor read at start -/
  sub : Nat
  desc : Nat
  cause : Nat
  more : Bool
  full : Bool
  disc : Nat
  count : Nat
  /-- drawers: query, and its keys as (distance, id), best first; for MVBANK a row and its value -/
  drawers : List (Nat × List (Word × Word))
  /-- partial sums of EMBAG by result index: kind (0 finite, 1 +∞, 2 −∞, 3 NaN) and the sum times 2^298 -/
  sums : List (Nat × Nat × Int)
  visited : List (Nat × Nat)
  /-- walkers spawned by (query), and walkers live -/
  spawned : List (Nat × Nat)
  walkers : List Walker
  /-- walkers that wait in the spill queue of the sideboard's work area (R289) -/
  spill : List Walker
  deriving DecidableEq, Repr

/-- A walk message (R291). -/
structure WMsg where
  nid : Nat
  src : Nat
  dst : Nat
  qid : Nat
  target : Nat
  budget : Nat
  snap : Nat
  run : Nat
  deriving DecidableEq, Repr

/-- One near-memory call (R272). -/
structure NNode where
  id : Nat
  run : Nat
  node : Nat
  pasid : Nat
  prio : Nat
  ep : Nat
  args : List DWord
  gran : Nat
  parts : List NStack
  /-- granules whose rows have been shared out (EMBAG), and the rows: bag, position, index and stack; for MVBANK the
  row and its stack -/
  asgn : Nat
  rows : List (Nat × Nat × Nat × Nat)
  stopped : Bool
  startSeq : Nat
  /-- the publish word has been set (R295) -/
  pub : Bool
  deriving DecidableEq, Repr

/-! ### Fabric, cabinet and the outside -/

/-- What an outstanding fabric request is for. -/
inductive Waitee where
  | fill (core key : Nat) (nc : Bool)
  /-- a read whose answer nobody may use any more: an acquire, or a write of the same core to the sector, came after it
  (R317, R321) -/
  | gone
  | atomic (slot entry : Nat)
  | write (grid : Nat)
  | cmd (id : Nat)
  deriving DecidableEq, Repr

/-- One outstanding fabric request. -/
structure Outst where
  tag : Nat
  dst : Nat
  who : Waitee
  /-- PASID-tagged virtual address of a write (R171); 0 elsewhere -/
  key : Nat
  deriving DecidableEq, Repr

/-- One merge round in progress (R371): complete lists, and per child the entries so far. -/
structure Round where
  tree : Nat
  round : Nat
  lists : List (List (Word × Word))
  part : List (Nat × Nat × List (Word × Word))
  deriving DecidableEq, Repr

/-- One cabinet event (R375). -/
structure CabEv where
  ty : Nat
  sev : Nat
  src : Nat
  seq : Word
  stamp : Nat
  d0 : DWord
  d1 : DWord
  deriving DecidableEq, Repr

/-- The PCIe AtomicOps (R198). -/
inductive HostOp where
  | fetchAdd | swap | cas
  deriving DecidableEq, Repr

/-- An answer of a peer to a read that fills nothing in the L1, or a refusal (1) or error (2) of a read: the reader's
number, the L1 key of the sector, 0 for data, and the bytes. -/
structure PeerAns where
  core : Nat
  key : Nat
  code : Nat
  bytes : List Byte
  deriving DecidableEq, Repr

/-- Messages the device sends to the outside, oldest first. An AtomicOp carries its operand, and CAS also the value to
store (R198). -/
inductive Out where
  | msix (vec : Nat)
  | flit (f : Flit)
  | hostRead (off : Nat) (bytes : List Byte)
  | ats (pasid page : Nat)
  | pri (pasid page : Nat) (write : Bool)
  | atsInvDone (pasid page : Nat)
  | atomicOp (op : HostOp) (a size : Nat) (x y : DWord)
  | spdm (kind : Nat) (body : List Byte)
  | mctp (kind : Nat) (body : List Byte)
  deriving DecidableEq, Repr

/-- One ordered-stream address record (R200). -/
structure StreamRec where
  pasid : Nat
  stream : Nat
  loc : Nat
  ty : AtTy
  next : Nat
  last : Nat
  stamp : Nat
  /-- early requests: sequence number and value -/
  early : List (Nat × DWord)
  deriving DecidableEq, Repr

/-- One ATOMORD request at a slice, in arrival order; `peer` names the sending package and tag. -/
structure StreamReq where
  id : Nat
  pasid : Nat
  grid : Nat
  slot : Nat
  loc : Nat
  ty : AtTy
  tag : Word
  val : DWord
  peer : Option (Nat × Nat)
  deriving DecidableEq, Repr

/-- Where a logical page lives: no frame yet, an HBM stack, or a CXL port of the capacity tier (R177, R364). -/
inductive Place where
  | none | hbm (stack : Nat) | cap (port : Nat)
  deriving DecidableEq, Repr

/-- Placement of one logical 64 KiB page (R177 to R180, R280). -/
structure PageSt where
  place : Place
  prio : Nat
  /-- next-use step, when hinted (R97) -/
  next : Option Word
  pasid : Nat
  /-- the PASID and virtual page by which a corpus bound it to its stack (R280) -/
  bound : Option (Nat × Nat)
  /-- accesses from the two dies this epoch, and whether the last epoch exceeded the limit -/
  acc0 : Nat
  acc1 : Nat
  hot : Bool
  /-- a move to the other die is due and has been delayed (R178, R180), and an access has made the page one to promote
  (R179) -/
  due : Bool
  prom : Bool
  deriving DecidableEq, Repr

/-- The issue in progress: the slot, the lanes of the subgroup, the word's address, its successor, the
cycle. `rep` is the repeat index when the word is a repeat (R51). -/
structure Cur where
  slot : Nat
  mask : Mask
  pc : Pc
  next : Pc
  rep : Option Nat
  live : Option (BitVec 96)
  /-- the access is emulated byte by byte by the standard supervisor image (R182, R353) -/
  emul : Bool
  deriving DecidableEq, Repr

/-- What moves next. The agenda lists choices made outside the program: which step happens, which group
issues, how many cycles and microseconds pass, which L1 line leaves, which sector a load brings, which
MSI-X vector the host masks, which images a cold reset finds good. When it is
empty the machine's own order applies (log entry 2). -/
inductive Action where
  | event (i : Instr)
  | issue (slot : Nat)
  | pass (cycles us : Nat)
  | evict (core key : Nat)
  | sector (id off : Nat)
  | poison (sector : Nat) (on : Bool)
  | poisonScr (core off : Nat) (on : Bool)
  | residue (core mac : Nat)
  | tearDown (pasid : Nat)
  | mask (vector : Nat)
  | boot (images : BitVec 4)
  deriving DecidableEq, Repr

/-- An access of the host, or of another PCIe requester, held at the host port (R175, R330). -/
inductive HostAcc where
  | rd (off n : Nat)
  | wr (off : Nat) (bytes : List Byte)
  deriving DecidableEq, Repr

/-- The whole machine. -/
structure State where
  /-- what moves next (the model's own) -/
  agenda : List Action
  /-- number of the next free value, and of the next identity (the model's own) -/
  free : Nat
  fresh : Nat
  /-- the issue in progress -/
  cur : Cur
  /-- cycles since cold reset, and the hub timer in µs (R131, R378) -/
  now : Nat
  us : Nat
  /-- clocks stopped (R379) -/
  halted : Bool
  /-- device memory by logical address; host memory by host address -/
  mem : Tab Byte
  hostMem : Tab Byte
  /-- scratchpad bytes by core × 2^21 + macro × 65,536 + offset -/
  scr : Tab Byte
  /-- supervisor areas by team × 2^32 + offset (R352) -/
  supMem : Tab Byte
  /-- device sectors with an uncorrectable error (R354), and scratchpad sectors -/
  poison : List Nat
  poisonScr : List Nat
  cores : Tab Core
  parts : Tab Part
  groups : Tab Group
  teams : Tab Team
  cmds : List Cmd
  waiters : List Waiter
  retained : List Retained
  /-- who makes the accesses of the step in progress, beside a group that issues (the model's own) -/
  asker : Asker
  /-- lines the home slices cache, the latest used first (R174) -/
  l2 : List L2Line
  /-- translation -/
  tlb : List TlbEnt
  walks : List Walk
  invals : List Inval
  /-- answers of peers not yet taken up -/
  peerGot : List PeerAns
  /-- ordered streams (R199, R200) -/
  streams : List StreamRec
  streamReqs : List StreamReq
  /-- hub registers by offset (R80 to R370), their reset values as defaults -/
  hub : Tab DWord
  /-- step counters by PASID (R21) -/
  steps : Tab DWord
  queues : Tab Queue
  grids : List Grid
  nextGrid : Nat
  nextRun : Nat
  nextHandle : Nat
  sealed : List Sealed
  runs : List Run
  mboxes : Tab Mbox
  /-- last dispatch source, for alternation (R86) -/
  rrQueue : Nat
  rrDevice : Bool
  /-- writes of the hub that wait, oldest first, and requests of launch instructions it has not answered -/
  hubWrites : List HubWrite
  /-- host accesses held at the port, oldest first (R330) -/
  atPort : List HostAcc
  hubReqs : List HubReq
  /-- near-memory -/
  nodes : List NNode
  msgs : List WMsg
  chans : Tab Chan
  /-- fabric: SEQ of the next flit to each package, flits awaiting answers, merge rounds -/
  seqOut : Tab Nat
  seqIn : Tab Nat
  outst : List Outst
  rounds : List Round
  /-- the cabinet, newest first, and the number of the next event -/
  cab : List CabEv
  cabSeq : Word
  /-- messages sent to the outside, newest first -/
  out : List Out
  /-- MSI-X mask and pending bits -/
  msixMask : BitVec 72
  msixPend : BitVec 72
  /-- placement -/
  pages : Tab PageSt
  hbmUsed : Nat
  evicting : Bool
  /-- number of the placement epoch, and of the hour of corrected errors, last ended (R180, R376) -/
  epoch : Nat
  hour : Nat
  /-- scrubber: sectors read this pass, and the start of the pass in µs -/
  scrubDone : Nat
  scrubStart : Nat
  /-- arithmetic clock in MHz (R379) -/
  clockMHz : Nat
  /-- firmware images present (R377): hub, stack controllers, control stores, supervisor -/
  fw : BitVec 4
  /-- the supervisor image loaded is the standard one (R353); otherwise its words stand in memory at SVIMG -/
  svStd : Bool
  /-- SPDM: algorithms negotiated (R377) -/
  spdmNeg : Bool
  /-- supervisor areas and private areas in use: pasid, base, bytes -/
  privs : List (Nat × Nat × Nat)
  deriving DecidableEq, Repr

/-- An empty L1, caches empty, counter from `base`. `core` numbers run 0 to 199; at a cold reset the model
enables the first 96 of each die (log entry 5). -/
def Core.reset (c : Nat) : Core :=
  { en := c % 100 < 96, num := (c / 100) * 96 + c % 100, base := 0, l1 := [], order := [], icache := [], mapout := [],
    arr := 0, kids := [] }

/-- A thread before its first instruction (R13); its PC is set to ENTRY at team start. -/
def Lane.reset : Lane :=
  { pc := 0, meet := 0xFFFFFF, repk := 0, resumed := false, repAt := 0xFFFFFF, exited := false, trig := false, sup := false,
    atEret := false, trapHeld := false, wait := 0, lastIss := 0, since := 0, v := [], p := 0 }

/-- A free group slot: registers, FSTAT and CSRs at the values of R13, R131 and R347. -/
def Group.reset : Group :=
  { st := .free, age := 0, tid := 0, gidx := 0, width := 0, lanes := [], s := [], q := [], h := [],
    fstat := 0, trapvec := 0, trapcause := 0, trappc := 0, trapaddr := 0, pend := [], score := [],
    sq := [], fences := [], flushes := [], blocked := [], rep := none, ibuf := [], fetch := [],
    issues := 0, lastCyc := 0, swMask := 0, yieldTill := 0, yieldMask := 0, safePt := none }

def Part.reset : Part :=
  { pending := [], lastEnter := 0, cyc := 0, done0 := false, taken := none, busy0 := 0, busy1 := 0 }

/-- A cell of kind NONE with zero words (R297). -/
def Cell.reset : Cell :=
  { kind := .none, w0 := 0, w1 := 0, w2 := 0, w3 := 0, cfg0 := 0, cfg1 := 0, released := [], allow := [] }

/-- A FREE shelf index (R208). -/
def Shelf.reset : Shelf :=
  { st := .free, src := 0, fmt := 0, nrl := false, m0 := 0, nm := 0, nrows := 0, klen := 0, ffp := none }

/-- No team. -/
def Team.reset : Team :=
  { used := false, grid := 0, idx := 0, core := 0, rank := 0, pb := 0, pbytes := 0, slots := [],
    macs := [], cells := [], shelves := [], st := .ended, stopAt := 0, hard := false, byPrectl := false,
    resume := false, dead := false, qtail := 0, qhead := 0, qnfail := 0, qlastfail := 0, saved := [],
    shpages := 0, held := [] }

def Queue.reset : Queue := { latched := [], busy := [], go := false }

/-- A disarmed mailbox. -/
def Mbox.reset : Mbox :=
  { armed := false, disarming := false, pasid := 0, mrec := 0, slot := 0, hrec := 0, prio := 0, held := [],
    running := none, seq := 0, count := 0 }

/-- A channel in NORMAL with nothing queued (R269). -/
def Chan.reset : Chan :=
  { phase := .normal, since := 0, queue := [], atEntry := 0, work := [], halt := false }

/-- A page without a frame, priority 0 and no hint (R177, R179). -/
def PageSt.reset : PageSt :=
  { place := .none, prio := 0, next := none, pasid := 0, bound := none, acc0 := 0, acc1 := 0,
    hot := false, due := false, prom := false }

/-- No issue in progress. -/
def Cur.reset : Cur := { slot := 0, mask := 0, pc := 0, next := 0, rep := none, live := none, emul := false }

/-- The machine after a cold reset (R380): every register at its reset value, memory with nothing listed,
no work. BOOTSTAT is set to 1 by the register defaults (log entry 6). -/
def State.reset : State :=
  { agenda := [], free := 0, fresh := 1, cur := Cur.reset, now := 0, us := 0, halted := false,
    mem := [], hostMem := [], scr := [], supMem := [], poison := [], poisonScr := [],
    cores := [], parts := [], groups := [], teams := [], cmds := [], waiters := [], retained := [],
    asker := (1, BitVec.allOnes 64), l2 := [], tlb := [], walks := [], invals := [], peerGot := [], streams := [], streamReqs := [], hub := [],
    steps := [], queues := [], grids := [], nextGrid := 0, nextRun := 0, nextHandle := 0, sealed := [],
    runs := [], mboxes := [], rrQueue := 63, rrDevice := true, hubWrites := [], atPort := [], hubReqs := [], nodes := [], msgs := [], chans := [],
    seqOut := [], seqIn := [], outst := [], rounds := [], cab := [], cabSeq := 0, out := [],
    msixMask := BitVec.allOnes 72, msixPend := 0, pages := [], hbmUsed := 0, evicting := false, epoch := 0, hour := 0, scrubDone := 0,
    scrubStart := 0, clockMHz := 1600, fw := 0xF, svStd := true, spdmNeg := false, privs := [] }

end Sys2Proof.Machine
end

