-- ==== Sys2Proof/Machine/Ops.lean ====
section
/-! DEFINITION. The named operations over the machine's state: one accessor and one update for each table,
the lanes of the issue in progress, the hub's registers and cabinet, free values, taking an exception and
returning from one. -/

namespace Sys2Proof.Machine

/-- The outcome type of a step. -/
abbrev Out' := Host.Outcome State Fault Refusal

/-! ### Tables -/

def State.group (s : State) (slot : Nat) : Group := Tab.get Group.reset s.groups slot
def State.setGroup (s : State) (slot : Nat) (g : Group) : State :=
  { s with groups := Tab.set Group.reset s.groups slot g }
def State.modGroup (s : State) (slot : Nat) (f : Group → Group) : State :=
  s.setGroup slot (f (s.group slot))
def State.team (s : State) (tid : Nat) : Team := Tab.get Team.reset s.teams tid
def State.setTeam (s : State) (tid : Nat) (t : Team) : State :=
  { s with teams := Tab.set Team.reset s.teams tid t }
def State.modTeam (s : State) (tid : Nat) (f : Team → Team) : State := s.setTeam tid (f (s.team tid))
def State.core (s : State) (c : Nat) : Core := Tab.get (Core.reset c) s.cores c
def State.setCore (s : State) (c : Nat) (k : Core) : State :=
  { s with cores := Tab.set (Core.reset c) s.cores c k }
def State.modCore (s : State) (c : Nat) (f : Core → Core) : State := s.setCore c (f (s.core c))
def State.part (s : State) (p : Nat) : Part := Tab.get Part.reset s.parts p
def State.setPart (s : State) (p : Nat) (k : Part) : State :=
  { s with parts := Tab.set Part.reset s.parts p k }
def State.queue (s : State) (q : Nat) : Queue := Tab.get Queue.reset s.queues q
def State.setQueue (s : State) (q : Nat) (k : Queue) : State :=
  { s with queues := Tab.set Queue.reset s.queues q k }
def State.mbox (s : State) (n : Nat) : Mbox := Tab.get Mbox.reset s.mboxes n
def State.setMbox (s : State) (n : Nat) (k : Mbox) : State :=
  { s with mboxes := Tab.set Mbox.reset s.mboxes n k }
def State.chan (s : State) (stack ch : Nat) : Chan := Tab.get Chan.reset s.chans (stack * 32 + ch)
def State.setChan (s : State) (stack ch : Nat) (c : Chan) : State :=
  { s with chans := Tab.set Chan.reset s.chans (stack * 32 + ch) c }
def State.page (s : State) (p : Nat) : PageSt := Tab.get PageSt.reset s.pages p
def State.setPage (s : State) (p : Nat) (k : PageSt) : State :=
  { s with pages := Tab.set PageSt.reset s.pages p k }

/-- Core, partition and slot of a group slot number. The stores and flushes of a group whose threads have all exited
stand under a number of their own, above the 196,608 that 1,024 cores would have. -/
def slotCore (slot : Nat) : Nat := slot / 192 % 1024
def slotPart (slot : Nat) : Nat := slot / 32

/-- Shelf and cell of a team. -/
def Team.shelf (t : Team) (i : Nat) : Shelf := Tab.get Shelf.reset t.shelves i
def Team.setShelf (t : Team) (i : Nat) (x : Shelf) : Team :=
  { t with shelves := Tab.set Shelf.reset t.shelves i x }
def Team.cell (t : Team) (i : Nat) : Cell := Tab.get Cell.reset t.cells i
def Team.setCell (t : Team) (i : Nat) (x : Cell) : Team :=
  { t with cells := Tab.set Cell.reset t.cells i x }

/-- The grid with a number; an empty one where there is none. -/
def Kernel.none : Kernel :=
  { codebase := 0, codelen := 0, entry := 0, width := 8, clw := 1, clh := 1, tthreads := 8, regs := 1,
    uregs := 0, cells := 0, nregion := 0, plen := 0, pwords := 0, scratch := 0, regions := 0, kid := 0 }
def Launch.none : Launch :=
  { krec := 0, nteams := 0, rscope := 0, fab := false, early := false, cirq := false, param := 0,
    stepadv := 0 }
def Grid.none : Grid :=
  { num := 0, pasid := 0, lrec := 0, l := Launch.none, k := Kernel.none, regs := [], src := .mbox 0,
    prio := 0, st := .done, params := Option.none, started := 0, ended := 0, issued := false,
    faulted := false, fabfail := false, peers := 0, flushed := false, waitAck := 0, flushAt := 0,
    rect := [], resv := [], ageUs := 0, aged := false, seq := 0, startSeq := 0, pre := false,
    slotVa := Option.none }
def State.grid (s : State) (n : Nat) : Grid := (s.grids.find? fun g => g.num == n).getD Grid.none
def State.setGrid (s : State) (g : Grid) : State :=
  { s with grids := s.grids.map fun x => if x.num == g.num then g else x }
def State.modGrid (s : State) (n : Nat) (f : Grid → Grid) : State :=
  { s with grids := s.grids.map fun x => if x.num == n then f x else x }

/-- Team, grid and kernel of a group. -/
def State.teamOf (s : State) (slot : Nat) : Team := s.team (s.group slot).tid
def State.gridOf (s : State) (slot : Nat) : Grid := s.grid (s.teamOf slot).grid
def State.pasidOf (s : State) (slot : Nat) : Nat := (s.gridOf slot).pasid

/-- A number not used before. -/
def State.freshId (s : State) : Nat × State := (s.fresh, { s with fresh := s.fresh + 1 })

/-- The next free value (log entry 1). -/
def State.freeVal (s : State) : DWord × State := (Config.free64 s.free, { s with free := s.free + 1 })

/-! ### Hub registers -/

/-- Hub register offsets with reset values other than zero (R22 to R380): QCFG.LOG2N is 1 and QSTAT.STATE 3,
GANGAGE 200, QMAX and NMIN, CHEN, TSAFE 8,000, TFAB, SCRUBCFG, RASSTAT, CELIM, BOOTSTAT 1 after bring-up
(log entry 6), PWRLIM 2,400. -/
def regReset (off : Nat) : DWord :=
  if 0x100000 ≤ off ∧ off < 0x101000 ∧ off % 0x40 = 0x08 then 2
  else if 0x100000 ≤ off ∧ off < 0x101000 ∧ off % 0x40 = 0x20 then 3
  else if off = 0x120000 then 200
  else if 0x150000 ≤ off ∧ off < 0x150800 ∧ off % 0x100 = 0 then 0x01000800
  else if 0x150000 ≤ off ∧ off < 0x150800 ∧ off % 0x100 = 0x08 then 0xFFFFFFFF
  else if off = 0x160010 then 8000
  else if off = 0x190008 then 1600000
  else if off = 0x1B0000 then 0x00180110
  else if off = 0x1B0008 then 0x00000404
  else if off = 0x1B0010 then 0x000186A000000000
  else if off = 0x1B0018 then 1
  else if off = 0x1C0000 then 2400
  else 0

/-- The stored value of a hub register. -/
def State.reg (s : State) (off : Nat) : DWord := Tab.get (regReset off) s.hub off
def State.setReg (s : State) (off : Nat) (v : DWord) : State :=
  { s with hub := Tab.set (regReset off) s.hub off v }
/-- A field of a hub register. -/
def State.fld (s : State) (off lo len : Nat) : Nat := bits (s.reg off).toNat lo len
/-- Replace a field of a register value. -/
def setBits (v : DWord) (lo len x : Nat) : DWord :=
  let m : DWord := BitVec.ofNat 64 ((2 ^ len - 1) * 2 ^ lo)
  (v &&& ~~~m) ||| (BitVec.ofNat 64 ((x % 2 ^ len) * 2 ^ lo))
def State.setFld (s : State) (off lo len x : Nat) : State := s.setReg off (setBits (s.reg off) lo len x)

/-- Offsets of a launch queue's registers (R80). -/
def qreg (q k : Nat) : Nat := 0x100000 + 0x40 * q + k
def semReg (n : Nat) : Nat := 0x110000 + 0x10 * n

/-! ### The cabinet and messages to the outside -/

def State.emit (s : State) (o : Out) : State := { s with out := o :: s.out }

/-- Send an MSI-X message, or set its Pending Bit while masked (R362). -/
def State.msix (s : State) (v : Nat) : State :=
  if s.msixMask.getLsbD v then { s with msixPend := s.msixPend ||| (1#72 <<< v) } else s.emit (.msix v)

/-- Record an event in the cabinet; severity 2 raises vector 64 (R375, R362). -/
def State.record (s : State) (ty sev src : Nat) (d0 d1 : DWord) : State :=
  let e : CabEv := { ty, sev, src, seq := s.cabSeq, stamp := s.us, d0, d1 }
  let s1 := { s with cab := (e :: s.cab).take 4096, cabSeq := s.cabSeq + 1 }
  if sev = 2 then s1.msix 64 else s1

/-! ### The lanes of the issue in progress -/

/-- The group of the issue in progress. -/
def State.curG (s : State) : Group := s.group s.cur.slot
def State.setCurG (s : State) (g : Group) : State := s.setGroup s.cur.slot g

def Group.lane (g : Group) (l : Nat) : Lane := g.lanes.getD l Lane.reset

/-- Apply `f` to every lane, with its index. -/
def mapLanes (f : Nat → Lane → Lane) : Nat → List Lane → List Lane
  | _, [] => []
  | l, x :: xs => f l x :: mapLanes f (l + 1) xs

/-- Apply `f` to every lane of a group. -/
def Group.withLanes (g : Group) (f : Nat → Lane → Lane) : Group := { g with lanes := mapLanes f 0 g.lanes }

/-- Apply `f` to the lanes of a mask. -/
def Group.onMask (g : Group) (m : Mask) (f : Lane → Lane) : Group :=
  g.withLanes fun l x => if m.getLsbD l then f x else x

/-- Apply `f` to one lane. -/
def Group.modLane (g : Group) (l : Nat) (f : Lane → Lane) : Group :=
  g.withLanes fun i x => if i = l then f x else x

/-- The guard of a word in one lane (R39). -/
def guardTrue (h : Hdr) (x : Lane) : Bool :=
  let p := if h.pred == 7 then true else x.p.getLsbD h.pred.toNat
  p != h.neg

/-- Active(l) (R55). -/
def activeLane (s : State) (h : Hdr) (l : Nat) : Bool :=
  s.cur.mask.getLsbD l && !(s.curG.lane l).exited && guardTrue h (s.curG.lane l)

/-- The active lanes, ascending. -/
def activeLanes (s : State) (h : Hdr) : List Nat :=
  (List.range s.curG.lanes.length).filter (activeLane s h)

/-- Move a lane past the word it executed. After a repeat that is not the last, REPK names the next one;
after the last it is 0 (R51). -/
def laneAdvance (c : Cur) (x : Lane) : Lane :=
  let k : BitVec 6 := match c.rep with
    | none => x.repk
    | some n => if c.next = c.pc then BitVec.ofNat 6 (n + 1) else 0
  { x with pc := c.next, repk := k, resumed := false, since := 0 }

/-- Every lane of the issuing subgroup continues at the sequential successor. -/
def State.advance (s : State) : State :=
  s.setCurG (s.curG.onMask s.cur.mask (laneAdvance s.cur))

/-- A lane waits at its word; within a REP it will continue at this repeat (R52). -/
def laneWait (c : Cur) (x : Lane) : Lane :=
  match c.rep with
  | some k => { x with repk := BitVec.ofNat 6 k, resumed := true, repAt := c.pc }
  | none => x

/-- A blocked instruction has retired for some lanes; its safe point follows (R336). -/
def Group.passed (g : Group) (b : Blocked) (m : Mask) : Group := { g with safePt := b.live.map fun w => (w, m) }

/-- Cycles the lanes had already waited at this word before their team was stopped (R355). -/
def waited (g : Group) (m : Mask) : Nat :=
  (maskLanes 64 m).foldl (fun n l => max n (if (g.lane l).resumed then (g.lane l).since else 0)) 0

/-- Lanes of a mask wait at the word; the other lanes of the subgroup continue (R108). -/
def State.block (s : State) (m : Mask) (why : Why) : State :=
  let g := (s.curG.onMask (s.cur.mask &&& ~~~m) (laneAdvance s.cur)).onMask m (laneWait s.cur)
  let since := s.now - waited s.curG m
  let b : Blocked := { mask := m, pc := s.cur.pc, next := s.cur.next, why, since, live := s.cur.live }
  let rep := if s.cur.rep.isSome then none else g.rep
  s.setCurG { g with blocked := g.blocked ++ [b], rep }

/-- A group gives up what it waited for: its lanes ask for no translation any more. -/
def State.forget (s : State) (slot : Nat) : State :=
  let keep (a : Asker) : Bool := a.1 != 2 * slot
  { s with walks := s.walks.map fun w => { w with who := w.who.filter fun x => keep x.1 },
           tlb := s.tlb.filterMap fun e =>
             let e1 := { e with who := e.who.filter keep }
             if e.who.isEmpty || !e1.who.isEmpty then some e1 else none }

/-! ### Ending a grid as faulted -/

/-- What the cabinet and the counters keep of a command cancelled with its faulted grid: a failed check adds 1 to FAIL of
its layer's set (R242), and a task's tag is recorded (R260). -/
def State.cancelled (s : State) (c : Cmd) : State :=
  if c.kind == .ffpbnd && c.data.getD 5 0 == 1 then
    let off := 0x140000 + 0x20 * (c.data.getD 4 0).toNat + 24
    s.setReg off (s.reg off + 1)
  else if c.kind == .tile then s.record 8 1 (s.core c.core).num ((c.words.getD 14 0).zeroExtend 64 >>> 16) 5
  else s

/-- Stop every group of a team without saving: threads end, outstanding results, waits and repeats are
dropped, and its commands finish CANCELLED; store-queue entries stay and are performed (R350). -/
def State.killTeam (s : State) (tid : Nat) : State :=
  let kill (s : State) (slot : Nat) : State :=
    (s.forget slot).modGroup slot fun g =>
      { g with st := .free, lanes := g.lanes.map fun x => { x with exited := true }, pend := [],
               blocked := [], rep := none, score := [], fences := [], flushes := [] }
  let t := s.team tid
  let s1 := t.slots.foldl kill s
  let s2 := s1.modTeam tid fun t => { t with dead := true, saved := [], held := [] }
  let s2 := (s2.cmds.filter fun c => c.tid == tid && c.kind != .nodeCopy).foldl State.cancelled s2
  { s2 with hubReqs := s2.hubReqs.filter fun q => q.tid != tid, waiters := s2.waiters.filter fun w => w.tid != tid,
            cmds := s2.cmds.filter fun c => c.tid != tid || c.kind == .nodeCopy,
            parts := s2.parts.map fun p =>
              (p.1, { p.2 with pending := p.2.pending.filter fun x => !t.slots.contains x }) }

/-- The teams of a grid that exist. -/
def State.teamsOf (s : State) (grid : Nat) : List Nat :=
  (s.teams.filter fun t => t.2.used && t.2.grid == grid).map Prod.fst

/-- End a grid as faulted (R350): its teams stop, teams not yet started never start, the cabinet records the
trap registers. Status writes and signals follow at retirement. -/
def State.abortGrid (s : State) (grid : Nat) (cause pc : Word) (addr : Nat) : State :=
  let s1 := (s.teamsOf grid).foldl State.killTeam s
  let s2 := s1.modGrid grid fun g => { g with faulted := true }
  s2.record 1 2 0xFFFF (cause.zeroExtend 64 ||| (pc.zeroExtend 64 <<< 32)) (BitVec.ofNat 64 addr)

/-! ### Taking an exception and returning -/

/-- TRAPCAUSE as an entry writes it: CAUSE, DETAIL and GSLOT, ABORT clear (R347). -/
def trapCause (slot cause detail : Nat) : Word :=
  BitVec.ofNat 32 (cause % 32 + detail % 65536 * 256 + slot % 192 * 2 ^ 24)

/-- Lanes of the subgroup enter the routine at word 16 × CAUSE (R346). REPK holds the repeat that trapped
(R52); outside REP it is unchanged. -/
def laneTrap (c : Cur) (cause : Nat) (x : Lane) : Lane :=
  if x.exited then x else
  { x with pc := BitVec.ofNat 24 (16 * cause), sup := true, atEret := false, resumed := false, since := 0,
           repk := match c.rep with
             | none => x.repk
             | some k => BitVec.ofNat 6 k,
           repAt := if c.rep.isSome then c.pc else x.repAt }

/-- The trap CSRs after an entry at `pc` (R346 to R348). -/
def Group.trapCsrs (g : Group) (slot cause detail : Nat) (pc : Pc) (addr : Nat) : Group :=
  { g with trapcause := trapCause slot cause detail, trappc := pc, trapaddr := BitVec.ofNat 56 addr }

/-- Some routine runs for the group (R345). -/
def Group.inRoutine (g : Group) : Bool := g.lanes.any fun x => x.sup && !x.exited

/-- Take a precise trap for the lanes of `m` standing at `pc` of group slot `slot`. In supervisor mode it is
a double fault that ends the grid, with the inner trap's registers in the cabinet (R351). While another
routine of the group runs, the lanes are held at the word without effect (R345). A REP in progress in another subgroup
goes on (R115). -/
def State.trapAt (s : State) (slot : Nat) (m : Mask) (pc : Pc) (rep : Option Nat)
    (cause detail addr : Nat) : State :=
  let g := s.group slot
  let own := g.lanes.zipIdx.any fun p => m.getLsbD p.2 && p.1.sup && !p.1.exited
  let r := match g.rep with
    | some r => if r.mask &&& m = 0 then some r else none
    | none => none
  let c : Cur := { s.cur with slot, mask := m, pc, rep }
  if own then
    s.abortGrid (s.team g.tid).grid (trapCause slot cause detail) (pc.zeroExtend 32) addr
  else if g.inRoutine then
    s.setGroup slot { g.onMask m (fun x => { laneWait c x with trapHeld := true }) with rep := r, swMask := g.swMask &&& ~~~m }
  else
    s.setGroup slot
      { (g.trapCsrs slot cause detail pc addr).onMask m (laneTrap c cause) with rep := r, swMask := g.swMask &&& ~~~m }

/-- Take a precise trap in the issuing subgroup: no effect in any lane (R55, R345). -/
def State.trap (s : State) (cause detail addr : Nat) : State :=
  s.trapAt s.cur.slot s.cur.mask s.cur.pc s.cur.rep cause detail addr

/-- Illegal instruction: TRAPADDR holds TRAPPC (R348). -/
def State.illegal (s : State) (detail : Nat) : State := s.trap 1 detail s.cur.pc.toNat

/-- A lane returns from a routine to TRAPPC; a REP word there continues at REPK (R350, R52). -/
def laneReturn (pc : Pc) (x : Lane) : Lane :=
  if x.sup && !x.exited then { x with pc, sup := false, atEret := false, resumed := true, since := 0 } else x

/-- Return from the routine: the set leaves supervisor mode at TRAPPC, held subgroups re-execute (R345,
R350). -/
def Group.eret (g : Group) : Group :=
  { g with lanes := (g.lanes.map (laneReturn g.trappc)).map fun x => { x with trapHeld := false },
           ibuf := g.ibuf }

/-- Every non-exited thread of the trapped set stands at an ERET (R350). -/
def Group.eretReady (g : Group) : Bool := g.lanes.all fun x => !x.sup || x.exited || x.atEret

/-! ### Memory bytes -/

/-- The byte a party reads at the place where writes to it are performed (R321). A peer's memory, a doorbell
and a merge ingress hold nothing this package can read. -/
def State.readLoc (s : State) : Loc → Byte
  | .dev a => Tab.get 0 s.mem a
  | .host a => Tab.get 0 s.hostMem a
  | .scr c a => Tab.get 0 s.scr (c * 2 ^ 21 + a)
  | .sup t a => Tab.get 0 s.supMem (t * 2 ^ 32 + a)
  | _ => 0

/-- Perform one byte write at its place (R321). -/
def State.writeLoc (s : State) (v : Byte) : Loc → State
  | .dev a => { s with mem := Tab.set 0 s.mem a v }
  | .host a => { s with hostMem := Tab.set 0 s.hostMem a v }
  | .scr c a => { s with scr := Tab.set 0 s.scr (c * 2 ^ 21 + a) v }
  | .sup t a => { s with supMem := Tab.set 0 s.supMem (t * 2 ^ 32 + a) v }
  | _ => s

def Loc.next : Loc → Nat → Loc
  | .dev a, k => .dev (a + k)
  | .peer p a, k => .peer p (a + k)
  | .host a, k => .host (a + k)
  | .scr c a, k => .scr c (a + k)
  | .sup t a, k => .sup t (a + k)
  | .door p m, _ => .door p m
  | .ingress t r, _ => .ingress t r

/-- The location lies in a peer package (R360). -/
def Loc.isPeer : Loc → Bool
  | .peer _ _ => true
  | _ => false

/-- The capacity-tier frame of a device address stands on a port whose link is down (R364). -/
def State.linkLost (s : State) (a : Nat) : Bool :=
  match (s.page (a / 65536)).place with
  | .cap p => !(s.reg (0x180000 + 8 * p)).getLsbD 1
  | _ => false

/-- A device sector in error, or a scratchpad sector in error (R354, R364). -/
def State.poisoned (s : State) : Loc → Bool
  | .dev a => s.poison.contains (a / 32) || s.linkLost a
  | .scr c a => s.poisonScr.contains ((c * 2 ^ 21 + a) / 32)
  | _ => false

/-- An uncorrectable error was met: the cabinet logs its address and stack, and a port counts a poisoned read (R354,
R364). -/
def State.logError (s : State) : Loc → State
  | .dev a =>
    (match (s.page (a / 65536)).place with
     | .hbm k => s.record 4 2 (0x100 + k) (BitVec.ofNat 64 a) (BitVec.ofNat 64 k)
     | .cap p =>
       let n := s.fld (0x180000 + 8 * p) 32 32
       (s.setFld (0x180000 + 8 * p) 32 32 (min (n + 1) 0xFFFFFFFF)).record 4 2 (0x200 + p) (BitVec.ofNat 64 a) 8
     | .none => s.record 4 2 0xFFFF (BitVec.ofNat 64 a) 0)
  | .scr c a => s.record 4 2 (s.core c).num (BitVec.ofNat 64 a) 0
  | _ => s

/-- Bytes of device memory. -/
def State.devBytes (s : State) (a n : Nat) : List Byte := Tab.getSeq 0 s.mem a n

end Sys2Proof.Machine
end

