-- ==== Sys2Proof/Machine/Flags.lean ====
section
/-! DEFINITION. FSTAT (R132): its flags, and how instructions and CSRW change it. -/

namespace Sys2Proof.Machine

/-- The flags of FSTAT, one bit each (R132). -/
abbrev Fl := BitVec 7

def flIV : Fl := 1#7
def flDZ : Fl := 2#7
def flOF : Fl := 4#7
def flUF : Fl := 8#7
def flNX : Fl := 16#7
def flSPX : Fl := 32#7
def flSCL : Fl := 64#7

/-- A flag when a condition holds. -/
def flIf (b : Bool) (f : Fl) : Fl := if b then f else 0

/-- The flags an instruction raises are ORed into FSTAT (R121). -/
def Group.raise (g : Group) (f : Fl) : Group := { g with fstat := g.fstat ||| f }

/-- FSTAT as a 32-bit CSR; reserved bits read zero (R132). -/
def Group.fstatWord (g : Group) : Word := g.fstat.zeroExtend 32

/-- A CSRW of FSTAT; nonzero reserved bits are ignored (R133). -/
def Group.setFstat (g : Group) (w : Word) : Group := { g with fstat := w.extractLsb' 0 7 }

end Sys2Proof.Machine
end

