-- ==== Sys2Proof/Machine/Float.lean ====
section
/-! DEFINITION. The floating formats, exact values, and the one conversion map Conv (R63 to R71), with
the flags it raises. -/

namespace Sys2Proof.Machine

/-- A floating format: width, fraction width, bias, code of the largest finite value, code of infinity where
the format has one, and canonical NaN (R63). -/
structure Fmt where
  w : Nat
  f : Nat
  bias : Nat
  maxc : Nat
  inf : Option Nat
  nan : Nat

def fmt32 : Fmt := { w := 32, f := 23, bias := 127, maxc := 0x7F7FFFFF, inf := some 0x7F800000, nan := 0x7FC00000 }
def fmtB16 : Fmt := { w := 16, f := 7, bias := 127, maxc := 0x7F7F, inf := some 0x7F80, nan := 0x7FC0 }
def fmtH16 : Fmt := { w := 16, f := 10, bias := 15, maxc := 0x7BFF, inf := some 0x7C00, nan := 0x7E00 }
def fmtE4 : Fmt := { w := 8, f := 3, bias := 7, maxc := 0x7E, inf := none, nan := 0x7F }
def fmtE5 : Fmt := { w := 8, f := 2, bias := 15, maxc := 0x7B, inf := some 0x7C, nan := 0x7E }
/-- E2M1 has no NaN; its conversion of NaN gives 0x0 (R70). -/
def fmtE2 : Fmt := { w := 4, f := 1, bias := 1, maxc := 0x7, inf := none, nan := 0x0 }

/-- An exact value: (−1)^neg × num / den × 2^e, an infinity or NaN. A zero keeps its sign. -/
inductive Exact where
  | nan
  | inf (neg : Bool)
  | fin (neg : Bool) (num den : Nat) (e : Int)
  deriving DecidableEq, Repr

/-- The exact value of a code (R63 to R66). -/
def Fmt.decode (F : Fmt) (c : Nat) : Exact :=
  let neg := bitAt c (F.w - 1)
  let m := c % 2 ^ (F.w - 1)
  let e := m / 2 ^ F.f
  let fr := m % 2 ^ F.f
  if F.inf == some m then .inf neg
  else if m > F.maxc then .nan
  else if e = 0 then .fin neg fr 1 (1 - (F.bias : Int) - F.f)
  else .fin neg (2 ^ F.f + fr) 1 ((e : Int) - F.bias - F.f)

def Exact.isNan : Exact → Bool
  | .nan => true
  | _ => false
def Exact.isInf : Exact → Bool
  | .inf _ => true
  | _ => false
def Exact.isZero : Exact → Bool
  | .fin _ n _ _ => n == 0
  | _ => false
def Exact.neg : Exact → Bool
  | .nan => false
  | .inf n => n
  | .fin n _ _ _ => n
/-- The value with the other sign. -/
def Exact.flip : Exact → Exact
  | .nan => .nan
  | .inf n => .inf !n
  | .fin n a d e => .fin (!n) a d e
def Exact.abs : Exact → Exact
  | .nan => .nan
  | .inf _ => .inf false
  | .fin _ a d e => .fin false a d e

/-- num / den × 2^e as a fraction of naturals. -/
def fracOf (num den : Nat) (e : Int) : Nat × Nat :=
  if 0 ≤ e then (num * 2 ^ e.toNat, den) else (num, den * 2 ^ (-e).toNat)

/-- Exact sum of finite values; the sign of an exact zero is given by the caller (R147). -/
def Exact.addFin (zneg n1 : Bool) (a1 d1 : Nat) (e1 : Int) (n2 : Bool) (a2 d2 : Nat) (e2 : Int) : Exact :=
  let e := min e1 e2
  let x := a1 * 2 ^ (e1 - e).toNat * d2
  let y := a2 * 2 ^ (e2 - e).toNat * d1
  if n1 == n2 then .fin (if x + y = 0 then (n1 && n2) else n1) (x + y) (d1 * d2) e
  else if x = y then .fin zneg 0 1 0
  else if x > y then .fin n1 (x - y) (d1 * d2) e
  else .fin n2 (y - x) (d1 * d2) e

/-- Exact sum; NaN for a NaN operand and for infinities of both signs. -/
def Exact.add (zneg : Bool) : Exact → Exact → Exact
  | .nan, _ => .nan
  | _, .nan => .nan
  | .inf n, .inf m => if n == m then .inf n else .nan
  | .inf n, _ => .inf n
  | _, .inf n => .inf n
  | .fin n1 a1 d1 e1, .fin n2 a2 d2 e2 => Exact.addFin zneg n1 a1 d1 e1 n2 a2 d2 e2

/-- Exact product; NaN for a NaN operand and for 0 × ∞. -/
def Exact.mul : Exact → Exact → Exact
  | .nan, _ => .nan
  | _, .nan => .nan
  | .inf n, .inf m => .inf (n != m)
  | .inf n, .fin m a _ _ => if a = 0 then .nan else .inf (n != m)
  | .fin m a _ _, .inf n => if a = 0 then .nan else .inf (n != m)
  | .fin n1 a1 d1 e1, .fin n2 a2 d2 e2 => .fin (n1 != n2) (a1 * a2) (d1 * d2) (e1 + e2)

/-- Exact quotient of finite values with a nonzero divisor. -/
def Exact.quot : Exact → Exact → Exact
  | .fin n1 a1 d1 e1, .fin n2 a2 d2 e2 => .fin (n1 != n2) (a1 * d2) (d1 * a2) (e1 - e2)
  | .inf n, .fin m _ _ _ => .inf (n != m)
  | _, _ => .nan

/-- x × 2^n. -/
def Exact.scale (n : Int) : Exact → Exact
  | .fin s a d e => .fin s a d (e + n)
  | x => x

/-- Order of two non-NaN values as real numbers: less, with −0 equal to +0. -/
def Exact.lt : Exact → Exact → Bool
  | .nan, _ => false
  | _, .nan => false
  | .inf n, .inf m => n && !m
  | .inf n, _ => n
  | _, .inf m => !m
  | .fin n1 a1 d1 e1, .fin n2 a2 d2 e2 =>
    let e := min e1 e2
    let x : Int := (a1 * 2 ^ (e1 - e).toNat * d2 : Nat)
    let y : Int := (a2 * 2 ^ (e2 - e).toNat * d1 : Nat)
    decide ((if n1 then -x else x) < (if n2 then -y else y))
def Exact.le (x y : Exact) : Bool := !x.isNan && !y.isNan && !Exact.lt y x
def Exact.eqv (x y : Exact) : Bool := Exact.le x y && Exact.le y x

/-- ⌊log2 (num / den)⌋ for num, den > 0. -/
def ilog2 (num den : Nat) : Int :=
  let k : Int := (Nat.log2 num : Int) - Nat.log2 den
  let p := fracOf 1 1 k
  if p.1 * den ≤ num * p.2 then k else k - 1

/-- Round the fraction n / d to an integer under a mode; `neg` is the sign of the value (R70). -/
def roundNat (r : Rnd) (neg : Bool) (n d : Nat) : Nat :=
  let q := n / d
  let rem := n % d
  if rem = 0 then q
  else match r with
    | .rtz => q
    | .rup => if neg then q else q + 1
    | .rdn => if neg then q + 1 else q
    | .rne => if 2 * rem < d then q else if d < 2 * rem then q + 1 else if q % 2 = 0 then q else q + 1

/-- The grid of a format at a finite nonzero magnitude: exponent of its unit, with the exponent extended
upward without bound. -/
def Fmt.unit (F : Fmt) (num den : Nat) (e : Int) : Int :=
  max (ilog2 num den + e) (1 - (F.bias : Int)) - F.f

/-- Code of m × 2^q on the format's grid, extended past the largest finite code. -/
def Fmt.code (F : Fmt) (m : Nat) (q : Int) : Nat :=
  let mq := if m = 2 ^ (F.f + 1) then (2 ^ F.f, q + 1) else (m, q)
  if mq.1 < 2 ^ F.f then mq.1
  else (mq.2 + F.f + F.bias).toNat * 2 ^ F.f + (mq.1 - 2 ^ F.f)

/-- The code with a sign. -/
def Fmt.signed (F : Fmt) (neg : Bool) (c : Nat) : Nat := if neg then 2 ^ (F.w - 1) + c else c

/-- Overflow of Conv: the result under the mode and SAT (R70). -/
def Fmt.overCode (F : Fmt) (r : Rnd) (sat neg : Bool) : Nat :=
  match F.inf with
  | none => F.maxc
  | some i =>
    if sat then F.maxc
    else match r with
      | .rne => i
      | .rtz => F.maxc
      | .rup => if neg then F.maxc else i
      | .rdn => if neg then i else F.maxc

/-- |x| lies below the smallest normal value (R70). -/
def Fmt.tiny (F : Fmt) (num den : Nat) (e : Int) : Bool :=
  num != 0 && decide (ilog2 num den + e < 1 - (F.bias : Int))

/-- Conv(x, F, mode) with SAT, and the flags it raises (R70). -/
def conv (F : Fmt) (r : Rnd) (sat : Bool) : Exact → Nat × Fl
  | .nan => (F.nan, flIf (F.w == 4) flIV)
  | .inf n =>
    match F.inf with
    | none => (F.signed n F.maxc, flIV)
    | some i => (F.signed n (if sat then F.maxc else i), 0)
  | .fin n num den e =>
    if num = 0 then (F.signed n 0, 0) else
    let q := F.unit num den e
    let fr := fracOf num den (e - q)
    let m := roundNat r n fr.1 fr.2
    let c := F.code m q
    if c > F.maxc then (F.signed n (F.overCode r sat n), flOF ||| flNX)
    else
      let nx := fr.1 % fr.2 != 0
      (F.signed n c, flIf nx flNX ||| flIf (nx && F.tiny num den e) flUF)

/-- StochBits(seed, l, i) (R71). -/
def stochBits (seed : Word) (l i : Nat) : Nat :=
  let h := seed + 0x9E3779B9#32 * BitVec.ofNat 32 (64 * i + l + 1)
  let h := h ^^^ (h >>> 16)
  let h := h * 0x85EBCA6B#32
  let h := h ^^^ (h >>> 13)
  (h.extractLsb' 0 16).toNat

/-- Stochastic rounding (R71): where x lies strictly between two grid values, both within range, the upper
is taken when r is below ⌊65,536 f⌋; every other x follows RNE. -/
def convSr (F : Fmt) (sat : Bool) (r : Nat) (x : Exact) : Nat × Fl :=
  match x with
  | .fin n num den e =>
    if num = 0 then conv F .rne sat x else
    let q := F.unit num den e
    let fr := fracOf num den (e - q)
    let lo := fr.1 / fr.2
    let rem := fr.1 % fr.2
    if rem = 0 ∨ F.code (lo + 1) q > F.maxc then conv F .rne sat x
    else
      let m := if r < 65536 * rem / fr.2 then lo + 1 else lo
      (F.signed n (F.code m q), flNX ||| flIf (F.tiny num den e) flUF)
  | x => conv F .rne sat x

/-- Exact value of an integer. -/
def Exact.ofInt (i : Int) : Exact := .fin (decide (i < 0)) i.natAbs 1 0

/-- A float converted to an integer type with range [lo, hi]: rounded, or clamped with IV (R70). -/
def convInt (r : Rnd) (lo hi : Int) : Exact → Int × Fl
  | .nan => (0, flIV)
  | .inf n => (if n then lo else hi, flIV)
  | .fin n num den e =>
    let fr := fracOf num den e
    let m : Int := roundNat r n fr.1 fr.2
    let v := if n then -m else m
    if v < lo then (lo, flIV) else if hi < v then (hi, flIV)
    else (v, flIf (fr.1 % fr.2 != 0) flNX)

/-- FP32 pattern to exact value, and Conv to FP32 as a word. -/
def f32 (w : Word) : Exact := fmt32.decode w.toNat
def toF32 (r : Rnd) (x : Exact) : Word × Fl :=
  let p := conv fmt32 r false x
  (BitVec.ofNat 32 p.1, p.2)
def nan32 : Word := 0x7FC00000#32

/-- RoundUp(x, .f32) (R55, R70). -/
def roundUp32 (x : Exact) : Word × Fl := toF32 .rup x

/-- DecE3M5 (R55, R67). -/
def decE3M5 (c : Nat) : Exact :=
  let e := bits c 5 3
  let m := bits c 0 5
  if e ≥ 1 then .fin false (32 + m) 1 ((e : Int) - 7 - 5) else .fin false m 1 (-6 - 5)

/-- minimumNumber and maximumNumber on patterns of a format, −0 below +0 (R148). -/
def fkey (F : Fmt) (c : Nat) : Int :=
  let m : Int := (c % 2 ^ (F.w - 1) : Nat)
  if bitAt c (F.w - 1) then -m - 1 else m
def fminN (F : Fmt) (a b : Nat) : Nat :=
  if (F.decode a).isNan then (if (F.decode b).isNan then F.nan else b)
  else if (F.decode b).isNan then a
  else if fkey F a ≤ fkey F b then a else b
def fmaxN (F : Fmt) (a b : Nat) : Nat :=
  if (F.decode a).isNan then (if (F.decode b).isNan then F.nan else b)
  else if (F.decode b).isNan then a
  else if fkey F a ≥ fkey F b then a else b

/-- The rule shared by FADD, FMUL, FFMA and their packed forms (R147): NaN operand first, then an invalid
operation, then Conv. -/
def arith (F : Fmt) (r : Rnd) (ops : List Exact) (x : Exact) : Nat × Fl :=
  if ops.any Exact.isNan then (F.nan, 0)
  else match x with
    | .nan => (F.nan, flIV)
    | x => conv F r false x

def fAdd (F : Fmt) (r : Rnd) (a b : Exact) : Nat × Fl := arith F r [a, b] (Exact.add (r == .rdn) a b)
def fMul (F : Fmt) (r : Rnd) (a b : Exact) : Nat × Fl := arith F r [a, b] (Exact.mul a b)
def fFma (F : Fmt) (r : Rnd) (a b c : Exact) : Nat × Fl :=
  arith F r [a, b, c] (Exact.add (r == .rdn) (Exact.mul a b) c)

/-- The floating format a type code names; FP32 where it names none. -/
def tyFmt : Ty → Fmt
  | .bf16 => fmtB16
  | .f16 => fmtH16
  | .e4m3 => fmtE4
  | .e5m2 => fmtE5
  | .e2m1 => fmtE2
  | _ => fmt32

/-- Round to an integral value keeping the sign (R149). -/
def integral (r : Rnd) : Exact → Exact
  | .fin n num den e =>
    let fr := fracOf num den e
    .fin n (roundNat r n fr.1 fr.2) 1 0
  | x => x

end Sys2Proof.Machine
end

