-- ==== Sys2Proof/Decode.lean ====
section
/-! DEFINITION. The 96-bit instruction word: its fields, the instruction they name, the conditions that
make a word illegal whatever its context (R53), the decoder, and after it the encoder. -/

namespace Sys2Proof

/-! ### Fields -/

/-- The fields of a word (R33). -/
structure Raw where
  opc  : BitVec 12
  g    : BitVec 4
  d    : BitVec 10
  a    : BitVec 10
  b    : BitVec 10
  x    : BitVec 10
  imm  : Word
  hint : BitVec 8
  deriving DecidableEq, Repr

/-- The fields at their bit positions (R33). -/
def Raw.ofBits (w : BitVec 96) : Raw :=
  { opc := w.extractLsb' 84 12, g := w.extractLsb' 80 4, d := w.extractLsb' 70 10,
    a := w.extractLsb' 60 10, b := w.extractLsb' 50 10, x := w.extractLsb' 40 10,
    imm := w.extractLsb' 8 32, hint := w.extractLsb' 0 8 }

/-- The word with these fields, OPC leftmost (R33). -/
def Raw.toBits (r : Raw) : BitVec 96 :=
  r.opc ++ r.g ++ r.d ++ r.a ++ r.b ++ r.x ++ r.imm ++ r.hint

/-- File selector in [9:8], index in [7:0] (R35). -/
def Opnd.ofBits (w : BitVec 10) : Opnd :=
  let i := w.extractLsb' 0 8
  match (w.extractLsb' 8 2).toNat with
  | 0 => .vec i
  | 1 => .uni i
  | 2 => .spc i
  | _ => .con i

def Opnd.toBits : Opnd → BitVec 10
  | .vec i => 0#2 ++ i
  | .uni i => 1#2 ++ i
  | .spc i => 2#2 ++ i
  | .con i => 3#2 ++ i

/-- X.TYPE (R40). -/
def Ty.ofBits (w : BitVec 4) : Ty :=
  match w.toNat with
  | 0 => .dflt | 1 => .i8 | 2 => .i16 | 3 => .i32 | 4 => .r4 | 5 => .n8 | 6 => .n16 | 7 => .n32
  | 8 => .f32 | 9 => .bf16 | 10 => .f16 | 11 => .e4m3 | 12 => .e5m2 | 13 => .e2m1 | 14 => .b1 | _ => .rF

def Ty.toBits : Ty → BitVec 4
  | .dflt => 0 | .i8 => 1 | .i16 => 2 | .i32 => 3 | .r4 => 4 | .n8 => 5 | .n16 => 6 | .n32 => 7
  | .f32 => 8 | .bf16 => 9 | .f16 => 10 | .e4m3 => 11 | .e5m2 => 12 | .e2m1 => 13 | .b1 => 14 | .rF => 15

/-- X.RND (R40). -/
def Rnd.ofBits (w : BitVec 2) : Rnd :=
  match w.toNat with
  | 0 => .rne | 1 => .rtz | 2 => .rup | _ => .rdn

def Rnd.toBits : Rnd → BitVec 2
  | .rne => 0 | .rtz => 1 | .rup => 2 | .rdn => 3

/-- X.TYPE of class 0x8 (R184). -/
def MemTy.ofBits (w : BitVec 4) : MemTy :=
  match w.toNat with
  | 0 => .dflt | 1 => .i8 | 2 => .i16 | 3 => .i32 | 4 => .r4 | 5 => .n8 | 6 => .n16 | 7 => .n32
  | 8 => .r8 | 9 => .r9 | 10 => .rA | 11 => .rB | 12 => .b64 | 13 => .b128 | 14 => .rE | _ => .rF

def MemTy.toBits : MemTy → BitVec 4
  | .dflt => 0 | .i8 => 1 | .i16 => 2 | .i32 => 3 | .r4 => 4 | .n8 => 5 | .n16 => 6 | .n32 => 7
  | .r8 => 8 | .r9 => 9 | .rA => 10 | .rB => 11 | .b64 => 12 | .b128 => 13 | .rE => 14 | .rF => 15

/-- X.TYPE of class 0x9 (R194). -/
def AtTy.ofBits (w : BitVec 2) : AtTy :=
  match w.toNat with
  | 0 => .i32 | 1 => .n32 | 2 => .f32 | _ => .n64

def AtTy.toBits : AtTy → BitVec 2
  | .i32 => 0 | .n32 => 1 | .f32 => 2 | .n64 => 3

/-- SPACE (R184, R194). -/
def Space.ofBits (w : BitVec 2) : Space :=
  match w.toNat with
  | 0 => .g | 1 => .p | 2 => .s | _ => .c

def Space.toBits : Space → BitVec 2
  | .g => 0 | .p => 1 | .s => 2 | .c => 3

/-- ORD (R191, R194, R302). -/
def Ord.ofBits (w : BitVec 2) : Ord :=
  match w.toNat with
  | 0 => .rlx | 1 => .acq | 2 => .rel | _ => .ar

def Ord.toBits : Ord → BitVec 2
  | .rlx => 0 | .acq => 1 | .rel => 2 | .ar => 3

/-- SCOPE (R191). -/
def Scope.ofBits (w : BitVec 4) : Scope :=
  match w.toNat with
  | 0 => .thread | 1 => .group | 2 => .team | 3 => .core | 4 => .cluster | 5 => .die | 6 => .package
  | 7 => .host | 8 => .fabric | 9 => .system | 10 => .r10 | 11 => .r11 | 12 => .r12 | 13 => .r13
  | 14 => .r14 | _ => .r15

def Scope.toBits : Scope → BitVec 4
  | .thread => 0 | .group => 1 | .team => 2 | .core => 3 | .cluster => 4 | .die => 5 | .package => 6
  | .host => 7 | .fabric => 8 | .system => 9 | .r10 => 10 | .r11 => 11 | .r12 => 12 | .r13 => 13
  | .r14 => 14 | .r15 => 15

/-- One bit as a bit vector. -/
def bit1 (b : Bool) : BitVec 1 := BitVec.ofBool b

/-! ### Header and operand records -/

/-- Guard and hints (R33, R42). -/
def hdrOf (r : Raw) : Hdr :=
  { neg := r.g.getLsbD 3, pred := r.g.extractLsb' 0 3, safe := r.hint.getLsbD 7,
    sw := r.hint.getLsbD 6, ra := r.hint.getLsbD 5, rb := r.hint.getLsbD 4 }

def Hdr.gBits (h : Hdr) : BitVec 4 := bit1 h.neg ++ h.pred
def Hdr.hintBits (h : Hdr) : BitVec 8 := bit1 h.safe ++ bit1 h.sw ++ bit1 h.ra ++ bit1 h.rb ++ 0#4

def ctlOf (r : Raw) : CtlOps :=
  { d := .ofBits r.d, a := .ofBits r.a, b := .ofBits r.b, imm := r.imm }

def ctlRaw (opc : BitVec 12) (mode : BitVec 2) (h : Hdr) (o : CtlOps) : Raw :=
  { opc, g := h.gBits, d := o.d.toBits, a := o.a.toBits, b := o.b.toBits, x := 0#8 ++ mode,
    imm := o.imm, hint := h.hintBits }

def repOf (r : Raw) : RepOps :=
  { countM1 := r.imm.extractLsb' 0 6, sd := r.imm.extractLsb' 6 2, sa := r.imm.extractLsb' 8 2,
    sb := r.imm.extractLsb' 10 2, sc := r.imm.extractLsb' 12 2 }

def repRaw (h : Hdr) (o : RepOps) : Raw :=
  { opc := 0x008, g := h.gBits, d := 0, a := 0, b := 0, x := 0,
    imm := 0#18 ++ o.sc ++ o.sb ++ o.sa ++ o.sd ++ o.countM1, hint := h.hintBits }

def aluOf (r : Raw) : AluOps :=
  { d := .ofBits r.d, a := .ofBits r.a, b := .ofBits r.b, ty := .ofBits (r.x.extractLsb' 0 4),
    rnd := .ofBits (r.x.extractLsb' 4 2), sat := r.x.getLsbD 6, mod := r.x.extractLsb' 7 3,
    imm := r.imm }

def aluRaw (opc : BitVec 12) (h : Hdr) (o : AluOps) : Raw :=
  { opc, g := h.gBits, d := o.d.toBits, a := o.a.toBits, b := o.b.toBits,
    x := o.mod ++ bit1 o.sat ++ o.rnd.toBits ++ o.ty.toBits, imm := o.imm, hint := h.hintBits }

def memOf (r : Raw) : MemOps :=
  { d := .ofBits r.d, a := .ofBits r.a, b := .ofBits r.b, ty := .ofBits (r.x.extractLsb' 0 4),
    space := .ofBits (r.x.extractLsb' 4 2), idx := r.x.getLsbD 6, mod := r.x.extractLsb' 7 2,
    imm := r.imm }

def memRaw (opc : BitVec 12) (h : Hdr) (o : MemOps) : Raw :=
  { opc, g := h.gBits, d := o.d.toBits, a := o.a.toBits, b := o.b.toBits,
    x := 0#1 ++ o.mod ++ bit1 o.idx ++ o.space.toBits ++ o.ty.toBits, imm := o.imm,
    hint := h.hintBits }

def fenceOf (r : Raw) : FenceOps :=
  { ord := .ofBits (r.x.extractLsb' 4 2), scope := .ofBits (r.x.extractLsb' 6 4) }

def fenceRaw (h : Hdr) (o : FenceOps) : Raw :=
  { opc := 0x805, g := h.gBits, d := 0, a := 0, b := 0, x := o.scope.toBits ++ o.ord.toBits ++ 0#4,
    imm := 0, hint := h.hintBits }

def atomOf (r : Raw) : AtomOps :=
  { d := .ofBits r.d, a := .ofBits r.a, b := .ofBits r.b, ty := .ofBits (r.x.extractLsb' 0 2),
    space := .ofBits (r.x.extractLsb' 2 2), ord := .ofBits (r.x.extractLsb' 4 2),
    scope := .ofBits (r.x.extractLsb' 6 4), c := .ofBits (r.imm.extractLsb' 0 10),
    op := r.imm.extractLsb' 10 4, sh := r.imm.extractLsb' 14 3 }

def atomRaw (opc : BitVec 12) (h : Hdr) (o : AtomOps) : Raw :=
  { opc, g := h.gBits, d := o.d.toBits, a := o.a.toBits, b := o.b.toBits,
    x := o.scope.toBits ++ o.ord.toBits ++ o.space.toBits ++ o.ty.toBits,
    imm := 0#15 ++ o.sh ++ o.op ++ o.c.toBits, hint := h.hintBits }

/-- Class 0xA but CELLCFG: MOD is HUSE, HIDX and the flag (R302). -/
def cellOf (r : Raw) : CellOps :=
  { d := .ofBits r.d, a := .ofBits r.a, b := .ofBits r.b, huse := r.x.getLsbD 3,
    hidx := r.x.extractLsb' 1 2, flag := r.x.getLsbD 0, ord := .ofBits (r.x.extractLsb' 4 2),
    scope := .ofBits (r.x.extractLsb' 6 4), imm := r.imm }

def cellRaw (opc : BitVec 12) (h : Hdr) (o : CellOps) : Raw :=
  { opc, g := h.gBits, d := o.d.toBits, a := o.a.toBits, b := o.b.toBits,
    x := o.scope.toBits ++ o.ord.toBits ++ bit1 o.huse ++ o.hidx ++ bit1 o.flag, imm := o.imm,
    hint := h.hintBits }

/-- CELLCFG: MOD is the kind, X[45:44] is HIDX (R302). -/
def cfgOf (r : Raw) : CellOps :=
  { d := .ofBits r.d, a := .ofBits r.a, b := .ofBits r.b, huse := false,
    hidx := r.x.extractLsb' 4 2, flag := false, ord := .rlx,
    scope := .ofBits (r.x.extractLsb' 6 4), imm := r.imm }

def cfgRaw (kind : BitVec 4) (h : Hdr) (o : CellOps) : Raw :=
  { opc := 0xA00, g := h.gBits, d := o.d.toBits, a := o.a.toBits, b := o.b.toBits,
    x := o.scope.toBits ++ o.hidx ++ kind, imm := o.imm, hint := h.hintBits }

def matOf (r : Raw) : MatOps :=
  { d := .ofBits r.d, a := .ofBits r.a, b := .ofBits r.b, c := .ofBits (r.imm.extractLsb' 0 10),
    sreg := r.imm.extractLsb' 10 8, sb := r.imm.extractLsb' 18 2, tq := r.imm.getLsbD 23,
    qi := r.imm.extractLsb' 20 3, au := r.x.getLsbD 0, sat := r.x.getLsbD 1 }

def matRaw (opc : BitVec 12) (h : Hdr) (o : MatOps) : Raw :=
  { opc, g := h.gBits, d := o.d.toBits, a := o.a.toBits, b := o.b.toBits,
    x := 0#8 ++ bit1 o.sat ++ bit1 o.au,
    imm := 0#8 ++ bit1 o.tq ++ o.qi ++ o.sb ++ o.sreg ++ o.c.toBits, hint := h.hintBits }

def shelfOf (r : Raw) : ShelfOps :=
  { d := .ofBits r.d, a := .ofBits r.a, b := .ofBits r.b, reuse := r.x.getLsbD 0,
    cell := r.imm.extractLsb' 0 6 }

def shelfRaw (opc : BitVec 12) (h : Hdr) (o : ShelfOps) : Raw :=
  { opc, g := h.gBits, d := o.d.toBits, a := o.a.toBits, b := o.b.toBits, x := 0#9 ++ bit1 o.reuse,
    imm := 0#26 ++ o.cell, hint := h.hintBits }

def tileOf (r : Raw) : TileOps :=
  { d := .ofBits r.d, a := .ofBits r.a, b := .ofBits r.b, imm := r.imm }

def tileRaw (opc : BitVec 12) (mode : BitVec 2) (h : Hdr) (o : TileOps) : Raw :=
  { opc, g := h.gBits, d := o.d.toBits, a := o.a.toBits, b := o.b.toBits, x := 0#8 ++ mode,
    imm := o.imm, hint := h.hintBits }

def ffpOf (r : Raw) : FfpOps :=
  { d := .ofBits r.d, a := .ofBits r.a, b := .ofBits r.b, abs := r.x.getLsbD 7, imm := r.imm }

def ffpRaw (opc : BitVec 12) (h : Hdr) (o : FfpOps) : Raw :=
  { opc, g := h.gBits, d := o.d.toBits, a := o.a.toBits, b := o.b.toBits,
    x := 0#2 ++ bit1 o.abs ++ 0#7, imm := o.imm, hint := h.hintBits }

def isectOf (r : Raw) : IsectOps :=
  { d := .ofBits r.d, a := .ofBits r.a, b := .ofBits r.b, c := .ofBits (r.imm.extractLsb' 0 10),
    emit := r.x.getLsbD 7 }

def isectRaw (h : Hdr) (o : IsectOps) : Raw :=
  { opc := 0xC08, g := h.gBits, d := o.d.toBits, a := o.a.toBits, b := o.b.toBits,
    x := 0#2 ++ bit1 o.emit ++ 0#7, imm := 0#22 ++ o.c.toBits, hint := h.hintBits }

def engOf (r : Raw) : EngOps :=
  { d := .ofBits r.d, a := .ofBits r.a, b := .ofBits r.b, res := r.x.getLsbD 0, imm := r.imm }

def engRaw (opc : BitVec 12) (h : Hdr) (o : EngOps) : Raw :=
  { opc, g := h.gBits, d := o.d.toBits, a := o.a.toBits, b := o.b.toBits, x := 0#9 ++ bit1 o.res,
    imm := o.imm, hint := h.hintBits }

def launchOf (r : Raw) : LaunchOps :=
  { d := .ofBits r.d, a := .ofBits r.a, b := .ofBits r.b, prio := r.x.extractLsb' 0 3,
    cen := r.x.getLsbD 5, rel := r.x.getLsbD 6, imm := r.imm }

/-- `form` is X[44:43], `dis` X[47] (R91). -/
def launchRaw (opc : BitVec 12) (form : BitVec 2) (dis : Bool) (h : Hdr) (o : LaunchOps) : Raw :=
  { opc, g := h.gBits, d := o.d.toBits, a := o.a.toBits, b := o.b.toBits,
    x := 0#2 ++ bit1 dis ++ bit1 o.rel ++ bit1 o.cen ++ form ++ o.prio, imm := o.imm,
    hint := h.hintBits }

/-- The X.MODE or MOD bits that pick a constructor. -/
def Raw.xlow (r : Raw) : Nat := (r.x.extractLsb' 0 2).toNat
def Raw.xkind (r : Raw) : Nat := (r.x.extractLsb' 0 4).toNat
def Raw.xform (r : Raw) : Nat := (r.x.extractLsb' 3 2).toNat

/-! ### The instruction a word names -/

/-- The instruction of the opcode map (R54); none where the map lists nothing. Bits that the instruction does
not use are ignored here and found by `Raw.unused`. -/
def instrOf (r : Raw) : Option Instr :=
  let h := hdrOf r
  match r.opc.toNat with
  | 0x000 => some (.nop h (ctlOf r))
  | 0x001 => some (.bra h (ctlOf r))
  | 0x002 => some (.brx h (ctlOf r))
  | 0x003 => some (.call h (ctlOf r))
  | 0x004 => some (.callx h (ctlOf r))
  | 0x005 => some (.ret h (ctlOf r))
  | 0x006 => some (.exit h (ctlOf r))
  | 0x007 => some (match r.xlow with | 1 => .meetSave h (ctlOf r) | 2 => .meetRestore h (ctlOf r) | _ => .meetSet h (ctlOf r))
  | 0x008 => some (.rep h (repOf r))
  | 0x009 => some (.yield h (ctlOf r))
  | 0x00A => some (.sleep h (ctlOf r))
  | 0x00B => some (.trap h (ctlOf r))
  | 0x00C => some (.eret h (ctlOf r))
  | 0x00D => some (.csrr h (ctlOf r))
  | 0x00E => some (.csrw h (ctlOf r))
  | 0x100 => some (.iadd h (aluOf r))
  | 0x101 => some (.iadd3 h (aluOf r))
  | 0x102 => some (.isub h (aluOf r))
  | 0x103 => some (.imul h (aluOf r))
  | 0x104 => some (.imulh h (aluOf r))
  | 0x105 => some (.imad h (aluOf r))
  | 0x106 => some (.imadw h (aluOf r))
  | 0x107 => some (.imin h (aluOf r))
  | 0x108 => some (.imax h (aluOf r))
  | 0x109 => some (.iabs h (aluOf r))
  | 0x10A => some (.ineg h (aluOf r))
  | 0x10B => some (.isad h (aluOf r))
  | 0x10C => some (.lea h (aluOf r))
  | 0x10D => some (.idp4 h (aluOf r))
  | 0x10E => some (.idp2 h (aluOf r))
  | 0x200 => some (.land h (aluOf r))
  | 0x201 => some (.lor h (aluOf r))
  | 0x202 => some (.lxor h (aluOf r))
  | 0x203 => some (.lnot h (aluOf r))
  | 0x204 => some (.logt h (aluOf r))
  | 0x205 => some (.shl h (aluOf r))
  | 0x206 => some (.shr h (aluOf r))
  | 0x207 => some (.sar h (aluOf r))
  | 0x208 => some (.rot h (aluOf r))
  | 0x209 => some (.fshl h (aluOf r))
  | 0x20A => some (.popc h (aluOf r))
  | 0x20B => some (.clz h (aluOf r))
  | 0x20C => some (.ctz h (aluOf r))
  | 0x20D => some (.brev h (aluOf r))
  | 0x20E => some (.bfe h (aluOf r))
  | 0x20F => some (.bfi h (aluOf r))
  | 0x210 => some (.bmix h (aluOf r))
  | 0x300 => some (.icmp h (aluOf r))
  | 0x301 => some (.fcmp h (aluOf r))
  | 0x302 => some (.plog h (aluOf r))
  | 0x303 => some (.sel h (aluOf r))
  | 0x304 => some (.mov h (aluOf r))
  | 0x305 => some (.movi h (aluOf r))
  | 0x306 => some (.movs h (aluOf r))
  | 0x307 => some (.rdlane h (aluOf r))
  | 0x308 => some (if r.x.getLsbD 7 then .pmovP h (aluOf r) else .pmov h (aluOf r))
  | 0x400 => some (.fadd h (aluOf r))
  | 0x401 => some (.fsub h (aluOf r))
  | 0x402 => some (.fmul h (aluOf r))
  | 0x403 => some (.ffma h (aluOf r))
  | 0x404 => some (.fmin h (aluOf r))
  | 0x405 => some (.fmax h (aluOf r))
  | 0x406 => some (.frnd h (aluOf r))
  | 0x407 => some (.fclass h (aluOf r))
  | 0x408 => some (.fscl h (aluOf r))
  | 0x500 => some (.pkadd h (aluOf r))
  | 0x501 => some (.pkmul h (aluOf r))
  | 0x502 => some (.pkfma h (aluOf r))
  | 0x503 => some (.pkmin h (aluOf r))
  | 0x504 => some (.pkmax h (aluOf r))
  | 0x510 => some (.frcp h (aluOf r))
  | 0x511 => some (.frsq h (aluOf r))
  | 0x512 => some (.fsqrt h (aluOf r))
  | 0x513 => some (.fex2 h (aluOf r))
  | 0x514 => some (.flg2 h (aluOf r))
  | 0x515 => some (.fsin h (aluOf r))
  | 0x516 => some (.fcos h (aluOf r))
  | 0x517 => some (.ftanh h (aluOf r))
  | 0x518 => some (.fsigm h (aluOf r))
  | 0x600 => some (.cvt h (aluOf r))
  | 0x601 => some (.cvtp h (aluOf r))
  | 0x602 => some (.cvtu h (aluOf r))
  | 0x603 => some (.amax h (aluOf r))
  | 0x604 => some (.scaleq h (aluOf r))
  | 0x605 => some (.abssum h (aluOf r))
  | 0x700 => some (.shfl h (aluOf r))
  | 0x701 => some (.vote h (aluOf r))
  | 0x702 => some (.redl h (aluOf r))
  | 0x703 => some (.scanl h (aluOf r))
  | 0x704 => some (.matchl h (aluOf r))
  | 0x800 => some (.ld h (memOf r))
  | 0x801 => some (.st h (memOf r))
  | 0x802 => some (.ldu h (memOf r))
  | 0x803 => some (.pfetch h (memOf r))
  | 0x804 => some (.ldx h (memOf r))
  | 0x805 => some (.fence h (fenceOf r))
  | 0x806 => some (if r.x.getLsbD 7 then .flushAll h (memOf r) else .flush h (memOf r))
  | 0x807 => some (if r.x.getLsbD 7 then .invlAll h (memOf r) else .invl h (memOf r))
  | 0x900 => some (.atom h (atomOf r))
  | 0x901 => some (.atomc h (atomOf r))
  | 0x902 => some (.red h (atomOf r))
  | 0x903 => some (.atomord h (atomOf r))
  | 0x904 => some (.waita h (atomOf r))
  | 0xA00 => some (match r.xkind with | 1 => .cellcfgSem h (cfgOf r) | 2 => .cellcfgBar h (cfgOf r) | 3 => .cellcfgRing h (cfgOf r) | 4 => .cellcfgQueue h (cfgOf r) | 8 => .cellcfgBind h (cfgOf r) | 9 => .cellcfgUnbind h (cfgOf r) | _ => .cellcfgFree h (cfgOf r))
  | 0xA01 => some (.cellrd h (cellOf r))
  | 0xA02 => some (.semsig h (cellOf r))
  | 0xA03 => some (.semwait h (cellOf r))
  | 0xA04 => some (.bararv h (cellOf r))
  | 0xA05 => some (.barwait h (cellOf r))
  | 0xA06 => some (.ringpub h (cellOf r))
  | 0xA07 => some (if r.x.getLsbD 0 then .ringawtFree h (cellOf r) else .ringawtData h (cellOf r))
  | 0xA08 => some (.ringrel h (cellOf r))
  | 0xA09 => some (.qpush h (cellOf r))
  | 0xA0A => some (.qpop h (cellOf r))
  | 0xB00 => some (.mmaF4b h (matOf r))
  | 0xB01 => some (.mmaF8a h (matOf r))
  | 0xB02 => some (.mmaF8b h (matOf r))
  | 0xB03 => some (.mmaB16 h (matOf r))
  | 0xB04 => some (.mmaH16 h (matOf r))
  | 0xB05 => some (.mmaI8 h (matOf r))
  | 0xB08 => some (.mmaspF4b h (matOf r))
  | 0xB09 => some (.mmaspF8a h (matOf r))
  | 0xB0D => some (.mmaspI8 h (matOf r))
  | 0xB10 => some (.station h (shelfOf r))
  | 0xB11 => some (.unstat h (shelfOf r))
  | 0xB12 => some (.wload h (shelfOf r))
  | 0xB18 => some (.qld h (tileOf r))
  | 0xB19 => some (match r.xlow with | 1 => .qsetRange h (tileOf r) | 2 => .qsetAll h (tileOf r) | 3 => .qsetRd h (tileOf r) | _ => .qsetV h (tileOf r))
  | 0xB1A => some (.qlog h (tileOf r))
  | 0xC00 => some (.ffpsel h (ffpOf r))
  | 0xC01 => some (.ffpbnd h (ffpOf r))
  | 0xC02 => some (.ffpfch h (ffpOf r))
  | 0xC08 => some (.isect h (isectOf r))
  | 0xD00 => some (.xcopy h (engOf r))
  | 0xD01 => some (.xgath h (engOf r))
  | 0xD02 => some (.tqpost h (engOf r))
  | 0xD10 => some (match r.xform with | 1 => .glaunchG h (launchOf r) | 2 => .glaunchSeal h (launchOf r) | 3 => .glaunchFree h (launchOf r) | _ => .glaunchK h (launchOf r))
  | 0xD11 => some (.trig h (launchOf r))
  | 0xD12 => some (.chunk h (launchOf r))
  | 0xD13 => some (if r.x.getLsbD 7 then .mboxarmD h (launchOf r) else .mboxarm h (launchOf r))
  | 0xD14 => some (.stepCtr h (launchOf r))
  | 0xD15 => some (.lhint h (launchOf r))
  | _ => none

/-! ### The encoder's fields -/

/-- The fields of an instruction's word, unused bits zero; none for the rows that are steps of the device. -/
def Instr.raw : Instr → Option Raw
  | .nop h o => some (ctlRaw 0x000 0 h o)
  | .bra h o => some (ctlRaw 0x001 0 h o)
  | .brx h o => some (ctlRaw 0x002 0 h o)
  | .call h o => some (ctlRaw 0x003 0 h o)
  | .callx h o => some (ctlRaw 0x004 0 h o)
  | .ret h o => some (ctlRaw 0x005 0 h o)
  | .exit h o => some (ctlRaw 0x006 0 h o)
  | .meetSet h o => some (ctlRaw 0x007 0 h o)
  | .meetSave h o => some (ctlRaw 0x007 1 h o)
  | .meetRestore h o => some (ctlRaw 0x007 2 h o)
  | .yield h o => some (ctlRaw 0x009 0 h o)
  | .sleep h o => some (ctlRaw 0x00A 0 h o)
  | .trap h o => some (ctlRaw 0x00B 0 h o)
  | .eret h o => some (ctlRaw 0x00C 0 h o)
  | .csrr h o => some (ctlRaw 0x00D 0 h o)
  | .csrw h o => some (ctlRaw 0x00E 0 h o)
  | .iadd h o => some (aluRaw 0x100 h o)
  | .iadd3 h o => some (aluRaw 0x101 h o)
  | .isub h o => some (aluRaw 0x102 h o)
  | .imul h o => some (aluRaw 0x103 h o)
  | .imulh h o => some (aluRaw 0x104 h o)
  | .imad h o => some (aluRaw 0x105 h o)
  | .imadw h o => some (aluRaw 0x106 h o)
  | .imin h o => some (aluRaw 0x107 h o)
  | .imax h o => some (aluRaw 0x108 h o)
  | .iabs h o => some (aluRaw 0x109 h o)
  | .ineg h o => some (aluRaw 0x10A h o)
  | .isad h o => some (aluRaw 0x10B h o)
  | .lea h o => some (aluRaw 0x10C h o)
  | .idp4 h o => some (aluRaw 0x10D h o)
  | .idp2 h o => some (aluRaw 0x10E h o)
  | .land h o => some (aluRaw 0x200 h o)
  | .lor h o => some (aluRaw 0x201 h o)
  | .lxor h o => some (aluRaw 0x202 h o)
  | .lnot h o => some (aluRaw 0x203 h o)
  | .logt h o => some (aluRaw 0x204 h o)
  | .shl h o => some (aluRaw 0x205 h o)
  | .shr h o => some (aluRaw 0x206 h o)
  | .sar h o => some (aluRaw 0x207 h o)
  | .rot h o => some (aluRaw 0x208 h o)
  | .fshl h o => some (aluRaw 0x209 h o)
  | .popc h o => some (aluRaw 0x20A h o)
  | .clz h o => some (aluRaw 0x20B h o)
  | .ctz h o => some (aluRaw 0x20C h o)
  | .brev h o => some (aluRaw 0x20D h o)
  | .bfe h o => some (aluRaw 0x20E h o)
  | .bfi h o => some (aluRaw 0x20F h o)
  | .bmix h o => some (aluRaw 0x210 h o)
  | .icmp h o => some (aluRaw 0x300 h o)
  | .fcmp h o => some (aluRaw 0x301 h o)
  | .plog h o => some (aluRaw 0x302 h o)
  | .sel h o => some (aluRaw 0x303 h o)
  | .mov h o => some (aluRaw 0x304 h o)
  | .movi h o => some (aluRaw 0x305 h o)
  | .movs h o => some (aluRaw 0x306 h o)
  | .rdlane h o => some (aluRaw 0x307 h o)
  | .pmov h o => some (aluRaw 0x308 h o)
  | .pmovP h o => some (aluRaw 0x308 h o)
  | .fadd h o => some (aluRaw 0x400 h o)
  | .fsub h o => some (aluRaw 0x401 h o)
  | .fmul h o => some (aluRaw 0x402 h o)
  | .ffma h o => some (aluRaw 0x403 h o)
  | .fmin h o => some (aluRaw 0x404 h o)
  | .fmax h o => some (aluRaw 0x405 h o)
  | .frnd h o => some (aluRaw 0x406 h o)
  | .fclass h o => some (aluRaw 0x407 h o)
  | .fscl h o => some (aluRaw 0x408 h o)
  | .pkadd h o => some (aluRaw 0x500 h o)
  | .pkmul h o => some (aluRaw 0x501 h o)
  | .pkfma h o => some (aluRaw 0x502 h o)
  | .pkmin h o => some (aluRaw 0x503 h o)
  | .pkmax h o => some (aluRaw 0x504 h o)
  | .frcp h o => some (aluRaw 0x510 h o)
  | .frsq h o => some (aluRaw 0x511 h o)
  | .fsqrt h o => some (aluRaw 0x512 h o)
  | .fex2 h o => some (aluRaw 0x513 h o)
  | .flg2 h o => some (aluRaw 0x514 h o)
  | .fsin h o => some (aluRaw 0x515 h o)
  | .fcos h o => some (aluRaw 0x516 h o)
  | .ftanh h o => some (aluRaw 0x517 h o)
  | .fsigm h o => some (aluRaw 0x518 h o)
  | .cvt h o => some (aluRaw 0x600 h o)
  | .cvtp h o => some (aluRaw 0x601 h o)
  | .cvtu h o => some (aluRaw 0x602 h o)
  | .amax h o => some (aluRaw 0x603 h o)
  | .scaleq h o => some (aluRaw 0x604 h o)
  | .abssum h o => some (aluRaw 0x605 h o)
  | .shfl h o => some (aluRaw 0x700 h o)
  | .vote h o => some (aluRaw 0x701 h o)
  | .redl h o => some (aluRaw 0x702 h o)
  | .scanl h o => some (aluRaw 0x703 h o)
  | .matchl h o => some (aluRaw 0x704 h o)
  | .ld h o => some (memRaw 0x800 h o)
  | .st h o => some (memRaw 0x801 h o)
  | .ldu h o => some (memRaw 0x802 h o)
  | .pfetch h o => some (memRaw 0x803 h o)
  | .ldx h o => some (memRaw 0x804 h o)
  | .flush h o => some (memRaw 0x806 h o)
  | .flushAll h o => some (memRaw 0x806 h o)
  | .invl h o => some (memRaw 0x807 h o)
  | .invlAll h o => some (memRaw 0x807 h o)
  | .atom h o => some (atomRaw 0x900 h o)
  | .atomc h o => some (atomRaw 0x901 h o)
  | .red h o => some (atomRaw 0x902 h o)
  | .atomord h o => some (atomRaw 0x903 h o)
  | .waita h o => some (atomRaw 0x904 h o)
  | .cellcfgFree h o => some (cfgRaw 0 h o)
  | .cellcfgSem h o => some (cfgRaw 1 h o)
  | .cellcfgBar h o => some (cfgRaw 2 h o)
  | .cellcfgRing h o => some (cfgRaw 3 h o)
  | .cellcfgQueue h o => some (cfgRaw 4 h o)
  | .cellcfgBind h o => some (cfgRaw 8 h o)
  | .cellcfgUnbind h o => some (cfgRaw 9 h o)
  | .cellrd h o => some (cellRaw 0xA01 h o)
  | .semsig h o => some (cellRaw 0xA02 h o)
  | .semwait h o => some (cellRaw 0xA03 h o)
  | .bararv h o => some (cellRaw 0xA04 h o)
  | .barwait h o => some (cellRaw 0xA05 h o)
  | .ringpub h o => some (cellRaw 0xA06 h o)
  | .ringawtData h o => some (cellRaw 0xA07 h o)
  | .ringawtFree h o => some (cellRaw 0xA07 h o)
  | .ringrel h o => some (cellRaw 0xA08 h o)
  | .qpush h o => some (cellRaw 0xA09 h o)
  | .qpop h o => some (cellRaw 0xA0A h o)
  | .mmaF4b h o => some (matRaw 0xB00 h o)
  | .mmaF8a h o => some (matRaw 0xB01 h o)
  | .mmaF8b h o => some (matRaw 0xB02 h o)
  | .mmaB16 h o => some (matRaw 0xB03 h o)
  | .mmaH16 h o => some (matRaw 0xB04 h o)
  | .mmaI8 h o => some (matRaw 0xB05 h o)
  | .mmaspF4b h o => some (matRaw 0xB08 h o)
  | .mmaspF8a h o => some (matRaw 0xB09 h o)
  | .mmaspI8 h o => some (matRaw 0xB0D h o)
  | .station h o => some (shelfRaw 0xB10 h o)
  | .unstat h o => some (shelfRaw 0xB11 h o)
  | .wload h o => some (shelfRaw 0xB12 h o)
  | .qld h o => some (tileRaw 0xB18 0 h o)
  | .qsetV h o => some (tileRaw 0xB19 0 h o)
  | .qsetRange h o => some (tileRaw 0xB19 1 h o)
  | .qsetAll h o => some (tileRaw 0xB19 2 h o)
  | .qsetRd h o => some (tileRaw 0xB19 3 h o)
  | .qlog h o => some (tileRaw 0xB1A 0 h o)
  | .ffpsel h o => some (ffpRaw 0xC00 h o)
  | .ffpbnd h o => some (ffpRaw 0xC01 h o)
  | .ffpfch h o => some (ffpRaw 0xC02 h o)
  | .xcopy h o => some (engRaw 0xD00 h o)
  | .xgath h o => some (engRaw 0xD01 h o)
  | .tqpost h o => some (engRaw 0xD02 h o)
  | .glaunchK h o => some (launchRaw 0xD10 0 false h o)
  | .glaunchG h o => some (launchRaw 0xD10 1 false h o)
  | .glaunchSeal h o => some (launchRaw 0xD10 2 false h o)
  | .glaunchFree h o => some (launchRaw 0xD10 3 false h o)
  | .trig h o => some (launchRaw 0xD11 0 false h o)
  | .chunk h o => some (launchRaw 0xD12 0 false h o)
  | .mboxarm h o => some (launchRaw 0xD13 0 false h o)
  | .mboxarmD h o => some (launchRaw 0xD13 0 true h o)
  | .stepCtr h o => some (launchRaw 0xD14 0 false h o)
  | .lhint h o => some (launchRaw 0xD15 0 false h o)
  | .rep h o => some (repRaw h o)
  | .fence h o => some (fenceRaw h o)
  | .isect h o => some (isectRaw h o)
  | .fetchBlockArrive _ _ _ => none
  | .switchResultWrite _ _ _ => none
  | .ldxDatumArrive _ _ _ => none
  | .storeQueuePerform _ => none
  | .fenceComplete _ => none
  | .flushComplete _ => none
  | .activeRotation _ => none
  | .sleepExpire _ => none
  | .cellWaiterWake _ _ => none
  | .waitaReread _ _ => none
  | .stationMacrosGranted _ => none
  | .unstatRelease _ => none
  | .wloadComplete _ _ => none
  | .ffpbndCheckStart _ _ => none
  | .ffpbndCheckEnd _ _ => none
  | .ffpfchGatherStart _ _ => none
  | .ffpfchGatherEnd _ _ => none
  | .copyStart _ => none
  | .copyFinish _ => none
  | .gatherStart _ => none
  | .gatherFinish _ => none
  | .tileTaskStart _ => none
  | .tileTaskFinish _ => none
  | .queueNotify _ _ => none
  | .queueEnable _ _ => none
  | .queueDisable _ => none
  | .qsemvalWrite _ _ => none
  | .queueKernelEntry _ => none
  | .queueGraphEntry _ => none
  | .queueSemaphoreEntry _ => none
  | .queueSealEntry _ => none
  | .queueFreeEntry _ => none
  | .teamStart _ => none
  | .clusterReserve _ _ => none
  | .gangAgeExpire _ => none
  | .graphNodeStart _ _ => none
  | .graphNodeComplete _ _ => none
  | .teamEnd _ => none
  | .gridRetire _ => none
  | .fabricFlushTimeout _ => none
  | .mailboxArrival _ => none
  | .teamStopRequest _ => none
  | .prectlGo _ _ => none
  | .prectlResume _ => none
  | .groupStop _ => none
  | .hardPreempt _ => none
  | .contextSave _ => none
  | .teamResume _ => none
  | .watchdogExpire _ _ => none
  | .translationWalkDone _ _ _ => none
  | .atsCompletion _ _ _ _ _ _ => none
  | .pageRequestResponse _ _ _ => none
  | .atsInvalidationRequest _ _ _ => none
  | .tinvctlGo _ => none
  | .invalidationComplete _ => none
  | .stepvalWrite _ => none
  | .hostRead _ _ => none
  | .hostWrite _ _ => none
  | .registerWrite _ _ _ => none
  | .pageMove _ _ => none
  | .evictionStart => none
  | .pagePromote _ _ => none
  | .placementEpochEnd => none
  | .orderedStreamRequest _ => none
  | .streamRecordTimeout _ _ => none
  | .nodeStackStart _ _ => none
  | .nodeGranule _ _ => none
  | .nodeStackFinish _ _ => none
  | .nodeComplete _ => none
  | .walkMessageReceive _ _ => none
  | .nodeStop _ => none
  | .nodeResume _ => none
  | .channelEnterPreIn _ _ => none
  | .channelEnterSwIn _ _ => none
  | .channelAbortPreIn _ _ => none
  | .channelEnterCompute _ _ => none
  | .computeStep _ _ => none
  | .channelEnterPreOut _ _ => none
  | .channelEnterSwOut _ _ => none
  | .channelEnterNormal _ _ => none
  | .normalRequestArrive _ _ _ => none
  | .normalRequestComplete _ _ => none
  | .wrFlit _ => none
  | .rdFlit _ => none
  | .rdrspFlit _ => none
  | .atomFlit _ => none
  | .atomrspFlit _ => none
  | .ackFlit _ => none
  | .nakFlit _ => none
  | .flushFlit _ => none
  | .flushackFlit _ => none
  | .mboxFlit _ => none
  | .mergeFlit _ => none
  | .scrubRead _ _ => none
  | .scrubCheck => none
  | .coreDisable _ => none
  | .cxlLinkChange _ _ _ => none
  | .powerThrottle _ _ => none
  | .thermalTrip => none
  | .coldReset => none
  | .warmReset => none
  | .getVersion => none
  | .getCapabilities => none
  | .negotiateAlgorithms _ _ => none
  | .getDigests => none
  | .getCertificate _ _ => none
  | .challenge _ => none
  | .getMeasurements _ => none
  | .mctpControlMessage _ => none
  | .mctpVendorRead _ _ => none
  | .fixedLatencyResultWrite _ => none
  | .engineGranuleBoundary _ => none
  | .fabricPortChange _ _ => none
  | .msiXVectorUnmask _ => none
  | .mergeTreeClearEn _ => none
  | .channelMapOut _ _ => none
  | .correctedErrorHourEnd => none
  | .undefinedKindFlit _ => none

/-! ### Conditions of R53 that need no context -/

/-- `[]` when the condition holds, else the detail code. -/
def need (b : Bool) (d : Nat) : List Nat := if b then [] else [d]

/-- A field that is not used must be zero (R38). -/
def Opnd.isZero (o : Opnd) : Bool := o == .vec 0
/-- The operand names IMM (R37). -/
def Opnd.isImm (o : Opnd) : Bool := o == .con 0xFF
/-- A constant-table entry that is not reserved (R37). -/
def Opnd.isCon : Opnd → Bool
  | .con i => i.toNat < 0x90 || 0xC0 ≤ i.toNat
  | _ => false
/-- A constant-table entry other than IMM. -/
def Opnd.isConst (o : Opnd) : Bool := o.isCon && !o.isImm
/-- A small constant, 0 to 127 or −63 to −1 (R181, R226). -/
def Opnd.isSmall : Opnd → Bool
  | .con i => i.toNat < 0x80 || (0xC0 ≤ i.toNat && i.toNat < 0xFF)
  | _ => false
def Opnd.isVec : Opnd → Bool
  | .vec _ => true
  | _ => false
def Opnd.isUni : Opnd → Bool
  | .uni _ => true
  | _ => false
def Opnd.isVU (o : Opnd) : Bool := o.isVec || o.isUni
/-- %lane to %clock (R36). -/
def Opnd.isName : Opnd → Bool
  | .spc i => 0x20 ≤ i.toNat && i.toNat < 0x28
  | _ => false
/-- p0 to p6 and pt (R36). -/
def Opnd.isPred : Opnd → Bool
  | .spc i => i.toNat < 8
  | _ => false
/-- q0 to q7 (R36). -/
def Opnd.isQ : Opnd → Bool
  | .spc i => 8 ≤ i.toNat && i.toNat < 16
  | _ => false
/-- A single-register source that accepts selectors 00 and 01: special names too (R36). -/
def Opnd.isSrcVU (o : Opnd) : Bool := o.isVU || o.isName
/-- A numeric source of R118 or an "any" source of R73. -/
def Opnd.isNum (o : Opnd) : Bool := o.isSrcVU || o.isCon
/-- The same in a form whose IMM holds C or other fields. -/
def Opnd.isNumNI (o : Opnd) : Bool := o.isSrcVU || o.isConst
/-- It reads a per-lane value (R119). -/
def Opnd.perLane : Opnd → Bool
  | .vec _ => true
  | .spc i => i.toNat == 0x20 || i.toNat < 7
  | _ => false
def Opnd.index : Opnd → Nat
  | .vec i | .uni i | .spc i | .con i => i.toNat

/-- C of a three-source form, in IMM[9:0] (R33). -/
def AluOps.c (o : AluOps) : Opnd := .ofBits (o.imm.extractLsb' 0 10)

/-- IMM is zero unless an operand names it (R41). -/
def immNamed (ops : List Opnd) (imm : Word) : List Nat := need (ops.any Opnd.isImm || imm == 0) 9
/-- Bits of IMM from `n` up are zero. -/
def immBelow (n : Nat) (imm : Word) : List Nat := need (imm.toNat < 2 ^ n) 9

/-- TYPE, RND, SAT and MOD are among the listed values (R40). -/
def xIn (o : AluOps) (tys : List Ty) (rnd sat : Bool) (mods : List Nat) : List Nat :=
  need (tys.contains o.ty && (rnd || o.rnd == .rne) && (sat || !o.sat) && mods.contains o.mod.toNat) 8

/-- D of R118 and R119: vector, or uniform when no source reads a per-lane value. -/
def dstVU (d : Opnd) (srcs : List Opnd) : List Nat :=
  need (d.isVec || (d.isUni && !srcs.any Opnd.perLane)) 7

/-- Forms D, A; D, A, B; and D, A, B, C of R118. -/
def form1 (o : AluOps) : List Nat :=
  need (o.a.isNum && o.b.isZero) 7 ++ dstVU o.d [o.a] ++ immNamed [o.a] o.imm
def form2 (o : AluOps) : List Nat :=
  need (o.a.isNum && o.b.isNum) 7 ++ dstVU o.d [o.a, o.b] ++ immNamed [o.a, o.b] o.imm
def form3 (o : AluOps) : List Nat :=
  need (o.a.isNumNI && o.b.isNumNI && o.c.isNumNI) 7 ++ dstVU o.d [o.a, o.b, o.c] ++ immBelow 10 o.imm

/-- Bytes of a class 0x8 access (R184); reserved codes count as 4. -/
def MemTy.bytes : MemTy → Nat
  | .i8 | .n8 => 1
  | .i16 | .n16 => 2
  | .b64 => 8
  | .b128 => 16
  | _ => 4
def MemTy.listed : MemTy → Bool
  | .r4 | .r8 | .r9 | .rA | .rB | .rE | .rF => false
  | _ => true
/-- Registers that hold one element of the type. -/
def MemTy.regs (t : MemTy) : Nat := if t.bytes ≤ 4 then 1 else t.bytes / 4

/-- A base operand (R181): a pair in the global space, one register elsewhere, or constant 0. -/
def baseOk (sp : Space) (a : Opnd) : Bool :=
  a == .con 0 || (if sp == .g then a.isVU else a.isSrcVU)
/-- An index operand (R181). -/
def indexOk (b : Opnd) : Bool := b.isSrcVU || b.isSmall

def memAddr (o : MemOps) : List Nat :=
  need (baseOk o.space o.a && (if o.idx then indexOk o.b else o.b.isZero)) 7 ++
  (if o.idx then immBelow 3 o.imm else [])

def memX (o : MemOps) (tys : Bool) (sps : List Space) (mods : List Nat) : List Nat :=
  need ((if tys then o.ty.listed else o.ty == .dflt) && sps.contains o.space && mods.contains o.mod.toNat) 8

/-- SCOPE is one of the ten, and zero without an ORD (R191, R194, R302). -/
def scopeOk (ord : Ord) (sc : Scope) : Bool :=
  if ord == .rlx then sc == .thread else sc.toBits.toNat < 10

def AtTy.wide (t : AtTy) : Bool := t == .n64

/-- Operands and X common to class 0x9 (R194). -/
def atomCommon (o : AtomOps) (sps : List Space) (ords : List Ord) : List Nat :=
  need (baseOk o.space o.a && indexOk o.b) 7 ++
  need (sps.contains o.space && ords.contains o.ord && scopeOk o.ord o.scope) 8

/-- The value operand of ATOM, RED and ATOMORD: a pair for .n64. -/
def atomVal (o : AtomOps) : Bool := if o.ty.wide then o.c.isVU else o.c.isNumNI

/-- OP codes and types of ATOM and RED (R194). -/
def atomOpOk (o : AtomOps) : List Nat :=
  need (o.op.toNat < 7) 9 ++
  need (o.ty != .f32 || o.op.toNat < 3 || o.op.toNat == 6 || 7 ≤ o.op.toNat) 8

/-- A names a cell (R302). -/
def cellName (a : Opnd) : Bool := a.isUni || a.isImm || (a.isCon && a.index < 0x40)

/-- X of class 0xA: allowed ORD codes, whether a handle form exists, whether MOD[40] may be set. -/
def cellX (o : CellOps) (ords : List Ord) (hdl flag : Bool) : List Nat :=
  need (ords.contains o.ord && scopeOk o.ord o.scope && (hdl || !o.huse) && (o.huse || o.hidx == 0)
    && (flag || !o.flag)) 8

/-- A of a form that may use a handle: zero with one. -/
def cellA (o : CellOps) : Bool := if o.huse then o.a.isZero else cellName o.a

/-- CELLCFG's X: HIDX only where a handle is bound, no scope (R302). -/
def cfgX (o : CellOps) (hdl : Bool) : List Nat :=
  need (o.scope == .thread && (hdl || o.hidx == 0) && !o.huse && !o.flag && o.ord == .rlx) 8

/-- Uniform pair of R91: an even index. -/
def evenPair (o : Opnd) : Bool := o.isUni && o.index % 2 == 0

/-- CSR numbers of R131, and those a CSRW may name. -/
def csrListed (n : Nat) : Bool := [0x001, 0x020, 0x021, 0x100, 0x101, 0x102, 0x103, 0x104, 0x105].contains n
def csrWritable (n : Nat) : Bool := csrListed n && n != 0x020 && n != 0x021

/-- Matrix operands (R222): `sa` the activation span, `f4` an F4B form, `i8` an I8 form. -/
def matDetails (o : MatOps) (sa : Nat) (f4 i8 : Bool) : List Nat :=
  need (o.d.isVec && o.d.index % 8 == 0 && o.a.isVec && o.a.index % sa == 0 && o.b.isUni &&
    ((o.c.isVec && o.c.index % 8 == 0) || o.c == .con 0)) 7 ++
  need (i8 || (!o.au && !o.sat)) 8 ++
  need ((f4 || (o.sreg == 0 && o.sb == 0)) && (o.tq || o.qi == 0)) 9

/-- A shelf operand (R211). -/
def shelfB (b : Opnd) : Bool := b.isUni || (b.isCon && b.index < 16)

/-- Element count of a type in a register (R62). -/
def Ty.elems : Ty → Nat
  | .i8 | .n8 | .e4m3 | .e5m2 => 4
  | .i16 | .n16 | .bf16 | .f16 => 2
  | .e2m1 => 8
  | .b1 => 32
  | _ => 1

/-- Legal combinations of CVT (R74). -/
def cvtDetails (o : AluOps) : List Nat :=
  let st := Ty.ofBits (o.imm.extractLsb' 0 4)
  let esrc := (o.imm.extractLsb' 4 4).toNat
  let edst := (o.imm.extractLsb' 8 5).toNat
  let sr := o.mod.getLsbD 0
  let defd : Ty → Bool := fun t => t != .dflt && t != .r4 && t != .rF
  let srTy := [Ty.bf16, .f16, .e4m3, .e5m2, .e2m1].contains o.ty
  need (o.d.isVec && o.a.isNum && (if sr then o.b.isNum else o.b.isZero)) 7 ++
  need (defd o.ty && decide (o.mod.toNat < 2) && !(sr && (!srTy || o.rnd != .rne)) &&
    !(o.ty == .b1 && (o.rnd != .rne || o.sat || sr)) && st != o.ty && (o.ty != .b1 || st == .f32) &&
    (!sr || st == .f32)) 8 ++
  need (defd st && st != .b1 &&
    esrc < st.elems && edst < o.ty.elems && o.imm.toNat < 2 ^ 13) 9

/-- ABSSUM (R79). -/
def abssumDetails (o : AluOps) : List Nat :=
  let scaled := o.mod.getLsbD 0
  let s := (o.mod.extractLsb' 1 2).toNat
  need (o.d.isVec && o.a.isVec && (if scaled then o.b.isVU else o.b.isZero)) 7 ++
  need ([Ty.dflt, .f32, .bf16, .f16, .e4m3, .e5m2, .e2m1].contains o.ty && o.rnd == .rne && !o.sat &&
    (if scaled then [Ty.e4m3, .e5m2, .e2m1].contains o.ty else s == 0)) 8 ++
  immBelow 3 o.imm

/-- REDL and SCANL's X (R157). -/
def foldX (o : AluOps) : List Nat :=
  let f := o.ty == .f32
  let m := o.mod.toNat
  need ([Ty.dflt, .i32, .n32, .f32].contains o.ty && m < 6 && (!f || m < 3) &&
    (o.rnd == .rne || (f && m == 0)) && (!o.sat || (!f && m == 0))) 8

def i32n32 : List Ty := [.dflt, .i32, .n32]
def fp32 : List Ty := [.dflt, .f32]
def half : List Ty := [.dflt, .bf16, .f16]

/-- Operands, X and IMM of each instruction against its description; the details 0x04 to 0x0A that hold
whatever the kernel's limits are (R53). -/
def Instr.details : Instr → List Nat
  | .nop _ o => need (o.d.isZero && o.a.isZero && o.b.isZero) 7 ++ need (o.imm == 0) 9
  | .bra _ o => need (o.d.isZero && o.a.isZero && o.b.isZero) 7 ++ immBelow 24 o.imm
  | .brx _ o => need (o.d.isZero && o.a.isSrcVU && o.b.isZero) 7 ++ need (o.imm == 0) 9
  | .call _ o => need (o.d.isVU && o.a.isZero && o.b.isZero) 7 ++ immBelow 24 o.imm
  | .callx _ o => need (o.d.isVU && o.a.isSrcVU && o.b.isZero) 7 ++ need (o.imm == 0) 9
  | .ret _ o => need (o.d.isZero && o.a.isSrcVU && o.b.isZero) 7 ++ need (o.imm == 0) 9
  | .exit _ o => need (o.d.isZero && o.a.isZero && o.b.isZero) 7 ++ need (o.imm == 0) 9
  | .meetSet _ o => need (o.d.isZero && o.a.isZero && o.b.isZero) 7 ++ immBelow 24 o.imm
  | .meetSave _ o => need (o.d.isVU && o.a.isZero && o.b.isZero) 7 ++ immBelow 24 o.imm
  | .meetRestore _ o => need (o.d.isZero && o.a.isSrcVU && o.b.isZero) 7 ++ need (o.imm == 0) 9
  | .yield _ o => need (o.d.isZero && o.a.isZero && o.b.isZero) 7 ++ need (o.imm == 0) 9
  | .sleep _ o =>
      need (o.d.isZero && (o.a.isUni || o.a.isCon) && o.b.isZero) 7 ++ immNamed [o.a] o.imm
  | .trap _ o => need (o.d.isZero && o.a.isZero && o.b.isZero) 7 ++ immBelow 16 o.imm
  | .eret _ o => need (o.d.isZero && o.a.isZero && o.b.isZero) 7 ++ need (o.imm == 0) 9
  | .csrr _ o => need (o.d.isVU && o.a.isZero && o.b.isZero) 7 ++ need (csrListed o.imm.toNat) 9
  | .csrw _ o =>
      need (o.d.isZero && (o.a.isUni || o.a.isConst) && o.b.isZero) 7 ++
      need (csrWritable o.imm.toNat) 9
  | .iadd _ o => form2 o ++ xIn o i32n32 false true [0]
  | .iadd3 _ o => form3 o ++ xIn o i32n32 false true [0]
  | .isub _ o => form2 o ++ xIn o i32n32 false true [0]
  | .imul _ o => form2 o ++ xIn o i32n32 false true [0]
  | .imulh _ o => form2 o ++ xIn o i32n32 false false [0]
  | .imad _ o => form3 o ++ xIn o i32n32 false true [0]
  | .imadw _ o => form3 o ++ need o.c.isVU 7 ++ xIn o i32n32 false false [0]
  | .imin _ o => form2 o ++ xIn o i32n32 false false [0]
  | .imax _ o => form2 o ++ xIn o i32n32 false false [0]
  | .iabs _ o => form1 o ++ xIn o [.dflt, .i32] false true [0]
  | .ineg _ o => form1 o ++ xIn o i32n32 false true [0]
  | .isad _ o => form3 o ++ xIn o i32n32 false true [0]
  | .lea _ o => form2 o ++ xIn o [.n32] false false [0, 1, 2, 3, 4, 5, 6, 7]
  | .idp4 _ o => form3 o ++ xIn o [.i8, .n8] false true [0, 1]
  | .idp2 _ o => form3 o ++ xIn o [.i16, .n16] false true [0, 1]
  | .land _ o => form2 o ++ xIn o [.dflt] false false [0]
  | .lor _ o => form2 o ++ xIn o [.dflt] false false [0]
  | .lxor _ o => form2 o ++ xIn o [.dflt] false false [0]
  | .lnot _ o => form1 o ++ xIn o [.dflt] false false [0]
  | .logt _ o =>
      need (o.a.isNum && o.b.isNumNI) 7 ++ dstVU o.d [o.a, o.b] ++ immBelow 8 o.imm ++
      xIn o [.dflt] false false [0]
  | .shl _ o => form2 o ++ xIn o [.dflt] false false [0]
  | .shr _ o => form2 o ++ xIn o [.dflt] false false [0]
  | .sar _ o => form2 o ++ xIn o [.dflt] false false [0]
  | .rot _ o => form2 o ++ xIn o [.dflt] false false [0]
  | .fshl _ o => form3 o ++ xIn o [.dflt] false false [0]
  | .popc _ o => form1 o ++ xIn o [.dflt] false false [0]
  | .clz _ o => form1 o ++ xIn o [.dflt] false false [0]
  | .ctz _ o => form1 o ++ xIn o [.dflt] false false [0]
  | .brev _ o => form1 o ++ xIn o [.dflt] false false [0]
  | .bfe _ o => form2 o ++ xIn o i32n32 false false [0]
  | .bfi _ o => form3 o ++ xIn o [.dflt] false false [0]
  | .bmix _ o => form3 o ++ xIn o [.dflt] false false [0]
  | .icmp _ o =>
      need (o.d.isPred && o.a.isNum && o.b.isNum) 7 ++ immNamed [o.a, o.b] o.imm ++
      xIn o i32n32 false false [0, 1, 2, 3, 4, 5]
  | .fcmp _ o =>
      need (o.d.isPred && o.a.isNum && o.b.isNum) 7 ++ immNamed [o.a, o.b] o.imm ++
      xIn o fp32 false false [0, 1, 2, 3, 4, 5, 6, 7]
  | .plog _ o =>
      need (o.d.isPred && o.a.isPred && o.b.isPred) 7 ++ immBelow 8 o.imm ++
      xIn o [.dflt] false false [0]
  | .sel _ o =>
      need (o.a.isNumNI && o.b.isNumNI && o.c.isPred) 7 ++ dstVU o.d [o.a, o.b, o.c] ++
      immBelow 10 o.imm ++ xIn o [.dflt] false false [0, 1]
  | .mov _ o => form1 o ++ xIn o [.dflt] false false [0]
  | .movi _ o => need (o.d.isVU && o.a.isZero && o.b.isZero) 7 ++ xIn o [.dflt] false false [0]
  | .movs _ o =>
      need (o.d.isUni && o.a.isNum && o.b.isZero) 7 ++ immNamed [o.a] o.imm ++
      xIn o [.dflt] false false [0]
  | .rdlane _ o =>
      need (o.d.isUni && (o.a.isVec || o.a.isName) && (o.b.isUni || o.b.isCon)) 7 ++
      immNamed [o.b] o.imm ++ xIn o [.dflt] false false [0]
  | .pmov _ o =>
      need (o.d.isVec && o.a.isZero && o.b.isZero) 7 ++ need (o.imm == 0) 9 ++
      xIn o [.dflt] false false [0]
  | .pmovP _ o =>
      need (o.d.isZero && o.a.isNum && o.b.isZero) 7 ++ immBelow 7 o.imm ++
      xIn o [.dflt] false false [1]
  | .fadd _ o => form2 o ++ xIn o fp32 true false [0]
  | .fsub _ o => form2 o ++ xIn o fp32 true false [0]
  | .fmul _ o => form2 o ++ xIn o fp32 true false [0]
  | .ffma _ o => form3 o ++ xIn o fp32 true false [0]
  | .fmin _ o => form2 o ++ xIn o fp32 false false [0]
  | .fmax _ o => form2 o ++ xIn o fp32 false false [0]
  | .frnd _ o => form1 o ++ xIn o fp32 true false [0]
  | .fclass _ o => form1 o ++ xIn o fp32 false false [0]
  | .fscl _ o => form2 o ++ xIn o fp32 true false [0]
  | .pkadd _ o => form2 o ++ xIn o half true false [0]
  | .pkmul _ o => form2 o ++ xIn o half true false [0]
  | .pkfma _ o => form3 o ++ xIn o half true false [0]
  | .pkmin _ o => form2 o ++ xIn o half false false [0]
  | .pkmax _ o => form2 o ++ xIn o half false false [0]
  | .frcp _ o => form1 o ++ xIn o fp32 true false [0]
  | .frsq _ o => form1 o ++ xIn o fp32 false false [0]
  | .fsqrt _ o => form1 o ++ xIn o fp32 true false [0]
  | .fex2 _ o => form1 o ++ xIn o fp32 false false [0]
  | .flg2 _ o => form1 o ++ xIn o fp32 false false [0]
  | .fsin _ o => form1 o ++ xIn o fp32 false false [0]
  | .fcos _ o => form1 o ++ xIn o fp32 false false [0]
  | .ftanh _ o => form1 o ++ xIn o fp32 false false [0]
  | .fsigm _ o => form1 o ++ xIn o fp32 false false [0]
  | .cvt _ o => cvtDetails o
  | .cvtp _ o =>
      need (o.d.isVec && o.a.isVec && o.b.isNumNI) 7 ++
      need (if o.mod.getLsbD 2 then o.c.isNumNI else o.c.isZero) 7 ++ immBelow 10 o.imm ++
      need ([Ty.dflt, .e2m1, .e4m3, .e5m2].contains o.ty && (!o.mod.getLsbD 2 || o.rnd == .rne)) 8
  | .cvtu _ o =>
      need (o.d.isVec && o.a.isVec && o.b.isNum) 7 ++ immNamed [o.b] o.imm ++
      need ([Ty.dflt, .e2m1, .e4m3, .e5m2].contains o.ty && (o.mod.getLsbD 2 || o.rnd == .rne) && !o.sat) 8
  | .amax _ o =>
      need (o.d.isVec && o.a.isVec && o.b.isZero) 7 ++ immBelow 4 o.imm ++
      xIn o [.dflt, .f32, .bf16, .f16] false false [0, 1]
  | .scaleq _ o =>
      need (o.d.isVec && o.a.isNum && o.b.isNum) 7 ++ immNamed [o.a, o.b] o.imm ++
      xIn o fp32 false false [0, 1, 2, 3]
  | .abssum _ o => abssumDetails o
  | .shfl _ o =>
      need (o.d.isVec && o.a.isSrcVU && o.b.isNum) 7 ++ immNamed [o.b] o.imm ++
      xIn o [.dflt] false false [0, 1, 2, 3]
  | .vote _ o =>
      need ((if o.mod == 3 then o.d.isVU else o.d.isPred) && o.a.isPred && o.b.isZero) 7 ++
      need (o.imm == 0) 9 ++ xIn o [.dflt] false false [0, 1, 2, 3]
  | .redl _ o =>
      need (o.d.isVU && (o.a.isVec || o.a.isName) && o.b.isZero) 7 ++ need (o.imm == 0) 9 ++ foldX o
  | .scanl _ o =>
      need (o.d.isVec && (o.a.isVec || o.a.isName) && o.b.isZero) 7 ++ immBelow 1 o.imm ++ foldX o
  | .matchl _ o =>
      need (o.d.isVec && (o.a.isVec || o.a.isName) && o.b.isZero) 7 ++ need (o.imm == 0) 9 ++
      xIn o [.dflt] false false [0]
  | .ld _ o => need o.d.isVec 7 ++ memAddr o ++ memX o true [.g, .p, .s, .c] [0, 1, 2]
  | .st _ o => need o.d.isVU 7 ++ memAddr o ++ memX o true [.g, .p, .s, .c] [0, 1]
  | .ldu _ o =>
      need (o.d.isUni && (o.a.isUni || o.a == .con 0) && (!o.idx || o.b.isUni || o.b.isSmall)) 7 ++
      memAddr o ++ memX o true [.g, .s] [0, 1, 2]
  | .pfetch _ o => need o.d.isZero 7 ++ memAddr o ++ memX o false [.g, .p] [0, 1]
  | .ldx _ o =>
      need (o.d.isVec && baseOk o.space o.a && (if o.idx then indexOk o.b else o.b.isZero)) 7 ++
      need (o.imm.toNat < 2 ^ 27 && (o.idx || o.imm.toNat < 2 ^ 24)) 9 ++ memX o true [.g] [0, 1, 2]
  | .flush _ o => need o.d.isZero 7 ++ memAddr o ++ memX o false [.g, .p] [0, 2]
  | .flushAll _ o =>
      need (o.d.isZero && o.a.isZero && o.b.isZero) 7 ++ need (o.imm == 0) 9 ++ need (!o.idx) 8 ++
      memX o false [.g] [1, 3]
  | .invl _ o => need o.d.isZero 7 ++ memAddr o ++ memX o false [.g, .p] [0]
  | .invlAll _ o =>
      need (o.d.isZero && o.a.isZero && o.b.isZero) 7 ++ need (o.imm == 0) 9 ++ need (!o.idx) 8 ++
      memX o false [.g] [1]
  | .atom _ o =>
      need (o.d.isVec && atomVal o) 7 ++ atomOpOk o ++
      atomCommon o [.g, .s, .c] [.rlx, .acq, .rel, .ar]
  | .atomc _ o =>
      need (o.d.isVec && o.c.isVU) 7 ++ need (o.op == 0) 9 ++
      atomCommon o [.g, .s, .c] [.rlx, .acq, .rel, .ar]
  | .red _ o =>
      need (o.d.isZero && atomVal o) 7 ++ atomOpOk o ++ atomCommon o [.g, .s, .c] [.rlx, .rel]
  | .atomord _ o =>
      need (o.d.isVU && o.c.isNumNI) 7 ++ need (o.op == 0) 9 ++ need (o.ty != .n64) 8 ++
      atomCommon o [.g] [.rlx, .rel]
  | .waita _ o =>
      need (o.d.isVec && o.c.isNumNI) 7 ++ need (o.op.toNat < 4) 9 ++ need (o.ty == .i32) 8 ++
      atomCommon o [.g, .s, .c] [.rlx, .acq]
  | .cellcfgFree _ o =>
      need (o.d.isZero && cellName o.a && o.b.isZero) 7 ++ cfgX o false ++ immNamed [o.a] o.imm
  | .cellcfgSem _ o =>
      need (o.d.isZero && cellName o.a && o.b.isUni) 7 ++ cfgX o false ++ immNamed [o.a] o.imm
  | .cellcfgBar _ o =>
      need (o.d.isZero && cellName o.a && o.b.isUni) 7 ++ cfgX o false ++ immNamed [o.a] o.imm
  | .cellcfgRing _ o =>
      need (o.d.isZero && cellName o.a && o.b.isUni) 7 ++ cfgX o false ++ immNamed [o.a] o.imm
  | .cellcfgQueue _ o =>
      need (o.d.isZero && cellName o.a && o.b.isUni) 7 ++ cfgX o false ++ immNamed [o.a] o.imm
  | .cellcfgBind _ o =>
      need (o.d.isZero && cellName o.a && o.b.isUni) 7 ++ cfgX o true ++ immNamed [o.a] o.imm
  | .cellcfgUnbind _ o =>
      need (o.d.isZero && o.a.isZero && o.b.isZero) 7 ++ cfgX o true ++ need (o.imm == 0) 9
  | .cellrd _ o =>
      need (o.d.isUni && cellName o.a && o.b.isCon && o.b.index < 4) 7 ++
      cellX o [.rlx] false false ++ immNamed [o.a] o.imm
  | .semsig _ o =>
      need (o.d.isZero && cellName o.a && o.b.isNum) 7 ++ cellX o [.rlx, .rel] false false ++
      immNamed [o.a, o.b] o.imm
  | .semwait _ o =>
      need ((o.d.isUni || o.d.isZero) && cellName o.a && (o.b.isUni || o.b.isCon)) 7 ++
      cellX o [.rlx, .acq] false true ++ immNamed [o.a, o.b] o.imm
  | .bararv _ o =>
      need ((o.d.isUni || o.d.isZero) && cellName o.a && o.b.isNum) 7 ++
      cellX o [.rlx, .rel] false false ++ immNamed [o.a, o.b] o.imm
  | .barwait _ o =>
      need (o.d.isPred && cellName o.a && (o.b.isUni || o.b.isCon)) 7 ++
      cellX o [.rlx, .acq] false false ++ immNamed [o.a, o.b] o.imm
  | .ringpub _ o =>
      need (o.d.isZero && cellA o && (o.b.isUni || o.b.isCon)) 7 ++
      cellX o [.rlx, .rel] true false ++ immNamed [o.a, o.b] o.imm
  | .ringawtData _ o =>
      need ((o.d.isUni || o.d.isZero) && cellA o) 7 ++
      need ((if o.huse then o.b.isZero else o.b.isUni || o.b.isCon)) 7 ++
      cellX o [.rlx, .acq] true false ++ immNamed [o.a, o.b] o.imm
  | .ringawtFree _ o =>
      need ((o.d.isUni || o.d.isZero) && cellA o) 7 ++
      need ((if o.huse then o.b.isZero else o.b.isUni || o.b.isCon)) 7 ++ need o.flag 8 ++
      cellX o [.rlx, .acq] true true ++ immNamed [o.a, o.b] o.imm
  | .ringrel _ o =>
      need (o.d.isZero && cellA o && (if o.huse then o.b.isZero else o.b.isUni || o.b.isCon)) 7 ++
      cellX o [.rlx, .rel] true false ++ immNamed [o.a, o.b] o.imm
  | .qpush _ o =>
      need (o.d.isZero && o.a.isZero && (o.b.isUni || o.b.isCon)) 7 ++ need o.huse 8 ++
      cellX o [.rlx, .rel] true false ++ immNamed [o.b] o.imm
  | .qpop _ o =>
      need (o.d.isUni && cellA o && o.b.isZero) 7 ++ cellX o [.rlx, .acq] true false ++
      immNamed [o.a] o.imm
  | .mmaF4b _ o => matDetails o 4 true false
  | .mmaF8a _ o => matDetails o 4 false false
  | .mmaF8b _ o => matDetails o 4 false false
  | .mmaB16 _ o => matDetails o 4 false false
  | .mmaH16 _ o => matDetails o 4 false false
  | .mmaI8 _ o => matDetails o 4 false true
  | .mmaspF4b _ o => matDetails o 8 true false
  | .mmaspF8a _ o => matDetails o 8 false false
  | .mmaspI8 _ o => matDetails o 8 false true
  | .station _ o =>
      need (o.d.isZero && o.a.isUni && shelfB o.b) 7 ++ need (!o.reuse) 8 ++ need (o.cell == 0) 9
  | .unstat _ o =>
      need (o.d.isZero && o.a.isZero && shelfB o.b) 7 ++ need (!o.reuse) 8 ++ need (o.cell == 0) 9
  | .wload _ o => need (o.d.isZero && o.a.isZero && shelfB o.b) 7
  | .qld _ o =>
      need (o.d.isQ && o.d.index + (o.imm.extractLsb' 16 3).toNat ≤ 15) 7 ++
      need (o.a.isUni && (o.b.isUni || o.b.isSmall)) 7 ++ immBelow 19 o.imm
  | .qsetV _ o => need (o.d.isQ && o.a.isUni && o.b.isZero) 7 ++ need (o.imm == 0) 9
  | .qsetRange _ o =>
      need (o.d.isQ && (o.a.isUni || o.a.isConst) && (o.b.isUni || o.b.isConst)) 7 ++
      need (o.imm == 0) 9
  | .qsetAll _ o => need (o.d.isQ && o.a.isZero && o.b.isZero) 7 ++ need (o.imm == 0) 9
  | .qsetRd _ o => need (o.d.isUni && o.a.isQ && o.b.isZero) 7 ++ need (o.imm == 0) 9
  | .qlog _ o => need (o.d.isQ && o.a.isQ && o.b.isQ) 7 ++ immBelow 8 o.imm
  | .ffpsel _ o =>
      need (o.d.isZero && o.a.isVec && o.a.index % 8 == 0 && o.b.isUni) 7 ++ immBelow 4 o.imm
  | .ffpbnd _ o =>
      need (o.d.isZero && o.a.isUni && o.b.isUni) 7 ++ need (!o.abs) 8 ++ immBelow 6 o.imm
  | .ffpfch _ o =>
      need (o.d.isZero && o.a.isUni && o.b.isUni) 7 ++ need (!o.abs) 8 ++
      need (o.imm &&& 0xFFFFF0C0#32 == 0) 9
  | .xcopy _ o =>
      need ((if o.res then o.d.isUni else o.d.isZero) && o.a.isUni && o.a.index % 8 == 0 && o.b.isZero) 7 ++
      need (o.imm == 0) 9
  | .xgath _ o =>
      need ((if o.res then o.d.isUni else o.d.isZero) && o.a.isUni && o.a.index % 8 == 0 && o.b.isZero) 7 ++
      need (o.imm == 0) 9
  | .tqpost _ o =>
      need (o.d.isZero && o.a.isUni && (o.b.isZero || o.b.isQ)) 7 ++ need (!o.res) 8 ++
      (if o.b.isQ then immBelow 6 o.imm else need (o.imm == 0) 9)
  | .glaunchK _ o =>
      need (o.d.isUni && evenPair o.a && o.b.isZero) 7 ++ need (!o.rel) 8 ++
      (if o.cen then immBelow 6 o.imm else need (o.imm == 0) 9)
  | .glaunchG _ o =>
      need (o.d.isUni && o.a.isUni && o.b.isZero) 7 ++ need (!o.rel) 8 ++
      (if o.cen then immBelow 6 o.imm else need (o.imm == 0) 9)
  | .glaunchSeal _ o =>
      need (o.d.isUni && evenPair o.a && o.b.isZero) 7 ++ need (!o.rel) 8 ++
      (if o.cen then immBelow 6 o.imm else need (o.imm == 0) 9)
  | .glaunchFree _ o =>
      need (o.d.isUni && o.a.isUni && o.b.isZero) 7 ++ need (!o.rel) 8 ++
      (if o.cen then immBelow 6 o.imm else need (o.imm == 0) 9)
  | .trig _ o =>
      need (o.d.isZero && o.a.isZero && o.b.isZero) 7 ++ need (o.prio == 0 && !o.cen && !o.rel) 8 ++
      need (o.imm == 0) 9
  | .chunk _ o =>
      need (evenPair o.d && evenPair o.a && o.b.isZero) 7 ++
      need (o.prio == 0 && !o.cen && !o.rel) 8 ++ need (o.imm == 0) 9
  | .mboxarm _ o =>
      need (o.d.isUni && evenPair o.a && o.b.isZero) 7 ++
      need (o.prio == 0 && !o.cen && !o.rel) 8 ++ need (o.imm == 0) 9
  | .mboxarmD _ o =>
      need (o.d.isUni && o.a.isUni && o.b.isZero) 7 ++ need (o.prio == 0 && !o.cen && !o.rel) 8 ++
      need (o.imm == 0) 9
  | .stepCtr _ o =>
      need (o.d.isUni && (o.a.isUni || o.a.isCon) && o.b.isZero) 7 ++
      need (o.prio == 0 && !o.cen && !o.rel) 8 ++ immNamed [o.a] o.imm
  | .lhint _ o =>
      need (o.d.isZero && evenPair o.a && (o.b.isUni || o.b.isConst)) 7 ++ need (!o.cen) 8
  | .rep h _ => need (!h.safe) 4 ++ need (!h.neg && h.pred == 7 && !h.sw && !h.ra && !h.rb) 10
  | .fence _ o => need (o.ord != .rlx && o.scope.toBits.toNat < 10) 8
  | .isect _ o =>
      need (o.d.isVec && o.a.isVU && o.b.isVU && (if o.emit then o.c.isVU else o.c.isZero)) 7
  | .fetchBlockArrive _ _ _ => []
  | .switchResultWrite _ _ _ => []
  | .ldxDatumArrive _ _ _ => []
  | .storeQueuePerform _ => []
  | .fenceComplete _ => []
  | .flushComplete _ => []
  | .activeRotation _ => []
  | .sleepExpire _ => []
  | .cellWaiterWake _ _ => []
  | .waitaReread _ _ => []
  | .stationMacrosGranted _ => []
  | .unstatRelease _ => []
  | .wloadComplete _ _ => []
  | .ffpbndCheckStart _ _ => []
  | .ffpbndCheckEnd _ _ => []
  | .ffpfchGatherStart _ _ => []
  | .ffpfchGatherEnd _ _ => []
  | .copyStart _ => []
  | .copyFinish _ => []
  | .gatherStart _ => []
  | .gatherFinish _ => []
  | .tileTaskStart _ => []
  | .tileTaskFinish _ => []
  | .queueNotify _ _ => []
  | .queueEnable _ _ => []
  | .queueDisable _ => []
  | .qsemvalWrite _ _ => []
  | .queueKernelEntry _ => []
  | .queueGraphEntry _ => []
  | .queueSemaphoreEntry _ => []
  | .queueSealEntry _ => []
  | .queueFreeEntry _ => []
  | .teamStart _ => []
  | .clusterReserve _ _ => []
  | .gangAgeExpire _ => []
  | .graphNodeStart _ _ => []
  | .graphNodeComplete _ _ => []
  | .teamEnd _ => []
  | .gridRetire _ => []
  | .fabricFlushTimeout _ => []
  | .mailboxArrival _ => []
  | .teamStopRequest _ => []
  | .prectlGo _ _ => []
  | .prectlResume _ => []
  | .groupStop _ => []
  | .hardPreempt _ => []
  | .contextSave _ => []
  | .teamResume _ => []
  | .watchdogExpire _ _ => []
  | .translationWalkDone _ _ _ => []
  | .atsCompletion _ _ _ _ _ _ => []
  | .pageRequestResponse _ _ _ => []
  | .atsInvalidationRequest _ _ _ => []
  | .tinvctlGo _ => []
  | .invalidationComplete _ => []
  | .stepvalWrite _ => []
  | .hostRead _ _ => []
  | .hostWrite _ _ => []
  | .registerWrite _ _ _ => []
  | .pageMove _ _ => []
  | .evictionStart => []
  | .pagePromote _ _ => []
  | .placementEpochEnd => []
  | .orderedStreamRequest _ => []
  | .streamRecordTimeout _ _ => []
  | .nodeStackStart _ _ => []
  | .nodeGranule _ _ => []
  | .nodeStackFinish _ _ => []
  | .nodeComplete _ => []
  | .walkMessageReceive _ _ => []
  | .nodeStop _ => []
  | .nodeResume _ => []
  | .channelEnterPreIn _ _ => []
  | .channelEnterSwIn _ _ => []
  | .channelAbortPreIn _ _ => []
  | .channelEnterCompute _ _ => []
  | .computeStep _ _ => []
  | .channelEnterPreOut _ _ => []
  | .channelEnterSwOut _ _ => []
  | .channelEnterNormal _ _ => []
  | .normalRequestArrive _ _ _ => []
  | .normalRequestComplete _ _ => []
  | .wrFlit _ => []
  | .rdFlit _ => []
  | .rdrspFlit _ => []
  | .atomFlit _ => []
  | .atomrspFlit _ => []
  | .ackFlit _ => []
  | .nakFlit _ => []
  | .flushFlit _ => []
  | .flushackFlit _ => []
  | .mboxFlit _ => []
  | .mergeFlit _ => []
  | .scrubRead _ _ => []
  | .scrubCheck => []
  | .coreDisable _ => []
  | .cxlLinkChange _ _ _ => []
  | .powerThrottle _ _ => []
  | .thermalTrip => []
  | .coldReset => []
  | .warmReset => []
  | .getVersion => []
  | .getCapabilities => []
  | .negotiateAlgorithms _ _ => []
  | .getDigests => []
  | .getCertificate _ _ => []
  | .challenge _ => []
  | .getMeasurements _ => []
  | .mctpControlMessage _ => []
  | .mctpVendorRead _ _ => []
  | .fixedLatencyResultWrite _ => []
  | .engineGranuleBoundary _ => []
  | .fabricPortChange _ _ => []
  | .msiXVectorUnmask _ => []
  | .mergeTreeClearEn _ => []
  | .channelMapOut _ _ => []
  | .correctedErrorHourEnd => []
  | .undefinedKindFlit _ => []

/-- Bits that the instruction of a word does not use, as details: 0x04 for HINT[3:0], 0x07 for operands,
0x08 for X, 0x09 for IMM, and 0x0A for any of them in a REP word (R38, R40, R41, R42, R49). -/
def Raw.unused (r : Raw) (i : Instr) : List Nat :=
  match i.raw with
  | none => []
  | some e =>
    let low := r.hint.extractLsb' 0 4 == 0
    match i with
    | .rep _ _ =>
      need low 4 ++ need (r.d == e.d && r.a == e.a && r.b == e.b && r.x == e.x && r.imm == e.imm) 10
    | _ =>
      need low 4 ++ need (r.d == e.d && r.a == e.a && r.b == e.b) 7 ++ need (r.x == e.x) 8 ++
        need (r.imm == e.imm) 9

/-- The context-free details of a word: 0x02 for a LIVE word, 0x03 for an opcode outside the map, else those
of the instruction it names (R53). -/
def Raw.details (r : Raw) : List Nat :=
  match instrOf r with
  | none => if r.opc == 0xFFF then [2] else [3]
  | some i => r.unused i ++ i.details

/-- The instruction of a word with no context-free fault (R53, R54). -/
def decode (w : BitVec 96) : Option Instr :=
  let r := Raw.ofBits w
  if r.details.isEmpty then instrOf r else none

/-- The word of an instruction (R33); none for the rows that are steps of the device. -/
def encode (i : Instr) : Option (BitVec 96) := i.raw.map Raw.toBits

/-- The twelve bytes of a word, lowest address first (R34). -/
def wordBytes (w : BitVec 96) : List Byte := (List.range 12).map fun k => w.extractLsb' (8 * k) 8

/-- The word in twelve bytes, lowest address first (R34). -/
def wordOfBytes (bs : List Byte) : BitVec 96 :=
  BitVec.ofNat 96 ((bs.take 12).foldr (fun b acc => b.toNat + 256 * acc) 0)

/-- The decoder on bytes: an instruction and the rest, or nothing where a byte is missing or the word is
illegal. -/
def decodeBytes (bs : List Byte) : Option (Instr × List Byte) :=
  if bs.length < 12 then none else (decode (wordOfBytes bs)).map fun i => (i, bs.drop 12)

/-- The decoder on a word whose bits are numbered as the opcode table numbers them; every instruction has 96
bits, and bits above `nbits` are zero. -/
def decodeTableWord (nbits w : Nat) : Option Instr :=
  (decodeBytes (wordBytes (BitVec.ofNat 96 (w % 2 ^ nbits)))).map Prod.fst

end Sys2Proof
end

