-- ==== Sys2Proof/Machine/Operands.lean ====
section
/-! DEFINITION. Operand forms: reading a source in a lane, writing a destination, consecutive registers,
the registers an instruction names, and the effective addresses of memory operands. -/

namespace Sys2Proof.Machine

/-- The constant table; index 0xFF names IMM (R37). -/
def constPat (imm : Word) (i : Nat) : Word :=
  if i < 0x80 then BitVec.ofNat 32 i
  else match i with
    | 0x80 => 0x3F000000 | 0x81 => 0x3F800000 | 0x82 => 0x40000000 | 0x83 => 0x40800000
    | 0x84 => 0xBF000000 | 0x85 => 0xBF800000 | 0x86 => 0xC0000000 | 0x87 => 0xC0800000
    | 0x88 => 0x80000000 | 0x89 => 0x7F800000 | 0x8A => 0xFF800000 | 0x8B => 0x7FC00000
    | 0x8C => 0x3F317218 | 0x8D => 0x3FB8AA3B | 0x8E => 0x40490FDB | 0x8F => 0x7F7FFFFF
    | 0xFF => imm
    | _ => BitVec.ofInt 32 ((i : Int) - 0xFF)

/-- Value of a core's cycle counter (R131). -/
def State.clock (s : State) (c : Nat) : Nat := s.now - (s.core c).base

/-- Enabled cores in the package (R36). -/
def State.ncores (s : State) : Nat := ((List.range 200).filter fun c => (s.core c).en).length

/-- The special names of R36 in lane `l` of a group. -/
def specialName (s : State) (g : Group) (i l : Nat) : Word :=
  let t := s.team g.tid
  let gr := s.grid t.grid
  match i with
  | 0x20 => BitVec.ofNat 32 l
  | 0x21 => BitVec.ofNat 32 g.gidx
  | 0x22 => BitVec.ofNat 32 t.idx
  | 0x23 => BitVec.ofNat 32 (s.core t.core).num
  | 0x24 => BitVec.ofNat 32 (t.idx / (gr.k.clw * gr.k.clh))
  | 0x25 => BitVec.ofNat 32 gr.num
  | 0x26 => BitVec.ofNat 32 s.ncores
  | 0x27 => BitVec.ofNat 32 (s.clock t.core)
  | _ => 0

/-- Predicate `i` of a lane; 7 is pt (R36). -/
def predOf (x : Lane) (i : Nat) : Bool := i == 7 || x.p.getLsbD i

/-- Vector register `i` of lane `l`. -/
def Group.vreg (g : Group) (l i : Nat) : Word := Tab.get 0 (g.lane l).v i
/-- Uniform register `i`. -/
def Group.ureg (g : Group) (i : Nat) : Word := Tab.get 0 g.s i
/-- Tile predicate `i`; all bits set at the start (R13). -/
def Group.qreg (g : Group) (i : Nat) : DWord := Tab.get (BitVec.allOnes 64) g.q i
/-- Handle `i` (R306). -/
def Group.hreg (g : Group) (i : Nat) : DWord := Tab.get 0 g.h i

/-- Src(F, l) (R55, R35 to R37), in group `g` of state `s`. -/
def src (s : State) (g : Group) (imm : Word) (o : Opnd) (l : Nat) : Word :=
  match o with
  | .vec i => g.vreg l i.toNat
  | .uni i => g.ureg i.toNat
  | .spc i => if i.toNat < 8 then (if predOf (g.lane l) i.toNat then 1 else 0)
              else specialName s g i.toNat l
  | .con i => constPat imm i.toNat

/-- Register Z + k of the same file; a constant stays itself. -/
def Opnd.plus (o : Opnd) (k : Nat) : Opnd :=
  match o with
  | .vec i => .vec (i + BitVec.ofNat 8 k)
  | .uni i => .uni (i + BitVec.ofNat 8 k)
  | .spc i => .spc (i + BitVec.ofNat 8 k)
  | .con i => .con i

/-- A pair's 64-bit value, Z low (R118). A constant is its pattern alone. -/
def srcPair (s : State) (g : Group) (imm : Word) (o : Opnd) (l : Nat) : Nat :=
  match o with
  | .con i => (constPat imm i.toNat).toNat
  | _ => (src s g imm o l).toNat + 2 ^ 32 * (src s g imm (Opnd.plus o 1) l).toNat

/-- A 56-bit address from a pair (R91, R160). -/
def srcAddr (s : State) (g : Group) (o : Opnd) : Nat := srcPair s g 0 o 0 % 2 ^ 56

def Lane.setV (x : Lane) (i : Nat) (w : Word) : Lane := { x with v := Tab.set 0 x.v i w }
def Lane.setP (x : Lane) (i : Nat) (b : Bool) : Lane :=
  if i < 7 then
    { x with p := if b then x.p ||| (1#7 <<< i) else x.p &&& ~~~(1#7 <<< i) }
  else x
def Group.setV (g : Group) (l i : Nat) (w : Word) : Group := g.modLane l fun x => x.setV i w
def Group.setU (g : Group) (i : Nat) (w : Word) : Group := { g with s := Tab.set 0 g.s i w }
def Group.setQ (g : Group) (i : Nat) (w : DWord) : Group :=
  { g with q := Tab.set (BitVec.allOnes 64) g.q i w }
def Group.setH (g : Group) (i : Nat) (w : DWord) : Group := { g with h := Tab.set 0 g.h i w }

/-- Dst(F, l, v) (R55): a vector or predicate write in the lane, a uniform write of the group's register; a
write to pt is discarded. -/
def dst (g : Group) (o : Opnd) (l : Nat) (w : Word) : Group :=
  match o with
  | .vec i => g.setV l i.toNat w
  | .uni i => g.setU i.toNat w
  | .spc i => g.modLane l fun x => x.setP i.toNat (w != 0)
  | .con _ => g

/-- Write consecutive registers from F. -/
def dstSpan (g : Group) (o : Opnd) (l : Nat) : List Word → Group
  | [] => g
  | w :: ws => dstSpan (dst g o l w) (Opnd.plus o 1) l ws

/-! ### The registers an instruction names -/

/-- Span of the activation operand and of the scale registers of a matrix instruction (R221). -/
def matSpans (o : MatOps) (sa scale : Nat) : List (Opnd × Nat) :=
  [(o.d, 16), (o.a, sa), (o.b, 1), (o.c, 16)] ++ (if scale = 0 then [] else [(.vec o.sreg, scale)])

/-- Registers of a base operand (R181). -/
def baseSpan (sp : Space) : Nat := if sp == .g then 2 else 1

/-- Registers of a memory operand: `nd` of D, the base, and the index of the index form. -/
def memSpans (o : MemOps) (nd : Nat) : List (Opnd × Nat) :=
  [(o.d, nd), (o.a, baseSpan o.space)] ++ (if o.idx then [(o.b, 1)] else [])

def atomSpans (o : AtomOps) (nd nc : Nat) : List (Opnd × Nat) :=
  [(o.d, nd), (o.a, baseSpan o.space), (o.b, 1), (o.c, nc)]

/-- Registers per block of a narrow type (R69). -/
def blkRegs (t : Ty) : Nat := match t with
  | .e4m3 | .e5m2 => 2
  | _ => 1

/-- Registers per block of eight elements (R79). -/
def sumRegs (t : Ty) : Nat := match t with
  | .bf16 | .f16 => 4
  | .e4m3 | .e5m2 => 2
  | .e2m1 => 1
  | _ => 8

/-- One register of a field, where the form uses it. -/
def oneIf (used : Bool) (o : Opnd) : List (Opnd × Nat) := if used then [(o, 1)] else []

/-- Every operand field the form uses that can name registers, with how many consecutive registers it names, the
destination first (R38). A field the form does not use is zero (R53) and names nothing. -/
def spans : Instr → List (Opnd × Nat)
  | .cvtp _ o => [(o.d, blkRegs o.ty), (o.a, 8), (o.b, 1)] ++ oneIf (o.mod.getLsbD 2) o.c
  | .cvtu _ o => [(o.d, if o.mod.getLsbD 2 then 4 else 8), (o.a, blkRegs o.ty), (o.b, 1)]
  | .cvt _ o => [(o.d, 1), (o.a, 1)] ++ oneIf (o.mod.getLsbD 0) o.b
  | .amax _ o => [(o.d, 1), (o.a, (o.imm.extractLsb' 0 4).toNat + 1)]
  | .abssum _ o =>
    let nb := (o.imm.extractLsb' 0 3).toNat + 1
    [(o.d, nb), (o.a, nb * sumRegs o.ty)] ++
      (if o.mod.getLsbD 0 then [(o.b, ((o.mod.extractLsb' 1 2).toNat + nb - 1) / 4 + 1)] else [])
  | .imadw _ o => [(o.d, 2), (o.a, 1), (o.b, 1), (o.c, 2)]
  | .matchl _ o => [(o.d, 2), (o.a, 1)]
  | .vote _ o => if o.mod == 3 then [(o.d, 2)] else []
  | .iadd3 _ o | .imad _ o | .isad _ o | .idp4 _ o | .idp2 _ o | .fshl _ o | .bfi _ o | .bmix _ o
  | .ffma _ o | .pkfma _ o => [(o.d, 1), (o.a, 1), (o.b, 1), (o.c, 1)]
  | .iadd _ o | .isub _ o | .imul _ o | .imulh _ o | .imin _ o | .imax _ o
  | .lea _ o | .land _ o | .lor _ o | .lxor _ o | .logt _ o | .shl _ o | .shr _ o | .sar _ o
  | .rot _ o | .bfe _ o | .icmp _ o | .fcmp _ o | .plog _ o
  | .sel _ o | .rdlane _ o | .fadd _ o | .fsub _ o | .fmul _ o | .fmin _ o | .fmax _ o | .fscl _ o | .pkadd _ o
  | .pkmul _ o | .pkmin _ o | .pkmax _ o | .scaleq _ o | .shfl _ o => [(o.d, 1), (o.a, 1), (o.b, 1)]
  | .iabs _ o | .ineg _ o | .lnot _ o | .popc _ o | .clz _ o | .ctz _ o | .brev _ o | .mov _ o | .movs _ o | .frnd _ o
  | .fclass _ o | .frcp _ o | .frsq _ o | .fsqrt _ o | .fex2 _ o | .flg2 _ o | .fsin _ o | .fcos _ o | .ftanh _ o
  | .fsigm _ o | .redl _ o | .scanl _ o => [(o.d, 1), (o.a, 1)]
  | .movi _ o | .pmov _ o => [(o.d, 1)]
  | .pmovP _ o => [(o.a, 1)]
  | .nop _ _ | .bra _ _ | .exit _ _ | .meetSet _ _ | .yield _ _ | .trap _ _ | .eret _ _ => []
  | .brx _ o | .ret _ o | .meetRestore _ o | .sleep _ o | .csrw _ o => [(o.a, 1)]
  | .call _ o | .meetSave _ o | .csrr _ o => [(o.d, 1)]
  | .callx _ o => [(o.d, 1), (o.a, 1)]
  | .ld _ o | .st _ o | .ldu _ o | .ldx _ o => memSpans o o.ty.regs
  | .pfetch _ o | .flush _ o | .invl _ o => memSpans o 0
  | .flushAll _ _ | .invlAll _ _ => []
  | .atom _ o => atomSpans o (if o.ty.wide then 2 else 1) (if o.ty.wide then 2 else 1)
  | .atomc _ o => atomSpans o (if o.ty.wide then 2 else 1) (if o.ty.wide then 4 else 2)
  | .red _ o => atomSpans o 0 (if o.ty.wide then 2 else 1)
  | .atomord _ o => atomSpans o 1 1
  | .waita _ o => atomSpans o 1 1
  | .cellcfgSem _ o | .cellcfgBar _ o | .cellcfgRing _ o | .cellcfgQueue _ o | .cellcfgBind _ o =>
    [(o.a, 1), (o.b, 2)]
  | .cellcfgFree _ o => [(o.a, 1)]
  | .cellcfgUnbind _ _ => []
  | .cellrd _ o => [(o.d, 1), (o.a, 1)]
  | .semsig _ o | .barwait _ o => [(o.a, 1), (o.b, 1)]
  | .semwait _ o | .bararv _ o => oneIf o.d.isUni o.d ++ [(o.a, 1), (o.b, 1)]
  | .ringpub _ o => oneIf (!o.huse) o.a ++ [(o.b, 1)]
  | .ringawtData _ o | .ringawtFree _ o => oneIf o.d.isUni o.d ++ oneIf (!o.huse) o.a ++ oneIf (!o.huse) o.b
  | .ringrel _ o => oneIf (!o.huse) o.a ++ oneIf (!o.huse) o.b
  | .qpush _ o => [(o.b, 1)]
  | .qpop _ o => [(o.d, 1)] ++ oneIf (!o.huse) o.a
  | .mmaF4b _ o => matSpans o 4 (if o.sb = 0 then 1 else 2)
  | .mmaspF4b _ o => matSpans o 8 (if o.sb = 0 then 2 else 3)
  | .mmaF8a _ o | .mmaF8b _ o | .mmaB16 _ o | .mmaH16 _ o | .mmaI8 _ o => matSpans o 4 0
  | .mmaspF8a _ o | .mmaspI8 _ o => matSpans o 8 0
  | .station _ o => [(o.a, 2), (o.b, 1)]
  | .unstat _ o | .wload _ o => [(o.b, 1)]
  | .qld _ o => [(o.a, 2), (o.b, 1)]
  | .qsetV _ o => [(o.a, 2)]
  | .qsetRange _ o => [(o.a, 1), (o.b, 1)]
  | .qsetAll _ _ | .qlog _ _ => []
  | .qsetRd _ o => [(o.d, 2)]
  | .ffpsel _ o => [(o.a, 16), (o.b, 3)]
  | .ffpbnd _ o => [(o.a, 2), (o.b, 6)]
  | .ffpfch _ o => [(o.a, 2), (o.b, 3)]
  | .isect _ o => [(o.d, 3), (o.a, 3), (o.b, 3)] ++ (if o.emit then [(o.c, 3)] else [])
  | .xcopy _ o | .xgath _ o => oneIf o.res o.d ++ [(o.a, 8)]
  | .tqpost _ o => [(o.a, 2)]
  | .glaunchK _ o | .glaunchSeal _ o | .mboxarm _ o => [(o.d, 1), (o.a, 2)]
  | .glaunchG _ o | .glaunchFree _ o | .mboxarmD _ o | .stepCtr _ o => [(o.d, 1), (o.a, 1)]
  | .chunk _ o => [(o.d, 2), (o.a, 2)]
  | .lhint _ o => [(o.a, 2), (o.b, 1)]
  | _ => []

/-- A span of registers lies below the declared counts (R38). -/
def spanOk (k : Kernel) (o : Opnd) (n : Nat) : Bool :=
  match o with
  | .vec i => i.toNat + n ≤ 8 * k.regs
  | .uni i => i.toNat + n ≤ 8 * k.uregs
  | _ => true

/-- Every register of the instruction lies below the declared counts. -/
def spansOk (k : Kernel) (i : Instr) : Bool := (spans i).all fun p => spanOk k p.1 p.2

/-- The registers of a span, as the scoreboard names them. -/
def spanRefs (o : Opnd) (n : Nat) : List RegRef :=
  match o with
  | .vec i => (List.range n).map fun k => { file := 0, idx := i.toNat + k }
  | .uni i => (List.range n).map fun k => { file := 1, idx := i.toNat + k }
  | .spc i => if 8 ≤ i.toNat && i.toNat < 16 then [{ file := 2, idx := i.toNat - 8 }]
              else if i.toNat < 7 then [{ file := 3, idx := i.toNat }] else []
  | .con _ => []

/-! ### Memory operands -/

/-- Two's-complement reading of a word (R55: SignExt32). -/
def sx (w : Word) : Int := w.toInt

/-- EA(l) before the space's reduction (R181): the base plus the scaled index or the offset. -/
def eaRaw (s : State) (g : Group) (sp : Space) (a b : Opnd) (idx : Bool) (sh : Nat) (imm : Word)
    (l : Nat) : Int :=
  let base : Nat := if sp == .g then srcPair s g 0 a l else (src s g 0 a l).toNat
  let off : Int := if idx then sx (src s g 0 b l) * 2 ^ sh else sx imm
  (base : Int) + off

/-- EA(l) as a number, or none where a scratchpad form is out of its range (R181). -/
def eaOf (sp : Space) (x : Int) : Option Nat :=
  match sp with
  | .g => some (x % 2 ^ 56).toNat
  | .p => some (x % 2 ^ 32).toNat
  | .s => if x < 0 ∨ 2 ^ 21 ≤ x then none else some x.toNat
  | .c => if x < 0 ∨ 2 ^ 25 ≤ x then none else some x.toNat

/-- EA of a class 0x8 operand; LDX keeps SH in IMM[26:24] and has no offset. -/
def memEa (s : State) (g : Group) (o : MemOps) (ldx : Bool) (l : Nat) : Int :=
  if ldx then eaRaw s g o.space o.a o.b o.idx (o.imm.extractLsb' 24 3).toNat 0 l
  else eaRaw s g o.space o.a o.b o.idx (o.imm.extractLsb' 0 3).toNat o.imm l

/-- EA of a class 0x9 operand: always the index form (R194). -/
def atomEa (s : State) (g : Group) (o : AtomOps) (l : Nat) : Int :=
  eaRaw s g o.space o.a o.b true o.sh.toNat 0 l

end Sys2Proof.Machine
end

