-- ==== Sys2Proof/Machine/Translate.lean ====
section
/-! DEFINITION. Address translation (R164 to R171): the table walk, the buffers, waiting for walks and for
the host, the forms of a device logical address (R360), and the same for agents. -/

namespace Sys2Proof.Machine

/-- Core number under which the hub's own accesses are translated. -/
def hubCore : Nat := 1000

/-- A table or context entry of `n` bytes read through L2; none when its sector is in error (R166). -/
def State.rdTable (s : State) (a n : Nat) : Option Nat :=
  if s.poison.contains (a / 32) then none else some (leNat (s.devBytes a n))

/-- What a walk finds. -/
inductive WalkRes where
  | ok (addr : Nat) (w x : Bool)
  | ats
  | bad (reason : Nat)
  | data
  deriving DecidableEq, Repr

/-- The walk of R166 from the table at `t` of level `lvl`. -/
def walkFrom (s : State) (va : Nat) (atsen : Bool) : Nat → Nat → WalkRes
  | lvl, t =>
    match s.rdTable (t + 8 * bits va (16 + 10 * lvl) 10) 8 with
    | none => .data
    | some e =>
      if !bitAt e 0 then .bad 1
      else if bits e 5 8 != 0 || bits e 52 12 != 0 then .bad 2
      else if bitAt e 4 then
        (if bits e 5 59 != 0 then .bad 2 else if atsen then .ats else .bad 7)
      else if bitAt e 1 then
        (if lvl ≥ 2 then .bad 2
         else if lvl = 1 then
           (if bits e 13 13 != 0 then .bad 2
            else .ok (bits e 26 26 * 2 ^ 26 + va % 2 ^ 26) (bitAt e 2) (bitAt e 3))
         else if bits e 13 3 != 0 then .bad 2
         else .ok (bits e 16 36 * 2 ^ 16 + va % 2 ^ 16) (bitAt e 2) (bitAt e 3))
      else match lvl with
        | 0 => .bad 2
        | n + 1 => walkFrom s va atsen n (bits e 13 39 * 2 ^ 13)

/-- The walk for a PASID, with its context entry (R165, R166). -/
def State.walk (s : State) (pasid va : Nat) : WalkRes :=
  if s.fld 0x130008 0 21 ≤ pasid then .bad 6
  else match s.rdTable (s.fld 0x130000 13 39 * 2 ^ 13 + 32 * pasid) 32 with
    | none => .data
    | some c => if bitAt c 0 then walkFrom s va (bitAt c 1) 3 (bits c 13 39 * 2 ^ 13) else .bad 6

/-- This package's fabric number (R366). -/
def State.fpkg (s : State) : Nat := s.fld 0x190000 0 6

/-- The place a logical address names (R360), or the reason it cannot be used. -/
def State.formOf (s : State) (la : Nat) : Loc ⊕ Nat :=
  match bits la 50 2 with
  | 0 => if bits la 44 6 = 0 then .inl (.dev (la % 2 ^ 44)) else .inr 2
  | 1 => if bits la 44 6 = s.fpkg then .inl (.dev (la % 2 ^ 44))
         else .inl (.peer (bits la 44 6) (la % 2 ^ 44))
  | 2 => .inl (.door (bits la 44 6) (bits la 16 10))
  | _ => .inl (.ingress (bits la 44 4) (bits la 12 32))

/-- Result of looking an address up in the buffers. `miss` needs a walk, `deny` a page request. -/
inductive Look where
  | hit (loc : Loc)
  | bad (reason : Nat)
  | data
  | miss
  | deny
  deriving DecidableEq, Repr

/-- Who makes the access in progress: the subgroup that issues, or the agent of the step. -/
def State.me (s : State) : Asker := if s.cur.mask = 0 then s.asker else (2 * s.cur.slot, s.cur.mask)

/-- Do the work of a step for an agent or for lanes of a group outside an issue. -/
def State.by (s : State) (a : Asker) (f : State → State) : State := { f { s with asker := a } with asker := s.asker }

/-- Every bit: the mask of an agent. -/
def allLanes : Mask := BitVec.allOnes 64

/-- A command at work. -/
def State.byCmd (s : State) (id : Nat) (f : State → State) : State := s.by (2 * id + 1, allLanes) f

/-- A result is a frame. -/
def Xl.isOk : Xl → Bool
  | .ok _ _ _ _ => true
  | _ => false

/-- The entry covers the 4 KiB page. -/
def TlbEnt.on (e : TlbEnt) (core pasid page : Nat) : Bool :=
  e.core == core && e.pasid == pasid && decide (e.page ≤ page ∧ page < e.page + e.size)

/-- A failed result held for the access in progress. -/
def State.tlbBad (s : State) (core pasid page : Nat) : Option Xl :=
  (s.tlb.find? fun e => e.on core pasid page && !e.res.isOk && e.who.any fun a => a.meets s.me).map TlbEnt.res

/-- The frame held for the 4 KiB page. -/
def State.tlbOk (s : State) (core pasid page : Nat) : Option Xl :=
  (s.tlb.find? fun e => e.on core pasid page && e.res.isOk).map fun e => match e.res with
    | .ok f host w x => .ok (f + (page - e.page)) host w x
    | r => r

/-- Look `va` up for an access of kind 0 read, 1 write or atomic, 2 fetch (R166, R167, R169). -/
def State.look (s : State) (core pasid va kind : Nat) : Look :=
  let page := va / 4096
  let failed (d : Look) : Look := match s.tlbBad core pasid page with
    | some (.bad r) => .bad r
    | some .data => .data
    | _ => d
  match s.tlbOk core pasid page with
  | some (.ok f host w x) =>
    if host then
      (if (kind == 1 && !w) || (kind != 1 && !x) then failed .deny else .hit (.host (f * 4096 + va % 4096)))
    else if (kind == 1 && !w) || (kind == 2 && !x) then .bad 3
    else match s.formOf (f * 4096 + va % 4096) with
      | .inl l => .hit l
      | .inr r => .bad r
  | _ => failed .miss

/-- Form-10 and form-11 addresses are for copy commands only (R360). -/
def Look.thread : Look → Look
  | .hit (.door _ _) => .bad 3
  | .hit (.ingress _ _) => .bad 3
  | l => l

/-- An outstanding translation serves the page: while it walks, every page of its 64 KiB (R167). -/
def Walk.on (w : Walk) (core pasid page : Nat) : Bool :=
  w.core == core && w.pasid == pasid &&
    (if w.st == .walk then w.page / 16 == page / 16 else w.page == page)

/-- A translation is outstanding for the page. -/
def State.walking (s : State) (core pasid page : Nat) : Bool := s.walks.any fun w => w.on core pasid page

/-- An access of these lanes waits for the page. -/
def State.waitsFor (s : State) (core pasid page : Nat) (a : Asker) : Bool :=
  s.walks.any fun w => w.on core pasid page && w.who.any fun x => x.1.meets a

/-- Page requests outstanding in the package, one per page (R170). -/
def State.priCount (s : State) : Nat :=
  ((s.walks.filter fun w => w.st == .pri).map fun w => (w.pasid, w.page)).eraseDups.length

/-- Some waiting access writes. -/
def Walk.write (w : Walk) : Bool := w.who.any Prod.snd

/-- Ask the host for the page of a translation: join a request already out, send one, or wait for room (R170). -/
def State.askPri (s : State) (w : Walk) : State :=
  let out := s.walks.any fun x => x.st == .pri && x.pasid == w.pasid && x.page == w.page
  let put (st : WalkSt) : State := { s with walks := s.walks.filter (fun x => x != w) ++ [{ w with st }] }
  if out then put .pri
  else if s.priCount < Config.maxPri then (put .pri).emit (.pri w.pasid w.page w.write)
  else put .priWait

/-- Misses a core may have outstanding (R167). -/
def missLimit : Nat := 2048

/-- The core has room for another miss. -/
def State.missRoom (s : State) (core : Nat) : Bool := decide ((s.walks.filter fun w => w.core == core).length < missLimit)

/-- Begin, or join, the translation an access needs (R167). With 2,048 misses outstanding nothing begins. -/
def State.want (s : State) (core pasid va kind : Nat) (l : Look) : State :=
  let page := va / 4096
  let me := (s.me, kind == 1)
  if s.walking core pasid page then
    { s with walks := s.walks.map fun w =>
        if w.on core pasid page && !w.who.contains me then { w with who := w.who ++ [me] } else w }
  else if !s.missRoom core then s
  else match l with
    | .deny => s.askPri { core, pasid, page, who := [me], st := .pri }
    | .miss => { s with walks := s.walks ++ [{ core, pasid, page, who := [me], st := .walk }] }
    | _ => s

/-- A failed result goes for an access once its trap is taken: the access translates again after it. -/
def State.dropBad (s : State) (core pasid page : Nat) : State :=
  { s with tlb := (s.tlb.map fun e =>
      if e.on core pasid page && !e.res.isOk then { e with who := e.who.filter fun a => !a.meets s.me } else e).filter fun e => e.res.isOk || !e.who.isEmpty }

/-- Entries a core's buffers hold (R167): 4,096. The one entered longest ago leaves for a new one (log entry 51). -/
def tlbKeep (core : Nat) : Nat → List TlbEnt → List TlbEnt
  | _, [] => []
  | n, e :: es =>
    if e.core == core && e.res.isOk then (if n = 0 then tlbKeep core 0 es else e :: tlbKeep core (n - 1) es)
    else e :: tlbKeep core n es

/-- The first-level buffer of a core (R167): of what its buffers hold, the 256 latest 64 KiB pages and the 32 latest pages
of 64 MiB (log entry 51). -/
def State.firstLevel (s : State) (core : Nat) : List TlbEnt :=
  let of (n : Nat) : List TlbEnt := s.tlb.filter fun e => e.core == core && e.res.isOk && e.size == n
  (of 16).take 256 ++ (of 16384).take 32

/-- Enter a result of `size` pages from `page` on and end the translation `w`. A failed one is for those who wait. -/
def State.xlDone (s : State) (w : Walk) (page size : Nat) (r : Xl) : State :=
  let e : TlbEnt := { core := w.core, pasid := w.pasid, page, size, res := r, who := if r.isOk then [] else w.who.map Prod.fst }
  let rest := if r.isOk then s.tlb.filter fun x =>
      !(x.core == w.core && x.pasid == w.pasid && x.res.isOk && decide (page ≤ x.page ∧ x.page < page + size))
    else s.tlb
  { s with tlb := tlbKeep w.core 4096 (e :: rest), walks := s.walks.filter fun x => x != w }

/-- Addresses of the table entries that the walk of `va` reads from the table at `t` of level `lvl`. -/
def walkReads (s : State) (va : Nat) : Nat → Nat → List Nat
  | lvl, t =>
    let a := t + 8 * bits va (16 + 10 * lvl) 10
    let e := leNat (s.devBytes a 8)
    a :: (if !bitAt e 0 || bitAt e 4 || bitAt e 1 then [] else match lvl with
      | 0 => []
      | n + 1 => walkReads s va n (bits e 13 39 * 2 ^ 13))

/-- Addresses of every entry a walk reads (R165, R166). -/
def State.tableReads (s : State) (pasid va : Nat) : List Nat :=
  let c := s.fld 0x130000 13 39 * 2 ^ 13 + 32 * pasid
  if s.fld 0x130008 0 21 ≤ pasid then []
  else c :: (let e := leNat (s.devBytes c 32)
    if bitAt e 0 then walkReads s va 3 (bits e 13 39 * 2 ^ 13) else [])

end Sys2Proof.Machine
end

