-- ==== Sys2Proof/Machine/Frames.lean ====
section
/-! DEFINITION. Where device pages stand (R177 to R180, R364): frames, the home slices and the lines they cache (R174,
R176), owned lines (R175), the pages that stay in HBM, the order of eviction, and what an access does to its page. -/

namespace Sys2Proof.Machine

/-- Step counter of a PASID (R21). -/
def State.stepOf (s : State) (pasid : Nat) : DWord := Tab.get 0 s.steps pasid
def State.setStep (s : State) (pasid : Nat) (v : DWord) : State := { s with steps := Tab.set 0 s.steps pasid v }

/-! ### Frames -/

/-- Die of a core; the hub's own accesses count for die 0. -/
def dieOf (core : Nat) : Nat := if 100 ≤ core % 1000 ∧ core % 1000 < 200 then 1 else 0

/-- Frames of a stack in use: its pages, and the sealed graph images it holds (R177). -/
def State.onStack (s : State) (k : Nat) : Nat :=
  (s.pages.filter fun e => e.2.place == .hbm k).length + (s.sealed.filter fun x => x.stack == k).foldl (fun n x => n + x.frames) 0

/-- Frames one stack holds. -/
def stackFrames : Nat := Config.hbmFrames / Config.nStacks

/-- The stack of a die with the most free frames, if one is free (R177, R180). -/
def State.freeStack (s : State) (die : Nat) : Option Nat :=
  let ks := (List.range 4).map fun i => die * 4 + i
  match sortBy s.onStack (ks.filter fun k => decide (s.onStack k < stackFrames)) with
  | k :: _ => some k
  | [] => none

/-- Frames of the capacity tier on a port (R364): pages placed there. -/
def State.onPort (s : State) (p : Nat) : Nat := (s.pages.filter fun e => e.2.place == .cap p).length

/-- 64 KiB frames a port may hold: its size, within 4 TiB in ascending port order. -/
def State.portFrames (s : State) (p : Nat) : Nat :=
  let size (i : Nat) : Nat := s.fld (0x180000 + 8 * i) 4 16 * 4096
  min (size p) (67108864 - (List.range p).foldl (fun n i => n + size i) 0)

/-- The first port that takes a new frame: enabled, UP and not full (R364). -/
def State.freePort (s : State) : Option Nat :=
  (List.range 8).find? fun p =>
    let r := (s.reg (0x180000 + 8 * p)).toNat
    bitAt r 0 && bitAt r 1 && decide (s.onPort p < s.portFrames p)

/-- Free HBM frames of the package. -/
def State.freeFrames (s : State) : Nat := Config.hbmFrames - s.hbmUsed

/-! ### Owned and pinned lines -/

/-- Some agent owns the 128-byte device line (R175). -/
def State.ownedLine (s : State) (line : Nat) : Bool := s.cmds.any fun c => c.owns.contains line

/-- The location lies on a line an agent owns. -/
def State.ownedLoc (s : State) : Loc → Bool
  | .dev a => s.ownedLine (a / 128)
  | _ => false

/-- The page has a line that an agent owns or a line that is pinned (R178). -/
def State.pageOwned (s : State) (p : Nat) : Bool :=
  s.cmds.any fun c => (c.owns ++ c.pins).any fun l => l / 512 == p

/-- Home slice of a device address: the hash of R174 within the die of the page's stack, or of the CXL port of its
capacity-tier frame. -/
def State.slice (s : State) (a : Nat) : Nat :=
  let l := a / 128
  let h := (bits l 0 12 ^^^ bits l 12 12 ^^^ bits l 24 12 ^^^ bits l 36 9) % 100
  match (s.page (a / 65536)).place with
  | .hbm k => if k < 4 then h else h + 100
  | .cap p => if p < 4 then h else h + 100
  | .none => h

/-- Lines of a list at each slice stay within `n` (R175, R176). -/
def State.perSlice (s : State) (ls : List Nat) (n : Nat) : Bool :=
  ls.all fun l => decide ((ls.filter fun x => s.slice (128 * x) == s.slice (128 * l)).length ≤ n)

/-- A command may own these lines now: no other agent owns one, and the directories of their slices have room, 4,096
lines each (R175). -/
def State.mayOwn (s : State) (id : Nat) (lines : List Nat) : Bool :=
  let others := (s.cmds.filter fun c => c.id != id).flatMap Cmd.owns
  lines.all (fun l => !others.contains l) && s.perSlice (others ++ lines) 4096

/-- A command may pin these lines now: each slice pins at most 1,024 (R176). -/
def State.mayPin (s : State) (id : Nat) (lines : List Nat) : Bool :=
  s.perSlice ((s.cmds.filter fun c => c.id != id).flatMap Cmd.pins ++ lines).eraseDups 1024

/-! ### Pages that stay -/

/-- Entries of one translation table, by the bytes listed in memory: the tables of the next level they point to. -/
def State.tableNext (s : State) (t : Nat) : List Nat :=
  let es := ((s.mem.filter fun b => t ≤ b.1 && b.1 < t + 8192).map fun b => b.1 / 8 * 8).eraseDups
  es.filterMap fun a =>
    let e := leNat (s.devBytes a 8)
    if bitAt e 0 && !bitAt e 1 && !bitAt e 4 then some (bits e 13 39 * 2 ^ 13) else none

/-- Tables reached from some tables through `n` levels. -/
def State.tablesFrom (s : State) : Nat → List Nat → List Nat
  | 0, ts => ts
  | n + 1, ts => ts ++ s.tablesFrom n ((ts.flatMap s.tableNext).eraseDups)

/-- Pages that stand in HBM at all times: the context table, the page tables and the shadow region (R177). -/
def State.fixedPage (s : State) (p : Nat) : Bool :=
  let c := s.fld 0x130000 13 39 * 2 ^ 13
  let n := 32 * s.fld 0x130008 0 21
  let sh := s.fld 0x160000 16 36
  let roots := (((s.mem.filter fun b => c ≤ b.1 && b.1 < c + n).map fun b => (b.1 - c) / 32).eraseDups).filterMap fun i =>
    let e := leNat (s.devBytes (c + 32 * i) 32)
    if bitAt e 0 then some (bits e 13 39 * 2 ^ 13) else none
  (decide (c / 65536 ≤ p ∧ p < (c + n + 65535) / 65536) && decide (0 < n)) ||
  decide (sh ≤ p ∧ p < sh + s.fld 0x160008 0 32) || (s.tablesFrom 3 roots).any fun t => t / 65536 == p

/-- A corpus holds the page on its stack, while its PASID still maps it (R280). -/
def State.isBound (s : State) (p : Nat) : Bool :=
  match (s.page p).bound with
  | none => false
  | some (pasid, v) => match s.walk pasid (v * 65536) with
    | .ok la _ _ => (match s.formOf la with
      | .inl (.dev a) => a / 65536 == p
      | _ => false)
    | _ => false

/-! ### Eviction -/

/-- Eviction order of a page, smaller first (R179): priority, then the furthest next use, then the page number. -/
def State.evictKey (s : State) (p : Nat) (x : PageSt) : Nat :=
  let dist : Nat := match x.next with
    | none => 2 ^ 31
    | some w =>
      let d := (w - (s.stepOf x.pasid).extractLsb' 0 32).toInt
      if d < 0 then 2 ^ 31 else d.toNat
  x.prio * 2 ^ 80 + (2 ^ 31 - dist) * 2 ^ 44 + p

/-- Pages of HBM, in the order of the eviction engine; corpus pages and the pages that stay are not among them. -/
def State.evictOrder (s : State) : List Nat :=
  let inHbm (e : Nat × PageSt) : Bool := (match e.2.place with
    | .hbm _ => true
    | _ => false) && !s.isBound e.1
  ((sortBy (fun e => s.evictKey e.1 e.2) (s.pages.filter inHbm)).filter fun e => !s.fixedPage e.1).map Prod.fst

/-- The next page the eviction engine chooses (R179). -/
def State.evictNext (s : State) : Option Nat := s.evictOrder.head?

/-- Give a page another place. Its bytes keep their values, and its lines leave their home slices (R178). -/
def State.placeAt (s : State) (p : Nat) (tgt : Place) : State :=
  let x := s.page p
  let inHbm : Place → Nat
    | .hbm _ => 1
    | _ => 0
  State.setPage { s with hbmUsed := s.hbmUsed - inHbm x.place + inHbm tgt, l2 := s.l2.filter fun e => e.line / 512 != p } p
    { x with place := tgt, due := false, prom := false }

/-- A stack of the die with a free frame, else any stack with one, for bytes that must stand in HBM (R177). -/
def State.anyStack (s : State) (die : Nat) : Option Nat := (s.freeStack die).orElse fun _ => s.freeStack (1 - die)

/-- Free a frame for bytes that must stand in HBM: with every frame in use the eviction engine's next page goes to the
capacity tier at once (R177). -/
def State.makeRoom (s : State) (die : Nat) : State :=
  if (s.anyStack die).isSome then s
  else match s.evictNext, s.freePort with
    | some q, some c => if s.pageOwned q then s else s.placeAt q (.cap c)
    | _, _ => s

/-! ### An access -/

/-- A line of a working-set region of a grid that runs (R20, R176). -/
def State.regionLine (s : State) (line : Nat) : Bool :=
  s.grids.any fun g => g.st == .running && g.regs.any fun r =>
    (List.range (r.len / 65536 + 2)).any fun i =>
      let va := if i = 0 then r.src else (r.src / 65536 + i) * 65536
      match if va < r.src + r.len then s.walk g.pasid va else .ats with
      | .ok la _ _ => (match s.formOf la with
        | .inl (.dev a) => decide (a / 128 ≤ line ∧ 128 * line < a + min (65536 - va % 65536) (r.src + r.len - va))
        | _ => false)
      | _ => false

/-- Lines one slice holds (R3): 512 KiB. -/
def sliceLines : Nat := 4096

/-- The line a full slice replaces: the one used longest ago that is neither pinned nor of a working-set region, else
the one used longest ago that is not pinned (R176; log entry 51). -/
def State.l2Victim (s : State) (a : Nat) : Option L2Line :=
  let mine := (s.l2.filter fun e => s.slice (128 * e.line) == s.slice a && !s.cmds.any fun c => c.pins.contains e.line).reverse
  (mine.find? fun e => !s.regionLine e.line).orElse fun _ => mine.head?

/-- The home slice of a device sector takes it up (R174): nothing of a line in error is kept. -/
def State.l2Touch (s : State) (a : Nat) : State :=
  let line := a / 128
  let bit : BitVec 4 := 1#4 <<< (a / 32 % 4)
  let rest := s.l2.filter fun e => e.line != line
  if (List.range 4).any fun i => s.poison.contains (4 * line + i) then { s with l2 := rest }
  else match s.l2.find? fun e => e.line == line with
    | some e => { s with l2 := { e with secs := e.secs ||| bit } :: rest }
    | none =>
      let new : L2Line := { line, secs := bit }
      if (s.l2.filter fun e => s.slice (128 * e.line) == s.slice a).length < sliceLines then { s with l2 := new :: s.l2 }
      else match s.l2Victim a with
        | some v => { s with l2 := new :: s.l2.filter fun e => e != v }
        | none => s

/-- A page without a frame receives one at its first access: on a stack of the accessing die if one has room, else in the
capacity tier; a page that must stand in HBM gets room made for it (R177). -/
def State.firstFrame (s : State) (p die : Nat) : State :=
  match (s.page p).place with
  | .none =>
    (match s.freeStack die with
     | some k => s.placeAt p (.hbm k)
     | none =>
       if s.fixedPage p then
         let s1 := s.makeRoom die
         match s1.anyStack die with
         | some k => s1.placeAt p (.hbm k)
         | none => s1
       else match s.freePort with
         | some q => s.placeAt p (.cap q)
         | none => s)
  | _ => s

/-- The hub counts the access; a page of the capacity tier that would now rank after the engine's next page is one to
promote (R179, R180). -/
def State.countAccess (s : State) (p die : Nat) : State :=
  let x := s.page p
  let y := if die = 0 then { x with acc0 := x.acc0 + 1 } else { x with acc1 := x.acc1 + 1 }
  match x.place with
  | .cap _ =>
    let prom := match s.evictNext with
      | some q => decide (s.evictKey q (s.page q) < s.evictKey p x)
      | none => true
    s.setPage p { y with prom }
  | _ => s.setPage p y

/-- An access from a core reaches a place in device memory: its page has a frame, its slice holds the sector, and the hub
counts it (R174, R177, R180). -/
def State.touch (s : State) (core : Nat) : Loc → State
  | .dev a => ((s.firstFrame (a / 65536) (dieOf core)).countAccess (a / 65536) (dieOf core)).l2Touch a
  | _ => s

/-- A walk reads table entries through the L2 like any other device bytes (R166). -/
def State.touchTables (s : State) (core pasid va : Nat) : State :=
  (s.tableReads pasid va).foldl (fun s a => s.touch core (.dev a)) s

/-! ### Translation for agents -/

/-- A translation for an agent: walked at once, waiting only for the host or for room among the 2,048 misses (R167).
`miss` means it must wait. -/
def State.agentXl (s : State) (core pasid va kind : Nat) : Look × State :=
  let page := va / 4096
  match s.look core pasid va kind with
  | .miss =>
    if s.walking core pasid page then (.miss, s.want core pasid va kind .miss)
    else
      let s1 := s.touchTables core pasid va
      match s.walk pasid va with
      | .ok a w x =>
        if (kind == 1 && !w) || (kind == 2 && !x) then (.bad 3, s1)
        else match s.formOf a with
          | .inl l => (.hit l, s1)
          | .inr r => (.bad r, s1)
      | .ats =>
        if !s.missRoom core then (.miss, s)
        else
          let k : Walk := { core, pasid, page, who := [(s.me, kind == 1)], st := .ats }
          (.miss, State.emit { s1 with walks := s.walks ++ [k] } (.ats pasid page))
      | .bad r => (.bad r, s1)
      | .data => (.data, s1)
  | .deny => (.miss, s.want core pasid va kind .deny)
  | .bad r => (.bad r, s.dropBad core pasid page)
  | .data => (.data, s.dropBad core pasid page)
  | l => (l, s)

end Sys2Proof.Machine
end

