-- ==== Sys2Proof/Machine/Wire.lean ====
section
/-! DEFINITION. Sending flits to peer packages (R365 to R368), what becomes of a request that cannot be sent,
and writes performed at their place with the bytes a mask names (R173, R354). -/

namespace Sys2Proof.Machine

/-- A flit of a kind to a package; `State.sendFlit` numbers it. -/
def Flit.blank (kind dst : Nat) : Flit :=
  { kind := BitVec.ofNat 8 kind, src := 0, dst := BitVec.ofNat 6 dst, seq := 0, addr := 0, tag := 0,
    op := 0, size := 0, val := 0, val2 := 0, stat := 0, mask := [], data := [], round := 0, tree := 0,
    km1 := 0, count := 0, first := 0, nent := 0 }

/-- A valid route to package `p` through a trained port (R366, R368). -/
def State.canSend (s : State) (p : Nat) : Bool :=
  let r := (s.reg (0x190100 + 8 * p)).toNat
  bitAt r 4 && bits r 0 4 < 12 && bitAt (s.reg 0x190008).toNat (32 + bits r 0 4)

/-- Send a flit with the next sequence number towards its package (R367). -/
def State.sendFlit (s : State) (f : Flit) : State :=
  let d := f.dst.toNat
  let n := Tab.get 0 s.seqOut d
  let s1 := { s with seqOut := Tab.set 0 s.seqOut d ((n + 1) % 2 ^ 32) }
  s1.emit (.flit { f with src := BitVec.ofNat 6 s.fpkg, seq := BitVec.ofNat 32 n })

/-- A write of the grid was refused or could not be delivered: the cabinet records it, and the grid retires with
0x8E unless it has retired (R359, R368). -/
def State.fabLost (s : State) (grid pkg addr : Nat) : State :=
  (s.modGrid grid fun g => { g with fabfail := true }).record 8 1 0xFFFF
    (BitVec.ofNat 64 addr) (BitVec.ofNat 64 (grid + 2 ^ 32 * pkg))

/-- The grid has sent something to a peer (R359). -/
def State.sentTo (s : State) (grid pkg : Nat) : State :=
  s.modGrid grid fun g => { g with peers := g.peers ||| (1#64 <<< pkg) }

/-- Byte `i` of a masked write is present. -/
def optAt (bs : List (Option Byte)) (i : Nat) : Bool :=
  match bs[i]? with
  | some (some _) => true
  | _ => false

/-- Sector `k` is covered whole by a masked write from `a` (R354). -/
def covers (bs : List (Option Byte)) (a k : Nat) : Bool :=
  (List.range 32).all fun j => decide (a ≤ 32 * k + j) && optAt bs (32 * k + j - a)

/-- Errors that a masked write ends (R354). -/
def State.heal (s : State) (base : Loc) (bs : List (Option Byte)) : State :=
  match base with
  | .dev a => { s with poison := s.poison.filter fun k => !covers bs a k }
  | .scr c a => { s with poisonScr := s.poisonScr.filter fun k => !covers bs (c * 2 ^ 21 + a) k }
  | _ => s

/-- Perform the present bytes of a list from `base` (R173, R321). -/
def State.putBytes (s : State) (base : Loc) : Nat → List (Option Byte) → State
  | _, [] => s
  | i, some b :: bs => State.putBytes (s.writeLoc b (base.next i)) base (i + 1) bs
  | i, none :: bs => State.putBytes s base (i + 1) bs

/-- A masked write at its place. -/
def State.homeWrite (s : State) (base : Loc) (bs : List (Option Byte)) : State :=
  (s.heal base bs).putBytes base 0 bs

/-- A whole write at its place. -/
def State.homePut (s : State) (base : Loc) (bs : List Byte) : State := s.homeWrite base (bs.map some)

/-- Reads of a core's L1 sectors that are out, or answered and not taken up, and whose keys are named, may not be used any
more (R317, R321). -/
def State.staleReads (s : State) (core : Nat) (sel : Nat → Bool) : State :=
  { s with
    outst := s.outst.map fun o => match o.who with
      | .fill c k _ => if c == core && sel k then { o with who := .gone, key := k } else o
      | _ => o
    peerGot := s.peerGot.filter fun e => !(e.core == core && sel e.key) }

/-- Send the present bytes of one line, at L1 key `key`, to a peer as a WR flit for a grid, or lose them (R368). -/
def State.peerWrite (s : State) (pkg addr grid key : Nat) (bs : List (Option Byte)) : State :=
  if bs.all Option.isNone then s
  else if s.canSend pkg then
    let (tag, s1) := s.freshId
    let o : Outst := { tag, dst := pkg, who := .write grid, key }
    let f : Flit := { Flit.blank 1 pkg with addr, tag, mask := bs.map Option.isSome, data := bs.map (·.getD 0) }
    let s2 := State.sentTo { s1 with outst := s1.outst ++ [o] } grid pkg
    s2.sendFlit f
  else s.fabLost grid pkg addr

end Sys2Proof.Machine
end

