-- ==== Sys2Proof/Machine/Cache.lean ====
section
/-! DEFINITION. The L1 data cache (R172, R173), what a load takes from store queue, L1 and home (R185), when a
datum can be read, and the release and acquire operations (R317). -/

namespace Sys2Proof.Machine

/-- The L1 tag of a byte: PASID and virtual address (R172). -/
def l1key (pasid va : Nat) : Nat := pasid * 2 ^ 56 + va % 2 ^ 56

def State.l1 (s : State) (core key : Nat) : Option L1Byte := Tab.get none (s.core core).l1 key
def State.setL1 (s : State) (core key : Nat) (b : Option L1Byte) : State :=
  s.modCore core fun c => { c with l1 := Tab.set none c.l1 key b }

/-- Place `k` bytes below a location. -/
def Loc.back : Loc → Nat → Loc
  | .dev a, k => .dev (a - k)
  | .peer p a, k => .peer p (a - k)
  | .host a, k => .host (a - k)
  | .scr c a, k => .scr c (a - k)
  | .sup t a, k => .sup t (a - k)
  | .door p m, _ => .door p m
  | .ingress t r, _ => .ingress t r

/-! ### Write-back -/

/-- Byte `i` of a line if it is dirty and selected. -/
def State.dirtyAt (s : State) (core line : Nat) (sel : Nat → Bool) (i : Nat) : Option L1Byte :=
  if sel (line * 128 + i) then
    match s.l1 core (line * 128 + i) with
    | some b => if b.dirty then some b else none
    | none => none
  else none

/-- Mark the selected dirty bytes of a line clean. -/
def State.cleanLine (s : State) (core line : Nat) (sel : Nat → Bool) : State :=
  let f (e : Nat × Option L1Byte) : Nat × Option L1Byte :=
    if e.1 / 128 == line && sel e.1 then (e.1, e.2.map fun b => { b with dirty := false }) else e
  s.modCore core fun c => { c with l1 := c.l1.map f }

/-- Send the selected dirty bytes of one line, with their mask, to home, host or peer (R173). A line that an agent
owns is held at the home slice, so its bytes stay (R175). -/
def State.wbLine (s : State) (core : Nat) (sel : Nat → Bool) (line : Nat) : State :=
  let bs := (List.range 128).map (s.dirtyAt core line sel)
  match bs.zipIdx.find? fun p => p.1.isSome with
  | some (some b, i) =>
    match b.loc.back i with
    | .dev a =>
      if s.ownedLine (a / 128) then s
      else ((s.touch core (.dev a)).homeWrite (.dev a) (bs.map fun b => b.map L1Byte.val)).cleanLine core line sel
    | .peer p a =>
      let grids := (bs.filterMap fun b => b.map L1Byte.grid).eraseDups
      (grids.foldl (fun s g => s.peerWrite p a g
        (line * 128) (bs.map fun b => match b with
          | some x => if x.grid = g then some x.val else none
          | none => none)) (s.staleReads core fun k => k / 128 == line)).cleanLine core line sel
    | l => (s.homeWrite l (bs.map fun b => b.map L1Byte.val)).cleanLine core line sel
  | _ => s

/-- Lines of a core with selected dirty bytes. -/
def State.dirtyLines (s : State) (core : Nat) (sel : Nat → Bool) : List Nat :=
  ((s.core core).l1.filterMap fun e =>
    match e.2 with
    | some b => if b.dirty && sel e.1 then some (e.1 / 128) else none
    | none => none).eraseDups

/-- Write back the selected dirty bytes of a core. -/
def State.wbSel (s : State) (core : Nat) (sel : Nat → Bool) : State :=
  (s.dirtyLines core sel).foldl (fun s l => s.wbLine core sel l) s

/-- Write back every dirty byte of a core (R173). -/
def State.wbAll (s : State) (core : Nat) : State := s.wbSel core fun _ => true

/-- No selected byte of the core is dirty. -/
def State.cleanSel (s : State) (core : Nat) (sel : Nat → Bool) : Bool := (s.dirtyLines core sel).isEmpty

/-- Keep the bytes of a core's L1 that satisfy `f`. -/
def State.keepL1 (s : State) (core : Nat) (f : Nat → L1Byte → Bool) : State :=
  let keep (e : Nat × Option L1Byte) : Bool :=
    match e.2 with
    | some b => f e.1 b
    | none => false
  s.modCore core fun c => { c with l1 := c.l1.filter keep }

/-- Drop every clean byte of the lines that global accesses filled (R173, R193). -/
def State.dropClean (s : State) (core : Nat) : State := s.keepL1 core fun _ b => b.dirty || b.priv

/-- Drop the clean bytes at the keys named. -/
def State.dropKeys (s : State) (core : Nat) (ks : Nat → Bool) : State :=
  s.keepL1 core fun k b => b.dirty || !ks k

/-- The 16-byte units of the keys named: the largest unit one store writes indivisibly (R324). -/
def unitsOf (ks : List Nat) (k : Nat) : Bool := ks.any fun j => j / 16 == k / 16

/-- A line leaves the L1: its dirty bytes are sent and the line dropped; nothing happens while its home holds the
write-back (R173). -/
def State.evictLine (s : State) (core line : Nat) : State :=
  let sel (k : Nat) : Bool := k / 128 == line
  let s1 := s.wbSel core sel
  if s1.cleanSel core sel then s1.dropKeys core sel else s1

/-! ### Lines of the L1 -/

/-- Lines with a valid byte. -/
def State.l1Lines (s : State) (core : Nat) : List Nat := (((s.core core).l1.map fun e => e.1 / 128)).eraseDups

/-- Lines the L1 holds (R172): 256 KiB. -/
def l1Max : Nat := 2048

/-- Room for a line in the L1: where it is full, a line leaves that can be written back, those marked `.ev` first, and of
each kind the one filled or written longest ago (R173, R185, R187; log entry 51). None while every line is held. -/
def State.l1Room (s : State) (core line : Nat) : Option State :=
  let ls := s.l1Lines core
  if ls.contains line || decide (ls.length < l1Max) then some s
  else
    let o := (s.core core).order.filter fun e => ls.contains e.1
    ((o.filter Prod.snd ++ o.filter fun e => !e.2).map Prod.fst).findSome? fun v =>
      let t := s.evictLine core v
      if (t.l1Lines core).contains v then none else some t

/-- A line has been filled or written. -/
def State.noteLine (s : State) (core line : Nat) (ev : Bool) : State :=
  let ls := s.l1Lines core
  s.modCore core fun c => { c with order := (c.order.filter fun e => e.1 != line && ls.contains e.1) ++ [(line, ev)] }

/-! ### Filling -/

/-- Fetch the sector of a byte from its home: the bytes that are not dirty take the home's values (R172). -/
def State.fillFrom (s : State) (core key : Nat) (priv : Bool) (grid : Nat) (bytes : List (Nat × Byte × Loc)) :
    State :=
  match bytes with
  | [] => s
  | (i, v, loc) :: r =>
    let s1 := match s.l1 core (key + i) with
      | some b => if b.dirty then s else s.setL1 core (key + i) (some { b with val := v, priv })
      | none => s.setL1 core (key + i) (some { val := v, dirty := false, priv, loc, grid })
    s1.fillFrom core key priv grid r

/-- Fill the sector of `key` with its home's bytes, where the L1 has room for its line. -/
def State.fillL1 (s : State) (core key : Nat) (priv ev : Bool) (bytes : List (Nat × Byte × Loc)) : State :=
  match s.l1Room core (key / 128) with
  | some s1 => (s1.fillFrom core (key / 32 * 32) priv 0 bytes).noteLine core (key / 128) ev
  | none => s

/-- Fill the sector around `key`, whose byte stands at `loc`, from the home slice or the host. -/
def State.fillSector (s : State) (core key : Nat) (loc : Loc) (priv ev : Bool) : State :=
  let base := loc.back (key % 32)
  (s.touch core base).fillL1 core key priv ev ((List.range 32).map fun i => (i, s.readLoc (base.next i), base.next i))

/-- Write one byte into the L1: valid and dirty, nothing fetched (R172). -/
def State.storeL1 (s : State) (core grid : Nat) (b : StByte) : State :=
  s.setL1 core b.key (some { val := b.val, dirty := true, priv := b.priv, loc := b.loc, grid })

/-! ### What a load takes -/

/-- The form of plain words. -/
def Form.plain (n : Nat) : Form := { n, signed := false, priv := false, nofill := false, ev := false }

/-- Places an entry of the store queue writes. -/
def SqEnt.locs (e : SqEnt) : List Loc :=
  match e.kind with
  | .store bs => bs.map StByte.loc
  | .atomic r => r.lanes.flatMap fun x =>
      (List.range (if r.ty.wide then 8 else 4)).map fun i => x.loc.next i

/-- The youngest byte an older entry stores at a place: `some none` when that entry is an atomic, whose value is
not known before it is performed (R185, R316). -/
def sqByte (loc : Loc) : List SqEnt → Option (Option Byte) → Option (Option Byte)
  | [], acc => acc
  | e :: es, acc =>
    match e.kind with
    | .store bs =>
      match (bs.filter fun b => b.loc == loc).getLast? with
      | some b => sqByte loc es (some (some b.val))
      | none => sqByte loc es acc
    | .atomic _ => if e.locs.contains loc then sqByte loc es (some none) else sqByte loc es acc

/-- Entries of a group older than `id`. -/
def Group.older (g : Group) (id : Nat) : List SqEnt := g.sq.filter fun e => e.id < id

/-- The byte can be read now: no older atomic of the group stands on it, and no agent owns its line when it must
come from the home (R175). -/
def State.byteReady (s : State) (slot id : Nat) (nofill : Bool) (b : Nat × Loc) : Bool :=
  match sqByte b.2 ((s.group slot).older id) none with
  | some (some _) => true
  | some none => false
  | none =>
    if b.1 = 0 then true
    else match s.l1 (slotCore slot) b.1 with
      | some _ => !nofill || !s.ownedLoc b.2
      | none => !s.ownedLoc b.2

/-- The value of one byte of a load, with what the L1 holds now: the youngest older store of the group, the L1 unless
`home` says that its home is read, else the home (R185). -/
def State.loadByte (s : State) (slot id : Nat) (home : Bool) (b : Nat × Loc) : Byte :=
  match sqByte b.2 ((s.group slot).older id) none with
  | some (some v) => v
  | _ =>
    if b.1 = 0 || home then s.readLoc b.2
    else match s.l1 (slotCore slot) b.1 with
      | some x => x.val
      | none => s.readLoc b.2

/-- The bytes of a load that the store queue does not supply and the L1 could. -/
def State.l1Part (s : State) (slot id : Nat) (bs : List (Nat × Loc)) : List (Nat × Loc) :=
  bs.filter fun b => b.1 != 0 && (sqByte b.2 ((s.group slot).older id) none).isNone

/-- The first byte named of each sector. -/
def sectorHeads (bs : List (Nat × Loc)) : List (Nat × Loc) :=
  ((bs.map fun b => b.1 / 32).eraseDups).filterMap fun k => bs.find? fun b => b.1 / 32 == k

/-- Read the bytes of one load at one moment (R172, R185). A load whose bytes are not all valid in the L1 first fetches
their sectors whole, so that no clean byte is older than the bytes fetched beside it (R324, R325). A read that fills
nothing has the core's dirty bytes written back (R322) and takes every byte from the home; the clean copies it passes over
are dropped, so that the thread's later reads are no older (R321). -/
def State.takeBytes (s : State) (slot id : Nat) (f : Form) (bs : List (Nat × Loc)) : List Byte × State :=
  let c := slotCore slot
  let part := s.l1Part slot id bs
  if f.nofill then
    let ks := part.map Prod.fst
    let s1 := ((sectorHeads part).foldl (fun s b => s.touch c b.2) (s.wbSel c (unitsOf ks))).dropKeys c fun k => ks.contains k
    (bs.map (s1.loadByte slot id true), s1)
  else
    let gaps := part.filter fun b => (s.l1 c b.1).isNone
    let s1 := (sectorHeads gaps).foldl (fun s b => s.fillSector c b.1 b.2 f.priv f.ev) s
    (bs.map (s1.loadByte slot id false), s1)

/-- The registers a loaded value becomes: sign- or zero-extended to 32 bits, or whole words (R185). -/
def Form.words (f : Form) (bs : List Byte) : List Word :=
  if f.n < 4 then
    let v := leNat bs
    [if f.signed && bitAt v (8 * f.n - 1) then BitVec.ofInt 32 ((v : Int) - 2 ^ (8 * f.n)) else BitVec.ofNat 32 v]
  else wordsOf bs

/-- Two data touch one byte. -/
def Datum.meets (a : Datum) (ls : List Loc) : Bool :=
  match a with
  | .mem bs => bs.any fun b => ls.contains b.2
  | _ => false

/-- Places a datum still has to read. -/
def Datum.locs : Datum → List Loc
  | .mem bs => bs.map Prod.snd
  | _ => []

/-- An acquire that the group issued before `id`, other than that of the result `own`, has not been performed: later
accesses wait for it (R317). -/
def Group.acqBefore (g : Group) (id own : Nat) : Bool :=
  (g.pend.any fun p => decide (p.id < id) && p.id != own && p.acq.isSome) || g.fences.any fun f => f.acq && decide (f.mark < id)

/-- A lane's datum can be read now. A byte of a peer is read when its answer is there (R368). -/
def State.datumReady (s : State) (slot : Nat) (p : Pend) (x : PLane) : Bool :=
  match x.datum with
  | .mem bs => bs.all (s.byteReady slot p.id p.form.nofill) && !(s.group slot).acqBefore p.id p.id && !bs.any fun b => b.2.isPeer
  | .words _ => true
  | .wait => false

/-- Replace a lane's datum in an outstanding result. -/
def Pend.setDatum (p : Pend) (lane : Nat) (d : Datum) : Pend :=
  { p with lanes := p.lanes.map fun x => if x.lane = lane then { x with datum := d } else x }
def Group.setDatum (g : Group) (id lane : Nat) (d : Datum) : Group :=
  { g with pend := g.pend.map fun p => if p.id = id then p.setDatum lane d else p }

/-- Read one lane's datum and keep its words. -/
def State.capture (s : State) (slot : Nat) (p : Pend) (x : PLane) : State :=
  match x.datum with
  | .mem bs =>
    if s.datumReady slot p x then
      let (v, s1) := s.takeBytes slot p.id p.form bs
      s1.modGroup slot fun g => g.setDatum p.id x.lane (.words (p.form.words v))
    else s
  | _ => s

/-- Read every datum older than `id` that can be read: an entry of the store queue is performed after the group's earlier
loads (R316). -/
def State.captureOld (s : State) (slot id : Nat) : State :=
  ((s.group slot).pend.filter fun p => p.id < id).foldl (fun s p => p.lanes.foldl (fun s x => s.capture slot p x) s) s

/-- No datum older than `id` is still to be read. -/
def State.noneOld (s : State) (slot id : Nat) : Bool :=
  (s.group slot).pend.all fun p => !(p.id < id && p.lanes.any fun x => !x.datum.locs.isEmpty)

/-- Read every datum older than `id` that meets the places `ls`: loads of one byte by one thread keep their order (R321). -/
def State.captureMet (s : State) (slot id : Nat) (ls : List Loc) : State :=
  ((s.group slot).pend.filter fun p => p.id < id).foldl
    (fun s p => (p.lanes.filter fun x => x.datum.meets ls).foldl (fun s x => s.capture slot p x) s) s

/-- No datum older than `id` meets the places any more. -/
def State.noneMet (s : State) (slot id : Nat) (ls : List Loc) : Bool :=
  (s.group slot).pend.all fun p => !(p.id < id && p.lanes.any fun x => x.datum.meets ls)

/-! ### Release and acquire -/

/-- Code of a scope (R191). -/
def scopeCode (x : Scope) : Nat := x.toBits.toNat

/-- The scope reaches peers: fabric or system (R317). -/
def scopePeers (x : Scope) : Bool := x == .fabric || x == .system

/-- Loads of the group before `mark` have returned. -/
def Group.loadsBack (g : Group) (mark : Nat) : Bool :=
  g.pend.all fun p => !(p.id < mark) || p.lanes.all fun x =>
    match x.datum with
    | .words _ => true
    | _ => false

/-- Entries of the group before `mark` have been performed, and FLUSHes before it have completed. -/
def Group.storesDone (g : Group) (mark : Nat) : Bool :=
  (g.sq.all fun e => !(e.id < mark)) && g.flushes.all fun f => !(f.mark < mark)

/-- Every write of a grid to a peer has been acknowledged. -/
def State.acked (s : State) (grid : Nat) : Bool := s.outst.all fun o => o.who != .write grid

/-- Release(scope) for what the group did before `mark`: the state after its write-back, and whether it is
complete (R317). -/
def State.release (s : State) (slot mark : Nat) (x : Scope) : Bool × State :=
  let g := s.group slot
  if !(g.loadsBack mark && g.storesDone mark) then (false, s)
  else if scopeCode x < 3 then (true, s)
  else
    let s1 := s.wbAll (slotCore slot)
    (s1.cleanSel (slotCore slot) (fun _ => true) && (!scopePeers x || s1.acked (s.team g.tid).grid), s1)

/-- Acquire(scope) with everything before it complete (R317): clean global bytes go, and no read of a peer that is out
already may be used. -/
def State.acquireNow (s : State) (slot : Nat) (x : Scope) : State :=
  if scopeCode x < 3 then s else (s.dropClean (slotCore slot)).staleReads (slotCore slot) fun _ => true

/-- Acquire(scope) for what the group issued before `mark`: at once when those loads have returned, else the group's
later memory accesses are held until they have (R317). -/
def State.acquireAt (s : State) (slot mark : Nat) (x : Scope) : State :=
  if (s.group slot).loadsBack mark then s.acquireNow slot x
  else
    let e : FenceEnt := { mark, instr := false, rel := false, acq := true, scope := x }
    s.modGroup slot fun g => { g with fences := insertBy FenceEnt.mark e g.fences }

/-- Acquire(scope) after a wait of the instruction in progress. -/
def State.acquire (s : State) (slot : Nat) (x : Scope) : State := s.freshId.2.acquireAt slot s.fresh x

end Sys2Proof.Machine
end

