-- ==== Sys2Proof/Machine/Memory.lean ====
section
/-! DEFINITION. Class 0x8 (R181 to R193): the places an access touches and the order of its checks (R161, R162,
R183), loads, stores, prefetch, the divergent gather, fences and cache maintenance. -/

namespace Sys2Proof.Machine

/-! ### Places -/

/-- Number under which the scratchpad bytes of a stopped team's context are held, beyond every core (R341). -/
def Team.ctxCore (t : Team) : Nat := 2 ^ 20 + t.grid * 2 ^ 32 + t.idx

/-- Physical place of a team's scratchpad offset (R205), or its place in the context of a stopped team. -/
def Team.scrLoc (t : Team) (o : Nat) : Loc :=
  if t.st == .stopped then .scr t.ctxCore (o % 2 ^ 21)
  else .scr t.core (((t.macs.find? fun m => m.1 == o / 65536).map Prod.snd).getD 0 * 65536 + o % 65536)

/-- The shelf whose slots hold an offset (R205, R208). -/
def Team.shelfAt (t : Team) (o : Nat) : Option Nat :=
  (List.range 16).find? fun i =>
    let h := t.shelf i
    h.st != .free && decide (h.m0 * 65536 ≤ o ∧ o < (h.m0 + h.nm) * 65536)

/-- An access of `n` bytes at offset `o` stays in the declared area or in one shelf (R161). -/
def scrValid (t : Team) (scratch o n : Nat) : Bool :=
  decide (o + n ≤ scratch) ||
    (match t.shelfAt o with
     | some i => decide (o + n ≤ ((t.shelf i).m0 + (t.shelf i).nm) * 65536)
     | none => false)

/-- The team of rank `r` in the cluster of team `tid` (R161). -/
def State.mate (s : State) (tid r : Nat) : Option Nat :=
  let t := s.team tid
  let k := (s.grid t.grid).k
  let n := k.clw * k.clh
  (s.teams.find? fun e => e.2.used && e.2.grid == t.grid && e.2.idx / n == t.idx / n && e.2.rank == r &&
    e.2.st != .ended).map Prod.fst

/-- PA(g, i, l) of R162. -/
def privAddr (pb pw g i l : Nat) : Nat := pb + ((g * pw + i) * 64 + l) * 4

/-- What one lane's access touches: its address for a trap, whether it is misaligned, the bounds trap it would
raise, its global ranges, its untranslated bytes, and whether they lie in a shelf. -/
structure Acc where
  lane : Nat
  addr : Nat
  mis : Bool
  bounds : Option (Nat × Nat)
  pieces : List (Nat × Nat)
  fix : List Loc
  stat : Bool
  deriving DecidableEq, Repr

/-- Words a private access touches: (word, first byte, bytes) (R162). -/
def privWords (b n : Nat) : List (Nat × Nat × Nat) :=
  ((List.range ((b + n - 1) / 4 - b / 4 + 1)).map fun j =>
    let w := b / 4 + j
    let lo := max b (4 * w)
    (w, lo % 4, min (b + n) (4 * w + 4) - lo))

/-- The access of a lane at `x` in a space (R161, R162, R181, R182, R352). An emulated access means what it means in the
trapped code. -/
def accOf (s : State) (slot : Nat) (sp : Space) (n : Nat) (x : Int) (l : Nat) : Acc :=
  let g := s.group slot
  let t := s.team g.tid
  let gr := s.grid t.grid
  match sp with
  | .g =>
    let a := (x % 2 ^ 56).toNat
    { lane := l, addr := a, mis := a % n != 0, bounds := none, pieces := [(a, n)], fix := [], stat := false }
  | .p =>
    let b := (x % 2 ^ 32).toNat
    let mis := b % min n 4 != 0
    if (g.lane l).sup && !s.cur.emul && bitAt b 31 then
      let ws := privWords (b - 2 ^ 31) n
      let bad := ws.any fun w => w.1 ≥ 64
      let fix := ws.flatMap fun w => (List.range w.2.2).map fun k =>
        Loc.sup g.tid (((g.gidx * 64 + w.1) * 64 + l) * 4 + w.2.1 + k)
      { lane := l, addr := b, mis, bounds := if bad then some (4, 1) else none, pieces := [], fix,
        stat := false }
    else
      let ws := privWords b n
      let bad := ws.any fun w => w.1 ≥ gr.k.pwords
      { lane := l, addr := b, mis, bounds := if bad then some (4, 0) else none,
        pieces := ws.map fun w => (privAddr t.pb gr.k.pwords g.gidx w.1 l + w.2.1, w.2.2), fix := [],
        stat := false }
  | .s =>
    let o := x.toNat
    let out := decide (x < 0 ∨ 2 ^ 21 ≤ x)
    { lane := l, addr := (x % 2 ^ 56).toNat, mis := !out && o % n != 0,
      bounds := if out || !scrValid t gr.k.scratch o n then some (6, 1) else none, pieces := [],
      fix := (List.range n).map fun k => t.scrLoc (o + k), stat := (t.shelfAt o).isSome }
  | .c =>
    let a := x.toNat
    let out := decide (x < 0 ∨ 2 ^ 25 ≤ x)
    let o := a % 2 ^ 21
    let base : Acc := { lane := l, addr := (x % 2 ^ 56).toNat, mis := !out && a % n != 0,
                        bounds := some (6, 1), pieces := [], fix := [], stat := false }
    if out || decide (gr.k.clw * gr.k.clh ≤ a / 2 ^ 21) then base
    else match s.mate g.tid (a / 2 ^ 21) with
      | none => base
      | some m =>
        let u := s.team m
        if scrValid u gr.k.scratch o n then
          { base with bounds := none, fix := (List.range n).map fun k => u.scrLoc (o + k),
                      stat := (u.shelfAt o).isSome }
        else base

/-- The access of a lane as the issue in progress makes it: in one piece, or emulated byte by byte (R182, R353). -/
def State.access (s : State) (slot : Nat) (sp : Space) (n : Nat) (x : Int) (l : Nat) : Acc :=
  let whole := accOf s slot sp n x l
  if !s.cur.emul then whole
  else
    let bs := (List.range n).map fun k => accOf s slot sp 1 (x + Int.ofNat k) l
    { whole with mis := false, bounds := bs.findSome? Acc.bounds, pieces := bs.flatMap Acc.pieces, fix := bs.flatMap Acc.fix,
                 stat := bs.any Acc.stat }

/-! ### Checks in the order of R183 -/

/-- Bytes of one lane: L1 key (0 uncached) and place. -/
abbrev LaneBytes := Nat × List (Nat × Loc)

/-- Outcome of the checks: the bytes of every lane, a trap (with the page whose failed result it uses up), or
pages still to be translated. -/
inductive Check where
  | ok (ls : List LaneBytes)
  | trap (cause detail addr : Nat) (page : Option Nat)
  | wait (ps : List (Nat × Look))
  deriving DecidableEq, Repr

/-- First global range of a lane that cannot be used: the trap it raises. -/
def pieceTrap (s : State) (core pasid kind : Nat) (hostop : Bool) : List (Nat × Nat) → Option Check
  | [] => none
  | (a, _) :: ps =>
    match (s.look core pasid a kind).thread with
    | .bad r => some (.trap 3 (r + 16 * kind) a (some (a / 4096)))
    | .data => some (.trap 8 1 a (some (a / 4096)))
    | .hit (.host _) => if hostop then some (.trap 3 (5 + 16 * kind) a none)
                        else pieceTrap s core pasid kind hostop ps
    | _ => pieceTrap s core pasid kind hostop ps

/-- Bytes of a lane, all translated. -/
def accBytes (s : State) (core pasid kind : Nat) (a : Acc) : LaneBytes :=
  (a.lane, (a.pieces.flatMap fun p => (List.range p.2).filterMap fun k =>
      match s.look core pasid (p.1 + k) kind with
      | .hit l => some (l1key pasid (p.1 + k), l)
      | _ => none) ++ a.fix.map fun l => (0, l))

/-- The checks of R183 over the lanes of an instruction: misaligned (detail `mis`), bounds, translation, then
stationary-write when `stat`. -/
def checkAcc (s : State) (core pasid kind mis : Nat) (stat hostop : Bool) (as : List Acc) : Check :=
  match as.find? Acc.mis with
  | some a => .trap 2 mis a.addr none
  | none =>
    match as.findSome? fun a => a.bounds.map fun b => (b, a.addr) with
    | some (b, addr) => .trap b.1 b.2 addr none
    | none =>
      let need := (as.flatMap Acc.pieces).filterMap fun p =>
        match s.look core pasid p.1 kind with
        | .miss => some (p.1, Look.miss)
        | .deny => some (p.1, Look.deny)
        | _ => none
      if !need.isEmpty then .wait need
      else match as.findSome? fun a => pieceTrap s core pasid kind hostop a.pieces with
        | some c => c
        | none =>
          match if stat then as.find? Acc.stat else none with
          | some a => .trap 5 0 a.addr none
          | none => .ok (as.map (accBytes s core pasid kind))

/-- Raise a trap that a check found, or wait for the pages it needs; `none` when every lane is ready. -/
def State.settleCheck (s : State) (kind : Nat) : Check → State ⊕ List LaneBytes
  | .ok ls => .inr ls
  | .trap c d a page =>
    let core := slotCore s.cur.slot
    let pasid := s.pasidOf s.cur.slot
    let s1 := match page with
      | some p => s.dropBad core pasid p
      | none => s
    .inl (s1.trap c d a)
  | .wait ps =>
    let core := slotCore s.cur.slot
    let pasid := s.pasidOf s.cur.slot
    let s1 := ps.foldl (fun s p => s.want core pasid p.1 kind p.2) s
    match ps with
    | [] => .inl s1
    | p :: _ => .inl (s1.block s.cur.mask (.xlate pasid (p.1 / 4096)))

/-! ### Errors and peers -/

/-- The byte of load `id` must be fetched from its place: no older store of the group and no L1 byte supplies it. -/
def State.fetched (s : State) (slot id : Nat) (nofill : Bool) (b : Nat × Loc) : Bool :=
  (sqByte b.2 ((s.group slot).older id) none).isNone &&
    (b.1 == 0 || (match s.l1 (slotCore slot) b.1 with
      | some x => nofill && !x.dirty
      | none => true))

/-- A byte whose fetch meets an uncorrectable error (R354). -/
def State.badByte (s : State) (slot id : Nat) (nofill : Bool) (b : Nat × Loc) : Bool :=
  s.poisoned b.2 && s.fetched slot id nofill b

/-- The first lane with such a byte, and the byte's place. -/
def State.firstBad (s : State) (slot : Nat) (nofill : Bool) (ls : List LaneBytes) : Option (Nat × Loc) :=
  ls.findSome? fun x => (x.2.find? (s.badByte slot s.fresh nofill)).map fun b => (x.1, b.2)

/-- Send RD flits for the sectors of peer bytes not yet asked for (R368). -/
def State.askPeer (s : State) (core : Nat) (nc : Bool) (b : Nat × Loc) : State :=
  match b.2 with
  | .peer p a =>
    let key := b.1 / 32 * 32
    let out := s.outst.any fun o => match o.who with
      | .fill c k _ => c == core && k == key
      | _ => false
    if out then s
    else
      let (tag, s1) := s.freshId
      let o : Outst := { tag, dst := p, who := .fill core key nc, key := 0 }
      let f : Flit := { Flit.blank 2 p with addr := a / 32 * 32, tag }
      State.sendFlit { s1 with outst := s1.outst ++ [o] } f
  | _ => s

/-- What a peer has answered for the sector of a byte: code and bytes. -/
def State.peerAns (s : State) (core key : Nat) : Option (Nat × List Byte) :=
  (s.peerGot.find? fun e => e.core == core && e.key == key / 32 * 32).map fun e => (e.code, e.bytes)

/-- Take up the answers for a lane's peer bytes. -/
def State.dropAns (s : State) (core : Nat) (keys : List Nat) : State :=
  { s with peerGot := s.peerGot.filter fun e => !(e.core == core && keys.any fun k => k / 32 * 32 == e.key) }

/-- Peer bytes a load still has to fetch, with their lanes. -/
def State.peerNeed (s : State) (slot id : Nat) (nofill : Bool) (ls : List LaneBytes) :
    List (Nat × Nat × Loc) :=
  ls.flatMap fun x => (x.2.filter fun b => b.2.isPeer && s.fetched slot id nofill b).map fun b => (x.1, b)

/-- Lane address of a check, for TRAPADDR. -/
def addrOf (as : List Acc) (lane : Nat) : Nat := ((as.find? fun a => a.lane == lane).map Acc.addr).getD 0

/-- The peer bytes of lanes. -/
def peerBytes (ls : List LaneBytes) : List (Nat × Loc) := ls.flatMap fun x => x.2.filter fun b => b.2.isPeer

/-- What the fetch of peer bytes gives: all is there, a trap at a lane, or an answer is awaited. -/
inductive PeerRead where
  | ready
  | trap (lane cause detail : Nat)
  | wait
  deriving DecidableEq, Repr

/-- Fetch the peer bytes of lanes (R172, R185, R368). A read that fills nothing first has the core's dirty bytes of them
written back (R322). A refusal or an error is the trap of the lane that meets it; answers to it are used up. -/
def State.peerFetch (s : State) (slot id : Nat) (nofill : Bool) (ls : List LaneBytes) : PeerRead × State :=
  let core := slotCore slot
  let s0 := if nofill then s.wbSel core (unitsOf ((peerBytes ls).map Prod.fst)) else s
  let need := s0.peerNeed slot id nofill ls
  let keys := need.map fun x => x.2.1
  match need.findSome? fun x => (s0.peerAns core x.2.1).bind fun e => if e.1 = 0 then none else some (x.1, e.1) with
  | some (l, 1) => (.trap l 3 3, s0.dropAns core keys)
  | some (l, _) => (.trap l 8 1, s0.dropAns core keys)
  | none =>
    let open' := need.filter fun x => (s0.peerAns core x.2.1).isNone
    match open'.find? fun x => match x.2.2 with
        | .peer p _ => !s0.canSend p
        | _ => false with
    | some x => (.trap x.1 8 1, s0)
    | none =>
      if open'.isEmpty then (.ready, s0)
      else (.wait, open'.foldl (fun s x => s.askPeer core nofill x.2) s0)

/-- Peer bytes are read when their load is issued; until then an older atomic on them, or an older acquire of the group,
holds the load (R185, R317). -/
def State.peerHeld (s : State) (slot id : Nat) (ls : List LaneBytes) : Option Why :=
  let g := s.group slot
  let bs := peerBytes ls
  if bs.isEmpty then none
  else if bs.any fun b => sqByte b.2 (g.older id) none == some none then some (.drain id)
  else if g.acqBefore id id then some .acq
  else none

/-- What stands between checked lanes and their load: a trap, a wait for peers, or nothing. -/
def State.loadReady (s : State) (nofill : Bool) (as : List Acc) (ls : List LaneBytes) : State ⊕ State :=
  let slot := s.cur.slot
  match s.firstBad slot nofill ls with
  | some (l, b) => .inl ((s.logError b).trap 8 (match b with
      | .scr _ _ => 2
      | _ => 1) (addrOf as l))
  | none => match s.peerHeld slot s.fresh ls with
    | some w => .inl (s.block s.cur.mask w)
    | none =>
      let r := s.peerFetch slot s.fresh nofill ls
      match r.1 with
      | .ready => .inr r.2
      | .trap l c d => .inl (r.2.trap c d (addrOf as l))
      | .wait => .inl (r.2.block s.cur.mask (.peer r.2.fresh))

/-- One byte of a load with peer bytes, all of which have been fetched. -/
def State.peerByte (s : State) (slot id : Nat) (nofill : Bool) (b : Nat × Loc) : Byte :=
  match sqByte b.2 ((s.group slot).older id) none with
  | some (some v) => v
  | _ =>
    let got := ((s.peerAns (slotCore slot) b.1).map fun e => e.2.getD (b.1 % 32) 0).getD 0
    match s.l1 (slotCore slot) b.1 with
    | some y => if y.dirty || !nofill then y.val else got
    | none => if b.2.isPeer then got else s.readLoc b.2

/-- A lane's datum: bytes to read later, or, where peers supply some, its words now, with the L1's clean copies dropped by a
load that fills nothing (R321). -/
def State.datumFor (s : State) (slot id : Nat) (f : Form) (x : LaneBytes) : Datum × State :=
  if x.2.any fun b => b.2.isPeer then
    let core := slotCore slot
    let ks := x.2.map Prod.fst
    (.words (f.words (x.2.map (s.peerByte slot id f.nofill))), if f.nofill then s.dropKeys core fun k => ks.contains k else s)
  else (.mem x.2, s)

/-- The data of every lane. -/
def State.dataFor (s : State) (slot : Nat) (f : Form) (as : List Acc) : List LaneBytes → List PLane × State
  | [] => ([], s)
  | x :: xs =>
    let r := s.datumFor slot s.fresh f x
    let rs := r.2.dataFor slot f as xs
    ({ lane := x.1, va := addrOf as x.1, datum := r.1 } :: rs.1, rs.2)

/-- Make a load outstanding (R43): the result's file and first register, its lanes, and the acquire it ends with. -/
def State.pending (s : State) (file dst : Nat) (f : Form) (acq : Option Scope) (ldx : Option Pc)
    (lanes : List PLane) : Nat × State :=
  let (id, s1) := s.freshId
  let p : Pend := { id, file, dst, form := f, pasid := s.pasidOf s.cur.slot, acq, ldx, lanes }
  (id, s1.modGroup s.cur.slot fun g => { g with pend := g.pend ++ [p] })

/-- A uniform result that becomes outstanding with its words known (R43); nothing when D names no register. -/
def State.outU (s : State) (d : Opnd) (ws : List Word) : State :=
  match d with
  | .uni i =>
    (s.pending 1 i.toNat (Form.plain 4) none none
      [{ lane := 0, va := 0, datum := .words ws }]).2
  | _ => s

/-- One uniform word. -/
def State.setD (s : State) (d : Opnd) (w : Word) : State := s.outU d [w]

/-! ### Loads -/

/-- Index of a destination register. -/
def opndIdx : Opnd → Nat
  | .vec i => i.toNat
  | .uni i => i.toNat
  | .spc i => i.toNat
  | .con i => i.toNat

/-- The form of a load (R184, R185). -/
def loadForm (o : MemOps) : Form :=
  { n := o.ty.bytes, signed := o.ty == .i8 || o.ty == .i16, priv := o.space == .p, nofill := o.mod == 2, ev := o.mod == 1 }

/-- The common part of LD, LDU and LDX: check lanes, then make the result outstanding. `lanes` are the lanes that
act and `file` the destination file. -/
def State.load (s : State) (o : MemOps) (isLdx : Bool) (lanes : List Nat) (file : Nat) : State :=
  let slot := s.cur.slot
  let g := s.curG
  let f := loadForm o
  let as := lanes.map fun l => s.access slot o.space f.n (memEa s g o isLdx l) l
  match s.settleCheck 0 (checkAcc s (slotCore slot) (s.pasidOf slot) 0 (if isLdx then 1 else 0) false false as) with
  | .inl s1 => s1
  | .inr ls =>
    if isLdx then
      let pl := ls.map fun x => { lane := x.1, va := addrOf as x.1, datum := .mem x.2 : PLane }
      let s1 := (s.pending file (opndIdx o.d) f none (some s.cur.next) pl).2
      let m := lanesMask lanes
      let join : Pc := o.imm.extractLsb' 0 24
      (s1.setCurG (s1.curG.onMask m fun x => { x with meet := join })).block m .ldx
    else match s.loadReady f.nofill as ls with
    | .inl s1 => s1
    | .inr s1 =>
      let r := s1.dataFor slot f as ls
      let s2 := r.2.dropAns (slotCore slot) (ls.flatMap fun x => x.2.map Prod.fst)
      (s2.pending file (opndIdx o.d) f none none r.1).2.advance

/-- LD (R185). -/
def execLd (h : Hdr) (o : MemOps) (s : State) : Out' :=
  match activeLanes s h with
  | [] => .next s.advance
  | ls => .next (s.load o false ls 0)

/-- LDU: one read per subgroup, into a uniform register (R186). -/
def execLdu (h : Hdr) (o : MemOps) (s : State) : Out' :=
  match activeLanes s h with
  | [] => .next s.advance
  | l :: _ => .next (s.load o false [l] 1)

/-- LDX (R189). -/
def execLdx (h : Hdr) (o : MemOps) (s : State) : Out' :=
  match activeLanes s h with
  | [] => .next s.advance
  | ls => .next (s.load o true ls 0)

/-! ### Stores -/

/-- Bytes of a lane's store data (R187). -/
def storeData (s : State) (g : Group) (o : MemOps) (l : Nat) : List Byte :=
  (leBytes (4 * o.ty.regs)
    (wordsNat ((List.range o.ty.regs).map fun k => src s g 0 (Opnd.plus o.d k) l))).take o.ty.bytes

/-- The bytes one ST writes: of lanes that meet on a byte the highest-numbered wins (R187). -/
def storeBytes (s : State) (g : Group) (o : MemOps) : List LaneBytes → List StByte → List StByte
  | [], acc => acc
  | x :: xs, acc =>
    let bs : List StByte := (x.2.zip (storeData s g o x.1)).map fun p =>
      { loc := p.1.2, key := p.1.1, priv := o.space == .p, ev := o.mod.getLsbD 0, val := p.2 }
    storeBytes s g o xs ((acc.filter fun b => !(bs.any fun c => c.loc == b.loc)) ++ bs)

/-- Put an entry into the group's store queue (R316). -/
def State.enqueue (s : State) (kind : SqKind) : Nat × State :=
  let (id, s1) := s.freshId
  let e : SqEnt := { id, pasid := s.pasidOf s.cur.slot, grid := (s.teamOf s.cur.slot).grid, sent := false, kind }
  (id, s1.modGroup s.cur.slot fun g => { g with sq := g.sq ++ [e] })

/-- ST (R187). -/
def execSt (h : Hdr) (o : MemOps) (s : State) : Out' :=
  match activeLanes s h with
  | [] => .next s.advance
  | ls =>
    let slot := s.cur.slot
    let g := s.curG
    let as := ls.map fun l => s.access slot o.space o.ty.bytes (memEa s g o false l) l
    match s.settleCheck 1 (checkAcc s (slotCore slot) (s.pasidOf slot) 1 0 true false as) with
    | .inl s1 => .next s1
    | .inr bs => .next ((s.enqueue (.store (storeBytes s g o bs []))).2.advance)

/-! ### Prefetch and maintenance -/

/-- Keys of the four bytes a lane names, wherever they lie; none outside the private array (R188, R192, R193). -/
def namedKeys (s : State) (slot : Nat) (o : MemOps) (l : Nat) : List Nat :=
  let g := s.group slot
  let t := s.team g.tid
  let k := (s.grid t.grid).k
  let x := memEa s g o false l
  let pasid := s.pasidOf slot
  match o.space with
  | .g => (List.range 4).map fun i => l1key pasid ((x + i) % 2 ^ 56).toNat
  | _ =>
    let ws := privWords (x % 2 ^ 32).toNat 4
    if ws.any fun w => w.1 ≥ k.pwords then []
    else ws.flatMap fun w => (List.range w.2.2).map fun j =>
      l1key pasid (privAddr t.pb k.pwords g.gidx w.1 l + w.2.1 + j)

/-- Load the sector of one lane's prefetch, or ignore the lane (R188). -/
def State.prefetch (s : State) (o : MemOps) (l : Nat) : State :=
  let slot := s.cur.slot
  let core := slotCore slot
  let pasid := s.pasidOf slot
  let a := accOf s slot o.space 4 (memEa s s.curG o false l) l
  if a.mis || a.bounds.isSome then s
  else match a.pieces with
    | [(va, _)] =>
      match s.walk pasid va with
      | .ok la _ _ =>
        let s1 := s.touchTables core pasid va
        match s.formOf la with
        | .inl (.dev d) =>
          if o.mod == 1 then s1.touch core (.dev d)
          else if s.poison.contains (d / 32) || s.ownedLine (d / 128) then s1
          else s1.fillSector core (l1key pasid va) (.dev d) (o.space == .p) false
        | .inl (.peer p d) =>
          if s.canSend p && o.mod != 1 then s1.askPeer core false (l1key pasid va, .peer p d) else s1
        | _ => s1
      | _ => s
    | _ => s

/-- PFETCH (R188). -/
def execPfetch (h : Hdr) (o : MemOps) (s : State) : Out' :=
  .next (((activeLanes s h).foldl (fun s l => s.prefetch o l) s).advance)

/-- Make a FLUSH outstanding (R192). -/
def State.flush (s : State) (all inv : Bool) (keys : List Nat) : State :=
  let (mark, s1) := s.freshId
  let f : FlushEnt := { mark, all, inv, keys }
  (s1.modGroup s.cur.slot fun g => { g with flushes := g.flushes ++ [f] }).advance

/-- FLUSH (R192). -/
def execFlush (h : Hdr) (o : MemOps) (s : State) : Out' :=
  match activeLanes s h with
  | [] => .next s.advance
  | ls => .next (s.flush false (o.mod.getLsbD 1) (ls.flatMap (namedKeys s s.cur.slot o)))

/-- FLUSH.all (R192). -/
def execFlushAll (h : Hdr) (o : MemOps) (s : State) : Out' :=
  match activeLanes s h with
  | [] => .next s.advance
  | _ => .next (s.flush true (o.mod.getLsbD 1) [])

/-- INVL (R193). -/
def execInvl (h : Hdr) (o : MemOps) (s : State) : Out' :=
  let ks := ((activeLanes s h).flatMap (namedKeys s s.cur.slot o)).map (· / 32)
  let core := slotCore s.cur.slot
  .next (((s.dropKeys core fun k => ks.contains (k / 32)).staleReads core fun k => ks.contains (k / 32)).advance)

/-- INVL.all (R193). -/
def execInvlAll (h : Hdr) (_o : MemOps) (s : State) : Out' :=
  match activeLanes s h with
  | [] => .next s.advance
  | _ =>
    let core := slotCore s.cur.slot
    .next (((s.dropClean core).staleReads core fun _ => true).advance)

/-- FENCE: outstanding until it completes (R191). -/
def execFence (h : Hdr) (o : FenceOps) (s : State) : Out' :=
  match activeLanes s h with
  | [] => .next s.advance
  | _ =>
    let (mark, s1) := s.freshId
    let e : FenceEnt := { mark, instr := true, rel := o.ord == .rel || o.ord == .ar, acq := o.ord == .acq || o.ord == .ar,
                          scope := o.scope }
    .next ((s1.modGroup s.cur.slot fun g => { g with fences := g.fences ++ [e] }).advance)

end Sys2Proof.Machine
end

