-- ==== Sys2Proof/Machine/Atomic.lean ====
section
/-! DEFINITION. Class 0x9 (R194 to R201): atomics, reductions, ordered streams and WAITA, and the performance of
store-queue entries (R316). -/

namespace Sys2Proof.Machine

/-! ### Arithmetic of the units -/

/-- Two's-complement value of a 32-bit pattern held in a 64-bit value. -/
def sx32 (x : DWord) : Int := (x.extractLsb' 0 32).toInt

/-- Op(x, y) of R195 on patterns of the type's width. -/
def atomOp (ty : AtTy) (op : Nat) (x y : DWord) : DWord :=
  match ty with
  | .n64 =>
    match op with
    | 0 => x + y
    | 1 => if x.toNat ≤ y.toNat then x else y
    | 2 => if x.toNat ≥ y.toNat then x else y
    | 3 => x &&& y
    | 4 => x ||| y
    | 5 => x ^^^ y
    | _ => y
  | .f32 =>
    let a := x.toNat % 2 ^ 32
    let b := y.toNat % 2 ^ 32
    match op with
    | 0 => BitVec.ofNat 64 (fAdd fmt32 .rne (fmt32.decode a) (fmt32.decode b)).1
    | 1 => BitVec.ofNat 64 (fminN fmt32 a b)
    | 2 => BitVec.ofNat 64 (fmaxN fmt32 a b)
    | _ => y
  | _ =>
    let lt : Bool := if ty == .i32 then decide (sx32 x < sx32 y) else decide (x.toNat < y.toNat)
    match op with
    | 0 => BitVec.ofNat 64 ((x.toNat + y.toNat) % 2 ^ 32)
    | 1 => if lt then x else y
    | 2 => if lt then y else x
    | 3 => x &&& y
    | 4 => x ||| y
    | 5 => x ^^^ y
    | _ => y

/-- Bytes of an atomic. -/
def atBytes (ty : AtTy) : Nat := if ty.wide then 8 else 4

/-- Read and write the word an atomic acts on. -/
def State.rdAt (s : State) (ty : AtTy) (l : Loc) : DWord :=
  BitVec.ofNat 64 (leNat ((List.range (atBytes ty)).map fun i => s.readLoc (l.next i)))
def State.wrAt (s : State) (ty : AtTy) (l : Loc) (v : DWord) : State :=
  s.homePut l (leBytes (atBytes ty) v.toNat)

/-- The aggregator: values of the lanes folded in ascending order (R196). -/
def atFold (ty : AtTy) (op : Nat) : DWord → List DWord → DWord
  | c, [] => c
  | c, v :: vs => atFold ty op (atomOp ty op c v) vs

/-- Old values the lanes of one address receive: `old`, then `old` with the fold of the lanes before (R196). -/
def atOlds (ty : AtTy) (op : Nat) (old : DWord) : Option DWord → List DWord → List DWord
  | _, [] => []
  | none, v :: vs => old :: atOlds ty op old (some v) vs
  | some p, v :: vs => atomOp ty op old p :: atOlds ty op old (some (atomOp ty op p v)) vs

/-- Give the lanes of `l` the old values in order. -/
def atGive (l : Loc) : List DWord → List AtLane → List AtLane
  | o :: os, x :: xs =>
    if x.loc = l then { x with old := o, ph := 2 } :: atGive l os xs else x :: atGive l (o :: os) xs
  | _, xs => xs

/-- Perform the aggregated request of one address at its unit (R196). -/
def State.atAddr (s : State) (r : AtReq) (l : Loc) : AtReq × State :=
  let vs := (r.lanes.filter fun x => x.loc == l).map AtLane.v
  match vs with
  | [] => (r, s)
  | v :: rest =>
    let old := s.rdAt r.ty l
    let s1 := s.wrAt r.ty l (atomOp r.ty r.op old (atFold r.ty r.op v rest))
    ({ r with lanes := atGive l (atOlds r.ty r.op old none vs) r.lanes }, s1)

/-- Apply the lanes of an ATOMC one after another (R197). -/
def State.atCmp (s : State) (ty : AtTy) (pick : AtLane → Bool) : List AtLane → List AtLane × State
  | [] => ([], s)
  | x :: xs =>
    if pick x then
      let old := s.rdAt ty x.loc
      let s1 := if old = x.v then s.wrAt ty x.loc x.new else s
      let (ys, s2) := s1.atCmp ty pick xs
      ({ x with old, ph := 2 } :: ys, s2)
    else
      let (ys, s2) := s.atCmp ty pick xs
      (x :: ys, s2)

/-! ### Ordered streams -/

/-- Fields of an ATOMORD tag (R199). -/
def tagStream (t : Word) : Nat := bits t.toNat 0 6
def tagSeq (t : Word) : Nat := bits t.toNat 8 12
def tagLast (t : Word) : Nat := bits t.toNat 20 12

/-- Apply early requests that have become next, and free the record after LASTSEQ (R199, R200). -/
def State.streamDrain (s : State) (r : StreamRec) : Nat → State
  | 0 => { s with streams := r :: s.streams }
  | n + 1 =>
    if r.last < r.next then s
    else match r.early.find? fun e => e.1 == r.next with
      | some (q, v) =>
        let s1 := s.wrAt r.ty (.dev r.loc) (atomOp r.ty 0 (s.rdAt r.ty (.dev r.loc)) v)
        s1.streamDrain { r with next := q + 1, early := r.early.filter fun e => e.1 != q } n
      | none => { s with streams := r :: s.streams }

/-- Early requests a slice holds (R200). -/
def State.earlyHeld (s : State) (a : Nat) : Nat :=
  (s.streams.filter fun x => s.slice x.loc == s.slice a).foldl (fun n x => n + x.early.length) 0

/-- What a slice does with a request: apply or keep it, discard it, or refuse it for want of room (R199, R200). -/
def State.streamTake (s : State) (q : StreamReq) : Option State :=
  let st := tagStream q.tag
  let sq := tagSeq q.tag
  let la := tagLast q.tag
  let gone : State := s.record 8 1 0xFFFF (BitVec.ofNat 64 q.loc)
    (BitVec.ofNat 64 (q.tag.toNat + 2 ^ 32 * q.pasid))
  let rest := s.streams.filter fun r => !(r.pasid == q.pasid && r.stream == st && r.loc == q.loc)
  if bits q.tag.toNat 6 2 != 0 || la < sq then some gone
  else match s.streams.find? fun r => r.pasid == q.pasid && r.stream == st && r.loc == q.loc with
    | some r =>
      if r.last ≠ la || sq < r.next || r.early.any fun e => e.1 == sq then some gone
      else if sq = r.next then
        let s1 := s.wrAt q.ty (.dev q.loc) (atomOp q.ty 0 (s.rdAt q.ty (.dev q.loc)) q.val)
        some (State.streamDrain { s1 with streams := rest } { r with next := sq + 1, stamp := s.now } 4096)
      else
        if s.earlyHeld q.loc < 1024 then
          some { s with streams := { r with early := r.early ++ [(sq, q.val)], stamp := s.now } :: rest }
        else none
    | none =>
      if sq = 0 && la = 0 then
        some (s.wrAt q.ty (.dev q.loc) (atomOp q.ty 0 (s.rdAt q.ty (.dev q.loc)) q.val))
      else
        let mine := s.streams.filter fun x => s.slice x.loc == s.slice q.loc
        let ctxs := (mine.map fun x => (x.pasid, x.stream)).eraseDups
        if (ctxs.contains (q.pasid, st) || decide (ctxs.length < 64)) && decide (mine.length < 4096) &&
            (sq == 0 || decide (s.earlyHeld q.loc < 1024)) then
          let r0 : StreamRec := { pasid := q.pasid, stream := st, loc := q.loc, ty := q.ty, next := 0, last := la,
                                  stamp := s.now, early := [] }
          if sq = 0 then
            let s1 := s.wrAt q.ty (.dev q.loc) (atomOp q.ty 0 (s.rdAt q.ty (.dev q.loc)) q.val)
            some { s1 with streams := { r0 with next := 1 } :: s.streams }
          else some { s with streams := { r0 with early := [(sq, q.val)] } :: s.streams }
        else none

/-! ### Store-queue entries -/

/-- Codes of a request in an ATOM flit: operation, kind (0 fold, 1 compare, 2 ordered) and type. -/
def atCode (r : AtReq) : BitVec 8 :=
  BitVec.ofNat 8 (r.op % 16 + 16 * (match r.kind with
    | .atom => 0
    | .red => 0
    | .atomc => 1
    | .ord => 2) + 64 * r.ty.toBits.toNat)

/-- Number and send the request of the peer lanes at one place; lanes that cannot be sent are marked (R368). -/
def State.atSend (s : State) (slot : Nat) (e : SqEnt) (r : AtReq) (pick : AtLane → Bool) : AtReq × State :=
  let xs := r.lanes.filter pick
  match xs with
  | [] => (r, s)
  | x :: rest =>
    match x.loc with
    | .peer p a =>
      if s.canSend p then
        let (tag, s1) := s.freshId
        let c := if r.kind == .atom || r.kind == .red then atFold r.ty r.op x.v (rest.map AtLane.v) else x.v
        let c2 := if r.kind == .ord then BitVec.ofNat 64 (x.tag.toNat + 2 ^ 32 * e.pasid) else x.new
        let f : Flit :=
          { Flit.blank 4 p with addr := a, tag, op := atCode r, size := atBytes r.ty, val := c, val2 := c2 }
        let o : Outst := { tag, dst := p, who := .atomic slot e.id, key := 0 }
        let s2 := State.sentTo { s1 with outst := s1.outst ++ [o] } e.grid p
        ({ r with lanes := r.lanes.map fun y => if pick y then { y with rid := tag, ph := 1 } else y },
          s2.sendFlit f)
      else ({ r with lanes := r.lanes.map fun y => if pick y then { y with ph := 4 } else y }, s)
    | _ => (r, s)

/-- Send every peer lane still waiting: one request per address, or per lane where lanes are not combined. -/
def State.atSendAll (s : State) (slot : Nat) (e : SqEnt) (r : AtReq) : List AtLane → AtReq × State
  | [] => (r, s)
  | x :: xs =>
    let waiting := r.lanes.any fun y => y.lane == x.lane && y.ph == 0 && y.loc.isPeer
    if waiting then
      let pick (y : AtLane) : Bool :=
        if r.kind == .atom || r.kind == .red then y.loc == x.loc && y.ph == 0 else y.lane == x.lane
      let (r1, s1) := s.atSend slot e r pick
      s1.atSendAll slot e r1 xs
    else s.atSendAll slot e r xs

/-- Hand local ATOMORD requests to their slices (R199). -/
def State.ordSend (s : State) (slot : Nat) (e : SqEnt) (r : AtReq) : List AtLane → AtReq × State
  | [] => (r, s)
  | x :: xs =>
    match x.loc with
    | .dev a =>
      if x.ph = 0 then
        let (id, s1) := s.freshId
        let q : StreamReq := { id, pasid := e.pasid, grid := e.grid, slot, loc := a, ty := r.ty, tag := x.tag,
                               val := x.v, peer := none }
        let mark (y : AtLane) : AtLane := if y.lane = x.lane then { y with rid := id, ph := 1 } else y
        let r1 := { r with lanes := r.lanes.map mark }
        State.ordSend { s1 with streamReqs := s1.streamReqs ++ [q] } slot e r1 xs
      else s.ordSend slot e r xs
    | _ => s.ordSend slot e r xs

/-- Replace the request of an entry. -/
def State.setReq (s : State) (slot : Nat) (e : SqEnt) (r : AtReq) : State :=
  let put (x : SqEnt) : SqEnt := if x.id = e.id then { x with kind := .atomic r, sent := true } else x
  s.modGroup slot fun g => { g with sq := g.sq.map put }

/-- Lanes blocked on an entry continue at the successor. -/
def Group.unblockAtom (g : Group) (entry : Nat) : Group :=
  let bs := g.blocked.filter fun b => b.why == .atom entry
  let g1 := bs.foldl (fun g b =>
    (g.onMask b.mask fun x => { x with pc := b.next, resumed := false }).passed b b.mask) g
  { g1 with blocked := g1.blocked.filter fun b => !(b.why == .atom entry) }

/-- Old values as register words. -/
def atWords (ty : AtTy) (v : DWord) : List Word :=
  if ty.wide then [v.extractLsb' 0 32, v.extractLsb' 32 32] else [v.extractLsb' 0 32]

/-- Finish an entry all of whose lanes have been answered: old values go to the result; a refusal traps the
instruction that waits for one, or is lost for a RED (R368). -/
def State.atFinish (s : State) (slot : Nat) (e : SqEnt) : State :=
  match ((s.group slot).sq.find? fun x => x.id == e.id).map SqEnt.kind with
  | some (.atomic r) =>
    if r.lanes.all fun x => decide (2 ≤ x.ph) then
      let s1 := s.modGroup slot fun g => { g with sq := g.sq.filter fun x => x.id != e.id }
      match r.lanes.find? fun x => decide (3 ≤ x.ph) with
      | none =>
        let s2 := r.lanes.foldl (fun s x => s.modGroup slot fun g =>
          g.setDatum r.pend x.lane (.words (atWords r.ty x.old))) s1
        s2.modGroup slot fun g => g.unblockAtom e.id
      | some x =>
        if r.kind == .atom || r.kind == .atomc then
          match (s1.group slot).blocked.find? fun b => b.why == .atom e.id with
          | some b =>
            let s2 := s1.modGroup slot fun g =>
              { g with pend := g.pend.filter fun p => p.id != r.pend,
                       blocked := g.blocked.filter fun c => !(c.why == .atom e.id) }
            if x.ph = 3 then s2.trapAt slot b.mask b.pc none 3 0x13 x.va
            else s2.trapAt slot b.mask b.pc none 8 1 x.va
          | none => s1
        else
          (r.lanes.filter fun x => decide (3 ≤ x.ph)).foldl (fun s x =>
            match x.loc with
            | .peer p a => s.fabLost e.grid p a
            | _ => s) s1
    else s
  | _ => s

/-- The core writes back its dirty copy of an atomic's bytes and drops its clean copy (R322). -/
def State.atPrep (s : State) (slot : Nat) (e : SqEnt) (r : AtReq) : State :=
  let c := slotCore slot
  let ks := r.lanes.flatMap fun x => (List.range (atBytes r.ty)).map fun i => l1key e.pasid (x.va + i)
  (s.wbSel c (unitsOf ks)).dropKeys c fun k => ks.contains k

/-- The AtomicOps of lanes in host memory (R198): after aggregation a FetchAdd or a Swap for each address, and a CAS for
each lane of an ATOMC. -/
def hostOps (r : AtReq) : List Out :=
  let n := atBytes r.ty
  let mine := r.lanes.filterMap fun x => match x.loc with
    | .host a => some (a, x)
    | _ => none
  match r.kind with
  | .atomc => mine.map fun m => .atomicOp .cas m.1 n m.2.v m.2.new
  | _ => ((mine.map Prod.fst).eraseDups).filterMap fun a =>
    match (mine.filter fun m => m.1 == a).map fun m => m.2.v with
    | [] => none
    | v :: vs => some (.atomicOp (if r.op = 6 then .swap else .fetchAdd) a n (atFold r.ty r.op v vs) 0)

/-- Send the AtomicOps of lanes in host memory. -/
def State.atHost (s : State) (r : AtReq) : State := (hostOps r).foldl State.emit s

/-- Perform an atomic entry as far as it can go: local lanes at their units, peers' requests sent. -/
def State.atPerform (s : State) (slot : Nat) (e : SqEnt) (r : AtReq) : State :=
  let localLane (x : AtLane) : Bool := !x.loc.isPeer && x.ph == 0
  if r.lanes.any fun x => localLane x && s.ownedLoc x.loc then s
  else
    let c := slotCore slot
    let s0 := ((r.lanes.filter localLane).map AtLane.loc).eraseDups.foldl (fun s l => s.touch c l)
      (if e.sent then s else s.atPrep slot e r)
    let (r1, s1) :=
      match r.kind with
      | .ord => s0.ordSend slot e r r.lanes
      | .atomc =>
        let (ls, s1) := s0.atCmp r.ty localLane r.lanes
        ({ r with lanes := ls }, s1.atHost { r with lanes := r.lanes.filter localLane })
      | _ =>
        let places := ((r.lanes.filter localLane).map AtLane.loc).eraseDups
        let p := places.foldl (fun (p : AtReq × State) l => p.2.atAddr p.1 l) (r, s0)
        (p.1, p.2.atHost { r with lanes := r.lanes.filter localLane })
    let (r2, s2) := s1.atSendAll slot e r1 r1.lanes
    (s2.setReq slot e r2).atFinish slot e

/-- Room in the L1 for every line a store writes, one after another (R172). -/
def State.storeRoom (s : State) (core : Nat) : List Nat → Option State
  | [] => some s
  | l :: ls => (s.l1Room core l).bind fun t => t.storeRoom core ls

/-- Lines a store writes in the L1. -/
def storeLines (bs : List StByte) : List Nat := ((bs.filter fun b => b.key != 0).map fun b => b.key / 128).eraseDups

/-- Perform the head entry of a group's store queue (R316): a store into the L1 or at its macro, an atomic at its
unit. The group's older loads are read first; while one cannot be, or an acquire before it is not complete (R317), or the
L1 has no room, nothing happens. -/
def State.sqPerform (s : State) (slot : Nat) : State :=
  match (s.group slot).sq with
  | [] => s
  | e :: _ =>
    let own := match e.kind with
      | .store _ => 0
      | .atomic r => r.pend
    let s1 := s.captureOld slot e.id
    if !s1.noneOld slot e.id || (s1.group slot).acqBefore e.id own then s1
    else match e.kind with
      | .store bs =>
        let core := slotCore slot
        let put (s : State) (b : StByte) : State :=
          if b.key = 0 then s.writeLoc b.val b.loc else s.storeL1 core e.grid b
        let scr := bs.filterMap fun b => match b.loc with
          | .scr c a => if b.key = 0 then some (c * 2 ^ 21 + a) else none
          | _ => none
        match s1.storeRoom core (storeLines bs) with
        | none => s1
        | some s1 =>
        let s2 := (storeLines bs).foldl (fun s l => s.noteLine core l (bs.any fun b => b.key / 128 == l && b.ev)) (bs.foldl put s1)
        let full (k : Nat) : Bool := (List.range 32).all fun j => scr.contains (32 * k + j)
        let s3 := { s2 with poisonScr := s2.poisonScr.filter fun k => !full k }
        s3.modGroup slot fun g => { g with sq := g.sq.filter fun x => x.id != e.id }
      | .atomic r => s1.atPerform slot e r

/-! ### The instructions -/

/-- Operand C of a class 0x9 word as a value of the type; `k` skips registers (R194). -/
def atVal (s : State) (g : Group) (o : AtomOps) (k l : Nat) : DWord :=
  if o.ty.wide then BitVec.ofNat 64 (srcPair s g 0 (Opnd.plus o.c k) l)
  else (src s g 0 (Opnd.plus o.c k) l).zeroExtend 64

/-- An operation that host memory has no AtomicOp for (R198). -/
def noHostOp (kind : AtKind) (o : AtomOps) : Bool :=
  match kind with
  | .atomc => false
  | .ord => true
  | _ => !((o.op.toNat == 0 && o.ty != .f32) || o.op.toNat == 6)

/-- The lanes of a request from their checked bytes. -/
def atLanes (s : State) (g : Group) (o : AtomOps) (kind : AtKind) (as : List Acc) (ls : List LaneBytes) :
    List AtLane :=
  ls.filterMap fun x =>
    match x.2 with
    | [] => none
    | b :: _ => some
        { lane := x.1, loc := b.2, va := addrOf as x.1, v := atVal s g o 0 x.1,
          new := if kind == .atomc then atVal s g o (if o.ty.wide then 2 else 1) x.1 else 0,
          tag := if kind == .ord then src s g 0 o.d x.1 else 0, rid := 0, ph := 0, old := 0 }

/-- The release that `.rel` and `.ar` perform first (R196). -/
def State.relFirst (s : State) (ord : Ord) (x : Scope) : Bool × State :=
  if ord == .rel || ord == .ar then s.release s.cur.slot s.fresh x else (true, s)

/-- The common part of ATOM, ATOMC, RED and ATOMORD (R194 to R199): checks, release, one store-queue entry, and a
result for the first two. Where a lane's place is a peer's, the subgroup waits at the instruction for the answer. -/
def State.atomic (s : State) (h : Hdr) (o : AtomOps) (kind : AtKind) : State :=
  match activeLanes s h with
  | [] => s.advance
  | lanes =>
    let slot := s.cur.slot
    let g := s.curG
    let n := atBytes o.ty
    let as := lanes.map fun l => accOf s slot o.space n (atomEa s g o l) l
    match s.settleCheck 1 (checkAcc s (slotCore slot) (s.pasidOf slot) 1 1 true (noHostOp kind o) as) with
    | .inl s1 => s1
    | .inr ls =>
      let bad : Option (Nat × Loc) :=
        ls.findSome? fun x => (x.2.find? fun b => s.poisoned b.2).map fun b => (x.1, b.2)
      match bad with
      | some (l, .scr c a) => (s.logError (.scr c a)).trap 8 2 (addrOf as l)
      | some (l, b) => (s.logError b).trap 8 1 (addrOf as l)
      | none =>
        let (ready, s1) := s.relFirst o.ord o.scope
        if !ready then s1.block s.cur.mask .release
        else
          let xs := atLanes s g o kind as ls
          let back := kind == .atom || kind == .atomc
          let acq := if o.ord == .acq || o.ord == .ar then some o.scope else none
          let pl := xs.map fun x => { lane := x.lane, va := x.va, datum := .wait : PLane }
          let (pid, s2) :=
            if back then s1.pending 0 (opndIdx o.d) (Form.plain n)
              acq none pl
            else (0, s1)
          let (eid, s3) := s2.enqueue (.atomic { kind, op := o.op.toNat, ty := o.ty, lanes := xs, pend := pid })
          if back && xs.any fun x => x.loc.isPeer then s3.block s.cur.mask (.atom eid) else s3.advance

/-- ATOM (R196). -/
def execAtom (h : Hdr) (o : AtomOps) (s : State) : Out' := .next (s.atomic h o .atom)
/-- ATOMC (R197). -/
def execAtomc (h : Hdr) (o : AtomOps) (s : State) : Out' := .next (s.atomic h o .atomc)
/-- RED (R196). -/
def execRed (h : Hdr) (o : AtomOps) (s : State) : Out' := .next (s.atomic h o .red)
/-- ATOMORD (R199). -/
def execAtomord (h : Hdr) (o : AtomOps) (s : State) : Out' := .next (s.atomic h o .ord)

/-! ### WAITA -/

/-- The condition of R201 on a word read. -/
def waitaHolds (op : Nat) (w c : Word) : Bool :=
  match op with
  | 0 => w == c
  | 1 => w != c
  | 2 => decide (0 ≤ (w - c).toInt)
  | _ => decide ((w - c).toInt < 0)

/-- What reading a WAITA word again gives. -/
inductive WaitaRead where
  | val (w : Word)
  | trap (cause detail : Nat)
  | later
  deriving DecidableEq, Repr

/-- Read the word at its home, after the core's own dirty bytes of it are written back (R201, R322). An older entry of
the group that stands on the word is performed first. -/
def State.waitaRead (s : State) (slot : Nat) (x : WaitaLane) : WaitaRead × State :=
  let core := slotCore slot
  let pasid := s.pasidOf slot
  let look : Look := match x.fix with
    | some l => .hit l
    | none => (s.look core pasid x.va 0).thread
  match look with
  | .bad r => (.trap 3 r, s.dropBad core pasid (x.va / 4096))
  | .data => (.trap 8 1, s.dropBad core pasid (x.va / 4096))
  | .miss => (.later, s.want core pasid x.va 0 .miss)
  | .deny => (.later, s.want core pasid x.va 0 .deny)
  | .hit l =>
    let locs := (List.range 4).map fun i => l.next i
    if (s.group slot).sq.any fun e => e.locs.any fun m => locs.contains m then (.later, s)
    else if s.poisoned l then
      (match l with
       | .scr _ _ => (.trap 8 2, s.logError l)
       | _ => (.trap 8 1, s.logError l))
    else
      let key := l1key pasid x.va
      let sel (k : Nat) : Bool := x.fix.isNone && decide (key ≤ k ∧ k < key + 4)
      let s1 := (s.wbSel core fun k => x.fix.isNone && k / 16 == key / 16).dropKeys core sel
      if !s1.cleanSel core sel || s1.ownedLoc l then (.later, s1)
      else match l with
        | .peer p _ =>
          match s1.peerAns core key with
          | some (0, bs) =>
            (.val (BitVec.ofNat 32 (leNat ((bs.drop (key % 32)).take 4))), s1.dropAns core [key])
          | some (1, _) => (.trap 3 3, s1.dropAns core [key])
          | some (_, _) => (.trap 8 1, s1.dropAns core [key])
          | none => if s1.canSend p then (.later, s1.askPeer core true (key, l)) else (.trap 8 1, s1)
        | _ => (.val (BitVec.ofNat 32 (leNat (locs.map s1.readLoc))), s1)

/-- One lane of a blocked WAITA reads again: it leaves when satisfied, traps on a fault, or goes on waiting (R201). -/
def State.waitaLane (s : State) (slot lane : Nat) : State :=
  match (s.group slot).blocked.findSome? fun b => match b.why with
      | .waita w => (w.lanes.find? fun x => x.lane == lane && b.mask.getLsbD lane).map fun x => (b, w, x)
      | _ => none with
  | none => s
  | some (b, w, x) =>
    let bit : Mask := 1#64 <<< lane
    let cut (c : Blocked) : Blocked := if c = b then { c with mask := c.mask &&& ~~~bit } else c
    let out (s : State) : State :=
      s.modGroup slot fun g => { g with blocked := (g.blocked.map cut).filter fun c => c.mask != 0 }
    match s.waitaRead slot x with
    | (.later, s1) => s1
    | (.trap c d, s1) => (out s1).trapAt slot bit b.pc none c d x.va
    | (.val v, s1) =>
      if waitaHolds w.op v x.c then
        let s2 := (out s1).modGroup slot fun g => 
          ((dst g w.dst lane v).modLane lane fun y => { y with pc := b.next, resumed := false, since := 0 }).passed b bit
        match w.acq with
        | some sc => s2.acquire slot sc
        | none => s2
      else s1

/-- WAITA: every active lane blocks at the word, and those satisfied leave at once (R201). -/
def execWaita (h : Hdr) (o : AtomOps) (s : State) : Out' :=
  match activeLanes s h with
  | [] => .next s.advance
  | lanes =>
    let slot := s.cur.slot
    let g := s.curG
    let as := lanes.map fun l => accOf s slot o.space 4 (atomEa s g o l) l
    match s.settleCheck 0 (checkAcc s (slotCore slot) (s.pasidOf slot) 0 1 false false as) with
    | .inl s1 => .next s1
    | .inr ls =>
      let xs : List WaitaLane := ls.map fun x =>
        { lane := x.1, va := addrOf as x.1,
          fix := if o.space == .g then none else (x.2.head?).map Prod.snd, c := src s g 0 o.c x.1 }
      let w : WaitaSt := { op := o.op.toNat, dst := o.d, acq := if o.ord == .acq then some o.scope else none,
                           lanes := xs }
      let s1 := s.block (lanesMask lanes) (.waita w)
      .next (lanes.foldl (fun s l => s.waitaLane slot l) s1)

/-! ### Readiness -/

/-- The accesses of a class 0x8 or 0x9 instruction, 0 reads or 1 writes, in the state that issues it; none for the others. -/
def accsOf (s : State) (i : Instr) : Option (Nat × List Acc) :=
  let slot := s.cur.slot
  let g := s.curG
  let mem (h : Hdr) (o : MemOps) (ldx : Bool) : List Acc :=
    (activeLanes s h).map fun l => s.access slot o.space o.ty.bytes (memEa s g o ldx l) l
  let atm (h : Hdr) (o : AtomOps) (n : Nat) : List Acc := (activeLanes s h).map fun l => accOf s slot o.space n (atomEa s g o l) l
  match i with
  | .ld h o => some (0, mem h o false)
  | .ldx h o => some (0, mem h o true)
  | .ldu h o => some (0, (mem h o false).take 1)
  | .st h o => some (1, mem h o false)
  | .atom h o => some (1, atm h o (atBytes o.ty))
  | .atomc h o => some (1, atm h o (atBytes o.ty))
  | .red h o => some (1, atm h o (atBytes o.ty))
  | .atomord h o => some (1, atm h o (atBytes o.ty))
  | .waita h o => some (0, atm h o 4)
  | _ => none

/-- Sectors a core has requested for its L1 and not received: of results to be read, and of peers (R172). -/
def State.sectorsOut (s : State) (core : Nat) : List Nat :=
  let data := (s.groups.filter fun e => slotCore e.1 == core).flatMap fun e => e.2.pend.flatMap fun p =>
    p.lanes.flatMap fun x => match x.datum with
      | .mem bs => (bs.filter fun b => b.1 != 0 && (s.l1 core b.1).isNone).map fun b => b.1 / 32
      | _ => []
  (data ++ s.outst.filterMap fun o => match o.who with
    | .fill c k _ => if c == core then some (k / 32) else none
    | _ => none).eraseDups

/-- Sector requests a core may have outstanding (R172). -/
def sectorLimit : Nat := 4096

/-- The misses and the sector requests of an instruction fit: otherwise it is not ready (R108, R167, R172). -/
def State.memRoom (s : State) (slot : Nat) (m : Mask) (emul : Bool) (i : Instr) : Bool :=
  let t := { s with cur := { Cur.reset with slot, mask := m, emul } }
  match accsOf t i with
  | none => true
  | some (kind, as) =>
    let core := slotCore slot
    let pasid := s.pasidOf slot
    let ps := as.flatMap Acc.pieces
    let miss := (ps.filterMap fun p => match t.look core pasid p.1 kind with
      | .miss => if s.walking core pasid (p.1 / 4096) then none else some (p.1 / 65536)
      | .deny => if s.walking core pasid (p.1 / 4096) then none else some (2 ^ 64 + p.1 / 4096)
      | _ => none).eraseDups
    let secs := if kind = 0 then
        ((ps.filter fun p => (s.l1 core (l1key pasid p.1)).isNone).map fun p => l1key pasid p.1 / 32).eraseDups
      else []
    decide ((s.walks.filter fun w => w.core == core).length + miss.length ≤ missLimit ∨ miss = []) &&
    (secs.isEmpty || decide ((s.sectorsOut core ++ secs).eraseDups.length ≤ sectorLimit))

end Sys2Proof.Machine
end

