-- ==== Sys2Proof/Machine/Alu.lean ====
section
/-! DEFINITION. What every arithmetic instruction shares: evaluate each active lane on the registers as
they stood at issue, then write all destinations and flags, then continue at the successor (R120, R121). -/

namespace Sys2Proof.Machine

/-- The result of one lane: the words of its destination span, and the flags it raises. -/
abbrev LaneRes := List Word × Fl

/-- Write the results of the active lanes, ascending, and OR their flags into FSTAT (R121). -/
def writeRes (d : Opnd) (g : Group) : List (Nat × LaneRes) → Group
  | [] => g
  | (l, r) :: rs => writeRes d ((dstSpan g d l r.1).raise r.2) rs

/-- Evaluate `f` in every active lane on the group as it stood, write, and advance. -/
def State.perLane (s : State) (h : Hdr) (d : Opnd) (f : Group → Nat → LaneRes) : State :=
  let g := s.curG
  (s.setCurG (writeRes d g ((activeLanes s h).map fun l => (l, f g l)))).advance

/-- One-word results without flags from one, two or three sources. -/
def alu1 (s : State) (h : Hdr) (o : AluOps) (f : Word → Word) : Out' :=
  .next (s.perLane h o.d fun g l => ([f (src s g o.imm o.a l)], 0))
def alu2 (s : State) (h : Hdr) (o : AluOps) (f : Word → Word → Word) : Out' :=
  .next (s.perLane h o.d fun g l => ([f (src s g o.imm o.a l) (src s g o.imm o.b l)], 0))
def alu3 (s : State) (h : Hdr) (o : AluOps) (f : Word → Word → Word → Word) : Out' :=
  .next (s.perLane h o.d fun g l =>
    ([f (src s g o.imm o.a l) (src s g o.imm o.b l) (src s g o.imm o.c l)], 0))

/-- One-word results with flags. -/
def fpu1 (s : State) (h : Hdr) (o : AluOps) (f : Word → Word × Fl) : Out' :=
  .next (s.perLane h o.d fun g l => let r := f (src s g o.imm o.a l); ([r.1], r.2))
def fpu2 (s : State) (h : Hdr) (o : AluOps) (f : Word → Word → Word × Fl) : Out' :=
  .next (s.perLane h o.d fun g l =>
    let r := f (src s g o.imm o.a l) (src s g o.imm o.b l); ([r.1], r.2))
def fpu3 (s : State) (h : Hdr) (o : AluOps) (f : Word → Word → Word → Word × Fl) : Out' :=
  .next (s.perLane h o.d fun g l =>
    let r := f (src s g o.imm o.a l) (src s g o.imm o.b l) (src s g o.imm o.c l); ([r.1], r.2))

end Sys2Proof.Machine
end

