-- ==== Sys2Proof/Machine/Control.lean ====
section
/-! DEFINITION. Class 0x0: branches, calls, EXIT, MEET, YIELD, SLEEP, TRAP, ERET and the CSRs (R122 to
R133). REP stands with the issue of words. -/

namespace Sys2Proof.Machine

/-- Move the active lanes by `f` and the other lanes of the subgroup to the successor (R123). -/
def State.jump (s : State) (h : Hdr) (f : Group → Nat → Pc) : State :=
  let g := s.curG
  let act := activeLanes s h
  s.setCurG (g.withLanes fun l x =>
    if s.cur.mask.getLsbD l then
      (if act.contains l then { (laneAdvance s.cur x) with pc := f g l } else laneAdvance s.cur x)
    else x)

/-- Bits [23:0] of a register target (R123). -/
def pcOf (w : Word) : Pc := w.extractLsb' 0 24

/-- NOP. -/
def execNop (_h : Hdr) (_o : CtlOps) (s : State) : Out' := .next s.advance
/-- BRA (R123). -/
def execBra (h : Hdr) (o : CtlOps) (s : State) : Out' := .next (s.jump h fun _ _ => pcOf o.imm)
/-- BRX (R123). -/
def execBrx (h : Hdr) (o : CtlOps) (s : State) : Out' :=
  .next (s.jump h fun g l => pcOf (src s g o.imm o.a l))
/-- RET (R123). -/
def execRet (h : Hdr) (o : CtlOps) (s : State) : Out' :=
  .next (s.jump h fun g l => pcOf (src s g o.imm o.a l))

/-- The successor, zero-extended, into D of the active lanes (R123). -/
def State.link (s : State) (h : Hdr) (d : Opnd) : State :=
  s.setCurG (writeRes d s.curG ((activeLanes s h).map fun l => (l, [s.cur.next.zeroExtend 32], 0)))

/-- CALL (R123). -/
def execCall (h : Hdr) (o : CtlOps) (s : State) : Out' :=
  .next ((s.link h o.d).jump h fun _ _ => pcOf o.imm)
/-- CALLX: the target is read before D is written (R123). -/
def execCallx (h : Hdr) (o : CtlOps) (s : State) : Out' :=
  let g0 := s.curG
  .next ((s.link h o.d).jump h fun _ l => pcOf (src s g0 o.imm o.a l))

/-- Threads of a mask end; their outstanding results are discarded (R125). -/
def Group.exitLanes (g : Group) (m : Mask) : Group :=
  let g1 := g.onMask m fun x => { x with exited := true }
  let keep (p : Pend) : Pend :=
    if p.file = 0 then { p with lanes := p.lanes.filter fun x => !m.getLsbD x.lane } else p
  { g1 with pend := (g1.pend.map keep).filter fun p => !p.lanes.isEmpty }

/-- EXIT (R125). -/
def execExit (h : Hdr) (_o : CtlOps) (s : State) : Out' :=
  let m := lanesMask (activeLanes s h)
  let s1 := s.advance
  .next (s1.setCurG (s1.curG.exitLanes m))

/-- The active lanes' MEET := f (R126). -/
def State.setMeet (s : State) (h : Hdr) (f : Group → Nat → Pc) : State :=
  let g := s.curG
  let act := activeLanes s h
  s.setCurG (g.withLanes fun l x => if act.contains l then { x with meet := f g l } else x)

/-- MEET target (R126). -/
def execMeetSet (h : Hdr) (o : CtlOps) (s : State) : Out' :=
  .next ((s.setMeet h fun _ _ => pcOf o.imm).advance)
/-- MEET D, target: the old value is saved, zero-extended (R126). -/
def execMeetSave (h : Hdr) (o : CtlOps) (s : State) : Out' :=
  let s1 := s.setCurG (writeRes o.d s.curG
    ((activeLanes s h).map fun l => (l, [(s.curG.lane l).meet.zeroExtend 32], 0)))
  let act := activeLanes s h
  .next ((s1.setCurG (s1.curG.withLanes fun l x =>
    if act.contains l then { x with meet := pcOf o.imm } else x)).advance)
/-- MEET.r A (R126). -/
def execMeetRestore (h : Hdr) (o : CtlOps) (s : State) : Out' :=
  .next ((s.setMeet h fun g l => pcOf (src s g o.imm o.a l)).advance)

/-- YIELD: for the 8 cycles of its partition after this one the group offers a candidate only when no other group of the partition has one, and
the subgroup comes last at the next selection (R127). -/
def execYield (_h : Hdr) (_o : CtlOps) (s : State) : Out' :=
  let s1 := s.advance
  .next (s1.setCurG { s1.curG with yieldTill := (s.part (slotPart s.cur.slot)).cyc + 9, yieldMask := s.cur.mask })

/-- SLEEP (R128). -/
def execSleep (h : Hdr) (o : CtlOps) (s : State) : Out' :=
  match activeLanes s h with
  | [] => .next s.advance
  | l :: ls =>
    let n := (src s s.curG o.imm o.a l).toNat
    if n = 0 then .next s.advance
    else .next (s.block (lanesMask (l :: ls)) (.sleep (s.now + n)))

/-- TRAP code (R129). -/
def execTrap (h : Hdr) (o : CtlOps) (s : State) : Out' :=
  match activeLanes s h with
  | [] => .next s.advance
  | _ => .next (s.trap 9 (o.imm.toNat % 65536) 0)

/-- ERET (R130, R350): the active lanes stand at it; a lane whose guard is false continues. When the whole
trapped set stands at an ERET the routine ends, or the grid ends as faulted when ABORT is set. Outside a
supervisor routine it is detail 0x0B. -/
def execEret (h : Hdr) (_o : CtlOps) (s : State) : Out' :=
  let act := lanesMask (activeLanes s h)
  if (maskLanes 64 s.cur.mask).any fun l => !(s.curG.lane l).sup then .next (s.illegal 0x0B)
  else
    let g1 := s.curG.onMask act fun x => { x with atEret := true }
    let g2 := g1.onMask (s.cur.mask &&& ~~~act) (laneAdvance s.cur)
    if g2.eretReady then
      if g2.trapcause.getLsbD 5 then
        .next ((s.setCurG g2).abortGrid (s.team g2.tid).grid g2.trapcause
          (g2.trappc.zeroExtend 32) g2.trapaddr.toNat)
      else .next (s.setCurG g2.eret)
    else .next (s.setCurG g2)

/-! ### CSRs -/

/-- The subgroup is in supervisor mode. -/
def State.inSup (s : State) : Bool :=
  (maskLanes 64 s.cur.mask).all fun l => (s.curG.lane l).sup

/-- The CSR is marked supervisor (R131). -/
def csrSup (n : Nat) : Bool := 0x100 ≤ n

/-- A CSR's value (R131, R132, R347). -/
def csrRead (s : State) (g : Group) (n : Nat) : Word :=
  match n with
  | 0x001 => g.fstatWord
  | 0x020 => BitVec.ofNat 32 (s.clock (s.team g.tid).core)
  | 0x021 => BitVec.ofNat 32 (s.clock (s.team g.tid).core / 2 ^ 32)
  | 0x100 => g.trapvec.extractLsb' 0 32
  | 0x101 => (g.trapvec.extractLsb' 32 20).zeroExtend 32
  | 0x102 => g.trapcause
  | 0x103 => g.trappc.zeroExtend 32
  | 0x104 => g.trapaddr.extractLsb' 0 32
  | 0x105 => (g.trapaddr.extractLsb' 32 24).zeroExtend 32
  | _ => 0

/-- A TRAPVEC value is rounded down to a multiple of 192 (R347). -/
def roundVec (v : Nat) : BitVec 52 := BitVec.ofNat 52 (v % 2 ^ 52 / 192 * 192)

/-- TRAPCAUSE's writable bits: CAUSE, ABORT and DETAIL; GSLOT is read-only (R347). -/
def writeCause (old w : Word) : Word := (old &&& 0xFF000000#32) ||| (w &&& 0x00FFFF3F#32)

/-- Write a CSR; reserved bits are ignored (R133). -/
def csrWrite (g : Group) (n : Nat) (w : Word) : Group :=
  match n with
  | 0x001 => g.setFstat w
  | 0x100 => { g with trapvec := roundVec (g.trapvec.toNat / 2 ^ 32 * 2 ^ 32 + w.toNat) }
  | 0x101 => { g with trapvec := roundVec (g.trapvec.toNat % 2 ^ 32 + w.toNat * 2 ^ 32) }
  | 0x102 => { g with trapcause := writeCause g.trapcause w }
  | 0x103 => { g with trappc := w.extractLsb' 0 24 }
  | 0x104 => { g with trapaddr := BitVec.ofNat 56 (g.trapaddr.toNat / 2 ^ 32 * 2 ^ 32 + w.toNat) }
  | 0x105 => { g with trapaddr := BitVec.ofNat 56 (g.trapaddr.toNat % 2 ^ 32 + w.toNat * 2 ^ 32) }
  | _ => g

/-- CSRR (R133). -/
def execCsrr (h : Hdr) (o : CtlOps) (s : State) : Out' :=
  let n := o.imm.toNat
  if csrSup n && !s.inSup then .next (s.illegal 0x0B)
  else .next (s.perLane h o.d fun g _ => ([csrRead s g n], 0))

/-- CSRW (R133). -/
def execCsrw (h : Hdr) (o : CtlOps) (s : State) : Out' :=
  let n := o.imm.toNat
  if csrSup n && !s.inSup then .next (s.illegal 0x0B)
  else match activeLanes s h with
    | [] => .next s.advance
    | l :: _ => .next ((s.setCurG (csrWrite s.curG n (src s s.curG 0 o.a l))).advance)

end Sys2Proof.Machine
end

