-- ==== Sys2Proof/Machine/Integer.lean ====
section
/-! DEFINITION. Class 0x1: integer arithmetic (R134 to R136). -/

namespace Sys2Proof.Machine

/-- A word read as TYPE: signed for .i32 and the default. -/
def readAs (signed : Bool) (w : Word) : Int := if signed then w.toInt else w.toNat
/-- The type is signed; the default type of the class is .i32 (R134). -/
def signedTy : Ty → Bool
  | .n32 | .n16 | .n8 => false
  | _ => true
/-- Sat32(x, t) and Wrap32(x) (R55). -/
def sat32 (signed : Bool) (x : Int) : Word :=
  if signed then BitVec.ofInt 32 (max (-(2 ^ 31)) (min (2 ^ 31 - 1) x))
  else BitVec.ofInt 32 (max 0 (min (2 ^ 32 - 1) x))
def wrap32 (x : Int) : Word := BitVec.ofInt 32 x
/-- Writeback of an exact value under SAT (R134). -/
def narrow (o : AluOps) (x : Int) : Word :=
  if o.sat then sat32 (signedTy o.ty) x else wrap32 x

/-- The shared form of R134: read as TYPE, compute exactly, narrow once. -/
def int1 (s : State) (h : Hdr) (o : AluOps) (f : Int → Int) : Out' :=
  alu1 s h o fun a => narrow o (f (readAs (signedTy o.ty) a))
def int2 (s : State) (h : Hdr) (o : AluOps) (f : Int → Int → Int) : Out' :=
  alu2 s h o fun a b => narrow o (f (readAs (signedTy o.ty) a) (readAs (signedTy o.ty) b))
def int3 (s : State) (h : Hdr) (o : AluOps) (f : Int → Int → Int → Int) : Out' :=
  alu3 s h o fun a b c =>
    narrow o (f (readAs (signedTy o.ty) a) (readAs (signedTy o.ty) b) (readAs (signedTy o.ty) c))

/-- IADD (R134). -/
def execIadd (h : Hdr) (o : AluOps) (s : State) : Out' := int2 s h o fun a b => a + b
/-- IADD3 (R134). -/
def execIadd3 (h : Hdr) (o : AluOps) (s : State) : Out' := int3 s h o fun a b c => a + b + c
/-- ISUB (R134). -/
def execIsub (h : Hdr) (o : AluOps) (s : State) : Out' := int2 s h o fun a b => a - b
/-- IMUL (R134). -/
def execImul (h : Hdr) (o : AluOps) (s : State) : Out' := int2 s h o fun a b => a * b
/-- IMULH: ⌊a × b / 2^32⌋ (R134). -/
def execImulh (h : Hdr) (o : AluOps) (s : State) : Out' := int2 s h o fun a b => (a * b).fdiv (2 ^ 32)
/-- IMAD (R134). -/
def execImad (h : Hdr) (o : AluOps) (s : State) : Out' := int3 s h o fun a b c => a * b + c
/-- IMIN (R134). -/
def execImin (h : Hdr) (o : AluOps) (s : State) : Out' := int2 s h o fun a b => min a b
/-- IMAX (R134). -/
def execImax (h : Hdr) (o : AluOps) (s : State) : Out' := int2 s h o fun a b => max a b
/-- IABS (R134). -/
def execIabs (h : Hdr) (o : AluOps) (s : State) : Out' := int1 s h o fun a => (a.natAbs : Int)
/-- INEG (R134). -/
def execIneg (h : Hdr) (o : AluOps) (s : State) : Out' := int1 s h o fun a => -a
/-- ISAD: |a − b| + c (R134). -/
def execIsad (h : Hdr) (o : AluOps) (s : State) : Out' :=
  int3 s h o fun a b c => ((a - b).natAbs : Int) + c
/-- LEA: a + b × 2^sh, unsigned (R134). -/
def execLea (h : Hdr) (o : AluOps) (s : State) : Out' :=
  alu2 s h o fun a b => wrap32 ((a.toNat : Int) + b.toNat * 2 ^ o.mod.toNat)

/-- a × b + w mod 2^64, as two words (R135). -/
def madw (signed : Bool) (a b lo hi : Word) : List Word :=
  let w : Int := lo.toNat + 2 ^ 32 * readAs signed hi
  let x : BitVec 64 := BitVec.ofInt 64 (readAs signed a * readAs signed b + w)
  [x.extractLsb' 0 32, x.extractLsb' 32 32]

/-- IMADW: D and C are pairs (R135). -/
def execImadw (h : Hdr) (o : AluOps) (s : State) : Out' :=
  .next (s.perLane h o.d fun g l =>
    (madw (signedTy o.ty) (src s g o.imm o.a l) (src s g o.imm o.b l) (src s g o.imm o.c l)
      (src s g o.imm (Opnd.plus o.c 1) l), 0))

/-- Element e of width w, signed or not (R62). -/
def elemInt (signed : Bool) (w e : Nat) (x : Word) : Int :=
  let b := x.extractLsb' (w * e) w
  if signed then b.toInt else b.toNat

/-- The dot product of R136: `k` elements, B of the other signedness under .mix, one narrowing. -/
def dotp (o : AluOps) (k : Nat) (a b c : Word) : Word :=
  let w := 32 / k
  let sa := signedTy o.ty
  let sb := if o.mod.getLsbD 0 then !sa else sa
  let u := sa || sb
  let x := (List.range k).foldl (fun acc e => acc + elemInt sa w e a * elemInt sb w e b) (readAs u c)
  if o.sat then sat32 u x else wrap32 x

/-- IDP4 (R136). -/
def execIdp4 (h : Hdr) (o : AluOps) (s : State) : Out' := alu3 s h o (dotp o 4)
/-- IDP2 (R136). -/
def execIdp2 (h : Hdr) (o : AluOps) (s : State) : Out' := alu3 s h o (dotp o 2)

end Sys2Proof.Machine
end

