-- ==== Sys2Proof/Machine/Logic.lean ====
section
/-! DEFINITION. Class 0x2: logic and bit operations (R137 to R140). -/

namespace Sys2Proof.Machine

/-- AND (R137). -/
def execLand (h : Hdr) (o : AluOps) (s : State) : Out' := alu2 s h o fun a b => a &&& b
/-- OR (R137). -/
def execLor (h : Hdr) (o : AluOps) (s : State) : Out' := alu2 s h o fun a b => a ||| b
/-- XOR (R137). -/
def execLxor (h : Hdr) (o : AluOps) (s : State) : Out' := alu2 s h o fun a b => a ^^^ b
/-- NOT (R137). -/
def execLnot (h : Hdr) (o : AluOps) (s : State) : Out' := alu1 s h o fun a => ~~~a

/-- A bit of a truth table at a + 2b + 4d (R138). -/
def lutBit (lut : Nat) (a b d : Bool) : Bool :=
  bitAt lut ((if a then 1 else 0) + (if b then 2 else 0) + (if d then 4 else 0))
/-- A value bit by bit from a function of the position. -/
def ofBitFn (n : Nat) (f : Nat → Bool) : Nat :=
  (List.range n).foldl (fun acc i => if f i then acc + 2 ^ i else acc) 0
/-- The three-input table over words, the old D as third input (R138). -/
def logt (lut : Nat) (a b d : Word) : Word :=
  BitVec.ofNat 32 (ofBitFn 32 fun i => lutBit lut (a.getLsbD i) (b.getLsbD i) (d.getLsbD i))

/-- LOGT (R138). -/
def execLogt (h : Hdr) (o : AluOps) (s : State) : Out' :=
  .next (s.perLane h o.d fun g l =>
    ([logt (o.imm.toNat % 256) (src s g o.imm o.a l) (src s g o.imm o.b l) (src s g o.imm o.d l)], 0))

/-- SHL (R137). -/
def execShl (h : Hdr) (o : AluOps) (s : State) : Out' :=
  alu2 s h o fun a b => if 32 ≤ b.toNat then 0 else a <<< b.toNat
/-- SHR (R137). -/
def execShr (h : Hdr) (o : AluOps) (s : State) : Out' := alu2 s h o fun a b => a >>> b.toNat
/-- SAR (R137). -/
def execSar (h : Hdr) (o : AluOps) (s : State) : Out' := alu2 s h o fun a b => a.sshiftRight (min b.toNat 31)
/-- ROT (R137). -/
def execRot (h : Hdr) (o : AluOps) (s : State) : Out' := alu2 s h o fun a b => a.rotateLeft (b.toNat % 32)
/-- FSHL (R137). -/
def execFshl (h : Hdr) (o : AluOps) (s : State) : Out' :=
  alu3 s h o fun a b c => ((a ++ b) <<< (min c.toNat 32)).extractLsb' 32 32

/-- Ones of a word, its leading and trailing zeros (R137). -/
def popc (a : Word) : Nat := ((List.range 32).filter fun i => a.getLsbD i).length
def clz (a : Word) : Nat := ((List.range 32).takeWhile fun i => !a.getLsbD (31 - i)).length
def ctz (a : Word) : Nat := ((List.range 32).takeWhile fun i => !a.getLsbD i).length

/-- POPC (R137). -/
def execPopc (h : Hdr) (o : AluOps) (s : State) : Out' := alu1 s h o fun a => BitVec.ofNat 32 (popc a)
/-- CLZ (R137). -/
def execClz (h : Hdr) (o : AluOps) (s : State) : Out' := alu1 s h o fun a => BitVec.ofNat 32 (clz a)
/-- CTZ (R137). -/
def execCtz (h : Hdr) (o : AluOps) (s : State) : Out' := alu1 s h o fun a => BitVec.ofNat 32 (ctz a)
/-- BREV (R137). -/
def execBrev (h : Hdr) (o : AluOps) (s : State) : Out' :=
  alu1 s h o fun a => BitVec.ofNat 32 (ofBitFn 32 fun i => a.getLsbD (31 - i))

/-- Bit-field extract (R139). -/
def bfe (signed : Bool) (a b : Word) : Word :=
  let pos := (b.extractLsb' 0 8).toNat
  let len := (b.extractLsb' 8 8).toNat
  if len = 0 ∨ 32 ≤ pos then 0
  else
    let n := min (pos + len) 32 - pos
    let x := bits a.toNat pos n
    if signed && bitAt x (n - 1) then BitVec.ofInt 32 ((x : Int) - 2 ^ n) else BitVec.ofNat 32 x

/-- BFE; .n32 is its default type (R137, R139). -/
def execBfe (h : Hdr) (o : AluOps) (s : State) : Out' := alu2 s h o (bfe (o.ty == .i32))

/-- Bit-field insert (R139). -/
def bfi (a b c : Word) : Word :=
  let pos := (c.extractLsb' 0 8).toNat
  if 32 ≤ pos then b
  else
    let len := min (c.extractLsb' 8 8).toNat (32 - pos)
    BitVec.ofNat 32 (ofBitFn 32 fun i => if pos ≤ i && i < pos + len then a.getLsbD (i - pos) else b.getLsbD i)

/-- BFI (R139). -/
def execBfi (h : Hdr) (o : AluOps) (s : State) : Out' := alu3 s h o bfi

/-- One byte of BMIX for selector `sel`, after `prev` (R140). -/
def bmixByte (a b : Word) (prev : Option Byte) (sel : Nat) : Byte :=
  if sel < 4 then a.extractLsb' (8 * sel) 8
  else if sel < 8 then b.extractLsb' (8 * (sel - 4)) 8
  else if sel = 9 then (match prev with
    | some p => if p.getLsbD 7 then 0xFF else 0
    | none => 0)
  else if sel = 15 then 0xFF else 0

/-- Byte mix, built from byte 0 upward (R140). -/
def bmix (a b c : Word) : Word :=
  let sel (i : Nat) : Nat := (c.extractLsb' (4 * i) 4).toNat
  let r0 := bmixByte a b none (sel 0)
  let r1 := bmixByte a b (some r0) (sel 1)
  let r2 := bmixByte a b (some r1) (sel 2)
  let r3 := bmixByte a b (some r2) (sel 3)
  r3 ++ r2 ++ r1 ++ r0

/-- BMIX (R140). -/
def execBmix (h : Hdr) (o : AluOps) (s : State) : Out' := alu3 s h o bmix

end Sys2Proof.Machine
end

