-- ==== Sys2Proof/Machine/Convert.lean ====
section
/-! DEFINITION. Class 0x6: conversions, quantisation, scales and block sums (R70 to R79). -/

namespace Sys2Proof.Machine

/-- Element width of a type (R62). -/
def tyWidth : Ty → Nat
  | .i8 | .n8 | .e4m3 | .e5m2 => 8
  | .i16 | .n16 | .bf16 | .f16 => 16
  | .e2m1 => 4
  | .b1 => 1
  | _ => 32

/-- The type holds integers. -/
def isIntTy : Ty → Bool
  | .i8 | .i16 | .i32 | .n8 | .n16 | .n32 => true
  | _ => false

/-- Range of an integer type. -/
def intLo (t : Ty) : Int := if signedTy t then -(2 ^ (tyWidth t - 1)) else 0
def intHi (t : Ty) : Int := if signedTy t then 2 ^ (tyWidth t - 1) - 1 else 2 ^ tyWidth t - 1

/-- The code of element `e` of a type in a word (R62). -/
def elemCode (t : Ty) (e : Nat) (w : Word) : Nat := bits w.toNat (tyWidth t * e) (tyWidth t)
/-- A word with element `e` replaced. -/
def setElem (t : Ty) (e c : Nat) (w : Word) : Word :=
  if tyWidth t = 32 then BitVec.ofNat 32 c
  else
    let lo := tyWidth t * e
    let m := BitVec.ofNat 32 ((2 ^ tyWidth t - 1) * 2 ^ lo)
    (w &&& ~~~m) ||| BitVec.ofNat 32 ((c % 2 ^ tyWidth t) * 2 ^ lo)

/-- An element's exact value. -/
def elemVal (t : Ty) (e : Nat) (w : Word) : Exact :=
  if isIntTy t then Exact.ofInt (elemInt (signedTy t) (tyWidth t) e w)
  else (tyFmt t).decode (elemCode t e w)

/-- CVT's result code and flags for value `x` of source type `st` (R70, R74). `sr` holds the stochastic bits. -/
def cvtCode (ty st : Ty) (r : Rnd) (sat : Bool) (sr : Option Nat) (x : Exact) : Nat × Fl :=
  if ty == .b1 then (if Exact.lt (.fin false 0 1 0) x then 1 else 0, 0)
  else if isIntTy ty then
    if isIntTy st then
      let v : Int := match intOfExact x with
        | some i => i
        | none => 0
      let v := if sat then max (intLo ty) (min (intHi ty) v) else v
      ((v % 2 ^ tyWidth ty).toNat, 0)
    else
      let p := convInt r (intLo ty) (intHi ty) x
      ((p.1 % 2 ^ tyWidth ty).toNat, p.2)
  else match sr with
    | some b => convSr (tyFmt ty) sat b x
    | none => conv (tyFmt ty) r sat x
where
  /-- The integer an exact value is. -/
  intOfExact : Exact → Option Int
    | .fin n num den e =>
      let fr := fracOf num den e
      some (if n then -(fr.1 / fr.2 : Nat) else (fr.1 / fr.2 : Nat))
    | _ => none

/-- CVT (R74). -/
def execCvt (h : Hdr) (o : AluOps) (s : State) : Out' :=
  let st := Ty.ofBits (o.imm.extractLsb' 0 4)
  let esrc := (o.imm.extractLsb' 4 4).toNat
  let edst := (o.imm.extractLsb' 8 5).toNat
  .next (s.perLane h o.d fun g l =>
    let sr := if o.mod.getLsbD 0 then some (stochBits (src s g o.imm o.b l) l edst) else none
    let c := cvtCode o.ty st o.rnd o.sat sr (elemVal st esrc (src s g o.imm o.a l))
    ([setElem o.ty edst c.1 (src s g o.imm o.d l)], c.2))

/-- The block type of CVTP and CVTU: .e2m1 by default (R75). -/
def blkTy (t : Ty) : Ty := if t == .dflt then .e2m1 else t
/-- Byte k of a word. -/
def byteOf (k : Nat) (w : Word) : Nat := bits w.toNat (8 * k) 8

/-- Pack eight codes into one register or two (R69). -/
def packBlk (t : Ty) (cs : List Nat) : List Word :=
  let w := tyWidth t
  let v := cs.foldr (fun c acc => c % 2 ^ w + 2 ^ w * acc) 0
  if w = 4 then [BitVec.ofNat 32 v] else [BitVec.ofNat 32 v, BitVec.ofNat 32 (v / 2 ^ 32)]

/-- CVTP (R75). -/
def execCvtp (h : Hdr) (o : AluOps) (s : State) : Out' :=
  let t := blkTy o.ty
  .next (s.perLane h o.d fun g l =>
    let code := byteOf (o.mod.extractLsb' 0 2).toNat (src s g o.imm o.b l)
    let cs : List (Nat × Fl) := (List.range 8).map fun i =>
      if code = 0 then (0, 0)
      else
        let x := f32 (src s g o.imm (Opnd.plus o.a i) l)
        let q := match x with
          | .fin .. => Exact.quot x (decE3M5 code)
          | y => y
        if o.mod.getLsbD 2 then convSr (tyFmt t) o.sat (stochBits (src s g o.imm o.c l) l i) q
        else conv (tyFmt t) o.rnd o.sat q
    (packBlk t (cs.map Prod.fst), cs.foldl (fun f c => f ||| c.2) 0))

/-- CVTU (R76). -/
def execCvtu (h : Hdr) (o : AluOps) (s : State) : Out' :=
  let t := blkTy o.ty
  .next (s.perLane h o.d fun g l =>
    let code := byteOf (o.mod.extractLsb' 0 2).toNat (src s g o.imm o.b l)
    let per := 32 / tyWidth t
    let ws : List Exact := (List.range 8).map fun i =>
      let y := elemVal t (i % per) (src s g o.imm (Opnd.plus o.a (i / per)) l)
      if code = 0 then .fin false 0 1 0 else Exact.mul y (decE3M5 code)
    if o.mod.getLsbD 2 then
      let cs := ws.map fun x => conv fmtB16 o.rnd false x
      ((List.range 4).map fun j =>
          BitVec.ofNat 32 ((cs.getD (2 * j + 1) (0, 0)).1 * 2 ^ 16 + (cs.getD (2 * j) (0, 0)).1),
        cs.foldl (fun f c => f ||| c.2) 0)
    else
      let cs := ws.map fun x => toF32 .rne x
      (cs.map Prod.fst, cs.foldl (fun f c => f ||| c.2) 0))

/-- The larger magnitude under maximumNumber over magnitudes (R77). -/
def maxMag (a b : Exact) : Exact :=
  match a.abs, b.abs with
  | .nan, y => y
  | x, .nan => x
  | x, y => if Exact.lt x y then y else x

/-- Element type of AMAX and ABSSUM: .f32 by default. -/
def fltTy (t : Ty) : Ty := if t == .dflt then .f32 else t

/-- AMAX (R77). -/
def execAmax (h : Hdr) (o : AluOps) (s : State) : Out' :=
  let t := fltTy o.ty
  let n := (o.imm.extractLsb' 0 4).toNat + 1
  .next (s.perLane h o.d fun g l =>
    let xs : List Exact := (List.range n).flatMap fun i =>
      (List.range (32 / tyWidth t)).map fun e => elemVal t e (src s g o.imm (Opnd.plus o.a i) l)
    let x0 : Exact := if o.mod.getLsbD 0 then f32 (src s g o.imm o.d l) else .nan
    ([(toF32 .rne (xs.foldl maxMag x0).abs).1], 0))

/-- The least code whose scaled target reaches |a| (R78). -/
def leastScale (a b : Exact) : Nat :=
  ((List.range 256).find? fun c => Exact.le a.abs (Exact.mul (decE3M5 c) b)).getD 0xFF

/-- SCALEQ's code and flags (R78). -/
def scaleq (a b : Exact) : Nat × Fl :=
  if b.isNan || b.isInf || b.isZero || b.neg then (0xFF, flIV)
  else if a.isNan then (0xFF, flIV)
  else if a.isZero then (0, 0)
  else if Exact.lt (Exact.mul (decE3M5 0xFF) b) a.abs then (0xFF, flSCL)
  else (leastScale a b, flIf (Exact.lt a.abs (Exact.mul (decE3M5 1) b)) flSCL)

/-- SCALEQ (R78). -/
def execScaleq (h : Hdr) (o : AluOps) (s : State) : Out' :=
  .next (s.perLane h o.d fun g l =>
    let c := scaleq (f32 (src s g o.imm o.a l)) (f32 (src s g o.imm o.b l))
    ([setElem .n8 (o.mod.extractLsb' 0 2).toNat c.1 (src s g o.imm o.d l)], c.2))

/-- The upward-rounded sum of one block's magnitudes (R79). -/
def abssumBlk (scale : Option Nat) (xs : List Exact) : Word × Fl :=
  if scale == some 0 then (0, 0)
  else if xs.any Exact.isNan then (0x7F800000, flIV)
  else
    let sum := xs.foldl (fun acc x => Exact.add false acc x.abs) (.fin false 0 1 0)
    roundUp32 (match scale with
      | some c => Exact.mul sum (decE3M5 c)
      | none => sum)

/-- ABSSUM (R79). -/
def execAbssum (h : Hdr) (o : AluOps) (s : State) : Out' :=
  let t := fltTy o.ty
  let nb := (o.imm.extractLsb' 0 3).toNat + 1
  let per := 32 / tyWidth t
  let regs := sumRegs o.ty
  let st := (o.mod.extractLsb' 1 2).toNat
  .next (s.perLane h o.d fun g l =>
    let rs := (List.range nb).map fun j =>
      let xs := (List.range 8).map fun i =>
        elemVal t (i % per) (src s g o.imm (Opnd.plus o.a (j * regs + i / per)) l)
      let sc := if o.mod.getLsbD 0 then
          some (byteOf ((st + j) % 4) (src s g o.imm (Opnd.plus o.b ((st + j) / 4)) l))
        else none
      abssumBlk sc xs
    (rs.map Prod.fst, rs.foldl (fun f r => f ||| r.2) 0))

end Sys2Proof.Machine
end

