-- ==== Sys2Proof/Machine/Move.lean ====
section
/-! DEFINITION. Class 0x3: compare, predicate, select and move (R141 to R146). -/

namespace Sys2Proof.Machine

/-- A truth value as a register value. -/
def boolWord (b : Bool) : Word := if b then 1 else 0

/-- ICMP's conditions (R141). -/
def icmpCond (c : Nat) (a b : Int) : Bool :=
  match c with
  | 0 => a == b
  | 1 => a != b
  | 2 => decide (a < b)
  | 3 => decide (a ≤ b)
  | 4 => decide (b < a)
  | _ => decide (b ≤ a)

/-- ICMP (R141). -/
def execIcmp (h : Hdr) (o : AluOps) (s : State) : Out' :=
  let sg := signedTy o.ty
  alu2 s h o fun a b => boolWord (icmpCond o.mod.toNat (readAs sg a) (readAs sg b))

/-- FCMP's conditions and flags (R141). -/
def fcmpCond (c : Nat) (a b : Exact) : Bool × Fl :=
  if a.isNan || b.isNan then
    match c with
    | 0 => (false, 0)
    | 1 => (true, 0)
    | 6 => (false, 0)
    | 7 => (true, 0)
    | _ => (false, flIV)
  else
    match c with
    | 0 => (Exact.eqv a b, 0)
    | 1 => (!Exact.eqv a b, 0)
    | 2 => (Exact.lt a b, 0)
    | 3 => (Exact.le a b, 0)
    | 4 => (Exact.lt b a, 0)
    | 5 => (Exact.le b a, 0)
    | 6 => (true, 0)
    | _ => (false, 0)

/-- FCMP (R141). -/
def execFcmp (h : Hdr) (o : AluOps) (s : State) : Out' :=
  fpu2 s h o fun a b => let r := fcmpCond o.mod.toNat (f32 a) (f32 b); (boolWord r.1, r.2)

/-- PLOG, the old D as third input (R142). -/
def execPlog (h : Hdr) (o : AluOps) (s : State) : Out' :=
  .next (s.perLane h o.d fun g l =>
    let p (x : Opnd) : Bool := src s g 0 x l != 0
    ([boolWord (lutBit (o.imm.toNat % 256) (p o.a) (p o.b) (p o.d))], 0))

/-- SEL (R143). -/
def execSel (h : Hdr) (o : AluOps) (s : State) : Out' :=
  alu3 s h o fun a b c => if (c != 0) != o.mod.getLsbD 0 then a else b

/-- MOV (R144). -/
def execMov (h : Hdr) (o : AluOps) (s : State) : Out' := alu1 s h o fun a => a
/-- MOVI (R144). -/
def execMovi (h : Hdr) (o : AluOps) (s : State) : Out' := alu1 s h o fun _ => o.imm

/-- A once-per-subgroup write of a uniform register from the lowest active lane (R145). -/
def State.perGroup (s : State) (h : Hdr) (d : Opnd) (f : Group → Nat → List Word) : State :=
  match activeLanes s h with
  | [] => s.advance
  | l :: _ => (s.setCurG (dstSpan s.curG d l (f s.curG l))).advance

/-- MOVS: the lowest-numbered active lane's value (R145). -/
def execMovs (h : Hdr) (o : AluOps) (s : State) : Out' :=
  .next (s.perGroup h o.d fun g l => [src s g o.imm o.a l])

/-- RDLANE: lane Src(B) mod width, active or not (R145). -/
def execRdlane (h : Hdr) (o : AluOps) (s : State) : Out' :=
  .next (s.perGroup h o.d fun g l => [src s g o.imm o.a ((src s g o.imm o.b l).toNat % g.width)])

/-- PMOV: p0 to p6 as bits (R146). -/
def execPmov (h : Hdr) (o : AluOps) (s : State) : Out' :=
  .next (s.perLane h o.d fun g l => ([(g.lane l).p.zeroExtend 32], 0))

/-- The predicates a PMOV.p writes (R146). -/
def pmovSet (mask : BitVec 7) (v : Word) (x : Lane) : Lane :=
  { x with p := (x.p &&& ~~~mask) ||| (v.extractLsb' 0 7 &&& mask) }

/-- PMOV.p: the named predicates from bits of A (R146). -/
def execPmovP (h : Hdr) (o : AluOps) (s : State) : Out' :=
  let g := s.curG
  let act := activeLanes s h
  let m := o.imm.extractLsb' 0 7
  .next ((s.setCurG { g with lanes := mapLanes (fun l x =>
    if act.contains l then pmovSet m (src s g o.imm o.a l) x else x) 0 g.lanes }).advance)

end Sys2Proof.Machine
end

