-- ==== Sys2Proof/Machine/CrossLane.lean ====
section
/-! DEFINITION. Class 0x7: operations across the lanes of a group (R154 to R158). -/

namespace Sys2Proof.Machine

/-- The lane a SHFL reads in lane l, or l itself (R155). -/
def shflLane (mode : Nat) (w l : Nat) (b : Word) : Int :=
  match mode with
  | 0 => ((b.toNat % w : Nat) : Int)
  | 1 => (l : Int) - b.toNat
  | 2 => (l : Int) + b.toNat
  | _ => ((BitVec.ofNat 32 l ^^^ b).toNat : Int)

/-- SHFL (R155). -/
def execShfl (h : Hdr) (o : AluOps) (s : State) : Out' :=
  .next (s.perLane h o.d fun g l =>
    let j := shflLane (o.mod.toNat % 4) g.width l (src s g o.imm o.b l)
    let k := if 0 ≤ j ∧ j < g.width ∧ !(g.lane j.toNat).exited then j.toNat else l
    ([src s g o.imm o.a k], 0))

/-- Active lanes as a mask. -/
def activeMask (s : State) (h : Hdr) : Mask := lanesMask (activeLanes s h)

/-- VOTE (R156). -/
def execVote (h : Hdr) (o : AluOps) (s : State) : Out' :=
  let act := activeLanes s h
  let n := lanesMask act
  let m := lanesMask (act.filter fun l => src s s.curG 0 o.a l != 0)
  let mode := o.mod.toNat % 4
  .next (s.perLane h o.d fun _ _ =>
    if mode = 3 then ([m.extractLsb' 0 32, m.extractLsb' 32 32], 0)
    else ([boolWord (if mode = 0 then m == n else if mode = 1 then m != 0 else m == 0 || m == n)], 0))

/-- The accumulator of a fold: an exact integer, or a pattern, with flags. -/
abbrev FoldAcc := Int × Fl

/-- One step of a fold over lanes (R157). Patterns and bitwise values are held as non-negative integers. -/
def foldStep (o : AluOps) (op : Nat) (acc : FoldAcc) (w : Word) : FoldAcc :=
  let sg := signedTy o.ty
  if o.ty == .f32 then
    let a := BitVec.ofInt 32 acc.1
    match op with
    | 0 => let r := fAdd fmt32 o.rnd (f32 a) (f32 w); (r.1, acc.2 ||| r.2)
    | 1 => (fminN fmt32 a.toNat w.toNat, acc.2)
    | _ => (fmaxN fmt32 a.toNat w.toNat, acc.2)
  else
    let b := readAs sg w
    match op with
    | 0 => (acc.1 + b, acc.2)
    | 1 => (min acc.1 b, acc.2)
    | 2 => (max acc.1 b, acc.2)
    | 3 => (((BitVec.ofInt 32 acc.1) &&& w).toNat, acc.2)
    | 4 => (((BitVec.ofInt 32 acc.1) ||| w).toNat, acc.2)
    | _ => (((BitVec.ofInt 32 acc.1) ^^^ w).toNat, acc.2)

/-- The first value of a fold. A lone NaN lane of a minimum or maximum stays as it is; the fold of one lane
is its value. -/
def foldInit (o : AluOps) (op : Nat) (w : Word) : FoldAcc :=
  if o.ty == .f32 then (w.toNat, 0)
  else if op ≤ 2 then (readAs (signedTy o.ty) w, 0) else (w.toNat, 0)

/-- The result word of an accumulator (R157). -/
def foldOut (o : AluOps) (op : Nat) (a : FoldAcc) : Word :=
  if o.ty == .f32 || 0 < op then BitVec.ofInt 32 a.1 else narrow o a.1

/-- The identity of an exclusive scan (R157). -/
def foldId (o : AluOps) (op : Nat) : Word :=
  if o.ty == .f32 then (match op with
    | 1 => 0x7F800000
    | 2 => 0xFF800000
    | _ => 0)
  else match op with
    | 1 => if signedTy o.ty then 0x7FFFFFFF else 0xFFFFFFFF
    | 2 => if signedTy o.ty then 0x80000000 else 0
    | 3 => 0xFFFFFFFF
    | _ => 0

/-- Inclusive and exclusive folds of the values so far: result word before this lane, and after it. -/
def scanVals (o : AluOps) (op : Nat) : Option FoldAcc → List Word → List (Word × Word)
  | _, [] => []
  | none, w :: ws =>
    let a := foldInit o op w
    (foldId o op, foldOut o op a) :: scanVals o op (some a) ws
  | some a, w :: ws =>
    let b := foldStep o op a w
    (foldOut o op a, foldOut o op b) :: scanVals o op (some b) ws

/-- The fold of all values: its word and flags. -/
def foldAll (o : AluOps) (op : Nat) : List Word → Word × Fl
  | [] => (0, 0)
  | w :: ws => let a := ws.foldl (foldStep o op) (foldInit o op w); (foldOut o op a, a.2)

/-- REDL (R157). -/
def execRedl (h : Hdr) (o : AluOps) (s : State) : Out' :=
  let op := o.mod.toNat
  let r := foldAll o op ((activeLanes s h).map fun l => src s s.curG o.imm o.a l)
  .next (s.perLane h o.d fun _ _ => ([r.1], r.2))

/-- SCANL (R157). An exclusive scan performs only the additions its results name. -/
def execScanl (h : Hdr) (o : AluOps) (s : State) : Out' :=
  let op := o.mod.toNat
  let excl := o.imm.getLsbD 0
  let act := activeLanes s h
  let vs := act.map fun l => src s s.curG o.imm o.a l
  let rs := act.zip (scanVals o op none vs)
  let fl := (foldAll o op (if excl then vs.dropLast else vs)).2
  .next (s.perLane h o.d fun _ l =>
    match rs.find? fun p => p.1 == l with
    | some p => ([if excl then p.2.1 else p.2.2], fl)
    | none => ([], 0))

/-- MATCH (R158). -/
def execMatchl (h : Hdr) (o : AluOps) (s : State) : Out' :=
  let act := activeLanes s h
  .next (s.perLane h o.d fun g l =>
    let m := lanesMask (act.filter fun j => src s g o.imm o.a j == src s g o.imm o.a l)
    ([m.extractLsb' 0 32, m.extractLsb' 32 32], 0))

end Sys2Proof.Machine
end

