-- ==== Sys2Proof/Machine/Isect.lean ====
section
/-! DEFINITION. Stream intersection, ISECT (R202 to R204). -/

namespace Sys2Proof.Machine

/-- Why a step of ISECT cannot be made: a page to translate, a wait on store queue, line or peer, or a fault. -/
inductive IsStop where
  | wait (va kind : Nat) (l : Look)
  | hold (why : Why)
  | fault (cause detail addr : Nat)
  deriving DecidableEq, Repr

/-- The place of `n` aligned bytes for reading (kind 0) or writing (kind 1). -/
def State.isLoc (s : State) (slot kind va n : Nat) : Loc ⊕ IsStop :=
  let core := slotCore slot
  if va % n ≠ 0 then .inr (.fault 2 1 va)
  else match (s.look core (s.pasidOf slot) va kind).thread with
    | .hit l => .inl l
    | .bad r => .inr (.fault 3 (r + 16 * kind) va)
    | .data => .inr (.fault 8 1 va)
    | l => .inr (.wait va kind l)

/-- `n` aligned bytes read as an ordinary load (R203): the lane's own output first, then queue, L1 and home. -/
def State.isRead (s : State) (slot va n : Nat) (outs : List StByte) : (Nat × State) ⊕ (IsStop × State) :=
  let core := slotCore slot
  match s.isLoc slot 0 va n with
  | .inr e => .inr (e, s)
  | .inl l =>
    let bs := (List.range n).map fun i => (l1key (s.pasidOf slot) (va + i), l.next i)
    let ls := bs.map Prod.snd
    if (s.group slot).acqBefore s.fresh s.fresh then .inr (.hold .acq, s)
    else
    let s := s.captureMet slot s.fresh ls
    if !s.noneMet slot s.fresh ls then .inr (.hold (.drain s.fresh), s)
    else
    let mine := bs.map fun b => ((outs.filter fun x => x.loc == b.2).getLast?).map StByte.val
    if mine.all Option.isSome then
      .inl (leNat (mine.map (·.getD 0)), s)
    else if bs.any (s.badByte slot s.fresh false) then .inr (.fault 8 1 va, s.logError l)
    else if bs.any fun b => sqByte b.2 (s.group slot).sq none == some none then .inr (.hold (.drain s.fresh), s)
    else match l with
      | .peer p _ =>
        if bs.all fun b => !s.fetched slot s.fresh false b then
          let r := s.takeBytes slot s.fresh (Form.plain n) bs
          .inl (leNat r.1, r.2)
        else
          let b := (bs.find? (s.fetched slot s.fresh false)).getD (0, l)
          match (s.peerAns core b.1).filter fun e => e.1 != 0 with
          | some (1, _) => .inr (.fault 3 3 va, s.dropAns core [b.1])
          | some (_, _) => .inr (.fault 8 1 va, s.dropAns core [b.1])
          | none =>
            if s.canSend p then
              let s1 := s.askPeer core false b
              .inr (.hold (.peer s1.fresh), s1)
            else .inr (.fault 8 1 va, s)
      | _ =>
        if bs.all (s.byteReady slot s.fresh false) then
          let r := s.takeBytes slot s.fresh (Form.plain n) bs
          .inl (leNat r.1, r.2)
        else match l with
          | .dev a => .inr (.hold (.owned (a / 128)), s)
          | _ => .inr (.hold (.drain s.fresh), s)

/-- Operands of one lane: both streams, the output and its capacity, and whether matches are emitted. -/
structure IsLane where
  p1 : Nat
  n1 : Nat
  p2 : Nat
  n2 : Nat
  po : Nat
  cap : Nat
  emit : Bool
  deriving DecidableEq, Repr

/-- Progress of one lane. -/
structure IsPos where
  i : Nat
  j : Nat
  k : Nat
  outs : List StByte
  stop : Option IsStop
  deriving DecidableEq, Repr

/-- One step of the merge: the new position, or the reason it cannot be made (R203). -/
def State.isStep (s : State) (slot : Nat) (a : IsLane) (q : IsPos) : IsPos × State :=
  match s.isRead slot ((a.p1 + 4 * q.i) % 2 ^ 56) 4 q.outs with
  | .inr (e, s1) => ({ q with stop := some e }, s1)
  | .inl (x, s1) =>
    match s1.isRead slot ((a.p2 + 4 * q.j) % 2 ^ 56) 4 q.outs with
    | .inr (e, s2) => ({ q with stop := some e }, s2)
    | .inl (y, s2) =>
      if x = y then
        if a.emit then
          let va := (a.po + 4 * q.k) % 2 ^ 56
          match s2.isLoc slot 1 va 4 with
          | .inr e => ({ q with stop := some e }, s2)
          | .inl l =>
            let new : List StByte := (leBytes 4 x).zipIdx.map fun b =>
              { loc := l.next b.2, key := l1key (s.pasidOf slot) (va + b.2), priv := false, ev := false, val := b.1 }
            ({ q with i := q.i + 1, j := q.j + 1, k := q.k + 1, outs := q.outs ++ new }, s2)
        else ({ q with i := q.i + 1, j := q.j + 1, k := q.k + 1 }, s2)
      else if x < y then ({ q with i := q.i + 1 }, s2)
      else ({ q with j := q.j + 1 }, s2)

/-- The merge of one lane for at most `fuel` steps; `first` tells whether no step has been made. A wait or fault after
the first step only stops the lane; any other hold stops the whole issue. -/
def State.isLoop (s : State) (slot : Nat) (a : IsLane) : Nat → Bool → IsPos → IsPos × State
  | 0, _, q => (q, s)
  | n + 1, first, q =>
    if q.i < a.n1 && q.j < a.n2 && !(a.emit && q.k == a.cap) then
      let r := s.isStep slot a q
      match r.1.stop with
      | none => r.2.isLoop slot a n false r.1
      | some (.hold w) => ({ q with stop := some (.hold w) }, r.2)
      | some e => ({ q with stop := if first then some e else none }, r.2)
    else (q, s)

/-- Run the lanes in ascending order, keeping the state their loads leave. -/
def State.isLanes (s : State) (slot : Nat) (f : Nat → IsLane × IsPos) : List Nat → List (Nat × IsPos) × State
  | [] => ([], s)
  | l :: ls =>
    let r := s.isLoop slot (f l).1 512 true (f l).2
    let rs := r.2.isLanes slot f ls
    ((l, r.1) :: rs.1, rs.2)

/-- A 64-bit address and the length above it in a span of three. -/
def spanAddr (s : State) (g : Group) (o : Opnd) (l : Nat) : Nat := srcPair s g 0 o l % 2 ^ 56
def spanLen (s : State) (g : Group) (o : Opnd) (l : Nat) : Nat := (src s g 0 (Opnd.plus o 2) l).toNat

/-- Leave an instruction that could not read: wait, or trap, with no other effect. -/
def State.isLeave (s s' : State) (e : IsStop) : State :=
  let core := slotCore s.cur.slot
  let pasid := s.pasidOf s.cur.slot
  match e with
  | .hold w =>
    State.block { s with outst := s'.outst, seqOut := s'.seqOut, out := s'.out, fresh := s'.fresh } s.cur.mask w
  | .wait va k l => (s.want core pasid va k l).block s.cur.mask (.xlate pasid (va / 4096))
  | .fault c d a => ((s.dropBad core pasid (a / 4096)).dropAns core [l1key pasid a]).trap c d a

/-- ISECT (R203, R204). -/
def execIsect (h : Hdr) (o : IsectOps) (s : State) : Out' :=
  match activeLanes s h with
  | [] => .next s.advance
  | lanes =>
    let slot := s.cur.slot
    let g := s.curG
    let start (l : Nat) : IsLane × IsPos :=
      ({ p1 := spanAddr s g o.a l, n1 := spanLen s g o.a l, p2 := spanAddr s g o.b l, n2 := spanLen s g o.b l,
         po := spanAddr s g o.c l, cap := spanLen s g o.c l, emit := o.emit },
       { i := (src s g 0 o.d l).toNat, j := (src s g 0 (Opnd.plus o.d 1) l).toNat,
         k := (src s g 0 (Opnd.plus o.d 2) l).toNat, outs := [], stop := none })
    let r := s.isLanes slot start lanes
    let stops := r.1.filterMap fun x => x.2.stop
    let held := stops.find? fun e => match e with
      | .hold _ => true
      | _ => false
    let waits := stops.find? fun e => match e with
      | .wait _ _ _ => true
      | _ => false
    match held, waits, stops.head? with
    | some e, _, _ => .next (s.isLeave r.2 e)
    | none, some e, _ => .next (s.isLeave r.2 e)
    | none, none, some e => .next (s.isLeave r.2 e)
    | none, none, none =>
      let outs := r.1.flatMap fun x => x.2.outs
      let s1 := if outs.isEmpty then r.2 else (r.2.enqueue (.store outs)).2
      let put (x : Nat × IsPos) : PLane :=
        { lane := x.1, va := 0,
          datum := .words [BitVec.ofNat 32 x.2.i, BitVec.ofNat 32 x.2.j, BitVec.ofNat 32 x.2.k] }
      .next ((s1.pending 0 (opndIdx o.d) (Form.plain 12) none none (r.1.map put)).2.advance)

end Sys2Proof.Machine
end

