-- ==== Sys2Proof/Machine/Sync.lean ====
section
/-! DEFINITION. Sync cells (R297 to R312): names and checks, configuration and handles, semaphores, barriers, rings
and queues, waiters, and the signals of agents. -/

namespace Sys2Proof.Machine

/-! ### The operations of one cell -/

/-- BAR: an arrival of `n` (R309). Status is W3[7:0] and OVR W3[8]. -/
def Cell.arrive (c : Cell) (n : Nat) : Cell :=
  if c.w3.toNat % 256 = 0 then
    if c.w1.toNat ≤ c.w0.toNat + n then
      { c with w0 := 0, w2 := c.w2 + 1,
               w3 := if c.w1.toNat < c.w0.toNat + n then c.w3 ||| 0x100#32 else c.w3 }
    else { c with w0 := BitVec.ofNat 32 (c.w0.toNat + n) }
  else { c with w0 := c.w0 + BitVec.ofNat 32 n }

/-- BAR: a failure; the first one sets the cause (R310). -/
def Cell.fail (c : Cell) (status : Nat) : Cell :=
  if c.w3.toNat % 256 = 0 then { c with w3 := c.w3 ||| BitVec.ofNat 32 (status % 256) } else c

/-- BAR: STATUS is FAILED. -/
def Cell.failed (c : Cell) : Bool := c.w3.toNat % 256 != 0

/-- RING: WP advances (R311). -/
def Cell.publish (c : Cell) (n : Word) : Cell :=
  let wp := c.w0 + n
  { c with w0 := wp, w3 := if ((c.w2.toNat % 512 : Nat) : Int) < (wp - c.w1).toInt then c.w3 ||| 1#32 else c.w3 }

/-- RING: RP moves over every released number from RP upward (R311). -/
def Cell.sweep (c : Cell) : Nat → Cell
  | 0 => c
  | k + 1 =>
    if c.released.contains c.w1 then
      Cell.sweep { c with w1 := c.w1 + 1, released := c.released.filter fun x => x != c.w1 } k
    else c

/-- RING: release of `n`; the flag says whether it marked one (R311). -/
def Cell.release (c : Cell) (n : Word) : Bool × Cell :=
  let d := (n - c.w1).toInt
  if 0 ≤ d ∧ d < (c.w0 - c.w1).toInt ∧ !c.released.contains n then
    (true, Cell.sweep { c with released := n :: c.released } (c.released.length + 1))
  else (false, { c with w3 := c.w3 ||| 2#32 })

/-- QUEUE fields of W2 (R299). -/
def Cell.cap (c : Cell) : Nat := bits c.w2.toNat 0 13
def Cell.producers (c : Cell) : Nat := bits c.w2.toNat 13 4 + 1
def Cell.a0 (c : Cell) : Nat := bits c.w2.toNat 17 15
def Cell.headx (c : Cell) : Nat := bits c.w3.toNat 0 13

/-- Bytes of a queue entry in the owner's scratchpad (R305). -/
def State.entryBytes (s : State) (tid off j : Nat) : List Loc :=
  (List.range 8).map fun k => (s.team tid).scrLoc (off + 8 * j + k)

/-- QUEUE: store an entry at the tail (R312). -/
def State.qPut (s : State) (tid ci : Nat) (p : Nat) (v : Word) : State :=
  let c := (s.team tid).cell ci
  let j := (c.headx + c.w0.toNat) % max c.cap 1
  let s1 := ((s.entryBytes tid c.w1.toNat j).zip (leBytes 8 (v.toNat + 2 ^ 32 * p))).foldl
    (fun s q => s.writeLoc q.2 q.1) s
  s1.modTeam tid fun t => t.setCell ci
    { c with w0 := c.w0 + 1, allow := Tab.set 0 c.allow p (Tab.get 0 c.allow p - 1) }

/-- QUEUE: take the head entry (R312). -/
def State.qTake (s : State) (tid ci : Nat) : Word × State :=
  let c := (s.team tid).cell ci
  let e := leNat ((s.entryBytes tid c.w1.toNat c.headx).map s.readLoc)
  let p := bits e 32 4
  let hx := (c.headx + 1) % max c.cap 1
  let w3 := (c.w3 &&& 0xFFFFE000#32) ||| BitVec.ofNat 32 hx
  let c1 := if p < c.producers then
      { c with w0 := c.w0 - 1, w3, allow := Tab.set 0 c.allow p (Tab.get 0 c.allow p + 1) }
    else { c with w0 := c.w0 - 1, w3 := w3 ||| 0x2000#32 }
  (BitVec.ofNat 32 e, s.modTeam tid fun t => t.setCell ci c1)

/-! ### Waiters -/

/-- Kind a waiting operation acts on. -/
def WaitOp.kind : WaitOp → CellKind
  | .sem _ _ => .sem
  | .bar _ => .bar
  | .ringData _ => .ring
  | .ringFree _ => .ring
  | .push _ _ => .queue
  | .pop => .queue

/-- A condition without order among waiters, with the value it returns (R308, R310, R311). -/
def Cell.holds (c : Cell) : WaitOp → Option Word
  | .sem t false => if 0 ≤ (c.w0 - t).toInt then some c.w0 else none
  | .bar token => if c.failed then some 1 else if c.w2 ≠ token then some 0 else none
  | .ringData n => if 0 < (c.w0 - n).toInt then some n else none
  | .ringFree n => if 0 < (c.w1 + BitVec.ofNat 32 (c.w2.toNat % 512) - n).toInt then some n else none
  | _ => none

/-- Detail of the cell-misuse trap that a waiting operation ends in at a cell with this state; 0: none (R303, R305). -/
def WaitOp.misuse (op : WaitOp) (c : Cell) : Nat :=
  if op.kind != c.kind then 6
  else match op with
    | .push p _ => if c.producers ≤ p then 4 else 0
    | _ => 0

def State.setWaiter (s : State) (w : Waiter) : State :=
  { s with waiters := s.waiters.map fun x => if x.ticket = w.ticket then w else x }

/-- Waiters of a cell that are not yet answered, in order of arrival. -/
def State.waitersOf (s : State) (tid ci : Nat) : List Waiter :=
  s.waiters.filter fun w => w.tid == tid && w.cell == ci && w.sat.isNone && w.wrong == 0

/-- A push that may go: the first waiter of its producer, with an allowance (R312). -/
def firstPush (c : Cell) : List Nat → List Waiter → Option (Waiter × Nat × Word)
  | _, [] => none
  | seen, w :: ws =>
    match w.op with
    | .push p v =>
      if seen.contains p then firstPush c seen ws
      else if 0 < Tab.get 0 c.allow p then some (w, p, v)
      else firstPush c (p :: seen) ws
    | _ => firstPush c seen ws

/-- One answer that the cell can give, or none. -/
def State.answerOne (s : State) (tid ci : Nat) : Option State :=
  let c := (s.team tid).cell ci
  let ws := s.waitersOf tid ci
  match ws.find? fun w => w.op.misuse c != 0 with
  | some w => some (s.setWaiter { w with wrong := w.op.misuse c })
  | none =>
    match ws.find? fun w => (c.holds w.op).isSome with
    | some w => some (s.setWaiter { w with sat := c.holds w.op })
    | none =>
      match c.kind with
      | .sem =>
        match ws.find? fun w => match w.op with
            | .sem _ t => t
            | _ => false with
        | some w =>
          match w.op with
          | .sem t _ =>
            if 0 ≤ (c.w0 - t).toInt then
              some ((s.setWaiter { w with sat := some c.w0 }).modTeam tid fun x =>
                x.setCell ci { c with w0 := c.w0 - t })
            else none
          | _ => none
        | none => none
      | .queue =>
        match if c.w0 ≠ 0 then ws.find? fun w => w.op == .pop else none with
        | some w =>
          let (v, s1) := s.qTake tid ci
          some (s1.setWaiter { w with sat := some v })
        | none =>
          match firstPush c [] ws with
          | some (w, p, v) => some ((s.qPut tid ci p v).setWaiter { w with sat := some 0 })
          | none => none
      | _ => none

/-- Answer every waiter the cell can answer: each answer is applied at the cell before the next (R300, R304). -/
def State.answer (s : State) (tid ci : Nat) : Nat → State
  | 0 => s
  | n + 1 => match s.answerOne tid ci with
    | some s1 => s1.answer tid ci n
    | none => s
def State.settleCell (s : State) (tid ci : Nat) : State := s.answer tid ci (s.waiters.length + 1)

/-- Change a cell, then answer its waiters. -/
def State.cellOp (s : State) (tid ci : Nat) (f : Cell → Cell) : State :=
  (s.modTeam tid fun t => t.setCell ci (f (t.cell ci))).settleCell tid ci

/-- A wait that has been answered ends: D is written, the acquire performed, and the lanes continue; a wait whose
cell was given another kind, or no longer knows its producer, traps (R303 to R305). -/
def State.wakeOne (s : State) (slot ticket : Nat) : State :=
  match s.waiters.find? fun w => w.ticket == ticket && w.slot == slot with
  | none => s
  | some w =>
    if w.sat.isNone && w.wrong == 0 then s
    else
      let s1 := { s with waiters := s.waiters.filter fun x => x.ticket != ticket }
      let g := s1.group slot
      let b := g.blocked.find? fun b => b.why == .cell ticket
      let pc := (b.map Blocked.pc).getD w.next
      let s2 := s1.setGroup slot { g with blocked := g.blocked.filter fun b => b.why != .cell ticket }
      match w.sat with
      | none => s2.trapAt slot w.mask pc none 7 w.wrong w.name.toNat
      | some v =>
        let g2 := s2.group slot
        let g3 := match w.dst with
          | .uni i => g2.setU i.toNat v
          | .spc i => g2.onMask w.lanes fun x => x.setP i.toNat (v != 0)
          | _ => g2
        let g4 := g3.onMask w.mask fun x => { x with pc := w.next, resumed := false, since := 0 }
        let g5 := match b with
          | some b => g4.passed b w.mask
          | none => g4
        let s3 := s2.setGroup slot g5
        match w.acq with
        | some sc => s3.acquire slot sc
        | none => s3

/-- The answered waits of a group at one cell end together: each is ready within T_cwake of the update (R304). -/
def State.wake (s : State) (slot ticket : Nat) : State :=
  match s.waiters.find? fun w => w.ticket == ticket && w.slot == slot with
  | none => s
  | some w =>
    let mates := s.waiters.filter fun x =>
      x.slot == slot && x.tid == w.tid && x.cell == w.cell && x.ticket != ticket && x.sat.isSome
    if w.sat.isNone then s.wakeOne slot ticket
    else mates.foldl (fun s x => s.wakeOne slot x.ticket) (s.wakeOne slot ticket)

/-! ### Signals of agents -/

/-- Apply a signal to a cell (R300): none where the cell is not of the kind the command names, or not SEM or BAR where it
names none (R257). -/
def Cell.signal (c : Cell) (x : Sig) : Option Cell :=
  if x.want.isSome && x.want != some c.kind then none
  else match c.kind with
    | .sem => some { c with w0 := c.w0 + x.add }
    | .bar => some ((if x.status ≠ 0 then c.fail x.status else c).arrive x.arr)
    | .ring => if x.want.isSome then some (c.publish 1) else none
    | _ => none

/-- Every thread of the team has exited (R297); stores its groups leave behind stand under slots of their own. -/
def State.teamExited (s : State) (tid : Nat) : Bool :=
  let t := s.team tid
  t.saved.isEmpty && t.slots.all fun k => decide (196608 ≤ k) || (s.group k).lanes.all fun x => x.exited

/-- Deliver a signal to a cell of a team: held while the team is stopped (R301), discarded and recorded when the team
has ended or the cell cannot take it (R92, R214, R257). -/
def State.signal (s : State) (tid : Nat) (x : Sig) : State :=
  let t := s.team tid
  let gone : State := s.record 8 1 (s.core t.core).num (BitVec.ofNat 64 t.grid) (BitVec.ofNat 64 x.cell)
  if !t.used || t.dead || s.teamExited tid then gone
  else if t.st == .stopped then s.modTeam tid fun t => { t with held := t.held ++ [x] }
  else match (t.cell x.cell).signal x with
    | some c => s.cellOp tid x.cell fun _ => c
    | none => gone

/-- The core frees the cells of a team with its last thread; who waits at one of them from another team of the cluster
finds a cell without a kind (R297, R305). -/
def State.freeCells (s : State) (tid : Nat) : State :=
  ((List.range 64).foldl (fun s i => s.cellOp tid i fun _ => Cell.reset) s).modTeam tid fun t => { t with cells := [] }

/-! ### Names and checks -/

/-- The name an instruction gives: from its handle or from A (R298, R302, R306). -/
def cellName (s : State) (o : CellOps) : Word :=
  if o.huse then (s.curG.hreg o.hidx.toNat).extractLsb' 0 11 |>.zeroExtend 32 else src s s.curG o.imm o.a 0

/-- Team that owns the cell a name denotes: the issuing team, or the team at the rank; none where no such team
exists any more. -/
def cellOwner (s : State) (n : Word) : Option Nat :=
  let tid := s.curG.tid
  if bitAt n.toNat 10 then s.mate tid (bits n.toNat 6 4) else some tid

/-- Checks 0x04 (unbound), 0x01 and 0x02 of R303 in their order; 0x02 for RMT on a form that takes only the team's own
cells. The address is the cell name, or 0 for an unbound handle. -/
def nameCheck (s : State) (o : CellOps) (ownOnly : Bool) : Option (Nat × Nat) :=
  let k := (s.gridOf s.cur.slot).k
  let n := (cellName s o).toNat
  if o.huse && !(s.curG.hreg o.hidx.toNat).getLsbD 15 then some (4, 0)
  else if n / 2 ^ 11 ≠ 0 ∨ (!bitAt n 10 ∧ bits n 6 4 ≠ 0) ∨ k.cells ≤ bits n 0 6 then some (1, n)
  else if bitAt n 10 && (ownOnly || decide (k.clw * k.clh ≤ bits n 6 4)) then some (2, n)
  else none

/-- Run a class 0xA instruction: nothing without an active lane; the name checks; the kind check (0x03); the further
check `extra`; the release of `.rel`; then `act` on the owner, the cell index and the cell (R303, R304). -/
def State.cellInstr (s : State) (h : Hdr) (o : CellOps) (kind : Option CellKind)
    (extra : Nat → Cell → Option Nat) (act : State → Nat → Nat → Cell → State) : Out' :=
  match activeLanes s h with
  | [] => .next s.advance
  | _ =>
    match nameCheck s o false with
    | some (d, a) => .next (s.trap 7 d a)
    | none =>
      let n := cellName s o
      let ci := bits n.toNat 0 6
      match cellOwner s n with
      | none => .next (s.trap 7 3 n.toNat)
      | some tid =>
        let c := (s.team tid).cell ci
        let wrong := match kind with
          | some k => c.kind != k
          | none => false
        if wrong then .next (s.trap 7 3 n.toNat)
        else match extra tid c with
          | some d => .next (s.trap 7 d n.toNat)
          | none =>
            if o.ord == .rel then
              let (ready, s1) := s.release s.cur.slot s.fresh o.scope
              if ready then .next (act s1 tid ci c) else .next (s1.block s.cur.mask .release)
            else .next (act s tid ci c)

/-- A waiting operation: join the waiters of the cell, answer those that can be, and continue at once when this one was
(R304). -/
def State.await (s : State) (h : Hdr) (o : CellOps) (tid ci : Nat) (op : WaitOp) : State :=
  let (ticket, s1) := s.freshId
  let w : Waiter :=
    { ticket, slot := s.cur.slot, mask := s.cur.mask, lanes := lanesMask (activeLanes s h), tid, cell := ci,
      name := cellName s o, op, dst := o.d, acq := if o.ord == .acq then some o.scope else none,
      next := s.cur.next, sat := none, wrong := 0 }
  let s2 := s1.block s.cur.mask (.cell ticket)
  (State.settleCell { s2 with waiters := s2.waiters ++ [w] } tid ci).wake s.cur.slot ticket

/-! ### CELLCFG, CELLRD and handles -/

/-- A cell as CELLCFG leaves it (R299, R305). -/
def Cell.configured (k : CellKind) (c0 c1 : Word) : Cell :=
  let c : Cell := { Cell.reset with kind := k, cfg0 := c0, cfg1 := c1 }
  match k with
  | .none => Cell.reset
  | .sem => { c with w0 := c0 }
  | .bar => { c with w1 := c0 }
  | .ring => { c with w0 := c1, w1 := c1, w2 := c0 }
  | .queue =>
    { c with w1 := c0, w2 := c1,
             allow := Tab.setSeq 0 [] 0 (List.replicate (bits c1.toNat 13 4 + 1) (bits c1.toNat 17 15)) }

/-- The limits of R305. -/
def cfgOk (k : CellKind) (scratch : Nat) (c0 c1 : Word) : Bool :=
  match k with
  | .sem => c1 == 0
  | .bar => c1 == 0 && decide (1 ≤ c0.toNat ∧ c0.toNat ≤ 0x7FFFFFFF)
  | .ring => decide (1 ≤ c0.toNat ∧ c0.toNat ≤ 256)
  | .queue =>
    let c := bits c1.toNat 0 13
    let p := bits c1.toNat 13 4 + 1
    let a0 := bits c1.toNat 17 15
    decide (c0.toNat % 8 = 0 ∧ 1 ≤ c ∧ c ≤ 4096 ∧ 1 ≤ a0 ∧ p * a0 ≤ c ∧ c0.toNat + 8 * c ≤ scratch)
  | .none => true

/-- CELLCFG.kind (R305): repeating the configuration a cell has does nothing. -/
def State.cellcfg (s : State) (h : Hdr) (o : CellOps) (k : CellKind) : Out' :=
  match activeLanes s h with
  | [] => .next s.advance
  | _ =>
    let n := cellName s o
    match nameCheck s o true with
    | some (d, a) => .next (s.trap 7 d a)
    | none =>
      let tid := s.curG.tid
      let ci := bits n.toNat 0 6
      let c0 := src s s.curG 0 o.b 0
      let c1 := src s s.curG 0 (Opnd.plus o.b 1) 0
      if k == .none then .next ((s.cellOp tid ci fun _ => Cell.reset).advance)
      else if !cfgOk k (s.gridOf s.cur.slot).k.scratch c0 c1 then .next (s.trap 7 5 n.toNat)
      else
        let c := (s.team tid).cell ci
        if c.kind == k && c.cfg0 == c0 && c.cfg1 == c1 then .next s.advance
        else .next ((s.cellOp tid ci fun _ => Cell.configured k c0 c1).advance)

/-- CELLCFG.free. -/
def execCellcfgFree (h : Hdr) (o : CellOps) (s : State) : Out' := s.cellcfg h o .none
/-- CELLCFG.sem. -/
def execCellcfgSem (h : Hdr) (o : CellOps) (s : State) : Out' := s.cellcfg h o .sem
/-- CELLCFG.bar. -/
def execCellcfgBar (h : Hdr) (o : CellOps) (s : State) : Out' := s.cellcfg h o .bar
/-- CELLCFG.ring. -/
def execCellcfgRing (h : Hdr) (o : CellOps) (s : State) : Out' := s.cellcfg h o .ring
/-- CELLCFG.queue. -/
def execCellcfgQueue (h : Hdr) (o : CellOps) (s : State) : Out' := s.cellcfg h o .queue

/-- Layout of a handle (R306). -/
def handleOf (n : Word) (p : Nat) (cursor : Word) : DWord :=
  BitVec.ofNat 64 (n.toNat % 2048 + p % 16 * 2 ^ 11 + 2 ^ 15 + cursor.toNat * 2 ^ 32)
/-- CURSOR and producer index of a handle. -/
def cursorOf (x : DWord) : Word := x.extractLsb' 32 32
def producerOf (x : DWord) : Nat := bits x.toNat 11 4
/-- Replace the CURSOR of a handle. -/
def Group.setCursor (g : Group) (i : Nat) (w : Word) : Group :=
  g.setH i (BitVec.ofNat 64 ((g.hreg i).toNat % 2 ^ 32 + w.toNat * 2 ^ 32))

/-- CELLCFG.bind (R306). -/
def execCellcfgBind (h : Hdr) (o : CellOps) (s : State) : Out' :=
  match activeLanes s h with
  | [] => .next s.advance
  | _ =>
    let n := cellName s o
    match nameCheck s o false with
    | some (d, a) => .next (s.trap 7 d a)
    | none =>
      let c := match cellOwner s n with
        | some tid => (s.team tid).cell (bits n.toNat 0 6)
        | none => Cell.reset
      let p := (src s s.curG 0 o.b 0).toNat
      let cur := src s s.curG 0 (Opnd.plus o.b 1) 0
      if c.kind == .ring then
        .next ((s.setCurG (s.curG.setH o.hidx.toNat (handleOf n 0 cur))).advance)
      else if c.kind == .queue then
        if p < c.producers then .next ((s.setCurG (s.curG.setH o.hidx.toNat (handleOf n p cur))).advance)
        else .next (s.trap 7 5 n.toNat)
      else .next (s.trap 7 3 n.toNat)

/-- CELLCFG.unbind (R306). -/
def execCellcfgUnbind (h : Hdr) (o : CellOps) (s : State) : Out' :=
  match activeLanes s h with
  | [] => .next s.advance
  | _ => .next ((s.setCurG (s.curG.setH o.hidx.toNat 0)).advance)

/-- KIND field of W3 (R299). -/
def CellKind.code : CellKind → Nat
  | .none => 0
  | .sem => 1
  | .bar => 2
  | .ring => 3
  | .queue => 4

/-- State word `i` of a cell, W3 with KIND (R299). -/
def Cell.word (c : Cell) (i : Nat) : Word :=
  match i with
  | 0 => c.w0
  | 1 => c.w1
  | 2 => c.w2
  | _ => c.w3 ||| BitVec.ofNat 32 (CellKind.code c.kind * 2 ^ 29)

/-- CELLRD (R307). -/
def execCellrd (h : Hdr) (o : CellOps) (s : State) : Out' :=
  s.cellInstr h o none (fun _ _ => none) fun s _ _ c =>
    (s.setD o.d (c.word (src s s.curG o.imm o.b 0).toNat)).advance

/-! ### Semaphores and barriers -/

/-- The exact sum of a count operand over the active lanes (R304). -/
def laneSum (s : State) (h : Hdr) (o : CellOps) : Nat :=
  (activeLanes s h).foldl (fun n l => n + (src s s.curG o.imm o.b l).toNat) 0

/-- SEMSIG (R308). -/
def execSemsig (h : Hdr) (o : CellOps) (s : State) : Out' :=
  s.cellInstr h o (some .sem) (fun _ _ => none) fun s tid ci _ =>
    (s.cellOp tid ci fun c => { c with w0 := c.w0 + BitVec.ofNat 32 (laneSum s h o) }).advance

/-- SEMWAIT (R308). -/
def execSemwait (h : Hdr) (o : CellOps) (s : State) : Out' :=
  s.cellInstr h o (some .sem) (fun _ _ => none) fun s tid ci _ =>
    s.await h o tid ci (.sem (src s s.curG o.imm o.b 0) o.flag)

/-- BARARV: D receives the phase before the arrival (R309). -/
def execBararv (h : Hdr) (o : CellOps) (s : State) : Out' :=
  s.cellInstr h o (some .bar) (fun _ _ => none) fun s tid ci c =>
    ((s.cellOp tid ci fun c => c.arrive (laneSum s h o)).setD o.d c.w2).advance

/-- BARWAIT (R310). -/
def execBarwait (h : Hdr) (o : CellOps) (s : State) : Out' :=
  s.cellInstr h o (some .bar) (fun _ _ => none) fun s tid ci _ =>
    s.await h o tid ci (.bar (src s s.curG o.imm o.b 0))

/-! ### Rings -/

/-- Sequence number: CURSOR of the handle, or B (R311). -/
def seqNum (s : State) (o : CellOps) : Word :=
  if o.huse then cursorOf (s.curG.hreg o.hidx.toNat) else src s s.curG o.imm o.b 0

/-- RINGPUB (R311). -/
def execRingpub (h : Hdr) (o : CellOps) (s : State) : Out' :=
  let n := src s s.curG o.imm o.b 0
  s.cellInstr h o (some .ring)
    (fun _ c => if n = 0 ∨ c.w2.toNat % 512 < n.toNat then some 7 else none) fun s tid ci _ =>
    let s1 := s.cellOp tid ci fun c => c.publish n
    (if o.huse then
      s1.setCurG (s1.curG.setCursor o.hidx.toNat (cursorOf (s1.curG.hreg o.hidx.toNat) + n))
     else s1).advance

/-- RINGAWT.data (R311). -/
def execRingawtData (h : Hdr) (o : CellOps) (s : State) : Out' :=
  s.cellInstr h o (some .ring) (fun _ _ => none) fun s tid ci _ =>
    s.await h o tid ci (.ringData (seqNum s o))

/-- RINGAWT.free (R311). -/
def execRingawtFree (h : Hdr) (o : CellOps) (s : State) : Out' :=
  s.cellInstr h o (some .ring) (fun _ _ => none) fun s tid ci _ =>
    s.await h o tid ci (.ringFree (seqNum s o))

/-- RINGREL (R311). -/
def execRingrel (h : Hdr) (o : CellOps) (s : State) : Out' :=
  s.cellInstr h o (some .ring) (fun _ _ => none) fun s tid ci c =>
    let n := seqNum s o
    let r := c.release n
    let s1 := s.cellOp tid ci fun _ => r.2
    (if o.huse && r.1 then s1.setCurG (s1.curG.setCursor o.hidx.toNat (n + 1)) else s1).advance

/-! ### Queues -/

/-- QPUSH (R312). -/
def execQpush (h : Hdr) (o : CellOps) (s : State) : Out' :=
  let p := producerOf (s.curG.hreg o.hidx.toNat)
  s.cellInstr h o (some .queue) (fun _ c => if c.producers ≤ p then some 4 else none) fun s tid ci _ =>
    s.await h o tid ci (.push p (src s s.curG o.imm o.b 0))

/-- QPOP (R312). -/
def execQpop (h : Hdr) (o : CellOps) (s : State) : Out' :=
  s.cellInstr h o (some .queue) (fun _ _ => none) fun s tid ci _ => s.await h o tid ci .pop

end Sys2Proof.Machine
end

