-- ==== Sys2Proof/Machine/Matrix.lean ====
section
/-! DEFINITION. Class 0xB: shelves and their images (R205 to R220), the matrix instructions (R221 to R225) and tile
predicates (R226 to R228). -/

namespace Sys2Proof.Machine

/-! ### Weight images -/

/-- Element type of a shelf format (R209). -/
def shTy : Nat → Ty
  | 0 => .e2m1
  | 1 => .e4m3
  | 2 => .e5m2
  | 3 => .bf16
  | 4 => .f16
  | 5 => .i8
  | 8 => .e2m1
  | 9 => .e4m3
  | _ => .i8

/-- The format code is defined (R209). -/
def shFmtOk (f : Nat) : Bool := f ≤ 5 || f == 8 || f == 9 || f == 13
/-- 2:4 format. -/
def shSparse (f : Nat) : Bool := 8 ≤ f
/-- Columns one MMA consumes (R209, R221). -/
def shStep : Nat → Nat
  | 0 => 32
  | 3 => 8
  | 4 => 8
  | 8 => 64
  | 9 => 32
  | 13 => 32
  | _ => 16
/-- The format has band scales. -/
def shBanded (f : Nat) : Bool := f == 0 || f == 1 || f == 2 || f == 8 || f == 9
/-- The format has block scales. -/
def shScaled (f : Nat) : Bool := f == 0 || f == 8

/-- Element width in bits. -/
def shW (f : Nat) : Nat := tyWidth (shTy f)
/-- Stored elements per row (R210). -/
def shKw (f k : Nat) : Nat := if shSparse f then k / 2 else k
def up32 (x : Nat) : Nat := cdiv x 32 * 32

/-- Offsets of the planes and length of the image (R210). -/
def imgOS (f n k : Nat) : Nat := up32 (n * shKw f k * shW f / 8)
def imgOM (f n k : Nat) : Nat := imgOS f n k + up32 (if shScaled f then n * shKw f k / 8 else 0)
def imgOB (f n k : Nat) : Nat := imgOM f n k + up32 (if shSparse f then n * k / 8 else 0)
def imgL (f n k : Nat) : Nat := imgOB f n k + (if shBanded f then 2 * cdiv n 64 else 0)

/-- Bytes of a shelf. -/
def State.shBytes (s : State) (t : Team) (x : Shelf) (off n : Nat) : Nat :=
  leNat ((List.range n).map fun i => s.readLoc (t.scrLoc (x.m0 * 65536 + off + i)))

/-- One weight of a term: activation index, element code, and scale factor. -/
abbrev Term := Nat × Nat × Exact

/-- Element code of row `r`, stored column `j`. -/
def State.shElem (s : State) (t : Team) (x : Shelf) (r j : Nat) : Nat :=
  let bit := (r * shKw x.fmt x.klen + j) * shW x.fmt
  if shW x.fmt = 4 then bits (s.shBytes t x (bit / 8) 1) (bit % 8) 4
  else s.shBytes t x (bit / 8) (shW x.fmt / 8)

/-- Scale factor of an element: block scale times band scale, where the format has them (R223). -/
def State.shScale (s : State) (t : Team) (x : Shelf) (r j : Nat) : Exact :=
  let band : Exact := if shBanded x.fmt then
      fmtB16.decode (s.shBytes t x (imgOB x.fmt x.nrows x.klen + 2 * (r / 64)) 2)
    else Exact.ofInt 1
  if shScaled x.fmt then
    Exact.mul (decE3M5 (s.shBytes t x
      (imgOS x.fmt x.nrows x.klen + r * (shKw x.fmt x.klen / 8) + j / 8) 1)) band
  else band

/-- Metadata nibble of group `g` of row `r` (R210, R225). -/
def State.shMeta (s : State) (t : Team) (x : Shelf) (r g : Nat) : Nat :=
  bits (s.shBytes t x (imgOM x.fmt x.nrows x.klen + r * (x.klen / 8) + g / 2) 1) (g % 2 * 4) 4

/-- Terms of row `r` in K-step `ks`, and whether a group is irregular (R223, R225). -/
def State.rowTerms (s : State) (t : Team) (x : Shelf) (r ks : Nat) : List Term × Bool :=
  let k := shStep x.fmt
  if shSparse x.fmt then
    let gs := (List.range (k / 4)).map fun g =>
      let gg := ks * k / 4 + g
      let m := s.shMeta t x r gg
      let i0 := m % 4
      let i1 := m / 4
      ([(4 * g + i0, s.shElem t x r (2 * gg), s.shScale t x r (2 * gg)),
        (4 * g + i1, s.shElem t x r (2 * gg + 1), s.shScale t x r (2 * gg + 1))], decide (i1 ≤ i0))
    (gs.flatMap Prod.fst, gs.any Prod.snd)
  else
    ((List.range k).map fun i => (i, s.shElem t x r (ks * k + i), s.shScale t x r (ks * k + i)), false)

/-- Value of an element code as a weight or activation. -/
def elemExact (f c : Nat) (unsigned : Bool) : Exact :=
  if shTy f == .i8 then
    Exact.ofInt (if unsigned then (c : Int) else if c < 128 then (c : Int) else (c : Int) - 256)
  else (tyFmt (shTy f)).decode c

/-- Integer value of an I8 code. -/
def i8Int (c : Nat) (unsigned : Bool) : Int :=
  if unsigned || c < 128 then (c : Int) else (c : Int) - 256

/-- MatRound (R223). `act` gives an activation's code and scale; every activation of the K-step counts for the NaN
rule, also one that no 2:4 group selects. -/
def matRound (f : Nat) (acc : Word) (ts : List Term) (act : Nat → Nat × Exact) : Word × Fl :=
  let a := f32 acc
  let xs := ts.map fun p => (elemExact f (act p.1).1 false, (act p.1).2, elemExact f p.2.1 false, p.2.2)
  let anyNan := (List.range (shStep f)).any fun k => (elemExact f (act k).1 false).isNan
  if a.isNan || anyNan || xs.any fun x => x.2.2.1.isNan then (nan32, 0)
  else
    let sum := xs.foldl (fun z x => Exact.add false z
      (Exact.mul (Exact.mul x.1 x.2.1) (Exact.mul x.2.2.1 x.2.2.2))) a
    match sum with
    | .nan => (nan32, flIV)
    | z => if z.isZero then (0, 0) else toF32 .rne z

/-- The integer form (R223). -/
def matInt (acc : Word) (ts : List Term) (act : Nat → Nat) (au sat : Bool) : Word :=
  let x := ts.foldl (fun z p => z + i8Int (act p.1) au * i8Int p.2.1 false) acc.toInt
  if sat then BitVec.ofInt 32 (max (-(2 ^ 31)) (min x (2 ^ 31 - 1))) else BitVec.ofInt 32 x

/-- One result of a matrix instruction (R223): the chain's accumulator `acc` and one row of one K-step. -/
def matOne (f : Nat) (acc : Word) (row : List Term × Bool) (act : Nat → Nat × Exact) (au sat : Bool) : LaneRes :=
  let spx := flIf row.2 flSPX
  if shTy f == .i8 then ([matInt acc row.1 (fun i => (act i).1) au sat], spx)
  else
    let r := matRound f acc row.1 act
    ([r.1], r.2 ||| spx)

/-- Byte ranges of the shelf that row `r` of K-step `ks` reads. -/
def rowRanges (x : Shelf) (r ks : Nat) : List (Nat × Nat) :=
  let k := shKw x.fmt (shStep x.fmt)
  let kw := shKw x.fmt x.klen
  [((r * kw + ks * k) * shW x.fmt / 8, k * shW x.fmt / 8)] ++
  (if shScaled x.fmt then [(imgOS x.fmt x.nrows x.klen + r * (kw / 8) + ks * k / 8, k / 8)] else []) ++
  (if shSparse x.fmt then
    [(imgOM x.fmt x.nrows x.klen + r * (x.klen / 8) + ks * shStep x.fmt / 8, shStep x.fmt / 8)] else []) ++
  (if shBanded x.fmt then [(imgOB x.fmt x.nrows x.klen + 2 * (r / 64), 2)] else [])

/-- Sectors (shelf offsets) that 16 rows of a K-step read. -/
def blockSectors (x : Shelf) (r0 ks : Nat) : List Nat :=
  (((List.range 16).flatMap fun n => rowRanges x (r0 + n) ks).flatMap fun p =>
    (List.range ((p.1 + p.2 - 1) / 32 - p.1 / 32 + 1)).map fun i => p.1 / 32 + i).eraseDups

/-- First sector with a storage error, and first in a pair of macros both mapped out (R220). -/
def State.badSector (s : State) (t : Team) (x : Shelf) (secs : List Nat) : Option Nat :=
  if s.poisonScr.isEmpty then none
  else secs.find? fun k => s.poisoned (t.scrLoc (x.m0 * 65536 + 32 * k))
def State.deadSector (s : State) (t : Team) (x : Shelf) (secs : List Nat) : Option Nat :=
  let outs := (s.core t.core).mapout
  if outs.isEmpty then none
  else secs.find? fun k => match t.scrLoc (x.m0 * 65536 + 32 * k) with
    | .scr _ a => outs.contains (a / 65536) && outs.contains ((a / 65536) ^^^ 1)
    | _ => false

/-- Start the reload of one sector from SRC: the shelf is LOADING for it (R208, R220). -/
def State.reloadSector (s : State) (tid i k : Nat) : State :=
  let (id, s1) := s.freshId
  let t := s.team tid
  let c : Cmd := { id, kind := .wload, tid, core := t.core, pasid := (s.grid t.grid).pasid, grid := t.grid,
                   serial := 0, words := [], st := .running, slot := 0, mark := 0, pos := 0, cnt0 := 0, cnt1 := 0,
                   cnt2 := 0, aux0 := i, aux1 := 64, aux2 := 2, aux3 := 32 * k, cause := 0, owns := [], pins := [],
                   data := [], tag := none }
  State.modTeam { s1 with cmds := s1.cmds ++ [c] } tid fun t => t.setShelf i { t.shelf i with st := .loading }

/-- Code of an activation: element `k` of the span at A (R223). -/
def actCode (s : State) (g : Group) (o : MatOps) (f l k : Nat) : Nat :=
  let bit := k * shW f
  bits (src s g 0 (Opnd.plus o.a (bit / 32)) l).toNat (bit % 32) (shW f)

/-- Scale of an activation: the code of block `k div 8` in the scale span, for the F4B forms (R69, R223). -/
def actScale (s : State) (g : Group) (o : MatOps) (f l k : Nat) : Exact :=
  if shScaled f then
    let b := o.sb.toNat + k / 8
    decE3M5 (bits (src s g 0 (.vec (o.sreg + BitVec.ofNat 8 (b / 4))) l).toNat (b % 4 * 8) 8)
  else Exact.ofInt 1

/-- The nine matrix instructions (R223, R224). -/
def State.mma (s : State) (h : Hdr) (o : MatOps) (f : Nat) : Out' :=
  match activeLanes s h with
  | [] => .next s.advance
  | lanes =>
    let g := s.curG
    let t := s.team g.tid
    let sel := (src s g 0 o.b 0).toNat
    let i := bits sel 0 4
    let r0 := 16 * bits sel 4 12
    let ks := bits sel 16 10
    if o.tq && !(g.qreg o.qi.toNat).getLsbD (bits sel 26 6) then .next s.advance
    else
      let x := t.shelf i
      if x.st == .free || x.st == .empty || x.st == .failed || x.fmt != f || decide (x.nrows < r0 + 16) ||
          decide (x.klen < (ks + 1) * shStep f) then .next (s.trap 6 2 i)
      else if x.st == .loading then .next (s.block s.cur.mask (.shelf i))
      else
        let secs := blockSectors x r0 ks
        match s.deadSector t x secs with
        | some k => .next (s.trap 8 3 (x.m0 * 65536 + 32 * k))
        | none =>
          match s.badSector t x secs with
          | some k =>
            if x.nrl then .next ((s.logError (t.scrLoc (x.m0 * 65536 + 32 * k))).trap 8 3 (x.m0 * 65536 + 32 * k))
            else .next ((s.reloadSector g.tid i k).block s.cur.mask (.shelf i))
          | none =>
            let rows := (List.range 16).map fun n => s.rowTerms t x (r0 + n) ks
            let one (l n : Nat) (row : List Term × Bool) : LaneRes :=
              let acc := match o.c with
                | .con _ => 0
                | c => src s g 0 (Opnd.plus c n) l
              matOne f acc row (fun k => (actCode s g o f l k, actScale s g o f l k)) o.au o.sat
            let lane (l : Nat) : Nat × LaneRes :=
              let rs := rows.zipIdx.map fun p => one l p.2 p.1
              (l, rs.flatMap Prod.fst, rs.foldl (fun z r => z ||| r.2) 0)
            .next ((s.setCurG (writeRes o.d g (lanes.map lane))).advance)

/-- MMA.F4B. -/
def execMmaF4b (h : Hdr) (o : MatOps) (s : State) : Out' := s.mma h o 0
/-- MMA.F8A. -/
def execMmaF8a (h : Hdr) (o : MatOps) (s : State) : Out' := s.mma h o 1
/-- MMA.F8B. -/
def execMmaF8b (h : Hdr) (o : MatOps) (s : State) : Out' := s.mma h o 2
/-- MMA.B16. -/
def execMmaB16 (h : Hdr) (o : MatOps) (s : State) : Out' := s.mma h o 3
/-- MMA.H16. -/
def execMmaH16 (h : Hdr) (o : MatOps) (s : State) : Out' := s.mma h o 4
/-- MMA.I8. -/
def execMmaI8 (h : Hdr) (o : MatOps) (s : State) : Out' := s.mma h o 5
/-- MMASP.F4B. -/
def execMmaspF4b (h : Hdr) (o : MatOps) (s : State) : Out' := s.mma h o 8
/-- MMASP.F8A. -/
def execMmaspF8a (h : Hdr) (o : MatOps) (s : State) : Out' := s.mma h o 9
/-- MMASP.I8. -/
def execMmaspI8 (h : Hdr) (o : MatOps) (s : State) : Out' := s.mma h o 13

/-! ### Macros -/

/-- Teams resident on a core. -/
def State.residents (s : State) (core : Nat) : List Nat :=
  (s.teams.filter fun e => e.2.used && e.2.core == core && (e.2.st == .running || e.2.st == .stopping)).map Prod.fst

/-- Macros no resident team and no retained copy uses. -/
def State.freeMacros (s : State) (core : Nat) : List Nat :=
  let used := ((s.residents core).flatMap fun i => (s.team i).macs.map Prod.snd) ++
    ((s.retained.filter fun r => r.core == core).flatMap Retained.macs)
  (List.range 32).filter fun m => !used.contains m

/-- Macros of retained copies, least recently used copy first. -/
def State.retMacros (s : State) (core : Nat) : List Nat :=
  (sortBy Retained.used (s.retained.filter fun r => r.core == core)).flatMap Retained.macs

/-- Mapped-out macros of the pair of `m` (R220). -/
def pairOuts (outs : List Nat) (m : Nat) : Nat :=
  (if outs.contains m then 1 else 0) + (if outs.contains (m ^^^ 1) then 1 else 0)

/-- The order in which a shelf obtains macros (R213); a declared area may use any (`all`). -/
def State.macroOrder (s : State) (core : Nat) (all : Bool) : List Nat :=
  let outs := (s.core core).mapout
  let fr := s.freeMacros core
  let re := s.retMacros core
  let pick (k : Nat) (l : List Nat) : List Nat := l.filter fun m => pairOuts outs m == k
  pick 0 fr ++ pick 0 re ++ pick 1 fr ++ pick 1 re ++ (if all then pick 2 fr ++ pick 2 re else [])

/-- Clear macros to zero, and end errors in them (R207). -/
def State.clearMacros (s : State) (core : Nat) (ms : List Nat) : State :=
  let isIn (a : Nat) : Bool := a / 2 ^ 21 == core && ms.contains (a % 2 ^ 21 / 65536)
  { s with scr := s.scr.filter fun e => !isIn e.1, poisonScr := s.poisonScr.filter fun k => !isIn (32 * k),
           retained := s.retained.filter fun r => !(r.core == core && r.macs.any ms.contains) }

/-- Give a team `n` macros for logical slots from `m0`, cleared; none when too few are available. -/
def State.takeMacros (s : State) (tid m0 n : Nat) (all : Bool) : Option State :=
  let t := s.team tid
  let ms := (s.macroOrder t.core all).take n
  if ms.length < n then none
  else some ((s.clearMacros t.core ms).modTeam tid fun t =>
    { t with macs := t.macs ++ (ms.zipIdx.map fun p => (m0 + p.2, p.1)) })

/-! ### STATION, UNSTAT and WLOAD -/

/-- Descriptor fields (R209). -/
def descShelf (d : Nat) : Shelf :=
  { st := .empty, src := bits d 0 56, fmt := bits d 64 4, nrl := bitAt d 72, m0 := bits d 80 5, nm := bits d 88 6,
    nrows := bits d 96 24, klen := bits d 128 24, ffp := none }

/-- The descriptor is well formed and fits the team's scratchpad (R209, R210, R212). -/
def descOk (t : Team) (scratch d : Nat) : Bool :=
  let x := descShelf d
  let k := shStep x.fmt
  bits d 56 8 == 0 && bits d 68 4 == 0 && bits d 73 7 == 0 && bits d 85 3 == 0 && bits d 94 2 == 0 &&
  bits d 120 8 == 0 && bits d 152 360 == 0 && x.src % 64 == 0 && shFmtOk x.fmt &&
  decide (1 ≤ x.nm ∧ x.nm ≤ 32) && decide (x.nrows % 16 = 0 ∧ 16 ≤ x.nrows ∧ x.nrows ≤ 65536) &&
  decide (x.klen % k = 0 ∧ x.klen ≤ 1024 * k) &&
  decide (imgL x.fmt x.nrows x.klen ≤ x.nm * 65536) && decide (x.m0 + x.nm ≤ 32) &&
  decide (scratch ≤ x.m0 * 65536) &&
  ((List.range 16).all fun i =>
    let y := t.shelf i
    y.st == .free || decide (y.m0 + y.nm ≤ x.m0 ∨ x.m0 + x.nm ≤ y.m0)) &&
  decide (t.macs.length + x.nm ≤ 32)

/-- Blocked STATIONs of a core: slot, ticket, index and descriptor, in order of issue. -/
def State.stations (s : State) (core : Nat) : List (Nat × Blocked × Nat × Nat × Nat) :=
  let all := (s.residents core).flatMap fun i => (s.team i).slots.flatMap fun slot =>
    (s.group slot).blocked.filterMap fun b => match b.why with
      | .station k i d => some (slot, b, k, i, d)
      | _ => none
  sortBy (fun e => e.2.2.1) all

/-- Remember a shelf source that the current run of a kernel names on a core (R88). -/
def State.noteSrc (s : State) (core : Nat) (kid : Word) (grid src : Nat) : State :=
  s.modCore core fun c =>
    { c with kids := c.kids.map fun e => if e.1 == kid && e.2.1 == grid then (kid, grid, src :: e.2.2) else e }

/-- A team of a run starts on a core: the run is the kernel's latest there (R88). Runs whose grid has retired go, as only the
latest counts. -/
def State.noteRun (s : State) (core : Nat) (kid : Word) (grid : Nat) : State :=
  let old := ((s.core core).kids.find? fun e => e.1 == kid && e.2.1 == grid).map fun e => e.2.2
  let live (e : Word × Nat × List Nat) : Bool := e.1 != kid || (e.2.1 != grid && s.grids.any fun g => g.num == e.2.1)
  s.modCore core fun c => { c with kids := (kid, grid, old.getD []) :: c.kids.filter live }

/-- Grant a blocked STATION: its index must still be FREE, else it traps; the shelf becomes EMPTY (R212). -/
def State.grant (s : State) (slot : Nat) (b : Blocked) (i d : Nat) : State :=
  let tid := (s.group slot).tid
  let t := s.team tid
  let off := s.modGroup slot fun g => { g with blocked := g.blocked.filter fun c => c != b }
  if (t.shelf i).st != .free || !descOk t (s.grid t.grid).k.scratch d then
    off.trapAt slot b.mask b.pc none 6 2 i
  else
    let x := descShelf d
    match off.takeMacros tid x.m0 x.nm false with
    | some s1 =>
      (((s1.modTeam tid fun t => t.setShelf i x).noteSrc t.core (s.grid t.grid).k.kid t.grid x.src).modGroup slot
        fun g => (g.onMask b.mask fun y => { y with pc := b.next, resumed := false, since := 0 }).passed b b.mask)
    | none => s

/-- An earlier STATION of the team waits on the same index: requests that name one index are applied in the order the core
receives them (R212). -/
def State.stationBefore (s : State) (e : Nat × Blocked × Nat × Nat × Nat) : Bool :=
  let tid := (s.group e.1).tid
  (s.stations (s.team tid).core).any fun x =>
    (s.group x.1).tid == tid && x.2.2.2.1 == e.2.2.2.1 && decide (x.2.2.1 < e.2.2.1)

/-- A blocked STATION can be answered now. -/
def State.grantable (s : State) (e : Nat × Blocked × Nat × Nat × Nat) : Bool :=
  let t := s.team (s.group e.1).tid
  !s.stationBefore e &&
    ((t.shelf e.2.2.2.1).st != .free || !descOk t (s.grid t.grid).k.scratch e.2.2.2.2 ||
      decide ((descShelf e.2.2.2.2).nm ≤ (s.macroOrder t.core false).length))

/-- When every team that holds macros waits in STATION and none can be answered, the one that issued last traps
(R213). -/
def State.stalemate (s : State) (core : Nat) : State :=
  let ws := s.stations core
  let holders := (s.residents core).filter fun i => !(s.team i).macs.isEmpty
  if !ws.isEmpty && !(ws.any s.grantable) &&
      holders.all fun i => ws.any fun e => (s.group e.1).tid == i then
    match ws.getLast? with
    | some (slot, b, _, i, _) =>
      (s.modGroup slot fun g => { g with blocked := g.blocked.filter fun c => c != b }).trapAt slot b.mask b.pc
        none 6 3 i
    | none => s
  else s

/-- STATION (R212): the group is blocked until the shelf is EMPTY, at once where macros are available. -/
def execStation (h : Hdr) (o : ShelfOps) (s : State) : Out' :=
  match activeLanes s h with
  | [] => .next s.advance
  | _ =>
    let slot := s.cur.slot
    let g := s.curG
    let t := s.team g.tid
    let i := (src s g 0 o.b 0).toNat
    if 15 < i ∨ (t.shelf i).st ≠ .free then .next (s.trap 6 2 i)
    else
      let a := srcAddr s g o.a
      if a % 64 ≠ 0 then .next (s.trap 2 1 a)
      else match s.isRead slot a 64 [] with
        | .inr (e, s1) => .next (s.isLeave s1 e)
        | .inl (d, s1) =>
          if !descOk t (s.grid t.grid).k.scratch d then .next (s.trap 6 2 i)
          else
            let (ticket, s2) := s1.freshId
            let s3 := s2.block s.cur.mask (.station ticket i d)
            match (s3.stations t.core).find? fun e => e.1 == slot && e.2.2.1 == ticket with
            | some e =>
              if s3.grantable e then .next (s3.grant slot e.2.1 i d) else .next (s3.stalemate t.core)
            | none => .next s3

/-- Fail a load in progress: the shelf becomes FAILED and its cell is signalled (R208, R214, R240). -/
def State.loadFail (s : State) (c : Cmd) (cause : Nat) : State :=
  let s1 := { s with cmds := s.cmds.filter fun x => x.id != c.id }
  let s2 := s1.modTeam c.tid fun t => t.setShelf c.aux0 { t.shelf c.aux0 with st := .failed }
  if c.aux1 < 64 then s2.signal c.tid { cell := c.aux1, add := 1, arr := 1, status := 0x80 + cause, want := none }
  else s2

/-- The load of a shelf that is LOADING. -/
def State.loadOf (s : State) (tid i : Nat) : Option Cmd :=
  s.cmds.find? fun c => c.tid == tid && (c.kind == .wload || c.kind == .ffpfch) && c.aux0 == i

/-- A tile task of the team's cluster that is running reads the shelf (R215, R263). -/
def State.shelfRead (s : State) (tid i : Nat) : Bool :=
  s.cmds.any fun c => c.kind == .tile && c.st == .running && c.aux0 == tid && c.aux1 == i

/-- Release a shelf's macros: a READY reloadable shelf that holds macros becomes a retained copy; the index becomes FREE
(R215, R216, R241). -/
def State.freeShelf (s : State) (tid i : Nat) : State :=
  let t := s.team tid
  let x := t.shelf i
  let mine := t.macs.filter fun m => decide (x.m0 ≤ m.1 ∧ m.1 < x.m0 + x.nm)
  let s1 := s.modTeam tid fun t =>
    { t.setShelf i Shelf.reset with macs := t.macs.filter fun m => !(decide (x.m0 ≤ m.1 ∧ m.1 < x.m0 + x.nm)) }
  if x.st == .ready && !x.nrl && x.ffp.isNone && !mine.isEmpty then
    let r : Retained := { core := t.core, pasid := (s.grid t.grid).pasid, src := x.src, fmt := x.fmt,
                          nrows := x.nrows, klen := x.klen, macs := mine.map Prod.snd, used := s.now }
    { s1 with retained := r :: s1.retained }
  else s1

/-- A cell that a command may signal: in range and SEM or BAR (R214, R233, R238). -/
def cellUsable (t : Team) (k : Kernel) (c : Nat) : Bool :=
  decide (c < k.cells) && ((t.cell c).kind == .sem || (t.cell c).kind == .bar)

/-- A command of the issuing group (R315): its owner, its place after the group's store queue, and its words. -/
def State.newCmd (s : State) (kind : CmdKind) (words : List Word) : Nat × Cmd :=
  let t := s.teamOf s.cur.slot
  (s.fresh,
   { id := s.fresh, kind, tid := s.curG.tid, core := t.core, pasid := s.pasidOf s.cur.slot, grid := t.grid,
     serial := 0, words, st := .accepted, slot := s.cur.slot, mark := s.fresh, pos := 0, cnt0 := 0, cnt1 := 0,
     cnt2 := 0, aux0 := 0, aux1 := 0, aux2 := 0, aux3 := 0, cause := 0, owns := [], pins := [], data := [],
     tag := none })

/-- Enter a command. -/
def State.addCmd (s : State) (c : Cmd) : State :=
  { s with cmds := s.cmds ++ [c], fresh := s.fresh + 1 }

/-- WLOAD (R214): a shelf becomes LOADING only after what still reads it (R224, R263). -/
def execWload (h : Hdr) (o : ShelfOps) (s : State) : Out' :=
  match activeLanes s h with
  | [] => .next s.advance
  | _ =>
    let g := s.curG
    let t := s.team g.tid
    let i := (src s g 0 o.b 0).toNat
    if 15 < i ∨ (t.shelf i).st = .free ∨ (t.shelf i).st = .loading then .next (s.trap 6 2 i)
    else if !cellUsable t (s.grid t.grid).k o.cell.toNat then .next (s.trap 7 8 o.cell.toNat)
    else if s.shelfRead g.tid i then .next (s.block s.cur.mask (.reading i))
    else
      let c := { (s.newCmd .wload []).2 with
                 aux0 := i, aux1 := o.cell.toNat, aux2 := if o.reuse then 1 else 0 }
      .next (((s.addCmd c).modTeam g.tid fun t =>
        t.setShelf i { t.shelf i with st := .loading, ffp := none }).advance)

/-! ### Tile predicates -/

/-- Set bit `b mod 64` of the mask of word `b div 64 − win`, where that is one of the masks (R227). -/
def qldPut (win nq b : Nat) (ms : List Nat) : List Nat :=
  if win ≤ b / 64 ∧ b / 64 < win + nq then
    ms.zipIdx.map fun p => if p.2 = b / 64 - win then p.1 ||| 2 ^ (b % 64) else p.1
  else ms

/-- Read the indices of a row (R227). -/
def State.qldRow (s : State) (slot idx win nq : Nat) : Nat → Nat → List Nat → (List Nat × State) ⊕ (IsStop × State)
  | 0, _, ms => .inl (ms, s)
  | n + 1, e, ms =>
    match s.isRead slot ((idx + 2 * e) % 2 ^ 56) 2 [] with
    | .inr x => .inr x
    | .inl (b, s1) => s1.qldRow slot idx win nq n (e + 1) (qldPut win nq b ms)

/-- The masks QLD writes (R227). -/
def State.qldMasks (s : State) (slot a r win nq : Nat) : (List Nat × State) ⊕ (IsStop × State) :=
  match s.isRead slot a 16 [] with
  | .inr x => .inr x
  | .inl (hd, s1) =>
    let zero := List.replicate nq 0
    if bits hd 0 32 ≤ r then .inl (zero, s1)
    else match s1.isRead slot ((a + 16 + 4 * r) % 2 ^ 56) 4 [] with
      | .inr x => .inr x
      | .inl (p0, s2) =>
        match s2.isRead slot ((a + 20 + 4 * r) % 2 ^ 56) 4 [] with
        | .inr x => .inr x
        | .inl (p1, s3) => s3.qldRow slot (bits hd 64 56) win nq (p1 - p0) p0 zero

/-- QLD (R227): the masks become outstanding, one per q register. -/
def execQld (h : Hdr) (o : TileOps) (s : State) : Out' :=
  match activeLanes s h with
  | [] => .next s.advance
  | _ =>
    let slot := s.cur.slot
    let g := s.curG
    let nq := (o.imm.extractLsb' 16 3).toNat + 1
    match s.qldMasks slot (srcAddr s g o.a) (src s g 0 o.b 0).toNat (o.imm.extractLsb' 0 16).toNat nq with
    | .inr (e, s1) => .next (s.isLeave s1 e)
    | .inl (ms, s1) =>
      let pl := ms.zipIdx.map fun p =>
        { lane := p.2, va := 0, datum := .words [BitVec.ofNat 32 p.1, BitVec.ofNat 32 (p.1 / 2 ^ 32)] : PLane }
      let f : Form := Form.plain 8
      .next ((s1.pending 2 (opndIdx o.d - 8) f none none pl).2.advance)

/-- Write a tile predicate once per subgroup when a lane is active. -/
def State.qset (s : State) (h : Hdr) (d : Opnd) (v : Group → DWord) : Out' :=
  match activeLanes s h with
  | [] => .next s.advance
  | _ => .next ((s.setCurG (s.curG.setQ (opndIdx d - 8) (v s.curG))).advance)

/-- QSET.v (R228). -/
def execQsetV (h : Hdr) (o : TileOps) (s : State) : Out' :=
  s.qset h o.d fun g => BitVec.ofNat 64 (srcPair s g 0 o.a 0)
/-- QSET.range (R228). -/
def execQsetRange (h : Hdr) (o : TileOps) (s : State) : Out' :=
  s.qset h o.d fun g =>
    let lo := (src s g 0 o.a 0).toNat
    let hi := min (src s g 0 o.b 0).toNat 64
    BitVec.ofNat 64 (if lo < hi then 2 ^ hi - 2 ^ lo else 0)
/-- QSET.all (R228). -/
def execQsetAll (h : Hdr) (o : TileOps) (s : State) : Out' := s.qset h o.d fun _ => BitVec.allOnes 64
/-- QSET.rd (R228). -/
def execQsetRd (h : Hdr) (o : TileOps) (s : State) : Out' :=
  match activeLanes s h with
  | [] => .next s.advance
  | _ =>
    let q := s.curG.qreg (opndIdx o.a - 8)
    .next ((s.setCurG (dstSpan s.curG o.d 0 [q.extractLsb' 0 32, q.extractLsb' 32 32])).advance)
/-- Bit `t` of QLOG: LUT[a + 2b + 4d] (R228). -/
def qlut (lut : Word) (a b d : DWord) : DWord :=
  BitVec.ofNat 64 ((List.range 64).foldl (fun z t =>
    let i := (if a.getLsbD t then 1 else 0) + (if b.getLsbD t then 2 else 0) + (if d.getLsbD t then 4 else 0)
    if lut.getLsbD i then z + 2 ^ t else z) 0)
/-- QLOG (R228). -/
def execQlog (h : Hdr) (o : TileOps) (s : State) : Out' :=
  s.qset h o.d fun g => qlut o.imm (g.qreg (opndIdx o.a - 8)) (g.qreg (opndIdx o.b - 8)) (g.qreg (opndIdx o.d - 8))

end Sys2Proof.Machine
end

