-- ==== Sys2Proof/Machine/Agent.lean ====
section
/-! DEFINITION. What every agent shares (R175, R315, R326): reading and writing global memory at the home, the host or
a peer, scratchpad ranges, owned lines, and ending a command. -/

namespace Sys2Proof.Machine

/-- What an agent's access gives: it is done, it must wait, or the command fails with a cause (R240, R258). -/
inductive Ag where
  | ok
  | wait
  | fail (cause : Nat)
  deriving DecidableEq, Repr

/-- The ranges of `n` bytes from `va`, one per 32-byte sector (addresses wrap modulo 2^56). -/
def chunks : Nat → Nat → Nat → List (Nat × Nat)
  | 0, _, _ => []
  | _, _, 0 => []
  | f + 1, va, n =>
    let k := min n (32 - va % 32)
    (va % 2 ^ 56, k) :: chunks f ((va + k) % 2 ^ 56) (n - k)

def chunksOf (va n : Nat) : List (Nat × Nat) := chunks (n / 32 + 2) va n

/-- Reader number under which the peer reads of the agent at work are kept apart from a core's L1, and from those of other
agents: no agent uses bytes that another asked for before it began (R326). -/
def State.reader (s : State) : Nat := 4000 + s.me.1

/-- Translate each range for reading (0) or writing (1): cause TRANSLATION or DATA on failure. -/
def State.agXl (s : State) (core pasid kind : Nat) (door : Bool) : List (Nat × Nat) →
    Ag × List (Nat × Loc × Nat) × State
  | [] => (.ok, [], s)
  | (va, n) :: cs =>
    let r := s.agentXl core pasid va kind
    match (if door then r.1 else r.1.thread) with
    | .hit l =>
      let rs := (r.2.touch core l).agXl core pasid kind door cs
      (rs.1, (va, l, n) :: rs.2.1, rs.2.2)
    | .bad _ => (.fail 1, [], r.2)
    | .data => (.fail 2, [], r.2)
    | _ => (.wait, [], r.2)

/-- Read translated ranges: errors are cause DATA; a peer's sectors are asked for and awaited (R368). -/
def State.agGet (s : State) (pasid : Nat) : List (Nat × Loc × Nat) → Ag × List Byte × State
  | [] => (.ok, [], s)
  | (va, l, n) :: rs =>
    let here : List Byte := (List.range n).map fun i => s.readLoc (l.next i)
    match l with
    | .peer p _ =>
      let key := l1key pasid va
      match s.peerAns s.reader key with
      | some (0, bs) =>
        let r := s.agGet pasid rs
        (r.1, (bs.drop (key % 32)).take n ++ r.2.1, r.2.2)
      | some (1, _) => (.fail 1, [], s)
      | some (_, _) => (.fail 2, [], s)
      | none =>
        if s.canSend p then
          let r := (s.askPeer s.reader true (key, l)).agGet pasid rs
          (match r.1 with
           | .ok => .wait
           | x => x, [], r.2.2)
        else (.fail 2, [], s)
    | _ =>
      if s.poisoned l then (.fail 2, [], s.logError l)
      else
        let r := s.agGet pasid rs
        (r.1, here ++ r.2.1, r.2.2)

/-- Read `n` bytes of global memory for an agent that reads more before it takes up the answers of peers. -/
def State.agPeek (s : State) (core pasid va n : Nat) : Ag × List Byte × State :=
  let x := s.agXl core pasid 0 false (chunksOf va n)
  match x.1 with
  | .ok => x.2.2.agGet pasid x.2.1
  | a => (a, [], x.2.2)

/-- The agent has taken up every answer it asked for. -/
def State.agDone (s : State) : State := { s with peerGot := s.peerGot.filter fun e => e.core != s.reader }

/-- Read `n` bytes of global memory for an agent; answers of peers are taken up when all is there. -/
def State.agRead (s : State) (core pasid va n : Nat) : Ag × List Byte × State :=
  let r := s.agPeek core pasid va n
  match r.1 with
  | .ok => (.ok, r.2.1, r.2.2.dropAns r.2.2.reader ((chunksOf va n).map fun c => l1key pasid c.1))
  | a => (a, [], r.2.2)

/-! ### Writing -/

/-- The core whose team launched a run by GLAUNCH; the hub's number for another run (R315). -/
def State.runCore (s : State) (run : Nat) : Nat :=
  match (s.runs.find? fun r => r.num == run).map Run.src with
  | some (.team tid _) => if (s.team tid).used then (s.team tid).core else hubCore
  | _ => hubCore

/-- The core on which a command was issued (R322): that of its team, or of the team that launched its node (R315). -/
def State.issuer (s : State) (c : Cmd) : Nat := if c.kind == .nodeCopy then s.runCore c.aux0 else c.core

/-- An agent takes lines from the issuing core: its clean copies of them go (R322). -/
def State.dropLines (s : State) (core : Nat) (lines : List Nat) : State :=
  if core < 200 then
    s.keepL1 core fun _ b => b.dirty || !(match b.loc with
      | .dev a => lines.contains (a / 128)
      | _ => false)
  else s

/-- A masked write within one 32-byte sector: the sector's number by virtual address, and its bytes. -/
abbrev SecWrite := Nat × List (Option Byte)

/-- Lay bytes over a sector from an offset. -/
def overlay (off : Nat) (bs : List Byte) (old : List (Option Byte)) : List (Option Byte) :=
  old.zipIdx.map fun p => if off ≤ p.2 then (match bs[p.2 - off]? with
    | some b => some b
    | none => p.1) else p.1

/-- Add the bytes of one chunk to the sectors written so far; later bytes replace earlier ones (R251). -/
def addChunk (acc : List SecWrite) (va : Nat) (bs : List Byte) : List SecWrite :=
  let k := va / 32
  if acc.any fun w => w.1 == k then acc.map fun w => if w.1 = k then (k, overlay (va % 32) bs w.2) else w
  else acc ++ [(k, overlay (va % 32) bs (List.replicate 32 none))]

/-- The sectors that segments of bytes write, each once. -/
def addChunks (acc : List SecWrite) : List (Nat × Nat) → List Byte → List SecWrite
  | [], _ => acc
  | c :: cs, bs => addChunks (addChunk acc c.1 (bs.take c.2)) cs (bs.drop c.2)
def sectorsOf (segs : List (Nat × List Byte)) : List SecWrite :=
  segs.foldl (fun acc s => addChunks acc (chunksOf s.1 s.2.length) s.2) []

/-- Perform sector writes at their places; a peer's leave as WR flits whose answers the command awaits (R175, R251). -/
def State.secPut (s : State) (grid cmd pasid : Nat) : List (Loc × SecWrite) → State
  | [] => s
  | (l, k, bs) :: rs =>
    match l with
    | .peer p a =>
      let (tag, s1) := s.freshId
      let o : Outst := { tag, dst := p, who := .cmd cmd, key := l1key pasid (32 * k) }
      let f : Flit := { Flit.blank 1 p with addr := a, tag, mask := bs.map Option.isSome, data := bs.map (·.getD 0) }
      ((State.sentTo { s1 with outst := s1.outst ++ [o] } grid p).sendFlit f).secPut grid cmd pasid rs
    | _ => (s.homeWrite l bs).secPut grid cmd pasid rs

/-- A write to a peer without a route fails (R368). -/
def State.noRoute (s : State) (ls : List (Loc × SecWrite)) : Bool :=
  ls.any fun x => match x.1 with
    | .peer p _ => !s.canSend p
    | _ => false

/-- Device lines of sector writes. -/
def secLines (ls : List (Loc × SecWrite)) : List Nat :=
  (ls.filterMap fun x => match x.1 with
    | .dev a => some (a / 128)
    | _ => none).eraseDups

/-- The sectors of the first window: as many as lie on up to 512 device lines (R175). -/
def firstWindow (lines : List Nat) : List (Loc × SecWrite) → List (Loc × SecWrite)
  | [] => []
  | x :: xs =>
    let ls := (lines ++ secLines [x]).eraseDups
    if 512 < ls.length then [] else x :: firstWindow ls xs

def State.setCmd (s : State) (c : Cmd) : State :=
  { s with cmds := s.cmds.map fun x => if x.id = c.id then c else x }
def State.cmd (s : State) (id : Nat) : Option Cmd := s.cmds.find? fun c => c.id == id

/-- Own lines for a command (R175, R322). -/
def State.ownLines (s : State) (c : Cmd) (lines : List Nat) : State :=
  (s.dropLines (s.issuer c) lines).setCmd { c with owns := lines }

/-- Write sectors window by window: each window is owned before it is written and released once written, and `cnt1`
counts the sectors written. Waits where another agent owns a line, or a directory is full. -/
def State.secRun (s : State) (pasid : Nat) : Nat → Cmd → List (Loc × SecWrite) → Ag × Cmd × State
  | 0, c, _ => (.ok, c, s)
  | f + 1, c, ls =>
    if ls.isEmpty then (.ok, c, s)
    else
      let w := firstWindow [] ls
      let lines := secLines w
      if !lines.all c.owns.contains && !s.mayOwn c.id lines then (.wait, c, s)
      else
        let s1 := if lines.all c.owns.contains then s else s.ownLines c lines
        let c1 := { c with owns := [], cnt1 := c.cnt1 + w.length }
        ((s1.secPut c.grid c.id pasid w).setCmd c1).secRun pasid f c1 (ls.drop w.length)

/-- Write a granule's sectors to global memory for a command: all are translated, and every peer has a route, before any is
written; those written in an earlier attempt are passed over. -/
def State.agStore (s : State) (c : Cmd) (ws : List SecWrite) : Ag × Cmd × State :=
  let x := s.agXl c.core c.pasid 1 false (ws.map fun w => (32 * w.1, 32))
  match x.1 with
  | .ok =>
    let ls := ((x.2.1.map fun l => l.2.1).zip ws).drop c.cnt1
    if x.2.2.noRoute ls then (.fail 2, c, x.2.2) else x.2.2.secRun c.pasid (ls.length + 1) c ls
  | a => (a, c, x.2.2)

/-- Write bytes for the hub, at one moment. -/
def State.agWrite (s : State) (core pasid grid cmd va : Nat) (bs : List Byte) : Ag × State :=
  let ws := sectorsOf [(va, bs)]
  let x := s.agXl core pasid 1 false (ws.map fun w => (32 * w.1, 32))
  match x.1 with
  | .ok =>
    let ls := (x.2.1.map fun l => l.2.1).zip ws
    if x.2.2.noRoute ls then (.fail 2, x.2.2) else (.ok, x.2.2.secPut grid cmd pasid ls)
  | a => (a, x.2.2)

/-- Device lines that `n` bytes at `va` touch, where their pages are translated. -/
def State.agLines (s : State) (core pasid va n : Nat) : List Nat :=
  ((chunksOf va n).filterMap fun c => match (s.agentXl core pasid c.1 1).1 with
    | .hit (.dev a) => some (a / 128)
    | _ => none).eraseDups

/-- Answers of a command's writes are still outstanding. -/
def State.cmdBusy (s : State) (id : Nat) : Bool := s.outst.any fun o => o.who == .cmd id

/-- Earlier store-queue entries of the command's group have been performed (R326). -/
def State.cmdReady (s : State) (c : Cmd) : Bool :=
  (s.group c.slot).tid != c.tid || (s.group c.slot).sq.all fun e => !(e.id < c.mark)

/-- The completion release of a command at a scope: peers' acknowledgements, where the scope reaches them (R317). -/
def State.cmdReleased (s : State) (c : Cmd) : Bool := !s.cmdBusy c.id

/-! ### Scratchpad ranges -/

/-- Bytes of a team's declared area or shelf, by logical offset. -/
def State.scrBytes (s : State) (t : Team) (o n : Nat) : List Byte :=
  (List.range n).map fun i => s.readLoc (t.scrLoc (o + i))
def State.scrWord (s : State) (t : Team) (o : Nat) : Nat := leNat (s.scrBytes t o 4)

/-- Write consecutive bytes of a team's scratchpad, healing whole sectors (R354). -/
def State.scrPut (s : State) (t : Team) : Nat → List Byte → State
  | _, [] => s
  | o, b :: bs => State.scrPut (s.writeLoc b (t.scrLoc o)) t (o + 1) bs
def State.scrStore (s : State) (t : Team) (o : Nat) (bs : List Byte) : State :=
  let s1 := s.scrPut t o bs
  if s1.poisonScr.isEmpty then s1
  else
    let whole := (List.range (bs.length / 32 + 1)).filterMap fun i =>
      let a := (o + 31) / 32 * 32 + 32 * i
      if a + 32 ≤ o + bs.length then (match t.scrLoc a with
        | .scr c x => some ((c * 2 ^ 21 + x) / 32)
        | _ => none) else none
    { s1 with poisonScr := s1.poisonScr.filter fun k => !whole.contains k }
def State.scrPutWord (s : State) (t : Team) (o v : Nat) : State := s.scrStore t o (leBytes 4 v)

/-- A scratchpad range that is in error. -/
def State.scrBad (s : State) (t : Team) (o n : Nat) : Bool :=
  !s.poisonScr.isEmpty && (List.range n).any fun i => s.poisoned (t.scrLoc (o + i))

end Sys2Proof.Machine
end

