-- ==== Sys2Proof/Machine/Predict.lean ====
section
/-! DEFINITION. Predicted feed-forward rows (R229 to R242): FFPSEL, FFPBND and FFPFCH, and the loading of shelves by
WLOAD (R214). -/

namespace Sys2Proof.Machine

/-! ### Row lists -/

/-- Bitmap words of a list of `nr` rows (R230). -/
def nwOf (nr : Nat) : Nat := cdiv nr 32

/-- Fields of a row list in scratchpad (R230). -/
structure RowList where
  o : Nat
  count : Nat
  cap : Nat
  nr : Nat
  flags : Nat
  deriving DecidableEq, Repr

def State.rowList (s : State) (t : Team) (o : Nat) : RowList :=
  { o, count := s.scrWord t o, cap := s.scrWord t (o + 4), nr := s.scrWord t (o + 8), flags := s.scrWord t (o + 12) }

/-- Sectors of the list's header, or of a bitmap word, that cannot be read (R354). -/
def State.listBad (s : State) (t : Team) (o : Nat) : Bool := s.scrBad t o 16
def State.rowBad (s : State) (t : Team) (o r : Nat) : Bool := s.scrBad t (o + 16 + 4 * (r / 32)) 4

/-- The list lies wholly in the declared area and its NR is in range (R230, R232). -/
def RowList.fits (l : RowList) (scratch : Nat) : Bool :=
  decide (l.o + 16 ≤ scratch ∧ 1 ≤ l.nr ∧ l.nr ≤ 65536 ∧ l.o + 16 + 4 * nwOf l.nr + 4 * l.cap ≤ scratch)

/-- The list is well formed for a layer of `n` rows (R230, R234, R239). -/
def RowList.good (l : RowList) (scratch n : Nat) : Bool :=
  l.fits scratch && !bitAt l.flags 1 && decide (l.count ≤ l.cap) && decide (l.flags < 4) && l.nr == n

/-- Membership bit of row `r`. -/
def State.rowBit (s : State) (t : Team) (o r : Nat) : Bool := bitAt (s.scrWord t (o + 16 + 4 * (r / 32))) (r % 32)

/-- Admit row `r` if its bit is clear: set it, and append an entry or set OVF (R232). -/
def State.joinRow (s : State) (t : Team) (o r : Nat) : State :=
  if s.rowBit t o r then s
  else
    let l := s.rowList t o
    let w := o + 16 + 4 * (r / 32)
    let s1 := s.scrPutWord t w (s.scrWord t w + 2 ^ (r % 32))
    if l.count < l.cap then
      (s1.scrPutWord t (o + 16 + 4 * nwOf l.nr + 4 * l.count) r).scrPutWord t o (l.count + 1)
    else s1.scrPutWord t (o + 12) (l.flags % 4 ||| 1)

/-! ### FFPSEL -/

/-- The lane's score is above the threshold (R232). -/
def scoreAbove (abs : Bool) (z tau : Word) : Bool :=
  let x := f32 z
  x.isNan || Exact.lt (f32 tau) (if abs then x.abs else x)

/-- Rows of the block that some active lane selects. -/
def selRows (s : State) (g : Group) (o : FfpOps) (lanes : List Nat) (tau : Word) : List Nat :=
  (List.range ((o.imm.extractLsb' 0 4).toNat + 1)).filter fun n =>
    lanes.any fun l => scoreAbove o.abs (src s g 0 (Opnd.plus o.a n) l) tau

/-- The update of FFPSEL (R232). -/
def State.selUpdate (s : State) (t : Team) (lo r0 : Nat) : List Nat → State
  | [] => s
  | n :: ns =>
    let r := r0 + n
    let l := s.rowList t lo
    let s1 := if l.nr ≤ r then s.scrPutWord t (lo + 12) (l.flags % 4 ||| 2) else s.joinRow t lo r
    s1.selUpdate t lo r0 ns

/-- The first place of the list's header, and of the bitmap words of some rows, that is in error. -/
def State.selBad (s : State) (t : Team) (lo r0 : Nat) (rows : List Nat) : Option Nat :=
  if s.listBad t lo then some lo
  else
    let l := s.rowList t lo
    (rows.find? fun n => decide (r0 + n < l.nr) && s.rowBad t lo (r0 + n)).map fun n => lo + 16 + 4 * ((r0 + n) / 32)

/-- The outcome of FFPSEL once the group's earlier stores have been performed: a trap, or the update. -/
def State.selOutcome (s : State) (t : Team) (lo r0 : Nat) (rows : List Nat) : (Nat × Nat × Nat) ⊕ State :=
  let scratch := (s.grid t.grid).k.scratch
  match if s.listBad t lo then some lo else none with
  | some a => .inl (8, 2, a)
  | none =>
    if !(s.rowList t lo).fits scratch then .inl (6, 4, lo)
    else match s.selBad t lo r0 rows with
      | some a => .inl (8, 2, a)
      | none => .inr (s.selUpdate t lo r0 rows)

/-- FFPSEL (R231, R232): its operands are read at issue; the group is blocked until its earlier store-queue entries have been
performed and the update is done. -/
def execFfpsel (h : Hdr) (o : FfpOps) (s : State) : Out' :=
  match activeLanes s h with
  | [] => .next s.advance
  | lanes =>
    let g := s.curG
    let t := s.team g.tid
    let scratch := (s.grid t.grid).k.scratch
    let lo := (src s g 0 o.b 0).toNat
    let r0 := (src s g 0 (Opnd.plus o.b 1) 0).toNat
    let tau := src s g 0 (Opnd.plus o.b 2) 0
    if lo % 16 ≠ 0 then .next (s.trap 2 1 lo)
    else if scratch < lo + 16 then .next (s.trap 6 4 lo)
    else
      let rows := selRows s g o lanes tau
      if !g.sq.isEmpty then .next (s.block s.cur.mask (.ffpsel lo r0 rows))
      else match s.selOutcome t lo r0 rows with
        | .inl (c, d, a) => .next ((if c = 8 then s.logError (t.scrLoc a) else s).trap c d a)
        | .inr u => .next u.advance

/-- The update of a blocked FFPSEL, once its group's stores have been performed (R232). -/
def State.selSettle (s : State) (slot : Nat) : State :=
  let g := s.group slot
  let t := s.team g.tid
  if !g.sq.isEmpty then s
  else g.blocked.foldl (fun s b => match b.why with
    | .ffpsel lo r0 rows =>
      let drop (s : State) : State := s.modGroup slot fun g => { g with blocked := g.blocked.filter fun c => c != b }
      (match s.selOutcome t lo r0 rows with
       | .inl (c, d, a) => (drop (if c = 8 then s.logError (t.scrLoc a) else s)).trapAt slot b.mask b.pc none c d a
       | .inr u => drop (u.modGroup slot fun g =>
           (g.onMask b.mask fun x => { x with pc := b.next, resumed := false, since := 0 }).passed b b.mask))
    | _ => s) s

/-! ### Issue of FFPBND and FFPFCH -/

/-- Uniform operands of a command: the record address pair and the span at B. -/
def ffpWords (s : State) (o : FfpOps) (n : Nat) : List Word :=
  let g := s.curG
  [src s g 0 o.a 0, src s g 0 (Opnd.plus o.a 1) 0] ++ (List.range n).map fun k => src s g 0 (Opnd.plus o.b k) 0

/-- Word `k` of a command. -/
def Cmd.word (c : Cmd) (k : Nat) : Nat := (c.words.getD k 0).toNat
/-- Address pair at words 0 and 1. -/
def Cmd.addr (c : Cmd) : Nat := (c.word 0 + 2 ^ 32 * c.word 1) % 2 ^ 56

/-- FFPBND (R233). -/
def execFfpbnd (h : Hdr) (o : FfpOps) (s : State) : Out' :=
  match activeLanes s h with
  | [] => .next s.advance
  | _ =>
    let g := s.curG
    let t := s.team g.tid
    let k := (s.grid t.grid).k
    let ws := ffpWords s o 6
    let cell := (o.imm.extractLsb' 0 6).toNat
    let c : Cmd := { (s.newCmd .ffpbnd ws).2 with aux1 := cell }
    let offs := [c.word 2, c.word 3, c.word 4]
    if c.addr % 64 ≠ 0 then .next (s.trap 2 1 c.addr)
    else if !cellUsable t k cell then .next (s.trap 7 8 cell)
    else match offs.find? fun x => x % 16 ≠ 0 with
      | some x => .next (s.trap 6 4 x)
      | none =>
        if k.scratch < c.word 4 + 4 * 4096 then .next (s.trap 6 4 (c.word 4))
        else .next ((s.addCmd c).advance)

/-- FFPFCH (R238): a shelf becomes LOADING only after what still reads it. -/
def execFfpfch (h : Hdr) (o : FfpOps) (s : State) : Out' :=
  match activeLanes s h with
  | [] => .next s.advance
  | _ =>
    let g := s.curG
    let t := s.team g.tid
    let k := (s.grid t.grid).k
    let ws := ffpWords s o 3
    let cell := (o.imm.extractLsb' 0 6).toNat
    let i := (o.imm.extractLsb' 8 4).toNat
    let x := t.shelf i
    let c : Cmd := { (s.newCmd .ffpfch ws).2 with aux0 := i, aux1 := cell }
    let m := c.word 4
    if c.addr % 64 ≠ 0 then .next (s.trap 2 1 c.addr)
    else if x.st == .free || x.st == .loading || x.fmt != 0 then .next (s.trap 6 2 i)
    else if !cellUsable t k cell then .next (s.trap 7 8 cell)
    else if m % 16 ≠ 0 ∨ k.scratch < m + 16 + 8 * x.nrows then .next (s.trap 6 4 m)
    else if s.shelfRead g.tid i then .next (s.block s.cur.mask (.reading i))
    else .next (((s.addCmd c).modTeam g.tid fun t =>
      t.setShelf i { t.shelf i with st := .loading, ffp := some ws }).advance)

/-! ### The layer record -/

/-- Layer record fields (R229). -/
structure Layer where
  src : Nat
  nrows : Nat
  klen : Nat
  layer : Nat
  cnten : Bool
  deriving DecidableEq, Repr

def layerOf (d : Nat) : Layer :=
  { src := bits d 0 56, nrows := bits d 64 24, klen := bits d 96 24, layer := bits d 128 10, cnten := bitAt d 138 }

/-- The record is well formed (R229). -/
def layerOk (d : Nat) : Bool :=
  let l := layerOf d
  bits d 56 8 == 0 && bits d 88 8 == 0 && bits d 120 8 == 0 && bits d 139 373 == 0 && l.src % 64 == 0 &&
  decide (l.nrows % 16 = 0 ∧ 16 ≤ l.nrows ∧ l.nrows ≤ 65536) &&
  decide (l.klen % 32 = 0 ∧ 32 ≤ l.klen ∧ l.klen ≤ 32768)

/-- A layer as words kept in a command, and back. -/
def Layer.words (l : Layer) : List Word :=
  [BitVec.ofNat 32 l.src, BitVec.ofNat 32 (l.src / 2 ^ 32), BitVec.ofNat 32 l.nrows, BitVec.ofNat 32 l.klen,
   BitVec.ofNat 32 l.layer, if l.cnten then 1 else 0]
def layerFrom (ws : List Word) : Layer :=
  { src := wordsNat (ws.take 2), nrows := (ws.getD 2 0).toNat, klen := (ws.getD 3 0).toNat,
    layer := (ws.getD 4 0).toNat, cnten := ws.getD 5 0 == 1 }

/-- Offset of row `r`'s scale codes and of its band scale from SRC (R229). -/
def Layer.scaleAt (l : Layer) (r : Nat) : Nat := l.src + imgOS 0 l.nrows l.klen + r * (l.klen / 8)
def Layer.bandAt (l : Layer) (r : Nat) : Nat := l.src + imgOB 0 l.nrows l.klen + 2 * (r / 64)

/-! ### The check -/

/-- Add to a counter of set `i` (R242). -/
def State.countAdd (s : State) (i k n : Nat) : State :=
  let off := 0x140000 + 0x20 * i + 8 * k
  s.setReg off (s.reg off + BitVec.ofNat 64 n)

/-- End a FFPBND: counters, then the cell (R234, R240, R242). `cause` 0 is OK; `counted` tells that a good layer
record was read. -/
def State.bndEnd (s : State) (c : Cmd) (cause : Nat) (counted : Bool) : State :=
  let l := layerFrom c.data
  let s1 := { s with cmds := s.cmds.filter fun x => x.id != c.id }
  let s2 := if !(counted && l.cnten) then s1
    else if cause = 0 then ((s1.countAdd l.layer 0 c.cnt0).countAdd l.layer 1 c.cnt1).countAdd l.layer 2 c.cnt2
    else s1.countAdd l.layer 3 1
  s2.signal c.tid
    { cell := c.aux1, add := 1, arr := 1, status := if cause = 0 then 0 else 0x80 + cause, want := none }

/-- Start of the check: layer record, lists, S and ε (R234). -/
def State.bndStart (s : State) (c : Cmd) : State :=
  let t := s.team c.tid
  let scratch := (s.grid t.grid).k.scratch
  let r := s.agRead c.core c.pasid c.addr 64
  match r.1 with
  | .wait => r.2.2
  | .fail x => r.2.2.bndEnd c x false
  | .ok =>
    let d := leNat r.2.1
    let s1 := r.2.2
    if !layerOk d then s1.bndEnd c 7 false
    else
      let l := layerOf d
      let c1 := { c with data := l.words }
      if s1.listBad t (c.word 2) || s1.listBad t (c.word 3) then s1.bndEnd c1 2 true
      else if !(s1.rowList t (c.word 2)).good scratch l.nrows || !(s1.rowList t (c.word 3)).good scratch l.nrows then
        s1.bndEnd c1 6 true
      else if s1.scrBad t (c.word 4) (l.klen / 2) then s1.bndEnd c1 2 true
      else
        let sv := (List.range (l.klen / 8)).map fun b => BitVec.ofNat 32 (s1.scrWord t (c.word 4 + 4 * b))
        s1.setCmd { c1 with st := .running, data := l.words ++ sv, pos := c.word 6 }

/-- The sum of R234 over the blocks of a row, each rounding upward; `none` stands for +∞. -/
def bndSum : List Byte → List Word → Word → Word
  | c :: cs, v :: vs, t =>
    if c = 0 then bndSum cs vs t
    else
      let x := f32 v
      let term : Word := if x.isNan || Exact.lt x (Exact.ofInt 0) then 0x7F800000
        else (roundUp32 (Exact.mul (Exact.mul (Exact.ofInt 6) (decE3M5 c.toNat)) x)).1
      bndSum cs vs (roundUp32 (Exact.add false (f32 t) (f32 term))).1
  | _, _, t => t

/-- The bound B of a row from its sum and band scale (R234). -/
def bndOf (band : Nat) (t : Word) : Word :=
  let b := fmtB16.decode band
  if b.isNan || b.isInf || t == 0x7F800000 then 0x7F800000
  else if (f32 t).isZero then 0
  else (roundUp32 (Exact.mul b.abs (f32 t))).1

/-- One row of the check: what its reads give, and the command and state after it. -/
def State.bndRow (s : State) (c : Cmd) : Ag × Cmd × State :=
  let t := s.team c.tid
  let l := layerFrom c.data
  let r := c.pos
  if s.rowBad t (c.word 2) r then (.fail 2, c, s)
  else if s.rowBit t (c.word 2) r then (.ok, { c with cnt0 := c.cnt0 + 1, pos := r + 1 }, s)
  else
    let a := s.agRead c.core c.pasid (l.scaleAt r) (l.klen / 8)
    match a.1 with
    | .ok =>
      let b := a.2.2.agRead c.core c.pasid (l.bandAt r) 2
      match b.1 with
      | .ok =>
        let bound := bndOf (leNat b.2.1) (bndSum a.2.1 (c.data.drop 6) 0)
        if Exact.le (f32 bound) (f32 (BitVec.ofNat 32 (c.word 5))) then
          (.ok, { c with cnt2 := c.cnt2 + 1, pos := r + 1 }, b.2.2)
        else if b.2.2.listBad t (c.word 3) || b.2.2.rowBad t (c.word 3) r then (.fail 2, c, b.2.2)
        else (.ok, { c with cnt1 := c.cnt1 + 1, pos := r + 1 }, b.2.2.joinRow t (c.word 3) r)
      | x => (x, c, b.2.2)
    | x => (x, c, a.2.2)

/-- The check is past its last row. -/
def bndDone (c : Cmd) : Bool := decide (min (c.word 7) (layerFrom c.data).nrows ≤ c.pos)

/-- End of a check past its last row: OK, or OVERFLOW when the replay list's OVF is set (R234). -/
def State.bndClose (s : State) (c : Cmd) : State :=
  let t := s.team c.tid
  s.bndEnd c (if s.listBad t (c.word 3) then 2 else if bitAt (s.rowList t (c.word 3)).flags 0 then 3 else 0) true

/-- Check one row and stop at the boundary after it (R237). -/
def State.bndStep (s : State) (c : Cmd) : State :=
  if bndDone c then s
  else
    let r := s.bndRow c
    match r.1 with
    | .ok => r.2.2.setCmd r.2.1
    | .wait => r.2.2
    | .fail x => r.2.2.bndEnd c x true

/-- Check the remaining rows and end. -/
def State.bndRun (s : State) : Nat → Cmd → State
  | 0, c => s.setCmd c
  | n + 1, c =>
    if bndDone c then s.bndClose c
    else
      let r := s.bndRow c
      match r.1 with
      | .ok => r.2.2.bndRun n r.2.1
      | .wait => r.2.2.setCmd c
      | .fail x => r.2.2.bndEnd c x true

/-! ### The gather of rows -/

/-- End a FFPFCH that failed: words 0 and 1 of the map, the shelf FAILED, the cell (R240). -/
def State.fchFail (s : State) (c : Cmd) (cause : Nat) (total : Option Nat) (done : Nat) : State :=
  let t := s.team c.tid
  let m := c.word 4
  let s1 := s.scrStore t m (leBytes 4 done ++ leBytes 4 (total.getD 0xFFFFFFFF))
  s1.loadFail c cause

/-- Entries of a list, in order of admission. -/
def State.rowEntries (s : State) (t : Team) (l : RowList) : List Nat :=
  (List.range l.count).map fun e => s.scrWord t (l.o + 16 + 4 * nwOf l.nr + 4 * e)

/-- Start of the gather: record, lists, the rows to place (R239). -/
def State.fchStart (s : State) (c : Cmd) : State :=
  let t := s.team c.tid
  let scratch := (s.grid t.grid).k.scratch
  let x := t.shelf c.aux0
  let r := s.agRead c.core c.pasid c.addr 64
  match r.1 with
  | .wait => r.2.2
  | .fail e => r.2.2.fchFail c e none 0
  | .ok =>
    let d := leNat r.2.1
    let s1 := r.2.2
    let l := layerOf d
    if !layerOk d || l.klen != x.klen then s1.fchFail c 7 none 0
    else
      let la := s1.rowList t (c.word 2)
      let lr := s1.rowList t (c.word 3)
      let errs (x : RowList) : Bool := s1.scrBad t (x.o + 16) (4 * nwOf x.nr + 4 * x.count)
      if s1.listBad t (c.word 2) || s1.listBad t (c.word 3) then s1.fchFail c 2 none 0
      else if !la.good scratch l.nrows || !lr.good scratch l.nrows then s1.fchFail c 6 none 0
      else if errs la || errs lr then s1.fchFail c 2 none 0
      else if bitAt la.flags 0 || bitAt lr.flags 0 then s1.fchFail c 3 none 0
      else
        let rows := s1.rowEntries t la ++ (s1.rowEntries t lr).filter fun r => !s1.rowBit t (c.word 2) r
        let n := rows.length
        let s2 := s1.scrStore t (c.word 4) (leBytes 4 0 ++ leBytes 4 n ++ leBytes 8 0)
        if x.nrows < 16 * cdiv n 16 then s2.fchFail c 4 (some n) 0
        else s2.setCmd { c with st := .running, pos := 0,
                                data := l.words ++ rows.map fun r => BitVec.ofNat 32 r }

/-- Copy the rows from position `pos` on (R239). -/
def State.fchRows (s : State) (c : Cmd) : List Word → Ag × Cmd × State
  | [] => (.ok, c, s)
  | w :: ws =>
    let t := s.team c.tid
    let x := t.shelf c.aux0
    let l := layerFrom c.data
    let n := c.data.length - 6
    let r := w.toNat
    let base := x.m0 * 65536
    let e := s.agRead c.core c.pasid (l.src + r * (l.klen / 2)) (l.klen / 2)
    match e.1 with
    | .ok =>
      let q := e.2.2.agRead c.core c.pasid (l.scaleAt r) (l.klen / 8)
      match q.1 with
      | .ok =>
        let b := q.2.2.agRead c.core c.pasid (l.bandAt r) 2
        match b.1 with
        | .ok =>
          let s1 := b.2.2.scrStore t (base + c.pos * (x.klen / 2)) e.2.1
          let s2 := s1.scrStore t (base + imgOS 0 x.nrows x.klen + c.pos * (x.klen / 8)) q.2.1
          let s3 := s2.scrStore t (c.word 4 + 16 + 8 * c.pos) (leBytes 4 r ++ leBytes 4 (leNat b.2.1 * 65536))
          let s4 := if c.pos + 1 < n then s3.scrPutWord t (c.word 4) (c.pos + 1) else s3
          s4.fchRows { c with pos := c.pos + 1 } ws
        | a => (a, c, b.2.2)
      | a => (a, c, q.2.2)
    | a => (a, c, e.2.2)

/-- Padding rows and the shelf's own band scales (R239). -/
def State.fchPad (s : State) (t : Team) (x : Shelf) (m n : Nat) : State :=
  let base := x.m0 * 65536
  let pad := x.nrows - n
  let s1 := s.scrStore t (base + n * (x.klen / 2)) (List.replicate (pad * (x.klen / 2)) 0)
  let s2 := s1.scrStore t (base + imgOS 0 x.nrows x.klen + n * (x.klen / 8)) (List.replicate (pad * (x.klen / 8)) 0)
  let s3 := s2.scrStore t (m + 16 + 8 * n)
    ((List.replicate pad (leBytes 4 0xFFFFFFFF ++ leBytes 4 0)).flatten)
  s3.scrStore t (base + imgOB 0 x.nrows x.klen) ((List.replicate (cdiv x.nrows 64) (leBytes 2 0x3F80)).flatten)

/-- The gather to its end: READY and OK, or FAILED (R239, R240). -/
def State.fchRun (s : State) (c : Cmd) : State :=
  let t := s.team c.tid
  let x := t.shelf c.aux0
  let n := c.data.length - 6
  let r := s.fchRows c ((c.data.drop 6).drop c.pos)
  match r.1 with
  | .wait => r.2.2.setCmd r.2.1
  | .fail e => r.2.2.fchFail r.2.1 e (some n) r.2.1.pos
  | .ok =>
    let s1 := (r.2.2.fchPad t x (c.word 4) n).scrPutWord t (c.word 4) n
    let s2 := { s1 with cmds := s1.cmds.filter fun y => y.id != c.id }
    let s3 := s2.modTeam c.tid fun t => t.setShelf c.aux0 { t.shelf c.aux0 with st := .ready }
    if c.aux1 < 64 then
      s3.signal c.tid { cell := c.aux1, add := 1, arr := 1, status := 0, want := none }
    else s3

/-! ### WLOAD -/

/-- Copy the image's whole sectors from position `pos` on (R214). `data` numbers sectors that came before their turn. -/
def State.loadSectors (s : State) (c : Cmd) (len : Nat) : Nat → Ag × Cmd × State
  | 0 => (.ok, c, s)
  | n + 1 =>
    if len ≤ 32 * c.pos then (.ok, c, s)
    else if c.data.contains (BitVec.ofNat 32 c.pos) then s.loadSectors { c with pos := c.pos + 1 } len n
    else
      let t := s.team c.tid
      let x := t.shelf c.aux0
      let r := s.agRead c.core c.pasid (x.src + 32 * c.pos) 32
      match r.1 with
      | .ok =>
        (r.2.2.scrStore t (x.m0 * 65536 + 32 * c.pos) r.2.1).loadSectors { c with pos := c.pos + 1 } len n
      | a => (a, c, r.2.2)

/-- Every band scale of a shelf is finite (R208, R210). -/
def State.bandsFinite (s : State) (t : Team) (x : Shelf) : Bool :=
  !shBanded x.fmt || (List.range (cdiv x.nrows 64)).all fun i =>
    let b := fmtB16.decode (s.shBytes t x (imgOB x.fmt x.nrows x.klen + 2 * i) 2)
    !b.isNan && !b.isInf

/-- A load ends well: READY, and the cell is signalled (R214). -/
def State.loadGood (s : State) (c : Cmd) : State :=
  let s1 := { s with cmds := s.cmds.filter fun y => y.id != c.id }
  let s2 := s1.modTeam c.tid fun t => t.setShelf c.aux0 { t.shelf c.aux0 with st := .ready }
  if c.aux1 < 64 then s2.signal c.tid { cell := c.aux1, add := 1, arr := 1, status := 0, want := none } else s2

/-- The retained copy a WLOAD.reuse adopts (R216). -/
def State.retMatch (s : State) (c : Cmd) (x : Shelf) : Option Retained :=
  s.retained.find? fun r => r.core == c.core && r.pasid == c.pasid && r.src == x.src && r.fmt == x.fmt &&
    r.nrows == x.nrows && r.klen == x.klen

/-- Adopt a copy: its macros take the place of the shelf's first ones (R216). -/
def State.adopt (s : State) (c : Cmd) (x : Shelf) (r : Retained) : State :=
  let n := cdiv (imgL x.fmt x.nrows x.klen) 65536
  let swap (m : Nat × Nat) : Nat × Nat :=
    if x.m0 ≤ m.1 ∧ m.1 < x.m0 + n then (m.1, r.macs.getD (m.1 - x.m0) m.2) else m
  State.loadGood (({ s with retained := s.retained.filter fun y => y != r }).modTeam c.tid fun t =>
    { t with macs := t.macs.map swap }) c

/-- WLOAD to its end, or as far as translation allows (R214); `aux2` 2 is the reload of one sector (R220). -/
def State.loadRun (s : State) (c : Cmd) : State :=
  let t := s.team c.tid
  let x := t.shelf c.aux0
  let len := imgL x.fmt x.nrows x.klen
  if c.aux2 = 2 then
    let r := s.agRead c.core c.pasid (x.src + c.aux3) 32
    match r.1 with
    | .ok => (r.2.2.scrStore t (x.m0 * 65536 + c.aux3) r.2.1).loadGood c
    | .wait => r.2.2
    | .fail e => r.2.2.loadFail c e
  else match if c.aux2 = 1 then s.retMatch c x else none with
    | some r => s.adopt c x r
    | none =>
      let r := s.loadSectors c len (len / 32 + 1)
      match r.1 with
      | .ok => if r.2.2.bandsFinite t x then r.2.2.loadGood r.2.1 else r.2.2.loadFail r.2.1 7
      | .wait => r.2.2.setCmd r.2.1
      | .fail e => r.2.2.loadFail r.2.1 e

/-! ### UNSTAT -/

/-- Cancel the load of an index, if one runs (R215, R240). -/
def State.cancelLoad (s : State) (tid i : Nat) : State :=
  match s.loadOf tid i with
  | some c =>
    if c.kind == .ffpfch then
      (if c.st == .accepted then s.fchFail c 5 none 0 else s.fchFail c 5 (some (c.data.length - 6)) c.pos)
    else s.loadFail c 5
  | none => s

/-- UNSTAT (R215). -/
def execUnstat (h : Hdr) (o : ShelfOps) (s : State) : Out' :=
  match activeLanes s h with
  | [] => .next s.advance
  | _ =>
    let g := s.curG
    let i := (src s g 0 o.b 0).toNat
    if 15 < i then .next (s.trap 6 2 i)
    else if ((s.team g.tid).shelf i).st == .free then .next s.advance
    else
      let s1 := s.cancelLoad g.tid i
      if s1.shelfRead g.tid i then .next (s1.block s.cur.mask (.unstat i))
      else .next (((s1.freeShelf g.tid i).advance).stalemate (s.team g.tid).core)

end Sys2Proof.Machine
end

