-- ==== Sys2Proof/Machine/Records.lean ====
section
/-! DEFINITION. The hub's reading and writing of records in global memory (R15), the kernel, launch, region and graph
records (R16, R19, R23, R25, R26), and the causes that reject a launch (R24) or refuse a seal (R28). -/

namespace Sys2Proof.Machine

/-! ### Reading over what could be read -/

/-- A record as read: its value with unreadable bytes zero, and the mask of the bits that could be read. -/
structure Rec where
  v : Nat
  known : Nat
  deriving DecidableEq, Repr

/-- A field, where every bit of it could be read (R24). -/
def Rec.f (r : Rec) (lo len : Nat) : Option Nat :=
  if bits r.known lo len = 2 ^ len - 1 then some (bits r.v lo len) else none
/-- A field's value, 0 where it could not be read. -/
def Rec.g (r : Rec) (lo len : Nat) : Nat := bits r.v lo len
/-- Some readable bit of one of the ranges [hi : lo] is 1. -/
def Rec.set (r : Rec) (rs : List (Nat × Nat)) : Bool := rs.any fun p => bits r.v p.2 (p.1 - p.2 + 1) != 0
/-- All `n` bytes could be read. -/
def Rec.whole (r : Rec) (n : Nat) : Bool := r.known == 2 ^ (8 * n) - 1

/-- A condition on fields that counts only when they could be read. -/
def when1 (a : Option Nat) (c : Nat → Bool) : Bool := (a.map c).getD false
def when2 (a b : Option Nat) (c : Nat → Nat → Bool) : Bool :=
  match a, b with
  | some x, some y => c x y
  | _, _ => false

/-- Read the ranges of a record: `none` means the hub must wait for the host or a peer. -/
def State.recGo (s : State) (core pasid : Nat) : List (Nat × Nat) → Nat → Option Rec × State
  | [], _ => (some { v := 0, known := 0 }, s)
  | c :: cs, off =>
    let a := s.agRead core pasid c.1 c.2
    let r := a.2.2.recGo core pasid cs (off + c.2)
    match a.1, r.1 with
    | .ok, some x =>
      (some { v := x.v + leNat a.2.1 * 2 ^ (8 * off), known := x.known + (2 ^ (8 * c.2) - 1) * 2 ^ (8 * off) }, r.2)
    | .fail _, some x => (some x, r.2)
    | _, _ => (none, r.2)

/-- Read `n` bytes at `va` for the hub (R15, R24). -/
def State.hubRec (s : State) (pasid va n : Nat) : Option Rec × State :=
  s.recGo hubCore pasid (chunksOf (va % 2 ^ 56) n) 0

/-- Write bytes for the hub; a record that cannot be written is left and the failure recorded. `none`: wait, for the
host, a peer or an owned line. -/
def State.hubPut (s : State) (pasid va : Nat) (bs : List Byte) : Option State :=
  if (s.agLines hubCore pasid (va % 2 ^ 56) bs.length).any s.ownedLine then none
  else
  let r := s.agWrite hubCore pasid (2 ^ 32) 0 (va % 2 ^ 56) bs
  match r.1 with
  | .ok => some r.2
  | .wait => none
  | .fail c => some (r.2.record 6 1 0xFFFF (BitVec.ofNat 64 va) (BitVec.ofNat 64 c))

/-- Ask for the translation a write of `n` bytes waits for. -/
def State.hubWant (s : State) (pasid va n : Nat) : State := (s.agXl hubCore pasid 1 false (chunksOf (va % 2 ^ 56) n)).2.2

/-- As `hubPut`, with a write that has to wait kept until it can be performed, in order. -/
def State.hubSet (s : State) (pasid va : Nat) (bs : List Byte) : State :=
  match if s.hubWrites.isEmpty then s.hubPut pasid va bs else none with
  | some s1 => s1
  | none => { s with hubWrites := s.hubWrites ++ [{ pasid, va, bytes := bs }] }

/-- Perform the oldest kept writes, as far as they can be. -/
def State.hubDrain (s : State) : Nat → State
  | 0 => s
  | n + 1 => match s.hubWrites with
    | [] => s
    | w :: ws =>
      match s.hubPut w.pasid w.va w.bytes with
      | some s1 => State.hubDrain { s1 with hubWrites := ws } n
      | none => s.hubWant w.pasid w.va w.bytes.length

/-! ### Kernel, launch and region records -/

def launchRsv : List (Nat × Nat) := [(63, 56), (127, 103), (191, 184), (447, 224)]
def kernelRsv : List (Nat × Nat) :=
  [(63, 56), (127, 120), (143, 141), (191, 179), (255, 234), (319, 312), (1023, 352)]
def regionRsv : List (Nat × Nat) := [(63, 56), (127, 117), (159, 132), (255, 192)]

/-- A launch record (R23). -/
def launchOf (r : Rec) : Launch :=
  { krec := r.g 0 56, nteams := r.g 64 32, rscope := r.g 96 4, fab := r.g 100 1 == 1, early := r.g 101 1 == 1,
    cirq := r.g 102 1 == 1, param := r.g 128 56, stepadv := BitVec.ofNat 32 (r.g 192 32) }

/-- A kernel record (R16). -/
def kernelOf (r : Rec) : Kernel :=
  { codebase := r.g 0 56, codelen := r.g 64 24, entry := r.g 88 24, width := 8 * 2 ^ r.g 112 2, clw := r.g 114 3,
    clh := r.g 117 3, tthreads := r.g 128 13, regs := r.g 144 6, uregs := r.g 150 6, cells := r.g 156 7,
    nregion := r.g 163 5, plen := r.g 168 11, pwords := r.g 192 20, scratch := r.g 212 22, regions := r.g 256 56,
    kid := BitVec.ofNat 32 (r.g 320 32) }

/-- A region entry (R19). -/
def regionOf (r : Rec) : Region :=
  { src := r.g 0 56, len := r.g 64 32, dest := r.g 96 21, lprio := r.g 128 3, stage := r.g 131 1 == 1,
    nextuse := BitVec.ofNat 32 (r.g 160 32) }

/-- Groups of a team (R10). -/
def Kernel.groups (k : Kernel) : Nat := k.tthreads / k.width

/-- SHAPE (R24). -/
def badShape (lr kr : Rec) : Bool :=
  let w := kr.f 114 3
  let h := kr.f 117 3
  let tt := kr.f 128 13
  let gw := kr.f 112 2
  when1 (lr.f 64 32) (· == 0) || when1 w (fun x => decide (x < 1 ∨ 6 < x)) || when1 h (fun x => decide (x < 1 ∨ 6 < x)) ||
  when2 w h (fun x y => decide (12 < x * y)) ||
  when1 tt (fun x => decide (x < 8 ∨ 4096 < x)) ||
  when2 tt gw (fun t g => decide (t % (8 * 2 ^ g) ≠ 0 ∨ 192 < t / (8 * 2 ^ g))) ||
  when2 (when2o w h) tt (fun a t => decide (8192 < a * t)) ||
  when2 (lr.f 64 32) (when2o w h) (fun n a => decide (a ≠ 0 ∧ n % a ≠ 0)) ||
  when1 (kr.f 144 6) (fun x => decide (x < 1 ∨ 32 < x)) || when1 (kr.f 150 6) (fun x => decide (32 < x)) ||
  when1 (kr.f 156 7) (fun x => decide (64 < x)) || when1 (kr.f 168 11) (fun x => decide (1024 < x ∨ x % 4 ≠ 0)) ||
  when1 (kr.f 212 22) (fun x => decide (2097152 < x ∨ x % 256 ≠ 0))
where
  /-- Product of two fields that could be read. -/
  when2o (a b : Option Nat) : Option Nat :=
    match a, b with
    | some x, some y => some (x * y)
    | _, _ => none

/-! ### Cores, rectangles and admission -/

/-- Physical place of a core on its die's 10 × 10 mesh: die, row, column. -/
def coreAt (die row col : Nat) : Nat := die * 100 + row * 10 + col

/-- Cores of the rectangle W × H with its corner at a place, by rank (R10); none when it leaves the mesh. -/
def rectAt (die row col w h : Nat) : Option (List Nat) :=
  if col + w ≤ 10 ∧ row + h ≤ 10 then
    some ((List.range (w * h)).map fun k => coreAt die (row + k / w) (col + k % w))
  else none

/-- Every rectangle of enabled cores, lower die, row and column first (R89). -/
def State.rects (s : State) (w h : Nat) : List (List Nat) :=
  ((List.range 200).filterMap fun c => rectAt (c / 100) (c % 100 / 10) (c % 10) w h).filter fun r =>
    r.all fun c => (s.core c).en

/-- Private pool of a PASID: base and bytes (R165). -/
def State.pool (s : State) (pasid : Nat) : Nat × Nat :=
  match s.rdTable (s.fld 0x130000 13 39 * 2 ^ 13 + 32 * pasid) 32 with
  | some c => (bits c 64 56, bits c 128 32 * 65536)
  | none => (0, 0)

/-- RESOURCE (R24): each condition counts where the fields it rests on could be read. -/
def badResource (s : State) (pasid : Nat) (kr : Rec) : Bool :=
  let k := kernelOf kr
  let shape := (kr.f 112 2).isSome && (kr.f 128 13).isSome
  (shape && when1 (kr.f 144 6) fun r => decide (65536 < k.width * 8 * r * cdiv k.groups 6)) ||
  when2 (kr.f 114 3) (kr.f 117 3) (fun w h => (s.rects w h).isEmpty) ||
  (shape && when1 (kr.f 192 20) fun p => decide ((s.pool pasid).2 < k.groups * p * 256))

/-- CODE (R24). -/
def badCode (kr : Rec) : Bool :=
  when1 (kr.f 0 56) (fun x => decide (x % 192 ≠ 0)) ||
  when1 (kr.f 64 24) (fun x => decide (x < 1 ∨ 0xFFFFFE < x)) ||
  when2 (kr.f 64 24) (kr.f 88 24) (fun n e => decide (n ≤ e))

/-- Staged regions that break R20. -/
def badStage (scratch : Nat) (rs : List Region) : Bool :=
  let st := rs.filter fun r => r.stage
  st.any (fun r => decide (scratch < r.dest + r.len)) ||
  (st.zipIdx.any fun p => (st.drop (p.2 + 1)).any fun q =>
    decide (p.1.dest < q.dest + q.len ∧ q.dest < p.1.dest + p.1.len))

/-- REGION (R24). A region entry whose LEN is zero or no multiple of 32, or whose SRC or DEST is no multiple of 32 (R19),
is taken as the same cause: DESIGN CHOICE, R24 names no cause for it (log entry 49). -/
def badRegion (kr : Rec) (ls : List Rec) : Bool :=
  when1 (kr.f 163 5) (fun x => decide (16 < x)) ||
  when2 (kr.f 163 5) (kr.f 256 56) (fun n a => decide (n ≠ 0 ∧ a % 64 ≠ 0)) ||
  ls.any (fun r => when1 (r.f 0 56) (fun x => decide (x % 32 ≠ 0)) ||
    when1 (r.f 64 32) (fun x => decide (x = 0 ∨ x % 32 ≠ 0)) || when1 (r.f 96 21) (fun x => decide (x % 32 ≠ 0))) ||
  when1 (kr.f 212 22) (fun sc => badStage sc ((ls.filter fun r => r.whole 32).map regionOf))

/-- RSCOPE outside 0 and 6 to 9 (R23). -/
def badScope (lr : Rec) : Bool := when1 (lr.f 96 4) fun x => !(x == 0 || (6 ≤ x && x ≤ 9))

/-- A launch as validated: code 0 when nothing fails. -/
structure Valid where
  code : Nat
  l : Launch
  k : Kernel
  regs : List Region
  deriving DecidableEq, Repr

/-- The causes of R24, in table order, for a launch record already read (from memory or from a sealed image). `none`:
wait. -/
def State.validate (s : State) (pasid : Nat) (lr : Rec) : Option Valid × State :=
  let l := launchOf lr
  let kx := if (lr.f 0 56).isSome then s.hubRec pasid l.krec 128 else (some { v := 0, known := 0 }, s)
  match kx.1 with
  | none => (none, kx.2)
  | some kr =>
    let k := kernelOf kr
    let n := if (kr.f 163 5).isSome && (kr.f 256 56).isSome && k.nregion ≤ 16 && k.regions % 64 == 0 then k.nregion else 0
    let step (acc : Option (List Rec) × State) (i : Nat) : Option (List Rec) × State :=
      let r := acc.2.hubRec pasid (k.regions + 32 * i) 32
      (match acc.1, r.1 with
       | some xs, some x => some (xs ++ [x])
       | _, _ => none, r.2)
    let rx := (List.range n).foldl step (some [], kx.2)
    match rx.1 with
    | none => (none, rx.2)
    | some ls =>
      let s1 := rx.2
      let code :=
        if lr.set launchRsv || kr.set kernelRsv || ls.any (fun r => r.set regionRsv) then 0x81
        else if badShape lr kr then 0x82
        else if badResource s1 pasid kr then 0x83
        else if badCode kr then 0x84
        else if badRegion kr ls then 0x85
        else if !(lr.whole 64 && kr.whole 128 && ls.all fun r => r.whole 32) then 0x86
        else if badScope lr then 0x87
        else 0
      (some { code, l, k, regs := ls.map regionOf }, s1)

/-! ### Graph records -/

def headRsv : List (Nat × Nat) := [(63, 32), (127, 120), (191, 184), (511, 256)]
def nodeRsv : List (Nat × Nat) := [(7, 4), (15, 14), (31, 31), (63, 48), (127, 120), (255, 160)]

/-- Bit ranges of a node that its kind does not use (R26, R248). -/
def nodeUnused : Nat → List (Nat × Nat)
  | 0 => [(13, 8), (23, 16), (47, 32), (511, 256), (1023, 512)]
  | 1 => [(13, 8), (23, 16), (119, 64), (1023, 512), (383, 376), (447, 432)]
  | 2 => [(119, 64), (511, 256)]
  | 3 => [(13, 8), (23, 16), (47, 32), (119, 64), (511, 256), (1023, 512)]
  | _ => []

/-- A node (R26). -/
def nodeOf (r : Rec) : GNode :=
  { kind := r.g 0 4, ep := r.g 8 6, stackMask := r.g 16 8, cell := r.g 24 6, cellen := r.g 30 1 == 1, gran := r.g 32 16,
    lrec := r.g 64 56, sigval := BitVec.ofNat 32 (r.g 128 32),
    xcmd := (List.range 8).map fun i => BitVec.ofNat 32 (r.g (256 + 32 * i) 32),
    args := (List.range 8).map fun i => BitVec.ofNat 64 (r.g (512 + 64 * i) 64), l := none }

/-- Entry points of a sideboard's firmware (R267, R268). -/
def State.epMask (s : State) : Nat := if s.fw.getLsbD 1 && s.fw.getLsbD 2 then 0x7F else 0

/-- Read `n` records of `size` bytes from `va`. -/
def State.hubRecs (s : State) (pasid va size n : Nat) : Option (List Rec) × State :=
  (List.range n).foldl (fun acc i =>
    let r := acc.2.hubRec pasid (va + size * i) size
    (match acc.1, r.1 with
     | some xs, some x => some (xs ++ [x])
     | _, _ => none, r.2)) (some [], s)

/-- Edges as (from, to, early), one per pair, early only when every one is (R27). -/
def mergeEdges (es : List (Nat × Nat × Bool)) : List (Nat × Nat × Bool) :=
  ((es.map fun e => (e.1, e.2.1)).eraseDups).map fun p =>
    (p.1, p.2, es.all fun e => !(e.1 == p.1 && e.2.1 == p.2) || e.2.2)

/-- Remove nodes without predecessors, at most `n` rounds; what remains lies on a cycle. -/
def peel (es : List (Nat × Nat × Bool)) : Nat → List Nat → List Nat
  | 0, ns => ns
  | n + 1, ns => peel es n (ns.filter fun x => es.any fun e => e.2.1 == x && ns.contains e.1)

/-- Read the launch records that kernel nodes name: (node, record). -/
def State.nodeLaunches (s : State) (pasid : Nat) : List (Nat × GNode) → Option (List (Nat × Rec)) × State
  | [] => (some [], s)
  | (i, n) :: ns =>
    if n.kind = 0 then
      let r := s.hubRec pasid n.lrec 64
      let q := r.2.nodeLaunches pasid ns
      (match r.1, q.1 with
       | some x, some xs => some ((i, x) :: xs)
       | _, _ => none, q.2)
    else s.nodeLaunches pasid ns

/-- Validate them (R28 cause 0x87): some would be rejected for a cause other than a read error, as far as could be read;
some could not be read. -/
def State.checkLaunches (s : State) (pasid : Nat) : List (Nat × Rec) → Option (Bool × Bool) × State
  | [] => (some (false, false), s)
  | (_, r) :: rs =>
    let v := s.validate pasid r
    let q := v.2.checkLaunches pasid rs
    (match v.1, q.1 with
     | some x, some (a, b) => some (a || (x.code != 0 && x.code != 0x86) || badScope r, b || x.code == 0x86)
     | _, _ => none, q.2)

/-- What a seal gives: a refusal code or the sealed nodes and edges (R28). `none`: wait. -/
def State.checkGraph (s : State) (pasid va : Nat) : Option (Nat × List GNode × List (Nat × Nat × Bool)) × State :=
  let hx := s.hubRec pasid va 64
  match hx.1 with
  | none => (none, hx.2)
  | some hd =>
    let nn := hd.f 0 16
    let ne := hd.f 16 16
    let nOk := when1 nn fun x => decide (1 ≤ x ∧ x ≤ 4096)
    let eOk := when1 ne fun x => decide (x ≤ 16384)
    let nx := if nOk && (hd.f 64 56).isSome then hx.2.hubRecs pasid (hd.g 64 56) 128 (hd.g 0 16) else (some [], hx.2)
    let ex := if eOk && (hd.f 128 56).isSome then nx.2.hubRecs pasid (hd.g 128 56) 8 (hd.g 16 16) else (some [], nx.2)
    match nx.1, ex.1 with
    | some nrs, some ers =>
      let ns := nrs.map nodeOf
      let kindOf (i : Nat) : Option Nat := (nrs[i]?).bind fun r => r.f 0 4
      let es := (ers.filter fun r => r.whole 8).map fun r => (r.g 0 16, r.g 16 16, r.g 32 1 == 1)
      let merged := mergeEdges es
      let badRsv := hd.set headRsv || when1 (hd.f 64 56) (fun a => a % 128 != 0) ||
        when1 (hd.f 128 56) (fun a => a % 8 != 0) ||
        nrs.any (fun r => r.set nodeRsv || when1 (r.f 0 4) fun k => r.set (nodeUnused k)) ||
        ers.any fun r => r.set [(63, 33)]
      let badIdx := ers.any (fun r => when2 (r.f 0 16) nn (fun f n => decide (n ≤ f)) ||
          when2 (r.f 16 16) nn (fun t n => decide (n ≤ t)) || when2 (r.f 0 16) (r.f 16 16) fun f t => f == t) ||
        es.any fun e => e.2.2 && (when1 (kindOf e.1) (· != 0) || when1 (kindOf e.2.1) (· != 0))
      let badEp := nrs.any fun r => when1 (r.f 0 4) fun k => k == 2 &&
        (when1 (r.f 16 8) (· == 0) || when1 (r.f 8 6) fun e => !bitAt s.epMask e)
      let code0 :=
        if badRsv then 0x81
        else if nrs.any (fun r => when1 (r.f 0 4) fun k => decide (3 < k)) then 0x82
        else if when1 nn (fun x => decide (x < 1 ∨ 4096 < x)) || when1 ne (fun x => decide (16384 < x)) then 0x83
        else if badIdx then 0x84
        else if !(peel merged ns.length (List.range ns.length)).isEmpty then 0x85
        else if badEp then 0x86
        else 0
      if code0 ≠ 0 then (some (code0, [], []), ex.2)
      else
        let lx := ex.2.nodeLaunches pasid (ns.zipIdx.map fun p => (p.2, p.1))
        match lx.1 with
        | none => (none, lx.2)
        | some lrs =>
          let cx := lx.2.checkLaunches pasid lrs
          match cx.1 with
          | none => (none, cx.2)
          | some (rej, unread) =>
            let all := hd.whole 64 && nrs.all (fun r => r.whole 128) && ers.all fun r => r.whole 8
            if rej then (some (0x87, [], []), cx.2)
            else if !all || unread then (some (0x88, [], []), cx.2)
            else
              let put (p : GNode × Nat) : GNode :=
                { p.1 with l := (lrs.find? fun e => e.1 == p.2).map fun e => launchOf e.2 }
              (some (0, ns.zipIdx.map put, merged), cx.2)
    | _, _ => (none, ex.2)

end Sys2Proof.Machine
end

