-- ==== Sys2Proof/Machine/Hub.lean ====
section
/-! DEFINITION. The hub: launch queues, semaphores and priorities (R80 to R86), accepting and rejecting grids (R23,
R24), runs of sealed graphs (R29, R30), and reporting the end of work (R83, R92). -/

namespace Sys2Proof.Machine

/-! ### Queues and semaphores -/

/-- Fields of QCFG. -/
def State.qEn (s : State) (q : Nat) : Bool := (s.reg (qreg q 0x08)).getLsbD 0
def State.qN (s : State) (q : Nat) : Nat := 2 ^ s.fld (qreg q 0x08) 1 4
def State.qPrio (s : State) (q : Nat) : Nat := s.fld (qreg q 0x08) 5 3
def State.qSerial (s : State) (q : Nat) : Bool := (s.reg (qreg q 0x08)).getLsbD 8
def State.qPre (s : State) (q : Nat) : Bool := (s.reg (qreg q 0x08)).getLsbD 9
def State.qPriv (s : State) (q : Nat) : Bool := (s.reg (qreg q 0x08)).getLsbD 10
def State.qPasid (s : State) (q : Nat) : Nat := s.fld (qreg q 0x08) 12 20
def State.qHead (s : State) (q : Nat) : Nat := s.fld (qreg q 0x18) 0 16
def State.qTail (s : State) (q : Nat) : Nat := s.fld (qreg q 0x10) 0 16

/-- Device address of the slot of entry `i` (R81). -/
def State.qSlot (s : State) (q i : Nat) : Nat := (s.fld (qreg q 0) 6 50 * 64 + 64 * (i % s.qN q)) % 2 ^ 44

/-- The entry at HEAD, read when the notify write covered it (R82); entries dispatched earlier keep their bytes apart. -/
def State.qEntry (s : State) (q : Nat) : Option Nat :=
  if s.qHead q = s.qTail q then none
  else ((s.queue q).latched.find? fun e => e.1 == s.qHead q).map fun e => leNat e.2

/-- The wait of an entry is satisfied now (R84). -/
def State.semOk (s : State) (d : Nat) : Bool :=
  !bitAt d 24 || decide (0 ≤ ((BitVec.ofNat 32 (s.fld (semReg (bits d 8 8)) 0 32)) - BitVec.ofNat 32 (bits d 32 32)).toInt)

/-- The entry at HEAD has had its wait satisfied: now, or at an earlier evaluation since it came to HEAD (R84). -/
def State.qGo (s : State) (q d : Nat) : Bool := (s.queue q).go || s.semOk d

/-- The semaphore that blocks a queue (R80 STATE 2). -/
def State.qBlocked (s : State) (q : Nat) : Option Nat :=
  if s.qEn q then
    match s.qEntry q with
    | some d => if s.qGo q d then none else some (bits d 8 8)
    | none => none
  else none

/-- Queues that are enabled. -/
def State.qLive (s : State) : List Nat := (List.range 64).filter s.qEn

/-- Queue registered as the owner of a semaphore (R84). -/
def State.semOwner (s : State) (n : Nat) : Option Nat :=
  let o := (s.reg (semReg n + 8)).toNat
  if bitAt o 6 then some (bits o 0 6) else none

/-- One link of priority lending (R85). -/
def State.lend (s : State) (blocked : List (Nat × Nat)) (prev : Nat → Nat) (q : Nat) : Nat :=
  blocked.foldl (fun m b => if s.semOwner b.2 == some q then max m (prev b.1) else m) (s.qPrio q)

/-- EPRIO over chains of at most `n` links. A cycle of more than 9 queues is raised as far as 8 links carry: DESIGN
CHOICE, R85's depth and its sentence on cycles disagree there (log entry 50). -/
def State.eprioN (s : State) (blocked : List (Nat × Nat)) : Nat → Nat → Nat
  | 0, q => s.qPrio q
  | n + 1, q => if blocked.isEmpty then s.qPrio q else s.lend blocked (s.eprioN blocked n) q

/-- EPRIO of a queue (R85). -/
def State.eprio (s : State) (q : Nat) : Nat :=
  s.eprioN (s.qLive.filterMap fun b => (s.qBlocked b).map fun n => (b, n)) 8 q

/-- Evaluate the waits of the entries at HEAD; one found satisfied stays so until its entry is dispatched (R84). -/
def State.semEval (s : State) : State :=
  s.qLive.foldl (fun s q => match s.qEntry q with
    | some d => if bitAt d 24 && s.semOk d && !(s.queue q).go then s.setQueue q { s.queue q with go := true } else s
    | none => s) s

/-- Write a semaphore; entries blocked on it evaluate their conditions again (R84). -/
def State.semSet (s : State) (n v : Nat) : State := (s.setFld (semReg n) 0 32 v).semEval

/-- Add to a semaphore (R84). -/
def State.semAdd (s : State) (n : Nat) (v : Word) : State := s.semSet n (s.fld (semReg n) 0 32 + v.toNat)

/-- Write ESTATUS, its reserved field and, where given, RESULT of the slot at an address (R81). -/
def State.qWrite (s : State) (slot status : Nat) (result : Option Nat) : State :=
  let a := slot + 24
  let s1 := s.homePut (.dev a) (leBytes 4 (status % 256))
  match result with
  | some r => s1.homePut (.dev (a + 4)) (leBytes 4 r)
  | none => s1

/-- The dispatched entry of a queue with a number. -/
def State.qRun? (s : State) (q id : Nat) : Option QRun := (s.queue q).busy.find? fun e => e.id == id

/-- A dispatched entry completes: status and result at the slot it was dispatched from, its signal, ERR for anything but
0x02, and the queue no longer runs it (R81, R83). -/
def State.qComplete (s : State) (q id status : Nat) (result : Option Nat) : State :=
  match s.qRun? q id with
  | none => s
  | some e =>
    let s1 := s.qWrite e.slot status result
    let s2 := if status = 2 then s1 else s1.setFld (qreg q 0x20) 14 1 1
    let s3 := s2.setQueue q { s2.queue q with busy := (s2.queue q).busy.filter fun x => x.id != id }
    if bitAt e.entry 25 then s3.semAdd (bits e.entry 16 8) (BitVec.ofNat 32 (bits e.entry 64 32)) else s3

/-- The entry `d` at HEAD is dispatched: HEAD moves past it, and it runs under a number of its own (R82). -/
def State.qAdvance (s : State) (q d : Nat) : Nat × State :=
  let i := s.qHead q
  let r := s.freshId
  let e : QRun := { id := r.1, idx := i, slot := s.qSlot q i, entry := d }
  let s1 := r.2.setFld (qreg q 0x18) 0 16 (i + 1)
  let x := s1.queue q
  (r.1, (s1.setQueue q { latched := x.latched.filter fun y => y.1 != i, busy := x.busy ++ [e], go := false }).semEval)

/-- An entry starts to run: ESTATUS 0x01 and the number in RESULT (R82). -/
def State.qRuns (s : State) (q id num : Nat) : State :=
  match s.qRun? q id with
  | some e => s.qWrite e.slot 1 (some num)
  | none => s

/-! ### Priority of a request -/

/-- Run with a number. -/
def State.run? (s : State) (n : Nat) : Option Run := s.runs.find? fun r => r.num == n

/-- Priority of work from a source, whose own priority is `p` (R86). -/
def State.srcPrio (s : State) (src : Source) (p : Nat) : Nat :=
  match src with
  | .queue q _ => s.eprio q
  | .node r _ =>
    match s.run? r with
    | some x =>
      (match x.src with
       | .queue q _ => s.eprio q
       | _ => x.prio)
    | none => p
  | _ => p
def State.gridPrio (s : State) (g : Grid) : Nat := s.srcPrio g.src g.prio

/-- Queue a source comes from, if any. -/
def State.srcQueue (s : State) (src : Source) : Option Nat :=
  match src with
  | .queue q _ => some q
  | .node r _ => match s.run? r with
    | some x => (match x.src with
      | .queue q _ => some q
      | _ => none)
    | none => none
  | _ => none

/-! ### Accepting and rejecting grids -/

/-- Accept a grid: its number, GSTATUS 0x00 and GRIDNO in the record (R23, R91). -/
def State.acceptGrid (s : State) (pasid lrec : Nat) (v : Valid) (src : Source) (prio : Nat) (pre : Bool)
    (slotVa : Option Nat) : Nat × State :=
  let n := s.nextGrid
  let g : Grid := { Grid.none with num := n, pasid, lrec, l := v.l, k := v.k, regs := v.regs, src, prio,
                                   st := .waiting, pre, slotVa, seq := s.fresh }
  let s1 := { s with grids := s.grids ++ [g], nextGrid := (n + 1) % 2 ^ 31, fresh := s.fresh + 1 }
  (n, s1.hubSet pasid (lrec + 56) (leBytes 4 0 ++ leBytes 4 n))

/-- Write GSTATUS, its reserved field zero (R15, R23). -/
def State.gstatus (s : State) (pasid lrec code : Nat) : State := s.hubSet pasid (lrec + 56) (leBytes 4 (code % 256))

/-- The status field of a record can be written without waiting, so that what follows it comes after it (R329). -/
def State.canStatus (s : State) (pasid va : Nat) : Bool :=
  s.hubWrites.isEmpty && !(s.agLines hubCore pasid (va % 2 ^ 56) 8).any s.ownedLine &&
  match (s.agentXl hubCore pasid (va % 2 ^ 56) 1).1 with
  | .miss => false
  | .deny => false
  | _ => true

/-! ### Runs of graphs -/

/-- The outcome of a node becomes known (cause 0: OK). -/
def State.nodeEnds (s : State) (run node cause : Nat) : State :=
  { s with runs := s.runs.map fun r => if r.num == run then
      { r with st := r.st.set node (NodeSt.ending cause) } else r }

/-- Signal of a node with CELLEN: what R30 says for its kind and cause. -/
def nodeSig (n : GNode) (cause : Nat) : Sig :=
  { cell := n.cell, add := n.sigval, arr := if cause = 0x0F || (cause != 0 && n.kind == 2) then 0 else n.sigval.toNat,
    status := if cause = 0 then 0 else 0x80 + cause, want := none }

/-- Team whose cells a run's nodes name. -/
def Run.team (r : Run) : Option Nat :=
  match r.src with
  | .team t _ => some t
  | _ => none

/-- A signal with outcome to the CEN cell of a launch (R92). -/
def State.cenSignal (s : State) (src : Source) (cause : Nat) : State :=
  match src with
  | .team tid (some c) =>
    s.signal tid { cell := c, add := 1, arr := 1, status := if cause = 0 then 0 else 0x80 + cause, want := none }
  | _ => s

/-- Write COUNT and MSTATE of a mailbox record (R31). -/
def State.mboxStatus (s : State) (n state : Nat) : State :=
  let m := s.mbox n
  s.hubSet m.pasid (m.mrec + 16) (leBytes 4 m.count.toNat ++ leBytes 1 state)

/-- A handler has exited (R32, R95): the mailbox is idle, or disarmed when nothing more is held. -/
def State.mboxExit (s : State) (n : Nat) : State :=
  let m := s.mbox n
  if m.disarming && m.held.isEmpty then
    (s.setMbox n { m with running := none }).mboxStatus n 0 |>.setMbox n Mbox.reset
  else (s.setMbox n { m with running := none }).mboxStatus n 1

/-- Report the end of a grid or of a rejected launch to its source. `status` is the final ESTATUS, `cause` what a cell
or a node receives (0: OK). -/
def State.report (s : State) (src : Source) (status : Nat) (result : Option Nat) (cause : Nat) : State :=
  match src with
  | .queue q i => s.qComplete q i status result
  | .team _ _ => s.cenSignal src cause
  | .node r n => s.nodeEnds r n cause
  | .mbox _ => s

/-- Reject an accepted grid that no thread of which has run: 0x86 (R20, R24). -/
def State.rejectGrid (s : State) (g : Grid) (cause addr : Nat) : State :=
  let s1 := { s with grids := s.grids.filter fun x => x.num != g.num }
  let s2 := (s1.gstatus g.pasid g.lrec 0x86).record 6 1 0xFFFF (BitVec.ofNat 64 (g.num + 2 ^ 32 * cause))
    (BitVec.ofNat 64 addr)
  match g.src with
  | .mbox n => s2.mboxExit n
  | src => s2.report src 0x86 none 0x0F

/-- Predecessor edges of a node. -/
def Run.preds (r : Run) (n : Nat) : List (Nat × Bool) :=
  (r.edges.filter fun e => e.2.1 == n).map fun e => (e.1, e.2.2)

/-- Every thread of every team of a grid has executed TRIG or exited (R93). -/
def State.triggered (s : State) (num : Nat) : Bool :=
  match s.grids.find? fun g => g.num == num with
  | none => true
  | some g =>
    decide (g.started = g.l.nteams) && (s.teamsOf num).all fun tid =>
      let t := s.team tid
      let done (x : Lane) : Bool := x.exited || x.trig
      (t.slots.all fun k => (s.group k).lanes.all done) && t.saved.all fun g => g.lanes.all done

/-- Grid number of a running kernel node. -/
def State.nodeGrid (s : State) (run node : Nat) : Option Nat :=
  (s.grids.find? fun g => g.src == .node run node).map Grid.num

/-- A node is ready (R27, R29): every predecessor has completed, or an early one has triggered. -/
def State.nodeReady (s : State) (r : Run) (n : Nat) : Bool :=
  r.st[n]? == some NodeSt.waiting && (r.preds n).all fun p =>
    match r.st[p.1]? with
    | some .done => true
    | some .running => p.2 && (match s.nodeGrid r.num p.1 with
        | some g => s.triggered g
        | none => false)
    | some (.ending c) => p.2 && c == 0
    | _ => false

/-- A failed node of a run, lowest first. -/
def Run.failedNode (r : Run) : Option (Nat × Nat) :=
  r.st.zipIdx.findSome? fun p => match p.1 with
    | .failed c => some (p.2, c)
    | _ => none

/-- Every node has completed or failed. -/
def Run.finished (r : Run) : Bool := r.st.all fun x => match x with
  | .done => true
  | .failed _ => true
  | _ => false

/-- Report a finished run (R29, R83, R92). -/
def State.runDone (s : State) (r : Run) : State :=
  let s1 := { s with runs := s.runs.filter fun x => x.num != r.num }
  match r.src, r.failedNode with
  | .queue q i, none => s1.qComplete q i 2 none
  | .queue q i, some (n, _) => s1.qComplete q i 3 (some n)
  | src, none => s1.cenSignal src 0
  | src, some (_, c) => s1.cenSignal src c

/-- Accept a run of a sealed graph. -/
def State.acceptRun (s : State) (g : Sealed) (src : Source) (prio : Nat) (pre : Bool) : Nat × State :=
  let n := s.nextRun
  let r : Run := { num := n, pasid := g.pasid, nodes := g.nodes, edges := g.edges, src, prio, pre,
                   grid := match src with
                     | .team tid _ => (s.team tid).grid
                     | _ => 2 ^ 32,
                   st := g.nodes.map fun _ => NodeSt.waiting }
  (n, { s with runs := s.runs ++ [r], nextRun := (n + 1) % 2 ^ 31 })

/-- The sealed graph a handle names for a PASID. -/
def State.sealedOf (s : State) (pasid h : Nat) : Option Sealed :=
  s.sealed.find? fun g => g.valid && g.handle == h && g.pasid == pasid

/-- The first handle from `h` on that is not in use (R91). -/
def State.freeHandle (s : State) : Nat → Nat → Nat
  | 0, h => h
  | n + 1, h => if s.sealed.any fun g => g.handle == h then s.freeHandle n ((h + 1) % 2 ^ 31) else h

/-- Bytes of a sealed image: as the records it copies, 64 for the header, 128 a node, 8 an edge and 64 a launch record
(R23, R25); the spec gives no layout of its own (log entry 51). -/
def imageBytes (ns : List GNode) (es : List (Nat × Nat × Bool)) : Nat :=
  64 + 128 * ns.length + 8 * es.length + 64 * (ns.filter fun n => n.l.isSome).length

/-- A stack with room for a sealed image, which stands in HBM at all times (R177). -/
def State.imageStack (s : State) : Nat × State :=
  let s1 := s.makeRoom 0
  ((s1.anyStack 0).getD 0, s1)

/-- Seal a graph header (R28): the refusal code and handle; `none` means wait. -/
def State.sealGraph (s : State) (pasid va : Nat) : Option (Nat × Nat) × State :=
  let r := s.checkGraph pasid va
  match r.1 with
  | none => (none, r.2)
  | some (0, ns, es) =>
    if !s.hubWrites.isEmpty then (none, s) else
    let h := r.2.freeHandle r.2.sealed.length r.2.nextHandle
    match r.2.hubPut pasid (va + 24) (leBytes 4 1 ++ leBytes 4 h) with
    | some s1 =>
      let k := s1.imageStack
      let n := cdiv (imageBytes ns es) 65536
      let g : Sealed := { handle := h, pasid, valid := true, nodes := ns, edges := es, stack := k.1, frames := n }
      (some (0, h), { k.2 with sealed := k.2.sealed ++ [g], nextHandle := (h + 1) % 2 ^ 31, hbmUsed := k.2.hbmUsed + n })
    | none => (none, r.2.hubWant pasid (va + 24) 8)
  | some (c, _, _) =>
    if !s.hubWrites.isEmpty then (none, s) else
    match r.2.hubPut pasid (va + 24) (leBytes 4 c) with
    | some s1 => (some (c, 0), s1)
    | none => (none, r.2.hubWant pasid (va + 24) 4)

/-- Free a handle (R83): the code 0 or 0x90. -/
def State.freeSealed (s : State) (pasid h : Nat) : Nat × State :=
  match s.sealedOf pasid h with
  | some x => (0, { s with sealed := s.sealed.filter fun g => !(g.handle == h && g.pasid == pasid),
                           hbmUsed := s.hbmUsed - x.frames })
  | none => (0x90, s)

/-! ### Entries -/

/-- Bits of an entry that must be zero (R15, R81): reserved bits, and the fields its KIND does not use. -/
def entryBad (d : Nat) : Bool :=
  let k := bits d 0 4
  bits d 4 4 != 0 || bits d 26 6 != 0 || bits d 184 8 != 0 || bits d 256 256 != 0 || decide (4 < k) ||
  ((k == 0 || k == 2 || k == 3) && bits d 96 32 != 0) || ((k == 1 || k == 2 || k == 4) && bits d 128 56 != 0)

/-- The head entry of kind `k` may be dispatched: enabled, its wait satisfied, and the one before it complete in a
serial queue, unless an early kernel entry follows work that has triggered (R80, R84, R93). -/
def State.qReady (s : State) (q : Nat) (early : Bool) : Option Nat :=
  if !s.qEn q then none
  else match s.qEntry q with
    | none => none
    | some d =>
      let held := s.qSerial q && !(s.queue q).busy.isEmpty
      let trig := early && (s.queue q).busy.all fun e => match s.grids.find? fun g => g.src == .queue q e.id with
        | some g => s.triggered g.num
        | none => false
      if !s.qGo q d || (held && !trig) then none else some d

/-- Dispatch the head entry as refused with a code; it completes at once (R83). -/
def State.qRefuse (s : State) (q d code : Nat) : State :=
  let r := s.qAdvance q d
  r.2.qComplete q r.1 code (some 0)

/-- Dispatch the head entry and complete it at once (R83). -/
def State.qPlain (s : State) (q d : Nat) (result : Option Nat) : State :=
  let r := s.qAdvance q d
  r.2.qComplete q r.1 2 result

/-- The entry's slot is in error, or it is malformed (R81, R354). -/
def State.entryCode (s : State) (q d : Nat) : Nat :=
  let a := s.qSlot q (s.qHead q)
  if s.poison.contains (a / 32) || s.poison.contains (a / 32 + 1) then 0x86
  else if entryBad d then 0x9F else 0

/-- QUEUE_KERNEL_ENTRY, for the kinds 0 and undefined. -/
def State.qKernel (s : State) (q : Nat) : State :=
  match s.qReady q true with
  | none => s
  | some d =>
    let k := bits d 0 4
    if 1 ≤ k && k ≤ 4 then s
    else
      let c := s.entryCode q d
      if c ≠ 0 then (if (s.qReady q false).isSome then s.qRefuse q d c else s)
      else
        let lrec := bits d 128 56
        let pasid := s.qPasid q
        let lx := s.hubRec pasid lrec 64
        match lx.1 with
        | none => lx.2
        | some lr =>
          if (s.qReady q false).isNone && !(lr.whole 64 && (launchOf lr).early) then s
          else
            let v := lx.2.validate pasid lr
            match v.1 with
            | none => v.2
            | some x =>
              if !v.2.canStatus pasid (lrec + 56) then
                (v.2.agXl hubCore pasid 1 false [((lrec + 56) % 2 ^ 56, 8)]).2.2
              else if x.code ≠ 0 then (v.2.gstatus pasid lrec x.code).qRefuse q d x.code
              else
                let a := v.2.qAdvance q d
                let r := a.2.acceptGrid pasid lrec x (.queue q a.1) (v.2.qPrio q) (v.2.qPre q) none
                r.2.qRuns q a.1 r.1

/-- QUEUE_GRAPH_ENTRY. -/
def State.qGraph (s : State) (q : Nat) : State :=
  match s.qReady q false with
  | none => s
  | some d =>
    if bits d 0 4 ≠ 1 then s
    else
      let c := s.entryCode q d
      if c ≠ 0 then s.qRefuse q d c
      else match s.sealedOf (s.qPasid q) (bits d 96 32) with
        | none => s.qRefuse q d 0x90
        | some g =>
          if g.nodes.any fun n => n.cellen then s.qRefuse q d 0x91
          else
            let a := s.qAdvance q d
            let r := a.2.acceptRun g (.queue q a.1) (s.qPrio q) (s.qPre q)
            r.2.qRuns q a.1 r.1

/-- QUEUE_SEMAPHORE_ENTRY. -/
def State.qSem (s : State) (q : Nat) : State :=
  match s.qReady q false with
  | none => s
  | some d =>
    if bits d 0 4 ≠ 2 then s
    else
      let c := s.entryCode q d
      if c ≠ 0 then s.qRefuse q d c else s.qPlain q d none

/-- QUEUE_SEAL_ENTRY. -/
def State.qSeal (s : State) (q : Nat) : State :=
  match s.qReady q false with
  | none => s
  | some d =>
    if bits d 0 4 ≠ 3 then s
    else
      let c := s.entryCode q d
      if c ≠ 0 then s.qRefuse q d c
      else if !s.qPriv q then s.qRefuse q d 0x9E
      else
        let r := s.sealGraph (s.qPasid q) (bits d 128 56)
        match r.1 with
        | none => r.2
        | some (0, h) => r.2.qPlain q d (some h)
        | some (e, _) => r.2.qRefuse q d e

/-- QUEUE_FREE_ENTRY. -/
def State.qFree (s : State) (q : Nat) : State :=
  match s.qReady q false with
  | none => s
  | some d =>
    if bits d 0 4 ≠ 4 then s
    else
      let c := s.entryCode q d
      if c ≠ 0 then s.qRefuse q d c
      else if !s.qPriv q then s.qRefuse q d 0x9E
      else
        let r := s.freeSealed (s.qPasid q) (bits d 96 32)
        if r.1 = 0 then r.2.qPlain q d none else r.2.qRefuse q d r.1

/-- A notify write of QTAIL (R80, R82): the entries it covers are read. -/
def State.qNotify (s : State) (q t : Nat) : State :=
  if !s.qEn q then s
  else if s.qN q < (t + 65536 - s.qHead q) % 65536 then s.setFld (qreg q 0x20) 13 1 1
  else
    let n := (t + 65536 - s.qTail q) % 65536
    let have' := (t + 65536 - s.qHead q) % 65536
    let new := if have' < (s.qTail q + 65536 - s.qHead q) % 65536 then [] else (List.range n).map fun j => (s.qTail q + j) % 65536
    let s1 := s.setFld (qreg q 0x10) 0 16 t
    (s1.setQueue q { s1.queue q with
      latched := (s1.queue q).latched ++ new.map fun i => (i, s.devBytes (s.qSlot q i) 64) }).semEval

/-- A write of QCFG: EN, and while EN = 0 the other fields (R80). PRIV is the host's alone. -/
def State.qConfig (s : State) (q : Nat) (v : DWord) (host : Bool) : State :=
  let off := qreg q 0x08
  let en := v.getLsbD 0
  if s.qEn q then (if en then s else s.setFld off 0 1 0)
  else
    let v0 : DWord := setBits (setBits v 11 1 0) 32 32 0
    let v1 := if bits v0.toNat 1 4 = 0 then setBits v0 1 4 1 else v0
    let v2 := if host then v1 else setBits v1 10 1 (s.fld off 10 1)
    let s1 := s.setReg off v2
    if en then
      let s2 := (s1.setFld (qreg q 0x10) 0 16 0).setFld (qreg q 0x18) 0 16 0
      s2.setQueue q { s2.queue q with latched := [], go := false }
    else s1

end Sys2Proof.Machine
end

