-- ==== Sys2Proof/Machine/Mailbox.lean ====
section
/-! DEFINITION. Mailboxes (R31, R32, R95, R369) and the top-k merge trees of the fabric interface (R278, R370 to
R372). -/

namespace Sys2Proof.Machine

/-! ### Mailboxes -/

/-- What an arrival at a mailbox meets (R32, R95, R369). -/
inductive MbxAns where
  | taken (s : State)
  | refused
  | full

/-- Sixteen further arrivals are held (R32). -/
def Mbox.full (m : Mbox) : Bool := !(decide (m.held.length < 16) || (m.running.isNone && decide (m.held.length < 17)))

/-- Offer an arrival: refused unless armed and not being disarmed; held back beyond 16 further arrivals. -/
def State.mboxOffer (s : State) (n : Nat) (a : Arrival) : MbxAns :=
  let m := s.mbox n
  if !m.armed || m.disarming then .refused
  else if m.full then .full
  else .taken (s.setMbox n { m with held := m.held ++ [a] })

/-- The 64 bytes an arrival puts into the slot (R32). -/
def slotBytes (a : Arrival) (seq : Word) : List Byte :=
  (a.payload ++ List.replicate 56 0).take 56 ++ leBytes 2 a.src ++ leBytes 1 a.payload.length ++ [0] ++ leBytes 4 seq.toNat

/-- MAILBOX_ARRIVAL: with no handler running, the oldest held arrival fills the slot and the handler is launched (R32).
A handler whose launch is rejected leaves the mailbox idle. The handler's launch and kernel records are read again at every
arrival and checked by R24 alone, and the first arrival after arming has sequence number 0: DESIGN CHOICE, R32 says neither
(log entry 49). -/
def State.mboxDeliver (s : State) (n : Nat) : State :=
  let m := s.mbox n
  match m.held with
  | [] => s
  | a :: rest =>
    if !m.armed || m.running.isSome || !s.hubWrites.isEmpty then s
    else
      let lx := s.hubRec m.pasid m.hrec 64
      match lx.1 with
      | none => lx.2
      | some lr =>
        let v := lx.2.validate m.pasid lr
        match v.1 with
        | none => v.2
        | some x =>
          match v.2.hubPut m.pasid m.slot (slotBytes a m.seq) with
          | none => v.2.hubWant m.pasid m.slot 64
          | some s1 =>
            let m1 := { m with held := rest, seq := m.seq + 1, count := m.count + 1 }
            let s2 := (s1.setMbox n m1).mboxStatus n 2
            if x.code ≠ 0 then (s2.gstatus m.pasid m.hrec x.code).mboxExit n
            else
              let r := s2.acceptGrid m.pasid m.hrec x (.mbox n) m.prio false (some m.slot)
              r.2.setMbox n { m1 with running := some r.1 }

/-- The lowest free mailbox number (log entry 20). -/
def State.freeMbox (s : State) : Option Nat := (List.range 1024).find? fun n => !(s.mbox n).armed

/-- Arm a mailbox for a PASID (R95): the number or a refusal code; of several codes 0x9F, then 0x94, then 0x93 (log entry
21). Arrivals count from 0: DESIGN CHOICE, R32 gives no first sequence number (log entry 49). `none`: wait. -/
def State.mboxArm (s : State) (pasid va prio : Nat) : Option Nat × State :=
  let rx := s.hubRec pasid va 64
  match rx.1 with
  | none => (none, rx.2)
  | some r =>
    if r.set [(63, 56), (127, 123), (511, 168)] then (some 0x8000009F, rx.2)
    else if !r.whole 64 || r.g 0 56 % 64 != 0 then (some 0x80000094, rx.2)
    else
      let lx := rx.2.hubRec pasid (r.g 64 56) 64
      match lx.1 with
      | none => (none, lx.2)
      | some lr =>
        let v := lx.2.validate pasid lr
        match v.1 with
        | none => (none, v.2)
        | some x =>
          if x.code ≠ 0 || x.l.nteams ≠ 1 || x.k.clw * x.k.clh ≠ 1 || x.k.uregs = 0 then (some 0x80000094, v.2)
          else match v.2.freeMbox with
            | none => (some 0x80000093, v.2)
            | some n =>
              let m : Mbox := { Mbox.reset with armed := true, pasid, mrec := va, slot := r.g 0 56, hrec := r.g 64 56,
                                                prio := min (r.g 120 3) prio }
              (some n, (v.2.setMbox n m).mboxStatus n 1)

/-- Disarm a mailbox (R95). -/
def State.mboxDisarm (s : State) (pasid n : Nat) : Nat × State :=
  let m := s.mbox n
  if n < 1024 && m.armed && !m.disarming && m.pasid == pasid then
    let s1 := s.setMbox n { m with disarming := true }
    (0, if m.running.isNone && m.held.isEmpty then s1.mboxExit n else s1)
  else (0x80000095, s)

/-! ### Keys and lists -/

/-- A key (distance, id). -/
abbrev Key := Word × Word

/-- Order of keys (R278): distance as a real number, then id. -/
def keyLt (a b : Key) : Bool :=
  Exact.lt (f32 a.1) (f32 b.1) || (!Exact.lt (f32 b.1) (f32 a.1) && decide (a.2.toNat < b.2.toNat))

/-- Insert a key in order. -/
def keyPut (k : Key) : List Key → List Key
  | [] => [k]
  | x :: xs => if keyLt k x then k :: x :: xs else x :: keyPut k xs

/-- Insert into a drawer of capacity `cap` (R278). -/
def drawerIns (cap : Nat) (l : List Key) (k : Key) : List Key :=
  match l.find? fun x => x.2 == k.2 with
  | some x => if keyLt k x then (keyPut k (l.filter fun y => y.2 != k.2)).take cap else l
  | none => (keyPut k l).take cap

/-- The K best keys of a union. -/
def bestKeys (cap : Nat) (ks : List Key) : List Key := ks.foldl (drawerIns cap) []

/-- Length of a list (R278). -/
def listLen (k : Nat) : Nat := 32 * cdiv (8 + 8 * k) 32

/-- Bytes of a list: COUNT, the entries, and the padding entries. -/
def listBytes (k : Nat) (l : List Key) : List Byte :=
  leBytes 2 l.length ++ leBytes 6 0 ++ (l.flatMap fun e => leBytes 4 e.1.toNat ++ leBytes 4 e.2.toNat) ++
    (List.replicate (k - l.length) (leBytes 4 0x7F800000 ++ leBytes 4 0xFFFFFFFF)).flatten

/-- Read a list of capacity K: none when COUNT exceeds K or a DIST is NaN. -/
def listOf (k : Nat) (bs : List Byte) : Option (List Key) :=
  let n := leNat (bs.take 2)
  let es := (List.range n).map fun e =>
    let b := (bs.drop (8 + 8 * e)).take 8
    ((BitVec.ofNat 32 (leNat (b.take 4)), BitVec.ofNat 32 (leNat (b.drop 4))) : Key)
  if k < n || es.any fun e => (f32 e.1).isNan then none else some es

/-! ### Merge trees -/

def treeReg (t : Nat) : Nat := 0x1A0000 + 0x20 * t
def State.treeEn (s : State) (t : Nat) : Bool := decide (t < 16) && (s.reg (treeReg t)).getLsbD 0
def State.treeK (s : State) (t : Nat) : Nat := s.fld (treeReg t) 10 8 + 1
/-- Add to DROP (R370). -/
def State.treeDrop (s : State) (t : Nat) : State :=
  s.setFld (treeReg t + 0x10) 32 32 (s.fld (treeReg t + 0x10) 32 32 + 1)

/-- The round of a tree, if open. -/
def State.round? (s : State) (t r : Nat) : Option Round := s.rounds.find? fun x => x.tree == t && x.round == r
/-- Rounds a tree has open (R370 OPEN). -/
def State.openRounds (s : State) (t : Nat) : Nat := (s.rounds.filter fun x => x.tree == t).length
/-- Every list of the round has arrived (R371); a complete round stands open while its mailbox is full (R32). -/
def State.roundFull (s : State) (x : Round) : Bool := decide (max 1 (s.fld (treeReg x.tree) 6 4) ≤ x.lists.length)

/-- A list for this round has room (R371). -/
def State.roundRoom (s : State) (t r : Nat) : Bool :=
  match s.round? t r with
  | some x => !s.roundFull x
  | none => decide (s.openRounds t < 64)

/-- Replace or open a round. -/
def State.setRound (s : State) (x : Round) : State :=
  { s with rounds := (s.rounds.filter fun y => !(y.tree == x.tree && y.round == x.round)) ++ [x] }

/-- The package behind a port: the lowest with a valid route through it. -/
def State.behind (s : State) (port : Nat) : Option Nat :=
  (List.range 64).find? fun p =>
    let r := (s.reg (0x190100 + 8 * p)).toNat
    bitAt r 4 && bits r 0 4 == port

/-- The MERGE flits of a list to a package (R372), in ascending FIRST order. -/
def State.sendList (s : State) (t r k dst : Nat) (l : List Key) : State :=
  (List.range (cdiv (max l.length 1) 28)).foldl (fun s i =>
    let es := (l.drop (28 * i)).take 28
    s.sendFlit { Flit.blank 0x0B dst with
      round := BitVec.ofNat 32 r, tree := BitVec.ofNat 4 t, km1 := BitVec.ofNat 8 (k - 1),
      count := BitVec.ofNat 9 l.length, first := BitVec.ofNat 9 (28 * i), nent := BitVec.ofNat 5 es.length,
      data := es.flatMap fun e => leBytes 4 e.1.toNat ++ leBytes 4 e.2.toNat }) s

/-- Close a round whose NIN lists have arrived (R371). A result for a mailbox that holds 16 further arrivals waits in its
round (R32). -/
def State.closeRound (s : State) (x : Round) : State :=
  let t := x.tree
  let k := s.treeK t
  let b := s.mbox (s.fld (treeReg t) 18 10)
  if (s.reg (treeReg t)).getLsbD 1 && b.armed && !b.disarming && b.full then s.setRound x
  else
  let best := bestKeys k x.lists.flatten
  let s1 := { s with rounds := s.rounds.filter fun y => !(y.tree == t && y.round == x.round) }
  if (s1.reg (treeReg t)).getLsbD 1 then
    let n := s1.fld (treeReg t) 18 10
    let m := s1.mbox n
    let s2 := s1.hubSet m.pasid (s1.fld (treeReg t + 8) 0 56 + listLen k * (x.round % 64)) (listBytes k best)
    let a : Arrival := { src := 0xFFFE, payload := leBytes 4 x.round ++ leBytes 2 t ++ leBytes 2 best.length }
    if m.armed && !m.disarming then s2.setMbox n { m with held := m.held ++ [a] } else s2.treeDrop t
  else match s1.behind (s1.fld (treeReg t) 2 4) with
    | some p => if s1.canSend p then s1.sendList t x.round k p best
                else s1.record 8 1 0xFFFF (BitVec.ofNat 64 x.round) (BitVec.ofNat 64 t)
    | none => s1.record 8 1 0xFFFF (BitVec.ofNat 64 x.round) (BitVec.ofNat 64 t)

/-- One list of a round has arrived; the round closes with the last (R371). -/
def State.addList (s : State) (t r : Nat) (l : List Key) (child : Option Nat) : State :=
  let x := (s.round? t r).getD { tree := t, round := r, lists := [], part := [] }
  let x1 := { x with lists := x.lists ++ [l], part := x.part.filter fun p => some p.1 != child }
  if s.roundFull x1 then s.closeRound x1 else s.setRound x1

/-- Complete rounds whose mailbox has room again close. -/
def State.settleRounds (s : State) : State := (s.rounds.filter s.roundFull).foldl State.closeRound s

/-- A fragment of a child's list (R371, R372). A count of 1000 marks a malformed list; for a tree that is not enabled every
list is one, counted at its last fragment. -/
def State.mergeFlit (s : State) (f : Flit) : State :=
  let t := f.tree.toNat
  let r := f.round.toNat
  let p := f.src.toNat
  if !s.treeEn t then
    let s1 := s.record 8 1 0xFFFF (BitVec.ofNat 64 r) (BitVec.ofNat 64 (t + 2 ^ 32 * p))
    if f.count.toNat ≤ f.first.toNat + f.nent.toNat then s1.treeDrop t else s1
  else
    let k := s.treeK t
    let x := (s.round? t r).getD { tree := t, round := r, lists := [], part := [] }
    let old := (x.part.find? fun e => e.1 == p).map fun e => e.2
    let es := (List.range f.nent.toNat).map fun i =>
      let b := (f.data.drop (8 * i)).take 8
      ((BitVec.ofNat 32 (leNat (b.take 4)), BitVec.ofNat 32 (leNat (b.drop 4))) : Key)
    let bad := f.km1.toNat + 1 != k || decide (28 < f.nent.toNat) || (match old with
      | some o => o.1 == 1000 || o.2.length != f.first.toNat
      | none => f.first != 0)
    let all := (old.map fun o => o.2).getD [] ++ es
    if f.count.toNat ≤ f.first.toNat + f.nent.toNat then
      if bad || k < f.count.toNat || all.length != f.count.toNat || all.any fun e => (f32 e.1).isNan then
        (s.treeDrop t).addList t r [] (some p)
      else s.addList t r all (some p)
    else
      let cnt := if bad then 1000 else f.count.toNat
      s.setRound { x with part := (x.part.filter fun e => e.1 != p) ++ [(p, cnt, all)] }

end Sys2Proof.Machine
end

