-- ==== Sys2Proof/Machine/Engines.lean ====
section
/-! DEFINITION. The copy and gather engines and the tile scheduler (R243 to R265): the team command queue, the issue of
commands, and how each starts, runs a granule and finishes. -/

namespace Sys2Proof.Machine

/-! ### The command queue -/

/-- Offset of the queue in scratchpad (R244). -/
def State.qBase (s : State) (tid : Nat) : Nat := (s.grid (s.team tid).grid).k.scratch - 4096

/-- Write the four header words (R244). -/
def State.qHeader (s : State) (tid : Nat) : State :=
  let t := s.team tid
  s.scrStore t (s.qBase tid) (leBytes 4 t.qtail.toNat ++ leBytes 4 t.qhead.toNat ++ leBytes 4 t.qnfail.toNat ++
    leBytes 4 t.qlastfail.toNat)

/-- Write the result word of a serial number (R246). -/
def State.qResult (s : State) (tid serial v : Nat) : State :=
  s.scrPutWord (s.team tid) (s.qBase tid + 64 + 4 * (serial % 112)) v

/-- A command of the team's queue. -/
def Cmd.queued (c : Cmd) : Bool := c.kind == .copy || c.kind == .gather

/-- HEAD: the lowest serial number not finished (R245). -/
def State.qHeadOf (s : State) (tid : Nat) : Word :=
  let t := s.team tid
  let open' := (s.cmds.filter fun c => c.tid == tid && c.queued).map fun c =>
    (t.qtail - BitVec.ofNat 32 c.serial).toNat
  t.qtail - BitVec.ofNat 32 (open'.foldl max 0)

/-- XCOPY and XGATH (R250). -/
def State.engine (s : State) (h : Hdr) (o : EngOps) (kind : CmdKind) : State :=
  match activeLanes s h with
  | [] => s.advance
  | _ =>
    let g := s.curG
    let tid := g.tid
    let t := s.team tid
    let k := (s.grid t.grid).k
    let ws := (List.range 8).map fun i => src s g 0 (Opnd.plus o.a i) 0
    let d := wordsNat ws
    let comp := bits d 120 2
    let cell := bits d 122 6
    let want : CellKind := if comp = 1 then .sem else if comp = 2 then .ring else .bar
    if k.scratch < 4096 then s.trap 6 4 0
    else if comp ≠ 0 ∧ (k.cells ≤ cell ∨ (t.cell cell).kind ≠ want) then s.trap 7 9 cell
    else if 112 ≤ (t.qtail - t.qhead).toNat then s.block s.cur.mask (.room 0)
    else
      let n := t.qtail
      let c := { (s.newCmd kind ws).2 with serial := n.toNat }
      let s1 := (s.addCmd c).modTeam tid fun t => { t with qtail := n + 1 }
      let s2 := (s1.qHeader tid).scrStore t (s.qBase tid + 512 + 32 * (n.toNat % 112)) (leBytes 32 d)
      let s3 := s2.qResult tid n.toNat 1
      ((if o.res then s3.setD o.d n else s3)).advance

/-- XCOPY. -/
def execXcopy (h : Hdr) (o : EngOps) (s : State) : Out' := .next (s.engine h o .copy)
/-- XGATH. -/
def execXgath (h : Hdr) (o : EngOps) (s : State) : Out' := .next (s.engine h o .gather)

/-! ### Places an engine names -/

/-- Pieces of `n` bytes at an address of the scratchpad (2) or cluster scratchpad (3): team, offset, bytes. None
when a byte lies in no team of the cluster. -/
def State.scrPieces (s : State) (tid sp : Nat) : Nat → Nat → Nat → Option (List (Nat × Nat × Nat))
  | 0, _, n => if n = 0 then some [] else none
  | f + 1, a, n =>
    if n = 0 then some []
    else
      let k := (s.grid (s.team tid).grid).k
      let m := min n (2 ^ 21 - a % 2 ^ 21)
      let who := if sp = 2 then (if a < 2 ^ 21 then some tid else none)
        else if k.clw * k.clh ≤ a / 2 ^ 21 then none else s.mate tid (a / 2 ^ 21)
      match who, s.scrPieces tid sp f (a + m) (n - m) with
      | some u, some rest => some ((u, a % 2 ^ 21, m) :: rest)
      | _, _ => none

/-- Every byte of a team's range is declared or in a shelf (R161). -/
def coverGo (t : Team) (scratch : Nat) : Nat → Nat → Nat → Bool
  | 0, _, n => n == 0
  | f + 1, o, n =>
    if n = 0 then true
    else if o < scratch then coverGo t scratch f scratch (n - (scratch - o))
    else match t.shelfAt o with
      | some i =>
        let e := ((t.shelf i).m0 + (t.shelf i).nm) * 65536
        coverGo t scratch f e (n - (e - o))
      | none => false

/-- A range touches a shelf. -/
def Team.touchesShelf (t : Team) (o n : Nat) : Bool :=
  (List.range 16).any fun i =>
    let x := t.shelf i
    x.st != .free && decide (x.m0 * 65536 < o + n ∧ o < (x.m0 + x.nm) * 65536)

/-- The pieces of a range, or the cause that rules it out: BOUNDS, for a destination also the queue areas, and
STATIONARY for a destination in a shelf (R245, R250). -/
def State.scrCheck (s : State) (c : Cmd) (sp a n : Nat) (dst : Bool) : (List (Nat × Nat × Nat)) ⊕ Nat :=
  if hubCore ≤ c.core then .inr 8
  else match s.scrPieces c.tid sp 34 a n with
    | none => .inr 8
    | some ps =>
      let scratch := (s.grid c.grid).k.scratch
      if !(ps.all fun p => coverGo (s.team p.1) scratch 34 p.2.1 p.2.2) then .inr 8
      else if dst && ps.any fun p => ((c.queued && p.1 == c.tid) || (s.team p.1).qtail != 0) && 4096 ≤ scratch &&
          decide (scratch - 4096 < p.2.1 + p.2.2 ∧ p.2.1 < scratch) then .inr 8
      else if dst && ps.any fun p => (s.team p.1).touchesShelf p.2.1 p.2.2 then .inr 9
      else .inl ps

/-- Read `n` bytes for a command from space 0 global, 2 scratchpad or 3 cluster scratchpad. Answers of peers stay until the
granule that needs them is done. -/
def State.enRead (s : State) (c : Cmd) (sp a n : Nat) : Ag × List Byte × State :=
  if sp = 0 then s.agPeek c.core c.pasid (a % 2 ^ 56) n
  else match s.scrCheck c sp a n false with
    | .inr e => (.fail e, [], s)
    | .inl ps =>
      if ps.any fun p => s.scrBad (s.team p.1) p.2.1 p.2.2 then (.fail 2, [], s)
      else (.ok, ps.flatMap (fun p => s.scrBytes (s.team p.1) p.2.1 p.2.2), s)

/-- Read several ranges; those after one that must wait are asked for too. -/
def State.enReads (s : State) (c : Cmd) (sp : Nat) : List (Nat × Nat) → Ag × List (List Byte) × State
  | [] => (.ok, [], s)
  | (a, n) :: rs =>
    let r := s.enRead c sp a n
    match r.1 with
    | .fail e => (.fail e, [], r.2.2)
    | x =>
      let q := r.2.2.enReads c sp rs
      (match x, q.1 with
       | .wait, .ok => .wait
       | _, y => y, r.2.1 :: q.2.1, q.2.2)

/-- Put bytes into pieces of scratchpad. -/
def State.putPieces (s : State) : List (Nat × Nat × Nat) → List Byte → State
  | [], _ => s
  | (u, o, n) :: ps, bs => (s.scrStore (s.team u) o (bs.take n)).putPieces ps (bs.drop n)

/-- Write segments of bytes into scratchpad, every one checked before any is written. -/
def State.scrSegs (s : State) (c : Cmd) (sp : Nat) (segs : List (Nat × List Byte)) : Ag × State :=
  match segs.findSome? fun g => match s.scrCheck c sp g.1 g.2.length true with
      | .inr e => some e
      | .inl _ => none with
  | some e => (.fail e, s)
  | none => (.ok, segs.foldl (fun s g => match s.scrCheck c sp g.1 g.2.length true with
      | .inl ps => s.putPieces ps g.2
      | .inr _ => s) s)

/-- Write the segments of one granule for a command: each sector once (R251, R258). -/
def State.enStore (s : State) (c : Cmd) (sp : Nat) (segs : List (Nat × List Byte)) : Ag × Cmd × State :=
  if sp = 0 then s.agStore c (sectorsOf (segs.map fun g => (g.1 % 2 ^ 56, g.2)))
  else
    let r := s.scrSegs c sp segs
    (r.1, c, r.2)

/-- The end of a granule: the command stands at `pos`, and has taken up what it asked for. -/
def State.granDone (s : State) (c : Cmd) (pos : Nat) : Ag × Cmd × State :=
  (.ok, { c with pos, cnt1 := 0, pins := [] }, s.agDone)

/-! ### Copy -/

/-- A copy command's fields (R247, R248). -/
structure Copy where
  src : Nat
  ssp : Nat
  dsp : Nat
  dst : Nat
  comp : Nat
  cell : Nat
  scope : Nat
  rowlen : Nat
  rows : Nat
  gran : Nat
  ss : Nat
  ds : Nat
  deriving DecidableEq, Repr

def copyOf (c : Cmd) : Copy :=
  let d := wordsNat c.words
  let rows := bits d 160 16
  { src := bits d 0 56, ssp := bits d 56 2, dsp := bits d 58 2, dst := bits d 64 56, comp := bits d 120 2,
    cell := bits d 122 6, scope := bits d 128 4, rowlen := bits d 136 24, rows,
    gran := if c.kind == .nodeCopy then c.aux2 else bits d 176 16,
    ss := if rows = 1 then 0 else bits d 192 24, ds := if rows = 1 then 0 else bits d 216 24 }

/-- An address of a space has no bit it does not use (R247). -/
def spAddr (sp a : Nat) : Bool :=
  sp == 0 || (sp == 2 && decide (a < 2 ^ 21)) || (sp == 3 && decide (a < 2 ^ 25))

/-- The command is well formed (R250). -/
def copyOk (c : Cmd) : Bool :=
  let d := wordsNat c.words
  let x := copyOf c
  bits d 60 4 == 0 && bits d 132 4 == 0 && bits d 240 12 == 0 && bits d 252 4 == 0 && spAddr x.ssp x.src &&
  spAddr x.dsp x.dst && (x.comp != 0 || x.cell == 0) && decide (2 ≤ x.scope ∧ x.scope ≤ 9) &&
  decide (1 ≤ x.rowlen ∧ 1 ≤ x.rows)

/-- Bytes of the command, and of a granule. -/
def Copy.total (x : Copy) : Nat := x.rowlen * x.rows
def Copy.granBytes (x : Copy) : Nat := if x.gran = 0 then max 1 x.total else x.gran * 4096

/-- Where a global destination goes, when its page is translated: the doorbell or ingress forms. -/
def State.copyForm (s : State) (c : Cmd) (x : Copy) : Look × State :=
  if x.dsp = 0 then s.agentXl c.core c.pasid x.dst 1 else (.data, s)

/-- The command has the shape its destination form asks for (R369, R371). -/
def formShape (s : State) (x : Copy) (l : Look) : Bool :=
  match l with
  | .hit (.door _ _) => x.rows == 1 && decide (x.rowlen ≤ 56)
  | .hit (.ingress t _) => x.rows == 1 && x.rowlen == listLen (s.treeK t)
  | _ => true

/-- Scratchpad ranges of the rows, checked whole before anything is written (R250): the first cause. -/
def State.copyBounds (s : State) (c : Cmd) (x : Copy) : Nat :=
  let one (acc : Nat) (r : Nat) : Nat :=
    if acc ≠ 0 then acc
    else
      let a := if x.ssp = 0 then 0 else match s.scrCheck c x.ssp (x.src + r * x.ss) x.rowlen false with
        | .inr e => e
        | .inl _ => 0
      if a ≠ 0 then a
      else if x.dsp = 0 then 0 else match s.scrCheck c x.dsp (x.dst + r * x.ds) x.rowlen true with
        | .inr e => e
        | .inl _ => 0
  if x.ssp = 0 ∧ x.dsp = 0 then 0 else (List.range x.rows).foldl one 0

/-- Up to 512 device lines of the destination from a position (R175). -/
def State.copyLines (s : State) (c : Cmd) (x : Copy) (pos : Nat) : List Nat :=
  if x.dsp ≠ 0 then []
  else
    let r0 := pos / x.rowlen
    let rows := min (x.rows - r0) (cdiv 65536 x.rowlen + 1)
    ((List.range rows).flatMap fun i =>
      let lo := if i = 0 then pos % x.rowlen else 0
      s.agLines c.core c.pasid ((x.dst + (r0 + i) * x.ds + lo) % 2 ^ 56) (min 65536 (x.rowlen - lo))).eraseDups.take 512

/-- Own the next window while nothing prevents it; the granule asks again for what it then still lacks. -/
def State.ownNext (s : State) (c : Cmd) (lines : List Nat) : State :=
  if s.mayOwn c.id lines then s.ownLines c lines else s.ownLines c []

/-- A command stands still while its team is stopped, a tile task while a team of its cluster is (R259, R265). -/
def State.cmdPaused (s : State) (c : Cmd) : Bool :=
  if hubCore ≤ c.core then false
  else if c.kind == .tile then
    let t := s.team c.tid
    let k := (s.grid t.grid).k
    let n := k.clw * k.clh
    s.teams.any fun e => e.2.used && e.2.grid == t.grid && e.2.idx / n == t.idx / n && e.2.st == .stopped
  else (s.team c.tid).st == .stopped

/-- No earlier command of the same kind and team waits to start (R250). -/
def State.serialTurn (s : State) (c : Cmd) : Bool :=
  s.cmds.all fun x => !(x.tid == c.tid && x.kind == c.kind && x.kind != .nodeCopy && x.st == .accepted && x.id < c.id)

/-- COPY_START (R250, R251). -/
def State.copyStart (s : State) (id : Nat) : State :=
  match s.cmd id with
  | none => s
  | some c =>
    if !(c.kind == .copy || c.kind == .nodeCopy) || c.st != .accepted || s.cmdPaused c || !s.cmdReady c ||
        !s.serialTurn c then s
    else
      let x := copyOf c
      let s1 := if c.kind == .copy then s.qResult c.tid c.serial 2 else s
      let bad (k : Nat) (s : State) : State := s.setCmd { c with st := .running, cause := k }
      if !copyOk c then bad 7 s1
      else
        let f := s1.copyForm c x
        match f.1 with
        | .miss => f.2.setCmd c
        | .deny => f.2.setCmd c
        | l =>
          if !formShape f.2 x l then bad 7 f.2
          else
            let e := f.2.copyBounds c x
            if e ≠ 0 then bad e f.2
            else
              let lines := f.2.copyLines c x c.pos
              if f.2.mayOwn c.id lines then f.2.ownLines { c with st := .running } lines else f.2

/-- Bytes of row segments from a position: (source, destination, bytes). -/
def Copy.segment (x : Copy) (pos n : Nat) : Nat × Nat × Nat :=
  let r := pos / x.rowlen
  let b := pos % x.rowlen
  (x.src + r * x.ss + b, x.dst + r * x.ds + b, min n (x.rowlen - b))

/-- The row segments from a position to `stop`. -/
def Copy.segments (x : Copy) (stop : Nat) : Nat → Nat → List (Nat × Nat × Nat)
  | 0, _ => []
  | f + 1, pos =>
    if stop ≤ pos then []
    else
      let g := x.segment pos (stop - pos)
      g :: x.segments stop f (pos + g.2.2)

/-- Copy one granule, to byte `stop` of the copy order: its sources are read, then its sectors written (R251). -/
def State.copyTo (s : State) (c : Cmd) (stop : Nat) : Ag × Cmd × State :=
  let x := copyOf c
  let gs := x.segments stop ((stop - c.pos) / max 1 x.rowlen + 2) c.pos
  let r := s.enReads c x.ssp (gs.map fun g => (g.1, g.2.2))
  match r.1 with
  | .ok =>
    let w := r.2.2.enStore c x.dsp ((gs.map fun g => g.2.1).zip r.2.1)
    (match w.1 with
     | .ok => w.2.2.granDone w.2.1 stop
     | e => (e, w.2.1, w.2.2))
  | e => (e, c, r.2.2)

/-- What a message or a local list meets at its receiver (R369, R371): the command after it, and the state. `aux3` 1
marks a message sent to a peer. -/
def State.copySend (s : State) (c : Cmd) (x : Copy) (l : Loc) (bs : List Byte) : Ag × Cmd × State :=
  match l with
  | .door p m =>
    if p = s.fpkg then
      match s.mboxOffer m { src := 0xFFFF, payload := bs } with
      | .taken s1 => (.ok, { c with pos := x.total }, s1)
      | .refused => (.fail 0x0D, c, s)
      | .full => (.wait, c, s)
    else if c.aux3 = 1 then (.ok, { c with pos := x.total }, s)
    else if s.canSend p then
      let r := s.freshId
      let o : Outst := { tag := r.1, dst := p, who := .cmd c.id, key := 0 }
      let f : Flit := { Flit.blank 0x0A p with addr := m, tag := r.1, size := bs.length, data := bs }
      (.wait, { c with aux3 := 1 }, (State.sentTo { r.2 with outst := r.2.outst ++ [o] } c.grid p).sendFlit f)
    else (.fail 2, c, s)
  | .ingress t r =>
    if !s.treeEn t then (.fail 7, c, s)
    else if !s.roundRoom t r then (.wait, c, s)
    else match listOf (s.treeK t) bs with
      | some ks => (.ok, { c with pos := x.total }, s.addList t r ks none)
      | none => (.fail 7, c, s.treeDrop t)
  | _ => (.fail 1, c, s)

/-- The work of a copy up to `stop`. -/
def State.copyWork (s : State) (c : Cmd) (stop : Nat) : Ag × Cmd × State :=
  let x := copyOf c
  let f := s.copyForm c x
  match f.1 with
  | .hit (.door p m) =>
    let r := f.2.enRead c x.ssp x.src x.rowlen
    (match r.1 with
     | .ok => r.2.2.copySend c x (.door p m) r.2.1
     | e => (e, c, r.2.2))
  | .hit (.ingress t n) =>
    let r := f.2.enRead c x.ssp x.src x.rowlen
    (match r.1 with
     | .ok => r.2.2.copySend c x (.ingress t n) r.2.1
     | e => (e, c, r.2.2))
  | _ => f.2.copyTo c stop

/-! ### Gather -/

/-- A gather command's fields and its descriptor (R249). -/
structure Gath where
  isp : Nat
  idx : Nat
  nidx : Nat
  gran : Nat
  dsp : Nat
  dst : Nat
  tbl : Nat
  ntab : Nat
  rowb : Nat
  remap : Nat
  rmen : Bool
  hot : Nat
  nhot : Nat
  deriving DecidableEq, Repr

/-- The descriptor is kept in `data` from the start on. -/
def gathOf (c : Cmd) : Gath :=
  let d := wordsNat c.words
  let t := wordsNat c.data
  { isp := if bitAt d 60 then 2 else 0, idx := bits d 136 56, nidx := bits d 192 16, gran := bits d 208 16,
    dsp := bits d 58 2, dst := bits d 64 56, tbl := bits t 0 56, ntab := bits t 64 32, rowb := bits t 96 24,
    remap := bits t 128 56, rmen := bitAt t 184, hot := bits t 192 56, nhot := bits t 256 32 }

/-- The command is well formed (R250). -/
def gathOk (c : Cmd) : Bool :=
  let d := wordsNat c.words
  let x := gathOf c
  bits d 56 2 == 0 && bits d 61 3 == 0 && bits d 132 4 == 0 && bits d 224 28 == 0 && bits d 252 4 == 1 &&
  bits d 0 56 % 64 == 0 && spAddr x.dsp x.dst && spAddr x.isp x.idx && x.idx % 4 == 0 && x.dst % 32 == 0 &&
  (bits d 120 2 != 0 || bits d 122 6 == 0) && decide (2 ≤ bits d 128 4 ∧ bits d 128 4 ≤ 9) && decide (1 ≤ x.nidx)

/-- The table descriptor is well formed (R249). -/
def tableOk (t : Nat) : Bool :=
  bits t 56 8 == 0 && bits t 120 8 == 0 && bits t 185 7 == 0 && bits t 248 8 == 0 && bits t 288 224 == 0 &&
  bits t 0 56 % 32 == 0 && decide (1 ≤ bits t 64 32) && bits t 96 24 % 32 == 0 &&
  decide (32 ≤ bits t 96 24 ∧ bits t 96 24 ≤ 65536) && bits t 128 56 % 4 == 0 && bits t 192 56 % 32 == 0

/-- Device lines of the next destination rows. -/
def State.gathLines (s : State) (c : Cmd) (x : Gath) (pos : Nat) : List Nat :=
  if x.dsp ≠ 0 then []
  else (s.agLines c.core c.pasid ((x.dst + pos * x.rowb) % 2 ^ 56) (min 65536 ((x.nidx - pos) * x.rowb))).take 512

/-- GATHER_START (R250, R254). -/
def State.gatherStart (s : State) (id : Nat) : State :=
  match s.cmd id with
  | none => s
  | some c =>
    if c.kind != .gather || c.st != .accepted || s.cmdPaused c || !s.cmdReady c || !s.serialTurn c then s
    else
      let bad (k : Nat) (s : State) : State := s.setCmd { c with st := .running, cause := k }
      let s1 := s.qResult c.tid c.serial 2
      if !gathOk c then bad 7 s1
      else
        let r := s.agRead c.core c.pasid (bits (wordsNat c.words) 0 56) 64
        match r.1 with
        | .wait => r.2.2
        | .fail e => bad e (r.2.2.qResult c.tid c.serial 2)
        | .ok =>
          let s2 := r.2.2.qResult c.tid c.serial 2
          if !tableOk (leNat r.2.1) then bad 7 s2
          else
            let c1 := { c with st := .running, data := wordsOf r.2.1 }
            let x := gathOf c1
            let e1 := if x.isp = 0 then 0 else match s2.scrCheck c1 x.isp x.idx (4 * x.nidx) false with
              | .inr e => e
              | .inl _ => 0
            let e2 := if x.dsp = 0 then 0 else match s2.scrCheck c1 x.dsp x.dst (x.nidx * x.rowb) true with
              | .inr e => e
              | .inl _ => 0
            if e1 ≠ 0 then bad e1 s2
            else if e2 ≠ 0 then bad e2 s2
            else
              let lines := s2.gathLines c1 x c1.pos
              if s2.mayOwn c1.id lines then s2.ownLines c1 lines else s2

/-- The place of row `i`: none where the index is dropped (R254). -/
def State.gathRow (s : State) (c : Cmd) (x : Gath) (i : Nat) : Ag × Option Nat × State :=
  if x.ntab ≤ i then (.ok, none, s)
  else if !x.rmen then (.ok, some (x.tbl + i * x.rowb), s)
  else
    let r := s.agPeek c.core c.pasid ((x.remap + 4 * i) % 2 ^ 56) 4
    let h := leNat r.2.1
    (r.1, if h = 0xFFFFFFFF then some (x.tbl + i * x.rowb)
          else if x.nhot ≤ h then none else some (x.hot + h * x.rowb), r.2.2)

/-- What the indices from `e` on to `stop` bring (R254): rows with their destinations, and how many are dropped. -/
def State.gathRead (s : State) (c : Cmd) (x : Gath) : Nat → Nat → Ag × (List (Nat × List Byte) × Nat) × State
  | 0, _ => (.ok, ([], 0), s)
  | n + 1, e =>
    let a := s.enRead c x.isp (x.idx + 4 * e) 4
    match a.1 with
    | .ok =>
      let p := a.2.2.gathRow c x (leNat a.2.1)
      (match p.1, p.2.1 with
       | .ok, none =>
         let q := p.2.2.gathRead c x n (e + 1)
         (q.1, (q.2.1.1, q.2.1.2 + 1), q.2.2)
       | .ok, some va =>
         let r := p.2.2.agPeek c.core c.pasid (va % 2 ^ 56) x.rowb
         (match r.1 with
          | .ok =>
            let q := r.2.2.gathRead c x n (e + 1)
            (q.1, ((x.dst + e * x.rowb, r.2.1) :: q.2.1.1, q.2.1.2), q.2.2)
          | k => (k, ([], 0), r.2.2))
       | k, _ => (k, ([], 0), p.2.2))
    | k => (k, ([], 0), a.2.2)

/-- Gather one granule, to index `stop` (R254). -/
def State.gathTo (s : State) (c : Cmd) (stop : Nat) : Ag × Cmd × State :=
  let x := gathOf c
  let r := s.gathRead c x (stop - c.pos) c.pos
  match r.1 with
  | .ok =>
    let w := r.2.2.enStore c x.dsp r.2.1.1
    (match w.1 with
     | .ok => w.2.2.granDone { w.2.1 with cnt0 := c.cnt0 + r.2.1.2 } stop
     | e => (e, w.2.1, w.2.2))
  | e => (e, c, r.2.2)

/-! ### Finishing copy and gather -/

/-- Where the work of a command ends, and the end of the granule at its position. -/
def Cmd.endPos (c : Cmd) : Nat := if c.kind == .gather then (gathOf c).nidx else (copyOf c).total
def Cmd.granEnd (c : Cmd) : Nat :=
  let g := if c.kind == .gather then (if (gathOf c).gran = 0 then max 1 c.endPos else (gathOf c).gran) else (copyOf c).granBytes
  min c.endPos ((c.pos / g + 1) * g)

/-- Do the work of a copy or gather up to `stop`. -/
def State.enWork (s : State) (c : Cmd) (stop : Nat) : Ag × Cmd × State :=
  if c.kind == .gather then s.gathTo c stop else s.copyWork c stop

/-- An earlier command that advances the same ring is unfinished (R257). -/
def State.ringTurn (s : State) (c : Cmd) : Bool :=
  bits (wordsNat c.words) 120 2 != 2 || s.cmds.all fun x =>
    !(x.tid == c.tid && x.queued && x.id < c.id && bits (wordsNat x.words) 120 8 == bits (wordsNat c.words) 120 8)

/-- Result, header words and signal of a finished command (R257, R258). `cause` 0 is OK. -/
def State.enEnd (s : State) (c : Cmd) (cause : Nat) : State :=
  let s0 := { s with cmds := s.cmds.filter fun x => x.id != c.id }
  if c.kind == .nodeCopy then s0.nodeEnds c.aux0 c.aux1 cause
  else
    let d := wordsNat c.words
    let comp := bits d 120 2
    let v := (if cause = 0 then 3 else 0x80 + cause) + 256 * (if c.kind == .gather then c.cnt0 else 0)
    let s1 := s0.qResult c.tid c.serial v
    let s2 := s1.modTeam c.tid fun t => { t with qhead := s1.qHeadOf c.tid }
    let s3 := if cause = 0 then s2 else s2.modTeam c.tid fun t =>
      { t with qnfail := t.qnfail + 1, qlastfail := BitVec.ofNat 32 c.serial }
    let s4 := s3.qHeader c.tid
    if comp = 0 then s4
    else s4.signal c.tid { cell := bits d 122 6, add := 1, arr := 1, status := if cause = 0 then 0 else 0x80 + cause,
                           want := some (if comp = 1 then .sem else if comp = 2 then .ring else .bar) }

/-- COPY_FINISH and GATHER_FINISH: the last granule, then the answers of peers, then the end; a cause already known
ends the command (R257). -/
def State.enFinish (s : State) (id : Nat) : State :=
  match s.cmd id with
  | none => s
  | some c =>
    if !(c.queued || c.kind == .nodeCopy) || c.st != .running || s.cmdPaused c then s
    else if c.cause ≠ 0 then
      (if s.cmdBusy id || !s.ringTurn c then s.setCmd { c with owns := [] } else s.enEnd c c.cause)
    else if c.pos < c.endPos then
      (if c.granEnd < c.endPos then s
       else
         let r := s.enWork c c.endPos
         match r.1 with
         | .ok =>
           if r.2.2.cmdBusy id || !r.2.2.ringTurn c then r.2.2.setCmd { r.2.1 with owns := [] } else r.2.2.enEnd r.2.1 0
         | .wait => r.2.2.setCmd r.2.1
         | .fail e => r.2.2.setCmd { r.2.1 with cause := e, owns := [] })
    else if s.cmdBusy id || !s.ringTurn c then s
    else s.enEnd c 0

/-- One granule that is not the last (R259); the next window of lines is owned. -/
def State.enGranule (s : State) (c : Cmd) : State :=
  if c.st != .running || s.cmdPaused c || c.cause ≠ 0 || c.endPos ≤ c.granEnd then s
  else
    let r := s.enWork c c.granEnd
    match r.1 with
    | .ok =>
      let c1 := r.2.1
      r.2.2.ownNext c1 (if c.kind == .gather then r.2.2.gathLines c1 (gathOf c1) c1.pos else r.2.2.copyLines c1 (copyOf c1) c1.pos)
    | .wait => r.2.2.setCmd r.2.1
    | .fail e => r.2.2.setCmd { r.2.1 with cause := e, owns := [] }

/-! ### Tile tasks -/

/-- A tile-task record (R260). -/
structure Tile where
  shsrc : Nat
  fmt : Nat
  isp : Nat
  osp : Nat
  acc : Bool
  au : Bool
  inp : Nat
  mrows : Nat
  ins : Nat
  out : Nat
  istride : Nat
  ostride : Nat
  rb0 : Nat
  nrb : Nat
  gran : Nat
  cen : Bool
  ccell : Nat
  crank : Nat
  sat : Bool
  scope : Nat
  tag : Nat
  deriving DecidableEq, Repr

def tileOf (c : Cmd) : Tile :=
  let d := wordsNat c.words
  { shsrc := bits d 0 56, fmt := bits d 56 4, isp := if bitAt d 60 then 3 else 0, osp := if bitAt d 61 then 3 else 0,
    acc := bitAt d 62, au := bitAt d 63, inp := bits d 64 56, mrows := bits d 120 8, ins := bits d 128 56,
    out := bits d 192 56, istride := bits d 256 24, ostride := bits d 280 24, rb0 := bits d 304 12,
    nrb := bits d 320 16, gran := bits d 336 16, cen := bitAt d 452, ccell := bits d 376 6, crank := bits d 448 4,
    sat := bitAt d 453, scope := bits d 456 4, tag := bits d 464 16 }

/-- The record is well formed. -/
def tileOk (c : Cmd) : Bool :=
  let d := wordsNat c.words
  let x := tileOf c
  bits d 184 8 == 0 && bits d 248 8 == 0 && bits d 316 4 == 0 && bits d 363 1 == 0 && bits d 375 1 == 0 &&
  bits d 382 2 == 0 && bits d 454 2 == 0 && bits d 460 4 == 0 && bits d 480 32 == 0 && shFmtOk x.fmt &&
  (!x.au || shTy x.fmt == .i8) && (!x.sat || shTy x.fmt == .i8) && (x.ins == 0 || shScaled x.fmt) &&
  x.inp % 32 == 0 && decide (1 ≤ x.mrows) && x.out % 4 == 0 && x.istride % 32 == 0 && x.ostride % 4 == 0 &&
  decide (1 ≤ x.nrb ∧ x.nrb ≤ 4096) && decide (2 ≤ x.scope ∧ x.scope ≤ 9)

/-- Teams of the cluster of a team, by rank. -/
def State.clusterTeams (s : State) (tid : Nat) : List Nat :=
  let k := (s.grid (s.team tid).grid).k
  (List.range (k.clw * k.clh)).filterMap (s.mate tid)

/-- Unfinished tasks of a cluster, oldest first. -/
def State.tasks (s : State) (tid : Nat) : List Cmd :=
  let t := s.team tid
  let k := (s.grid t.grid).k
  let n := k.clw * k.clh
  s.cmds.filter fun c => c.kind == .tile && c.grid == t.grid && (s.team c.tid).idx / n == t.idx / n

/-- Wait `i` of a task: met, not met, or its cell cannot be waited on (R262). -/
inductive TileWait where
  | met | unmet | badCell
  deriving DecidableEq, Repr

def State.tileWait (s : State) (c : Cmd) (i : Nat) : TileWait :=
  let d := wordsNat c.words
  let b := 352 + 12 * i
  let k := (s.grid c.grid).k
  if !bitAt d (b + 10) then .met
  else
    let cell := bits d b 6
    let rank := bits d (b + 6) 4
    let who := if k.clw * k.clh ≤ rank then none else s.mate c.tid rank
    match who with
    | none => .badCell
    | some u =>
      let x := (s.team u).cell cell
      if k.cells ≤ cell || x.kind != .sem then .badCell
      else if decide (0 ≤ (x.w0 - BitVec.ofNat 32 (bits d (384 + 32 * i) 32)).toInt) then .met else .unmet

/-- Shelves that match a task: (rank order) team, shelf index, state (R263). -/
def State.tileShelves (s : State) (c : Cmd) : List (Nat × Nat × ShelfSt) :=
  let x := tileOf c
  (s.clusterTeams c.tid).flatMap fun u =>
    (List.range 16).filterMap fun i =>
      let h := (s.team u).shelf i
      if (h.st == .ready || h.st == .loading) && h.src == x.shsrc && h.fmt == x.fmt && decide (16 * (x.rb0 + x.nrb) ≤ h.nrows)
      then some (u, i, h.st) else none

/-- The array of a team's core runs a task. -/
def State.arrayBusy (s : State) (u : Nat) : Bool :=
  s.cmds.any fun c => c.kind == .tile && c.st == .running && c.cause == 0 && (s.team c.aux0).core == (s.team u).core

/-- What an accepted task can do now: the shelf it takes, a cause that ends it, or nothing. -/
inductive TileGo where
  | run (u i : Nat)
  | bad (cause : Nat)
  | no
  deriving DecidableEq, Repr

def State.tileGo (s : State) (c : Cmd) : TileGo :=
  if c.st != .accepted || s.cmdPaused c || !s.cmdReady c then .no
  else if !tileOk c then .bad 7
  else
    let ws := if c.aux2 = 1 then [] else [s.tileWait c 0, s.tileWait c 1]
    if ws.contains .badCell then .bad 0x0B
    else if ws.contains .unmet then .no
    else
      let hs := s.tileShelves c
      if hs.isEmpty then .bad 0x0A
      else match hs.find? fun p => p.2.2 == .ready && !s.arrayBusy p.1 with
        | some (u, i, _) => .run u i
        | none => .no

/-- End of the granule at the position, in row blocks. -/
def Cmd.tileEnd (c : Cmd) : Nat :=
  let x := tileOf c
  if x.gran = 0 then x.nrb else min x.nrb ((c.pos / x.gran + 1) * x.gran)

/-- Ranges of a granule's output words, one per token and row block (R264). -/
def Tile.outsAt (x : Tile) (pos stop : Nat) : List (Nat × Nat) :=
  (List.range x.mrows).flatMap fun m => (List.range (stop - pos)).map fun i => (x.out + m * x.ostride + 64 * (pos + i), 64)

/-- The first 512 device lines of a granule's outputs (R175). -/
def State.tileLines (s : State) (c : Cmd) : List Nat :=
  let x := tileOf c
  if x.osp ≠ 0 then []
  else (((x.outsAt c.pos c.tileEnd).flatMap fun r => s.agLines c.core c.pasid (r.1 % 2 ^ 56) r.2).eraseDups).take 512

/-- TILE_TASK_START: the oldest ready task that can run starts on the lowest rank (R262, R263). -/
def State.tileStart (s : State) (id : Nat) : State :=
  match s.cmd id with
  | none => s
  | some c =>
    if c.kind != .tile then s
    else match s.tileGo c with
      | .no => s
      | .bad e => s.setCmd { c with st := .running, cause := e }
      | .run u i =>
        if (s.tasks c.tid).any fun x => x.id < c.id && s.tileGo x != .no then s
        else
          let c1 := { c with st := .running, aux0 := u, aux1 := i, aux2 := 1 }
          s.ownNext c1 (s.tileLines c1)

/-- Activation `k` of a token: its code in the row read, and its scale (R264). -/
def tileAct (f : Nat) (row scales : List Byte) (k : Nat) : Nat × Exact :=
  let bit := k * shW f
  let n := leNat ((row.drop (bit / 8)).take (cdiv (shW f) 8))
  (bits n (bit % 8) (shW f), if shScaled f then decE3M5 (leNat ((scales.drop (k / 8)).take 1)) else Exact.ofInt 1)

/-- The chain of matrix instructions for one token and one weight row (R264). -/
def State.tileChain (s : State) (t : Team) (h : Shelf) (x : Tile) (row scales : List Byte) (r : Nat) (acc : Word) :
    Word :=
  (List.range (h.klen / shStep h.fmt)).foldl (fun a ks =>
    let res := matOne h.fmt a (s.rowTerms t h r ks) (fun i => tileAct h.fmt row scales (ks * shStep h.fmt + i)) x.au x.sat
    res.1.headD 0) acc

/-- Shelf bytes of a row block are readable, as an MMA asks (R220): a cause, a reload to wait for, or nothing. -/
def State.tileSectors (s : State) (c : Cmd) (rb : Nat) : Ag × State :=
  let t := s.team c.aux0
  let h := t.shelf c.aux1
  if (s.core t.core).mapout.isEmpty && s.poisonScr.isEmpty then (.ok, s)
  else
    let secs := ((List.range (h.klen / shStep h.fmt)).flatMap fun ks => blockSectors h (16 * rb) ks).eraseDups
    match s.deadSector t h secs with
    | some _ => (.fail 2, s)
    | none => match s.badSector t h secs with
      | some k => if h.st == .loading then (.wait, s) else if h.nrl then (.fail 2, s) else (.wait, s.reloadSector c.aux0 c.aux1 k)
      | none => (.ok, s)

/-- The shelf bytes of several row blocks. -/
def State.tileBlocks (s : State) (c : Cmd) : List Nat → Ag × State
  | [] => (.ok, s)
  | rb :: rbs =>
    let k := s.tileSectors c rb
    match k.1 with
    | .ok => k.2.tileBlocks c rbs
    | _ => k

/-- Ranges of a granule's input rows and of their scale codes, one per token (R264). -/
def Tile.rowsAt (x : Tile) (h : Shelf) : List (Nat × Nat) :=
  (List.range x.mrows).map fun m => (x.inp + m * x.istride, cdiv (h.klen * shW h.fmt) 8)
def Tile.scalesAt (x : Tile) (h : Shelf) : List (Nat × Nat) :=
  if shScaled h.fmt then (List.range x.mrows).map fun m => (x.ins + m * (h.klen / 8), h.klen / 8) else []
/-- Lines of the granule's global input, pinned until the array has read them, as far as their slices can pin more (R176,
R265). -/
def State.tilePins (s : State) (c : Cmd) (x : Tile) (h : Shelf) : List Nat :=
  if x.isp ≠ 0 then []
  else
    let ls := ((x.rowsAt h ++ x.scalesAt h).flatMap fun r => (chunksOf (r.1 % 2 ^ 56) r.2).filterMap fun k =>
      match (s.agentXl c.core c.pasid k.1 0).1 with
      | .hit (.dev a) => some (a / 128)
      | _ => none).eraseDups
    ls.foldl (fun acc l => if s.mayPin c.id (acc ++ [l]) then acc ++ [l] else acc) []

/-- One granule of a task, row blocks from its position to `stop`: every input, and with ACC = 1 every output word, is read
at its start; then the chains are computed and the sectors written (R264, R265). -/
def State.tileRun (s : State) (c : Cmd) (stop : Nat) : Ag × Cmd × State :=
  let x := tileOf c
  let t := s.team c.aux0
  let h := t.shelf c.aux1
  let wait (r : Ag × State) : Ag × Cmd × State := (r.1, { c with pins := r.2.tilePins c x h }, r.2)
  let k := s.tileBlocks c ((List.range (stop - c.pos)).map fun i => x.rb0 + c.pos + i)
  match k.1 with
  | .ok =>
    let a := k.2.enReads c x.isp (x.rowsAt h)
    let b := a.2.2.enReads c x.isp (x.scalesAt h)
    let outs := x.outsAt c.pos stop
    let d := if x.acc then b.2.2.enReads c x.osp outs else (.ok, outs.map fun _ => List.replicate 64 0, b.2.2)
    (match a.1, b.1, d.1 with
     | .ok, .ok, .ok =>
       let one (i : Nat) : List Byte :=
         let m := i / (stop - c.pos)
         let rb := x.rb0 + c.pos + i % (stop - c.pos)
         let old := d.2.1.getD i []
         (List.range 16).flatMap fun n => leBytes 4 (d.2.2.tileChain t h x (a.2.1.getD m []) (b.2.1.getD m [])
           (16 * rb + n) (BitVec.ofNat 32 (leNat ((old.drop (4 * n)).take 4)))).toNat
       let w := d.2.2.enStore c x.osp ((outs.map Prod.fst).zip ((List.range outs.length).map one))
       (match w.1 with
        | .ok => w.2.2.granDone w.2.1 stop
        | e => (e, w.2.1, w.2.2))
     | .fail e, _, _ => wait (.fail e, d.2.2)
     | _, .fail e, _ => wait (.fail e, d.2.2)
     | _, _, .fail e => wait (.fail e, d.2.2)
     | _, _, _ => wait (.wait, d.2.2))
  | _ => wait k

/-- A task finishes: its signal (R257, R265), and its tag with a failure (R260). -/
def State.tileDone (s : State) (c : Cmd) (cause : Nat) : State :=
  let x := tileOf c
  let k := (s.grid c.grid).k
  let s1 := { s with cmds := s.cmds.filter fun y => y.id != c.id }
  let s2 := if cause = 0 then s1 else s1.record 8 1 (s.core c.core).num (BitVec.ofNat 64 x.tag) (BitVec.ofNat 64 cause)
  if !x.cen then s2
  else match if k.clw * k.clh ≤ x.crank ∨ k.cells ≤ x.ccell then none else s2.mate c.tid x.crank with
    | some u => s2.signal u { cell := x.ccell, add := 1, arr := 1, status := if cause = 0 then 0 else 0x80 + cause, want := none }
    | none => s2

/-- The shelf a running granule reads holds its image, or will. -/
def State.tileHeld (s : State) (c : Cmd) : Bool :=
  match ((s.team c.aux0).shelf c.aux1).st with
  | .ready => true
  | .loading => true
  | _ => false

/-- Run a task to the end of its granule; the last granule finishes it, another gives its array up. A granule whose shelf
is gone before it wrote anything chooses again (R263). -/
def State.tileGranule (s : State) (c : Cmd) (last : Bool) : State :=
  if c.st != .running || s.cmdPaused c then s
  else if c.cause ≠ 0 then (if last && !s.cmdBusy c.id then s.tileDone c c.cause else s)
  else if !s.tileHeld c && c.cnt1 == 0 then s.setCmd { c with st := .accepted, pins := [] }
  else
    let x := tileOf c
    if (decide (x.nrb ≤ c.tileEnd)) != last then s
    else
      let r := s.tileRun c c.tileEnd
      match r.1 with
      | .ok =>
        if !last then r.2.2.setCmd { r.2.1 with st := .accepted }
        else if r.2.2.cmdBusy c.id then r.2.2.setCmd r.2.1
        else r.2.2.tileDone r.2.1 0
      | .wait => r.2.2.setCmd r.2.1
      | .fail e => r.2.2.setCmd { r.2.1 with cause := e, owns := [], pins := [] }

/-- TILE_TASK_FINISH. -/
def State.tileFinish (s : State) (id : Nat) : State :=
  match s.cmd id with
  | some c => if c.kind == .tile then s.tileGranule c true else s
  | none => s

/-- ENGINE_GRANULE_BOUNDARY: one granule of a command, other than its last. -/
def State.granule (s : State) (id : Nat) : State :=
  match s.cmd id with
  | none => s
  | some c =>
    match c.kind with
    | .tile => s.tileGranule c false
    | .ffpbnd => if c.st == .running && !s.cmdPaused c then s.bndStep c else s
    | .copy => s.enGranule c
    | .gather => s.enGranule c
    | .nodeCopy => s.enGranule c
    | _ => s

/-- TQPOST (R261). -/
def execTqpost (h : Hdr) (o : EngOps) (s : State) : Out' :=
  match activeLanes s h with
  | [] => .next s.advance
  | _ =>
    let slot := s.cur.slot
    let g := s.curG
    let skip := match o.b with
      | .spc _ => !(g.qreg (opndIdx o.b - 8)).getLsbD (o.imm.toNat % 64)
      | _ => false
    let a := srcAddr s g o.a
    if skip then .next s.advance
    else if a % 64 ≠ 0 then .next (s.trap 2 1 a)
    else match s.isRead slot a 64 [] with
      | .inr (e, s1) => .next (s.isLeave s1 e)
      | .inl (d, s1) =>
        if 1024 ≤ (s1.tasks g.tid).length then .next (s1.block s.cur.mask (.room 1))
        else
          let ws := (List.range 16).map fun i => BitVec.ofNat 32 (bits d (32 * i) 32)
          .next ((s1.addCmd (s1.newCmd .tile ws).2).advance)

end Sys2Proof.Machine
end

