-- ==== Sys2Proof/Machine/Launch.lean ====
section
/-! DEFINITION. The launch instructions (R91 to R97): GLAUNCH, TRIG, CHUNK, MBOXARM, STEP and LHINT. -/

namespace Sys2Proof.Machine

/-- Accepted device-side requests that have not started (R92). -/
def State.devRequests (s : State) : Nat :=
  (s.grids.filter fun g => g.started == 0 && (match g.src with
    | .team _ _ => true
    | _ => false)).length +
  (s.runs.filter fun r => (match r.src with
    | .team _ _ => true
    | _ => false) && r.st.all fun x => x == NodeSt.waiting).length

/-- Priority of a launch by the issuing team (R92). -/
def State.launchPrio (s : State) (o : LaunchOps) : Nat :=
  min o.prio.toNat (s.gridPrio (s.gridOf s.cur.slot))

/-- The issuing grid itself came from a queue with PRE = 1 (R86). -/
def State.launchPre (s : State) : Bool :=
  let g := s.gridOf s.cur.slot
  (s.srcQueue g.src).isSome && g.pre

/-- D receives a value and the group goes on. -/
def State.launched (s : State) (o : LaunchOps) (v : Nat) : State := (s.setD o.d (BitVec.ofNat 32 v)).advance

/-- What the hub makes of a request now: the value for D, or nothing while it must wait for a record it reads or writes, or
for room among its 4,096 device-side requests (R92). A refused launch sends NOTRUN to the CEN cell. -/
def State.hubAnswer (s : State) (q : HubReq) : Option Nat × State :=
  let src : Source := .team q.tid q.cen
  let refuse (s : State) (code : Nat) : Option Nat × State := (some (0x80000000 + code), s.cenSignal src 0x0F)
  match q.ask with
  | .kernel a =>
    if 4096 ≤ s.devRequests then (none, s)
    else
      let lx := s.hubRec q.pasid a 64
      (match lx.1 with
       | none => (none, lx.2)
       | some lr =>
         let v := lx.2.validate q.pasid lr
         match v.1 with
         | none => (none, v.2)
         | some x =>
           match v.2.hubPut q.pasid (a + 56) (leBytes 4 x.code) with
           | none => (none, v.2.hubWant q.pasid (a + 56) 4)
           | some s1 =>
             if x.code ≠ 0 then refuse s1 x.code
             else
               let r := s1.acceptGrid q.pasid a x src q.prio q.pre none
               (some r.1, r.2))
  | .graph h cells =>
    if 4096 ≤ s.devRequests then (none, s)
    else (match s.sealedOf q.pasid h with
      | none => refuse s 0x90
      | some g =>
        if g.nodes.any fun n => n.cellen && decide (cells ≤ n.cell) then refuse s 0x92
        else
          let r := s.acceptRun g src q.prio q.pre
          (some r.1, r.2))
  | .seal a =>
    let r := s.sealGraph q.pasid a
    (match r.1 with
     | none => (none, r.2)
     | some (0, h) => (some h, r.2)
     | some (c, _) => (some (0x80000000 + c), r.2))
  | .arm a => s.mboxArm q.pasid a q.prio

/-- Put a launch instruction to the hub. Where the hub must wait, the result stays outstanding and the group goes on to its
next switch marker (R92). -/
def State.hubCall (s : State) (o : LaunchOps) (ask : HubAsk) (prio : Nat) : State :=
  let slot := s.cur.slot
  let q : HubReq := { pend := s.fresh, slot, tid := s.curG.tid, pasid := s.pasidOf slot, ask, prio, pre := s.launchPre,
                      cen := if o.cen then some (o.imm.toNat % 64) else none }
  let r := s.hubAnswer q
  match r.1, o.d with
  | some v, _ => r.2.launched o v
  | none, .uni i =>
    let p := r.2.pending 1 i.toNat (Form.plain 4) none none
      [{ lane := 0, va := 0, datum := .wait }]
    State.advance { p.2 with hubReqs := p.2.hubReqs ++ [{ q with pend := p.1 }] }
  | none, _ => r.2

/-- Give an outstanding result its words. -/
def State.supply (s : State) (slot pend : Nat) (ws : List Word) : State :=
  let fill (p : Pend) : Pend :=
    if p.id = pend then { p with lanes := p.lanes.map fun x => { x with datum := .words ws } } else p
  s.modGroup slot fun g => { g with pend := g.pend.map fill }

/-- The hub turns to a request it has not answered; it answers, or goes on waiting. -/
def State.hubRetry (s : State) (q : HubReq) : State :=
  let r := s.hubAnswer q
  match r.1 with
  | none => r.2
  | some v => State.supply { r.2 with hubReqs := r.2.hubReqs.filter fun x => x.pend != q.pend } q.slot q.pend [BitVec.ofNat 32 v]

/-- GLAUNCH.k (R92): EARLY is ignored. -/
def execGlaunchK (h : Hdr) (o : LaunchOps) (s : State) : Out' :=
  match activeLanes s h with
  | [] => .next s.advance
  | _ => .next (s.hubCall o (.kernel (srcAddr s s.curG o.a)) (s.launchPrio o))

/-- GLAUNCH.g (R92). -/
def execGlaunchG (h : Hdr) (o : LaunchOps) (s : State) : Out' :=
  match activeLanes s h with
  | [] => .next s.advance
  | _ => .next (s.hubCall o (.graph (src s s.curG 0 o.a 0).toNat (s.gridOf s.cur.slot).k.cells) (s.launchPrio o))

/-- GLAUNCH.seal, in a supervisor routine only (R28, R91). -/
def execGlaunchSeal (h : Hdr) (o : LaunchOps) (s : State) : Out' :=
  if !s.inSup then .next (s.illegal 0x0B)
  else match activeLanes s h with
    | [] => .next s.advance
    | _ => .next (s.hubCall o (.seal (srcAddr s s.curG o.a)) 0)

/-- GLAUNCH.free, in a supervisor routine only (R83, R91). -/
def execGlaunchFree (h : Hdr) (o : LaunchOps) (s : State) : Out' :=
  if !s.inSup then .next (s.illegal 0x0B)
  else match activeLanes s h with
    | [] => .next s.advance
    | _ =>
      let r := s.freeSealed (s.pasidOf s.cur.slot) (src s s.curG 0 o.a 0).toNat
      .next (r.2.launched o (if r.1 = 0 then 0 else 0x80000000 + r.1))

/-- TRIG: a package release, then the active lanes are triggered (R93). -/
def execTrig (h : Hdr) (_o : LaunchOps) (s : State) : Out' :=
  match activeLanes s h with
  | [] => .next s.advance
  | ls =>
    let r := s.release s.cur.slot s.fresh .package
    if r.1 then
      .next ((r.2.setCurG (r.2.curG.onMask (lanesMask ls) fun x => { x with trig := true })).advance)
    else .next (r.2.block s.cur.mask .release)

/-- What CHUNK makes of a dispenser record: start, count and the new NEXT (R94). -/
def chunkOf (d nteams : Nat) : Nat × Nat × Nat :=
  let next := bits d 0 32
  let cmin := bits d 64 16
  let fq := bits d 80 16
  if cmin = 0 ∨ fq = 0 ∨ bits d 128 128 ≠ 0 then (0xFFFFFFFF, 0, next)
  else
    let c := if bits d 96 32 = 0 then nteams else bits d 96 32
    let rem := bits d 32 32 - next
    let n := min rem (max cmin (cdiv (rem * 256) (fq * c)))
    (next, n, next + n)

/-- CHUNK (R94): one read-modify-write at the home slice. It follows an older acquire of the group (R317), and older loads of
the record's bytes (R319). -/
def execChunk (h : Hdr) (o : LaunchOps) (s : State) : Out' :=
  match activeLanes s h with
  | [] => .next s.advance
  | _ =>
    let slot := s.cur.slot
    let core := slotCore slot
    let pasid := s.pasidOf slot
    let a := srcAddr s s.curG o.a
    if a % 32 ≠ 0 then .next (s.trap 2 1 a)
    else match (s.look core pasid a 1).thread with
      | .bad r => .next ((s.dropBad core pasid (a / 4096)).trap 3 (r + 16) a)
      | .data => .next ((s.dropBad core pasid (a / 4096)).trap 8 1 a)
      | .miss => .next ((s.want core pasid a 1 .miss).block s.cur.mask (.xlate pasid (a / 4096)))
      | .deny => .next ((s.want core pasid a 1 .deny).block s.cur.mask (.xlate pasid (a / 4096)))
      | .hit (.dev d) =>
        let key := l1key pasid a
        let ls := (List.range 32).map fun i => Loc.dev (d + i)
        if s.curG.acqBefore s.fresh s.fresh then .next (s.block s.cur.mask .acq)
        else
        let s := s.captureMet slot s.fresh ls
        if !s.noneMet slot s.fresh ls then .next (s.block s.cur.mask (.drain s.fresh))
        else
        let sel (k : Nat) : Bool := decide (key ≤ k ∧ k < key + 32)
        if s.curG.sq.any fun e => e.locs.any fun l => match l with
            | .dev x => decide (d ≤ x ∧ x < d + 32)
            | _ => false then .next (s.block s.cur.mask (.drain s.fresh))
        else if s.ownedLine (d / 128) then .next (s.block s.cur.mask (.owned (d / 128)))
        else
          let s1 := (s.wbSel core sel).dropKeys core sel
          if s1.poisoned (.dev d) then .next ((s1.logError (.dev d)).trap 8 1 a)
          else
            let r := chunkOf (leNat (s1.devBytes d 32)) (s.gridOf slot).l.nteams
            let s2 := s1.homePut (.dev d) (leBytes 4 r.2.2)
            .next ((s2.outU o.d [BitVec.ofNat 32 r.1, BitVec.ofNat 32 r.2.1]).advance)
      | .hit (.host _) => .next (s.trap 3 (5 + 16) a)
      | .hit _ => .next (s.trap 3 (3 + 16) a)

/-- MBOXARM (R95). -/
def execMboxarm (h : Hdr) (o : LaunchOps) (s : State) : Out' :=
  match activeLanes s h with
  | [] => .next s.advance
  | _ =>
    .next (s.hubCall o (.arm (srcAddr s s.curG o.a)) (s.gridPrio (s.gridOf s.cur.slot)))

/-- MBOXARM.d (R95). -/
def execMboxarmD (h : Hdr) (o : LaunchOps) (s : State) : Out' :=
  match activeLanes s h with
  | [] => .next s.advance
  | _ =>
    let r := s.mboxDisarm (s.pasidOf s.cur.slot) (src s s.curG 0 o.a 0).toNat
    .next (r.2.launched o r.1)

/-- STEP (R96). -/
def execStepCtr (h : Hdr) (o : LaunchOps) (s : State) : Out' :=
  match activeLanes s h with
  | [] => .next s.advance
  | _ =>
    let p := s.pasidOf s.cur.slot
    let v := s.stepOf p + (src s s.curG o.imm o.a 0).signExtend 64
    .next ((s.setStep p v).launched o (v.toNat % 2 ^ 32))

/-- Hint one page (R97): its logical page takes the priority and next-use step; an unmapped one is ignored. -/
def State.hintPage (s : State) (pasid prio : Nat) (next : Word) (vpage : Nat) : State :=
  match s.walk pasid (vpage * 65536) with
  | .ok la _ _ =>
    (match s.formOf la with
     | .inl (.dev a) => s.setPage (a / 65536) { s.page (a / 65536) with prio, next := some next, pasid }
     | _ => s)
  | _ => s

/-- Hint every page of a range. -/
def State.hintRange (s : State) (pasid prio : Nat) (next : Word) (va len : Nat) : State :=
  if len = 0 then s
  else (List.range ((va + len - 1) / 65536 - va / 65536 + 1)).foldl (fun s i =>
    s.hintPage pasid prio next ((va / 65536 + i) % 2 ^ 40)) s

/-- LHINT (R97). -/
def execLhint (h : Hdr) (o : LaunchOps) (s : State) : Out' :=
  match activeLanes s h with
  | [] => .next s.advance
  | _ =>
    let p := s.pasidOf s.cur.slot
    let next := if o.rel then o.imm + (s.stepOf p).extractLsb' 0 32 else o.imm
    .next ((s.hintRange p o.prio.toNat next (srcAddr s s.curG o.a) (src s s.curG 0 o.b 0).toNat).advance)

end Sys2Proof.Machine
end

