-- ==== Sys2Proof/Machine/Place.lean ====
section
/-! DEFINITION. The dispatcher: admission (R11), ranking of cores (R88), rectangles for clusters (R89), the order of
requests (R86), and the start of teams with their parameters, staged regions and private areas (R13, R20, R163). -/

namespace Sys2Proof.Machine

/-! ### Admission -/

/-- Slots that resident teams hold. -/
def State.heldSlots (s : State) (core : Nat) : List Nat :=
  (s.teams.filter fun t => t.2.used && t.2.core == core).flatMap fun t => t.2.slots

/-- Free slots of each partition of a core, and the register words in use there. -/
def State.partLoad (s : State) (core : Nat) : List (List Nat × Nat) :=
  let held := s.heldSlots core
  (List.range 6).map fun p =>
    let all := (List.range 32).map fun j => (core * 6 + p) * 32 + j
    (all.filter fun k => !held.contains k && (s.group k).sq.isEmpty,
     (all.filter held.contains).foldl (fun n k =>
       n + (s.group k).width * 8 * (s.grid (s.team (s.group k).tid).grid).k.regs) 0)

/-- Index of the partition with the most free slots, the lowest of equals. -/
def mostFree (ps : List (List Nat × Nat)) : Nat :=
  (ps.zipIdx.foldl (fun (b : Nat × Nat) p => if b.2 < p.1.1.length then (p.2, p.1.1.length) else b) (0, 0)).1

/-- Assign `n` groups of `words` register words (R11): the slots in ascending %group. -/
def assignGo (words : Nat) : Nat → List (List Nat × Nat) → Option (List Nat)
  | 0, _ => some []
  | n + 1, ps =>
    let i := mostFree ps
    match ps[i]? with
    | some (k :: rest, w) =>
      if w + words ≤ 65536 then (assignGo words n (ps.set i (rest, w + words))).map fun l => k :: l else none
    | _ => none

/-- The slots a team of kernel `k` would take on a core. -/
def State.assign (s : State) (core : Nat) (k : Kernel) : Option (List Nat) :=
  assignGo (k.width * 8 * k.regs) k.groups (s.partLoad core)

/-- Areas of a pool in use, ascending. -/
def State.privUsed (s : State) (pasid : Nat) : List (Nat × Nat) :=
  sortBy Prod.fst ((s.privs.filter fun p => p.1 == pasid).map fun p => p.2)

/-- Gaps of at least `need` bytes: (first base, number of 256-byte aligned positions). -/
def gapsGo (stop need : Nat) : Nat → List (Nat × Nat) → List (Nat × Nat)
  | a, [] => if a + need ≤ stop then [(a, (stop - a - need) / 256 + 1)] else []
  | a, (b, n) :: r =>
    (if a + need ≤ b then [(a, (b - a - need) / 256 + 1)] else []) ++ gapsGo stop need (max a (cdiv (b + n) 256 * 256)) r

/-- Positions for a private area (R163). -/
def State.privGaps (s : State) (pasid need : Nat) : List (Nat × Nat) :=
  let p := s.pool pasid
  gapsGo (p.1 + p.2) need p.1 (s.privUsed pasid)

/-- The `n`-th position of the gaps. -/
def nthGap : List (Nat × Nat) → Nat → Nat
  | [], _ => 0
  | (a, c) :: r, n => if n < c then a + 256 * n else nthGap r (n - c)

/-- The pool has room for `n` areas of a cluster at once (R163): the areas its gaps hold one after another. -/
def State.poolTakes (s : State) (pasid need n : Nat) : Bool :=
  need == 0 || decide (n ≤ (s.privGaps pasid need).foldl (fun m g => m + ((g.2 - 1) * 256 + need) / need) 0)

/-- Macros of a team's shelves. -/
def Team.shelfMacros (t : Team) : Nat :=
  (List.range 16).foldl (fun n i => if (t.shelf i).st == .free then n else n + (t.shelf i).nm) 0

/-- Bytes of a team's private area. -/
def Kernel.privBytes (k : Kernel) : Nat := k.groups * k.pwords * 256

/-- A core admits a team (R11, R163, R213). `extra` counts macros of shelves, for a team that resumes; `fresh` asks for
a private area. -/
def State.admits (s : State) (core pasid : Nat) (k : Kernel) (extra : Nat) (fresh : Bool) : Bool :=
  let ts := s.teams.filter fun t => t.2.used && t.2.core == core && (t.2.st == .running || t.2.st == .stopping)
  let threads := ts.foldl (fun n t => n + t.2.slots.foldl (fun n k => n + (s.group k).width) 0) 0
  let macs := ts.foldl (fun n t => n + t.2.macs.length) 0
  let cells := ts.foldl (fun n t => n + (s.grid t.2.grid).k.cells) 0
  let need := cdiv k.scratch 65536 + extra
  (s.core core).en && (s.assign core k).isSome && decide (threads + k.tthreads ≤ 4096) &&
  decide (macs + need ≤ 32) && decide (need ≤ (s.macroOrder core (extra == 0)).length) &&
  decide (cells + k.cells ≤ 64) && (s.stations core).isEmpty &&
  (!fresh || k.privBytes == 0 || !(s.privGaps pasid k.privBytes).isEmpty)

/-! ### Ranking and rectangles -/

/-- Cores an aged cluster has reserved (R89). -/
def State.barred (s : State) (grid : Nat) : List Nat :=
  (s.grids.filter fun g => g.num != grid && g.aged).flatMap Grid.resv

/-- Pages of a kernel's regions on the stacks of die 0 and die 1 (R88). -/
def State.regionPages (s : State) (pasid : Nat) (rs : List Region) : Nat × Nat :=
  rs.foldl (fun n r =>
    (List.range ((r.src + r.len - 1) / 65536 - r.src / 65536 + 1)).foldl (fun n i =>
      match s.walk pasid ((r.src / 65536 + i) * 65536) with
      | .ok la _ _ =>
        (match (s.page (la % 2 ^ 44 / 65536)).place with
         | .hbm k => if k < 4 then (n.1 + 1, n.2) else (n.1, n.2 + 1)
         | _ => n)
      | _ => n) n) (0, 0)

/-- The core's shelves hold one that the kernel's last run there named (R88, R216). -/
def State.shelfHit (s : State) (core : Nat) (kid : Word) : Bool :=
  match (s.core core).kids.find? fun e => e.1 == kid with
  | some e =>
    (s.retained.any fun r => r.core == core && e.2.2.contains r.src) ||
    (s.residents core).any fun t => (List.range 16).any fun i =>
      ((s.team t).shelf i).st != .free && e.2.2.contains ((s.team t).shelf i).src
  | none => false

/-- Rank of a core, smaller first (R88). -/
def State.coreRank (s : State) (kid : Word) (pages : Nat × Nat) (core : Nat) : Nat :=
  let threads := (s.heldSlots core).foldl (fun n k => n + (s.group k).width) 0
  let mine := if core < 100 then pages.1 else pages.2
  (if s.shelfHit core kid then 0 else 1) * 2 ^ 60 + (2 ^ 40 - min mine (2 ^ 40)) * 2 ^ 20 + threads * 2 ^ 8 + (s.core core).num

/-- The best of the cores that take a team. -/
def State.pickCore (s : State) (grid pasid : Nat) (k : Kernel) (rs : List Region) (extra : Nat) (fresh : Bool) : Option Nat :=
  let barred := s.barred grid
  let ok := (List.range 200).filter fun c => !barred.contains c && s.admits c pasid k extra fresh
  let pages := if ok.length ≤ 1 then (0, 0) else s.regionPages pasid rs
  (sortBy (s.coreRank k.kid pages) ok).head?

/-- The rectangle of a cluster with the most cores that admit a team (R89). -/
def State.pickRect (s : State) (g : Grid) : Option (List Nat) :=
  let adm := (List.range 200).filter fun c => s.admits c g.pasid g.k 0 true
  let score (r : List Nat) : Nat := (r.filter adm.contains).length
  ((s.rects g.k.clw g.k.clh).foldl (fun (b : Option (List Nat × Nat)) r =>
    match b with
    | some x => if x.2 < score r then some (r, score r) else b
    | none => some (r, score r)) none).map Prod.fst

/-- CLUSTER_RESERVE: choose the rectangle, and reserve a core of it that admits its team (R89). -/
def State.clusterReserve (s : State) (grid core : Nat) : State :=
  let g := s.grid grid
  if g.k.clw * g.k.clh ≤ 1 || g.l.nteams ≤ g.started || g.faulted then s
  else
    let keep := !g.rect.isEmpty && g.rect.all fun c => (s.core c).en
    match if keep then some g.rect else s.pickRect g with
    | none => s
    | some r =>
      let resv := if keep then g.resv else []
      let add := r.contains core && !resv.contains core && !(s.barred grid).contains core && s.admits core g.pasid g.k 0 true
      s.modGrid grid fun g => { g with rect := r, resv := if add then resv ++ [core] else resv }

/-- GANG_AGE_EXPIRE: the cluster's age has passed GANGAGE (R89). -/
def State.gangAge (s : State) (grid : Nat) : State :=
  let g := s.grid grid
  if g.ageUs ≠ 0 ∧ !g.aged ∧ s.fld 0x120000 0 32 < s.us - (g.ageUs - 1) then s.modGrid grid fun g => { g with aged := true }
  else s

/-! ### The order of requests -/

/-- A request of the dispatcher: more teams of a grid, or a stopped team to resume. -/
inductive Req where
  | grid (n : Nat)
  | resume (tid : Nat)
  deriving DecidableEq, Repr

/-- The next cluster or team of a grid can start now. -/
def State.gridPlaceable (s : State) (g : Grid) : Bool :=
  if g.faulted || g.l.nteams ≤ g.started then false
  else if g.k.clw * g.k.clh ≤ 1 then (s.pickCore g.num g.pasid g.k g.regs 0 true).isSome
  else
    let barred := s.barred g.num
    !g.rect.isEmpty && s.poolTakes g.pasid g.k.privBytes (g.k.clw * g.k.clh) &&
      g.rect.all fun c => g.resv.contains c && !barred.contains c && s.admits c g.pasid g.k 0 true

/-- Teams of a team's cluster. -/
def State.clusterOf (s : State) (tid : Nat) : List Nat :=
  let t := s.team tid
  let k := (s.grid t.grid).k
  let n := k.clw * k.clh
  sortBy (fun i => (s.team i).rank)
    ((s.teams.filter fun e => e.2.used && e.2.grid == t.grid && e.2.idx / n == t.idx / n).map Prod.fst)

/-- A stopped cluster may be resumed: every team saved, and RESUME written for PRECTL stops (R334). -/
def State.resumable (s : State) (tid : Nat) : Bool :=
  (s.team tid).st == .stopped && (s.clusterOf tid).head? == some tid &&
  (s.clusterOf tid).all fun i => (s.team i).st == .stopped && (!(s.team i).byPrectl || (s.team i).resume)

/-- The cores the teams of a stopped cluster would resume on, in the order of `clusterOf`: each team on the core of its rank
in the first rectangle whose cores take them (R10, R89). A kernel without clusters takes the best core. -/
def State.resumeCores (s : State) (tid : Nat) : Option (List Nat) :=
  let t := s.team tid
  let g := s.grid t.grid
  let extra (i : Nat) : Nat := (s.team i).shelfMacros
  if g.k.clw * g.k.clh ≤ 1 then (s.pickCore g.num g.pasid g.k g.regs (extra tid) false).map fun c => [c]
  else
    let ts := s.clusterOf tid
    let barred := s.barred g.num
    let at' (r : List Nat) (i : Nat) : Nat := r.getD (s.team i).rank 0
    ((s.rects g.k.clw g.k.clh).find? fun r =>
      ts.all fun i => !barred.contains (at' r i) && s.admits (at' r i) g.pasid g.k (extra i) false).map fun r => ts.map (at' r)

/-- Requests that wait, with priority and class (0 resume, 1 started grid, 2 fresh) and order within it. -/
def State.requests (s : State) : List (Req × Nat × Nat × Nat) :=
  ((s.teams.filter fun e => e.2.used && s.resumable e.1).map fun e =>
    (Req.resume e.1, s.gridPrio (s.grid e.2.grid), 0, e.1)) ++
  ((s.grids.filter fun g => !g.faulted && decide (g.started < g.l.nteams)).map fun g =>
    if 0 < g.started then (Req.grid g.num, s.gridPrio g, 1, g.startSeq) else (Req.grid g.num, s.gridPrio g, 2, g.seq))

/-- The request can be placed. -/
def State.placeable (s : State) : Req → Bool
  | .grid n => s.gridPlaceable (s.grid n)
  | .resume t => (s.resumeCores t).isSome

/-- The first of requests of one priority (R86): resumptions, then grids already started, then fresh ones alternating
between queues round-robin and the device's in order of acceptance. -/
def State.firstOf (s : State) (rs : List (Req × Nat × Nat × Nat)) : Option Req :=
  let low (c : Nat) : Option Req := ((sortBy (fun r => r.2.2.2) (rs.filter fun r => r.2.2.1 == c)).head?).map Prod.fst
  let fresh := rs.filter fun r => r.2.2.1 == 2
  let q (r : Req × Nat × Nat × Nat) : Option Nat := match r.1 with
    | .grid n => s.srcQueue (s.grid n).src
    | .resume _ => none
  let fromQ := fresh.filter fun r => (q r).isSome
  let fromD := fresh.filter fun r => (q r).isNone
  let qf := ((sortBy (fun r => (((q r).getD 0 + 63 - s.rrQueue) % 64) * 2 ^ 40 + r.2.2.2) fromQ).head?).map Prod.fst
  let df := ((sortBy (fun r => r.2.2.2) fromD).head?).map Prod.fst
  match low 0, low 1 with
  | some r, _ => some r
  | none, some r => some r
  | none, none => if s.rrDevice then (qf.or df) else (df.or qf)

/-- Requests of the highest priority among those given. -/
def topPrio (rs : List (Req × Nat × Nat × Nat)) : List (Req × Nat × Nat × Nat) :=
  let m := rs.foldl (fun m r => max m r.2.1) 0
  rs.filter fun r => r.2.1 == m

/-- What the dispatcher places next. -/
def State.best (s : State) : Option Req :=
  s.firstOf (topPrio (s.requests.filter fun r => s.placeable r.1))

/-- The dispatcher's first unplaced request (R89). -/
def State.topRequest (s : State) : Option Req := s.firstOf (topPrio s.requests)

/-! ### Starting teams -/

/-- Read a range for staging or parameters: the bytes, the cause and address of a failure, or a wait. -/
def State.startRead (s : State) (pasid va n : Nat) : Ag × List Byte × State := s.agRead hubCore pasid (va % 2 ^ 56) n

/-- The first range of a read that fails with a cause. -/
def State.failAddr (s : State) (pasid va n : Nat) (e : Ag) : Nat :=
  (((chunksOf (va % 2 ^ 56) n).find? fun c => (s.startRead pasid c.1 c.2).1 == e).map Prod.fst).getD va

/-- Read every staged region: (offset, bytes), or the cause and address of the first failure. -/
def State.stageRead (s : State) (pasid : Nat) : List Region → (Ag × Nat) × List (Nat × List Byte) × State
  | [] => ((.ok, 0), [], s)
  | r :: rs =>
    if r.stage then
      let a := s.startRead pasid r.src r.len
      match a.1 with
      | .ok =>
        let b := a.2.2.stageRead pasid rs
        (b.1, (r.dest, a.2.1) :: b.2.1, b.2.2)
      | e => ((e, s.failAddr pasid r.src r.len e), [], a.2.2)
    else s.stageRead pasid rs

/-- Fill a private area with free values (R13): 8 bytes at a time, where its pages are mapped. -/
def State.fillPriv (s : State) (pasid : Nat) : Nat → Nat → State
  | 0, _ => s
  | n + 1, va =>
    let s1 := { s with free := s.free + 1 }
    (match s.walk pasid va with
     | .ok la _ _ => (match s.formOf la with
       | .inl (.dev a) => s1.homePut (.dev a) (leBytes 8 (Config.free64 s.free).toNat)
       | _ => s1)
     | _ => s1).fillPriv pasid n (va + 8)

/-- Take a private area for a team at a free position of the pool that leaves room for the `left` areas its cluster still
needs; the first position always does (R163). -/
def State.takePriv (s : State) (pasid need left : Nat) : Nat × State :=
  if need = 0 then (0, s)
  else
    let gs := s.privGaps pasid need
    let total := gs.foldl (fun n g => n + g.2) 0
    let r := s.freeVal
    let took (pb : Nat) : State := { r.2 with privs := (pasid, pb, need) :: r.2.privs }
    let pb0 := nthGap gs (r.1.toNat % max 1 total)
    let pb := if (took pb0).poolTakes pasid need left then pb0 else nthGap gs 0
    (pb, State.fillPriv (took pb) pasid (need / 8) pb)

/-- A group at its first instruction (R13, R347). -/
def State.newGroup (s : State) (tid gidx : Nat) (k : Kernel) (params : List Word) : Group :=
  { Group.reset with
    st := .pending, tid, gidx, width := k.width, trapvec := BitVec.ofNat 52 (s.fld 0x160020 0 52),
    lanes := List.replicate k.width { Lane.reset with pc := BitVec.ofNat 24 k.entry },
    s := Tab.setSeq 0 [] 0 (params.take (8 * k.uregs)) }

/-- Groups join the pending lists of their partitions (R105). -/
def State.pendGroups (s : State) (slots : List Nat) : State :=
  slots.foldl (fun s k => s.setPart (slotPart k) { s.part (slotPart k) with pending := (s.part (slotPart k)).pending ++ [k] }) s

/-- Drop the L1 bytes of an area on a core, and the core's blocks of the PASID's code: a team that starts or resumes
fetches its code anew (R327). -/
def State.dropArea (s : State) (core pasid pb n : Nat) : State :=
  let s1 := s.modCore core fun c => { c with icache := c.icache.filter fun b => b.sup || b.pasid != pasid }
  s1.keepL1 core fun k _ => !(decide (l1key pasid pb ≤ k ∧ k < l1key pasid pb + n) && decide (0 < n))

/-- Start one team on a core (R11, R13, R17, R20, R297, R327). -/
def State.startTeam (s : State) (g : Grid) (core rank idx : Nat) (params : List Word) (stage : List (Nat × List Byte)) :
    State :=
  let slots := (s.assign core g.k).getD []
  let f := s.freshId
  let tid := f.1
  let p := f.2.takePriv g.pasid g.k.privBytes (g.k.clw * g.k.clh - 1 - rank)
  let t : Team := { Team.reset with used := true, grid := g.num, idx, core, rank, pb := p.1, pbytes := g.k.privBytes,
                                    slots, st := .running }
  let s1 := (((p.2.noteRun core g.k.kid g.num).dropArea core g.pasid p.1 g.k.privBytes).dropClean core).setTeam tid t
  let s2 := (s1.takeMacros tid 0 (cdiv g.k.scratch 65536) true).getD s1
  let s3 := stage.foldl (fun s r => s.scrStore (s.team tid) r.1 r.2) s2
  let s4 := slots.zipIdx.foldl (fun s q => s.setGroup q.1 (s.newGroup tid q.2 g.k params)) s3
  (s4.pendGroups slots).modGrid g.num fun g => { g with started := g.started + 1 }

/-- The grid starts with its first team (R21, R23). -/
def State.gridStarts (s : State) (g : Grid) (params : List Word) : State :=
  if g.st == .waiting then
    let s1 := s.modGrid g.num fun x => { x with st := .running, params := some params, startSeq := s.fresh }
    let s2 := { s1 with fresh := s1.fresh + 1 }
    let s3 := (s2.gstatus g.pasid g.lrec 1).setStep g.pasid (s2.stepOf g.pasid + g.l.stepadv.zeroExtend 64)
    match s.srcQueue g.src with
    | some q => { s3 with rrQueue := q, rrDevice := false }
    | none => { s3 with rrDevice := true }
  else s

/-- Parameter words of a grid (R13, R24, R32): the block, with the slot address in s0 and s1 for a handler. -/
def paramWords (g : Grid) (bs : List Byte) : List Word :=
  let ws := wordsOf (bs.take g.k.plen)
  match g.slotVa with
  | some a => [BitVec.ofNat 32 a, BitVec.ofNat 32 (a / 2 ^ 32)] ++ ws.drop 2
  | none => ws

/-- A staging error (R20): before any thread of the grid has issued it rejects the launch, later it ends the grid as
faulted. -/
def State.stageFails (s : State) (g : Grid) (cause addr : Nat) : State :=
  if g.issued then s.abortGrid g.num (BitVec.ofNat 32 cause) 0 addr
  else
    let ts := s.teamsOf g.num
    let s1 := ts.foldl State.killTeam s
    let s2 := { s1 with teams := s1.teams.filter fun t => !ts.contains t.1,
                        privs := s1.privs.filter fun p => !ts.any fun t =>
                          p.1 == g.pasid && p.2.1 == (s.team t).pb && (s.team t).pbytes != 0 }
    s2.rejectGrid g cause addr

/-- TEAM_START: the dispatcher's choice is this grid; its next team, or the whole of its next cluster, starts (R86 to
R89). -/
def State.teamStart (s : State) (grid : Nat) : State :=
  if s.best != some (.grid grid) then s
  else
    let g := s.grid grid
    let n := g.k.clw * g.k.clh
    let cores := if n ≤ 1 then ((s.pickCore g.num g.pasid g.k g.regs 0 true).map fun c => [c]).getD [] else g.rect
    let px := match g.params with
      | some ws => (Ag.ok, ws, s)
      | none =>
        let a := s.startRead g.pasid g.l.param g.k.plen
        (a.1, paramWords g a.2.1, a.2.2)
    match px.1 with
    | .wait => px.2.2
    | .fail c => px.2.2.stageFails g c (s.failAddr g.pasid g.l.param g.k.plen (.fail c))
    | .ok =>
      let sx := px.2.2.stageRead g.pasid g.regs
      match sx.1.1 with
      | .wait => sx.2.2
      | .fail c => sx.2.2.stageFails g c sx.1.2
      | .ok =>
        let s1 := sx.2.2.gridStarts g px.2.1
        let s2 := cores.zipIdx.foldl (fun s p => s.startTeam g p.1 p.2 (g.started + p.2) px.2.1 sx.2.1) s1
        s2.modGrid grid fun g => { g with rect := [], resv := [], ageUs := 0, aged := false }

end Sys2Proof.Machine
end

