-- ==== Sys2Proof/Machine/Retire.lean ====
section
/-! DEFINITION. The end of teams and the retirement of grids (R357 to R359, R329), and the nodes of a graph run: start
and completion (R29, R30). -/

namespace Sys2Proof.Machine

/-! ### The end of a team -/

/-- Nothing of the group runs any more: its threads have exited and its stores have been performed. -/
def Group.isOver (g : Group) : Bool := (g.lanes.all fun x => x.exited) && g.sq.isEmpty

/-- Every thread of the team has exited and its stores have been performed (R357, step 1). -/
def State.teamOver (s : State) (tid : Nat) : Bool :=
  let t := s.team tid
  t.used && t.saved.isEmpty && t.slots.all fun k => (s.group k).isOver

/-- Commands of a team, of the kinds a test selects, oldest first. -/
def State.cmdsOf (s : State) (tid : Nat) (f : CmdKind → Bool) : List Cmd :=
  sortBy Cmd.id (s.cmds.filter fun c => c.tid == tid && f c.kind && decide (c.core < hubCore))

/-- Unfinished copy and gather commands finish CANCELLED, and an outstanding FFPBND is cancelled (R237, R259). -/
def State.cancelCmds (s : State) (tid : Nat) : State :=
  let s1 := (s.cmdsOf tid fun k => k == .copy || k == .gather).foldl (fun s c => s.enEnd c 5) s
  (s1.cmdsOf tid fun k => k == .ffpbnd).foldl (fun s c => s.bndEnd c 5 (!c.data.isEmpty)) s1

/-- With the cluster's last team the unfinished tile tasks finish CANCELLED (R265). -/
def State.cancelTiles (s : State) (tid : Nat) : State :=
  if (s.clusterTeams tid).any fun i => i != tid then s
  else (s.tasks tid).foldl (fun s c => s.tileDone c 5) s

/-- Unstation every shelf of a team (R215, R216). -/
def State.freeShelves (s : State) (tid : Nat) : State :=
  (List.range 16).foldl (fun s i => if ((s.team tid).shelf i).st == .free then s else s.freeShelf tid i) s

/-- Free what a team held: slots, private area and supervisor area (R357, step 5). -/
def State.freeTeam (s : State) (tid : Nat) : State :=
  let t := s.team tid
  let gr := s.grid t.grid
  let s1 := t.slots.foldl (fun s k => s.setGroup k Group.reset) s
  let t1 : Team := { t with used := false, slots := [], macs := [], cells := [], shelves := [], held := [] }
  let s2 := s1.setTeam tid t1
  { s2 with privs := s2.privs.filter fun p => !(p.1 == gr.pasid && p.2.1 == t.pb && t.pbytes != 0),
            scr := s2.scr.filter fun e => e.1 / 2 ^ 21 != t.ctxCore,
            supMem := s2.supMem.filter fun e => e.1 / 2 ^ 32 != tid }

/-- The teams of an ended cluster are forgotten with its last team. -/
def State.forgetCluster (s : State) (tid : Nat) : State :=
  let t := s.team tid
  let k := (s.grid t.grid).k
  let n := k.clw * k.clh
  let mine (u : Team) : Bool := u.grid == t.grid && u.idx / n == t.idx / n
  if s.teams.any fun e => e.2.used && mine e.2 then s
  else { s with teams := s.teams.filter fun e => !mine e.2 }

/-- TEAM_END: the order of R357. It waits while a tile task reads one of its shelves (R215) or the home of a dirty line
holds its write-back (R175). A mailbox handler has exited with its team (R32). -/
def State.teamEnd (s : State) (tid : Nat) : State :=
  if !s.teamOver tid then s
  else
    let t := s.team tid
    let s1 := (s.cancelCmds tid).cancelTiles tid
    let s2 := (List.range 16).foldl (fun s i => s.cancelLoad tid i) s1
    if (List.range 16).any fun i => s2.shelfRead tid i then s2
    else
      let s3 := ((s2.freeShelves tid).freeCells tid).wbAll t.core
      if !s3.cleanSel t.core (fun _ => true) then s3
      else
        let s4 := (s3.freeTeam tid).modGrid t.grid fun g => { g with ended := g.ended + 1 }
        let s5 := match (s4.grid t.grid).src with
          | .mbox n => if (s4.mbox n).running == some t.grid then s4.mboxExit n else s4
          | _ => s4
        (s5.forgetCluster tid).stalemate t.core

/-! ### Retirement -/

/-- The end-of-grid scope code E (R329): RSCOPE with 0 read as package, raised by FABRIC_COMPLETE. -/
def endScope (l : Launch) : Nat :=
  let e := if l.rscope = 0 then 6 else l.rscope
  if l.fab then (if e = 6 then 8 else if e = 7 then 9 else e) else e

/-- Every team of the grid that started has ended, none is still to start, and no agent of it is at work: no command, and no
node of a graph that one of its teams launched (R315, R358). -/
def State.gridOver (s : State) (g : Grid) : Bool :=
  g.st == .running && g.ended == g.started && (g.faulted || g.started == g.l.nteams) && (s.teamsOf g.num).isEmpty &&
  (s.cmds.all fun c => c.grid != g.num) && s.nodes.all fun n => (s.run? n.run).map Run.grid != some g.num

/-- Peers of a mask. -/
def maskPeers (m : Mask) : List Nat := maskLanes 64 m

/-- Send the FLUSH flits of a retiring grid (R359). -/
def State.sendFlush (s : State) (g : Grid) : State :=
  let s1 := (maskPeers g.peers).foldl (fun s p =>
    if s.canSend p then s.sendFlit { Flit.blank 8 p with tag := g.num } else s) s
  s1.modGrid g.num fun x => { x with flushed := true, waitAck := g.peers, flushAt := s.now }

/-- Final status of a grid and the cause its cell or node receives (R350, R359). -/
def Grid.outcome (g : Grid) : Nat × Nat :=
  if g.faulted then (0x8F, 5) else if g.fabfail then (0x8E, 0x0E) else (2, 0)

/-- At retirement the pages of the regions take LPRIO and NEXTUSE (R19). -/
def State.regionsEnd (s : State) (g : Grid) : State :=
  g.regs.foldl (fun s r => s.hintRange g.pasid r.lprio r.nextuse r.src r.len) s

/-- Status writes, reports and the completion interrupt (R329, steps 3 and 4); the cabinet records the grid and its status
(R375, log entry 32). -/
def State.retire (s : State) (g : Grid) : State :=
  let o := g.outcome
  let s1 := ((s.regionsEnd g).gstatus g.pasid g.lrec o.1).record 7 0 0xFFFF (BitVec.ofNat 64 g.num) (BitVec.ofNat 64 o.1)
  let s2 := State.report { s1 with grids := s1.grids.filter fun x => x.num != g.num } g.src o.1 none o.2
  match g.src with
  | .queue q _ => if g.l.cirq then s2.msix q else s2
  | _ => s2

/-- GRID_RETIRE: the end-of-grid release, then the reports (R329, R358, R359). -/
def State.gridRetire (s : State) (grid : Nat) : State :=
  match s.grids.find? fun g => g.num == grid with
  | none => s
  | some g =>
    if !s.gridOver g then s
    else if 8 ≤ endScope g.l ∧ !g.flushed ∧ g.peers ≠ 0 then s.sendFlush g
    else if g.waitAck ≠ 0 then s
    else if !s.canStatus g.pasid (g.lrec + 56) then
      (s.agXl hubCore g.pasid 1 false [((g.lrec + 56) % 2 ^ 56, 8)]).2.2
    else s.retire g

/-- FABRIC_FLUSH_TIMEOUT: TFAB cycles have passed without every FLUSHACK (R359). -/
def State.flushTimeout (s : State) (grid : Nat) : State :=
  match s.grids.find? fun g => g.num == grid with
  | none => s
  | some g =>
    if g.flushed && g.waitAck != 0 && decide (s.fld 0x190008 0 32 ≤ s.now - g.flushAt) then
      s.modGrid grid fun x => { x with fabfail := true, waitAck := 0 }
    else s

/-! ### Nodes of a graph run -/

/-- A sealed launch record as a record that could be read whole. -/
def launchRec (l : Launch) : Rec :=
  let b (x : Bool) (n : Nat) : Nat := if x then 2 ^ n else 0
  { v := l.krec + l.nteams * 2 ^ 64 + l.rscope * 2 ^ 96 + b l.fab 100 + b l.early 101 + b l.cirq 102 +
      l.param * 2 ^ 128 + l.stepadv.toNat * 2 ^ 192,
    known := 2 ^ 512 - 1 }

/-- One stack's part of a node before it starts. -/
def NStack.fresh (stack : Nat) : NStack :=
  { stack, started := false, fin := false, stopped := false, gran := 0, posted := false, wrote := 0, sub := 0, desc := 0,
    cause := 0, more := false, full := false, disc := 0, count := 0, drawers := [], sums := [], visited := [], spawned := [], walkers := [], spill := [] }

def State.setNode (s : State) (run node : Nat) (x : NodeSt) : State :=
  { s with runs := s.runs.map fun r => if r.num = run then { r with st := r.st.set node x } else r }

/-- The kernel node's launch: validated again, accepted or rejected (R23, R24). -/
def State.nodeLaunch (s : State) (r : Run) (node : Nat) (n : GNode) : State :=
  let v := s.validate r.pasid (launchRec (n.l.getD Launch.none))
  match v.1 with
  | none => v.2
  | some x =>
    if !v.2.canStatus r.pasid (n.lrec + 56) then (v.2.agXl hubCore r.pasid 1 false [((n.lrec + 56) % 2 ^ 56, 8)]).2.2
    else if x.code ≠ 0 then (v.2.gstatus r.pasid n.lrec x.code).setNode r.num node (.ending 0x0F)
    else
      let a := v.2.acceptGrid r.pasid n.lrec x (.node r.num node) r.prio r.pre none
      a.2.setNode r.num node .running

/-- The copy command of a copy node; its core number marks the hub, its grid the one whose team launched it (R315). -/
def State.nodeCopy (s : State) (r : Run) (node : Nat) (n : GNode) : State :=
  let c : Cmd :=
    { id := s.fresh, kind := .nodeCopy, tid := 0, core := hubCore, pasid := r.pasid, grid := r.grid, serial := 0,
      words := n.xcmd, st := .accepted, slot := 0, mark := 0, pos := 0, cnt0 := 0, cnt1 := 0, cnt2 := 0,
      aux0 := r.num, aux1 := node, aux2 := n.gran, aux3 := 0, cause := 0, owns := [], pins := [], data := [],
      tag := none }
  (s.addCmd c).setNode r.num node .running

/-- The near-memory call of a node (R272). -/
def State.nodeCall (s : State) (r : Run) (node : Nat) (n : GNode) : State :=
  let stackList := (List.range 8).filter fun i => bitAt n.stackMask i
  let c : NNode :=
    { id := s.fresh, run := r.num, node, pasid := r.pasid, prio := r.prio, ep := n.ep, args := n.args, gran := n.gran,
      parts := stackList.map NStack.fresh, asgn := 0, rows := [], stopped := false, startSeq := s.fresh, pub := false }
  State.setNode { s with nodes := s.nodes ++ [c], fresh := s.fresh + 1 } r.num node .running

/-- GRAPH_NODE_START (R29). -/
def State.nodeStart (s : State) (run node : Nat) : State :=
  match s.run? run with
  | none => s
  | some r =>
    if !s.nodeReady r node then s
    else match r.nodes[node]? with
      | none => s
      | some n =>
        match n.kind with
        | 0 => s.nodeLaunch r node n
        | 1 => s.nodeCopy r node n
        | 2 => s.nodeCall r node n
        | _ => s.setNode run node (.ending 0)

/-- Nodes still waiting behind a failed one fail without running (R29). -/
def State.failAfter (s : State) (r : Run) (node : Nat) : State :=
  r.edges.foldl (fun s e =>
    if e.1 = node then
      match (s.run? r.num).bind fun x => x.st[e.2.1]? with
      | some .waiting => s.setNode r.num e.2.1 (.ending 0x0F)
      | _ => s
    else s) s

/-- GRAPH_NODE_COMPLETE: the node's signal, the nodes behind a failure, and the end of the run (R29, R30). -/
def State.nodeComplete (s : State) (run node : Nat) : State :=
  match s.run? run with
  | none => s
  | some r =>
    match r.st[node]?, r.nodes[node]? with
    | some (.ending c), some n =>
      let s1 := s.setNode run node (if c = 0 then .done else .failed c)
      let s2 := if n.cellen then (match r.team with
        | some tid => s1.signal tid (nodeSig n c)
        | none => s1) else s1
      let s3 := if c = 0 then s2 else s2.failAfter r node
      (match s3.run? run with
       | some q => if q.finished then s3.runDone q else s3
       | none => s3)
    | _, _ => s

end Sys2Proof.Machine
end

