-- ==== Sys2Proof/Machine/Preempt.lean ====
section
/-! DEFINITION. Pre-emption (R334 to R344): stop requests, the stop of groups, the context and its resumption, the
watchdog (R355), and the disabling of a core (R376). -/

namespace Sys2Proof.Machine

/-! ### The shadow region -/

/-- Pages of a supervisor area (R352). -/
def supPages (k : Kernel) : Nat := cdiv (k.groups * 16384) 65536

/-- A walker's 64-byte record (R290). -/
def Walker.bytes (w : Walker) : List Byte :=
  leBytes 4 w.node ++ leBytes 4 w.snap ++ leBytes 1 (w.qid % 128) ++ leBytes 1 w.budget ++ leBytes 2 w.vslot ++
    leBytes 4 w.dist.toNat ++ leBytes 4 w.run ++ List.replicate 44 0

/-- A walk message's 32 bytes (R291). -/
def WMsg.bytes (m : WMsg) : List Byte :=
  leBytes 4 m.target ++ leBytes 4 m.snap ++ leBytes 1 (m.qid % 128) ++ leBytes 1 m.budget ++
    leBytes 2 (m.src % 8 + 8 * (m.dst % 8)) ++ leBytes 4 m.run ++ List.replicate 16 0

/-- Pages of the shadow region that the saved state of a node on one stack takes: R275's bound (log entry 52). -/
def State.savedPages (s : State) (nid : Nat) (p : NStack) : Nat :=
  let ms := (s.msgs.filter fun m => m.nid == nid && m.dst == p.stack).drop 4096
  cdiv (65536 + ((p.walkers ++ p.spill).flatMap Walker.bytes).length + 4 * p.visited.length + (ms.flatMap WMsg.bytes).length) 65536
def State.nodePages (s : State) : Nat :=
  s.nodes.foldl (fun m n => (n.parts.filter fun p => p.stopped).foldl (fun m p => m + s.savedPages n.id p) m) 0

/-- SHFREE (R334): pages of the shadow region that no context, no supervisor area and no stopped node takes. -/
def State.shFree (s : State) : Nat :=
  s.fld 0x160008 0 32 - (s.teams.filter fun e => e.2.used).foldl (fun n e =>
    n + e.2.shpages + supPages (s.grid e.2.grid).k) 0 - s.nodePages

/-- Macros of shelves with NRL (R342). -/
def Team.nrlMacros (t : Team) : Nat :=
  (List.range 16).foldl (fun n i => let x := t.shelf i
    if x.st != .free && x.nrl then n + x.nm else n) 0

/-- Cells in use (R342). -/
def Team.cellsUsed (t : Team) : Nat := ((List.range 64).filter fun i => (t.cell i).kind != .none).length

/-- The part of C_team outside its groups (R342). -/
def State.ctxBase (s : State) (tid : Nat) : Nat :=
  let t := s.team tid
  2048 + 64 * t.cellsUsed + (s.grid t.grid).k.scratch + 65536 * t.nrlMacros +
    (if t.rank = 0 then 64 * (s.tasks tid).length else 0)

/-- One group's part, with `bv` and `bu` blocks saved. -/
def ctxGroup (w bv bu : Nat) : Nat := 256 + w * (16 + 32 * bv) + 32 * bu

/-- Pages of the largest context a team can have (R335). -/
def State.ctxMax (s : State) (tid : Nat) : Nat :=
  let k := (s.grid (s.team tid).grid).k
  cdiv (s.ctxBase tid + k.groups * ctxGroup k.width k.regs k.uregs) 65536

/-! ### Stop requests -/

/-- Teams that can be stopped of a team's cluster: those not ended. -/
def State.mates (s : State) (tid : Nat) : List Nat := s.clusterOf tid

/-- Start the stop of a whole cluster, with its contexts reserved; none while the shadow region is too small (R335). -/
def State.stopCluster (s : State) (tid : Nat) (hard : Bool) : Option State :=
  let ts := (s.mates tid).filter fun i => (s.team i).st == .running
  if s.shFree < ts.foldl (fun n i => n + s.ctxMax i) 0 then none
  else some (ts.foldl (fun s i =>
    let u := s.modTeam i fun t => { t with st := .stopping, stopAt := s.now, hard, shpages := s.ctxMax i }
    (s.team i).slots.foldl (fun u j => u.modGroup j fun g => { g with safePt := none }) u) s)

/-- Running teams on a core whose priority is below `p`. -/
def State.lowerTeams (s : State) (core p : Nat) : List Nat :=
  (s.residents core).filter fun i => decide (s.gridPrio (s.grid (s.team i).grid) < p)

/-- The machine without some teams, for asking what a core would then take. -/
def State.without (s : State) (ts : List Nat) : State :=
  { s with teams := s.teams.filter fun e => !ts.contains e.1 }

/-- The core would take a team of the request if its teams of lower priority were stopped. -/
def State.couldAdmit (s : State) (r : Req) (p core : Nat) : Bool :=
  let s1 := s.without (s.lowerTeams core p)
  match r with
  | .grid n =>
    let g := s.grid n
    (g.rect.isEmpty || g.rect.contains core) && s1.admits core g.pasid g.k 0 true
  | .resume t =>
    let g := s.grid (s.team t).grid
    s1.admits core g.pasid g.k ((s.team t).shelfMacros) false

/-- The grid a request belongs to. -/
def State.reqGrid (s : State) : Req → Grid
  | .grid n => s.grid n
  | .resume t => s.grid (s.team t).grid

/-- Teams that may be stopped for one request (R86): of the lowest priority, of the most recently started grid among equals,
on a core the request needs. -/
def State.victimsFor (s : State) (r : Req) : List Nat :=
  let p := s.gridPrio (s.reqGrid r)
  let cand := (s.teams.filter fun e => e.2.used && e.2.st == .running &&
    decide (s.gridPrio (s.grid e.2.grid) < p) && s.couldAdmit r p e.2.core).map Prod.fst
  let key (i : Nat) : Nat :=
    let g := s.grid (s.team i).grid
    s.gridPrio g * 2 ^ 40 + (2 ^ 40 - 1 - g.startSeq)
  match (sortBy key cand).head? with
  | some v => cand.filter fun i => key i == key v
  | none => []

/-- Requests in the order in which the dispatcher serves them (R86). -/
def State.inOrder (s : State) : Nat → List (Req × Nat × Nat × Nat) → List Req
  | 0, _ => []
  | n + 1, rs => match s.firstOf (topPrio rs) with
    | none => []
    | some r => r :: s.inOrder n (rs.filter fun x => x.1 != r)

/-- Teams the dispatcher may stop: those for the first request that cannot be placed and has a team to stop (R86). -/
def State.victims (s : State) : List Nat :=
  if s.teams.any fun e => e.2.used && e.2.st == .stopping && !e.2.byPrectl then []
  else
    let rs := s.requests.filter fun r => !s.placeable r.1 && (s.reqGrid r.1).pre
    ((s.inOrder rs.length rs).findSome? fun r => match s.victimsFor r with
      | [] => none
      | vs => some vs).getD []

/-- A stop through PRECTL has been asked for the team and not started. -/
def State.prectlWaits (s : State) (tid : Nat) : Bool :=
  (s.team tid).used && (s.team tid).byPrectl && (s.team tid).st == .running

/-- TEAM_STOP_REQUEST: a stop asked for by PRECTL, or one the dispatcher needs, starts; it waits, and the cabinet records
the wait, while SHFREE is too small (R335). -/
def State.stopRequest (s : State) (tid : Nat) : State :=
  let hard := (s.reg 0x160028).getLsbD 34
  if s.prectlWaits tid || s.victims.contains tid then
    match s.stopCluster tid ((s.team tid).byPrectl && hard) with
    | some s1 => s1
    | none => s.record 2 0 (s.core (s.team tid).core).num (BitVec.ofNat 64 (s.team tid).grid) (BitVec.ofNat 64 s.shFree)
  else s

/-- BUSY (R334): some team asked for through PRECTL is not saved. -/
def State.prectlBusy (s : State) : Bool := s.teams.any fun e => e.2.used && e.2.byPrectl && e.2.st != .stopped

/-- PRECTL_GO: a write of PRECTL with GO; GO is ignored while BUSY, and the other fields are written (R334). -/
def State.prectlGo (s : State) (grid : Nat) (hard : Bool) : State :=
  let s1 := (s.setFld 0x160028 0 32 grid).setFld 0x160028 34 1 (if hard then 1 else 0)
  if s.prectlBusy then s1
  else
    let ts := (s1.teamsOf grid).filter fun i => (s1.team i).st == .running || (s1.team i).st == .stopping
    let s2 := ts.foldl (fun s i => s.modTeam i fun t =>
      { t with byPrectl := true, resume := false, hard := t.hard || (t.st == .stopping && hard) }) s1
    if s2.shFree < ts.foldl (fun n i => n + s2.ctxMax i) 0 then
      s2.record 2 0 0xFFFF (BitVec.ofNat 64 grid) (BitVec.ofNat 64 s2.shFree)
    else s2

/-- PRECTL_RESUME: the stopped teams of the grid may be placed again (R334). -/
def State.prectlResume (s : State) (grid : Nat) : State :=
  (s.teamsOf grid).foldl (fun s i =>
    if (s.team i).byPrectl && (s.team i).st == .stopped then s.modTeam i fun t => { t with resume := true } else s) s

/-- HARD_PREEMPT: T_safe has passed since the request, or HARD is set (R336). -/
def State.hardPreempt (s : State) (tid : Nat) : State :=
  let t := s.team tid
  let now := (t.byPrectl && (s.reg 0x160028).getLsbD 34) || decide (s.fld 0x160010 0 32 ≤ s.now - t.stopAt)
  if t.used && t.st == .stopping && now then
    (s.mates tid).foldl (fun s i => if (s.team i).st == .stopping then s.modTeam i fun t => { t with hard := true } else s) s
  else s

/-! ### The stop of a group -/

/-- Blocked in a synchronisation instruction (R108, R189, R212, R215, R232). -/
def Why.sync : Why → Bool
  | .cell _ => true
  | .sleep _ => true
  | .waita _ => true
  | .station _ _ _ => true
  | .unstat _ => true
  | .ffpsel _ _ _ => true
  | .ldx => true
  | _ => false

/-- The lane is held at its meeting point (R102). -/
def Lane.held (x : Lane) : Bool := !x.exited && !x.sup && x.meet != 0xFFFFFF && x.pc == x.meet

/-- Lanes blocked, in a synchronisation instruction or for any reason. -/
def Group.syncMask (g : Group) : Mask := g.blocked.foldl (fun m b => if b.why.sync then m ||| b.mask else m) 0
def Group.blockMask (g : Group) : Mask := g.blocked.foldl (fun m b => m ||| b.mask) 0

/-- Every non-exited thread outside `m` is held or blocked in a synchronisation instruction (R336). -/
def Group.quietBut (g : Group) (m : Mask) : Bool :=
  g.lanes.zipIdx.all fun p => p.1.exited || m.getLsbD p.2 || p.1.held || g.syncMask.getLsbD p.2

/-- The case of R336 by which a group may stop: 1, 2 or 3; none yet. A group that neither waits wholly nor has stopped
when its stop becomes hard takes case 3. -/
def State.stopCase (s : State) (slot : Nat) : Option Nat :=
  let g := s.group slot
  let t := s.team g.tid
  if g.quietBut 0 || g.st == .benched && g.quietBut g.blockMask then some 1
  else if t.hard then some 3
  else match g.safePt with
    | some (_, m) => if g.quietBut m then some 2 else none
    | none => none

/-- Nothing of the group is outstanding that a stop must wait for (R338): results other than LDX lanes, store queue,
fences and flushes, and answers of cells not yet taken up. -/
def State.drained (s : State) (slot : Nat) : Bool :=
  let g := s.group slot
  (g.pend.all fun p => p.ldx.isSome) && g.sq.isEmpty && g.fences.isEmpty && g.flushes.isEmpty &&
  s.waiters.all fun w => w.slot != slot || (w.sat.isNone && w.wrong == 0)

/-- Registers a LIVE word lists (R47). -/
def liveV (w : BitVec 96) (i : Nat) : Bool := w.getLsbD (52 + i / 8)
def liveU (w : BitVec 96) (i : Nat) : Bool := w.getLsbD (20 + i / 8)

/-- Replace by free values the registers, predicates, tile predicates and handles that a LIVE word does not list (R48,
log entry 1). -/
def State.loseGroup (s : State) (g : Group) (k : Kernel) (w : BitVec 96) : Group × State :=
  let fr (n : Nat) : DWord := Config.free64 (s.free + n)
  let nv := 8 * k.regs
  let nu := 8 * k.uregs
  let lane (l : Nat) (x : Lane) : Lane :=
    let v := (List.range nv).foldl (fun t i =>
      if liveV w i then t else Tab.set 0 t i ((fr (l * 512 + i)).extractLsb' 0 32)) x.v
    let live := w.extractLsb' 13 7
    { x with v, p := (x.p &&& live) ||| ((fr (l * 512 + 511)).extractLsb' 0 7 &&& ~~~live) }
  let base := 64 * 512
  let u := (List.range nu).foldl (fun t i =>
    if liveU w i then t else Tab.set 0 t i ((fr (base + i)).extractLsb' 0 32)) g.s
  let q := (List.range 8).foldl (fun t i =>
    if w.getLsbD (5 + i) then t else Tab.set (BitVec.allOnes 64) t i (fr (base + 256 + i))) g.q
  let h := (List.range 4).foldl (fun t i =>
    if w.getLsbD (1 + i) then t else Tab.set 0 t i (fr (base + 264 + i))) g.h
  ({ g.withLanes lane with s := u, q, h }, { s with free := s.free + base + 512 })

/-- One lane of a stopping group: a SLEEP ends, every other wait is left at its word, and the cycles waited are kept
(R338, R355). -/
def stopLane (now : Nat) (g : Group) (l : Nat) (x : Lane) : Lane :=
  match g.blocked.find? fun b => b.mask.getLsbD l with
  | some b =>
    (match b.why with
     | .sleep _ => { x with pc := b.next, since := 0 }
     | w => { x with since := if w.sync then now - b.since else 0 })
  | none =>
    if x.held && x.since != 0 then { x with since := now - x.since }
    else match g.rep with
      | some r => if r.mask.getLsbD l then { x with pc := r.pc, repk := BitVec.ofNat 6 r.k, resumed := true, repAt := r.pc } else x
      | none => x

/-- GROUP_STOP (R336, R338). -/
def State.groupStop (s : State) (slot : Nat) : State :=
  let g := s.group slot
  let t := s.team g.tid
  if !(t.used && t.st == .stopping && t.slots.contains slot) || g.st == .free || g.st == .stopped ||
      (g.lanes.all fun x => x.exited) then s
  else match s.stopCase slot with
    | none => s
    | some c =>
      if !s.drained slot then s
      else
        let g1 := g.withLanes (stopLane s.now g)
        let safe := if c = 2 then g.safePt else none
        let g2 : Group := { g1 with st := .stopped, pend := [], blocked := [], rep := none, score := [], ibuf := [],
                                    fetch := [], safePt := safe, yieldMask := 0, swMask := 0 }
        let p := s.part (slotPart slot)
        let s1 := s.setPart (slotPart slot) { p with pending := p.pending.filter fun x => x != slot }
        let s2 := { s1 with waiters := s1.waiters.filter fun w => w.slot != slot }
        match safe with
        | some (w, _) =>
          let r := s2.loseGroup g2 (s.grid t.grid).k w
          r.2.setGroup slot r.1
        | none => s2.setGroup slot g2

/-! ### Contexts -/

/-- Blocks of registers a stopped group saves (R338, R342). -/
def savedBlocks (k : Kernel) (g : Group) : Nat × Nat :=
  match g.safePt with
  | some (w, _) => (((List.range k.regs).filter fun i => w.getLsbD (52 + i)).length,
                    ((List.range k.uregs).filter fun i => w.getLsbD (20 + i)).length)
  | none => (k.regs, k.uregs)

/-- C_team of a team whose groups have stopped (R342). -/
def State.ctxSize (s : State) (tid : Nat) : Nat :=
  let t := s.team tid
  let k := (s.grid t.grid).k
  (t.slots.filter fun i => (s.group i).st == .stopped).foldl (fun n i =>
    let b := savedBlocks k (s.group i)
    n + ctxGroup (s.group i).width b.1 b.2) (s.ctxBase tid)

/-- Bytes of an offset are saved: the declared area, and shelves with NRL that are READY or FAILED (R341). -/
def Team.savesByte (t : Team) (scratch o : Nat) : Bool :=
  decide (o < scratch) || (match t.shelfAt o with
    | some i => (t.shelf i).nrl && ((t.shelf i).st == .ready || (t.shelf i).st == .failed)
    | none => false)

/-- The scratchpad bytes to save that are not zero, by team-logical offset. -/
def State.saveScr (s : State) (tid : Nat) : List (Nat × Byte) :=
  let t := s.team tid
  let scratch := (s.grid t.grid).k.scratch
  t.macs.flatMap fun m =>
    (s.scr.filter fun e => e.1 / 65536 == t.core * 32 + m.2 && t.savesByte scratch (m.1 * 65536 + e.1 % 65536)).map
      fun e => (m.1 * 65536 + e.1 % 65536, e.2)

/-- The saved bytes of a stopped team's context, by team-logical offset. -/
def State.savedScr (s : State) (t : Team) : List (Nat × Byte) :=
  (s.scr.filter fun e => e.1 / 2 ^ 21 == t.ctxCore).map fun e => (e.1 % 2 ^ 21, e.2)

/-- Write bytes at team-logical offsets of a team. -/
def State.putScr (s : State) (tid : Nat) (bs : List (Nat × Byte)) : State :=
  bs.foldl (fun s b => s.writeLoc b.2 ((s.team tid).scrLoc b.1)) s

/-- A command goes on before the context is saved: a running copy or gather with GRAN = 0 to its end, and one that has
written a part of a granule, like a tile task of the cluster that has, to the end of the granule (R259, R265). -/
def State.mustFinish (s : State) (tid : Nat) : Bool :=
  ((s.cmdsOf tid fun k => k == .copy || k == .gather).any fun c =>
    c.st == .running && (c.cnt1 != 0 || (if c.kind == .gather then (gathOf c).gran == 0 else (copyOf c).gran == 0))) ||
  (s.tasks tid).any fun c => c.st == .running && c.cnt1 != 0

/-- What a stop leaves of a command: copy and gather at their granule, loads of shelves to restart, tile tasks to start
again (R218, R241, R259, R265). -/
def Cmd.stopped (c : Cmd) : Cmd :=
  match c.kind with
  | .wload => { c with st := .accepted, pos := 0, data := [], aux2 := if c.aux2 = 2 then 0 else c.aux2, owns := [], pins := [] }
  | .ffpfch => { c with st := .accepted, pos := 0, data := [], owns := [], pins := [] }
  | .tile => { c with st := if c.cause = 0 then .accepted else c.st, owns := [], pins := [] }
  | _ => { c with owns := [], pins := [] }

/-- CONTEXT_SAVE: every group has stopped; Release(package), then the context is written and the core freed (R338,
R341). -/
def State.contextSave (s : State) (tid : Nat) : State :=
  let t := s.team tid
  let stopped := t.slots.filter fun k => (s.group k).st == .stopped
  if !(t.used && t.st == .stopping) || stopped.isEmpty ||
      !(t.slots.all fun k => (s.group k).st == .stopped || (s.group k).isOver) || s.mustFinish tid then s
  else
    let s1 := s.wbAll t.core
    if !s1.cleanSel t.core (fun _ => true) then s1
    else
      let gs := sortBy Group.gidx (stopped.map s.group)
      let pages := cdiv (s.ctxSize tid) 65536
      let clear (g : Group) : Group := { g with safePt := none, age := 0 }
      let s2 := t.slots.foldl (fun s k => (s.forget k).setGroup k Group.reset) s1
      let s3 := s2.setTeam tid { t with st := .stopped, slots := [], macs := [], saved := gs.map clear,
                                        shpages := pages, hard := false }
      let s4 := s3.putScr tid (s.saveScr tid)
      { s4 with cmds := s4.cmds.map fun c => if c.tid = tid ∧ c.core < hubCore then c.stopped else c }

/-! ### Resumption -/

/-- One lane as it resumes: its wait count is 0, and a lane that was held goes on counting (R117, R355). -/
def resumeLane (now : Nat) (x : Lane) : Lane :=
  { x with wait := 0, lastIss := 0, resumed := true, since := if x.held then max 1 (now - x.since) else x.since }

/-- A group as it resumes in a slot (R117, R344). -/
def Group.resume (g : Group) (now : Nat) : Group :=
  { g with st := .pending, age := 0, lanes := g.lanes.map (resumeLane now), issues := 0, lastCyc := 0,
           yieldTill := 0, yieldMask := 0, trapcause := g.trapcause }

/-- A reload of a shelf without a cell signal. -/
def State.reloadShelf (s : State) (tid i : Nat) : State :=
  let t := s.team tid
  let x := t.shelf i
  let kind : CmdKind := if x.ffp.isSome then .ffpfch else .wload
  let c : Cmd :=
    { id := s.fresh, kind, tid, core := t.core, pasid := (s.grid t.grid).pasid, grid := t.grid, serial := 0,
      words := x.ffp.getD [], st := .accepted, slot := 0, mark := 0, pos := 0, cnt0 := 0, cnt1 := 0, cnt2 := 0,
      aux0 := i, aux1 := 64, aux2 := 0, aux3 := 0, cause := 0, owns := [], pins := [], data := [], tag := none }
  (s.addCmd c).modTeam tid fun t => t.setShelf i { t.shelf i with st := .loading }

/-- Station one shelf again at its slots and restore its state (R218). -/
def State.resumeShelf (s : State) (tid i : Nat) : State :=
  let x := (s.team tid).shelf i
  match x.st with
  | .free => s
  | st =>
    let s1 := (s.takeMacros tid x.m0 x.nm false).getD s
    (match st with
     | .ready => if x.nrl then s1 else s1.reloadShelf tid i
     | .failed => if x.nrl then s1 else s1.modTeam tid fun t => t.setShelf i { x with st := .empty }
     | _ => s1)

/-- A queue entry read again at resumption; one that has become malformed fails (R245). -/
def State.rereadCmd (s : State) (c : Cmd) : Cmd :=
  if c.kind == .copy || c.kind == .gather then
    let q := s.qBase c.tid
    let ws := wordsOf (s.scrBytes (s.team c.tid) (q + 512 + 32 * (c.serial % 112)) 32)
    let c1 := { c with words := ws }
    let ok := if c.kind == .copy then copyOk c1 else gathOk c1
    if c.st == .running && !ok && c.cause == 0 then { c1 with cause := 7 } else c1
  else c

/-- Resume one team on a core (R344, R218, R301). -/
def State.resumeTeam (s : State) (tid core : Nat) : State :=
  let t := s.team tid
  let g := s.grid t.grid
  let slots := ((s.assign core g.k).getD []).take t.saved.length
  let s1 := (((s.noteRun core g.k.kid g.num).dropArea core g.pasid t.pb t.pbytes).dropClean core).setTeam tid
    { t with core, slots, macs := [], st := .running, byPrectl := false, resume := false, hard := false, saved := [],
             shpages := 0, held := [] }
  let s2 := (s1.takeMacros tid 0 (cdiv g.k.scratch 65536) true).getD s1
  let s3 := (List.range 16).foldl (fun s i => s.resumeShelf tid i) s2
  let s4 := State.putScr { s3 with scr := s3.scr.filter fun e => e.1 / 2 ^ 21 != t.ctxCore } tid (s.savedScr t)
  let fix (c : Cmd) : Cmd :=
    if c.tid = tid ∧ c.core < hubCore then s4.rereadCmd { c with core, mark := 0 } else c
  let s5 := { s4 with cmds := s4.cmds.map fix }
  let s6 := (slots.zip t.saved).foldl (fun s p => s.setGroup p.1 (p.2.resume s.now)) s5
  (t.held.foldl (fun s x => s.signal tid x) s6).pendGroups slots

/-- TEAM_RESUME: the dispatcher's choice is this stopped cluster (R344). -/
def State.teamResume (s : State) (tid : Nat) : State :=
  if s.best != some (.resume tid) then s
  else match s.resumeCores tid with
    | none => s
    | some cs => (cs.zip (s.clusterOf tid)).foldl (fun s p => s.resumeTeam p.2 p.1) s

/-! ### The watchdog -/

/-- Address a synchronisation wait reports (R348): the cell name, or the waited address. -/
def State.waitAddr (s : State) (slot lane : Nat) (b : Blocked) : Nat :=
  match b.why with
  | .cell k => ((s.waiters.find? fun w => w.ticket == k).map fun w => w.name.toNat).getD 0
  | .waita w => ((w.lanes.find? fun x => b.mask.getLsbD x.lane).map WaitaLane.va).getD 0
  | .ldx => (((s.group slot).pend.flatMap Pend.lanes).find? fun x => x.lane == lane).map PLane.va |>.getD 0
  | .station _ i _ => i
  | .ffpsel lo _ _ => lo
  | .unstat i => i
  | _ => 0

/-- WATCHDOG_EXPIRE: the subgroup of a lane has waited in one synchronisation instruction, or at a meeting point, for
WDOG × 1,024 cycles (R355). -/
def State.watchdog (s : State) (slot lane : Nat) : State :=
  let lim := s.fld 0x160018 0 32 * 1024
  let g := s.group slot
  if lim = 0 ∨ g.st == .free || g.st == .stopped || (s.team g.tid).st == .stopped then s
  else match g.blocked.find? fun b => b.mask.getLsbD lane with
    | some b =>
      let timed := b.why.sync && (match b.why with
        | .sleep _ => false
        | _ => true)
      let answered := s.waiters.any fun w => w.slot == slot && b.why == Why.cell w.ticket && (w.sat.isSome || w.wrong != 0)
      if timed && !answered && decide (lim ≤ s.now - b.since) then
        let a := s.waitAddr slot lane b
        let s1 := { s with waiters := s.waiters.filter fun w => !(w.slot == slot && b.why == Why.cell w.ticket) }
        let keep (p : Pend) : Bool := !(b.why == .ldx && p.ldx.isSome && p.lanes.any fun x => b.mask.getLsbD x.lane)
        let s2 := s1.modGroup slot fun g => { g with blocked := g.blocked.filter fun c => c != b, pend := g.pend.filter keep }
        s2.trapAt slot b.mask b.pc none 0x0A 1 a
      else s
    | none =>
      let x := g.lane lane
      if x.held && x.since != 0 && decide (lim ≤ s.now - x.since) then
        let m := lanesMask ((g.lanes.zipIdx.filter fun p => p.1.held && p.1.meet == x.meet).map Prod.snd)
        s.trapAt slot m x.meet none 0x0A 2 x.meet.toNat
      else s

/-! ### Disabling a core -/

/-- Raise the replacement request (R376, R362). -/
def State.askReplace (s : State) : State := (s.setFld 0x1B0008 32 1 1).msix 65

/-- CORE_DISABLE: teams on the core are stopped by hard pre-emption; once none runs there the core leaves service and a
spare of its die takes its place (R376). -/
def State.coreDisable (s : State) (core : Nat) : State :=
  let c := s.core core
  if !c.en then s
  else
    let ts := s.residents core
    if !ts.isEmpty then
      ts.foldl (fun s i =>
        if (s.team i).st == .running then (s.stopCluster i true).getD s
        else (s.mates i).foldl (fun s j => s.modTeam j fun t => { t with hard := true }) s) s
    else
      let die := core / 100
      let left := s.fld 0x1B0008 (8 * die) 8
      let s1 := s.modCore core fun c => { c with en := false, l1 := [], order := [], icache := [], kids := [] }
      let s2 := { s1 with retained := s1.retained.filter fun r => r.core != core }
      let s3 := s2.record 4 2 c.num (BitVec.ofNat 64 core) 0
      match ((List.range 4).map fun i => die * 100 + 96 + i).find? fun k =>
          !(s.core k).en && (s.core k).num == (Core.reset k).num with
      | none => s3.askReplace
      | some sp =>
        let s4 := (s3.modCore sp fun k => { k with en := true, num := c.num }).setFld 0x1B0008 (8 * die) 8 (left - 1)
        if left ≤ 1 then s4.askReplace else s4

end Sys2Proof.Machine
end

