-- ==== Sys2Proof/Machine/Fetch.lean ====
section
/-! DEFINITION. Fetch (R14, R46, R99), subgroups and their choice (R100, R101), holding and release at meeting points
(R102), when a candidate is ready (R108 to R110), the checks of a word at issue (R53), and REP (R49 to R52). -/

namespace Sys2Proof.Machine

/-! ### The instruction buffer -/

/-- A word as the instruction buffer holds it, or the trap its block's fetch met. -/
inductive Buffered where
  | word (w : BitVec 96)
  | err (cause detail addr : Nat)
  deriving DecidableEq, Repr

/-- The buffered word at a PC of the code or of the supervisor image (R99, R346). -/
def Group.word? (g : Group) (sup : Bool) (pc : Nat) : Option Buffered :=
  (g.ibuf.find? fun b => b.sup == sup && b.blk == pc / 16).map fun b =>
    match b.err with
    | some (c, d, a) => .err c d a
    | none => .word (b.words.getD (pc % 16) 0)

/-- First PC past the code, or past the supervisor image (R14, R346). -/
def State.codeEnd (s : State) (g : Group) (sup : Bool) : Nat :=
  if sup then 16 * s.fld 0x160020 52 12 else (s.grid (s.team g.tid).grid).k.codelen

/-- Words of a fetched block from its bytes. -/
def blockWords (bs : List Byte) : List (BitVec 96) :=
  (List.range 16).map fun i => wordOfBytes ((bs.drop (12 * i)).take 12)

/-- What fetching one block gives now: bytes, a trap, or a wait (R14, R46, R99, R346). Fetch reads nothing past
CODELEN. -/
def State.fetchBlk (s : State) (slot : Nat) (sup : Bool) (blk : Nat) :
    Option (List Byte ⊕ (Nat × Nat × Nat)) × State :=
  let g := s.group slot
  let core := slotCore slot
  let n := min 192 (12 * s.codeEnd g sup - 192 * blk)
  if sup then
    let a := g.trapvec.toNat + 192 * blk
    if (List.range 7).any fun i => s.poison.contains (a / 32 + i) && decide (32 * (a / 32 + i) < a + n) then
      (some (.inr (8, 4, a)), s)
    else (some (.inl (s.devBytes a n)), s)
  else
    let pasid := s.pasidOf slot
    let va := ((s.gridOf slot).k.codebase + 192 * blk) % 2 ^ 56
    let look (c : Nat × Nat) : Nat × Look := (c.1, (s.look core pasid c.1 2).thread)
    let ls := (chunksOf va n).map look
    match ls.find? fun x => x.2 == .miss || x.2 == .deny with
    | some x => (none, s.want core pasid x.1 2 x.2)
    | none =>
      match ls.findSome? fun x => match x.2 with
          | .bad r => some (x.1, 3, r + 32)
          | .data => some (x.1, 8, 4)
          | _ => none with
      | some (a, c, d) => (some (.inr (c, d, va)), s.dropBad core pasid (a / 4096))
      | none =>
        let part (c : Nat × Nat) : Option (Nat × Loc × Nat) := match s.look core pasid c.1 2 with
          | .hit l => some (c.1, l, c.2)
          | _ => none
        let r := s.agGet pasid ((chunksOf va n).filterMap part)
        let keys := (chunksOf va n).map fun c => l1key pasid c.1
        (match r.1 with
         | .ok => (some (.inl r.2.1), r.2.2.dropAns r.2.2.reader keys)
         | .wait => (none, r.2.2)
         | .fail 1 => (some (.inr (3, 0x23, va)), r.2.2.dropAns r.2.2.reader keys)
         | .fail _ => (some (.inr (8, 4, va)), r.2.2.dropAns r.2.2.reader keys))

/-- Tag of a block in the instruction cache. -/
def State.blkTag (s : State) (slot : Nat) (sup : Bool) (blk : Nat) : Nat × Nat :=
  if sup then (0, (s.group slot).trapvec.toNat + 192 * blk)
  else (s.pasidOf slot, (s.gridOf slot).k.codebase + 192 * blk)

/-- Put a block into a group's buffer of two, and end its request. Of the two blocks buffered the one that arrived first
leaves: DESIGN CHOICE, R99 does not say which (log entry 48). -/
def Group.buffer (g : Group) (b : IBuf) : Group :=
  { g with ibuf := (b :: g.ibuf.filter fun x => !(x.sup == b.sup && x.blk == b.blk)).take 2,
           fetch := g.fetch.filter fun x => x != (b.sup, b.blk) }

/-- FETCH_BLOCK_ARRIVE: a requested block comes from the instruction cache, or from memory into cache and buffer
(R99). Of 512 cached blocks the one that arrived first leaves: DESIGN CHOICE, R99 does not say which (log entry 48). -/
def State.fetchArrive (s : State) (slot blk : Nat) (cached : Bool) : State :=
  let g := s.group slot
  let core := slotCore slot
  match g.fetch.find? fun x => x.2 == blk with
  | none => s
  | some (sup, _) =>
    let tag := s.blkTag slot sup blk
    let hit := (s.core core).icache.find? fun b => b.sup == sup && b.pasid == tag.1 && b.addr == tag.2
    match if cached then hit else none with
    | some b => s.setGroup slot (g.buffer { sup, blk, words := b.words, err := none })
    | none =>
      let r := s.fetchBlk slot sup blk
      match r.1 with
      | none => r.2
      | some (.inr e) => r.2.modGroup slot fun g => g.buffer { sup, blk, words := [], err := some e }
      | some (.inl bs) =>
        let ws := blockWords bs
        let b : Blk := { sup, pasid := tag.1, addr := tag.2, words := ws }
        let s1 := r.2.modCore core fun c =>
          { c with icache := (b :: c.icache.filter fun x => !(x.sup == sup && x.pasid == b.pasid && x.addr == b.addr)).take 512 }
        s1.modGroup slot fun g => g.buffer { sup, blk, words := ws, err := none }

/-! ### Subgroups -/

/-- A lane may issue (R100): not exited, not held, not blocked, not waiting for its trapped set. -/
def eligible (bm : Mask) (l : Nat) (x : Lane) : Bool :=
  !x.exited && !x.held && !bm.getLsbD l && !x.atEret && !x.trapHeld

/-- Where a lane stands: PC, then whether in the supervisor image. At one PC the lanes in kernel code and those in the
image stand at two places, the kernel's first: DESIGN CHOICE, R101 does not say (log entry 48). -/
def Lane.at (x : Lane) : Nat := x.pc.toNat * 2 + (if x.sup then 1 else 0)

/-- The slice PC of four lanes (R100). -/
def sliceAt (ls : List Lane) : Option Nat :=
  let top := ls.foldl (fun n x => max n x.wait) 0
  let c := if 32 ≤ top then ls.filter fun x => x.wait == top else ls
  c.foldl (fun (m : Option Nat) x => match m with
    | some n => some (min n x.at)
    | none => some x.at) none

/-- One subgroup (R101): its place, its lanes, and the lanes its slices mask. -/
structure Sub where
  sup : Bool
  pc : Nat
  mask : Mask
  others : Mask
  deriving DecidableEq, Repr

/-- Eligible lanes of a group with their index. -/
def Group.eligibles (g : Group) : List (Nat × Lane) :=
  let bm := g.blockMask
  (g.lanes.zipIdx.map fun p => (p.2, p.1)).filter fun p => eligible bm p.1 p.2

/-- The subgroups, lowest PC first (R101). -/
def Group.subs (g : Group) : List Sub :=
  let es := g.eligibles
  let slices := (List.range 16).filterMap fun j =>
    let ls := es.filter fun p => p.1 / 4 == j
    (sliceAt (ls.map Prod.snd)).map fun k => (k, ls)
  let keys := sortBy id (slices.map Prod.fst).eraseDups
  keys.map fun k =>
    let ls := (slices.filter fun p => p.1 == k).flatMap Prod.snd
    { sup := k % 2 == 1, pc := k / 2,
      mask := lanesMask ((ls.filter fun p => p.2.at == k).map Prod.fst),
      others := lanesMask ((ls.filter fun p => p.2.at != k).map Prod.fst) }

/-- The subgroup has not issued during the group's last 32 issues (R101): none of its lanes has. Subgroups form anew at
every selection, and R101 does not say whose issues count then: DESIGN CHOICE (log entry 48). -/
def Group.overdue (g : Group) (u : Sub) : Bool :=
  (maskLanes 64 u.mask).all fun l => decide (32 ≤ g.issues - (g.lane l).lastIss)

/-- Subgroups in the order in which the group offers them (R101, R127). -/
def Group.order (g : Group) : List Sub :=
  let us := g.subs
  let (y, n) := us.partition fun u => u.mask &&& g.yieldMask != 0
  (n.filter g.overdue) ++ (n.filter fun u => !g.overdue u) ++ y

/-! ### Words -/

/-- HINT bits SAFE and SW of a word (R33). -/
def wSafe (w : BitVec 96) : Bool := w.getLsbD 7
def wSw (w : BitVec 96) : Bool := w.getLsbD 6
/-- Class of a word (R33). -/
def wClass (w : BitVec 96) : Nat := (w.extractLsb' 92 4).toNat
/-- OPC of a word. -/
def wOpc (w : BitVec 96) : Nat := (w.extractLsb' 84 12).toNat

/-- The instruction writes a switch-class result (R43). -/
def switchClass : Instr → Bool
  | .ld _ _ | .ldu _ _ | .ldx _ _ | .qld _ _ | .atom _ _ | .atomc _ _ | .waita _ _ | .isect _ _ => true
  | .xcopy _ o | .xgath _ o => o.res
  | .glaunchK _ _ | .glaunchG _ _ | .glaunchSeal _ _ | .glaunchFree _ _ | .chunk _ _ | .mboxarm _ _ | .mboxarmD _ _
  | .stepCtr _ _ => true
  | .cellrd _ _ | .semwait _ _ | .bararv _ _ | .ringawtData _ _ | .ringawtFree _ _ | .qpop _ _ => true
  | _ => false

/-- A result the scoreboard holds: every register write that is not switch-class (R43, R110). The destination spans. -/
def fixedDst (i : Instr) : List RegRef :=
  match i with
  | .nop _ _ | .bra _ _ | .brx _ _ | .ret _ _ | .exit _ _ | .meetSet _ _ | .meetRestore _ _ | .yield _ _
  | .sleep _ _ | .trap _ _ | .eret _ _ | .csrw _ _ => []
  | .call _ o | .callx _ o | .meetSave _ o | .csrr _ o => spanRefs o.d 1
  | .pmovP _ o => (List.range 7).filterMap fun k => if o.imm.getLsbD k then some { file := 3, idx := k } else none
  | .qsetV _ o | .qsetRange _ o | .qsetAll _ o | .qlog _ o => spanRefs o.d 1
  | .qsetRd _ o => spanRefs o.d 2
  | i =>
    match i.raw with
    | some r =>
      let c := r.opc.toNat / 256
      let op := r.opc.toNat % 256
      if (1 ≤ c ∧ c ≤ 7) ∨ (c = 0xB ∧ op < 0x10) then
        (match spans i with
         | (d, n) :: _ => spanRefs d n
         | [] => spanRefs (.ofBits r.d) 1)
      else []
    | none => []

/-- Registers, predicates and tile predicates a word names. -/
def namedRefs (w : BitVec 96) (i : Instr) : List RegRef :=
  let r := Raw.ofBits w
  let g : List RegRef := if r.g.toNat % 8 < 7 then [{ file := 3, idx := r.g.toNat % 8 }] else []
  let ops := [Opnd.ofBits r.d, Opnd.ofBits r.a, Opnd.ofBits r.b]
  g ++ (spans i).flatMap (fun p => spanRefs p.1 p.2) ++ ops.flatMap (fun o => match o with
    | .spc _ => spanRefs o 1
    | _ => []) ++ (match i with
    | .mmaF4b _ o | .mmaF8a _ o | .mmaF8b _ o | .mmaB16 _ o | .mmaH16 _ o | .mmaI8 _ o | .mmaspF4b _ o | .mmaspF8a _ o
    | .mmaspI8 _ o => if o.tq then [{ file := 2, idx := o.qi.toNat }] else []
    | .sel _ o => spanRefs o.c 1
    | .pmov _ _ => (List.range 7).map fun k => { file := 3, idx := k }
    | _ => [])

/-! ### REP -/

/-- A target REP may have (R50). -/
def repTarget (i : Instr) : Bool :=
  match i with
  | .ld _ _ | .st _ _ | .ldu _ _ | .pfetch _ _ => true
  | i => match i.raw with
    | some r => decide (1 ≤ r.opc.toNat / 256 ∧ r.opc.toNat / 256 ≤ 7)
    | none => false

/-- Operand fields D, A, B and C that an instruction uses (R50). -/
def usesD (i : Instr) : Bool :=
  match i with
  | .pmovP _ _ | .pfetch _ _ => false
  | _ => true
def usesA (i : Instr) : Bool :=
  match i with
  | .movi _ _ | .pmov _ _ => false
  | _ => true
def usesB (i : Instr) : Bool :=
  match i with
  | .iabs _ _ | .ineg _ _ | .lnot _ _ | .popc _ _ | .clz _ _ | .ctz _ _ | .brev _ _ | .mov _ _ | .movi _ _ | .movs _ _
  | .pmov _ _ | .pmovP _ _ | .frnd _ _ | .fclass _ _ | .frcp _ _ | .frsq _ _ | .fsqrt _ _ | .fex2 _ _ | .flg2 _ _
  | .fsin _ _ | .fcos _ _ | .ftanh _ _ | .fsigm _ _ | .amax _ _ | .vote _ _ | .redl _ _ | .scanl _ _
  | .matchl _ _ => false
  | .cvt _ o => o.mod.getLsbD 0
  | .abssum _ o => o.mod.getLsbD 0
  | .ld _ o | .st _ o | .ldu _ o | .pfetch _ o => o.idx
  | _ => true
def usesC (i : Instr) : Bool :=
  match i with
  | .iadd3 _ _ | .imad _ _ | .imadw _ _ | .isad _ _ | .idp4 _ _ | .idp2 _ _ | .fshl _ _ | .bfi _ _ | .bmix _ _
  | .sel _ _ | .ffma _ _ | .pkfma _ _ => true
  | .cvtp _ o => o.mod.getLsbD 2
  | _ => false

/-- A stride is legal on a field (R50): zero, or on a used operand of selector 00 or 01. -/
def strideOk (used : Bool) (field : BitVec 10) (st : Nat) : Bool := st == 0 || (used && decide (field.toNat < 512))

/-- The strides of a REP word. -/
def repStrides (w : BitVec 96) : Nat × Nat × Nat × Nat :=
  let imm := (Raw.ofBits w).imm
  ((imm.extractLsb' 6 2).toNat, (imm.extractLsb' 8 2).toNat, (imm.extractLsb' 10 2).toNat, (imm.extractLsb' 12 2).toNat)

/-- The target and its strides are legal (R50). -/
def repOk (w t : BitVec 96) : Bool :=
  let r := Raw.ofBits t
  let st := repStrides w
  match instrOf r with
  | none => false
  | some i => repTarget i && strideOk (usesD i) r.d st.1 && strideOk (usesA i) r.a st.2.1 &&
      strideOk (usesB i) r.b st.2.2.1 && strideOk (usesC i) (r.imm.extractLsb' 0 10) st.2.2.2

/-- Step the index of an operand field; none where it leaves the 8 bits (R51). -/
def stepField (f : BitVec 10) (n : Nat) : Option (BitVec 10) :=
  if f.toNat % 256 + n < 256 then some (BitVec.ofNat 10 (f.toNat / 256 * 256 + f.toNat % 256 + n)) else none

/-- T' of repeat `k` (R51); none where a stepped index leaves the registers there can be. -/
def stepWord (t : BitVec 96) (k sd sa sb sc : Nat) : Option (BitVec 96) :=
  let r := Raw.ofBits t
  match stepField r.d (k * sd), stepField r.a (k * sa), stepField r.b (k * sb),
      stepField (r.imm.extractLsb' 0 10) (if sc = 0 then 0 else k * sc) with
  | some d, some a, some b, some c =>
    some (Raw.toBits { r with d, a, b, imm := if sc = 0 then r.imm else r.imm.extractLsb' 10 22 ++ c })
  | _, _, _, _ => none

/-- Repeat at which a lane starts: after an ERET or a resumption, where the REP word is the one interrupted (R51, R52). -/
def Lane.k0 (x : Lane) : Nat := if x.resumed && x.repAt == x.pc then x.repk.toNat else 0

/-- REP: the repeats begin with the lanes that start at the lowest repeat; the others wait their turn (R51). The
target and its LIVE word stand in the buffer. Lanes left at a repeat past the last run none and go on. -/
def execRep (_h : Hdr) (o : RepOps) (s : State) : Out' :=
  let g := s.curG
  let ls := maskLanes 64 s.cur.mask
  let k := ls.foldl (fun m l => min m (g.lane l).k0) 63
  let m := lanesMask (ls.filter fun l => (g.lane l).k0 == k)
  let sup := s.inSup
  let pc := s.cur.pc.toNat
  let at1 (n : Nat) : BitVec 96 := match g.word? sup (pc + n) with
    | some (.word w) => w
    | _ => 0
  let t := at1 1
  if o.countM1.toNat < k then
    let next := BitVec.ofNat 24 (pc + if wSafe t then 3 else 2)
    .next (s.setCurG (g.onMask m fun x => { x with pc := next, repk := 0, resumed := false, since := 0 }))
  else
  let r : RepSt := { mask := m, pc := s.cur.pc, word := t, live := if wSafe t then some (at1 2) else none, k,
                     countM1 := o.countM1.toNat, sd := o.sd.toNat, sa := o.sa.toNat, sb := o.sb.toNat, sc := o.sc.toNat }
  .next (s.setCurG { g with rep := some r })

/-! ### Checks at issue -/

/-- A LIVE word breaks R47. -/
def liveBad (k : Kernel) (w : BitVec 96) : Bool :=
  wOpc w != 0xFFF || w.getLsbD 0 || (List.range 32).any fun i =>
    (decide (k.regs ≤ i) && w.getLsbD (52 + i)) || (decide (k.uregs ≤ i) && w.getLsbD (20 + i))

/-- What the standard supervisor image does next for lanes of a trapped set (R353): it needs a block of the code, emulates
the access of a word, waits for what it loads, turns to the next repeat, returns past the word (recording a TRAP code), or
ends the grid. -/
inductive StdAct where
  | need (blk : Nat)
  | access (w : BitVec 96) (rep : Bool)
  | wait
  | again
  | leave (pc : Nat) (code : Bool)
  | abort
  deriving DecidableEq, Repr

/-- What the word at a place tells, or for a trapped set the standard image: it must be fetched, it traps, or it is this word with its instruction's details. -/
inductive Seen where
  | fetch (blk : Nat)
  | trap (pc cause detail addr : Nat)
  | word (w : BitVec 96) (live : Option (BitVec 96))
  | std (a : StdAct)
  deriving DecidableEq, Repr

/-- Buffered word at `pc`, read for an instruction at `at'`. -/
def Group.see (g : Group) (sup : Bool) (pc at' : Nat) : Seen :=
  match g.word? sup pc with
  | none => .fetch (pc / 16)
  | some (.err c d a) => .trap at' c d a
  | some (.word w) => .word w none

/-- Details of the word `w` at `pc` that its own bits, its registers and its LIVE word show (R53). -/
def lowest (k : Kernel) (w : BitVec 96) (live : Option Bool) : Option Nat :=
  let r := Raw.ofBits w
  let own := r.details ++ (match instrOf r with
    | some i => if spansOk k i then [] else [6]
    | none => []) ++ (match live with
    | some true => [5]
    | _ => [])
  own.foldl (fun (m : Option Nat) d => match m with
    | some n => some (min n d)
    | none => some d) none

/-- Everything the issue of a plain word at `pc` needs (R14, R46, R53): its LIVE word when it carries SAFE, and for REP the
target and the target's LIVE word, whose own faults the repeats report. Where the fetch of the LIVE word's block fails and
the SAFE word is itself illegal, the failure of the fetch is reported: DESIGN CHOICE, no rule orders the two (log entry 48). -/
def State.seen (s : State) (g : Group) (sup : Bool) (pc : Nat) : Seen :=
  let k := (s.grid (s.team g.tid).grid).k
  let stop := s.codeEnd g sup
  let liveOf (w : BitVec 96) (n : Nat) : Seen :=
    if !wSafe w then .word w none
    else if stop ≤ n then .word w (some 0)
    else match g.see sup n pc with
      | .word v _ => .word w (some v)
      | x => x
  if stop ≤ pc then .trap pc 1 1 pc
  else match g.see sup pc pc with
    | .word w _ =>
      if wOpc w = 0x008 then
        (match lowest k w none with
         | some d => if d < 0x0A then .trap pc 1 d pc else .trap pc 1 0x0A pc
         | none =>
           if stop ≤ pc + 1 then .trap (pc + 1) 1 1 (pc + 1)
           else match g.see sup (pc + 1) pc with
             | .word t _ =>
               if !repOk w t then .trap pc 1 0x0A pc
               else (match liveOf t (pc + 2) with
                 | .word _ _ => .word w none
                 | x => x)
             | x => x)
      else if wOpc w = 0xFFF then .trap pc 1 2 pc
      else (match liveOf w (pc + 1) with
        | .word _ lv =>
          (match lowest k w (lv.map (liveBad k)) with
           | some d => .trap pc 1 d pc
           | none => .word w lv)
        | x => x)
    | x => x

/-- Results outstanding (R44). -/
def Group.outstanding (g : Group) : Bool := !g.pend.isEmpty

/-! ### The standard supervisor image -/

/-- The group's routines are those of the standard image, which is loaded (R347, R353, R377). -/
def State.std (s : State) (g : Group) : Bool := s.svStd && s.fw.getLsbD 3 && g.trapvec.toNat == s.fld 0x160020 0 52

/-- Lanes of a trapped subgroup that an emulated repeat is for: those at the lowest REPK. -/
def Group.stdLanes (g : Group) (m : Mask) : Nat × Mask :=
  let ls := maskLanes 64 m
  let k := ls.foldl (fun n l => min n (g.lane l).repk.toNat) 63
  (k, lanesMask (ls.filter fun l => (g.lane l).repk.toNat == k))

/-- The instruction's misaligned accesses are emulated (R182). -/
def stdEmulates (w : BitVec 96) : Bool :=
  match instrOf (Raw.ofBits w) with
  | some (.ld _ _) => true
  | some (.st _ _) => true
  | some (.ldu _ _) => true
  | _ => false

/-- What the standard image does for lanes `m` at its word `pc` (R353): at word 16 × CAUSE it emulates the access the word
at TRAPPC makes, and at the next word it waits for it and returns. A word it cannot read, or that is no such access, is a
trap of the routine and ends the grid (R351). -/
def State.stdAct (s : State) (g : Group) (m : Mask) (pc : Nat) : StdAct :=
  let at' := g.trappc.toNat
  let det := bits g.trapcause.toNat 8 16
  let after (n : Nat) (w : BitVec 96) : Nat := at' + n + (if wSafe w then 1 else 0)
  let acts (w : BitVec 96) (rep : Bool) : StdAct := if stdEmulates w then .access w rep else .abort
  let at0 (a : StdAct) (b : StdAct) : StdAct := if pc % 16 = 0 then a else if g.outstanding then .wait else b
  if 2 ≤ pc % 16 then .abort
  else match g.see false at' at' with
    | .fetch b => if pc / 16 = 9 ∨ pc / 16 = 2 then .need b else .abort
    | .word w _ =>
      if pc / 16 = 9 ∧ det < 0x8000 then .leave (after 1 w) true
      else if pc / 16 = 2 ∧ det = 0 then
        if wOpc w = 0x008 then
          (match g.see false (at' + 1) at' with
           | .fetch b => .need b
           | .word t _ =>
             let k := (g.stdLanes m).1
             let st := repStrides w
             at0 (match stepWord t k st.1 st.2.1 st.2.2.1 st.2.2.2 with
                 | some x => if (lowest (s.grid (s.team g.tid).grid).k x none).isNone then acts x true else .abort
                 | none => .abort)
               (if k < ((Raw.ofBits w).imm.extractLsb' 0 6).toNat then .again else .leave (after 2 t) false)
           | _ => .abort)
        else at0 (acts w false) (.leave (after 1 w) false)
      else .abort
    | _ => .abort

/-- What a subgroup would do now: act as the standard image does, or issue the word at its place. -/
def State.shows (s : State) (g : Group) (u : Sub) : Seen :=
  if u.sup && s.std g then .std (s.stdAct g u.mask u.pc) else s.seen g u.sup u.pc

/-! ### Readiness -/

/-- An outstanding FENCE holds the classes 0x8, 0x9, 0xC and 0xD (R110, R191). -/
def Group.fenced (g : Group) : Bool := g.fences.any FenceEnt.instr

/-- Lanes of subgroups whose word waits at its switch marker now (R109). -/
def Group.swNow (g : Group) : Mask :=
  if g.outstanding then
    g.subs.foldl (fun m u => match g.word? u.sup u.pc with
      | some (.word w) => if wSw w && wOpc w != 0x008 then m ||| u.mask else m
      | _ => m) 0
  else 0

/-- Some subgroup other than that of the lanes `m` waits at a switch marker, or has waited there and not issued since:
it goes before every held producer (R109). Lanes their slices now mask form no subgroup. -/
def Group.swWait (g : Group) (m : Mask) : Bool :=
  ((g.swMask &&& g.subs.foldl (fun n u => n ||| u.mask) 0) ||| g.swNow) &&& ~~~m != 0

/-- The word of the subgroup `m` may issue as far as scoreboard, fences and switch markers go; `sw` tells whether its SW
counts (R108 to R110, R51). -/
def Group.free (g : Group) (w : BitVec 96) (sw : Bool) (m : Mask) : Bool :=
  match instrOf (Raw.ofBits w) with
  | none => true
  | some i =>
    let c := wClass w
    !(sw && wSw w && g.outstanding) &&
    !(switchClass i && !(sw && wSw w) && g.swWait m) &&
    !((c == 8 || c == 9 || c == 0xC || c == 0xD) && g.fenced) &&
    (g.score.isEmpty || (namedRefs w i ++ fixedDst i).all fun r => !g.score.contains r)

/-- Whether a port executes a word, and for how many cycles its issue holds the port (R113). -/
def portRuns (port : Nat) (w : BitVec 96) : Bool :=
  let c := wClass w
  if c ≤ 4 ∨ (c = 5 ∧ wOpc w % 256 < 0x10) ∨ 0xE ≤ c then true
  else if c = 5 ∨ c = 6 ∨ c = 0xB then port == 1
  else port == 0
def occupancy (w : BitVec 96) : Nat :=
  let c := wClass w
  if c = 5 ∧ 0x10 ≤ wOpc w % 256 then 4 else if c = 6 ∨ c = 7 then 2 else 1

/-- The port is not held by an earlier issue (R113). -/
def Part.portFree (x : Part) (port : Nat) : Bool := decide ((if port = 0 then x.busy0 else x.busy1) ≤ x.cyc)

/-- Some port leaves room for the word (R108). -/
def Part.room (x : Part) (w : BitVec 96) : Bool := (portRuns 0 w && x.portFree 0) || (portRuns 1 w && x.portFree 1)

/-- The misses and sector requests of the word's instruction fit (R167, R172). -/
def State.wordRoom (s : State) (slot : Nat) (m : Mask) (emul : Bool) (w : BitVec 96) : Bool :=
  match instrOf (Raw.ofBits w) with
  | some i => s.memRoom slot m emul i
  | none => true

/-- A stopping group issues nothing more once it may stop (R336). -/
def State.mayIssue (s : State) (slot : Nat) : Bool :=
  let g := s.group slot
  let t := s.team g.tid
  t.used && !t.dead && (t.st == .running || (t.st == .stopping && (s.stopCase slot).isNone))

/-- The subgroup a group would issue now, with what its word shows (R101); REP's own subgroup while one is in progress
(R115). -/
def State.candidate (s : State) (slot : Nat) : Option Sub :=
  let g := s.group slot
  if g.st != .active || !s.mayIssue slot then none
  else match g.rep with
    | some _ => none
    | none => g.order.find? fun u => match s.shows g u with
      | .fetch _ => false
      | .trap _ _ _ _ => true
      | .word w _ => g.free w true u.mask && (s.part (slotPart slot)).room w && s.wordRoom slot u.mask false w
      | .std a => match a with
        | .need _ => false
        | .wait => false
        | .access w _ => g.free w false u.mask && (s.part (slotPart slot)).room w && s.wordRoom slot u.mask true w
        | _ => true

/-- A repeat can issue now. -/
def State.repReady (s : State) (slot : Nat) : Bool :=
  let g := s.group slot
  g.st == .active && s.mayIssue slot && (match g.rep with
    | some r => (match stepWord r.word r.k r.sd r.sa r.sb r.sc with
      | some w => g.free w (r.k == 0) r.mask && (s.part (slotPart slot)).room w && s.wordRoom slot r.mask false w
      | none => true)
    | none => false)

/-- The word the group would issue now: that of the next repeat, or of its candidate; a word that traps is taken as one of
class 0x0. -/
def State.offer (s : State) (slot : Nat) : Option (BitVec 96) :=
  let g := s.group slot
  if s.repReady slot then some (((g.rep.bind fun r => stepWord r.word r.k r.sd r.sa r.sb r.sc)).getD 0)
  else (s.candidate slot).map fun u => match s.shows g u with
    | .word w _ => w
    | .std (.access w _) => w
    | _ => 0

/-- The block a group asks for (R99): that of the first subgroup in its order whose word is not buffered, when none
before it is ready. -/
def State.fetchNeed (s : State) (slot : Nat) : Option (Bool × Nat) :=
  let g := s.group slot
  if g.st != .active || g.rep.isSome || !s.mayIssue slot || !g.fetch.isEmpty then none
  else (g.order.findSome? fun u => match s.shows g u with
    | .fetch b => some (some (u.sup, b))
    | .trap _ _ _ _ => some none
    | .word w _ => if g.free w true u.mask then some none else none
    | .std a => match a with
      | .need b => some (some (false, b))
      | .wait => none
      | .access w _ => if g.free w false u.mask then some none else none
      | _ => some none).join

end Sys2Proof.Machine
end

