-- ==== Sys2Proof/Machine/EvCore.lean ====
section
/-! DEFINITION. The steps of a core beside its instructions: fetch, results, store queue, fences, waits, shelves,
commands of the engines, and translation. A step whose condition does not hold changes nothing (log entry 2). -/

namespace Sys2Proof.Machine

/-! ### Results -/

/-- Write a lane's words to a result's registers (R43). -/
def Group.writePend (g : Group) (p : Pend) (lane : Nat) (ws : List Word) : Group :=
  match p.file with
  | 0 => if (g.lane lane).exited then g else dstSpan g (.vec (BitVec.ofNat 8 p.dst)) lane ws
  | 1 => dstSpan g (.uni (BitVec.ofNat 8 p.dst)) lane ws
  | 2 => g.setQ (p.dst + lane) (BitVec.ofNat 64 (wordsNat ws))
  | _ => g

/-- A lane's datum as it stands in an outstanding result. -/
def Group.datumOf (g : Group) (id lane : Nat) : Option Datum :=
  ((g.pend.find? fun p => p.id == id).bind fun p => p.lanes.find? fun x => x.lane == lane).map PLane.datum

/-- Places of a datum still to be read. -/
def datumLocs : Datum → List Loc
  | .mem bs => bs.map Prod.snd
  | _ => []

/-- Read the datum of a lane when it can be read, older loads of its bytes first (R321). -/
def State.fetchDatum (s : State) (slot : Nat) (p : Pend) (x : PLane) : State :=
  let ls := datumLocs x.datum
  let s1 := s.captureMet slot p.id ls
  if s1.noneMet slot p.id ls then s1.capture slot p x else s1

/-- Remove a lane from an outstanding result. -/
def Group.dropLane (g : Group) (id lane : Nat) : Group :=
  { g with pend := g.pend.map fun p => if p.id = id then { p with lanes := p.lanes.filter fun x => x.lane != lane } else p }

/-- Write the result of one lane, if its datum is there. -/
def State.landLane (s : State) (slot : Nat) (p : Pend) (lane : Nat) : State :=
  match (s.group slot).datumOf p.id lane with
  | some (.words ws) => s.modGroup slot fun g => (g.writePend p lane ws).dropLane p.id lane
  | _ => s

/-- The end of a result whose lanes have all been written, with its acquire (R196). -/
def State.closePend (s : State) (slot : Nat) (p : Pend) : State :=
  match (s.group slot).pend.find? fun x => x.id == p.id with
  | some q =>
    if q.lanes.isEmpty then
      let s1 := s.modGroup slot fun g => { g with pend := g.pend.filter fun x => x.id != p.id }
      (match p.acq with
       | some sc => s1.acquireAt slot q.id sc
       | none => s1)
    else s
  | none => s

/-- SWITCH_RESULT_WRITE: lanes of an outstanding result are written, each as it is ready (R43 to R45). -/
def State.resultWrite (s : State) (slot id : Nat) (lanes : Mask) : State :=
  match (s.group slot).pend.find? fun p => p.id == id with
  | none => s
  | some p =>
    if p.ldx.isSome then s
    else
      let xs := p.lanes.filter fun x => lanes.getLsbD x.lane
      let s1 := xs.foldl (fun s x => s.fetchDatum slot p x) s
      (xs.foldl (fun s x => s.landLane slot p x.lane) s1).closePend slot p

/-- What the datum of an LDX lane meets: a trap for the lanes that still wait, or the state in which it is read as far as
it can be (R190, R368). -/
def State.ldxRead (s : State) (slot : Nat) (p : Pend) (x : PLane) : (Nat × Nat × State) ⊕ State :=
  match x.datum with
  | .mem bs =>
    (match bs.find? (s.badByte slot p.id p.form.nofill) with
     | some e => .inl (8, 1, s.logError e.2)
     | none =>
       if !bs.any fun b => b.2.isPeer then .inr (s.fetchDatum slot p x)
       else if (s.peerHeld slot p.id [(x.lane, bs)]).isSome then .inr s
       else
         let r := s.peerFetch slot p.id p.form.nofill [(x.lane, bs)]
         match r.1 with
         | .trap _ c d => .inl (c, d, r.2)
         | .wait => .inr r.2
         | .ready =>
           let d := r.2.datumFor slot p.id p.form (x.lane, bs)
           .inr ((d.2.dropAns (slotCore slot) (bs.map Prod.fst)).modGroup slot fun g => g.setDatum p.id x.lane d.1))
  | _ => .inr s

/-- LDX_DATUM_ARRIVE: one lane's datum arrives, is written, and the lane continues; a datum in error traps the lanes
that still wait (R189, R190). -/
def State.ldxArrive (s : State) (slot id lane : Nat) : State :=
  let g := s.group slot
  match g.pend.find? fun p => p.id == id, g.blocked.find? fun b => b.why == .ldx && b.mask.getLsbD lane with
  | some p, some b =>
    (match p.ldx, p.lanes.find? fun x => x.lane == lane with
     | some succ, some x =>
       (match s.ldxRead slot p x with
        | .inl (c, d, s1) =>
          let s2 := s1.modGroup slot fun g => { g with pend := g.pend.filter fun y => y.id != id,
                                                       blocked := g.blocked.filter fun c => c != b }
          s2.trapAt slot (lanesMask (p.lanes.map PLane.lane)) b.pc none c d x.va
        | .inr s1 =>
          (match (s1.group slot).datumOf id lane with
           | some (.words ws) =>
             let bit : Mask := 1#64 <<< lane
             let s2 := s1.modGroup slot fun g => (g.writePend p lane ws).dropLane id lane
             let cut (c : Blocked) : Blocked := if c = b then { c with mask := c.mask &&& ~~~bit } else c
             let s3 := s2.modGroup slot fun g =>
               { ((g.modLane lane fun y => { y with pc := succ, resumed := false, since := 0 }).passed b bit) with
                 blocked := (g.blocked.map cut).filter fun c => c.mask != 0 }
             s3.closePend slot p
           | _ => s1))
     | _, _ => s)
  | _, _ => s

/-- FIXED_LATENCY_RESULT_WRITE: the scoreboard releases the group's results (R110, R113). -/
def State.fixedWrite (s : State) (slot : Nat) : State := s.modGroup slot fun g => { g with score := [] }

/-! ### Fences and flushes -/

/-- FENCE_COMPLETE: the oldest FENCE completes (R191, R317). -/
def State.fenceDone (s : State) (slot : Nat) : State :=
  match (s.group slot).fences with
  | [] => s
  | f :: _ =>
    if !(s.group slot).loadsBack f.mark || (s.group slot).flushes.any fun x => decide (x.mark < f.mark) then s
    else
      let r := if f.rel then s.release slot f.mark f.scope else (true, s)
      if !r.1 then r.2
      else
        let s1 := r.2.modGroup slot fun g => { g with fences := g.fences.drop 1 }
        if f.acq then s1.acquireNow slot f.scope else s1

/-- FLUSH_COMPLETE: the named dirty bytes are accepted by their homes, and dropped for `.inv` (R192). -/
def State.flushDone (s : State) (slot : Nat) : State :=
  match (s.group slot).flushes with
  | [] => s
  | f :: _ =>
    if (s.group slot).sq.any fun e => e.id < f.mark then s
    else
      let core := slotCore slot
      let secs := f.keys.map (· / 32)
      let sel (k : Nat) : Bool := f.all || secs.contains (k / 32)
      let s1 := s.wbSel core sel
      if !s1.cleanSel core sel then s1
      else
        let s2 := if f.inv then s1.dropKeys core sel else s1
        s2.modGroup slot fun g => { g with flushes := g.flushes.drop 1 }

/-! ### The active set -/

/-- ACTIVE groups of a partition, with age. -/
def State.actives (s : State) (p : Nat) : List (Nat × Nat) :=
  (s.groups.filter fun e => slotPart e.1 == p && e.2.st == .active).map fun e => (e.1, e.2.age)

/-- The head of the pending list enters the active set as its youngest (R105). -/
def State.enter (s : State) (p : Nat) : State :=
  match (s.part p).pending with
  | [] => s
  | k :: r =>
    let (n, s1) := s.freshId
    (s1.setPart p { s1.part p with pending := r, lastEnter := s1.now }).modGroup k fun g => { g with st := .active, age := n }

/-- Enter groups while fewer than 8 are ACTIVE (R105). -/
def State.fillActive (s : State) (p : Nat) : Nat → State
  | 0 => s
  | n + 1 => if (s.actives p).length < 8 && !(s.part p).pending.isEmpty then (s.enter p).fillActive p n else s

/-- ACTIVE_ROTATION (R106). -/
def State.rotation (s : State) (p : Nat) : State :=
  if (s.part p).pending.isEmpty || decide (s.now - (s.part p).lastEnter < 1024) then s
  else match (sortBy Prod.snd (s.actives p)).head? with
    | some (k, _) =>
      let s1 := s.modGroup k fun g => { g with st := .pending }
      (s1.setPart p { s1.part p with pending := (s1.part p).pending ++ [k] }).enter p
    | none => s

/-! ### Waits -/

/-- SLEEP_EXPIRE: sleeping lanes continue (R128). -/
def State.sleepOver (s : State) (slot : Nat) : State :=
  let isOver (b : Blocked) : Bool := match b.why with
    | .sleep w => decide (w ≤ s.now)
    | _ => false
  s.modGroup slot fun g =>
    let g1 := (g.blocked.filter isOver).foldl (fun g b =>
      (g.onMask b.mask fun x => { x with pc := b.next, resumed := false, since := 0 }).passed b b.mask) g
    { g1 with blocked := g1.blocked.filter fun b => !isOver b }

/-- STATION_MACROS_GRANTED: the first STATION of the core, in order of issue, that can be answered is this group's
(R212, R213). -/
def State.stationGrant (s : State) (slot : Nat) : State :=
  match (s.stations (slotCore slot)).find? s.grantable with
  | some e => if e.1 = slot then (s.grant slot e.2.1 e.2.2.2.1 e.2.2.2.2).stalemate (slotCore slot) else s
  | none => s.stalemate (slotCore slot)

/-- UNSTAT_RELEASE: the readers of the shelf are done; a load begun meanwhile is cancelled (R215). -/
def State.unstatOver (s : State) (slot : Nat) : State :=
  match (s.group slot).blocked.findSome? fun b => match b.why with
      | .unstat i => some (b, i)
      | _ => none with
  | none => s
  | some (b, i) =>
    let tid := (s.group slot).tid
    if s.shelfRead tid i then s
    else
      let s0 := s.cancelLoad tid i
      let s1 := if ((s0.team tid).shelf i).st == .free then s0 else s0.freeShelf tid i
      let s2 := s1.modGroup slot fun g =>
        let g1 := (g.onMask b.mask fun x => { x with pc := b.next, resumed := false, since := 0 }).passed b b.mask
        { g1 with blocked := g1.blocked.filter fun c => c != b }
      s2.stalemate (slotCore slot)

/-! ### Loads of shelves and predicted rows -/

/-- A command of a team that may run now. -/
def State.cmdGo (s : State) (tid id : Nat) (kind : CmdKind) (st : CmdSt) : Option Cmd :=
  match s.cmd id with
  | some c => if c.tid = tid ∧ c.kind = kind ∧ c.st = st ∧ !s.cmdPaused c ∧ s.cmdReady c then some c else none
  | none => none

/-- WLOAD_COMPLETE (R214). -/
def State.wloadDone (s : State) (tid shelf : Nat) : State :=
  match s.loadOf tid shelf with
  | some c => if c.kind == .wload && !s.cmdPaused c && s.cmdReady c then s.loadRun c else s
  | none => s

/-- One sector of a running load comes before its turn: the sectors are read in any order (R214). -/
def State.loadEarly (s : State) (id k : Nat) : State :=
  match s.cmds.find? fun c => c.id == id with
  | none => s
  | some c =>
    let t := s.team c.tid
    let x := t.shelf c.aux0
    let len := imgL x.fmt x.nrows x.klen
    if c.kind != .wload || c.aux2 == 2 || (c.aux2 == 1 && (s.retMatch c x).isSome) || decide (len ≤ 32 * k) ||
        decide (k < c.pos) || c.data.contains (BitVec.ofNat 32 k) || s.cmdPaused c || !s.cmdReady c then s
    else
      let r := s.agRead c.core c.pasid (x.src + 32 * k) 32
      match r.1 with
      | .ok => (r.2.2.scrStore t (x.m0 * 65536 + 32 * k) r.2.1).setCmd { c with data := BitVec.ofNat 32 k :: c.data }
      | .wait => r.2.2
      | .fail e => r.2.2.loadFail c e

/-- FFPBND_CHECK_START and FFPBND_CHECK_END (R234). -/
def State.bndGo (s : State) (tid id : Nat) : State :=
  match s.cmdGo tid id .ffpbnd .accepted with
  | some c => s.bndStart c
  | none => s
def State.bndStop (s : State) (tid id : Nat) : State :=
  match s.cmdGo tid id .ffpbnd .running with
  | some c => s.bndRun ((layerFrom c.data).nrows + 2) c
  | none => s

/-- FFPFCH_GATHER_START and FFPFCH_GATHER_END (R239). -/
def State.fchGo (s : State) (tid id : Nat) : State :=
  match s.cmdGo tid id .ffpfch .accepted with
  | some c => s.fchStart c
  | none => s
def State.fchStop (s : State) (tid id : Nat) : State :=
  match s.cmdGo tid id .ffpfch .running with
  | some c => s.fchRun c
  | none => s

/-! ### Translation -/

/-- The outstanding translation of a page. -/
def State.walkOf (s : State) (core pasid page : Nat) : Option Walk := s.walks.find? fun w => w.on core pasid page

/-- Move an outstanding translation to another state. -/
def State.setWalk (s : State) (w : Walk) (st : WalkSt) : State :=
  { s with walks := s.walks.map fun x => if x = w then { x with st } else x }

/-- Pages of 4 KiB that the leaf of a walk maps: three levels of table lead to a page of 64 MiB, four to one of 64 KiB
(R166). -/
def State.leafPages (s : State) (pasid va : Nat) : Nat := if (s.tableReads pasid va).length = 4 then 16384 else 16

/-- TRANSLATION_WALK_DONE: the walk of R166 ends, or turns to the host (R169). The page is named at the 4 KiB grain. -/
def State.walkDone (s : State) (core pasid page : Nat) : State :=
  match s.walkOf core pasid page with
  | none => s
  | some w =>
    let va := w.page * 4096
    if w.st != .walk then s
    else
      let s1 := s.touchTables core pasid va
      match s.walk pasid va with
      | .ok a wr x =>
        let n := s.leafPages pasid va
        s1.xlDone w (w.page / n * n) n (.ok (a / 4096 - w.page % n) false wr x)
      | .ats => (s1.setWalk w .ats).emit (.ats pasid w.page)
      | .bad r => s1.xlDone w w.page 1 (.bad r)
      | .data => (s1.record 4 2 0xFFFF (BitVec.ofNat 64 w.page) (BitVec.ofNat 64 pasid)).xlDone w w.page 1 .data

/-- ATS_COMPLETION (R169, R170): a host page with its rights, kept at its size. Accesses with the
rights they need go on; the others ask for the page, and after a page request an answer fails what it does not allow:
PRIFAIL where it grants nothing, else PERMISSION. -/
def State.atsDone (s : State) (core pasid page : Nat) (r w : Bool) (hpage : HostPage) : State :=
  match s.walkOf core pasid page with
  | none => s
  | some k =>
    let n := max 1 hpage.pages
    let s1 := if r || w then s.xlDone k (page / n * n) n (.ok (hpage.page / n * n) true w r) else s
    let rest := { k with who := k.who.filter fun x => !(if x.2 then w else r) }
    match k.st with
    | .ats => if rest.who.isEmpty then s1 else State.askPri { s1 with walks := s1.walks.filter fun x => x != k } rest
    | .again =>
      if !r && !w then s.xlDone k page 1 (.bad 4)
      else if rest.who.isEmpty then s1 else s1.xlDone rest page 1 (.bad 3)
    | _ => s

/-- Translations waiting for one of the 512 page requests ask again (R170). -/
def State.priRoom (s : State) : State := (s.walks.filter fun w => w.st == .priWait).foldl State.askPri s

/-- PAGE_REQUEST_RESPONSE (R170): success repeats the ATS request, failure is PRIFAIL for every waiting access. -/
def State.priDone (s : State) (pasid page : Nat) (ok : Bool) : State :=
  let ws := s.walks.filter fun w => w.st == .pri && w.pasid == pasid && w.page == page
  let s1 := ws.foldl (fun s w =>
    if ok then (s.setWalk w .again).emit (.ats pasid page) else s.xlDone w page 1 (.bad 4)) s
  if ws.isEmpty then s else s1.priRoom

/-! ### Invalidation -/

/-- A 4 KiB page lies in the range of an invalidation. -/
def Inval.covers (v : Inval) (page : Nat) : Bool := v.all || decide (v.page ≤ page ∧ page < v.page + v.npages)

/-- Some of `n` pages from `page` on lies in the range. -/
def Inval.meets (v : Inval) (page n : Nat) : Bool := v.all || decide (page < v.page + v.npages ∧ v.page < page + n ∧ 0 < v.npages)

/-- An L1 key lies in the range. -/
def Inval.key (v : Inval) (k : Nat) : Bool := k / 2 ^ 56 == v.pasid && v.covers (k % 2 ^ 56 / 4096)

/-- Steps 1 and 2 of R171: drop translations, restart walks, write back dirty bytes and drop clean ones. -/
def State.invRange (s : State) (v : Inval) : State :=
  let s1 := { s with
    tlb := s.tlb.filter fun e => !(e.pasid == v.pasid && v.meets e.page e.size),
    walks := s.walks.map fun w =>
      if w.pasid == v.pasid && (v.covers w.page || (w.st == .walk && v.meets (w.page / 16 * 16) 16)) then { w with st := .walk }
      else w }
  (List.range 200).foldl (fun s c =>
    if (s.core c).l1.isEmpty && (s.core c).icache.isEmpty then s
    else
      let s2 := ((s.wbSel c v.key).dropKeys c v.key)
      s2.modCore c fun k => { k with icache := k.icache.filter fun b => b.sup || b.pasid != v.pasid }) s1

/-- Begin an invalidation. -/
def State.invStart (s : State) (pasid page npages : Nat) (all fromHost : Bool) : State :=
  let (id, s1) := s.freshId
  let v : Inval := { id, pasid, page, npages, all, fromHost }
  State.invRange { s1 with invals := s1.invals ++ [v] } v

/-- TINVCTL_GO: a write of TINVCTL (R164, R171); its GO is ignored while BUSY. -/
def State.tinvGo (s : State) (v : DWord) : State :=
  let n := v.toNat
  let keep : DWord := BitVec.ofNat 64 (bits n 0 21 + bits n 24 32 * 2 ^ 24)
  let s1 := s.setReg 0x130018 keep
  if !bitAt n 21 || s.invals.any fun x => !x.fromHost then s1
  else s1.invStart (bits n 0 20) (s.fld 0x130010 16 40 * 16) (bits n 24 32 * 16) (bitAt n 20) false

/-- An access made before the invalidation under the old translation is not complete (R171, step 3). -/
def State.invHeld (s : State) (v : Inval) : Bool :=
  let bytes (p : Pend) : Bool := p.lanes.any fun x => match x.datum with
    | .mem bs => bs.any fun b => v.key b.1
    | .wait => v.key (l1key p.pasid x.va)
    | .words _ => false
  let entry (e : SqEnt) : Bool := match e.kind with
    | .store bs => bs.any fun b => v.key b.key
    | .atomic r => r.lanes.any fun x => v.key (l1key e.pasid x.va)
  (s.groups.any fun g => (g.2.pend.any fun p => decide (p.id < v.id) && p.pasid == v.pasid && bytes p) ||
    g.2.sq.any fun e => decide (e.id < v.id) && entry e) ||
  s.outst.any fun o => decide (o.tag < v.id) && (match o.who with
    | .fill _ k _ => v.key k
    | .atomic _ _ => false
    | _ => v.key o.key)

/-- INVALIDATION_COMPLETE: every access under the old translation has completed; BUSY clears, or the ATS completion is
sent (R171, R363). -/
def State.invDone (s : State) (id : Nat) : State :=
  match s.invals.find? fun v => v.id == id with
  | none => s
  | some v =>
    if s.invHeld v then s
    else
      let s1 := (List.range 200).foldl (fun s c => if (s.core c).l1.isEmpty then s else (s.wbSel c v.key).dropKeys c v.key) s
      if !((List.range 200).all fun c => s1.cleanSel c v.key) then s1
      else
        let s2 := { s1 with invals := s1.invals.filter fun x => x.id != id }
        if v.fromHost then s2.emit (.atsInvDone v.pasid v.page) else s2

/-! ### The rows of the table -/

/-- FETCH_BLOCK_ARRIVE. -/
def execFetchBlockArrive (slot blk : Nat) (cached : Bool) (s : State) : Out' := 
  .next (s.by (2 * slot, allLanes) fun s => s.fetchArrive slot blk cached)
/-- SWITCH_RESULT_WRITE. -/
def execSwitchResultWrite (slot id : Nat) (lanes : Mask) (s : State) : Out' := .next (s.resultWrite slot id lanes)
/-- LDX_DATUM_ARRIVE. -/
def execLdxDatumArrive (slot id lane : Nat) (s : State) : Out' := .next (s.ldxArrive slot id lane)
/-- STORE_QUEUE_PERFORM (R316). -/
def execStoreQueuePerform (slot : Nat) (s : State) : Out' := .next (s.sqPerform slot)
/-- FENCE_COMPLETE. -/
def execFenceComplete (slot : Nat) (s : State) : Out' := .next (s.fenceDone slot)
/-- FLUSH_COMPLETE. -/
def execFlushComplete (slot : Nat) (s : State) : Out' := .next (s.flushDone slot)
/-- ACTIVE_ROTATION. -/
def execActiveRotation (part : Nat) (s : State) : Out' := .next (s.rotation part)
/-- SLEEP_EXPIRE. -/
def execSleepExpire (slot : Nat) (s : State) : Out' := .next (s.sleepOver slot)
/-- CELL_WAITER_WAKE (R304). -/
def execCellWaiterWake (slot ticket : Nat) (s : State) : Out' := .next (s.wake slot ticket)
/-- WAITA_REREAD (R201). -/
def execWaitaReread (slot lane : Nat) (s : State) : Out' := 
  .next (s.by (2 * slot, 1#64 <<< lane) fun s => s.waitaLane slot lane)
/-- STATION_MACROS_GRANTED. -/
def execStationMacrosGranted (slot : Nat) (s : State) : Out' := .next (s.stationGrant slot)
/-- UNSTAT_RELEASE. -/
def execUnstatRelease (slot : Nat) (s : State) : Out' := .next (s.unstatOver slot)
/-- WLOAD_COMPLETE. -/
def execWloadComplete (tid shelf : Nat) (s : State) : Out' := 
  .next (match s.loadOf tid shelf with
    | some c => s.byCmd c.id fun s => s.wloadDone tid shelf
    | none => s)
/-- FFPBND_CHECK_START. -/
def execFfpbndCheckStart (tid id : Nat) (s : State) : Out' := .next (s.byCmd id fun s => s.bndGo tid id)
/-- FFPBND_CHECK_END. -/
def execFfpbndCheckEnd (tid id : Nat) (s : State) : Out' := .next (s.byCmd id fun s => s.bndStop tid id)
/-- FFPFCH_GATHER_START. -/
def execFfpfchGatherStart (tid id : Nat) (s : State) : Out' := .next (s.byCmd id fun s => s.fchGo tid id)
/-- FFPFCH_GATHER_END. -/
def execFfpfchGatherEnd (tid id : Nat) (s : State) : Out' := .next (s.byCmd id fun s => s.fchStop tid id)
/-- COPY_START (R250, R251). -/
def execCopyStart (id : Nat) (s : State) : Out' := .next (s.byCmd id fun s => s.copyStart id)
/-- COPY_FINISH (R257). -/
def execCopyFinish (id : Nat) (s : State) : Out' :=
  match s.cmd id with
  | some c => .next (if c.kind == .gather then s else s.byCmd id fun s => s.enFinish id)
  | none => .next s
/-- GATHER_START (R250, R254). -/
def execGatherStart (id : Nat) (s : State) : Out' := .next (s.byCmd id fun s => s.gatherStart id)
/-- GATHER_FINISH (R257). -/
def execGatherFinish (id : Nat) (s : State) : Out' :=
  match s.cmd id with
  | some c => .next (if c.kind == .gather then s.byCmd id fun s => s.enFinish id else s)
  | none => .next s
/-- TILE_TASK_START (R262, R263). -/
def execTileTaskStart (id : Nat) (s : State) : Out' := .next (s.byCmd id fun s => s.tileStart id)
/-- TILE_TASK_FINISH (R264, R265). -/
def execTileTaskFinish (id : Nat) (s : State) : Out' := .next (s.byCmd id fun s => s.tileFinish id)
/-- ENGINE_GRANULE_BOUNDARY (R237, R259, R263). -/
def execEngineGranuleBoundary (id : Nat) (s : State) : Out' := .next (s.byCmd id fun s => s.granule id)
/-- FIXED_LATENCY_RESULT_WRITE. -/
def execFixedLatencyResultWrite (slot : Nat) (s : State) : Out' := .next (s.fixedWrite slot)
/-- TRANSLATION_WALK_DONE. -/
def execTranslationWalkDone (core pasid vpage : Nat) (s : State) : Out' := .next (s.walkDone core pasid vpage)
/-- ATS_COMPLETION. -/
def execAtsCompletion (core pasid page : Nat) (r w : Bool) (hpage : HostPage) (s : State) : Out' :=
  .next (s.atsDone core pasid page r w hpage)
/-- PAGE_REQUEST_RESPONSE. -/
def execPageRequestResponse (pasid page : Nat) (ok : Bool) (s : State) : Out' := .next (s.priDone pasid page ok)
/-- ATS_INVALIDATION_REQUEST (R171). -/
def execAtsInvalidationRequest (pasid page npages : Nat) (s : State) : Out' :=
  .next (s.invStart pasid page npages false true)
/-- TINVCTL_GO. -/
def execTinvctlGo (v : DWord) (s : State) : Out' := .next (s.tinvGo v)
/-- INVALIDATION_COMPLETE. -/
def execInvalidationComplete (id : Nat) (s : State) : Out' := .next (s.invDone id)

end Sys2Proof.Machine
end

