-- ==== Sys2Proof/Machine/EvHub.lean ====
section
/-! DEFINITION. The steps of the hub: queues and semaphores, the dispatcher, graphs, the end of work, mailboxes,
pre-emption, the hub's registers and the host port (R6, R361, R362), placement (R177 to R180), and ordered streams. -/

namespace Sys2Proof.Machine

/-! ### Reading registers -/

/-- QSTAT as it reads (R80). STATE is 1 (dispatching) while entries already dispatched still run, also at HEAD = TAIL:
DESIGN CHOICE, R80 does not say whether that is idle (log entry 50). -/
def State.qstat (s : State) (q : Nat) : DWord :=
  let kept := s.fld (qreg q 0x20) 13 2 * 2 ^ 13
  let v :=
    if !s.qEn q then 3
    else match s.qBlocked q with
      | some n => 2 + n * 4
      | none => if (s.qEntry q).isSome || !(s.queue q).busy.isEmpty then 1 else 0
  BitVec.ofNat 64 (v + s.eprio q * 2 ^ 10 + kept)

/-- Live walkers and running nodes of a stack (R268). -/
def State.stackLoad (s : State) (k : Nat) : Nat × Nat :=
  let ps := s.nodes.flatMap fun n => (n.parts.filter fun p => p.stack == k && p.started && !p.fin && !p.stopped)
  (ps.foldl (fun n p => n + p.walkers.length) 0, ps.length)

/-- The offset names a register of the hub (R361). -/
def regExists (off : Nat) : Bool :=
  let b := off / 0x1000
  decide (off % 8 = 0) &&
  ((b == 0x100 && decide (off % 0x40 ≤ 0x20)) || b == 0x110 || off == 0x120000 ||
   (0x130000 ≤ off && off ≤ 0x130018) || (0x140000 ≤ off && off < 0x148000) || off == 0x148000 || off == 0x148008 ||
   (0x150000 ≤ off && off < 0x150800 && decide (off % 0x100 ≤ 0x18)) || (0x160000 ≤ off && off ≤ 0x160028) ||
   (0x170000 ≤ off && off < 0x170040) || (0x180000 ≤ off && off < 0x180040) || (0x190000 ≤ off && off ≤ 0x190010) ||
   (0x190100 ≤ off && off < 0x190300) || (0x190400 ≤ off && off < 0x190500 && decide (off % 0x20 ≤ 0x10)) ||
   (0x1A0000 ≤ off && off < 0x1A0200 && decide (off % 0x20 ≤ 0x10)) || (0x1B0000 ≤ off && off ≤ 0x1B0018) ||
   off == 0x1C0000)

/-- A register as it reads: fields that follow the machine's state are computed, the others stored. -/
def State.regRead (s : State) (off : Nat) : DWord :=
  let v := s.reg off
  if 0x100000 ≤ off ∧ off < 0x101000 ∧ off % 0x40 = 0x20 then s.qstat ((off - 0x100000) / 0x40)
  else if off = 0x130018 then setBits v 22 1 (if s.invals.any fun x => !x.fromHost then 1 else 0)
  else if off = 0x148008 then s.stepOf (s.fld 0x148000 0 20)
  else if 0x150000 ≤ off ∧ off < 0x150800 ∧ off % 0x100 = 0x10 then BitVec.ofNat 64 s.epMask
  else if 0x150000 ≤ off ∧ off < 0x150800 ∧ off % 0x100 = 0x18 then
    let n := s.stackLoad ((off - 0x150000) / 0x100)
    BitVec.ofNat 64 (n.1 % 2 ^ 16 + n.2 % 2 ^ 16 * 2 ^ 16)
  else if off = 0x160008 then setBits v 32 32 s.shFree
  else if off = 0x160028 then setBits v 33 1 (if s.prectlBusy then 1 else 0)
  else if 0x1A0000 ≤ off ∧ off < 0x1A0200 ∧ off % 0x20 = 0x10 then setBits v 0 8 (s.openRounds ((off - 0x1A0000) / 0x20))
  else v

/-! ### Writing registers -/

/-- Bits a plain write may change, for registers without a behaviour of their own (R6). -/
def regMask (off : Nat) : Nat :=
  let m (hi lo : Nat) : Nat := 2 ^ (hi + 1) - 2 ^ lo
  if 0x110000 ≤ off ∧ off < 0x111000 then (if off % 0x10 = 0 then m 31 0 else m 6 0)
  else if off = 0x120000 then m 31 0
  else if off = 0x130000 then m 51 13
  else if off = 0x130008 then m 20 0
  else if off = 0x130010 then m 55 16
  else if 0x140000 ≤ off ∧ off < 0x148000 then m 63 0
  else if off = 0x148000 then m 19 0
  else if 0x150000 ≤ off ∧ off < 0x150800 ∧ off % 0x100 = 0 then m 31 0
  else if off = 0x160000 then m 51 16
  else if off = 0x160008 ∨ off = 0x160010 ∨ off = 0x160018 then m 31 0
  else if 0x170000 ≤ off ∧ off < 0x170040 then 1 + m 51 33
  else if 0x180000 ≤ off ∧ off < 0x180040 then 1
  else if off = 0x190000 then m 5 0
  else if off = 0x190008 then m 31 0
  else if off = 0x190010 then m 63 0
  else if 0x190100 ≤ off ∧ off < 0x190300 then m 4 0
  else if 0x190400 ≤ off ∧ off < 0x190500 then
    (if off % 0x20 = 0 then 3 + m 43 16 else if off % 0x20 = 8 then m 31 0 else m 63 0)
  else if off = 0x1B0000 then m 8 0 + m 31 16
  else if off = 0x1B0010 then m 63 32
  else if off = 0x1C0000 then m 11 0
  else 0

/-- Write the bits of a mask. -/
def State.regPut (s : State) (off : Nat) (v : DWord) (mask : Nat) : State :=
  let m : DWord := BitVec.ofNat 64 mask
  s.setReg off ((s.reg off &&& ~~~m) ||| (v &&& m))

/-- Clear EN of a merge tree and discard its open rounds (R370). -/
def State.treeClear (s : State) (t : Nat) : State :=
  State.setFld { s with rounds := s.rounds.filter fun x => x.tree != t } (treeReg t) 0 1 0

/-- A write of a merge-tree register: with EN set, only one that clears EN counts (R370). -/
def State.treeWrite (s : State) (off : Nat) (v : DWord) : State :=
  let t := (off - 0x1A0000) / 0x20
  if s.treeEn t then (if off % 0x20 = 0 && !v.getLsbD 0 then (s.treeClear t).regPut off v (2 ^ 28 - 1) else s)
  else if off % 0x20 = 0 then s.regPut off v (2 ^ 28 - 1)
  else if off % 0x20 = 8 then s.regPut off v (2 ^ 56 - 1)
  else s

/-- A write of PRECTL (R334). -/
def State.prectlWrite (s : State) (v : DWord) : State :=
  let g := bits v.toNat 0 32
  let s1 := if v.getLsbD 32 then s.prectlGo g (v.getLsbD 34)
    else (s.setFld 0x160028 0 32 g).setFld 0x160028 34 1 (bits v.toNat 34 1)
  if v.getLsbD 35 then s1.prectlResume g else s1

/-- A 64-bit write of a hub register by the host, or by another agent of the device (R6, R22, R80, R84, R164, R268,
R334, R366). SVIMG takes writes of the hub's firmware only; what it loads there replaces the standard image (log entry 6). -/
def State.regWrite (s : State) (off : Nat) (v : DWord) (w : Writer) : State :=
  if !regExists off then s
  else if 0x100000 ≤ off ∧ off < 0x101000 then
    let q := (off - 0x100000) / 0x40
    match off % 0x40 with
    | 0x00 => if s.qEn q then s else s.regPut off v (2 ^ 56 - 64)
    | 0x08 => s.qConfig q v (w == .system)
    | 0x10 => s.qNotify q (bits v.toNat 0 16)
    | 0x20 => s.setReg off (s.reg off &&& ~~~(v &&& 0x6000))
    | _ => s
  else if 0x110000 ≤ off ∧ off < 0x111000 then (s.regPut off v (regMask off)).semEval
  else if off = 0x160020 then (if w == .firmware then State.setReg { s with svStd := false } off v else s)
  else if 0x130000 ≤ off ∧ off < 0x130020 then
    (if w != .system && w != .supervisor then s else if off = 0x130018 then s.tinvGo v else s.regPut off v (regMask off))
  else if w != .system then s
  else if off = 0x148008 then s.setStep (s.fld 0x148000 0 20) v
  else if off = 0x160028 then s.prectlWrite v
  else if 0x1A0000 ≤ off ∧ off < 0x1A0200 then s.treeWrite off v
  else if off = 0x1B0008 then (if v.getLsbD 32 then s.setFld off 32 1 0 else s)
  else s.regPut off v (regMask off)

/-! ### The host port -/

/-- Bytes of a cabinet event (R375). -/
def CabEv.bytes (e : CabEv) : List Byte :=
  leBytes 1 e.ty ++ leBytes 1 (e.sev % 4) ++ leBytes 2 e.src ++ leBytes 4 e.seq.toNat ++ leBytes 8 e.stamp ++
    leBytes 8 e.d0.toNat ++ leBytes 8 e.d1.toNat

/-- Byte `o` of the cabinet. -/
def State.cabByte (s : State) (o : Nat) : Byte :=
  match s.cab.find? fun e => e.seq.toNat % 4096 == o / 32 with
  | some e => e.bytes.getD (o % 32) 0
  | none => 0

/-- Byte of BAR0, if a register or the cabinet stands there. While the hub firmware is not loaded only BOOTSTAT
reads (R377). -/
def State.bar0 (s : State) (o : Nat) : Option Byte :=
  let r := o / 8 * 8
  if !s.fw.getLsbD 0 && r != 0x1B0018 then none
  else if 0x200000 ≤ o ∧ o < 0x220000 then some (s.cabByte (o - 0x200000))
  else if regExists r then some (BitVec.ofNat 8 ((s.regRead r).toNat / 2 ^ (8 * (o % 8))))
  else none

/-- Device address of a byte of BAR2 (R361). -/
def State.bar2 (s : State) (o : Nat) : Option Nat :=
  let w := (s.reg (0x170000 + 8 * (o / 2 ^ 33))).toNat
  if s.fw.getLsbD 0 && decide (o < 2 ^ 36) && bitAt w 0 && bits w 44 8 == 0 then
    some (bits w 33 19 * 2 ^ 33 + o % 2 ^ 33)
  else none

/-- Device addresses of a host access to BAR2; none when some byte is not reachable. -/
def State.barRange (s : State) (o n : Nat) : Option (List Nat) :=
  let xs := (List.range n).map fun i => s.bar2 (o + i)
  if xs.all Option.isSome then some (xs.map fun x => x.getD 0) else none

/-- The bytes a host read of device memory returns: a sector in error gives free values (log entry 1). -/
def State.hostBytes (s : State) (as : List Nat) : List Byte :=
  as.map fun a =>
    if s.poison.contains (a / 32) then (Config.free64 (s.free + a % 32)).extractLsb' 0 8 else Tab.get 0 s.mem a

/-- A read of the host is performed. Offsets below 2^26 lie in BAR0, the others in BAR2; an access that cannot be made returns
all ones (R361). -/
def State.hostRd (s : State) (off n : Nat) : State :=
  if off < 2 ^ 26 then
    let bs := (List.range n).map fun i => s.bar0 (off + i)
    s.emit (.hostRead off (if bs.all Option.isSome then bs.map fun b => b.getD 0 else List.replicate n 0xFF))
  else match s.barRange (off - 2 ^ 26) n with
    | none => s.emit (.hostRead off (List.replicate n 0xFF))
    | some as =>
      let s1 := as.foldl (fun s a => if a % 65536 = 0 ∨ some a = as.head? then s.touch 1000 (.dev a) else s) s
      State.emit { s1 with free := s1.free + 32 } (.hostRead off (s.hostBytes as))

/-- Write the register around an offset with some of its bytes; bytes not written keep what the register reads, and
bits that a 1 clears stay as they are. -/
def State.regBytes (s : State) (r : Nat) (bs : List (Nat × Byte)) : State :=
  let w1c := (0x100000 ≤ r ∧ r < 0x101000 ∧ r % 0x40 = 0x20) ∨ r = 0x1B0008
  let base := if w1c then [] else leBytes 8 (s.regRead r).toNat
  let v := (List.range 8).map fun i => ((bs.find? fun b => b.1 == r + i).map Prod.snd).getD (base.getD i 0)
  s.regWrite r (BitVec.ofNat 64 (leNat v)) .system

/-- A write of the host is performed (R361, R330). -/
def State.hostWr (s : State) (off : Nat) (bytes : List Byte) : State :=
  if off < 2 ^ 26 then
    let bs := bytes.zipIdx.map fun b => (off + b.2, b.1)
    if !s.fw.getLsbD 0 || !(bs.all fun b => regExists (b.1 / 8 * 8)) then s
    else ((bs.map fun b => b.1 / 8 * 8).eraseDups).foldl (fun s r => s.regBytes r bs) s
  else match s.barRange (off - 2 ^ 26) bytes.length with
    | none => s
    | some as =>
      match as with
      | [] => s
      | a :: _ =>
        let s1 := (s.touch 1000 (.dev a)).homePut (.dev a) (bytes.take (2 ^ 33 - a % 2 ^ 33))
        (match bytes.drop (2 ^ 33 - a % 2 ^ 33), as.getLast? with
         | [], _ => s1
         | bs, some z => s1.homePut (.dev (z / 2 ^ 33 * 2 ^ 33)) bs
         | _, none => s1)

/-- An access of the host reaches a line that an agent owns (R175). -/
def State.hostOwned (s : State) (off n : Nat) : Bool :=
  decide (2 ^ 26 ≤ off) && ((s.barRange (off - 2 ^ 26) n).getD []).any fun a => s.ownedLine (a / 128)

/-- An access of the host at the port: it waits for a line that an agent owns, and behind an older write that waits (R175,
R330). -/
def State.hostTry (s : State) (x : HostAcc) : State :=
  let wait : State := { s with atPort := s.atPort ++ [x] }
  if s.atPort.any fun y => match y with
      | .wr _ _ => true
      | .rd _ _ => false then wait
  else match x with
    | .rd off n => if s.hostOwned off n then wait else s.hostRd off n
    | .wr off bytes => if s.hostOwned off bytes.length then wait else s.hostWr off bytes

/-- The host port goes on with what it holds. -/
def State.hostDrain (s : State) : State := s.atPort.foldl State.hostTry { s with atPort := [] }

/-- MSI_X_VECTOR_UNMASK (R362). -/
def State.unmask (s : State) (v : Nat) : State :=
  let bit : BitVec 72 := 1#72 <<< v
  let s1 := { s with msixMask := s.msixMask &&& ~~~bit, msixPend := s.msixPend &&& ~~~bit }
  if v < 72 && s.msixPend.getLsbD v then s1.emit (.msix v) else s1

/-! ### Placement -/

/-- PAGE_MOVE (R178, R179): between stacks at any time, to the capacity tier (destination 8) as the eviction engine
chooses. -/
def State.pageMove (s : State) (p dest : Nat) : State :=
  let x := s.page p
  match x.place with
  | .hbm k =>
    if s.isBound p || s.pageOwned p || dest == k then s
    else if dest < 8 then (if s.onStack dest < stackFrames then s.placeAt p (.hbm dest) else s)
    else if dest = 8 && s.evicting && s.evictNext == some p then
      match s.freePort with
      | some q =>
        let s1 := s.placeAt p (.cap q)
        if 4096 ≤ s1.freeFrames then { s1 with evicting := false } else s1
      | none => s
    else s
  | _ => s

/-- EVICTION_START (R179). -/
def State.evictStart (s : State) : State := if s.freeFrames < 2048 then { s with evicting := true } else s

/-- PAGE_PROMOTE (R179): a capacity-tier page that, at its latest access, ranked after the next page the engine would have
chosen. -/
def State.promote (s : State) (p dest : Nat) : State :=
  let x := s.page p
  let cap := match x.place with
    | .cap _ => true
    | _ => false
  if cap && x.prom && decide (dest < 8) && decide (s.onStack dest < stackFrames) && !s.pageOwned p then
    s.placeAt p (.hbm dest)
  else s

/-- Move a page whose move to the other die is due, to its stack with the most free frames (R180). A page that is owned or
has a pinned line, or finds no frame there, waits for its move (R178). -/
def State.moveDue (s : State) (p : Nat) : State :=
  let x := s.page p
  match x.place with
  | .hbm k =>
    if !x.due || s.isBound p || s.pageOwned p then s
    else match s.freeStack (if k < 4 then 1 else 0) with
      | some d => s.placeAt p (.hbm d)
      | none => s
  | _ => s

/-- One page at the end of an epoch (R180). -/
def State.epochPage (s : State) (p : Nat) : State :=
  let x := s.page p
  match x.place with
  | .hbm k =>
    let own := if k < 4 then x.acc0 else x.acc1
    let other := if k < 4 then x.acc1 else x.acc0
    let isOver := decide (3 * own < other)
    (s.setPage p { x with acc0 := 0, acc1 := 0, hot := isOver && !x.hot, due := x.due || (isOver && x.hot) }).moveDue p
  | _ => s.setPage p { x with acc0 := 0, acc1 := 0, hot := false, due := false }

/-- PLACEMENT_EPOCH_END: an epoch of 2^20 cycles has passed (R180). -/
def State.epochEnd (s : State) : State :=
  if s.now / 2 ^ 20 ≤ s.epoch then s
  else (s.pages.map Prod.fst).foldl State.epochPage { s with epoch := s.now / 2 ^ 20 }

/-! ### Ordered streams at the slices -/

/-- ORDERED_STREAM_REQUEST (R199, R200): applied, kept or discarded, and answered; a refused one stays with its sender. -/
def State.streamGo (s : State) (id : Nat) : State :=
  match s.streamReqs.find? fun q => q.id == id with
  | none => s
  | some q =>
    if s.ownedLine (q.loc / 128) then s
    else match s.streamTake q with
      | none => s
      | some s1 =>
        let s2 := { s1 with streamReqs := s1.streamReqs.filter fun x => x.id != id }
        match q.peer with
        | some (p, tag) => if s2.canSend p then s2.sendFlit { Flit.blank 5 p with tag } else s2
        | none =>
          let mark (x : AtLane) : AtLane := if x.rid = id then { x with ph := 2 } else x
          let put (e : SqEnt) : SqEnt := match e.kind with
            | .atomic r => if r.lanes.any fun x => x.rid == id then { e with kind := .atomic { r with lanes := r.lanes.map mark } } else e
            | .store _ => e
          let s3 := s2.modGroup q.slot fun g => { g with sq := g.sq.map put }
          match (s2.group q.slot).sq.find? fun e => match e.kind with
            | .atomic r => r.lanes.any fun x => x.rid == id
            | .store _ => false with
          | some e => s3.atFinish q.slot e
          | none => s3

/-- STREAM_RECORD_TIMEOUT (R200). -/
def State.streamTimeout (s : State) (slice addr : Nat) : State :=
  let old (r : StreamRec) : Bool := r.loc == addr && s.slice r.loc == slice && decide (2 ^ 24 ≤ s.now - r.stamp)
  (s.streams.filter old).foldl (fun s r => State.record { s with streams := s.streams.filter fun x => x != r } 8 1 0xFFFF
    (BitVec.ofNat 64 r.loc) (BitVec.ofNat 64 (r.stream + 2 ^ 8 * r.next + 2 ^ 20 * r.last + 2 ^ 32 * r.pasid))) s

/-! ### The rows of the table -/

/-- QUEUE_NOTIFY (R82). -/
def execQueueNotify (q : Nat) (v : BitVec 16) (s : State) : Out' := .next (if q < 64 then s.qNotify q v.toNat else s)
/-- QUEUE_ENABLE: the host writes QCFG with EN set (R80). -/
def execQueueEnable (q : Nat) (cfg : DWord) (s : State) : Out' := .next (if q < 64 then s.qConfig q (cfg ||| 1) true else s)
/-- QUEUE_DISABLE (R80). -/
def execQueueDisable (q : Nat) (s : State) : Out' :=
  .next (if q < 64 then s.qConfig q (s.reg (qreg q 8) &&& ~~~1) true else s)
/-- QSEMVAL_WRITE (R84). -/
def execQsemvalWrite (sem : Nat) (v : Word) (s : State) : Out' :=
  .next (if sem < 256 then s.semSet sem v.toNat else s)
/-- QUEUE_KERNEL_ENTRY. -/
def execQueueKernelEntry (q : Nat) (s : State) : Out' := .next (s.qKernel q)
/-- QUEUE_GRAPH_ENTRY. -/
def execQueueGraphEntry (q : Nat) (s : State) : Out' := .next (s.qGraph q)
/-- QUEUE_SEMAPHORE_ENTRY. -/
def execQueueSemaphoreEntry (q : Nat) (s : State) : Out' := .next (s.qSem q)
/-- QUEUE_SEAL_ENTRY. -/
def execQueueSealEntry (q : Nat) (s : State) : Out' := .next (s.qSeal q)
/-- QUEUE_FREE_ENTRY. -/
def execQueueFreeEntry (q : Nat) (s : State) : Out' := .next (s.qFree q)
/-- TEAM_START. -/
def execTeamStart (grid : Nat) (s : State) : Out' := .next (s.teamStart grid)
/-- CLUSTER_RESERVE. -/
def execClusterReserve (grid core : Nat) (s : State) : Out' := .next (s.clusterReserve grid core)
/-- GANG_AGE_EXPIRE. -/
def execGangAgeExpire (grid : Nat) (s : State) : Out' := .next (s.gangAge grid)
/-- GRAPH_NODE_START. -/
def execGraphNodeStart (run node : Nat) (s : State) : Out' := .next (s.nodeStart run node)
/-- GRAPH_NODE_COMPLETE. -/
def execGraphNodeComplete (run node : Nat) (s : State) : Out' := .next (s.nodeComplete run node)
/-- TEAM_END. -/
def execTeamEnd (tid : Nat) (s : State) : Out' := .next (s.teamEnd tid)
/-- GRID_RETIRE. -/
def execGridRetire (grid : Nat) (s : State) : Out' := .next (s.gridRetire grid)
/-- FABRIC_FLUSH_TIMEOUT. -/
def execFabricFlushTimeout (grid : Nat) (s : State) : Out' := .next (s.flushTimeout grid)
/-- MAILBOX_ARRIVAL. -/
def execMailboxArrival (mbox : Nat) (s : State) : Out' := .next (s.mboxDeliver mbox)
/-- TEAM_STOP_REQUEST. -/
def execTeamStopRequest (tid : Nat) (s : State) : Out' := .next (s.stopRequest tid)
/-- PRECTL_GO. -/
def execPrectlGo (grid : Word) (hard : Bool) (s : State) : Out' := .next (s.prectlGo grid.toNat hard)
/-- PRECTL_RESUME. -/
def execPrectlResume (grid : Word) (s : State) : Out' := .next (s.prectlResume grid.toNat)
/-- GROUP_STOP. -/
def execGroupStop (slot : Nat) (s : State) : Out' := .next (s.groupStop slot)
/-- HARD_PREEMPT. -/
def execHardPreempt (tid : Nat) (s : State) : Out' := .next (s.hardPreempt tid)
/-- CONTEXT_SAVE. -/
def execContextSave (tid : Nat) (s : State) : Out' := .next (s.contextSave tid)
/-- TEAM_RESUME. -/
def execTeamResume (tid : Nat) (s : State) : Out' := .next (s.teamResume tid)
/-- WATCHDOG_EXPIRE. -/
def execWatchdogExpire (slot lane : Nat) (s : State) : Out' := .next (s.watchdog slot lane)
/-- STEPVAL_WRITE (R22). -/
def execStepvalWrite (v : DWord) (s : State) : Out' := .next (s.setStep (s.fld 0x148000 0 20) v)
/-- HOST_READ. -/
def execHostRead (off n : Nat) (s : State) : Out' := .next (s.hostTry (.rd off n))
/-- HOST_WRITE. -/
def execHostWrite (off : Nat) (bytes : List Byte) (s : State) : Out' := .next (s.hostTry (.wr off bytes))
/-- REGISTER_WRITE. -/
def execRegisterWrite (off : Nat) (v : DWord) (w : Writer) (s : State) : Out' := .next (s.regWrite off v w)
/-- PAGE_MOVE. -/
def execPageMove (page dest : Nat) (s : State) : Out' := .next (s.pageMove page dest)
/-- EVICTION_START. -/
def execEvictionStart (s : State) : Out' := .next s.evictStart
/-- PAGE_PROMOTE. -/
def execPagePromote (page dest : Nat) (s : State) : Out' := .next (s.promote page dest)
/-- PLACEMENT_EPOCH_END. -/
def execPlacementEpochEnd (s : State) : Out' := .next s.epochEnd
/-- ORDERED_STREAM_REQUEST. -/
def execOrderedStreamRequest (id : Nat) (s : State) : Out' := .next (s.streamGo id)
/-- STREAM_RECORD_TIMEOUT. -/
def execStreamRecordTimeout (slice addr : Nat) (s : State) : Out' := .next (s.streamTimeout slice addr)
/-- MSI_X_VECTOR_UNMASK. -/
def execMsiXVectorUnmask (vector : Nat) (s : State) : Out' := .next (s.unmask vector)
/-- MERGE_TREE_CLEAR_EN. -/
def execMergeTreeClearEn (tree : Nat) (s : State) : Out' := .next (if tree < 16 then s.treeClear tree else s)

end Sys2Proof.Machine
end

