-- ==== Sys2Proof/Machine/EvNode.lean ====
section
/-! DEFINITION. Near-memory search (R266 to R296): reading and writing near the banks, distances, the corpus, the seven
entry points, the life of a node on its stacks, walk messages, and the phases of the channels. -/

namespace Sys2Proof.Machine

/-! ### Memory near the banks -/

/-- A core number of the die that owns a stack, for the counts of R180. -/
def nmCore (k : Nat) : Nat := if k < 4 then 1000 else 1100

/-- Translate ranges for a node: addresses in host memory are cause TRANSLATION (R273). -/
def State.nmLocs (s : State) (pasid : Nat) (write : Bool) : List (Nat × Nat) → Nat ⊕ List (Nat × Loc × Nat)
  | [] => .inr []
  | (va, n) :: cs =>
    match s.walk pasid va with
    | .ok la w _ =>
      if write && !w then .inl 1
      else match s.formOf la with
        | .inr _ => .inl 1
        | .inl l =>
          match l with
          | .door _ _ => .inl 1
          | .ingress _ _ => .inl 1
          | _ => (match s.nmLocs pasid write cs with
            | .inl c => .inl c
            | .inr ls => .inr ((va, l, n) :: ls))
    | .data => .inl 2
    | _ => .inl 1

/-- Read bytes for a node on a stack (R274). -/
def State.nmRead (s : State) (k pasid va n : Nat) : Ag × List Byte × State :=
  match s.nmLocs pasid false (chunksOf va n) with
  | .inl c => (.fail c, [], s)
  | .inr ls =>
    let s1 := ls.foldl (fun s x => s.touch (nmCore k) x.2.1) s
    let r := s1.agGet pasid ls
    match r.1 with
    | .ok => (.ok, r.2.1, r.2.2.dropAns r.2.2.reader (ls.map fun x => l1key pasid x.1))
    | a => (a, [], r.2.2)

/-- The core whose team launched a node's run by GLAUNCH (R315). -/
def State.nmIssuer (s : State) (nid : Nat) : Nat :=
  match s.nodes.find? fun n => n.id == nid with
  | some n => s.runCore n.run
  | none => hubCore

/-- Write bytes for a node (R274, R275): as a coherent agent it owns the lines while it writes them, so no other agent may
own one and the directories must have room (R175); the launching core's clean copies of them go (R322). -/
def State.nmWrite (s : State) (k nid pasid va : Nat) (bs : List Byte) : Ag × State :=
  let ws := sectorsOf [(va, bs)]
  match s.nmLocs pasid true (ws.map fun w => (32 * w.1, 32)) with
  | .inl c => (.fail c, s)
  | .inr xs =>
    let ls := (xs.map fun x => x.2.1).zip ws
    if s.noRoute ls then (.fail 2, s)
    else if !s.mayOwn nid (secLines ls) then (.wait, s)
    else
      let s1 := ls.foldl (fun s x => s.touch (nmCore k) x.1) (s.dropLines (s.nmIssuer nid) (secLines ls))
      (.ok, s1.secPut (2 ^ 32) nid pasid ls)

/-- Continue with what has been read. -/
def nmThen {α β : Type} (r : Ag × α × State) (d : β) (f : α → State → Ag × β × State) : Ag × β × State :=
  match r.1 with
  | .ok => f r.2.1 r.2.2
  | e => (e, d, r.2.2)

/-- Continue after a write. -/
def nmAfter {β : Type} (r : Ag × State) (d : β) (f : State → Ag × β × State) : Ag × β × State :=
  match r.1 with
  | .ok => f r.2
  | e => (e, d, r.2)

/-- Do items one after another; the part keeps what was done before a stop. -/
def nmFold (f : NStack → Nat → State → Ag × NStack × State) : List Nat → NStack → State → Ag × NStack × State
  | [], p, s => (.ok, p, s)
  | i :: is, p, s =>
    match f p i s with
    | (.ok, q, t) => nmFold f is { q with sub := i + 1 } t
    | (e, _, t) => (e, p, t)

/-- Stack of the frame that holds an address, if it is an HBM frame here. -/
def State.holder (s : State) (pasid va : Nat) : Option Nat :=
  match s.nmLocs pasid false [(va % 2 ^ 56, 1)] with
  | .inr [(_, .dev a, _)] =>
    (match (s.page (a / 65536)).place with
     | .hbm k => some k
     | _ => none)
  | _ => none

/-! ### Elements and exact sums -/

/-- Width in bits of an element format (R276). -/
def nmW : Nat → Nat
  | 0 => 16
  | 1 => 16
  | 5 => 1
  | 6 => 32
  | _ => 8

/-- Element `j` of a vector. -/
def nmElem (efmt : Nat) (bs : List Byte) (j : Nat) : Exact :=
  let b (n : Nat) : Nat := leNat ((bs.drop (j * n)).take n)
  match efmt with
  | 0 => fmtH16.decode (b 2)
  | 1 => fmtB16.decode (b 2)
  | 2 => fmtE4.decode (b 1)
  | 3 => fmtE5.decode (b 1)
  | 4 => Exact.ofInt (if b 1 < 128 then (b 1 : Int) else (b 1 : Int) - 256)
  | 5 => Exact.ofInt (if bitAt ((bs.getD (j / 8) 0).toNat) (j % 8) then 1 else 0)
  | _ => fmt32.decode (b 4)

/-- A running sum: kind (0 finite, 1 +∞, 2 −∞, 3 NaN) and the value times 2^298. -/
abbrev NSum := Nat × Int

def nsumOf : Exact → NSum
  | .nan => (3, 0)
  | .inf n => (if n then 2 else 1, 0)
  | .fin n a d e =>
    let m : Int := (a * 2 ^ (e + 298).toNat / d : Nat)
    (0, if n then -m else m)

def nsumAdd (a b : NSum) : NSum :=
  if a.1 = 3 ∨ b.1 = 3 ∨ (a.1 = 1 ∧ b.1 = 2) ∨ (a.1 = 2 ∧ b.1 = 1) then (3, 0)
  else if a.1 ≠ 0 then a
  else if b.1 ≠ 0 then b
  else (0, a.2 + b.2)

/-- The sum rounded to binary32; an exact zero gives +0 (R277, R292, R293). -/
def nsumWord (a : NSum) : Word :=
  match a.1 with
  | 0 => if a.2 = 0 then 0 else (toF32 .rne (.fin (decide (a.2 < 0)) a.2.natAbs 1 (-298))).1
  | 1 => 0x7F800000
  | 2 => 0xFF800000
  | _ => 0x7FC00000

/-- Distance of R277; none when it is NaN. -/
def nmDist (efmt metric dim : Nat) (q x : List Byte) : Option Word :=
  let term (j : Nat) : NSum :=
    let a := nmElem efmt q j
    let b := nmElem efmt x j
    match metric with
    | 0 => let e := Exact.add false a b.flip; nsumOf (Exact.mul e e)
    | 1 => nsumOf (Exact.mul a b).flip
    | _ => nsumOf (Exact.ofInt (if a == b then 0 else 1))
  let r := (List.range dim).foldl (fun t j => nsumAdd t (term j)) (0, 0)
  if r.1 = 3 then none else some (nsumWord r)

/-! ### The corpus -/

/-- Home stack of an id (R280). -/
def idStack (i : Nat) : Nat := (List.range 10).foldl (fun h j => h ^^^ bits i (3 * j) 3) (bits i 30 2)

/-- The id at local index `u` of a stack. -/
def idAt (k u : Nat) : Nat := 8 * u + (k ^^^ idStack (8 * u))

/-- Fields of a corpus descriptor (R279). -/
def cNids (d : Nat) : Nat := bits d 0 32
def cEfmt (d : Nat) : Nat := bits d 32 4
def cDim (d : Nat) : Nat := bits d 48 16
def cRecb (d : Nat) : Nat := bits d 64 32
def cPubw (d : Nat) : Nat := bits d 128 56
def cSeg (d k : Nat) : Nat := bits d (512 + 64 * k) 56
def cPool (d k : Nat) : Nat := bits d (1024 + 64 * k) 56
def cCap (d k : Nat) : Nat := bits d (1536 + 32 * k) 32
/-- VB and QB of R279. -/
def cVb (d : Nat) : Nat := cdiv (cDim d * nmW (cEfmt d)) 8
def cQb (d : Nat) : Nat := 32 * cdiv (cVb d) 32
/-- Local records of a stack: indices below this. -/
def cLocal (d : Nat) : Nat := cdiv (cNids d) 8

/-- The descriptor is well formed (R279). -/
def corpusOk (d : Nat) : Bool :=
  let n := cNids d
  let e := cEfmt d
  decide (1 ≤ n ∧ n ≤ 0xFFFFFFFE) && decide (e ≤ 5) && bits d 36 12 == 0 && bits d 96 32 == 0 && bits d 184 328 == 0 &&
  (if e = 5 then decide (8 ≤ cDim d ∧ cDim d ≤ 32768) && cDim d % 8 == 0 else decide (1 ≤ cDim d ∧ cDim d ≤ 4096)) &&
  cRecb d % 32 == 0 && decide (32 ≤ cRecb d ∧ cRecb d ≤ 65536) && decide (16 + cVb d ≤ cRecb d) && cPubw d % 4 == 0 &&
  (List.range 8).all (fun k => cSeg d k % 65536 == 0 && bits d (568 + 64 * k) 8 == 0 && cPool d k % 65536 == 0 &&
    bits d (1080 + 64 * k) 8 == 0) && bits d 1792 256 == 0

/-- Address of the record of a local index, and of an adjacency block (R280). -/
def recAt (d k u : Nat) : Nat := (cSeg d k + u * cRecb d) % 2 ^ 56
def blkAt (d k b : Nat) : Nat := (cPool d k + 256 * b) % 2 ^ 56

/-- Fields of a header or of a block's first 16 bytes (R281). -/
def hCre (h : Nat) : Nat := bits h 0 32
def hDel (h : Nat) : Nat := bits h 32 32
def hAdj (h : Nat) : Nat := bits h 64 32
def noBlk : Nat := 0xFFFFFFFF
/-- Seen at a snapshot (R282). -/
def seenAt (h snap : Nat) : Bool := decide (hCre h ≤ snap ∧ snap < hDel h)
/-- A header from its fields. -/
def header (cre del adj : Nat) : List Byte := leBytes 4 cre ++ leBytes 4 del ++ leBytes 4 adj ++ leBytes 4 0

/-- Bind one page of the corpus to a stack (R280): cause TRANSLATION or CAPACITY on failure. -/
def State.bindPage (s : State) (pasid k : Nat) (va : Nat) : Ag × State :=
  match s.nmLocs pasid false [(va, 1)] with
  | .inr [(_, .dev a, _)] =>
    let p := a / 65536
    let x := s.page p
    let mark (s : State) : State := s.setPage p { s.page p with pasid, bound := some (pasid, va / 65536) }
    if x.place == .hbm k then (.ok, mark s)
    else if s.pageOwned p then (.wait, s)
    else if s.onStack k < stackFrames then (.ok, mark (s.placeAt p (.hbm k)))
    else (.fail 4, s)
  | .inr _ => (.fail 1, s)
  | .inl c => (.fail c, s)

def State.bindPages (s : State) (pasid k : Nat) : List Nat → Ag × State
  | [] => (.ok, s)
  | va :: vs =>
    match s.bindPage pasid k va with
    | (.ok, t) => t.bindPages pasid k vs
    | r => r

/-- Pages of the stack's record segment and adjacency pool. -/
def corpusPages (d k : Nat) : List Nat :=
  let span (a n : Nat) : List Nat := if n = 0 then [] else (List.range (cdiv n 65536)).map fun i => (a + 65536 * i) % 2 ^ 56
  span (cSeg d k) (cLocal d * cRecb d) ++ span (cPool d k) (256 * cCap d k)

/-! ### Arguments -/

def NNode.arg (n : NNode) (i : Nat) : Nat := (n.args.getD i 0).toNat
def NNode.res (n : NNode) : Nat := bits (n.arg 7) 0 56
def NNode.scope (n : NNode) : Nat := bits (n.arg 7) 56 4
/-- The stacks named, and the lowest. -/
def NNode.stackList (n : NNode) : List Nat := n.parts.map NStack.stack
def NNode.lowest (n : NNode) : Nat := n.stackList.headD 0
/-- Number of queries, K and list stride (SCAN, WALK, MERGE). -/
def NNode.nq (n : NNode) : Nat :=
  match n.ep with
  | 0 => bits (n.arg 2) 0 2 + 1
  | 1 => bits (n.arg 2) 0 7 + 1
  | _ => bits (n.arg 1) 0 7 + 1
def NNode.k (n : NNode) : Nat :=
  match n.ep with
  | 0 => bits (n.arg 2) 4 8 + 1
  | 1 => bits (n.arg 2) 10 8 + 1
  | _ => bits (n.arg 1) 16 8 + 1
def NNode.metric (n : NNode) : Nat := if n.ep = 0 then bits (n.arg 2) 2 2 else bits (n.arg 2) 8 2

/-- ARG7 is well formed (R272). -/
def NNode.resOk (n : NNode) : Bool :=
  n.res % 64 == 0 && decide (2 ≤ n.scope ∧ n.scope ≤ 9) && bits (n.arg 7) 60 4 == 0

/-- An address argument: 56 bits, aligned. -/
def argA (v al : Nat) : Bool := bits v 56 8 == 0 && v % al == 0
/-- EFMT of EMBAG and MVBANK (R276). -/
def mvFmt (e : Nat) : Bool := decide (e ≤ 4) || e == 6

/-- The arguments' fields are in range, reserved bits zero, addresses aligned (R285 to R296). -/
def NNode.argsOk (n : NNode) : Bool :=
  let a := n.arg
  let zero (is : List Nat) : Bool := is.all fun i => a i == 0
  n.resOk && match n.ep with
  | 0 => argA (a 0) 64 && argA (a 1) 32 && decide (a 2 < 2 ^ 12) && n.metric != 3 && decide (a 4 < 0xFFFFFFFF) && zero [5, 6]
  | 1 => n.stackList.length == 8 && argA (a 0) 64 && argA (a 1) 32 && decide (a 2 < 2 ^ 34) && bits (a 2) 7 1 == 0 &&
      n.metric != 3 && decide (bits (a 2) 18 8 + 1 ≤ n.k) && decide (1 ≤ bits (a 2) 26 8) && argA (a 3) 4 &&
      decide (a 4 < 2 ^ 36) && bits (a 4) 0 32 != 0xFFFFFFFF && decide (a 5 < 2 ^ 46) &&
      decide (n.nq * (bits (a 5) 32 14 + 1) ≤ 262144) && zero [6]
  | 2 => argA (a 0) 32 && argA (a 1) 4 && argA (a 2) 4 && decide (1 ≤ bits (a 3) 0 32 ∧ bits (a 3) 0 32 ≤ 65536) &&
      decide (1 ≤ bits (a 3) 32 16 ∧ bits (a 3) 32 16 ≤ 4096) && mvFmt (bits (a 3) 48 4) && bits (a 3) 52 12 == 0 &&
      bits (a 4) 32 32 % 32 == 0 && decide (bits (a 3) 32 16 * nmW (bits (a 3) 48 4) ≤ 8 * bits (a 4) 32 32) &&
      argA (a 5) 4 && argA (a 6) 4
  | 3 => argA (a 0) 32 && argA (a 1) 4 && decide (1 ≤ bits (a 2) 0 32 ∧ bits (a 2) 0 32 ≤ 16384) && mvFmt (bits (a 2) 32 4) &&
      bits (a 2) 36 28 == 0 && decide (a 4 < 2 ^ 32) && a 4 % 32 == 0 &&
      decide (bits (a 2) 0 32 * nmW (bits (a 2) 32 4) ≤ 8 * a 4) && argA (a 5) 4 && zero [6]
  | 4 => argA (a 0) 64 && argA (a 1) 32 && decide (1 ≤ a 2 ∧ a 2 ≤ 65536) && decide (bits (a 3) 32 32 ≤ bits (a 3) 0 32) &&
      decide (1 ≤ bits (a 3) 0 32 ∧ bits (a 3) 0 32 < 0xFFFFFFFF) && decide (a 4 < 2) && zero [5, 6]
  | 5 => argA (a 0) 64 && argA (a 1) 4 && decide (1 ≤ a 2 ∧ a 2 ≤ 2 ^ 24) && decide (a 3 < 2 ^ 32) && zero [4, 5, 6]
  | 6 => n.stackList.length == 1 && argA (a 0) 32 && decide (a 1 < 2 ^ 24) && bits (a 1) 7 1 == 0 && bits (a 1) 14 2 == 0 &&
      decide (a 2 < 2 ^ (bits (a 1) 8 6 + 1)) && zero [3, 4, 5, 6]
  | _ => false

/-- The entry point works on a corpus. -/
def NNode.corpus (n : NNode) : Bool := n.ep == 0 || n.ep == 1 || n.ep == 4 || n.ep == 5
/-- The entry point computes in the units near the banks. -/
def NNode.banked (n : NNode) : Bool := decide (n.ep ≤ 3)

/-! ### Updating nodes -/

def State.nnode (s : State) (nid : Nat) : Option NNode := s.nodes.find? fun n => n.id == nid
def NNode.part (n : NNode) (k : Nat) : Option NStack := n.parts.find? fun p => p.stack == k
def State.modNode (s : State) (nid : Nat) (f : NNode → NNode) : State :=
  { s with nodes := s.nodes.map fun n => if n.id = nid then f n else n }
def State.setPart' (s : State) (nid : Nat) (p : NStack) : State :=
  s.modNode nid fun n => { n with parts := n.parts.map fun x => if x.stack = p.stack then p else x }

/-- Drawer of a query. -/
def NStack.drawer (p : NStack) (q : Nat) : List Key := ((p.drawers.find? fun d => d.1 == q).map Prod.snd).getD []
def NStack.setDrawer (p : NStack) (q : Nat) (l : List Key) : NStack :=
  { p with drawers := (p.drawers.filter fun d => d.1 != q) ++ [(q, l)] }
/-- Partial sum of a result. -/
def NStack.sum (p : NStack) (i : Nat) : NSum := ((p.sums.find? fun x => x.1 == i).map Prod.snd).getD (0, 0)
def NStack.setSum (p : NStack) (i : Nat) (v : NSum) : NStack :=
  { p with sums := (i, v) :: p.sums.filter fun x => x.1 != i }

/-! ### Granules -/

/-- Rows of MVBANK. -/
def NNode.mvRows (n : NNode) : Nat := bits (n.arg 3) 32 32 - bits (n.arg 3) 0 32

/-- Items a stack works through (R285). -/
def NNode.total (n : NNode) (p : NStack) : Nat :=
  match n.ep with
  | 0 => cLocal p.desc
  | 2 => bits (n.arg 3) 0 32
  | 3 => (n.rows.filter fun r => r.2.2.2 == p.stack).length
  | 4 => n.arg 2
  | 5 => cLocal p.desc
  | 6 => 1
  | _ => 0

/-- A walk whose GRAN is 0: the whole node is one granule on each stack (R285). -/
def NNode.whole (n : NNode) : Bool := n.ep == 1 && n.gran == 0

/-- Items of one granule (R285). -/
def NNode.granItems (n : NNode) (p : NStack) : Nat :=
  if n.gran = 0 then max 1 (n.total p)
  else match n.ep with
    | 0 => n.gran * 4096
    | 3 => n.gran * 16
    | 5 => n.gran * 4096
    | 6 => 1
    | _ => n.gran

/-- Every granule of the stack is done. -/
def NNode.partOver (n : NNode) (p : NStack) : Bool :=
  p.more || (if n.ep = 1 then p.walkers.isEmpty && p.spill.isEmpty else decide (n.total p ≤ p.gran * n.granItems p))

/-- Granules of the stack in all, for EMBAG. -/
def NNode.granules (n : NNode) (p : NStack) : Nat := cdiv (n.total p) (n.granItems p)

/-! ### SCAN -/

/-- The vector of query `q`. -/
def State.nmQuery (s : State) (n : NNode) (p : NStack) (q : Nat) : Ag × List Byte × State :=
  s.nmRead p.stack n.pasid ((n.arg 1 + q * cQb p.desc) % 2 ^ 56) (cVb p.desc)

/-- One query against one vector. -/
def State.scanQuery (s : State) (n : NNode) (p : NStack) (id q : Nat) (x : List Byte) : Ag × NStack × State :=
  nmThen (s.nmQuery n p q) p fun v s =>
    match nmDist (cEfmt p.desc) n.metric (cDim p.desc) v x with
    | none => (.ok, { p with disc := p.disc + 1 }, s)
    | some d => (.ok, p.setDrawer q (drawerIns n.k (p.drawer q) (d, BitVec.ofNat 32 id)), s)

def State.scanQueries (s : State) (n : NNode) (p : NStack) (id : Nat) (x : List Byte) : List Nat → Ag × NStack × State
  | [] => (.ok, p, s)
  | q :: qs =>
    nmThen (s.scanQuery n p id q x) p fun p s => s.scanQueries n p id x qs

/-- One local record of SCAN (R286). -/
def State.scanItem (n : NNode) (p : NStack) (u : Nat) (s : State) : Ag × NStack × State :=
  let d := p.desc
  let id := idAt p.stack u
  if id < bits (n.arg 3) 0 32 || min (bits (n.arg 3) 32 32) (cNids d) ≤ id then (.ok, p, s)
  else
    nmThen (s.nmRead p.stack n.pasid (recAt d p.stack u) 16) p fun h s =>
      if !seenAt (leNat h) (n.arg 4) then (.ok, p, s)
      else
        nmThen (s.nmRead p.stack n.pasid (recAt d p.stack u + 16) (cVb d)) p fun x s =>
          s.scanQueries n { p with count := p.count + 1 } id x (List.range n.nq)

/-! ### WALK -/

/-- Neighbours of a record at the snapshot (R282): follow the chain to the first block seen. -/
def State.chain (s : State) (n : NNode) (p : NStack) (snap : Nat) : Nat → Nat → Ag × List Nat × State
  | fuel, b =>
    if b = noBlk then (.ok, [], s)
    else match fuel with
      | 0 => (.fail 7, [], s)
      | f + 1 =>
        if cCap p.desc p.stack ≤ b then (.fail 7, [], s)
        else
          nmThen (s.nmRead p.stack n.pasid (blkAt p.desc p.stack b) 16) [] fun h s =>
            let v := leNat h
            if seenAt v snap then
              let c := bits v 96 8
              if 60 < c then (.fail 7, [], s)
              else
                nmThen (s.nmRead p.stack n.pasid (blkAt p.desc p.stack b + 16) (4 * c)) [] fun bs s =>
                  (.ok, (wordsOf bs).map BitVec.toNat, s)
            else s.chain n p snap f (hAdj v)

/-- Walkers that are live on a stack, those of one node not counted (R266, R268). -/
def State.liveBut (s : State) (nid k : Nat) : Nat :=
  (s.nodes.filter fun n => n.id != nid).foldl (fun m n =>
    (n.parts.filter fun p => p.stack == k && p.started && !p.fin && !p.stopped).foldl (fun m p => m + p.walkers.length) m) 0

/-- Walkers of the node that the stack can take up as live ones. -/
def State.walkRoom (s : State) (n : NNode) (p : NStack) : Nat := 16384 - (s.liveBut n.id p.stack + p.walkers.length)

/-- Take walkers from the spill queue while there is room (R289). -/
def State.refill (s : State) (n : NNode) (p : NStack) : NStack :=
  if p.spill.isEmpty then p
  else { p with walkers := p.walkers ++ p.spill.take (s.walkRoom n p), spill := p.spill.drop (s.walkRoom n p) }

/-- A walker is spawned: live, or in the spill queue while 16,384 are; cause CAPACITY where the work area cannot hold it
(R273, R289). -/
def State.spawn (s : State) (n : NNode) (p : NStack) (w : Walker) : Ag × NStack :=
  if p.spill.isEmpty && decide (0 < s.walkRoom n p) then (.ok, { p with walkers := p.walkers ++ [w] })
  else if Config.workArea < 64 * (p.spill.length + 1) then (.fail 4, p)
  else (.ok, { p with spill := p.spill ++ [w] })

def NStack.spawns (p : NStack) (q : Nat) : Nat := ((p.spawned.find? fun x => x.1 == q).map Prod.snd).getD 0

/-- visit(σ, q, y, b) of R289. -/
def State.visit (s : State) (n : NNode) (p : NStack) (q y b : Nat) : Ag × NStack × State :=
  let d := p.desc
  let snap := bits (n.arg 4) 0 32
  if cNids d ≤ y then (.ok, p, s)
  else
    nmThen (s.nmRead p.stack n.pasid (recAt d p.stack (y / 8)) 16) p fun h s =>
      if !seenAt (leNat h) snap || p.visited.contains (q, y) then (.ok, p, s)
      else if (p.visited.filter fun v => v.1 == q).length = bits (n.arg 5) 32 14 + 1 then (.ok, { p with full := true }, s)
      else
        nmThen (s.nmRead p.stack n.pasid (recAt d p.stack (y / 8) + 16) (cVb d)) p fun x s =>
          nmThen (s.nmQuery n p q) p fun v s =>
            let p1 := { p with visited := p.visited ++ [(q, y)] }
            match nmDist (cEfmt d) n.metric (cDim d) v x with
            | none => (.ok, { p1 with disc := p1.disc + 1 }, s)
            | some w =>
              let key : Key := (w, BitVec.ofNat 32 y)
              let l := drawerIns n.k (p1.drawer q) key
              let p2 := p1.setDrawer q l
              let hmax := bits (n.arg 5) 0 32
              if 1 ≤ b && (l.take (bits (n.arg 2) 18 8 + 1)).contains key && (hmax == 0 || decide (p2.spawns q < hmax)) then
                let sp := (q, p2.spawns q + 1) :: p2.spawned.filter fun x => x.1 != q
                let w' : Walker := { node := y, snap, qid := q, budget := b, vslot := q, dist := w, run := n.run }
                let r := s.spawn n { p2 with spawned := sp } w'
                (r.1, r.2, s)
              else (.ok, p2, s)

/-- Send a walk message. -/
def State.sendWalk (s : State) (m : WMsg) : State := { s with msgs := s.msgs ++ [m] }

/-- Pass the neighbours of a walker on, in list order. -/
def State.walkOut (s : State) (n : NNode) (p : NStack) (q b : Nat) : List Nat → Ag × NStack × State
  | [] => (.ok, p, s)
  | y :: ys =>
    if idStack y = p.stack then
      nmThen (s.visit n p q y b) p fun p s => s.walkOut n p q b ys
    else
      (s.sendWalk { nid := n.id, src := p.stack, dst := idStack y, qid := q, target := y, budget := b,
                    snap := bits (n.arg 4) 0 32, run := n.run }).walkOut n p q b ys

/-- Run the first walker of a stack (R289). -/
def State.walkOne (s : State) (n : NNode) (p : NStack) : Ag × NStack × State :=
  match p.walkers with
  | [] => (.ok, p, s)
  | w :: ws =>
    nmThen (s.nmRead p.stack n.pasid (recAt p.desc p.stack (w.node / 8)) 16) p fun h s =>
      let adj := if seenAt (leNat h) w.snap then s.chain n p w.snap 64 (hAdj (leNat h)) else (.ok, [], s)
      nmThen adj p fun ys s => s.walkOut n { p with walkers := ws, count := p.count + 1 } w.qid (w.budget - 1) ys

/-- Run a granule of walkers. -/
def State.walkMany (s : State) (n : NNode) : Nat → NStack → Ag × NStack × State
  | 0, p => (.ok, p, s)
  | f + 1, p0 =>
    let p := s.refill n p0
    if p.walkers.isEmpty then (.ok, p, s)
    else match s.walkOne n p with
      | (.ok, q, t) => t.walkMany n f q
      | (e, _, t) => (e, p, { t with msgs := s.msgs })

/-- Entry ids are sent to their stacks (R289). -/
def State.walkStart (s : State) (n : NNode) (p : NStack) : Ag × NStack × State :=
  if p.stack ≠ n.lowest then (.ok, p, s)
  else
    nmThen (s.nmRead p.stack n.pasid (n.arg 3) (4 * (bits (n.arg 4) 32 4 + 1))) p fun bs s =>
      let ids := (wordsOf bs).map BitVec.toNat
      let ms := (List.range n.nq).flatMap fun q => ids.map fun e =>
        ({ nid := n.id, src := p.stack, dst := idStack e, qid := q, target := e, budget := bits (n.arg 2) 26 8,
           snap := bits (n.arg 4) 0 32, run := n.run } : WMsg)
      (.ok, p, ms.foldl State.sendWalk s)

/-! ### EMBAG -/

/-- Positions of bag `b` and their indices: (bag, position, index, stack that sums the row) (R292). -/
def State.bagRows (s : State) (n : NNode) (k b : Nat) : Ag × List (Nat × Nat × Nat × Nat) × State :=
  nmThen (s.nmRead k n.pasid ((n.arg 2 + 4 * b) % 2 ^ 56) 8) [] fun o s =>
    let lo := leNat (o.take 4)
    let hi := leNat (o.drop 4)
    nmThen (s.nmRead k n.pasid ((n.arg 1 + 4 * lo) % 2 ^ 56) (4 * (hi - lo))) [] fun bs s =>
      let own (i : Nat) : Nat :=
        if bits (n.arg 4) 0 32 ≤ i then n.lowest
        else match s.holder n.pasid (n.arg 0 + i * bits (n.arg 4) 32 32) with
          | some h => if n.stackList.contains h then h else n.lowest
          | none => n.lowest
      (.ok, (wordsOf bs).zipIdx.map fun p => (b, lo + p.2, p.1.toNat, own p.1.toNat), s)

/-- Share out the rows of some bags. -/
def State.bagsRows (s : State) (n : NNode) (k : Nat) : List Nat → Ag × List (Nat × Nat × Nat × Nat) × State
  | [] => (.ok, [], s)
  | b :: bs =>
    nmThen (s.bagRows n k b) [] fun r s => nmThen (s.bagsRows n k bs) [] fun rs s => (.ok, r ++ rs, s)

/-- Add one row into the partial sums of its bag. -/
def State.bagRow (s : State) (n : NNode) (p : NStack) (r : Nat × Nat × Nat × Nat) : Ag × NStack × State :=
  let dim := bits (n.arg 3) 32 16
  let ef := bits (n.arg 3) 48 4
  if bits (n.arg 4) 0 32 ≤ r.2.2.1 then (.ok, { p with disc := p.disc + 1 }, s)
  else
    let wx : Ag × List Byte × State :=
      if n.arg 6 = 0 then (.ok, leBytes 4 0x3F800000, s) else s.nmRead p.stack n.pasid ((n.arg 6 + 4 * r.2.1) % 2 ^ 56) 4
    nmThen wx p fun wb s =>
      let w := fmt32.decode (leNat wb)
      nmThen (s.nmRead p.stack n.pasid ((n.arg 0 + r.2.2.1 * bits (n.arg 4) 32 32) % 2 ^ 56) (cdiv (dim * nmW ef) 8)) p fun x s =>
        let q := (List.range dim).foldl (fun (q : NStack) j =>
          q.setSum (r.1 * dim + j) (nsumAdd (q.sum (r.1 * dim + j)) (nsumOf (Exact.mul w (nmElem ef x j))))) p
        (.ok, { q with count := q.count + 1 }, s)

def State.bagAll (s : State) (n : NNode) (p : NStack) : List (Nat × Nat × Nat × Nat) → Ag × NStack × State
  | [] => (.ok, p, s)
  | r :: rs => nmThen (s.bagRow n p r) p fun p s => s.bagAll n p rs

/-- One bag on one stack. -/
def State.bagItem (n : NNode) (p : NStack) (b : Nat) (s : State) : Ag × NStack × State :=
  s.bagAll n p (n.rows.filter fun r => r.1 == b && r.2.2.2 == p.stack)

/-- Share out the rows of the granule a stack is about to do, if no stack has done so. -/
def State.bagAssign (s : State) (n : NNode) (p : NStack) : Ag × NNode × State :=
  if p.gran < n.asgn then (.ok, n, s)
  else
    let g := n.granItems p
    let bags := (List.range (min g (n.total p - p.gran * g))).map fun i => p.gran * g + i
    nmThen (s.bagsRows n p.stack bags) n fun rs s =>
      let n1 := { n with asgn := p.gran + 1, rows := n.rows ++ rs }
      (.ok, n1, s.modNode n.id fun _ => n1)

/-- Results of the granules every stack has finished are written by the lowest named stack, also when a stack fails in a later
granule (R292); after a failed write nothing more is. -/
def State.bagWrite (s : State) (nid : Nat) : State :=
  match s.nnode nid with
  | none => s
  | some n =>
    match n.parts.head? with
    | none => s
    | some p =>
      let done := n.parts.foldl (fun m x => min m x.gran) p.gran
      if n.ep != 2 || done ≤ p.wrote || p.fin then s
      else
        let g := n.granItems p
        let dim := bits (n.arg 3) 32 16
        let b0 := p.wrote * g
        let b1 := min (n.total p) (done * g)
        let ws := (List.range ((b1 - b0) * dim)).map fun i =>
          nsumWord (n.parts.foldl (fun t x => nsumAdd t (x.sum (b0 * dim + i))) (0, 0))
        let w := s.nmWrite p.stack nid n.pasid ((n.arg 5 + 4 * dim * b0) % 2 ^ 56) (ws.flatMap fun x => leBytes 4 x.toNat)
        let drop (x : NStack) : NStack := { x with sums := x.sums.filter fun y => b1 * dim ≤ y.1 }
        match w.1 with
        | .ok =>
          (w.2.setPart' nid { p with wrote := done }).modNode nid fun n =>
            { n with parts := n.parts.map drop, rows := n.rows.filter fun r => b1 ≤ r.1 }
        | .fail c => w.2.setPart' nid { p with cause := if p.cause = 0 then c else p.cause, wrote := n.granules p }
        | .wait => w.2

/-! ### MVBANK and MERGE -/

/-- One row of the stack's share (R293). -/
def State.mvItem (n : NNode) (p : NStack) (i : Nat) (s : State) : Ag × NStack × State :=
  match (n.rows.filter fun r => r.2.2.2 == p.stack)[i]? with
  | none => (.ok, p, s)
  | some r =>
    let k := bits (n.arg 2) 0 32
    let ef := bits (n.arg 2) 32 4
    nmThen (s.nmRead p.stack n.pasid ((n.arg 0 + r.1 * n.arg 4) % 2 ^ 56) (cdiv (k * nmW ef) 8)) p fun w s =>
      nmThen (s.nmRead p.stack n.pasid (n.arg 1) (4 * k)) p fun x s =>
        let t := (List.range k).foldl (fun t j => nsumAdd t (nsumOf (Exact.mul (nmElem ef w j) (nmElem 6 x j)))) (0, 0)
        (.ok, { p with drawers := p.drawers ++ [(r.1, [(nsumWord t, 0)])], count := p.count + 1 }, s)

/-- The rows and the stack that computes each: the holder of its first byte, or the lowest named stack. -/
def State.mvShares (s : State) (n : NNode) : List (Nat × Nat × Nat × Nat) :=
  (List.range n.mvRows).map fun i =>
    let r := bits (n.arg 3) 0 32 + i
    (r, 0, 0, match s.holder n.pasid (n.arg 0 + r * n.arg 4) with
      | some h => if n.stackList.contains h then h else n.lowest
      | none => n.lowest)

/-- The final burst of MVBANK. -/
def State.mvWrite (s : State) (n : NNode) (p : NStack) : Ag × NStack × State :=
  let ds := n.parts.flatMap NStack.drawers
  let val (r : Nat) : Word := (((ds.find? fun d => d.1 == r).bind fun d => d.2.head?).map Prod.fst).getD 0
  let bs := (List.range n.mvRows).flatMap fun i => leBytes 4 (val (bits (n.arg 3) 0 32 + i)).toNat
  let w := s.nmWrite p.stack n.id n.pasid (n.arg 5) bs
  (w.1, p, w.2)

/-- Read the included lists of query `q` (R288). -/
def State.mergeLists (s : State) (n : NNode) (p : NStack) (q : Nat) : List Nat → Ag × List Key × State
  | [] => (.ok, [], s)
  | j :: js =>
    let nl := bits (n.arg 1) 8 6 + 1
    nmThen (s.nmRead p.stack n.pasid ((n.arg 0 + (q * nl + j) * listLen n.k) % 2 ^ 56) (listLen n.k)) [] fun bs s =>
      match listOf n.k bs with
      | none => (.fail 7, [], s)
      | some l => nmThen (s.mergeLists n p q js) [] fun r s => (.ok, l ++ r, s)

/-- MERGE for one query. -/
def State.mergeItem (n : NNode) (p : NStack) (q : Nat) (s : State) : Ag × NStack × State :=
  let js := (List.range (bits (n.arg 1) 8 6 + 1)).filter fun j => bitAt (n.arg 2) j
  nmThen (s.mergeLists n p q js) p fun ks s =>
    let l := bestKeys n.k ks
    nmAfter (s.nmWrite p.stack n.id n.pasid ((n.res + 64 + q * listLen n.k) % 2 ^ 56) (listBytes n.k l)) p fun s =>
      (.ok, { p with count := p.count + l.length }, s)

/-! ### PUBLISH -/

/-- A batch entry is malformed (R295). -/
def entryMalformed (e : Nat) : Bool :=
  let op := bits e 0 2
  op == 3 || bits e 2 30 != 0 || bits e 120 8 != 0 || bits e 160 96 != 0 || (op != 1 && bits e 64 56 % 32 != 0)

/-- Not applied: one more in DISC. -/
def NStack.refused (p : NStack) : NStack := { p with disc := p.disc + 1 }

/-- Write a header (R283). -/
def State.putHeader (s : State) (n : NNode) (p : NStack) (va cre del adj : Nat) : Ag × State :=
  s.nmWrite p.stack n.id n.pasid va (header cre del adj)

/-- A block image with its CREATED, DELETED and NEXT replaced. -/
def blockImage (bs : List Byte) (v next : Nat) : List Byte :=
  leBytes 4 v ++ leBytes 4 0xFFFFFFFF ++ leBytes 4 next ++ (bs.drop 12).take 244

/-- insert (R295). -/
def State.pubInsert (s : State) (n : NNode) (p : NStack) (e h : Nat) : Ag × NStack × State :=
  let d := p.desc
  let v := bits (n.arg 3) 0 32
  let f := bits (n.arg 3) 32 32
  let img := bits e 64 56
  let blk := bits e 128 32
  let r := recAt d p.stack (bits e 32 32 / 8)
  if f < hDel h || (blk != noBlk && decide (cCap d p.stack ≤ blk)) then (.ok, p.refused, s)
  else
    nmThen (s.nmRead p.stack n.pasid img (cRecb d)) p fun im s =>
      let body (s : State) : Ag × NStack × State :=
        nmAfter (s.nmWrite p.stack n.id n.pasid (r + 16) (im.drop 16)) p fun s =>
          nmAfter (s.putHeader n p r v 0xFFFFFFFF blk) p fun s => (.ok, { p with count := p.count + 1 }, s)
      if blk = noBlk then body s
      else
        nmThen (s.nmRead p.stack n.pasid ((img + cRecb d) % 2 ^ 56) 256) p fun bb s =>
          if 60 < (bb.getD 12 0).toNat then (.ok, p.refused, s)
          else nmAfter (s.nmWrite p.stack n.id n.pasid (blkAt d p.stack blk) (blockImage bb v noBlk)) p body

/-- new adjacency (R295). -/
def State.pubAdj (s : State) (n : NNode) (p : NStack) (e h : Nat) : Ag × NStack × State :=
  let d := p.desc
  let v := bits (n.arg 3) 0 32
  let blk := bits e 128 32
  let r := recAt d p.stack (bits e 32 32 / 8)
  if v ≤ hCre h || hDel h != 0xFFFFFFFF || blk == noBlk || decide (cCap d p.stack ≤ blk) then (.ok, p.refused, s)
  else
    nmThen (s.nmRead p.stack n.pasid (bits e 64 56) 256) p fun bb s =>
      if 60 < (bb.getD 12 0).toNat then (.ok, p.refused, s)
      else
        nmAfter (s.nmWrite p.stack n.id n.pasid (blkAt d p.stack blk) (blockImage bb v (hAdj h))) p fun s =>
          let fin (s : State) : Ag × NStack × State :=
            nmAfter (s.putHeader n p r (hCre h) (hDel h) blk) p fun s => (.ok, { p with count := p.count + 1 }, s)
          if hAdj h = noBlk then fin s
          else if cCap d p.stack ≤ hAdj h then (.fail 7, p, s)
          else
            let o := blkAt d p.stack (hAdj h)
            nmThen (s.nmRead p.stack n.pasid o 16) p fun ob s =>
              if hDel (leNat ob) = 0xFFFFFFFF then
                nmAfter (s.nmWrite p.stack n.id n.pasid o (ob.take 4 ++ leBytes 4 v ++ (ob.drop 8).take 8)) p fin
              else fin s

/-- One batch entry on one stack (R295). -/
def State.pubItem (n : NNode) (p : NStack) (i : Nat) (s : State) : Ag × NStack × State :=
  nmThen (s.nmRead p.stack n.pasid ((n.arg 1 + 32 * i) % 2 ^ 56) 32) p fun eb s =>
    let e := leNat eb
    let id := bits e 32 32
    if entryMalformed e then (.fail 7, p, s)
    else if cNids p.desc ≤ id || !n.stackList.contains (idStack id) then
      (.ok, if p.stack = n.lowest then p.refused else p, s)
    else if idStack id ≠ p.stack then (.ok, p, s)
    else
      let r := recAt p.desc p.stack (id / 8)
      nmThen (s.nmRead p.stack n.pasid r 16) p fun hb s =>
        let h := leNat hb
        let v := bits (n.arg 3) 0 32
        match bits e 0 2 with
        | 0 => s.pubInsert n p e h
        | 1 =>
          if v ≤ hCre h || hDel h != 0xFFFFFFFF then (.ok, p.refused, s)
          else
            nmAfter (s.putHeader n p r (hCre h) v (hAdj h)) p fun s => (.ok, { p with count := p.count + 1 }, s)
        | _ => s.pubAdj n p e h

/-! ### COMPACT -/

/-- free β: append it to the stack's list (R296). -/
def State.freeBlk (s : State) (n : NNode) (p : NStack) (b : Nat) : Ag × NStack × State :=
  let a := (n.arg 1 + 4 * n.arg 2 * p.stack + 4 * p.count) % 2 ^ 56
  nmAfter (s.nmWrite p.stack n.id n.pasid a (leBytes 4 b)) p fun s =>
    let c := p.count + 1
    (.ok, { p with count := c, more := p.more || c == n.arg 2 }, s)

/-- Free every block of a chain. -/
def State.freeChain (s : State) (n : NNode) (p : NStack) : Nat → Nat → Ag × NStack × State
  | fuel, b =>
    if b = noBlk ∨ p.more then (.ok, p, s)
    else match fuel with
      | 0 => (.fail 7, p, s)
      | f + 1 =>
        if cCap p.desc p.stack ≤ b then (.fail 7, p, s)
        else
          nmThen (s.nmRead p.stack n.pasid (blkAt p.desc p.stack b) 16) p fun h s =>
            nmThen (s.freeBlk n p b) p fun p s => s.freeChain n p f (hAdj (leNat h))

/-- Unlink and free the dead blocks of a chain: `at'` is where the pointer to block `b` stands, `pre` its 16 bytes. -/
def State.pruneChain (s : State) (n : NNode) (p : NStack) : Nat → Nat → List Byte → Nat → Ag × NStack × State
  | fuel, at', pre, b =>
    if b = noBlk ∨ p.more then (.ok, p, s)
    else match fuel with
      | 0 => (.fail 7, p, s)
      | f + 1 =>
        if cCap p.desc p.stack ≤ b then (.fail 7, p, s)
        else
          nmThen (s.nmRead p.stack n.pasid (blkAt p.desc p.stack b) 16) p fun h s =>
            let next := hAdj (leNat h)
            if hDel (leNat h) ≤ n.arg 3 then
              let pre1 := pre.take 8 ++ leBytes 4 next ++ pre.drop 12
              nmAfter (s.nmWrite p.stack n.id n.pasid at' pre1) p fun s =>
                nmThen (s.freeBlk n p b) p fun p s => s.pruneChain n p f at' pre1 next
            else s.pruneChain n p f (blkAt p.desc p.stack b) h next

/-- One local record of COMPACT (R296). -/
def State.cmpItem (n : NNode) (p : NStack) (u : Nat) (s : State) : Ag × NStack × State :=
  let r := recAt p.desc p.stack u
  if p.more || cNids p.desc ≤ idAt p.stack u then (.ok, p, s)
  else
    nmThen (s.nmRead p.stack n.pasid r 16) p fun hb s =>
      let h := leNat hb
      if hDel h ≠ 0 ∧ hDel h ≤ n.arg 3 then
        nmThen (s.freeChain n p 64 (hAdj h)) p fun p s =>
          if p.more then (.ok, p, s)
          else nmAfter (s.putHeader n p r 0xFFFFFFFF 0 noBlk) p fun s => (.ok, p, s)
      else s.pruneChain n p 64 r hb (hAdj h)

/-! ### The life of a node on a stack -/

/-- A word of a unit's control store: the firmware's image once one is loaded, which no program reads or writes (R266, R267). -/
def State.microWord (s : State) (k u w : Nat) : BitVec 128 :=
  if s.fw.getLsbD 2 && decide (k < 8 ∧ u < 32 ∧ w < 256) then Config.microWord k u w else 0

/-- Channels of a stack in service (R268). -/
def State.channels (s : State) (k : Nat) : List Nat :=
  (List.range 32).filter fun c => (s.reg (0x150008 + 0x100 * k)).getLsbD c

/-- Apply `f` to every channel of a stack. -/
def State.modChans (s : State) (k : Nat) (f : Chan → Chan) : State :=
  (List.range 32).foldl (fun s c => s.setChan k c (f (s.chan k c))) s

/-- A node's compute steps are due on some channel of the stack. -/
def State.stepsDue (s : State) (nid k : Nat) : Bool := (s.channels k).any fun c => (s.chan k c).work.contains nid
/-- None of the granule's steps has been issued. -/
def State.notBegun (s : State) (nid k : Nat) : Bool := (s.channels k).all fun c => (s.chan k c).work.contains nid

/-- Give the next granule's compute steps to the channels, when there is one (R269, R285). -/
def State.nmPost (s : State) (nid k : Nat) : State :=
  match s.nnode nid with
  | none => s
  | some n => match n.part k with
    | none => s
    | some p =>
      if !p.started || p.fin || p.cause != 0 || p.stopped || n.stopped || p.posted || n.partOver p then s
      else if n.banked && (s.channels k).isEmpty then s.setPart' nid { p with cause := 0x0C }
      else
        let s1 := s.setPart' nid { p with posted := true }
        if n.banked then (s.channels k).foldl (fun s c =>
          s.setChan k c { s.chan k c with work := (s.chan k c).work ++ [nid] }) s1 else s1

/-- Nodes ready to run on a stack that wait for a place: started nodes that were stopped, and parts not started. -/
def State.waitsOn (s : State) (k : Nat) : List NNode :=
  s.nodes.filter fun n => n.parts.any fun p => p.stack == k && !p.fin && (p.stopped || !p.started) && p.cause == 0

/-- What a stack checks at start (R272): the part with its descriptor. -/
def State.nmCheck (s : State) (n : NNode) (p : NStack) : Ag × NStack × State :=
  if !n.argsOk then (.fail 7, p, s)
  else if n.corpus then
    nmThen (s.nmRead p.stack n.pasid (n.arg 0) 256) p fun bs s =>
      let d := leNat bs
      let p1 := { p with desc := d }
      if !corpusOk d || (decide (n.ep ≤ 1) && (n.metric == 2) != (cEfmt d == 5)) then (.fail 7, p1, s)
      else
        nmAfter (s.bindPages n.pasid p.stack (corpusPages d p.stack)) p1 fun s =>
          match n.ep with
          | 1 => s.walkStart n p1
          | 4 =>
            nmThen (s.nmRead p.stack n.pasid (cPubw d) 4) p1 fun w s =>
              if bits (n.arg 3) 0 32 ≤ leNat w then (.fail 7, p1, s) else (.ok, p1, s)
          | _ => (.ok, p1, s)
  else if n.ep = 3 then
    match s.nmLocs n.pasid true (chunksOf (n.arg 5) (4 * n.mvRows)) with
    | .inl c => (.fail c, p, s)
    | .inr _ => (.ok, p, s)
  else (.ok, p, s)

/-- NODE_STACK_START (R272): a named stack with a free place starts the node, none of higher priority waiting. -/
def State.nmStart (s : State) (nid k : Nat) : State :=
  match s.nnode nid with
  | none => s
  | some n => match n.part k with
    | none => s
    | some p =>
      if p.started || p.cause != 0 || n.stopped || decide (8 ≤ (s.stackLoad k).2) ||
          (s.waitsOn k).any (fun m => decide (n.prio < m.prio)) then s
      else
        let first := n.parts.all fun x => !x.started
        let n1 := if n.ep = 3 && n.argsOk && first then { n with rows := s.mvShares n } else n
        let r := s.nmCheck n1 p
        let go (s : State) (p : NStack) : State :=
          let w := if n.res % 64 = 0 then s.nmWrite k nid n.pasid ((n.res + 8 * k) % 2 ^ 56) (leBytes 8 1) else (.ok, s)
          let p1 := { p with started := true }
          match w.1 with
          | .wait => w.2
          | .fail c => (w.2.modNode nid fun x => { x with rows := n1.rows }).setPart' nid { p1 with cause := if p.cause = 0 then c else p.cause }
          | .ok => ((w.2.modNode nid fun x => { x with rows := n1.rows }).setPart' nid p1).nmPost nid k
        match r.1 with
        | .wait => r.2.2
        | .ok => go r.2.2 r.2.1
        | .fail c => go r.2.2 { r.2.1 with cause := c }

/-- The items of one granule. -/
def State.nmItems (s : State) (n : NNode) (p : NStack) : Ag × NStack × State :=
  let g := n.granItems p
  let lo := max p.sub (p.gran * g)
  let hi := min (n.total p) ((p.gran + 1) * g)
  let is := (List.range (hi - lo)).map fun i => lo + i
  match n.ep with
  | 0 => nmFold (State.scanItem n) is p s
  | 1 => s.walkMany n (if n.whole then p.walkers.length + p.spill.length else n.gran) p
  | 2 => nmThen (s.bagAssign n p) p fun n s => nmFold (State.bagItem n) is p s
  | 3 => nmFold (State.mvItem n) is p s
  | 4 => nmFold (State.pubItem n) is p s
  | 5 => nmFold (fun p u s => match State.cmpItem n p u s with
    | (.wait, _, _) => (.wait, p, s)
    | r => r) is p s
  | _ => nmFold (State.mergeItem n) ((List.range n.nq).drop p.sub) p s

/-- NODE_GRANULE (R285): with its compute steps issued, a stack completes its granule. -/
def State.nmGranule (s : State) (nid k : Nat) : State :=
  match s.nnode nid with
  | none => s
  | some n => match n.part k with
    | none => s
    | some p =>
      if p.posted && p.cause == 0 && !p.stopped && !s.stepsDue nid k then
        let r := s.nmItems n p
        let s1 := match r.1 with
          | .wait => r.2.2.setPart' nid r.2.1
          | .fail c => r.2.2.setPart' nid { r.2.1 with cause := c, posted := false }
          | .ok =>
            if n.whole then r.2.2.setPart' nid r.2.1
            else (r.2.2.setPart' nid { r.2.1 with gran := p.gran + 1, posted := false, stopped := n.stopped }).nmPost nid k
        s1.bagWrite nid
      else s.bagWrite nid

/-- The stack may finish (R273, R289, R292, R293). -/
def State.nmEnded (s : State) (n : NNode) (p : NStack) : Bool :=
  let busy (x : NStack) : Bool := x.posted && (!n.whole || s.stepsDue n.id x.stack)
  let settled (x : NStack) : Bool := x.cause != 0 || (x.started && n.partOver x && !busy x)
  let written := n.parts.all settled && decide (n.parts.foldl (fun m x => min m x.gran) p.gran ≤ p.wrote)
  if p.cause ≠ 0 then n.ep != 2 || p.stack != n.lowest || written
  else if !p.started || busy p || !n.partOver p then false
  else match n.ep with
    | 1 => n.parts.all settled && s.msgs.all fun m => m.nid != n.id
    | 2 => p.stack != n.lowest || written
    | 3 => p.stack != n.lowest || n.parts.all settled
    | _ => true

/-- Lists of SCAN and WALK, one per query (R286). -/
def State.putLists (s : State) (n : NNode) (p : NStack) : List Nat → Ag × NStack × State
  | [] => (.ok, p, s)
  | q :: qs =>
    let a := (n.res + 64 + (8 * q + p.stack) * listLen n.k) % 2 ^ 56
    nmAfter (s.nmWrite p.stack n.id n.pasid a (listBytes n.k (p.drawer q))) p fun s => s.putLists n p qs

/-- Final writes of a stack that has not failed. -/
def State.nmFinal (s : State) (n : NNode) (p : NStack) : Ag × NStack × State :=
  match n.ep with
  | 0 => s.putLists n p (List.range n.nq)
  | 1 => s.putLists n p (List.range n.nq)
  | 3 => if p.stack = n.lowest && n.parts.all fun x => x.cause == 0 then s.mvWrite n p else (.ok, p, s)
  | _ => (.ok, p, s)

/-- The status word (R272). -/
def NStack.status (p : NStack) : Nat :=
  (if p.cause = 0 then 3 else 0x80 + p.cause) + (if p.more then 256 else 0) + (if p.full then 512 else 0) +
    min p.disc 0xFFFF * 2 ^ 16 + p.count % 2 ^ 32 * 2 ^ 32

/-- NODE_STACK_FINISH (R272). -/
def State.nmFinish (s : State) (nid k : Nat) : State :=
  match s.nnode nid with
  | none => s
  | some n => match n.part k with
    | none => s
    | some p =>
      if p.fin || !s.nmEnded n p then s
      else
        let r := if p.cause = 0 then s.nmFinal n p else (.ok, p, s)
        let close (s : State) (p : NStack) : State :=
          let w := if n.res % 64 = 0 then s.nmWrite k nid n.pasid ((n.res + 8 * k) % 2 ^ 56) (leBytes 8 p.status) else (.ok, s)
          match w.1 with
          | .wait => w.2
          | .fail c => w.2.setPart' nid { p with fin := true, cause := if p.cause = 0 then c else p.cause }
          | .ok => w.2.setPart' nid { p with fin := true }
        match r.1 with
        | .wait => r.2.2
        | .ok => close r.2.2 r.2.1
        | .fail c => close r.2.2 { p with cause := c }

/-- Cause of the lowest-numbered failing stack, 0 when none failed (R273). -/
def NNode.cause (n : NNode) : Nat := ((n.parts.find? fun p => p.cause != 0).map NStack.cause).getD 0

/-- The publish word takes the version after a PUBLISH with PUBV (R295). -/
def State.pubWord (s : State) (n : NNode) : Ag × State :=
  match n.parts.head? with
  | some p =>
    if n.ep = 4 && n.arg 4 = 1 && n.cause = 0 then
      let r := s.nmRead p.stack n.pasid (cPubw p.desc) 4
      match r.1 with
      | .ok => r.2.2.nmWrite p.stack n.id n.pasid (cPubw p.desc) (leBytes 4 (max (leNat r.2.1) (bits (n.arg 3) 0 32)))
      | e => (e, r.2.2)
    else (.ok, s)
  | none => (.ok, s)

/-- NODE_COMPLETE (R273): every named stack has finished and the release at SCOPE is complete. -/
def State.nmComplete (s : State) (nid : Nat) : State :=
  match s.nnode nid with
  | none => s
  | some n =>
    if !(n.parts.all fun p => p.fin) || s.cmdBusy nid then s
    else
      let w := if n.pub then (.ok, s) else s.pubWord n
      let done (s : State) (c : Nat) : State :=
        State.nodeEnds { s with nodes := s.nodes.filter fun x => x.id != nid, msgs := s.msgs.filter fun m => m.nid != nid }
          n.run n.node c
      match w.1 with
      | .wait => w.2
      | .ok => if w.2.cmdBusy nid then w.2.modNode nid fun n => { n with pub := true } else done w.2 n.cause
      | .fail c => done w.2 (if n.cause = 0 then c else n.cause)

/-- WALK_MESSAGE_RECEIVE (R289, R291): the oldest message from one sideboard in another's inbox, which holds the 4,096 oldest
for nodes that run there; later ones are held back, and those of a node not running are kept with its state (R275). -/
def State.walkReceive (s : State) (k src : Nat) : State :=
  let runs (m : WMsg) : Bool := match s.nnode m.nid with
    | some n => (match n.part k with
      | some p => p.cause != 0 || (p.started && !p.stopped && !n.stopped)
      | none => true)
    | none => true
  let inbox := (s.msgs.zipIdx.filter fun m => m.1.dst == k && runs m.1).take 4096
  match inbox.find? fun m => m.1.src == src with
  | none => s
  | some (m, i) =>
    let s1 := { s with msgs := s.msgs.eraseIdx i }
    match s.nnode m.nid with
    | none => s1
    | some n => match n.part k with
      | none => s1
      | some p =>
        if p.cause ≠ 0 || p.fin then s1
        else match s1.visit n p m.qid m.target m.budget with
          | (.ok, q, t) => (t.setPart' n.id q).nmPost n.id k
          | (.fail c, _, t) => t.setPart' n.id { p with cause := c }
          | (.wait, _, t) => { t with msgs := s.msgs }

/-- Stop one stack's part: at once when its granule has not begun, else at its boundary (R275). -/
def State.stopPart (s : State) (nid : Nat) (p : NStack) : State :=
  let k := p.stack
  if p.fin || !p.started || p.stopped then s
  else if p.posted && !s.notBegun nid k then s
  else
    (s.modChans k fun c => { c with work := c.work.filter (· != nid), halt := c.halt || (c.phase == .preIn && c.work.contains nid) }).setPart' nid
      { p with stopped := true, posted := false }

/-- NODE_STOP (R340, R275). -/
def State.nmStop (s : State) (nid : Nat) : State :=
  match s.nnode nid with
  | none => s
  | some n =>
    if n.stopped then s
    else n.parts.foldl (fun s p => s.stopPart nid p) (s.modNode nid fun n => { n with stopped := true })

/-- The running node a stack would stop for a ready one of higher priority (R340). -/
def State.stopChoice (s : State) (k : Nat) : Option Nat :=
  let run := s.nodes.filter fun n => !n.stopped && n.parts.any fun p => p.stack == k && p.started && !p.fin && !p.stopped
  if run.length < 8 then none
  else match (sortBy (fun n => n.prio * 2 ^ 40 + (2 ^ 40 - 1 - n.startSeq)) run).head? with
    | some n => if (s.waitsOn k).any fun m => decide (n.prio < m.prio) && !m.stopped then some n.id else none
    | none => none

/-- NODE_RESUME (R340): every stack has a place and no ready node of higher priority waits there. -/
def State.nmResume (s : State) (nid : Nat) : State :=
  match s.nnode nid with
  | none => s
  | some n =>
    let live := n.parts.filter fun p => p.started && !p.fin && p.cause == 0
    if !n.stopped || !(live.all fun p => p.stopped) || live.any (fun p => decide (8 ≤ (s.stackLoad p.stack).2) ||
        (s.waitsOn p.stack).any fun m => decide (n.prio < m.prio)) then s
    else
      let s1 := s.modNode nid fun n => { n with stopped := false, parts := n.parts.map fun p =>
        let ws := p.walkers ++ p.spill
        let room := 16384 - s.liveBut nid p.stack
        { p with stopped := false, walkers := ws.take room, spill := ws.drop room } }
      live.foldl (fun s p => s.nmPost nid p.stack) s1

/-- The PASID is torn down: its nodes and copy nodes end CANCELLED (R273, R258). -/
def State.tearDown (s : State) (pasid : Nat) : State :=
  let ns := s.nodes.filter fun n => n.pasid == pasid
  let drop (s : State) (n : NNode) : State :=
    let s1 := n.stackList.foldl (fun s k => s.modChans k fun c => { c with work := c.work.filter (· != n.id) }) s
    s1.modNode n.id fun n => { n with stopped := false, parts := n.parts.map fun p =>
      if p.fin then p else { p with cause := if p.cause = 0 then 5 else p.cause, posted := false, stopped := false } }
  let s1 := ns.foldl drop s
  (s1.cmds.filter fun c => c.pasid == pasid && c.kind == .nodeCopy).foldl (fun s c => s.enEnd c 5) s1

/-! ### Channel phases -/

/-- The phase table of R269 as one test: the channel may leave its phase for the one named. -/
def State.phaseMay (s : State) (k c : Nat) (tgt : Phase) : Bool :=
  let x := s.chan k c
  let q := s.reg (0x150000 + 0x100 * k)
  let el := s.now - x.since
  decide (k < 8 ∧ c < 32) && match x.phase, tgt with
  | .normal, .preIn => !x.work.isEmpty && decide (bits q.toNat 16 16 ≤ el) && x.atEntry == 0
  | .preIn, .swIn => x.atEntry == 0 && !x.halt && !x.work.isEmpty
  | .preIn, .normal => x.halt || x.work.isEmpty
  | .swIn, .compute => decide (Config.tSwitch ≤ el)
  | .compute, .preOut => x.work.isEmpty || (decide (max 256 (bits q.toNat 0 16) ≤ el) && !x.queue.isEmpty)
  | .preOut, .swOut => decide (Config.tPre ≤ el)
  | .swOut, .normal => decide (Config.tSwitch ≤ el)
  | _, _ => false

/-- The channel that serves the rows of a mapped-out one: the lowest in service (R266). -/
def State.serves (s : State) (k c : Nat) : Nat := if (s.channels k).contains c then c else (s.channels k).headD c

/-- Requests that wait for a mapped-out channel go to the one that serves its rows as far as it holds more (R266, R270). -/
def State.takeOver (s : State) (k : Nat) : State :=
  (List.range 32).foldl (fun s c =>
    let d := s.serves k c
    let x := s.chan k c
    let y := s.chan k d
    if d = c ∨ x.queue.isEmpty then s
    else
      let n := if y.phase = .normal then x.queue.length else Config.chanQueue - y.queue.length
      (s.setChan k d { y with queue := y.queue ++ x.queue.take n }).setChan k c { x with queue := x.queue.drop n }) s

/-- Change the phase; the requests queued at entry are counted (R269, R270). -/
def State.phaseGo (s : State) (k c : Nat) (tgt : Phase) : State :=
  if s.phaseMay k c tgt then
    let x := s.chan k c
    (s.setChan k c { x with phase := tgt, since := s.now, halt := false,
                             atEntry := if tgt = .normal ∨ tgt = .preIn then x.queue.length else x.atEntry }).takeOver k
  else s

/-- COMPUTE_STEP: the unit issues the next step due. -/
def State.computeGo (s : State) (k c : Nat) : State :=
  let x := s.chan k c
  if x.phase = .compute then s.setChan k c { x with work := x.work.drop 1 } else s

/-- NORMAL_REQUEST_ARRIVE (R270). -/
def State.normArrive (s : State) (k c : Nat) (r : NormReq) : State :=
  let d := s.serves k c
  let x := s.chan k d
  if k < 8 ∧ c < 32 ∧ (x.phase = .normal ∨ x.queue.length < Config.chanQueue) then
    s.setChan k d { x with queue := x.queue ++ [r] }
  else s

/-- NORMAL_REQUEST_COMPLETE: in NORMAL, or in PRE_IN for the requests in flight, in order (R269, R270). -/
def State.normDone (s : State) (k c : Nat) : State :=
  let x := s.chan k c
  if x.phase = .normal ∨ (x.phase = .preIn ∧ 0 < x.atEntry) then
    (s.setChan k c { x with queue := x.queue.drop 1, atEntry := x.atEntry - 1 }).takeOver k
  else s

/-- CHANNEL_MAP_OUT (R266, R376): a remaining channel takes over its requests, and its phase ends as R269's table says. -/
def State.mapOut (s : State) (k c : Nat) : State :=
  if !(s.channels k).contains c || 8 ≤ k then s
  else
    let x := s.chan k c
    let x1 := { x with work := [], halt := x.phase == Phase.preIn }
    let s1 := (s.setFld (0x150008 + 0x100 * k) c 1 0).setChan k c x1
    let s2 := s1.takeOver k
    let s3 := s2.record 3 1 (0x100 + k) (BitVec.ofNat 64 c) 0
    if 32 - (s3.channels k).length ≥ 2 then s3.askReplace else s3

/-! ### The rows of the table -/

/-- NODE_STACK_START. -/
def execNodeStackStart (nid stack : Nat) (s : State) : Out' := .next (s.byCmd nid fun s => s.nmStart nid stack)
/-- NODE_GRANULE. -/
def execNodeGranule (nid stack : Nat) (s : State) : Out' := .next (s.byCmd nid fun s => s.nmGranule nid stack)
/-- NODE_STACK_FINISH. -/
def execNodeStackFinish (nid stack : Nat) (s : State) : Out' := .next (s.byCmd nid fun s => s.nmFinish nid stack)
/-- NODE_COMPLETE. -/
def execNodeComplete (nid : Nat) (s : State) : Out' := .next (s.byCmd nid fun s => s.nmComplete nid)
/-- WALK_MESSAGE_RECEIVE. -/
def execWalkMessageReceive (stack src : Nat) (s : State) : Out' := .next (s.walkReceive stack src)
/-- NODE_STOP. -/
def execNodeStop (nid : Nat) (s : State) : Out' := .next (s.nmStop nid)
/-- NODE_RESUME. -/
def execNodeResume (nid : Nat) (s : State) : Out' := .next (s.nmResume nid)
/-- CHANNEL_ENTER_PRE_IN. -/
def execChannelEnterPreIn (stack ch : Nat) (s : State) : Out' := .next (s.phaseGo stack ch .preIn)
/-- CHANNEL_ENTER_SW_IN. -/
def execChannelEnterSwIn (stack ch : Nat) (s : State) : Out' := .next (s.phaseGo stack ch .swIn)
/-- CHANNEL_ABORT_PRE_IN: a stop has taken the channel's compute work. -/
def execChannelAbortPreIn (stack ch : Nat) (s : State) : Out' :=
  .next (if (s.chan stack ch).phase = .preIn then s.phaseGo stack ch .normal else s)
/-- CHANNEL_ENTER_COMPUTE. -/
def execChannelEnterCompute (stack ch : Nat) (s : State) : Out' := .next (s.phaseGo stack ch .compute)
/-- COMPUTE_STEP. -/
def execComputeStep (stack ch : Nat) (s : State) : Out' := .next (s.computeGo stack ch)
/-- CHANNEL_ENTER_PRE_OUT. -/
def execChannelEnterPreOut (stack ch : Nat) (s : State) : Out' := .next (s.phaseGo stack ch .preOut)
/-- CHANNEL_ENTER_SW_OUT. -/
def execChannelEnterSwOut (stack ch : Nat) (s : State) : Out' := .next (s.phaseGo stack ch .swOut)
/-- CHANNEL_ENTER_NORMAL. -/
def execChannelEnterNormal (stack ch : Nat) (s : State) : Out' :=
  .next (if (s.chan stack ch).phase = .swOut then s.phaseGo stack ch .normal else s)
/-- NORMAL_REQUEST_ARRIVE. -/
def execNormalRequestArrive (stack ch : Nat) (req : NormReq) (s : State) : Out' := .next (s.normArrive stack ch req)
/-- NORMAL_REQUEST_COMPLETE. -/
def execNormalRequestComplete (stack ch : Nat) (s : State) : Out' := .next (s.normDone stack ch)
/-- CHANNEL_MAP_OUT. -/
def execChannelMapOut (stack ch : Nat) (s : State) : Out' := .next (s.mapOut stack ch)

end Sys2Proof.Machine
end

