-- ==== Sys2Proof/Machine/EvFabric.lean ====
section
/-! DEFINITION. The fabric's receiving side (R359, R365 to R372): export windows, the flits of each kind in SEQ order, and
ports. A flit out of its turn, or one that must wait, changes nothing: it stands on the link. -/

namespace Sys2Proof.Machine

/-! ### Acceptance -/

/-- The whole range lies in an open export window that admits the sender (R368). -/
def State.exported (s : State) (src addr n : Nat) (write : Bool) : Bool :=
  (List.range 8).any fun i =>
    let w := 0x190400 + 0x20 * i
    let c := (s.reg w).toNat
    let base := bits c 16 28 * 65536
    bitAt c 0 && (!write || bitAt c 1) && bitAt (s.reg (w + 0x10)).toNat src && decide (base ≤ addr) &&
      decide (addr + n ≤ base + s.fld (w + 8) 0 32 * 65536)

/-- Answer the sender of a flit; an answer without a route is lost. -/
def State.reply (s : State) (f : Flit) (kind : Nat) (g : Flit → Flit) : State :=
  let p := f.src.toNat
  if s.canSend p then s.sendFlit (g { Flit.blank kind p with tag := f.tag, addr := f.addr }) else s

/-- Discard a flit, with an event (R367). -/
def State.discard (s : State) (f : Flit) : State :=
  s.record 8 1 0xFFFF (BitVec.ofNat 64 (f.kind.toNat + 2 ^ 8 * f.src.toNat + 2 ^ 16 * f.dst.toNat))
    (f.seq.zeroExtend 64)

/-- Receive a flit of a kind: misdirected flits are discarded, the others performed in SEQ order of their sender (R367).
`none` holds the flit back. -/
def State.receive (s : State) (f : Flit) (kind : Nat) (go : State → Option State) : State :=
  if f.kind.toNat ≠ kind then s
  else if f.dst.toNat ≠ s.fpkg then s.discard f
  else
    let p := f.src.toNat
    let n := Tab.get 0 s.seqIn p
    if f.seq.toNat ≠ n then s
    else match go s with
      | none => s
      | some s1 => { s1 with seqIn := Tab.set 0 s1.seqIn p ((n + 1) % 2 ^ 32) }

/-- An agent owns some line of a range (R175). -/
def State.ownedRange (s : State) (addr n : Nat) : Bool :=
  (List.range (n / 128 + 2)).any fun i => decide (128 * (addr / 128 + i) < addr + n) && s.ownedLine (addr / 128 + i)

/-! ### Requests of peers -/

/-- WR: the masked bytes are performed at home (R368). -/
def State.gotWr (s : State) (f : Flit) : Option State :=
  let n := f.data.length
  if n = 0 ∨ 128 < n ∨ !s.exported f.src.toNat f.addr n true then some (s.reply f 7 id)
  else if s.ownedRange f.addr n then none
  else
    let bs := f.data.zipIdx.map fun b => if f.mask.getD b.2 false then some b.1 else none
    some (((s.touch 1000 (.dev f.addr)).homeWrite (.dev f.addr) bs).reply f 6 id)

/-- RD: one sector, or an error status (R368). -/
def State.gotRd (s : State) (f : Flit) : Option State :=
  let a := f.addr / 32 * 32
  if !s.exported f.src.toNat a 32 false then some (s.reply f 3 fun g => { g with stat := 1 })
  else if s.ownedLine (a / 128) then none
  else if s.poisoned (.dev a) then some ((s.logError (.dev a)).reply f 3 fun g => { g with stat := 2 })
  else some ((s.touch 1000 (.dev a)).reply f 3 fun g => { g with data := s.devBytes a 32 })

/-- Type of an ATOM flit's request. -/
def flitTy (f : Flit) : AtTy :=
  match f.op.toNat / 64 with
  | 0 => AtTy.ofBits 0
  | 1 => AtTy.ofBits 1
  | 2 => AtTy.ofBits 2
  | _ => AtTy.ofBits 3

/-- ATOM: performed at the home unit before any later flit of the sender (R331, R368); so is an ordered request, unless its
slice refuses it and its sender must try again (R199, R200). -/
def State.gotAtom (s : State) (f : Flit) : Option State :=
  let ty := flitTy f
  let n := atBytes ty
  let a := f.addr
  let l := Loc.dev a
  if !s.exported f.src.toNat a n true then some (s.reply f 7 id)
  else if s.ownedRange a n then none
  else if s.poisoned l then some ((s.logError l).reply f 5 fun g => { g with stat := 2 })
  else
    let s1 := s.touch 1000 l
    match f.op.toNat / 16 % 4 with
    | 0 =>
      let old := s1.rdAt ty l
      some ((s1.wrAt ty l (atomOp ty (f.op.toNat % 16) old f.val)).reply f 5 fun g => { g with val := old })
    | 1 =>
      let old := s1.rdAt ty l
      some ((if old = f.val then s1.wrAt ty l f.val2 else s1).reply f 5 fun g => { g with val := old })
    | _ =>
      let r := s1.freshId
      let q : StreamReq := { id := r.1, pasid := bits f.val2.toNat 32 20, grid := 2 ^ 32, slot := 0, loc := a, ty,
                             tag := f.val2.extractLsb' 0 32, val := f.val, peer := some (f.src.toNat, f.tag) }
      (match r.2.streamTake q with
       | some s2 => some (s2.reply f 5 id)
       | none => some { r.2 with streamReqs := r.2.streamReqs ++ [q] })

/-- FLUSH: FLUSHACK once every earlier flit of the sender is performed (R359). -/
def State.gotFlush (s : State) (f : Flit) : Option State :=
  let open' := s.streamReqs.any fun q => match q.peer with
    | some (p, _) => p == f.src.toNat
    | none => false
  if open' then none else some (s.reply f 9 id)

/-- MBOX: accepted, refused, or held on the link (R369, R32). -/
def State.gotMbox (s : State) (f : Flit) : Option State :=
  if !(s.reg 0x190010).getLsbD f.src.toNat then some (s.reply f 7 id)
  else match s.mboxOffer f.addr { src := f.src.toNat, payload := f.data } with
    | .taken s1 => some (s1.reply f 6 id)
    | .refused => some (s.reply f 7 id)
    | .full => none

/-- MERGE: a list for a round beyond the 64 open ones waits (R371). -/
def State.gotMerge (s : State) (f : Flit) : Option State :=
  let t := f.tree.toNat
  if s.treeEn t && !s.roundRoom t f.round.toNat then none else some (s.mergeFlit f)

/-! ### Answers of peers -/

/-- Take the outstanding request an answer belongs to. -/
def State.takeOut (s : State) (f : Flit) : Option (Outst × State) :=
  (s.outst.find? fun o => o.tag == f.tag && o.dst == f.src.toNat).map fun o =>
    (o, { s with outst := s.outst.filter fun x => x.tag != o.tag })

/-- Someone on the core still waits for a peer's sector: an agent's command, or a blocked group. -/
def State.awaited (s : State) (core : Nat) : Bool :=
  decide (200 ≤ core) || s.groups.any fun g => slotCore g.1 == core && g.2.blocked.any fun b => match b.why with
    | .peer _ => true
    | .waita _ => true
    | .ldx => true
    | _ => false

/-- A sector, or an error in its place, arrives for a core (R368): it fills the L1, or stands until it is taken up. -/
def State.landSector (s : State) (core key : Nat) (nc : Bool) (p addr stat : Nat) (bs : List Byte) : State :=
  let rest := s.peerGot.filter fun e => !(e.core == core && e.key == key)
  if stat = 0 && !nc && decide (core < 200) then
    s.fillL1 core key false false (bs.zipIdx.map fun b => (b.2, b.1, Loc.peer p (addr + b.2)))
  else if s.awaited core then { s with peerGot := rest ++ [{ core, key, code := stat, bytes := bs }] }
  else s

/-- The lanes of an atomic entry that sent request `tag` are answered: `ph` 2 with old values, 3 refused, 4 error. -/
def State.landAtomic (s : State) (slot entry tag ph : Nat) (old : DWord) : State :=
  match (s.group slot).sq.find? fun e => e.id == entry with
  | some e =>
    (match e.kind with
     | .atomic r =>
       let mine := r.lanes.filter fun x => x.rid == tag && x.ph == 1
       let olds := if r.kind == .atom || r.kind == .red then atOlds r.ty r.op old none (mine.map AtLane.v)
         else mine.map fun _ => old
       let put (x : AtLane) : AtLane :=
         match (mine.zip olds).find? fun m => m.1.lane == x.lane with
         | some (_, o) => { x with ph, old := o }
         | none => x
       (s.setReq slot e { r with lanes := r.lanes.map put }).atFinish slot e
     | .store _ => s)
  | none => s

/-- A write, message or atomic of this package was refused or lost: `ph` 3 refused, 4 undeliverable (R368). -/
def State.lost (s : State) (o : Outst) (addr ph : Nat) : State :=
  match o.who with
  | .fill core key nc => s.landSector core key nc o.dst addr (ph - 2) []
  | .gone => s
  | .atomic slot entry => s.landAtomic slot entry o.tag ph 0
  | .write grid => s.fabLost grid o.dst addr
  | .cmd id =>
    let fail (c : Cmd) : Cmd :=
      if c.id = id ∧ c.cause = 0 then { c with cause := if ph = 4 then 2 else if c.aux3 = 1 then 0x0D else 1 } else c
    let part (p : NStack) : NStack := if p.cause = 0 then { p with cause := if ph = 4 then 2 else 1 } else p
    { s with cmds := s.cmds.map fail,
             nodes := s.nodes.map fun n => if n.id = id then { n with parts := (n.parts.take 1).map part ++ n.parts.drop 1 } else n }

/-- RDRSP (R368). -/
def State.gotRdrsp (s : State) (f : Flit) : State :=
  match s.takeOut f with
  | some (o, s1) => (match o.who with
    | .fill core key nc => s1.landSector core key nc f.src.toNat (f.addr / 32 * 32) f.stat f.data
    | .gone => s1
    | _ => s)
  | none => s

/-- ATOMRSP (R368): the old value or an acknowledgement; status 1 refused, 2 error at the peer. -/
def State.gotAtomrsp (s : State) (f : Flit) : State :=
  match s.takeOut f with
  | some (o, s1) => (match o.who with
    | .atomic slot entry => s1.landAtomic slot entry o.tag (f.stat + 2) f.val
    | _ => s)
  | none => s

/-- ACK: a WR, ATOM or MBOX has been performed (R367). -/
def State.gotAck (s : State) (f : Flit) : State :=
  match s.takeOut f with
  | some (o, s1) => (match o.who with
    | .atomic slot entry => s1.landAtomic slot entry o.tag 2 f.val
    | .fill _ _ _ => s
    | .gone => s
    | _ => s1)
  | none => s

/-- NAK: refused (R368). -/
def State.gotNak (s : State) (f : Flit) : State :=
  match s.takeOut f with
  | some (o, s1) => s1.lost o f.addr 3
  | none => s

/-- FLUSHACK for a retiring grid (R359). -/
def State.gotFlushack (s : State) (f : Flit) : State :=
  s.modGrid f.tag fun g => { g with waitAck := g.waitAck &&& ~~~(1#64 <<< f.src.toNat) }

/-! ### Ports -/

/-- FABRIC_PORT_CHANGE (R366): requests out through a port that drops are undeliverable (R368). -/
def State.portChange (s : State) (port : Nat) (up : Bool) : State :=
  if 12 ≤ port then s
  else
    let s1 := s.setFld 0x190008 (32 + port) 1 (if up then 1 else 0)
    if up then s1
    else
      let gone := s1.outst.filter fun o => !s1.canSend o.dst
      gone.foldl (fun s o => s.lost o 0 4) { s1 with outst := s1.outst.filter fun o => s1.canSend o.dst }

/-! ### The rows of the table -/

/-- WR_FLIT. -/
def execWrFlit (f : Flit) (s : State) : Out' := .next (s.receive f 1 fun s => s.gotWr f)
/-- RD_FLIT. -/
def execRdFlit (f : Flit) (s : State) : Out' := .next (s.receive f 2 fun s => s.gotRd f)
/-- RDRSP_FLIT. -/
def execRdrspFlit (f : Flit) (s : State) : Out' := .next (s.receive f 3 fun s => some (s.gotRdrsp f))
/-- ATOM_FLIT. -/
def execAtomFlit (f : Flit) (s : State) : Out' := .next (s.receive f 4 fun s => s.gotAtom f)
/-- ATOMRSP_FLIT. -/
def execAtomrspFlit (f : Flit) (s : State) : Out' := .next (s.receive f 5 fun s => some (s.gotAtomrsp f))
/-- ACK_FLIT. -/
def execAckFlit (f : Flit) (s : State) : Out' := .next (s.receive f 6 fun s => some (s.gotAck f))
/-- NAK_FLIT. -/
def execNakFlit (f : Flit) (s : State) : Out' := .next (s.receive f 7 fun s => some (s.gotNak f))
/-- FLUSH_FLIT. -/
def execFlushFlit (f : Flit) (s : State) : Out' := .next (s.receive f 8 fun s => s.gotFlush f)
/-- FLUSHACK_FLIT. -/
def execFlushackFlit (f : Flit) (s : State) : Out' := .next (s.receive f 9 fun s => some (s.gotFlushack f))
/-- MBOX_FLIT. -/
def execMboxFlit (f : Flit) (s : State) : Out' := .next (s.receive f 0x0A fun s => s.gotMbox f)
/-- MERGE_FLIT. -/
def execMergeFlit (f : Flit) (s : State) : Out' := .next (s.receive f 0x0B fun s => s.gotMerge f)
/-- UNDEFINED_KIND_FLIT: discarded and recorded; it takes its place in the sender's order. -/
def execUndefinedKindFlit (f : Flit) (s : State) : Out' :=
  .next (if 1 ≤ f.kind.toNat ∧ f.kind.toNat ≤ 0x0B then s else s.receive f f.kind.toNat fun s => some (s.discard f))
/-- FABRIC_PORT_CHANGE. -/
def execFabricPortChange (port : Nat) (up : Bool) (s : State) : Out' := .next (s.portChange port up)

end Sys2Proof.Machine
end

