-- ==== Sys2Proof/Machine/EvPlatform.lean ====
section
/-! DEFINITION. Reliability, power, reset, attestation and management (R364, R373 to R381). -/

namespace Sys2Proof.Machine

/-! ### Scrubbing and corrected errors -/

/-- Sectors of the package's HBM (R3). -/
def hbmSectors : Nat := Config.hbmFrames * 2048

/-- One more corrected error in the current hour; beyond CELIM a replacement is asked for (R373, R376). -/
def State.corrected (s : State) (sector : Nat) : State :=
  let n := s.fld 0x1B0010 0 32 + 1
  let s1 := (s.setFld 0x1B0010 0 32 (min n 0xFFFFFFFF)).record 4 0 0xFFFF (BitVec.ofNat 64 (32 * sector)) 0
  if s.fld 0x1B0010 32 32 < n then s1.askReplace else s1

/-- Requests queued on the channels of a sector's stack. -/
def State.sectorQueue (s : State) (sector : Nat) : Nat :=
  match (s.page (sector / 2048)).place with
  | .hbm k => (List.range 32).foldl (fun n c => max n (s.chan k c).queue.length) 0
  | _ => 0

/-- SCRUB_READ (R374): one sector is read; a correctable error is repaired at the home slice in place, so no value changes,
and an uncorrectable one is logged (R354). -/
def State.scrubRead (s : State) (sector : Nat) (correctable : Bool) : State :=
  let c := (s.reg 0x1B0000).toNat
  if !bitAt c 8 || (!bitAt c 32 && decide (bits c 0 8 ≤ s.sectorQueue sector)) then s
  else
    let s1 := if s.poison.contains sector then s.logError (.dev (32 * sector)) else if correctable then s.corrected sector else s
    if hbmSectors ≤ s.scrubDone + 1 then { s1 with scrubDone := 0, scrubStart := s.us } else { s1 with scrubDone := s.scrubDone + 1 }

/-- SCRUB_CHECK (R374): escalated while the pass lags behind its deadline. -/
def State.scrubCheck (s : State) : State :=
  let pass := s.fld 0x1B0000 16 16 * 3600000000
  let late := decide (s.scrubDone * pass < (s.us - s.scrubStart) * hbmSectors)
  s.setFld 0x1B0000 32 1 (if late then 1 else 0)

/-- CORRECTED_ERROR_HOUR_END (R376). -/
def State.hourEnd (s : State) : State :=
  if s.us / 3600000000 ≤ s.hour then s else State.setFld { s with hour := s.us / 3600000000 } 0x1B0010 0 32 0

/-! ### CXL, power and heat -/

/-- CXL_LINK_CHANGE (R364). -/
def State.cxlChange (s : State) (port : Nat) (up : Bool) (size : BitVec 16) : State :=
  if 8 ≤ port then s
  else ((s.setFld (0x180000 + 8 * port) 1 1 (if up then 1 else 0)).setFld (0x180000 + 8 * port) 4 16 size.toNat).record
    5 1 0xFFFF (BitVec.ofNat 64 port) (if up then 1 else 0)

/-- THERMAL_TRIP: every clock stops until a cold reset (R379). -/
def State.trip (s : State) : State := State.record { s with halted := true } 5 2 0xFFFF 115 0

/-- POWER_THROTTLE (R379): one step of 100 MHz down while a limit is exceeded, else one step up. -/
def State.throttle (s : State) (watts junction : Nat) : State :=
  let lim := min (s.fld 0x1C0000 0 12) 2400
  if 115 ≤ junction then s.trip
  else
    let m := if lim < watts ∨ 105 ≤ junction then max 800 (s.clockMHz - 100) else min 1600 (s.clockMHz + 100)
    State.record { s with clockMHz := m } 5 1 0xFFFF (BitVec.ofNat 64 watts) (BitVec.ofNat 64 junction)

/-! ### Reset -/

/-- COLD_RESET (R380): the state after reset; what is outside the device stays. The model's counters go on. -/
def State.cold (s : State) : State :=
  { State.reset with agenda := s.agenda, free := s.free, fresh := s.fresh, hostMem := s.hostMem, out := s.out }

/-- A cold reset whose verification finds some images good (bit n: image n + 1 of R377's measurements). An image that fails is
not loaded and the cabinet records it; with the hub's own, BOOTSTAT reads 2 (R377, R380). -/
def State.boot (s : State) (images : BitVec 4) : State :=
  let s1 := { s.cold with fw := images }
  let s2 := ((List.range 4).filter fun i => !images.getLsbD i).foldl (fun s i => s.record 9 2 0xFFFF (BitVec.ofNat 64 (i + 1)) 0) s1
  if images.getLsbD 0 then s2 else s2.setFld 0x1B0018 0 2 2

/-- A core after a warm reset: in service as before, empty, its counter at zero. -/
def Core.warm (now : Nat) (c : Core) : Core :=
  { c with base := now, l1 := [], order := [], icache := [], arr := 0, kids := [] }

/-- WARM_RESET (R380): registers take their reset values, counters restart, work is lost; memory, placement, the cabinet
and the hub timer stay. -/
def State.warm (s : State) : State :=
  let cores := (List.range 200).map fun c => (c, (s.core c).warm s.now)
  let base : State :=
    { State.reset with
      agenda := s.agenda, free := s.free, fresh := s.fresh, now := s.now, us := s.us, mem := s.mem, hostMem := s.hostMem,
      scr := s.scr, poison := s.poison, poisonScr := s.poisonScr, cab := s.cab, cabSeq := s.cabSeq, out := s.out,
      pages := s.pages, hbmUsed := s.sealed.foldl (fun n x => n - x.frames) s.hbmUsed, epoch := s.epoch, hour := s.hour, seqOut := s.seqOut, seqIn := s.seqIn,
      clockMHz := s.clockMHz, fw := s.fw, svStd := s.svStd, halted := s.halted }
  cores.foldl (fun s c => s.setCore c.1 c.2) base

/-! ### Attestation and management -/

/-- Send an SPDM response: response code and body. The ERROR response is 0x7F with its reason. -/
def State.spdmOk (s : State) (code : Nat) (args : List Nat) : State := s.emit (.spdm code (Config.response code args))
def State.spdmErr (s : State) (reason : Nat) : State := s.emit (.spdm 0x7F (leBytes 1 reason))

/-- A request that needs negotiated algorithms. -/
def State.spdmAfter (s : State) (code : Nat) (args : List Nat) : State :=
  if s.spdmNeg then s.spdmOk code args else s.spdmErr 4

/-! ### The rows of the table -/

/-- SCRUB_READ. -/
def execScrubRead (sector : Nat) (correctable : Bool) (s : State) : Out' := .next (s.scrubRead sector correctable)
/-- SCRUB_CHECK. -/
def execScrubCheck (s : State) : Out' := .next s.scrubCheck
/-- CORE_DISABLE (R376). -/
def execCoreDisable (core : Nat) (s : State) : Out' := .next (if core < 200 then s.coreDisable core else s)
/-- CXL_LINK_CHANGE. -/
def execCxlLinkChange (port : Nat) (up : Bool) (size : BitVec 16) (s : State) : Out' := .next (s.cxlChange port up size)
/-- POWER_THROTTLE. -/
def execPowerThrottle (watts junction : Nat) (s : State) : Out' := .next (s.throttle watts junction)
/-- THERMAL_TRIP. -/
def execThermalTrip (s : State) : Out' := .next s.trip
/-- COLD_RESET. -/
def execColdReset (s : State) : Out' := .next s.cold
/-- WARM_RESET. -/
def execWarmReset (s : State) : Out' := .next s.warm
/-- CORRECTED_ERROR_HOUR_END. -/
def execCorrectedErrorHourEnd (s : State) : Out' := .next s.hourEnd
/-- GET_VERSION (R377): version 1.2. -/
def execGetVersion (s : State) : Out' := .next (s.emit (.spdm 0x04 (leBytes 2 0x1200)))
/-- GET_CAPABILITIES. -/
def execGetCapabilities (s : State) : Out' := .next (s.spdmOk 0x61 [])
/-- NEGOTIATE_ALGORITHMS: ECDSA P-256 (bit 4) with SHA-256 (bit 0), and nothing else (R377). -/
def execNegotiateAlgorithms (asym hash : Nat) (s : State) : Out' :=
  .next (if bitAt asym 4 && bitAt hash 0 then State.emit { s with spdmNeg := true } (.spdm 0x63 (leBytes 4 16 ++ leBytes 4 1))
    else s.spdmErr 1)
/-- GET_DIGESTS. -/
def execGetDigests (s : State) : Out' := .next (s.spdmAfter 0x01 [])
/-- GET_CERTIFICATE. -/
def execGetCertificate (off len : Nat) (s : State) : Out' := .next (s.spdmAfter 0x02 [off, len])
/-- CHALLENGE. -/
def execChallenge (nonce : Nat) (s : State) : Out' := .next (s.spdmAfter 0x03 [nonce])
/-- GET_MEASUREMENTS: indices 1 to 4 are the four images (R377). -/
def execGetMeasurements (idx : Nat) (s : State) : Out' :=
  .next (if 1 ≤ idx ∧ idx ≤ 4 then s.spdmAfter 0x60 [idx] else s.spdmErr 1)
/-- MCTP_CONTROL_MESSAGE (R381). -/
def execMctpControlMessage (cmd : Nat) (s : State) : Out' := .next (s.emit (.mctp 0 (Config.response 0x100 [cmd])))
/-- MCTP_VENDOR_READ (R381): 0 sensors, 1 RASSTAT, 2 BOOTSTAT, 3 a cabinet slot. -/
def execMctpVendorRead (what idx : Nat) (s : State) : Out' :=
  .next (match what with
    | 0 => s.emit (.mctp 1 (Config.response 0x101 [idx]))
    | 1 => s.emit (.mctp 1 (leBytes 8 (s.regRead 0x1B0008).toNat ++ leBytes 8 (s.regRead 0x1B0010).toNat))
    | 2 => s.emit (.mctp 1 (leBytes 8 (s.regRead 0x1B0018).toNat))
    | _ => s.emit (.mctp 1 ((List.range 32).map fun i => s.cabByte (idx % 4096 * 32 + i))))

end Sys2Proof.Machine
end

