-- ==== Sys2Proof/Machine/FloatAlu.lean ====
section
/-! DEFINITION. Class 0x4 and the packed halves of class 0x5 (R147 to R152). -/

namespace Sys2Proof.Machine

/-- A code and flags as a register value. -/
def w32 (p : Nat × Fl) : Word × Fl := (BitVec.ofNat 32 p.1, p.2)

/-- FADD (R147). -/
def execFadd (h : Hdr) (o : AluOps) (s : State) : Out' :=
  fpu2 s h o fun a b => w32 (fAdd fmt32 o.rnd (f32 a) (f32 b))
/-- FSUB (R147). -/
def execFsub (h : Hdr) (o : AluOps) (s : State) : Out' :=
  fpu2 s h o fun a b => w32 (fAdd fmt32 o.rnd (f32 a) (f32 b).flip)
/-- FMUL (R147). -/
def execFmul (h : Hdr) (o : AluOps) (s : State) : Out' :=
  fpu2 s h o fun a b => w32 (fMul fmt32 o.rnd (f32 a) (f32 b))
/-- FFMA, rounded once (R147). -/
def execFfma (h : Hdr) (o : AluOps) (s : State) : Out' :=
  fpu3 s h o fun a b c => w32 (fFma fmt32 o.rnd (f32 a) (f32 b) (f32 c))
/-- FSCL: a × 2^n. Beyond ±600 the power changes neither result nor flags, so n is clamped there (R147). -/
def execFscl (h : Hdr) (o : AluOps) (s : State) : Out' :=
  fpu2 s h o fun a b =>
    w32 (arith fmt32 o.rnd [f32 a] ((f32 a).scale (max (-600) (min 600 b.toInt))))
/-- FMIN (R148). -/
def execFmin (h : Hdr) (o : AluOps) (s : State) : Out' :=
  alu2 s h o fun a b => BitVec.ofNat 32 (fminN fmt32 a.toNat b.toNat)
/-- FMAX (R148). -/
def execFmax (h : Hdr) (o : AluOps) (s : State) : Out' :=
  alu2 s h o fun a b => BitVec.ofNat 32 (fmaxN fmt32 a.toNat b.toNat)
/-- FRND: no flag is set (R149). -/
def execFrnd (h : Hdr) (o : AluOps) (s : State) : Out' :=
  alu1 s h o fun a => (toF32 .rne (integral o.rnd (f32 a))).1

/-- The class bit of an FP32 pattern (R150). -/
def fclass (a : Word) : Word :=
  let m := a.toNat % 2 ^ 31
  let n := a.getLsbD 31
  let b := if 0x7F800000 < m then 8
    else if m = 0x7F800000 then (if n then 0 else 7)
    else if 0x00800000 ≤ m then (if n then 1 else 6)
    else if m = 0 then (if n then 3 else 4)
    else (if n then 2 else 5)
  1#32 <<< b

/-- FCLASS (R150). -/
def execFclass (h : Hdr) (o : AluOps) (s : State) : Out' := alu1 s h o fclass

/-! ### Packed halves -/

/-- The packed format: .bf16 by default (R152). -/
def pkFmt (t : Ty) : Fmt := if t == .f16 then fmtH16 else fmtB16
def half0 (w : Word) : Nat := (w.extractLsb' 0 16).toNat
def half1 (w : Word) : Nat := (w.extractLsb' 16 16).toNat
/-- Both halves, flags ORed (R152). -/
def pk (lo hi : Nat × Fl) : Word × Fl :=
  (BitVec.ofNat 16 hi.1 ++ BitVec.ofNat 16 lo.1, lo.2 ||| hi.2)
def pk2 (F : Fmt) (f : Exact → Exact → Nat × Fl) (a b : Word) : Word × Fl :=
  pk (f (F.decode (half0 a)) (F.decode (half0 b))) (f (F.decode (half1 a)) (F.decode (half1 b)))

/-- PKADD (R152). -/
def execPkadd (h : Hdr) (o : AluOps) (s : State) : Out' :=
  fpu2 s h o (pk2 (pkFmt o.ty) (fAdd (pkFmt o.ty) o.rnd))
/-- PKMUL (R152). -/
def execPkmul (h : Hdr) (o : AluOps) (s : State) : Out' :=
  fpu2 s h o (pk2 (pkFmt o.ty) (fMul (pkFmt o.ty) o.rnd))
/-- PKFMA (R152). -/
def execPkfma (h : Hdr) (o : AluOps) (s : State) : Out' :=
  let F := pkFmt o.ty
  fpu3 s h o fun a b c =>
    pk (fFma F o.rnd (F.decode (half0 a)) (F.decode (half0 b)) (F.decode (half0 c)))
      (fFma F o.rnd (F.decode (half1 a)) (F.decode (half1 b)) (F.decode (half1 c)))
/-- PKMIN (R152). -/
def execPkmin (h : Hdr) (o : AluOps) (s : State) : Out' :=
  let F := pkFmt o.ty
  fpu2 s h o fun a b => pk (fminN F (half0 a) (half0 b), 0) (fminN F (half1 a) (half1 b), 0)
/-- PKMAX (R152). -/
def execPkmax (h : Hdr) (o : AluOps) (s : State) : Out' :=
  let F := pkFmt o.ty
  fpu2 s h o fun a b => pk (fmaxN F (half0 a) (half0 b), 0) (fmaxN F (half1 a) (half1 b), 0)

end Sys2Proof.Machine
end

