-- ==== Sys2Proof/Machine/Issue.lean ====
section
/-! DEFINITION. The issue of a word and of a repeat (R51, R53, R100, R101, R107, R114), and what follows every step: retirement
at a safe point (R336), meeting points (R102), the end of waits, fetch requests (R99), the bench and the active set
(R103 to R105), the age of clusters (R89), and time. -/

namespace Sys2Proof.Machine

/-- What a step performs: a row of the opcode table in a state that is ready for it, or something without one. -/
inductive Pick where
  | exec (i : Instr) (s : State)
  | quiet (s : State)
  deriving DecidableEq, Repr

/-! ### One issue -/

/-- A group's counts after an issue of the lanes `m` in cycle `now` of its partition, the lanes `others` of their slices
being masked (R52, R100, R101, R107, R109, R110, R127). -/
def Group.issued (g : Group) (now : Nat) (m others : Mask) (i : Instr) : Group :=
  let n := g.issues + 1
  let lane (l : Nat) (x : Lane) : Lane :=
    if m.getLsbD l then
      { x with wait := 0, lastIss := n, repAt := if x.sup || x.pc == x.repAt then x.repAt else 0xFFFFFF }
    else if others.getLsbD l then { x with wait := x.wait + 1 } else x
  { g.withLanes lane with issues := n, lastCyc := now, swMask := g.swMask &&& ~~~m, yieldMask := 0, safePt := none,
                          score := g.score ++ fixedDst i }

/-- The instruction uses the core's compute-in-memory array (R114). -/
def arrayUse (i : Instr) : Bool :=
  match i.raw with
  | some r => decide (0xB00 ≤ r.opc.toNat ∧ r.opc.toNat < 0xB10)
  | none => false

/-- The state in which an issued word executes. -/
def State.beginIssue (s : State) (c : Cur) (others : Mask) (i : Instr) : State :=
  let s1 := (s.modGroup c.slot fun g => g.issued (s.part (slotPart c.slot)).cyc c.mask others i).modGrid (s.teamOf c.slot).grid fun g =>
    { g with issued := true }
  let s2 := if arrayUse i then s1.modCore (slotCore c.slot) fun k => { k with arr := slotPart c.slot % 6 } else s1
  { s2 with cur := c }

/-- A trap found at issue. A block whose fetch failed is asked for again after it. -/
def State.issueTrap (s : State) (c : Cur) (pc : Pc) (cause detail addr : Nat) : State :=
  let s1 := (s.modGroup c.slot fun g => { g with ibuf := g.ibuf.filter fun b => b.err.isNone, safePt := none }).modGrid
    (s.teamOf c.slot).grid fun g => { g with issued := true }
  State.trapAt { s1 with cur := c } c.slot c.mask pc c.rep cause detail addr

/-- Lanes of a trapped set reach an ERET of the standard image; the whole set there, the routine ends: at `pc`, a TRAP code
recorded in the cabinet, or with ABORT the grid (R350, R353). -/
def State.stdEret (s : State) (slot : Nat) (m : Mask) (pc : Nat) (code abort : Bool) : State :=
  let g := (s.group slot).onMask m fun x => { x with atEret := true }
  let s1 := s.setGroup slot g
  if !g.eretReady then s1
  else if abort then
    s1.abortGrid (s.team g.tid).grid (g.trapcause ||| 32#32) (g.trappc.zeroExtend 32) g.trapaddr.toNat
  else
    let s2 := s.setGroup slot { g with trappc := BitVec.ofNat 24 pc }.eret
    if code then s2.record 1 0 (s.core (slotCore slot)).num (g.trapcause.zeroExtend 64 ||| (g.trappc.zeroExtend 64 <<< 32))
      (g.trapaddr.zeroExtend 64) else s2

/-- A subgroup acts as the standard image does (R353). -/
def State.issueStd (s : State) (slot : Nat) (u : Sub) : StdAct → Pick
  | .need _ => .quiet s
  | .wait => .quiet s
  | .access w rep =>
    let m := if rep then ((s.group slot).stdLanes u.mask).2 else u.mask
    let c : Cur := { slot, mask := m, pc := BitVec.ofNat 24 u.pc, next := BitVec.ofNat 24 (u.pc + 1), rep := none, live := none,
                     emul := true }
    match instrOf (Raw.ofBits w) with
    | some i => .exec i (s.beginIssue c (u.others ||| (u.mask &&& ~~~m)) i)
    | none => .quiet s
  | .again =>
    .quiet (s.modGroup slot fun g => g.onMask (g.stdLanes u.mask).2 fun x =>
      { x with pc := BitVec.ofNat 24 (u.pc - 1), repk := x.repk + 1 })
  | .leave pc code => .quiet (s.stdEret slot u.mask pc code false)
  | .abort => .quiet (s.stdEret slot u.mask 0 false true)

/-- Issue a subgroup's word (R53, R101). -/
def State.issueSub (s : State) (slot : Nat) (u : Sub) : Pick :=
  let cur (n : Nat) (live : Option (BitVec 96)) : Cur :=
    { slot, mask := u.mask, pc := BitVec.ofNat 24 u.pc, next := BitVec.ofNat 24 (u.pc + n), rep := none, live, emul := false }
  match s.shows (s.group slot) u with
  | .std a => s.issueStd slot u a
  | .fetch _ => .quiet s
  | .trap pc cause d a => .quiet (s.issueTrap (cur 1 none) (BitVec.ofNat 24 pc) cause d a)
  | .word w live =>
    match instrOf (Raw.ofBits w) with
    | some i => .exec i (s.beginIssue (cur (if wSafe w then 2 else 1) live) u.others i)
    | none => .quiet s

/-- Lanes that stand elsewhere in the slices of `m` (R100). -/
def Group.othersOf (g : Group) (m : Mask) : Mask :=
  lanesMask ((g.eligibles.filter fun p =>
    !m.getLsbD p.1 && (List.range 4).any fun j => m.getLsbD (p.1 / 4 * 4 + j)).map Prod.fst)

/-- Issue the next repeat (R51). -/
def State.issueRep (s : State) (slot : Nat) (r : RepSt) : Pick :=
  let k := (s.gridOf slot).k
  let last := r.k == r.countM1
  let cur (n : Nat) : Cur :=
    { slot, mask := r.mask, pc := r.pc, next := BitVec.ofNat 24 (r.pc.toNat + n), rep := some r.k,
      live := if last then r.live else none, emul := false }
  let bad (d : Nat) : Pick := .quiet (s.issueTrap (cur 0) r.pc 1 d r.pc.toNat)
  match stepWord r.word r.k r.sd r.sa r.sb r.sc with
  | none => bad 6
  | some w =>
    match lowest k w (r.live.map (liveBad k)), instrOf (Raw.ofBits w) with
    | some d, _ => bad d
    | none, some i =>
      .exec i (s.beginIssue (cur (if last then (if wSafe w then 3 else 2) else 0)) ((s.group slot).othersOf r.mask) i)
    | none, none => bad 3

/-- Issue from a group: the next repeat of a REP in progress (R115), else its candidate. -/
def State.issue (s : State) (slot : Nat) : Pick :=
  if s.repReady slot then
    match (s.group slot).rep with
    | some r => s.issueRep slot r
    | none => .quiet s
  else match s.candidate slot with
    | some u => s.issueSub slot u
    | none => .quiet s

/-! ### The choice of a group -/

/-- The group holds back for a YIELD (R127). -/
def State.yields (s : State) (slot : Nat) : Bool := decide ((s.part (slotPart slot)).cyc < (s.group slot).yieldTill)

/-- ACTIVE groups of a partition that offer a word, with it, oldest first (R101). -/
def State.offersOf (s : State) (p : Nat) : List (Nat × BitVec 96) :=
  ((sortBy Prod.snd (s.actives p)).map Prod.fst).filterMap fun k => (s.offer k).map fun w => (k, w)

/-- The word uses the core's compute-in-memory array (R114). -/
def wArray (w : BitVec 96) : Bool := decide (0xB00 ≤ wOpc w ∧ wOpc w < 0xB10)

/-- The array serves partition `p` of a core before the others that ask for it: round-robin, after the one served last
(R114). -/
def State.arrayGrants (s : State) (core p : Nat) : Bool :=
  let dist (q : Nat) : Nat := (q + 5 - (s.core core).arr) % 6
  (List.range 6).all fun q => decide (dist p ≤ dist q) || !((s.offersOf (core * 6 + q)).any fun e => wArray e.2)

/-- Ready candidates of a partition, oldest first (R108). -/
def State.readyOf (s : State) (p : Nat) : List (Nat × BitVec 96) :=
  (s.offersOf p).filter fun e => !wArray e.2 || s.arrayGrants (p / 6 % 1024) (p % 6)

/-- The choice of one port (R107): among the ready candidates it executes and the other port has not taken, the oldest that
has not issued for 32 cycles, else the oldest. A group that yields offers its candidate only where no other group has a
ready one (R127). -/
def State.portPick (s : State) (p port : Nat) : Option (Nat × BitVec 96) :=
  let x := s.part p
  let rs := s.readyOf p
  let es := rs.filter fun e => portRuns port e.2 && x.portFree port && x.taken != some e.1 &&
    (!s.yields e.1 || rs.all fun f => f.1 == e.1)
  match es.find? fun e => decide (32 ≤ x.cyc - (s.group e.1).lastCyc) with
  | some e => some e
  | none => es.head?

/-- What a partition issues next: port 0 selects first in its cycle, then port 1 (R107). -/
def State.portChoice (s : State) (p : Nat) : Option (Nat × Nat × BitVec 96) :=
  match if (s.part p).done0 then none else s.portPick p 0 with
  | some e => some (0, e)
  | none => (s.portPick p 1).map fun e => (1, e)

/-- The group is its partition's choice. -/
def State.mayTake (s : State) (slot : Nat) : Bool :=
  match s.portChoice (slotPart slot) with
  | some e => e.2.1 == slot
  | none => false

/-- The port that a partition's issue takes is held for the word's occupancy; the cycle ends with port 1 (R107, R113). -/
def Part.take (x : Part) (port slot : Nat) (w : BitVec 96) : Part :=
  if port = 0 then { x with done0 := true, taken := some slot, busy0 := x.cyc + occupancy w }
  else { x with cyc := x.cyc + 1, done0 := false, taken := none, busy1 := x.cyc + occupancy w }

/-- A cycle of the partition in which neither port takes anything more. -/
def Part.rest (x : Part) : Part := { x with cyc := x.cyc + 1, done0 := false, taken := none }

/-- Note a partition's issue on its port. -/
def State.takePort (s : State) (p : Nat) (e : Nat × Nat × BitVec 96) : State :=
  s.setPart p ((s.part p).take e.1 e.2.1 e.2.2)

/-- Apply `f` to the state a choice works on. -/
def Pick.map (f : State → State) : Pick → Pick
  | .exec i s => .exec i (f s)
  | .quiet s => .quiet (f s)

/-- A partition issues what it has chosen. -/
def State.issuePart (s : State) (p : Nat) : Pick :=
  match s.portChoice p with
  | some e => (s.issue e.2.1).map fun t => t.takePort p e
  | none => .quiet s

/-- Partitions with groups. -/
def State.liveParts (s : State) : List Nat :=
  ((s.groups.filter fun e => decide (e.1 < 196608)).map fun e => slotPart e.1).eraseDups

/-- The default choice: the partitions that have something to issue take turns. -/
def State.nextIssue (s : State) : Option Nat :=
  let ps := s.liveParts.filter fun p => (s.portChoice p).isSome
  ps[s.now / 2 % max 1 ps.length]?

/-! ### After an issue -/

/-- Lanes for which the word has retired: they neither trapped nor wait at it. -/
def retired (c : Cur) (g0 g1 : Group) : Mask :=
  lanesMask ((maskLanes 64 c.mask).filter fun l =>
    let x := g0.lane l
    let y := g1.lane l
    !x.exited && !y.trapHeld && !(y.sup && !x.sup) && !(g1.blocked.any fun b => b.mask.getLsbD l && b.pc == c.pc))

/-- The next repeat, when this one is done (R51). -/
def repNext (c : Cur) (g : Group) : Option RepSt :=
  match c.rep, g.rep with
  | some k, some r => if r.k = k then (if r.countM1 ≤ k then none else some { r with k := k + 1 }) else some r
  | _, r => r

/-- Close the issue in progress: REP goes on, and a SAFE word that has retired is a safe point (R51, R336). -/
def State.closeIssue (s0 s : State) : State :=
  let c := s0.cur
  if c.mask = 0 then { s with cur := Cur.reset }
  else
    let g1 := s.group c.slot
    let m := retired c (s0.group c.slot) g1
    let g2 := { g1 with rep := repNext c g1 }
    let g3 : Group := match c.live with
      | some w => if m ≠ 0 then { g2 with safePt := some (w, m) } else g2
      | none => g2
    { (if g1.st == .free then s else s.setGroup c.slot g3) with cur := Cur.reset }

/-! ### Waits -/

/-- A wait that ends by a condition of the machine: the lanes then execute their word again (R167, R185, R223, R250, R261,
R368). -/
def State.waitOver (s : State) (slot : Nat) (b : Blocked) : Bool :=
  let g := s.group slot
  let core := slotCore slot
  match b.why with
  | .xlate pasid page => !s.waitsFor core pasid page (2 * slot, b.mask)
  | .acq => !g.acqBefore s.fresh s.fresh
  | .peer mark => s.outst.all fun o => match o.who with
    | .fill c _ _ => c != core || decide (mark ≤ o.tag)
    | _ => true
  | .drain mark => g.sq.all fun e => !(e.id < mark)
  | .owned line => !s.ownedLine line
  | .shelf i => ((s.team g.tid).shelf i).st != .loading
  | .reading i => !s.shelfRead g.tid i
  | .release => g.loadsBack s.fresh && g.storesDone s.fresh
  | .room 0 => decide (((s.team g.tid).qtail - (s.team g.tid).qhead).toNat < 112)
  | .room _ => decide ((s.tasks g.tid).length < 1024)
  | _ => false

/-! ### Meeting points -/

/-- Every non-exited thread with this MEET has arrived (R102). -/
def Group.meetDone (g : Group) (bm : Mask) (x : Pc) : Bool :=
  g.lanes.zipIdx.all fun p => p.1.exited || p.1.meet != x || (p.1.pc == x && !p.1.sup && !bm.getLsbD p.2)

/-- Release the meeting points whose threads have all arrived (R102). -/
def Group.meetings (g : Group) : Group :=
  let bm := g.blockMask
  let xs := (((g.lanes.filter Lane.held).map Lane.meet).eraseDups).filter (g.meetDone bm)
  if xs.isEmpty then g
  else { g with lanes := g.lanes.map fun x =>
    if !x.exited && xs.contains x.meet then { x with meet := 0xFFFFFF, since := 0 } else x }

/-- Note since when a lane is held (R355). -/
def Group.stampHeld (g : Group) (now : Nat) : Group :=
  let bm := g.blockMask
  g.withLanes fun l x => if x.held && x.since == 0 && !bm.getLsbD l then { x with since := max 1 now } else x

/-! ### The bench -/

/-- A word waits at its switch marker (R109). -/
def Group.swAt (g : Group) (w : BitVec 96) : Bool := wSw w && wOpc w != 0x008 && g.outstanding

/-- The subgroup can issue, or waits only for a fetch, the scoreboard or its port (R105). -/
def State.subCan (s : State) (g : Group) (u : Sub) : Bool :=
  match s.shows g u with
  | .std .wait => false
  | .word w _ => !g.swAt w && !(g.swWait u.mask && (match instrOf (Raw.ofBits w) with
      | some i => switchClass i
      | none => false))
  | _ => true

/-- A REP in progress waits at the switch marker of its first repeat (R51). -/
def RepSt.swWait (r : RepSt) (g : Group) : Bool := r.k == 0 && wSw r.word && g.outstanding

/-- Some subgroup can issue. -/
def State.canGo (s : State) (slot : Nat) : Bool :=
  let g := s.group slot
  match g.rep with
  | some r => !r.swWait g
  | none => g.subs.any (s.subCan g)

/-- Some subgroup waits at a switch marker, in a synchronisation instruction, or for a translation (R104, R167). -/
def State.benchWait (s : State) (slot : Nat) : Bool :=
  let g := s.group slot
  (g.blocked.any fun b => b.why.sync || (match b.why with
    | .xlate _ _ => true
    | _ => false)) || g.swNow != 0 || (g.subs.any fun u => s.shows g u == .std .wait) || (match g.rep with
    | some r => r.swWait g
    | none => false)

/-- ACTIVE to BENCHED, and BENCHED to the tail of the pending list (R105). -/
def State.bench (s : State) (slot : Nat) : State :=
  match (s.group slot).st with
  | .active => if !s.canGo slot && s.benchWait slot then s.modGroup slot fun g => { g with st := .benched } else s
  | .benched => if s.canGo slot then (s.modGroup slot fun g => { g with st := .pending }).pendGroups [slot] else s
  | _ => s

/-! ### One slot after a step -/

/-- Stores and flushes of a group outlive its slot: they stand under a number of their own until they are performed, and
what refers to them follows. -/
def State.leaveStores (s : State) (slot : Nat) : State :=
  let g := s.group slot
  let r := s.freshId
  let v := slot % 196608 + 196608 * r.1
  let s1 := (r.2.setGroup v { Group.reset with tid := g.tid, gidx := g.gidx, sq := g.sq, flushes := g.flushes }).modTeam g.tid
    fun t => { t with slots := t.slots ++ [v] }
  { s1 with
    outst := s1.outst.map fun o => match o.who with
      | .atomic k e => if k = slot then { o with who := .atomic v e } else o
      | _ => o
    streamReqs := s1.streamReqs.map fun q => if q.slot = slot && q.peer.isNone then { q with slot := v } else q
    cmds := s1.cmds.map fun c => if c.slot = slot && c.tid == g.tid then { c with slot := v } else c }

/-- The group's last thread has exited: the slot is free (R103). -/
def State.reap (s : State) (slot : Nat) : State :=
  let g := s.group slot
  let p := s.part (slotPart slot)
  let s0 := if g.sq.isEmpty && g.flushes.isEmpty then s else s.leaveStores slot
  let s1 := ((s0.forget slot).setGroup slot Group.reset).modTeam g.tid fun t => { t with slots := t.slots.filter (· != slot) }
  if p.pending.contains slot then s1.setPart (slotPart slot) { p with pending := p.pending.filter (· != slot) } else s1

/-- Bring one slot up to date. -/
def State.settleSlot (s : State) (slot : Nat) : State :=
  let g := s.group slot
  if g.st == .stopped then s
  else if slot < 196608 && g.lanes.all fun x => x.exited then s.reap slot
  else if 196608 ≤ slot && g.sq.isEmpty && g.flushes.isEmpty then s.reap slot
  else if g.st == .free then s
  else
    let s := s.selSettle slot
    let g := s.group slot
    let g1 := { g with blocked := g.blocked.filter fun b => !s.waitOver slot b }
    let g2 := (g1.meetings).stampHeld s.now
    let s1 := s.setGroup slot { g2 with swMask := g2.swMask ||| g2.swNow }
    let s2 := match s1.fetchNeed slot with
      | some b => s1.modGroup slot fun g => { g with fetch := g.fetch ++ [b] }
      | none => s1
    s2.bench slot

/-- Fill the active set of a partition, and note while nothing is pending (R105, R106). A cycle of the partition passes
when its ports have nothing left to take. -/
def State.settlePart (s : State) (p : Nat) : State :=
  let s1 := s.fillActive p 8
  let s2 := if (s1.part p).pending.isEmpty then s1.setPart p { s1.part p with lastEnter := s1.now } else s1
  if (s2.portChoice p).isNone then s2.setPart p (s2.part p).rest else s2

/-! ### The device after a step -/

/-- The age of a cluster starts when it is the dispatcher's first unplaced request (R89). -/
def State.settleAge (s : State) : State :=
  if s.grids.any fun g => decide (1 < g.k.clw * g.k.clh) && g.ageUs == 0 && !g.faulted && decide (g.started < g.l.nteams) then
    match s.topRequest with
    | some (.grid n) =>
      let g := s.grid n
      if 1 < g.k.clw * g.k.clh ∧ g.ageUs = 0 then s.modGrid n fun g => { g with ageUs := s.us + 1 } else s
    | _ => s
  else s

/-- The hub goes on with what it has kept: accesses at the host port, writes to records, answers to launch instructions, and
complete rounds. -/
def State.settleHub (s0 : State) : State :=
  let s := if s0.atPort.isEmpty then s0 else s0.hostDrain
  let s1 := s.hubDrain s.hubWrites.length
  (s1.hubReqs.foldl State.hubRetry s1).settleRounds

/-- An agent that may still take up an answer of a peer, by its number as a reader less 4000: a group that fetches, the
hub, or a command or node. -/
def State.agentLives (s : State) (who : Nat) : Bool :=
  if who % 2 = 0 then !(s.group (who / 2)).fetch.isEmpty
  else if who = 1 then
    !s.grids.isEmpty || !s.runs.isEmpty || !s.hubReqs.isEmpty || s.queues.any fun q => !q.2.latched.isEmpty || !q.2.busy.isEmpty
  else (s.cmds.any fun c => c.id == who / 2) || s.nodes.any fun n => n.id == who / 2

/-- Answers nobody waits for any more go. -/
def State.settlePeers (s : State) : State :=
  if s.peerGot.isEmpty then s
  else { s with peerGot := s.peerGot.filter fun e => decide (e.core < 4000) || s.agentLives (e.core - 4000) }

/-- Time: each step is a cycle; the hub's timer follows the clock (R378, R379). -/
def State.tick (s : State) : State :=
  { s with now := s.now + 1, us := if (s.now + 1) % s.clockMHz = 0 then s.us + 1 else s.us }

/-- Everything that follows a step without being a row of the table; `s0` is the state before it. -/
def State.settle (s0 s : State) : State :=
  let s1 := State.closeIssue s0 s
  let s2 := (s1.groups.map Prod.fst).foldl State.settleSlot s1
  let s3 := s2.liveParts.foldl State.settlePart s2
  (s3.settleHub.settleAge.settlePeers).tick

/-! ### Loading one word -/

/-- A kernel of eight threads that may name every register and cell. -/
def Kernel.oneWord : Kernel :=
  { Kernel.none with codelen := 16, regs := 32, uregs := 32, cells := 64 }

/-- What must follow a word in memory for it to issue: a LIVE word after SAFE, a target after REP (R46, R49). -/
def followOf (w : BitVec 96) : BitVec 96 :=
  if wSafe w then 0xFFF000000000000000000000#96
  else if wOpc w = 0x008 then 0x100700000000000000000000#96 else 0

/-- One running team whose only group stands at the word, buffered, and is chosen to issue next (log entry 7). -/
def State.withWord (s : State) (w : BitVec 96) : State :=
  let n := s.nextGrid
  let g : Grid := { Grid.none with num := n, l := { Launch.none with nteams := 1 }, k := Kernel.oneWord, src := .queue 0 0,
                                   st := .running, params := some [], started := 1 }
  let t : Team := { Team.reset with used := true, grid := n, slots := [0], st := .running }
  let b : IBuf := { sup := false, blk := 0, words := w :: followOf w :: List.replicate 14 0, err := none }
  let u : Group := { Group.reset with st := .active, width := 8, lanes := List.replicate 8 { Lane.reset with pc := 0 },
                                      trapvec := BitVec.ofNat 52 (s.fld 0x160020 0 52), ibuf := [b] }
  State.setGroup (State.setTeam { s with agenda := [.issue 0], grids := g :: s.grids, nextGrid := n + 1, halted := false } 0 t) 0 u

end Sys2Proof.Machine
end

