-- ==== Sys2Proof/WellFormed.lean ====
section
/-! DEFINITION. Which instruction terms are well formed: those a legal word can hold. -/

namespace Sys2Proof

/-- The row is a word of a program, not a step of the device. -/
def Instr.isWord (i : Instr) : Bool := i.raw.isSome

/-- No condition of R53 that can be judged from the word alone is broken. -/
def Instr.wellFormed (i : Instr) : Bool := i.isWord && i.details.isEmpty

end Sys2Proof
end

