-- ==== Sys2Proof/Machine/Order.lean ====
section
/-! DEFINITION. Which step happens next (log entry 2): the agenda's head, or else the machine's own order, in which issues and
the internal steps whose place in the machine is occupied take turns. Steps that the outside world takes (the host, peers,
errors, the scrubber, power) come from the agenda alone. -/

namespace Sys2Proof.Machine

/-! ### Internal steps that something stands ready for -/

/-- Steps a wait of a group calls for. -/
def State.waitSteps (s : State) (slot : Nat) (b : Blocked) : List Instr :=
  let lim := s.fld 0x160018 0 32 * 1024
  let dog := lim != 0 && b.why.sync && decide (lim ≤ s.now - b.since)
  (match b.why with
   | .cell k => if s.waiters.any fun w => w.ticket == k && (w.sat.isSome || w.wrong != 0) then [.cellWaiterWake slot k] else []
   | .sleep w => if w ≤ s.now then [.sleepExpire slot] else []
   | .waita w => (w.lanes.filter fun x => b.mask.getLsbD x.lane).map fun x => .waitaReread slot x.lane
   | .station _ _ _ => [.stationMacrosGranted slot]
   | .unstat _ => [.unstatRelease slot]
   | _ => []) ++
  (if dog then (maskLanes 64 b.mask).take 1 |>.map fun l => .watchdogExpire slot l else [])

/-- Lanes held beyond the watchdog's limit. -/
def State.heldSteps (s : State) (slot : Nat) : List Instr :=
  let lim := s.fld 0x160018 0 32 * 1024
  if lim = 0 then []
  else ((s.group slot).lanes.zipIdx.filter fun p => p.1.held && p.1.since != 0 && decide (lim ≤ s.now - p.1.since)).map
    fun p => .watchdogExpire slot p.2

/-- Steps of one group. -/
def State.groupSteps (s : State) (slot : Nat) : List Instr :=
  let g := s.group slot
  g.fetch.map (fun b => .fetchBlockArrive slot b.2 true) ++
  g.pend.flatMap (fun p => if p.ldx.isSome then p.lanes.map fun x => .ldxDatumArrive slot p.id x.lane
    else [.switchResultWrite slot p.id (BitVec.allOnes 64)]) ++
  (if g.sq.isEmpty then [] else [.storeQueuePerform slot]) ++
  (if g.fences.isEmpty then [] else [.fenceComplete slot]) ++
  (if g.flushes.isEmpty then [] else [.flushComplete slot]) ++
  (if g.score.isEmpty then [] else [.fixedLatencyResultWrite slot]) ++
  g.blocked.flatMap (s.waitSteps slot) ++ s.heldSteps slot ++
  (if (s.team g.tid).st == .stopping && g.st != .free && g.st != .stopped then [.groupStop slot] else [])

/-- Steps of one command. -/
def cmdSteps (c : Cmd) : List Instr :=
  let acc := c.st == .accepted
  match c.kind with
  | .wload => [.wloadComplete c.tid c.aux0]
  | .ffpbnd => if acc then [.ffpbndCheckStart c.tid c.id] else [.engineGranuleBoundary c.id, .ffpbndCheckEnd c.tid c.id]
  | .ffpfch => if acc then [.ffpfchGatherStart c.tid c.id] else [.ffpfchGatherEnd c.tid c.id]
  | .copy => if acc then [.copyStart c.id] else [.engineGranuleBoundary c.id, .copyFinish c.id]
  | .gather => if acc then [.gatherStart c.id] else [.engineGranuleBoundary c.id, .gatherFinish c.id]
  | .nodeCopy => if acc then [.copyStart c.id] else [.engineGranuleBoundary c.id, .copyFinish c.id]
  | .tile => if acc then [.tileTaskStart c.id] else [.engineGranuleBoundary c.id, .tileTaskFinish c.id]

/-- Steps of one team. -/
def State.teamSteps (s : State) (tid : Nat) : List Instr :=
  let t := s.team tid
  (if s.teamOver tid then [.teamEnd tid] else []) ++
  (if t.st == .stopping then
    (if t.slots.all fun k => (s.group k).st == .stopped || (s.group k).isOver then [.contextSave tid] else []) ++
    (if !t.hard && ((t.byPrectl && (s.reg 0x160028).getLsbD 34) || decide (s.fld 0x160010 0 32 ≤ s.now - t.stopAt)) then
      [.hardPreempt tid] else [])
   else []) ++
  (if s.prectlWaits tid && (s.stopCluster tid false).isSome then [.teamStopRequest tid] else [])

/-- Steps of one grid. -/
def State.gridSteps (s : State) (g : Grid) : List Instr :=
  let cl := decide (1 < g.k.clw * g.k.clh) && !g.faulted && decide (g.started < g.l.nteams)
  (if s.gridOver g then [.gridRetire g.num] else []) ++
  (if g.flushed && g.waitAck != 0 && decide (s.fld 0x190008 0 32 ≤ s.now - g.flushAt) then [.fabricFlushTimeout g.num] else []) ++
  (if cl then
    (if g.rect.isEmpty then [.clusterReserve g.num 0]
     else (g.rect.filter fun c => !g.resv.contains c).map fun c => .clusterReserve g.num c) ++
    (if g.ageUs != 0 && !g.aged && decide (s.fld 0x120000 0 32 < s.us - (g.ageUs - 1)) then [.gangAgeExpire g.num] else [])
   else [])

/-- Steps of the dispatcher (R86): the placement that comes first, and a stop that it needs. -/
def State.dispatchSteps (s : State) : List Instr :=
  if s.requests.isEmpty then []
  else
    (match s.best with
     | some (.grid n) => [.teamStart n]
     | some (.resume t) => [.teamResume t]
     | none => []) ++
    ((s.victims.filter fun i => (s.stopCluster i false).isSome).map fun i => .teamStopRequest i)

/-- Steps of one launch queue. -/
def State.queueSteps (s : State) (q : Nat) : List Instr :=
  match if s.qEn q then s.qEntry q else none with
  | none => []
  | some d => match bits d 0 4 with
    | 1 => [.queueGraphEntry q]
    | 2 => [.queueSemaphoreEntry q]
    | 3 => [.queueSealEntry q]
    | 4 => [.queueFreeEntry q]
    | _ => [.queueKernelEntry q]

/-- Steps of one run. -/
def State.runSteps (s : State) (r : Run) : List Instr :=
  r.st.zipIdx.flatMap fun p => match p.1 with
    | .waiting => if s.nodeReady r p.2 then [.graphNodeStart r.num p.2] else []
    | .ending _ => [.graphNodeComplete r.num p.2]
    | _ => []

/-- Steps of one near-memory call. -/
def State.nodeSteps (s : State) (n : NNode) : List Instr :=
  n.parts.flatMap (fun p =>
    if p.fin then []
    else (if !p.started && p.cause == 0 && !n.stopped then [.nodeStackStart n.id p.stack] else []) ++
      (if p.posted then [.nodeGranule n.id p.stack] else []) ++
      (if s.nmEnded n p then [.nodeStackFinish n.id p.stack] else [])) ++
  (if n.ep == 2 then (n.parts.take 1).map fun p => .nodeGranule n.id p.stack else []) ++
  (if n.parts.all fun p => p.fin then [.nodeComplete n.id] else []) ++
  (if n.stopped then [.nodeResume n.id] else [])

/-- Steps of one channel (R269). -/
def State.chanSteps (s : State) (k c : Nat) : List Instr :=
  let x := s.chan k c
  (if s.phaseMay k c .preIn then [.channelEnterPreIn k c] else []) ++
  (if s.phaseMay k c .swIn then [.channelEnterSwIn k c] else []) ++
  (if x.phase == .preIn && s.phaseMay k c .normal then [.channelAbortPreIn k c] else []) ++
  (if s.phaseMay k c .compute then [.channelEnterCompute k c] else []) ++
  (if x.phase == .compute && !x.work.isEmpty then [.computeStep k c] else []) ++
  (if s.phaseMay k c .preOut then [.channelEnterPreOut k c] else []) ++
  (if s.phaseMay k c .swOut then [.channelEnterSwOut k c] else []) ++
  (if x.phase == .swOut && s.phaseMay k c .normal then [.channelEnterNormal k c] else []) ++
  (if !x.queue.isEmpty && (x.phase == .normal || x.phase == .preIn) then [.normalRequestComplete k c] else [])

/-- Steps of the placement engine and of the clocks (R179, R180, R376). -/
def State.placeSteps (s : State) : List Instr :=
  (if s.freeFrames < 2048 && !s.evicting then [.evictionStart] else []) ++
  (if s.evicting then (match s.evictNext with
    | some p => [.pageMove p 8]
    | none => []) else []) ++
  (s.pages.filterMap fun e => match e.2.place with
    | .hbm k => if e.2.due && !s.pageOwned e.1 && !s.isBound e.1 then (s.freeStack (if k < 4 then 1 else 0)).map (.pageMove e.1) else none
    | .cap p => if e.2.prom && !s.pageOwned e.1 then (s.anyStack (p / 4)).map (.pagePromote e.1) else none
    | .none => none) ++
  (if s.epoch < s.now / 2 ^ 20 then [.placementEpochEnd] else []) ++
  (if s.hour < s.us / 3600000000 then [.correctedErrorHourEnd] else [])

/-- Partitions whose pending list has waited 1,024 cycles (R106). -/
def State.rotateSteps (s : State) : List Instr :=
  (s.parts.filter fun e => !e.2.pending.isEmpty && decide (1024 ≤ s.now - e.2.lastEnter)).map fun e => .activeRotation e.1

/-- Every internal step that something stands ready for. -/
def State.internal (s : State) : List Instr :=
  s.groups.flatMap (fun e => s.groupSteps e.1) ++ s.rotateSteps ++ s.cmds.flatMap cmdSteps ++
  (s.walks.filter fun w => w.st == .walk).map (fun w => .translationWalkDone w.core w.pasid w.page) ++
  s.invals.map (fun v => .invalidationComplete v.id) ++
  s.streamReqs.map (fun q => .orderedStreamRequest q.id) ++
  (s.streams.filter fun r => decide (2 ^ 24 ≤ s.now - r.stamp)).map (fun r => .streamRecordTimeout (s.slice r.loc) r.loc) ++
  s.teams.flatMap (fun e => s.teamSteps e.1) ++ s.grids.flatMap s.gridSteps ++ s.dispatchSteps ++
  s.qLive.flatMap s.queueSteps ++ s.runs.flatMap s.runSteps ++
  (s.mboxes.filter fun e => !e.2.held.isEmpty && e.2.running.isNone).map (fun e => .mailboxArrival e.1) ++
  s.nodes.flatMap s.nodeSteps ++
  ((s.msgs.map fun m => (m.dst, m.src)).eraseDups).map (fun m => .walkMessageReceive m.1 m.2) ++
  (if s.nodes.isEmpty then [] else (List.range 8).filterMap fun k => (s.stopChoice k).map .nodeStop) ++
  s.chans.flatMap (fun e => s.chanSteps (e.1 / 32) (e.1 % 32)) ++ s.placeSteps

/-! ### The choice -/

/-- The internal step whose turn it is. -/
def State.nextInternal (s : State) : Option Instr :=
  let es := s.internal
  es[s.now / 2 % max 1 es.length]?

/-- An answered wait at a cell. -/
def State.answered (s : State) : Option Waiter := s.waiters.find? fun w => w.sat.isSome || w.wrong != 0

/-- A result of the group whose value stands ready in every lane. -/
def Group.knownPend (g : Group) : Option Pend :=
  g.pend.find? fun p => p.ldx.isNone && p.lanes.all fun x => match x.datum with
    | .words _ => true
    | _ => false

/-- The end of an answered wait, after the group's results that stand ready: a subgroup that waits only for one of them
at a marker fuses with the subgroup that wakes (R101, R109, R304). -/
def State.wakeStep (s : State) (w : Waiter) : Instr :=
  match (s.group w.slot).knownPend with
  | some p => .switchResultWrite w.slot p.id (BitVec.allOnes 64)
  | none => .cellWaiterWake w.slot w.ticket

/-- The machine's own order: an answered wait ends before anything else; internal steps first at even cycles, issues
first at odd ones. -/
def State.ownChoice (s : State) : Pick :=
  let go (k : Option Nat) : Pick := match k with
    | some p => s.issuePart p
    | none => .quiet s
  match s.answered with
  | some w => .exec (s.wakeStep w) s
  | none =>
  if s.now % 2 = 0 then
    match s.nextInternal with
    | some i => .exec i s
    | none => go s.nextIssue
  else
    match s.nextIssue with
    | some p => s.issuePart p
    | none => match s.nextInternal with
      | some i => .exec i s
      | none => .quiet s

/-- A macro's residue check fails: it is mapped out of compute mode, and the map is reported (R220, R376). -/
def State.macroOut (s : State) (core mac : Nat) : State :=
  if 200 ≤ core ∨ 32 ≤ mac ∨ (s.core core).mapout.contains mac then s
  else
    let s1 := s.modCore core fun c => { c with mapout := mac :: c.mapout }
    (s1.setFld 0x1B0008 16 16 (s1.fld 0x1B0008 16 16 + 1)).record 4 1 (s1.core core).num (BitVec.ofNat 64 mac) 0

/-- Set or end an uncorrectable error (R354). -/
def poisonSet (l : List Nat) (k : Nat) (on : Bool) : List Nat :=
  let r := l.filter (· != k)
  if on then k :: r else r

/-- One choice of the agenda. A row of the table that is a word of a program is no step of the device. -/
def State.choose (s : State) : Action → Pick
  | .event i => if i.isWord then .quiet s else .exec i s
  | .issue slot => if s.mayTake slot then s.issuePart (slotPart slot) else .quiet s
  | .pass cycles us => .quiet { s with now := s.now + cycles, us := s.us + us }
  | .evict core key => .quiet (s.evictLine core (key / 128))
  | .sector id off => .quiet (s.byCmd id fun s => s.loadEarly id (off / 32))
  | .poison sector on => .quiet { s with poison := poisonSet s.poison sector on }
  | .poisonScr core off on =>
    .quiet { s with poisonScr := poisonSet s.poisonScr ((core * 2 ^ 21 + off) / 32) on }
  | .residue core mac => .quiet (s.macroOut core mac)
  | .tearDown pasid => .quiet (s.tearDown pasid)
  | .mask vector => .quiet { s with msixMask := s.msixMask ||| (1#72 <<< vector) }
  | .boot images => .quiet (s.boot images)

/-- What the next step performs. -/
def State.pick (s : State) : Pick :=
  match s.agenda with
  | a :: r => State.choose { s with agenda := r } a
  | [] => s.ownChoice

/-- With the clocks stopped only a cold reset happens (R379). -/
def State.stuck (s : State) : Bool :=
  s.halted && match s.agenda.head? with
    | some (.event .coldReset) => false
    | some (.boot _) => false
    | _ => true

end Sys2Proof.Machine
end

