-- ==== Sys2Proof/Machine/Special.lean ====
section
/-! DEFINITION. The special functions of class 0x5 (R153). FRCP and FSQRT round correctly. For the other
functions, outside the listed cases, the part fixes the pattern: it is an open value kept within the
table's error bound. The bound is taken around a fixed-point enclosure of the exact value; where the
open pattern falls outside, the rounded middle of the enclosure stands for it (log entry 3). -/

namespace Sys2Proof.Machine

/-! ### Fixed-point enclosures: integers over 2^P, each with an error far below the bounds -/

/-- Fraction bits of the enclosures. -/
def fixP : Nat := 340
/-- Error allowed on either side of an enclosure, in units of 2^−P. -/
def fixEps : Int := 2 ^ 150

/-- num / den × 2^e in fixed point, rounded down. -/
def toFix (neg : Bool) (num den : Nat) (e : Int) : Int :=
  let fr := fracOf num den (e + fixP)
  if neg then -(fr.1 / fr.2 : Nat) else (fr.1 / fr.2 : Nat)
def fixMul (a b : Int) : Int := (a * b).fdiv (2 ^ fixP)
def fixOne : Int := 2 ^ fixP

/-- Σ x^k / k! from k on, `t` the current term, with fuel. -/
def expSum (x : Int) : Nat → Nat → Int → Int
  | 0, _, _ => 0
  | n + 1, k, t => t + expSum x n (k + 1) ((fixMul t x).fdiv (k + 1))
/-- e^x for 0 ≤ x ≤ 24. -/
def fixExp (x : Int) : Int := expSum x 260 0 fixOne
/-- Σ z^(2k+1) / (2k+1), sign `sg` alternating when −1: atanh or atan of z. -/
def atSum (sg z2 : Int) : Nat → Nat → Int → Int
  | 0, _, _ => 0
  | n + 1, k, p => p.fdiv (2 * k + 1) + atSum sg z2 n (k + 1) (sg * fixMul p z2)
def fixAtanh (z : Int) : Int := atSum 1 (fixMul z z) 220 0 z
def fixAtan (z : Int) : Int := atSum (-1) (fixMul z z) 160 0 z
/-- ln 2 = 2 atanh(1/3); π = 16 atan(1/5) − 4 atan(1/239). -/
def fixLn2 : Int := 2 * fixAtanh (fixOne.fdiv 3)
def fixPi : Int := 16 * fixAtan (fixOne.fdiv 5) - 4 * fixAtan (fixOne.fdiv 239)
/-- Alternating series of sine or cosine: term `t` of degree `k`. -/
def trigSum (x2 : Int) : Nat → Nat → Int → Int
  | 0, _, _ => 0
  | n + 1, k, t => t + trigSum x2 n (k + 2) (-((fixMul t x2).fdiv ((k + 1) * (k + 2))))
/-- The angle reduced to [0, 2π). -/
def fixReduce (x : Int) : Int := x - (x.fdiv (2 * fixPi)) * (2 * fixPi)
def fixSin (x : Int) : Int := let r := fixReduce x; trigSum (fixMul r r) 60 1 r
def fixCos (x : Int) : Int := let r := fixReduce x; trigSum (fixMul r r) 60 0 fixOne

/-- The enclosure's middle as an exact value. -/
def fixExact (x : Int) : Exact := .fin (decide (x < 0)) x.natAbs 1 (-(fixP : Int))

/-- One unit in the last place of a fixed-point value in FP32, in units of 2^−P (R153). -/
def fixUlp (x : Int) : Int :=
  if x = 0 then 2 ^ (fixP - 149)
  else 2 ^ ((fmt32.unit x.natAbs 1 (-(fixP : Int))) + fixP).toNat

/-- The open pattern of function `fn` on `a`, kept within `bound` of the enclosure's middle `x`. -/
def bounded (fn : Nat) (a : Word) (x bound : Int) : Word :=
  let c := Config.special fn a
  match f32 c with
  | .fin n num den e =>
    let v := toFix n num den e
    if (v - x).natAbs ≤ (bound + fixEps).toNat then c else (toF32 .rne (fixExact x)).1
  | _ => (toF32 .rne (fixExact x)).1

/-- A finite operand in fixed point. -/
def fixOf (a : Word) : Int :=
  match f32 a with
  | .fin n num den e => toFix n num den e
  | _ => 0

/-- ⌊√n⌋ by Newton steps with fuel. -/
def isqrtGo (n : Nat) : Nat → Nat → Nat
  | 0, x => x
  | k + 1, x => let y := (x + n / x) / 2; if y < x then isqrtGo n k y else x
def isqrt (n : Nat) : Nat := if n = 0 then 0 else isqrtGo n 2000 (2 ^ (Nat.log2 n / 2 + 1))

/-- A square root with enough bits and a sticky bit for one rounding. -/
def exactSqrt : Exact → Exact
  | .fin n num _ e =>
    let e' := if e % 2 = 0 then e else e - 1
    let m := (if e % 2 = 0 then num else 2 * num) * 2 ^ 120
    let r := isqrt m
    .fin n (2 * r + (if r * r = m then 0 else 1)) 1 (e' / 2 - 61)
  | x => x

/-- A power of two and its exponent. -/
def pow2Of : Exact → Option Int
  | .fin false num 1 e => if num ≠ 0 ∧ 2 ^ Nat.log2 num = num then some (Nat.log2 num + e) else none
  | _ => none
/-- An exact integer. -/
def intOf : Exact → Option Int
  | .fin n num den e =>
    let fr := fracOf num den e
    if fr.1 % fr.2 = 0 then some (if n then -(fr.1 / fr.2 : Nat) else (fr.1 / fr.2 : Nat)) else none
  | _ => none
/-- 2^k as FP32. -/
def pow2Word (k : Int) : Word := (toF32 .rne (.fin false 1 1 k)).1
def inf32 (neg : Bool) : Word := if neg then 0xFF800000 else 0x7F800000
def zero32 (neg : Bool) : Word := if neg then 0x80000000 else 0
def one32 (neg : Bool) : Word := if neg then 0xBF800000 else 0x3F800000

/-- 1 / a, correctly rounded (R153). -/
def frcp (r : Rnd) (a : Word) : Word × Fl :=
  match f32 a with
  | .nan => (nan32, 0)
  | .inf n => (zero32 n, 0)
  | .fin n num den e =>
    if num = 0 then (inf32 n, flDZ) else toF32 r (Exact.quot (.fin false 1 1 0) (.fin n num den e))

/-- 1 / √a within 1 ulp; exact for 4^k (R153). -/
def frsq (a : Word) : Word × Fl :=
  match f32 a with
  | .nan => (nan32, 0)
  | .inf n => if n then (nan32, flIV) else (0, 0)
  | .fin n num den e =>
    if num = 0 then (inf32 n, flDZ)
    else if n then (nan32, flIV)
    else match pow2Of (.fin n num den e) with
      | some k =>
        if k % 2 = 0 then (pow2Word (-(k / 2)), 0)
        else let x : Int := (isqrt (2 ^ (2 * fixP + 400) / (toFix false num den (e + 400)).toNat * 2 ^ fixP) : Nat)
             (bounded 0x11 a x (fixUlp x), flNX)
      | none =>
        let x : Int := (isqrt (2 ^ (2 * fixP + 400) / (toFix false num den (e + 400)).toNat * 2 ^ fixP) : Nat)
        (bounded 0x11 a x (fixUlp x), flNX)

/-- √a, correctly rounded (R153). -/
def fsqrt (r : Rnd) (a : Word) : Word × Fl :=
  match f32 a with
  | .nan => (nan32, 0)
  | .inf n => if n then (nan32, flIV) else (inf32 false, 0)
  | .fin n num den e =>
    if num = 0 then (zero32 n, 0)
    else if n then (nan32, flIV)
    else toF32 r (exactSqrt (.fin n num den e))

/-- 2^x in fixed point for −180 < x < 128. -/
def fixPow2 (x : Int) : Int :=
  let k := x.fdiv fixOne
  let m := fixExp (fixMul (x - k * fixOne) fixLn2)
  if 0 ≤ k then m * 2 ^ k.toNat else m.fdiv (2 ^ (-k).toNat)

/-- 2^x in fixed point for x below 128; 2^−180 stands for every smaller value. -/
def fixTiny (x : Int) : Int := if x ≤ -(180 * fixOne) then 2 ^ (fixP - 180) else fixPow2 x

/-- 1 / (1 + e^x) in fixed point for 0 ≤ x; 2^−186 stands for every smaller value. -/
def fixTail (x : Int) : Int :=
  if 128 * fixOne ≤ x then 2 ^ (fixP - 186)
  else
    let p := fixExp (x.fdiv 8)
    let q := fixMul p p
    let r := fixMul q q
    (fixOne * fixOne).fdiv (fixMul r r + fixOne)

/-- 2^a within 2 ulp (R153). The same patterns lie within the bound for every a of at most −180. -/
def fex2 (a : Word) : Word × Fl :=
  match f32 a with
  | .nan => (nan32, 0)
  | .inf n => (if n then 0 else inf32 false, 0)
  | .fin n num den e =>
    let x := toFix n num den e
    if 128 * fixOne ≤ x then (inf32 false, flOF)
    else match intOf (.fin n num den e) with
      | some k =>
        if -149 ≤ k ∧ k ≤ 127 then (pow2Word k, 0)
        else (bounded 0x13 a (fixTiny x) (2 * fixUlp (fixTiny x)), flNX)
      | none => (bounded 0x13 a (fixTiny x) (2 * fixUlp (fixTiny x)), flNX)

/-- log2 a: 2 ulp outside [0.5, 2], absolute 2^−22 inside (R153). -/
def flg2 (a : Word) : Word × Fl :=
  match f32 a with
  | .nan => (nan32, 0)
  | .inf n => if n then (nan32, flIV) else (inf32 false, 0)
  | .fin n num den e =>
    if num = 0 then (inf32 true, flDZ)
    else if n then (nan32, flIV)
    else match pow2Of (.fin n num den e) with
      | some k => ((toF32 .rne (Exact.ofInt k)).1, 0)
      | none =>
        let k := ilog2 num den + e
        let m := toFix false num den (e - k)
        let z := ((m - fixOne) * fixOne).fdiv (m + fixOne)
        let x := k * fixOne + ((2 * fixAtanh z) * fixOne).fdiv fixLn2
        let inside := k = -1 ∨ k = 0
        (bounded 0x14 a x (if inside then 2 ^ (fixP - 22) else 2 * fixUlp x), flNX)

/-- sin a, absolute error 2^−22 (R153). -/
def fsin (a : Word) : Word × Fl :=
  match f32 a with
  | .nan => (nan32, 0)
  | .inf _ => (nan32, flIV)
  | .fin n num _ _ =>
    if num = 0 then (zero32 n, 0) else (bounded 0x15 a (fixSin (fixOf a)) (2 ^ (fixP - 22)), flNX)

/-- cos a, absolute error 2^−22 (R153). -/
def fcos (a : Word) : Word × Fl :=
  match f32 a with
  | .nan => (nan32, 0)
  | .inf _ => (nan32, flIV)
  | .fin _ num _ _ =>
    if num = 0 then (one32 false, 0) else (bounded 0x16 a (fixCos (fixOf a)) (2 ^ (fixP - 22)), flNX)

/-- tanh a within 2 ulp (R153). -/
def ftanh (a : Word) : Word × Fl :=
  match f32 a with
  | .nan => (nan32, 0)
  | .inf n => (one32 n, 0)
  | .fin n num den e =>
    let x := toFix false num den e
    if num = 0 then (zero32 n, 0)
    else if 10 * fixOne ≤ x then (one32 n, 0)
    else
      let y := fixExp (2 * x)
      let t := ((y - fixOne) * fixOne).fdiv (y + fixOne)
      (bounded 0x17 a (if n then -t else t) (2 * fixUlp t), flNX)

/-- 1 / (1 + e^−a) within 2 ulp or 2^−24, whichever is larger (R153). -/
def fsigm (a : Word) : Word × Fl :=
  match f32 a with
  | .nan => (nan32, 0)
  | .inf n => (if n then 0 else one32 false, 0)
  | .fin n num den e =>
    if num = 0 then (0x3F000000, 0)
    else
      let y := fixTail (toFix false num den e)
      let v := if n then y else fixOne - y
      (bounded 0x18 a v (max (2 * fixUlp v) (2 ^ (fixP - 24))), flNX)

/-- FRCP (R153). -/
def execFrcp (h : Hdr) (o : AluOps) (s : State) : Out' := fpu1 s h o (frcp o.rnd)
/-- FRSQ (R153). -/
def execFrsq (h : Hdr) (o : AluOps) (s : State) : Out' := fpu1 s h o frsq
/-- FSQRT (R153). -/
def execFsqrt (h : Hdr) (o : AluOps) (s : State) : Out' := fpu1 s h o (fsqrt o.rnd)
/-- FEX2 (R153). -/
def execFex2 (h : Hdr) (o : AluOps) (s : State) : Out' := fpu1 s h o fex2
/-- FLG2 (R153). -/
def execFlg2 (h : Hdr) (o : AluOps) (s : State) : Out' := fpu1 s h o flg2
/-- FSIN (R153). -/
def execFsin (h : Hdr) (o : AluOps) (s : State) : Out' := fpu1 s h o fsin
/-- FCOS (R153). -/
def execFcos (h : Hdr) (o : AluOps) (s : State) : Out' := fpu1 s h o fcos
/-- FTANH (R153). -/
def execFtanh (h : Hdr) (o : AluOps) (s : State) : Out' := fpu1 s h o ftanh
/-- FSIGM (R153). -/
def execFsigm (h : Hdr) (o : AluOps) (s : State) : Out' := fpu1 s h o fsigm

end Sys2Proof.Machine
end

