-- ==== Sys2Proof/Machine/Dispatch.lean ====
section
/-! DEFINITION. One arm per row of the opcode table, each one call of its meaning. -/

namespace Sys2Proof.Machine

def exec (i : Instr) (s : State) : Host.Outcome State Fault Refusal :=
  match i with
  | .nop h o => Sys2Proof.Machine.execNop h o s
  | .bra h o => Sys2Proof.Machine.execBra h o s
  | .brx h o => Sys2Proof.Machine.execBrx h o s
  | .call h o => Sys2Proof.Machine.execCall h o s
  | .callx h o => Sys2Proof.Machine.execCallx h o s
  | .ret h o => Sys2Proof.Machine.execRet h o s
  | .exit h o => Sys2Proof.Machine.execExit h o s
  | .meetSet h o => Sys2Proof.Machine.execMeetSet h o s
  | .meetSave h o => Sys2Proof.Machine.execMeetSave h o s
  | .meetRestore h o => Sys2Proof.Machine.execMeetRestore h o s
  | .yield h o => Sys2Proof.Machine.execYield h o s
  | .sleep h o => Sys2Proof.Machine.execSleep h o s
  | .trap h o => Sys2Proof.Machine.execTrap h o s
  | .eret h o => Sys2Proof.Machine.execEret h o s
  | .csrr h o => Sys2Proof.Machine.execCsrr h o s
  | .csrw h o => Sys2Proof.Machine.execCsrw h o s
  | .iadd h o => Sys2Proof.Machine.execIadd h o s
  | .iadd3 h o => Sys2Proof.Machine.execIadd3 h o s
  | .isub h o => Sys2Proof.Machine.execIsub h o s
  | .imul h o => Sys2Proof.Machine.execImul h o s
  | .imulh h o => Sys2Proof.Machine.execImulh h o s
  | .imad h o => Sys2Proof.Machine.execImad h o s
  | .imadw h o => Sys2Proof.Machine.execImadw h o s
  | .imin h o => Sys2Proof.Machine.execImin h o s
  | .imax h o => Sys2Proof.Machine.execImax h o s
  | .iabs h o => Sys2Proof.Machine.execIabs h o s
  | .ineg h o => Sys2Proof.Machine.execIneg h o s
  | .isad h o => Sys2Proof.Machine.execIsad h o s
  | .lea h o => Sys2Proof.Machine.execLea h o s
  | .idp4 h o => Sys2Proof.Machine.execIdp4 h o s
  | .idp2 h o => Sys2Proof.Machine.execIdp2 h o s
  | .land h o => Sys2Proof.Machine.execLand h o s
  | .lor h o => Sys2Proof.Machine.execLor h o s
  | .lxor h o => Sys2Proof.Machine.execLxor h o s
  | .lnot h o => Sys2Proof.Machine.execLnot h o s
  | .logt h o => Sys2Proof.Machine.execLogt h o s
  | .shl h o => Sys2Proof.Machine.execShl h o s
  | .shr h o => Sys2Proof.Machine.execShr h o s
  | .sar h o => Sys2Proof.Machine.execSar h o s
  | .rot h o => Sys2Proof.Machine.execRot h o s
  | .fshl h o => Sys2Proof.Machine.execFshl h o s
  | .popc h o => Sys2Proof.Machine.execPopc h o s
  | .clz h o => Sys2Proof.Machine.execClz h o s
  | .ctz h o => Sys2Proof.Machine.execCtz h o s
  | .brev h o => Sys2Proof.Machine.execBrev h o s
  | .bfe h o => Sys2Proof.Machine.execBfe h o s
  | .bfi h o => Sys2Proof.Machine.execBfi h o s
  | .bmix h o => Sys2Proof.Machine.execBmix h o s
  | .icmp h o => Sys2Proof.Machine.execIcmp h o s
  | .fcmp h o => Sys2Proof.Machine.execFcmp h o s
  | .plog h o => Sys2Proof.Machine.execPlog h o s
  | .sel h o => Sys2Proof.Machine.execSel h o s
  | .mov h o => Sys2Proof.Machine.execMov h o s
  | .movi h o => Sys2Proof.Machine.execMovi h o s
  | .movs h o => Sys2Proof.Machine.execMovs h o s
  | .rdlane h o => Sys2Proof.Machine.execRdlane h o s
  | .pmov h o => Sys2Proof.Machine.execPmov h o s
  | .pmovP h o => Sys2Proof.Machine.execPmovP h o s
  | .fadd h o => Sys2Proof.Machine.execFadd h o s
  | .fsub h o => Sys2Proof.Machine.execFsub h o s
  | .fmul h o => Sys2Proof.Machine.execFmul h o s
  | .ffma h o => Sys2Proof.Machine.execFfma h o s
  | .fmin h o => Sys2Proof.Machine.execFmin h o s
  | .fmax h o => Sys2Proof.Machine.execFmax h o s
  | .frnd h o => Sys2Proof.Machine.execFrnd h o s
  | .fclass h o => Sys2Proof.Machine.execFclass h o s
  | .fscl h o => Sys2Proof.Machine.execFscl h o s
  | .pkadd h o => Sys2Proof.Machine.execPkadd h o s
  | .pkmul h o => Sys2Proof.Machine.execPkmul h o s
  | .pkfma h o => Sys2Proof.Machine.execPkfma h o s
  | .pkmin h o => Sys2Proof.Machine.execPkmin h o s
  | .pkmax h o => Sys2Proof.Machine.execPkmax h o s
  | .frcp h o => Sys2Proof.Machine.execFrcp h o s
  | .frsq h o => Sys2Proof.Machine.execFrsq h o s
  | .fsqrt h o => Sys2Proof.Machine.execFsqrt h o s
  | .fex2 h o => Sys2Proof.Machine.execFex2 h o s
  | .flg2 h o => Sys2Proof.Machine.execFlg2 h o s
  | .fsin h o => Sys2Proof.Machine.execFsin h o s
  | .fcos h o => Sys2Proof.Machine.execFcos h o s
  | .ftanh h o => Sys2Proof.Machine.execFtanh h o s
  | .fsigm h o => Sys2Proof.Machine.execFsigm h o s
  | .cvt h o => Sys2Proof.Machine.execCvt h o s
  | .cvtp h o => Sys2Proof.Machine.execCvtp h o s
  | .cvtu h o => Sys2Proof.Machine.execCvtu h o s
  | .amax h o => Sys2Proof.Machine.execAmax h o s
  | .scaleq h o => Sys2Proof.Machine.execScaleq h o s
  | .abssum h o => Sys2Proof.Machine.execAbssum h o s
  | .shfl h o => Sys2Proof.Machine.execShfl h o s
  | .vote h o => Sys2Proof.Machine.execVote h o s
  | .redl h o => Sys2Proof.Machine.execRedl h o s
  | .scanl h o => Sys2Proof.Machine.execScanl h o s
  | .matchl h o => Sys2Proof.Machine.execMatchl h o s
  | .ld h o => Sys2Proof.Machine.execLd h o s
  | .st h o => Sys2Proof.Machine.execSt h o s
  | .ldu h o => Sys2Proof.Machine.execLdu h o s
  | .pfetch h o => Sys2Proof.Machine.execPfetch h o s
  | .ldx h o => Sys2Proof.Machine.execLdx h o s
  | .flush h o => Sys2Proof.Machine.execFlush h o s
  | .flushAll h o => Sys2Proof.Machine.execFlushAll h o s
  | .invl h o => Sys2Proof.Machine.execInvl h o s
  | .invlAll h o => Sys2Proof.Machine.execInvlAll h o s
  | .atom h o => Sys2Proof.Machine.execAtom h o s
  | .atomc h o => Sys2Proof.Machine.execAtomc h o s
  | .red h o => Sys2Proof.Machine.execRed h o s
  | .atomord h o => Sys2Proof.Machine.execAtomord h o s
  | .waita h o => Sys2Proof.Machine.execWaita h o s
  | .cellcfgFree h o => Sys2Proof.Machine.execCellcfgFree h o s
  | .cellcfgSem h o => Sys2Proof.Machine.execCellcfgSem h o s
  | .cellcfgBar h o => Sys2Proof.Machine.execCellcfgBar h o s
  | .cellcfgRing h o => Sys2Proof.Machine.execCellcfgRing h o s
  | .cellcfgQueue h o => Sys2Proof.Machine.execCellcfgQueue h o s
  | .cellcfgBind h o => Sys2Proof.Machine.execCellcfgBind h o s
  | .cellcfgUnbind h o => Sys2Proof.Machine.execCellcfgUnbind h o s
  | .cellrd h o => Sys2Proof.Machine.execCellrd h o s
  | .semsig h o => Sys2Proof.Machine.execSemsig h o s
  | .semwait h o => Sys2Proof.Machine.execSemwait h o s
  | .bararv h o => Sys2Proof.Machine.execBararv h o s
  | .barwait h o => Sys2Proof.Machine.execBarwait h o s
  | .ringpub h o => Sys2Proof.Machine.execRingpub h o s
  | .ringawtData h o => Sys2Proof.Machine.execRingawtData h o s
  | .ringawtFree h o => Sys2Proof.Machine.execRingawtFree h o s
  | .ringrel h o => Sys2Proof.Machine.execRingrel h o s
  | .qpush h o => Sys2Proof.Machine.execQpush h o s
  | .qpop h o => Sys2Proof.Machine.execQpop h o s
  | .mmaF4b h o => Sys2Proof.Machine.execMmaF4b h o s
  | .mmaF8a h o => Sys2Proof.Machine.execMmaF8a h o s
  | .mmaF8b h o => Sys2Proof.Machine.execMmaF8b h o s
  | .mmaB16 h o => Sys2Proof.Machine.execMmaB16 h o s
  | .mmaH16 h o => Sys2Proof.Machine.execMmaH16 h o s
  | .mmaI8 h o => Sys2Proof.Machine.execMmaI8 h o s
  | .mmaspF4b h o => Sys2Proof.Machine.execMmaspF4b h o s
  | .mmaspF8a h o => Sys2Proof.Machine.execMmaspF8a h o s
  | .mmaspI8 h o => Sys2Proof.Machine.execMmaspI8 h o s
  | .station h o => Sys2Proof.Machine.execStation h o s
  | .unstat h o => Sys2Proof.Machine.execUnstat h o s
  | .wload h o => Sys2Proof.Machine.execWload h o s
  | .qld h o => Sys2Proof.Machine.execQld h o s
  | .qsetV h o => Sys2Proof.Machine.execQsetV h o s
  | .qsetRange h o => Sys2Proof.Machine.execQsetRange h o s
  | .qsetAll h o => Sys2Proof.Machine.execQsetAll h o s
  | .qsetRd h o => Sys2Proof.Machine.execQsetRd h o s
  | .qlog h o => Sys2Proof.Machine.execQlog h o s
  | .ffpsel h o => Sys2Proof.Machine.execFfpsel h o s
  | .ffpbnd h o => Sys2Proof.Machine.execFfpbnd h o s
  | .ffpfch h o => Sys2Proof.Machine.execFfpfch h o s
  | .xcopy h o => Sys2Proof.Machine.execXcopy h o s
  | .xgath h o => Sys2Proof.Machine.execXgath h o s
  | .tqpost h o => Sys2Proof.Machine.execTqpost h o s
  | .glaunchK h o => Sys2Proof.Machine.execGlaunchK h o s
  | .glaunchG h o => Sys2Proof.Machine.execGlaunchG h o s
  | .glaunchSeal h o => Sys2Proof.Machine.execGlaunchSeal h o s
  | .glaunchFree h o => Sys2Proof.Machine.execGlaunchFree h o s
  | .trig h o => Sys2Proof.Machine.execTrig h o s
  | .chunk h o => Sys2Proof.Machine.execChunk h o s
  | .mboxarm h o => Sys2Proof.Machine.execMboxarm h o s
  | .mboxarmD h o => Sys2Proof.Machine.execMboxarmD h o s
  | .stepCtr h o => Sys2Proof.Machine.execStepCtr h o s
  | .lhint h o => Sys2Proof.Machine.execLhint h o s
  | .rep h o => Sys2Proof.Machine.execRep h o s
  | .fence h o => Sys2Proof.Machine.execFence h o s
  | .isect h o => Sys2Proof.Machine.execIsect h o s
  | .fetchBlockArrive slot blk cached => Sys2Proof.Machine.execFetchBlockArrive slot blk cached s
  | .switchResultWrite slot id lanes => Sys2Proof.Machine.execSwitchResultWrite slot id lanes s
  | .ldxDatumArrive slot id lane => Sys2Proof.Machine.execLdxDatumArrive slot id lane s
  | .storeQueuePerform slot => Sys2Proof.Machine.execStoreQueuePerform slot s
  | .fenceComplete slot => Sys2Proof.Machine.execFenceComplete slot s
  | .flushComplete slot => Sys2Proof.Machine.execFlushComplete slot s
  | .activeRotation part => Sys2Proof.Machine.execActiveRotation part s
  | .sleepExpire slot => Sys2Proof.Machine.execSleepExpire slot s
  | .cellWaiterWake slot ticket => Sys2Proof.Machine.execCellWaiterWake slot ticket s
  | .waitaReread slot lane => Sys2Proof.Machine.execWaitaReread slot lane s
  | .stationMacrosGranted slot => Sys2Proof.Machine.execStationMacrosGranted slot s
  | .unstatRelease slot => Sys2Proof.Machine.execUnstatRelease slot s
  | .wloadComplete tid shelf => Sys2Proof.Machine.execWloadComplete tid shelf s
  | .ffpbndCheckStart tid id => Sys2Proof.Machine.execFfpbndCheckStart tid id s
  | .ffpbndCheckEnd tid id => Sys2Proof.Machine.execFfpbndCheckEnd tid id s
  | .ffpfchGatherStart tid id => Sys2Proof.Machine.execFfpfchGatherStart tid id s
  | .ffpfchGatherEnd tid id => Sys2Proof.Machine.execFfpfchGatherEnd tid id s
  | .copyStart id => Sys2Proof.Machine.execCopyStart id s
  | .copyFinish id => Sys2Proof.Machine.execCopyFinish id s
  | .gatherStart id => Sys2Proof.Machine.execGatherStart id s
  | .gatherFinish id => Sys2Proof.Machine.execGatherFinish id s
  | .tileTaskStart id => Sys2Proof.Machine.execTileTaskStart id s
  | .tileTaskFinish id => Sys2Proof.Machine.execTileTaskFinish id s
  | .engineGranuleBoundary id => Sys2Proof.Machine.execEngineGranuleBoundary id s
  | .fixedLatencyResultWrite slot => Sys2Proof.Machine.execFixedLatencyResultWrite slot s
  | .queueNotify q v => Sys2Proof.Machine.execQueueNotify q v s
  | .queueEnable q cfg => Sys2Proof.Machine.execQueueEnable q cfg s
  | .queueDisable q => Sys2Proof.Machine.execQueueDisable q s
  | .qsemvalWrite sem v => Sys2Proof.Machine.execQsemvalWrite sem v s
  | .queueKernelEntry q => Sys2Proof.Machine.execQueueKernelEntry q s
  | .queueGraphEntry q => Sys2Proof.Machine.execQueueGraphEntry q s
  | .queueSemaphoreEntry q => Sys2Proof.Machine.execQueueSemaphoreEntry q s
  | .queueSealEntry q => Sys2Proof.Machine.execQueueSealEntry q s
  | .queueFreeEntry q => Sys2Proof.Machine.execQueueFreeEntry q s
  | .teamStart grid => Sys2Proof.Machine.execTeamStart grid s
  | .clusterReserve grid core => Sys2Proof.Machine.execClusterReserve grid core s
  | .gangAgeExpire grid => Sys2Proof.Machine.execGangAgeExpire grid s
  | .graphNodeStart run node => Sys2Proof.Machine.execGraphNodeStart run node s
  | .graphNodeComplete run node => Sys2Proof.Machine.execGraphNodeComplete run node s
  | .teamEnd tid => Sys2Proof.Machine.execTeamEnd tid s
  | .gridRetire grid => Sys2Proof.Machine.execGridRetire grid s
  | .fabricFlushTimeout grid => Sys2Proof.Machine.execFabricFlushTimeout grid s
  | .mailboxArrival mbox => Sys2Proof.Machine.execMailboxArrival mbox s
  | .teamStopRequest tid => Sys2Proof.Machine.execTeamStopRequest tid s
  | .prectlGo grid hard => Sys2Proof.Machine.execPrectlGo grid hard s
  | .prectlResume grid => Sys2Proof.Machine.execPrectlResume grid s
  | .groupStop slot => Sys2Proof.Machine.execGroupStop slot s
  | .hardPreempt tid => Sys2Proof.Machine.execHardPreempt tid s
  | .contextSave tid => Sys2Proof.Machine.execContextSave tid s
  | .teamResume tid => Sys2Proof.Machine.execTeamResume tid s
  | .watchdogExpire slot lane => Sys2Proof.Machine.execWatchdogExpire slot lane s
  | .translationWalkDone core pasid vpage => Sys2Proof.Machine.execTranslationWalkDone core pasid vpage s
  | .atsCompletion core pasid page r w hpage => Sys2Proof.Machine.execAtsCompletion core pasid page r w hpage s
  | .pageRequestResponse pasid page ok => Sys2Proof.Machine.execPageRequestResponse pasid page ok s
  | .atsInvalidationRequest pasid page npages => Sys2Proof.Machine.execAtsInvalidationRequest pasid page npages s
  | .tinvctlGo v => Sys2Proof.Machine.execTinvctlGo v s
  | .invalidationComplete id => Sys2Proof.Machine.execInvalidationComplete id s
  | .stepvalWrite v => Sys2Proof.Machine.execStepvalWrite v s
  | .hostRead off n => Sys2Proof.Machine.execHostRead off n s
  | .hostWrite off bytes => Sys2Proof.Machine.execHostWrite off bytes s
  | .registerWrite off v host => Sys2Proof.Machine.execRegisterWrite off v host s
  | .pageMove page dest => Sys2Proof.Machine.execPageMove page dest s
  | .evictionStart => Sys2Proof.Machine.execEvictionStart s
  | .pagePromote page dest => Sys2Proof.Machine.execPagePromote page dest s
  | .placementEpochEnd => Sys2Proof.Machine.execPlacementEpochEnd s
  | .orderedStreamRequest id => Sys2Proof.Machine.execOrderedStreamRequest id s
  | .streamRecordTimeout slice addr => Sys2Proof.Machine.execStreamRecordTimeout slice addr s
  | .nodeStackStart nid stack => Sys2Proof.Machine.execNodeStackStart nid stack s
  | .nodeGranule nid stack => Sys2Proof.Machine.execNodeGranule nid stack s
  | .nodeStackFinish nid stack => Sys2Proof.Machine.execNodeStackFinish nid stack s
  | .nodeComplete nid => Sys2Proof.Machine.execNodeComplete nid s
  | .walkMessageReceive stack src => Sys2Proof.Machine.execWalkMessageReceive stack src s
  | .nodeStop nid => Sys2Proof.Machine.execNodeStop nid s
  | .nodeResume nid => Sys2Proof.Machine.execNodeResume nid s
  | .channelEnterPreIn stack ch => Sys2Proof.Machine.execChannelEnterPreIn stack ch s
  | .channelEnterSwIn stack ch => Sys2Proof.Machine.execChannelEnterSwIn stack ch s
  | .channelAbortPreIn stack ch => Sys2Proof.Machine.execChannelAbortPreIn stack ch s
  | .channelEnterCompute stack ch => Sys2Proof.Machine.execChannelEnterCompute stack ch s
  | .computeStep stack ch => Sys2Proof.Machine.execComputeStep stack ch s
  | .channelEnterPreOut stack ch => Sys2Proof.Machine.execChannelEnterPreOut stack ch s
  | .channelEnterSwOut stack ch => Sys2Proof.Machine.execChannelEnterSwOut stack ch s
  | .channelEnterNormal stack ch => Sys2Proof.Machine.execChannelEnterNormal stack ch s
  | .normalRequestComplete stack ch => Sys2Proof.Machine.execNormalRequestComplete stack ch s
  | .normalRequestArrive stack ch req => Sys2Proof.Machine.execNormalRequestArrive stack ch req s
  | .wrFlit f => Sys2Proof.Machine.execWrFlit f s
  | .rdFlit f => Sys2Proof.Machine.execRdFlit f s
  | .rdrspFlit f => Sys2Proof.Machine.execRdrspFlit f s
  | .atomFlit f => Sys2Proof.Machine.execAtomFlit f s
  | .atomrspFlit f => Sys2Proof.Machine.execAtomrspFlit f s
  | .ackFlit f => Sys2Proof.Machine.execAckFlit f s
  | .nakFlit f => Sys2Proof.Machine.execNakFlit f s
  | .flushFlit f => Sys2Proof.Machine.execFlushFlit f s
  | .flushackFlit f => Sys2Proof.Machine.execFlushackFlit f s
  | .mboxFlit f => Sys2Proof.Machine.execMboxFlit f s
  | .mergeFlit f => Sys2Proof.Machine.execMergeFlit f s
  | .scrubRead sector correctable => Sys2Proof.Machine.execScrubRead sector correctable s
  | .scrubCheck => Sys2Proof.Machine.execScrubCheck s
  | .coreDisable core => Sys2Proof.Machine.execCoreDisable core s
  | .cxlLinkChange port up size => Sys2Proof.Machine.execCxlLinkChange port up size s
  | .powerThrottle watts junction => Sys2Proof.Machine.execPowerThrottle watts junction s
  | .thermalTrip => Sys2Proof.Machine.execThermalTrip s
  | .coldReset => Sys2Proof.Machine.execColdReset s
  | .warmReset => Sys2Proof.Machine.execWarmReset s
  | .getVersion => Sys2Proof.Machine.execGetVersion s
  | .getCapabilities => Sys2Proof.Machine.execGetCapabilities s
  | .negotiateAlgorithms asym hash => Sys2Proof.Machine.execNegotiateAlgorithms asym hash s
  | .getDigests => Sys2Proof.Machine.execGetDigests s
  | .getCertificate off len => Sys2Proof.Machine.execGetCertificate off len s
  | .challenge nonce => Sys2Proof.Machine.execChallenge nonce s
  | .getMeasurements idx => Sys2Proof.Machine.execGetMeasurements idx s
  | .mctpControlMessage cmd => Sys2Proof.Machine.execMctpControlMessage cmd s
  | .mctpVendorRead what idx => Sys2Proof.Machine.execMctpVendorRead what idx s
  | .fabricPortChange port up => Sys2Proof.Machine.execFabricPortChange port up s
  | .msiXVectorUnmask vector => Sys2Proof.Machine.execMsiXVectorUnmask vector s
  | .mergeTreeClearEn tree => Sys2Proof.Machine.execMergeTreeClearEn tree s
  | .channelMapOut stack ch => Sys2Proof.Machine.execChannelMapOut stack ch s
  | .correctedErrorHourEnd => Sys2Proof.Machine.execCorrectedErrorHourEnd s
  | .undefinedKindFlit f => Sys2Proof.Machine.execUndefinedKindFlit f s

end Sys2Proof.Machine
end

