-- ==== Sys2Proof/Machine/Step.lean ====
section
/-! DEFINITION. One step of the machine, and the placing of one word where the next step fetches it. -/

namespace Sys2Proof.Machine

/-- One step: the choice, the row it performs, and what follows every step. -/
def step (s : State) : Host.Outcome State Fault Refusal :=
  if s.stuck then .fault .clocksStopped
  else match s.pick with
    | .quiet s1 => .next (State.settle s1 s1)
    | .exec i s1 => match exec i s1 with
      | .next s2 => .next (State.settle s1 s2)
      | .fault r => .fault r
      | .refused r => .refused r

/-- The machine with one word loaded as the program of one running team of eight threads (log entry 7), in group slot 0
of core 0, and that group chosen to issue next. After a word with SAFE stands an empty LIVE word, after a REP word a target. -/
def State.withFetchWord (s : State) (nbits w : Nat) : State := s.withWord (BitVec.ofNat 96 (w % 2 ^ nbits))

end Sys2Proof.Machine
end

