-- ==== Sys2Proof/Safety.lean ====
section
/-! DEFINITION. What counts as safe, and the terms the claims are stated in: states that keep the form the model
promises, outcomes that complete, and what an instruction that works lane by lane may change. -/

namespace Sys2Proof.Safety
open Sys2Proof.Machine

/-- Every memory of the state is in its canonical form: addresses strictly rising, no entry that reads as an unlisted
address does. -/
def memOk (s : State) : Bool := Memory.wf s.mem && Memory.wf s.hostMem && Memory.wf s.scr && Memory.wf s.supMem

/-- A step stops for one reason only: the clocks (R379). -/
def stops (s : State) : Bool := s.stuck

/-- `n` steps of the machine, none of which stops. -/
def runs : Nat → State → Bool
  | 0, _ => true
  | n + 1, s => match step s with
    | .next t => runs n t
    | _ => false

/-- The outcome is a next state, and that state meets `P`. -/
def Gives (r : Out') (P : State → Prop) : Prop := ∃ t, r = .next t ∧ P t

/-- Nothing outside the group of the issue in progress changed. -/
def OnlyGroup (s t : State) : Prop := ∃ g, t = s.setCurG g

/-- What register `j` receives when the words are written to consecutive registers from `i` (R118). -/
def spanAt (i : BitVec 8) : List Word → Nat → Option Word
  | [], _ => none
  | w :: ws, j => if j = i.toNat then some w else spanAt (i + 1#8) ws j

/-- Every lane of the issuing subgroup stands at the sequential successor, every other lane where it stood; beside
that, lanes differ in vector registers and predicates only. -/
def LanesMoved (s t : State) : Prop :=
  t.curG.lanes.length = s.curG.lanes.length ∧
  ∀ l, l < s.curG.lanes.length →
    t.curG.lane l =
      (if s.cur.mask.getLsbD l then
        laneAdvance s.cur { s.curG.lane l with v := (t.curG.lane l).v, p := (t.curG.lane l).p }
       else s.curG.lane l)

/-- What an instruction does that gives each active lane the words `val l` for the registers from `d`, raises the flags
`fl l`, and continues at the successor (R55, R120, R121). Every other register, flag and part of the state is kept. -/
structure LaneWrites (s t : State) (h : Hdr) (d : Opnd) (val : Nat → List Word) (fl : Nat → Fl) : Prop where
  only : OnlyGroup s t
  rest : t.curG = { s.curG with lanes := t.curG.lanes, s := t.curG.s, fstat := t.curG.fstat }
  lanes : LanesMoved s t
  vec : ∀ i l j, d = .vec i → l ∈ activeLanes s h →
    t.curG.vreg l j = (spanAt i (val l) j).getD (s.curG.vreg l j)
  vecKept : ∀ l j, (l ∉ activeLanes s h ∨ ∀ i, d ≠ .vec i) → t.curG.vreg l j = s.curG.vreg l j
  uni : ∀ i l j, d = .uni i → l ∈ activeLanes s h → (∀ m ∈ activeLanes s h, val m = val l) →
    t.curG.ureg j = (spanAt i (val l) j).getD (s.curG.ureg j)
  uniKept : (activeLanes s h = [] ∨ ∀ i, d ≠ .uni i) → ∀ j, t.curG.ureg j = s.curG.ureg j
  prd : ∀ i l, d = .spc i → i.toNat < 7 → l ∈ activeLanes s h → (∀ m ∈ activeLanes s h, ∃ w, val m = [w]) →
    predOf (t.curG.lane l) i.toNat = ((val l).headD 0 != 0)
  prdKept : ∀ l k, (l ∉ activeLanes s h ∨ (∀ i, d ≠ .spc i) ∨
      ((∀ m ∈ activeLanes s h, ∃ w, val m = [w]) ∧ ∀ i, d = .spc i → i.toNat ≠ k)) →
    predOf (t.curG.lane l) k = predOf (s.curG.lane l) k
  flags : t.curG.fstat = (activeLanes s h).foldl (fun f l => f ||| fl l) s.curG.fstat
  memory : ∀ a, t.readLoc a = s.readLoc a



/-- A 32-bit pattern read as an integer of a type of class 0x1: unsigned for .n32, else two's complement (R55, R134). -/
def typeInt (ty : Ty) (w : Word) : Int := if ty = .n32 then w.toNat else if w.toNat < 2 ^ 31 then w.toNat else (w.toNat : Int) - 2 ^ 32

/-- Sat32 or Wrap32 of an exact value (R55): the lowest or highest value of the type beyond its range, or x mod 2^32. -/
def written (o : AluOps) (x : Int) : Word :=
  let lo : Int := if o.ty = .n32 then 0 else -(2 ^ 31)
  let hi : Int := if o.ty = .n32 then 2 ^ 32 - 1 else 2 ^ 31 - 1
  let y := if o.sat then (if x < lo then lo else if hi < x then hi else x) else x
  BitVec.ofNat 32 (y % 2 ^ 32).toNat

/-- Element `e` of width `w` of a word, signed or not (R62). -/
def elemOf (w e : Nat) (signed : Bool) (x : Word) : Int :=
  let v := x.toNat / 2 ^ (w * e) % 2 ^ w
  if signed ∧ 2 ^ (w - 1) ≤ v then (v : Int) - 2 ^ w else v

/-- B's signedness in a dot product: A's, or the other one under .mix (R136). -/
def dotSigned (o : AluOps) : Bool := (o.ty == .i8 || o.ty == .i16) != o.mod.getLsbD 0

/-- The writeback of a dot product: .n32 where both operands are unsigned, else .i32 (R136). -/
def dotWritten (o : AluOps) (products : List Int) (c : Word) : Word :=
  let u : Ty := if o.ty == .i8 || o.ty == .i16 || dotSigned o then .i32 else .n32
  written { o with ty := u } (typeInt u c + products.sum)

/-- A truth value as a register value. -/
def truth (b : Bool) : Word := if b then 1 else 0

/-- The value is finite. -/
def isFinite : Exact → Bool
  | .fin .. => true
  | _ => false

/-- Infinities of both signs, and 0 × ∞: the invalid operations of R147. -/
def opposite (a b : Exact) : Bool := a.isInf && b.isInf && (a.neg != b.neg)
def zeroTimesInf (a b : Exact) : Bool := (a.isZero && b.isInf) || (a.isInf && b.isZero)

/-- The rule of R147 for one result: a NaN operand first, then an invalid operation, else Conv of the exact result. -/
def FloatRule (F : Fmt) (r : Rnd) (ops : List Exact) (invalid : Bool) (exact : Exact → Prop) (p : Nat × Fl) : Prop :=
  if ops.any Exact.isNan then p = (F.nan, 0)
  else if invalid then p = (F.nan, 1)
  else ∃ x, exact x ∧ p = conv F r false x

/-- Element `e` of a word read as a type (R62): an integer, or a code of the type's floating format. -/
def elemExact (t : Ty) (e : Nat) (w : Word) : Exact :=
  if isIntTy t then Exact.ofInt (elemOf (tyWidth t) e (t ∈ [Ty.i8, .i16, .i32]) w)
  else (tyFmt t).decode (w.toNat / 2 ^ (tyWidth t * e) % 2 ^ tyWidth t)

/-- The least and greatest value of an integer type. -/
def typeLo (t : Ty) : Int := if t ∈ [Ty.i8, .i16, .i32] then -(2 ^ (tyWidth t - 1)) else 0
def typeHi (t : Ty) : Int := if t ∈ [Ty.i8, .i16, .i32] then 2 ^ (tyWidth t - 1) - 1 else 2 ^ tyWidth t - 1

/-- Lanes of the issuing subgroup. -/
def inSub (s : State) (l : Nat) : Bool := s.cur.mask.getLsbD l

/-- Only the issuing group's lanes and uniform registers differ; every lane of the subgroup has moved to `pc l`, every other
lane is as it was, and vector registers, predicates and MEET of the subgroup are the only other difference (R123, R126). -/
def LanesWentTo (s t : State) (pc : Nat → Pc) : Prop :=
  OnlyGroup s t ∧ t.curG = { s.curG with lanes := t.curG.lanes, s := t.curG.s } ∧
  t.curG.lanes.length = s.curG.lanes.length ∧ (∀ a, t.readLoc a = s.readLoc a) ∧
  ∀ l, l < s.curG.lanes.length →
    (¬inSub s l → t.curG.lane l = s.curG.lane l) ∧
    (inSub s l → t.curG.lane l = { laneAdvance s.cur (s.curG.lane l) with
      pc := pc l, v := (t.curG.lane l).v, p := (t.curG.lane l).p, meet := (t.curG.lane l).meet })

/-- Vector registers, predicates and uniform registers of the issuing group are as they were. -/
def RegsKept (s t : State) : Prop :=
  (∀ l j, t.curG.vreg l j = s.curG.vreg l j) ∧ (∀ l k, predOf (t.curG.lane l) k = predOf (s.curG.lane l) k) ∧
  ∀ j, t.curG.ureg j = s.curG.ureg j

/-- One word went to `d` in every active lane, or once to a uniform register, and to no other register (R55, R133). -/
def OneWord (s t : State) (h : Hdr) (d : Opnd) (w : Nat → Word) : Prop :=
  (∀ l k, predOf (t.curG.lane l) k = predOf (s.curG.lane l) k) ∧
  match d with
  | .vec i => (∀ j, t.curG.ureg j = s.curG.ureg j) ∧ ∀ l j, t.curG.vreg l j =
      if l ∈ activeLanes s h ∧ j = i.toNat then w l else s.curG.vreg l j
  | .uni i => (∀ l j, t.curG.vreg l j = s.curG.vreg l j) ∧ ∀ j, t.curG.ureg j =
      match (activeLanes s h).getLast? with
      | some l => if j = i.toNat then w l else s.curG.ureg j
      | none => s.curG.ureg j
  | _ => True

/-- Nothing is left that follows a step of its own accord and changes memory or a register: no access held at the host port, no
write or answer of the hub, no complete merge round, no FFPSEL that waits for its group's stores. -/
def AtRest (s : State) : Prop :=
  s.atPort = [] ∧ s.hubWrites = [] ∧ s.hubReqs = [] ∧ (∀ x ∈ s.rounds, s.roundFull x = false) ∧
  ∀ g ∈ s.groups, ∀ b ∈ g.2.blocked, ∀ lo r0 rows, b.why ≠ .ffpsel lo r0 rows

/-- No thread of the group is in a supervisor routine. -/
def NoRoutine (g : Group) : Prop := ∀ x ∈ g.lanes, x.exited = false → x.sup = false

/-- A REP in progress goes on unless its own lanes are among those of `m` (R115). -/
def repLeft (g : Group) (m : Mask) : Option RepSt := g.rep.filter fun r => r.mask &&& m == 0

/-- The subgroup took a trap (R345 to R348): the trap registers of its group hold cause, detail and group slot, the trapping
word's address and `addr`; its threads are in supervisor mode at word 16 × CAUSE and wait at no switch marker; nothing else
changed, no register, no memory and no other lane. -/
def TookTrap (s t : State) (cause detail addr : Nat) : Prop :=
  OnlyGroup s t ∧ RegsKept s t ∧ (∀ a, t.readLoc a = s.readLoc a) ∧
  t.curG = { s.curG with
    lanes := t.curG.lanes, rep := repLeft s.curG s.cur.mask, swMask := s.curG.swMask &&& ~~~s.cur.mask, trapcause := BitVec.ofNat 32 (cause + 256 * detail + 2 ^ 24 * (s.cur.slot % 192)),
    trappc := s.cur.pc, trapaddr := BitVec.ofNat 56 addr } ∧
  t.curG.lanes.length = s.curG.lanes.length ∧
  ∀ l, l < s.curG.lanes.length →
    if inSub s l ∧ (s.curG.lane l).exited = false then
      (t.curG.lane l).pc = BitVec.ofNat 24 (16 * cause) ∧ (t.curG.lane l).sup = true ∧
      (t.curG.lane l).meet = (s.curG.lane l).meet ∧
      (t.curG.lane l).repk = (match s.cur.rep with | none => (s.curG.lane l).repk | some k => BitVec.ofNat 6 k)
    else t.curG.lane l = s.curG.lane l

/-- Byte `k` of a word, and a word with byte `k` replaced by a code. -/
def byteAt (k : Nat) (w : Word) : Nat := w.toNat / 256 ^ k % 256
def HasByte (r old : Word) (k code : Nat) : Prop := ∀ j < 4, byteAt j r = if j = k then code else byteAt j old

/-! ### Memory -/

/-- The cell of the machine's memory a place names; a peer, a doorbell and a merge ingress name none. -/
def byteCell : Loc → Option (Nat × Nat)
  | .dev a => some (0, a)
  | .host a => some (1, a)
  | .scr c a => some (2, c * 2 ^ 21 + a)
  | .sup t a => some (3, t * 2 ^ 32 + a)
  | _ => none

/-- What a place reads as after the writes, in order, of these bytes: the last one to its cell wins. -/
def afterWrites (s : State) (ws : List (Loc × Byte)) (a : Loc) : Byte :=
  match (ws.filter fun w => (byteCell a).isSome && byteCell w.1 == byteCell a).getLast? with
  | some w => w.2
  | none => s.readLoc a

/-- The accesses of `n` bytes that lanes of a LD, LDU, LDX or ST make at their effective addresses (R161, R181, R182). -/
def accesses (s : State) (sp : Space) (n : Nat) (ea : Nat → Int) (lanes : List Nat) : List Acc :=
  lanes.map fun l => s.access s.cur.slot sp n (ea l) l

/-- The accesses of other instructions, which nothing emulates. -/
def wholeAccesses (s : State) (sp : Space) (n : Nat) (ea : Nat → Int) (lanes : List Nat) : List Acc :=
  lanes.map fun l => accOf s s.cur.slot sp n (ea l) l

/-- Places of an access with their L1 keys, once translated for a kind of access. -/
def placesOf (s : State) (kind : Nat) (a : Acc) : List (Nat × Loc) :=
  (accBytes s (slotCore s.cur.slot) (s.pasidOf s.cur.slot) kind a).2

/-- No access is misaligned, out of bounds, or without a translation that allows it; none is to a shelf where shelves may
not be written, nor to the host where the host may not be reached (R161, R183, R198). -/
def Reachable (s : State) (kind : Nat) (shelves host : Bool) (as : List Acc) : Prop :=
  ∀ a ∈ as, a.mis = false ∧ a.bounds = none ∧ (shelves = false → a.stat = false) ∧
    ∀ p ∈ a.pieces, ∃ l, s.look (slotCore s.cur.slot) (s.pasidOf s.cur.slot) p.1 kind = .hit l ∧
      ((∃ d, l = .dev d) ∨ (∃ k d, l = .peer k d) ∨ (host = true ∧ ∃ d, l = .host d))

/-- No place is in error; where a place is a peer's, the route and the peer's answer are there, no older atomic of the group
stands on it and no older acquire is incomplete; a load that fills nothing passes over no dirty byte of a peer (R185, R317, R322,
R354, R368). -/
def Answered (s : State) (nofill : Bool) (as : List Acc) : Prop :=
  ∀ a ∈ as, ∀ b ∈ placesOf s 0 a, s.poisoned b.2 = false ∧
    ∀ p d, b.2 = .peer p d → s.canSend p = true ∧ (∃ bs, s.peerAns (slotCore s.cur.slot) b.1 = some (0, bs)) ∧
      sqByte b.2 (s.curG.older s.fresh) none ≠ some none ∧ s.curG.acqBefore s.fresh s.fresh = false ∧
      (nofill = true → ∀ k y, k / 16 = b.1 / 16 → s.l1 (slotCore s.cur.slot) k = some y → y.dirty = false)

/-- A byte of a lane that peers supply in part: of the youngest older store of the group, of the L1 where the load may take it
there, of the peer's answer, or of its place (R185). -/
def suppliedBy (s : State) (nofill : Bool) (b : Nat × Loc) (v : Byte) : Prop :=
  let old := sqByte b.2 (s.curG.older s.fresh) none
  old = some (some v) ∨ (old = none ∧
    match (s.l1 (slotCore s.cur.slot) b.1).filter fun y => y.dirty || !nofill with
    | some y => v = y.val
    | none => if b.2.isPeer then ∃ bs, s.peerAns (slotCore s.cur.slot) b.1 = some (0, bs) ∧ v = bs.getD (b.1 % 32) 0
      else v = s.readLoc b.2)

/-- The L1 of a core has room for lines beside those it holds (R172). -/
def L1Room (s : State) (core : Nat) (lines : List Nat) : Prop :=
  (s.l1Lines core ++ lines).eraseDups.length ≤ l1Max

/-- No acquire that the group issued before `id` is incomplete (R317). -/
def NoOlderAcquire (g : Group) (id : Nat) : Prop :=
  (∀ p ∈ g.pend, p.id < id → p.acq = none) ∧ ∀ f ∈ g.fences, f.acq = true → id ≤ f.mark

/-- The lanes of the subgroup moved on, and beside the parts of the issuing group that `f` names nothing else of any group
changed; registers and memory are as they were. -/
def MovedWith (s t : State) (f : Group → Group) : Prop :=
  LanesMoved s t ∧ RegsKept s t ∧ t.curG = { f s.curG with lanes := t.curG.lanes } ∧
  (∀ i, i ≠ s.cur.slot → t.group i = s.group i) ∧ ∀ a, t.readLoc a = s.readLoc a

/-! ### Atomics -/

/-- Words at different places share no byte, words at one place are the same word. -/
def Apart (ls : List Loc) (n : Nat) : Prop :=
  ∀ a ∈ ls, ∀ b ∈ ls, a = b ∨ ∀ i j, i < n → j < n → byteCell (a.next i) ≠ byteCell (b.next j)

/-- The bytes of a place can be read and written here: none at a peer, at a doorbell or at a merge ingress. -/
def Here (l : Loc) : Prop := (byteCell l).isSome = true

/-- No byte of these keys is dirty in the core's L1. -/
def NotDirty (s : State) (core : Nat) (sel : Nat → Bool) : Prop :=
  ∀ e ∈ (s.core core).l1, sel e.1 = true → ∀ b, e.2 = some b → b.dirty = false

/-- The 32-bit word at a place (R5). -/
def wordAt (s : State) (l : Loc) : Word := BitVec.ofNat 32 (leNat ((List.range 4).map fun i => s.readLoc (l.next i)))

/-- The condition of WAITA on the word read and the operand (R201). -/
def satisfied (op : Nat) (w c : Word) : Bool :=
  if op = 0 then w == c else if op = 1 then w != c
  else if op = 2 then decide ((w - c).toNat < 2 ^ 31) else decide (2 ^ 31 ≤ (w - c).toNat)

/-- A word that WAITA can read now: at `l`, translated for reading or in the scratchpad, not in error, not owned, written by
no entry of the group, its 16-byte unit without a dirty byte in the core's L1 (R201, R324). -/
def WaitaSees (s : State) (slot : Nat) (x : WaitaLane) (l : Loc) : Prop :=
  Here l ∧ (x.fix = some l ∨ (x.fix = none ∧ s.look (slotCore slot) (s.pasidOf slot) x.va 0 = .hit l)) ∧
  (s.group slot).sq = [] ∧ s.poisoned l = false ∧ s.ownedLoc l = false ∧
  (x.fix = none → NotDirty s (slotCore slot) fun k => k / 16 == l1key (s.pasidOf slot) x.va / 16)

/-! ### Cells -/

/-- A release asked for is complete: earlier loads are back and stores performed, and at device scope or wider the core holds
no dirty byte and, where the scope reaches peers, their answers are in (R317). -/
def Released (s : State) (asked : Bool) (x : Scope) : Prop :=
  asked = true → s.curG.loadsBack s.fresh = true ∧ s.curG.storesDone s.fresh = true ∧
    (3 ≤ scopeCode x → NotDirty s (slotCore s.cur.slot) (fun _ => true) ∧
      (scopePeers x = true → s.acked (s.team s.curG.tid).grid = true))

/-- The instruction names cell `ci` of team `tid` (R298, R303): a bound handle or a name with no reserved bit set, a cell the
kernel declares, of the issuing team or of the team at a rank of its cluster. -/
def NamesCell (s : State) (o : CellOps) (tid ci : Nat) : Prop :=
  let k := (s.gridOf s.cur.slot).k
  let n := (Machine.cellName s o).toNat
  (o.huse = true → (s.curG.hreg o.hidx.toNat).getLsbD 15 = true) ∧ n < 2 ^ 11 ∧ ci = n % 64 ∧ ci < k.cells ∧
  if n < 2 ^ 10 then n / 64 = 0 ∧ tid = s.curG.tid
  else n / 64 % 16 < k.clw * k.clh ∧ s.mate s.curG.tid (n / 64 % 16) = some tid

/-- Cell `ci` of team `tid` became `c`; beside groups nothing else changed. -/
def CellBecame (s t : State) (tid ci : Nat) (c : Cell) : Prop :=
  t = { s with groups := t.groups, teams := t.teams, fresh := t.fresh } ∧
  t.team tid = { s.team tid with cells := (t.team tid).cells } ∧
  (∀ j, (t.team tid).cell j = if j = ci then c else (s.team tid).cell j) ∧ ∀ i, i ≠ tid → t.team i = s.team i

/-- Nobody waits at the cell, and numbers already given are smaller than the next one. -/
def NobodyWaits (s : State) (tid ci : Nat) : Prop :=
  (∀ w ∈ s.waiters, w.ticket < s.fresh ∧ (w.tid = tid → w.cell ≠ ci)) ∧
  ∀ b ∈ s.curG.blocked, ∀ k, b.why = .cell k → k < s.fresh

/-- A uniform result that is outstanding with its words known (R43). -/
def uniResult (s : State) (i : BitVec 8) (ws : List Word) : Pend :=
  { id := s.fresh, file := 1, dst := i.toNat, form := Form.plain 4,
    pasid := s.pasidOf s.cur.slot, acq := none, ldx := none, lanes := [{ lane := 0, va := 0, datum := .words ws }] }

/-- The outstanding results after `w` is given to D: one more where D names a uniform register, else none. -/
def resultsAfter (s : State) (d : Opnd) (ws : List Word) : List Pend :=
  match d with
  | .uni i => s.curG.pend ++ [uniResult s i ws]
  | _ => s.curG.pend

/-- A wait ended: D holds `v` (a uniform register), or its truth in the active lanes (a predicate), no other register changed,
and the subgroup continues at the successor (R303, R304). -/
def WaitOver (s t : State) (h : Hdr) (d : Opnd) (v : Word) : Prop :=
  (∀ l j, t.curG.vreg l j = s.curG.vreg l j) ∧
  (∀ j, t.curG.ureg j = if d = .uni (BitVec.ofNat 8 j) ∧ j < 256 then v else s.curG.ureg j) ∧
  (∀ l k, l < s.curG.lanes.length → l < 64 → k < 7 → predOf (t.curG.lane l) k =
    if d = .spc (BitVec.ofNat 8 k) ∧ l ∈ activeLanes s h then v != 0 else predOf (s.curG.lane l) k) ∧
  (∀ l, l < s.curG.lanes.length → l < 64 → (t.curG.lane l).pc = if inSub s l then s.cur.next else (s.curG.lane l).pc) ∧
  t.curG.blocked = s.curG.blocked ∧ t.waiters = s.waiters ∧ ∀ i, i ≠ s.cur.slot → t.group i = s.group i

/-- The subgroup waits at the instruction as the youngest waiter of the cell, with no effect yet (R304). -/
def WaitsAtCell (s t : State) (tid ci : Nat) (op : WaitOp) : Prop :=
  RegsKept s t ∧ (∀ a, t.readLoc a = s.readLoc a) ∧ t.teams = s.teams ∧
  (∀ l, (t.curG.lane l).pc = (s.curG.lane l).pc) ∧
  (∃ b, t.curG.blocked = s.curG.blocked ++ [b] ∧ b.mask = s.cur.mask ∧ b.pc = s.cur.pc ∧ b.why = .cell s.fresh) ∧
  ∃ w, t.waiters = s.waiters ++ [w] ∧ w.ticket = s.fresh ∧ w.slot = s.cur.slot ∧ w.tid = tid ∧ w.cell = ci ∧ w.op = op ∧
    w.sat = none

/-! ### Agents and shelves -/

/-- `n` bytes of a PASID from `va` lie in device memory from `d`, can be used by an agent of a core for reading (0) or
writing (1), and are not in error; no failed translation of theirs is held for an access that waited for it. -/
def DevRange (s : State) (core pasid kind va n d : Nat) : Prop :=
  va + n ≤ 2 ^ 56 ∧ va % 4096 = d % 4096 ∧ ∀ c ∈ chunksOf va n,
    (s.agentXl core pasid c.1 kind).1 = .hit (.dev (d + (c.1 - va))) ∧ s.poisoned (.dev (d + (c.1 - va))) = false ∧
    ∀ e ∈ s.tlb, e.on core pasid (c.1 / 4096) = true → e.res.isOk = true

/-- The state in which a command makes its accesses (R167, R170). -/
def asCmd (s : State) (id : Nat) : State := { s with asker := (2 * id + 1, allLanes) }

/-- A signal of an agent reached its cell (R300): where its team runs, nobody waits at the cell and the cell can take it, the
cell holds what the signal makes of it. -/
def SignalSent (s t : State) (tid : Nat) (x : Sig) : Prop :=
  (s.team tid).used = true → (s.team tid).dead = false → (s.team tid).st = .running → s.teamExited tid = false →
  (∀ w ∈ s.waiters, w.tid = tid → w.cell ≠ x.cell) →
  ∀ c, ((s.team tid).cell x.cell).signal x = some c → (t.team tid).cell x.cell = c

/-- A cell of the team that a command may signal (R214). -/
def SignalCell (s : State) (c : Nat) : Prop :=
  c < (s.gridOf s.cur.slot).k.cells ∧
  ((((s.team s.curG.tid).cell c).kind = .sem) ∨ ((s.team s.curG.tid).cell c).kind = .bar)

/-- Distinct offsets below `n` of a team's scratchpad from `o` are distinct bytes. -/
def OwnBytes (t : Team) (o n : Nat) : Prop := ∀ i j, i < n → j < n → i ≠ j → byteCell (t.scrLoc (o + i)) ≠ byteCell (t.scrLoc (o + j))

/-- The issuing group reads `n` aligned bytes at `va` of device memory, with value `v`: translated, sound and not owned. -/
def ReadsAs (s : State) (va n v : Nat) : Prop :=
  va % n = 0 ∧ ∃ d, s.look (slotCore s.cur.slot) (s.pasidOf s.cur.slot) va 0 = .hit (.dev d) ∧
    (∀ i, i < n → s.poisoned (.dev (d + i)) = false ∧ s.ownedLine ((d + i) / 128) = false) ∧ leNat (s.devBytes d n) = v

/-- Nothing of the core or the group stands between a read and memory: an empty L1, no store waiting, no load whose bytes
are still to be read, and no acquire that is incomplete. -/
def PlainReads (s : State) : Prop := (s.core (slotCore s.cur.slot)).l1 = [] ∧ s.curG.sq = [] ∧
  (∀ p ∈ s.curG.pend, ∀ x ∈ p.lanes, x.datum.locs = []) ∧ NoOlderAcquire s.curG s.fresh

/-- A command as the issuing group enters it (R315). -/
def entered (s : State) (kind : CmdKind) (words : List Word) (aux0 aux1 aux2 : Nat) : Cmd :=
  { id := s.fresh, kind, tid := s.curG.tid, core := (s.teamOf s.cur.slot).core, pasid := s.pasidOf s.cur.slot,
    grid := (s.teamOf s.cur.slot).grid, serial := 0, words, st := .accepted, slot := s.cur.slot, mark := s.fresh, pos := 0,
    cnt0 := 0, cnt1 := 0, cnt2 := 0, aux0, aux1, aux2, aux3 := 0, cause := 0, owns := [], pins := [], data := [], tag := none }

/-- The state with one shelf of a team changed; beside groups and commands nothing else. -/
def ShelfBecame (s t : State) (tid i : Nat) (x : Shelf) : Prop :=
  (∀ j, (t.team tid).shelf j = if j = i then x else (s.team tid).shelf j) ∧ (∀ k, k ≠ tid → t.team k = s.team k) ∧
  (t.team tid).cells = (s.team tid).cells

/-- The subgroup waits at the instruction, with no effect yet. -/
def WaitsHere (s t : State) (why : Why) : Prop :=
  OnlyGroup s t ∧ RegsKept s t ∧ (∀ l, (t.curG.lane l).pc = (s.curG.lane l).pc) ∧
  ∃ b, t.curG.blocked = s.curG.blocked ++ [b] ∧ b.mask = s.cur.mask ∧ b.pc = s.cur.pc ∧ b.why = why

/-- An instruction gives D its words and goes on; beside that nothing of any group changes (R43, R91). -/
def GivesD (s t : State) (d : Opnd) (ws : List Word) : Prop :=
  LanesMoved s t ∧ RegsKept s t ∧ (∀ u, u ≠ s.cur.slot → t.group u = s.group u) ∧
  ∃ n, t.curG = { s.curG with lanes := t.curG.lanes, pend := resultsAfter { s with fresh := n } d ws }

/-- The hub reads `n` bytes at an address of a PASID whole, with value `v` (R15). -/
def HubReads (s : State) (pasid va n v : Nat) : Prop :=
  ∃ d, DevRange s hubCore pasid 0 va n d ∧ leNat (s.devBytes d n) = v

/-- The hub writes `n` bytes of a PASID at once: they lie in device memory from `d`, no agent owns them, and no earlier write
of the hub waits. -/
def HubWrites (s : State) (pasid va n d : Nat) : Prop :=
  DevRange s hubCore pasid 1 va n d ∧ (∀ a, d ≤ a → a < d + n → s.ownedLine (a / 128) = false) ∧ s.hubWrites = []

/-- The bytes at these addresses of a PASID keep their places whatever becomes of the device bytes in `P`: no table entry
that translates them lies there (R166). -/
def StillThere (s : State) (pasid va n : Nat) (P : Nat → Prop) : Prop :=
  ∀ c ∈ chunksOf va n, ∀ t : State, t.hub = s.hub → (∀ k, (∀ a, P a → a / 32 ≠ k) → t.poison.contains k = s.poison.contains k) →
    (∀ a, ¬P a → t.readLoc (.dev a) = s.readLoc (.dev a)) → t.walk pasid c.1 = s.walk pasid c.1

end Sys2Proof.Safety
end

