-- ==== Sys2Proof/Certificates/Slice0/Obligations.lean ====
section
/-! DEFINITION. The statements about the model, each `def Obligations.<Name> : Prop`, after the few terms they share. -/

open Sys2Proof Sys2Proof.Machine Sys2Proof.Safety

namespace Sys2Proof.Safety
/-- The value of a finite exact number. -/
def finVal (neg : Bool) (num den : Nat) (e : Int) : ℚ := (if neg then -1 else 1) * ((num : ℚ) / den) * (2 : ℚ) ^ e

/-- How two values that are not NaN compare as extended reals: −∞ below every finite value, −0 equal to +0 (R141). -/
def Exact.cmp : Exact → Exact → Ordering
  | .inf n, .inf m => compare m n
  | .inf n, _ => if n then .lt else .gt
  | _, .inf m => if m then .gt else .lt
  | .fin n a d e, .fin m b c k => compare (finVal n a d e) (finVal m b c k)
  | _, _ => .eq

/-- The value of an exact number; 0 for infinities and NaN. -/
def Exact.val : Exact → ℚ
  | .fin n a d e => finVal n a d e
  | _ => 0

/-- `x` is the exact sum of two values that are not NaN and not infinities of both signs (R147): an infinity wins; an exact
zero has the operands' common sign, else + or, under RDN, −. -/
def IsSum (rdn : Bool) (a b x : Exact) : Prop :=
  if a.isInf then x = .inf a.neg else if b.isInf then x = .inf b.neg
  else ∃ n num den e, x = .fin n num den e ∧ 0 < den ∧ finVal n num den e = Exact.val a + Exact.val b ∧
    (num = 0 → n = if a.neg = b.neg then a.neg else rdn)

/-- `x` is the exact product of two values that are not NaN and not 0 and ∞: its sign is the exclusive OR (R147). -/
def IsProduct (a b x : Exact) : Prop :=
  if a.isInf ∨ b.isInf then x = .inf (a.neg != b.neg)
  else ∃ num den e, x = .fin (a.neg != b.neg) num den e ∧ 0 < den ∧
    finVal (a.neg != b.neg) num den e = Exact.val a * Exact.val b

/-- The order of minimumNumber and maximumNumber (R148): −0 below +0, else by value. -/
def above (x y : Exact) : Bool :=
  Exact.cmp x y == .gt || (x.isZero && y.isZero && !x.neg && y.neg)

/-- minimumNumber (`low`) or maximumNumber of two patterns of a format (R148). -/
def PickRule (F : Fmt) (low : Bool) (a b r : Nat) : Prop :=
  let x := F.decode a
  let y := F.decode b
  if x.isNan ∧ y.isNan then r = F.nan
  else if x.isNan then r = b
  else if y.isNan then r = a
  else r = if (if low then above x y else above y x) then b else a

/-- The code and flags CVT gives for the exact source `x` (R70, R74); `v` is its integer where the source is one, `seed`
the stochastic bits where .sr asks for them. -/
def CvtRule (o : AluOps) (st : Ty) (x : Exact) (seed : Option Nat) (p : Nat × Fl) : Prop :=
  let wrap := fun (y : Int) => (y % 2 ^ tyWidth o.ty).toNat
  if o.ty = .b1 then p = (if Exact.cmp x (.fin false 0 1 0) = .gt then 1 else 0, 0)
  else if isIntTy o.ty then
    if isIntTy st then ∃ v : Int, x = Exact.ofInt v ∧
      p = (wrap (if o.sat then (if v < typeLo o.ty then typeLo o.ty else if typeHi o.ty < v then typeHi o.ty else v) else v), 0)
    else p = (wrap (convInt o.rnd (typeLo o.ty) (typeHi o.ty) x).1, (convInt o.rnd (typeLo o.ty) (typeHi o.ty) x).2)
  else match seed with
    | some b => p = convSr (tyFmt o.ty) o.sat b x
    | none => p = conv (tyFmt o.ty) o.rnd o.sat x

/-- DecE3M5 (R55). -/
def decScale (c : Nat) : ℚ :=
  let e := c / 32 % 8
  let m := c % 32
  if 1 ≤ e then (2 : ℚ) ^ ((e : Int) - 7) * (1 + m / 32) else (2 : ℚ) ^ (-6 : Int) * (m / 32)

/-- A finite value with this sign and this magnitude. -/
def IsValue (x : Exact) (neg : Bool) (q : ℚ) : Prop :=
  ∃ num den e, x = .fin neg num den e ∧ 0 < den ∧ finVal false num den e = q

/-! Matrix weights (R209, R210, R223, R225). -/

/-- Per format code: element width in bits, K-step, block scales, band scales, 2:4. -/
def formatRow (f : Nat) : Nat × Nat × Bool × Bool × Bool :=
  match f with
  | 0 => (4, 32, true, true, false)
  | 1 | 2 => (8, 16, false, true, false)
  | 3 | 4 => (16, 8, false, false, false)
  | 5 => (8, 16, false, false, false)
  | 8 => (4, 64, true, true, true)
  | 9 => (8, 32, false, true, true)
  | _ => (8, 32, false, false, true)

/-- The element format of a code: E2M1, E4M3, E5M2, BF16 or FP16; INT8 has none. -/
def formatOf (f : Nat) : Fmt :=
  match f with
  | 0 | 8 => fmtE2
  | 1 | 9 => fmtE4
  | 2 => fmtE5
  | 3 => fmtB16
  | _ => fmtH16

/-- Offsets of the four planes of an image of `n` rows and `k` columns (R210). -/
structure Planes where
  kw : Nat
  scales : Nat
  metadata : Nat
  bands : Nat
def planesOf (f n k : Nat) : Planes :=
  let r := formatRow f
  let a32 := fun x => (x + 31) / 32 * 32
  let kw := if r.2.2.2.2 then k / 2 else k
  let s := a32 (n * kw * r.1 / 8)
  let m := s + a32 (if r.2.2.1 then n * kw / 8 else 0)
  { kw, scales := s, metadata := m, bands := m + a32 (if r.2.2.2.2 then n * k / 8 else 0) }

/-- What one matrix result reads: the shelf's bytes by offset, and one lane's registers. -/
structure MatIn where
  f : Nat
  rows : Nat
  cols : Nat
  byte : Nat → Nat
  act : Nat → Word
  scale : Nat → Word
  sb : Nat

/-- Code of stored element `j` of row `r`, and of activation `k`: element `e` of width `w` stands at bit `e × w` (R62). -/
def MatIn.weight (m : MatIn) (r j : Nat) : Nat :=
  let w := (formatRow m.f).1
  let bit := (r * (planesOf m.f m.rows m.cols).kw + j) * w
  (m.byte (bit / 8) + 256 * (if w = 16 then m.byte (bit / 8 + 1) else 0)) / 2 ^ (bit % 8) % 2 ^ w
def MatIn.activation (m : MatIn) (k : Nat) : Nat :=
  let w := (formatRow m.f).1
  (m.act (k * w / 32)).toNat / 2 ^ (k * w % 32) % 2 ^ w

/-- Scale of stored element `j` of row `r`: block scale times band scale (R223); scale of activation `k` (R69). -/
def MatIn.band (m : MatIn) (r : Nat) : ℚ :=
  let b := (planesOf m.f m.rows m.cols).bands + 2 * (r / 64)
  Exact.val (fmtB16.decode (m.byte b + 256 * m.byte (b + 1)))
def MatIn.weightScale (m : MatIn) (r j : Nat) : ℚ :=
  let p := planesOf m.f m.rows m.cols
  (if (formatRow m.f).2.2.1 then decScale (m.byte (p.scales + r * (p.kw / 8) + j / 8)) else 1) *
  (if (formatRow m.f).2.2.2.1 then m.band r else 1)
def MatIn.actScale (m : MatIn) (k : Nat) : ℚ :=
  if (formatRow m.f).2.2.1 then decScale (byteAt ((m.sb + k / 8) % 4) (m.scale ((m.sb + k / 8) / 4))) else 1

/-- Indices i0 and i1 of group `g` of row `r` (R225). -/
def MatIn.meta (m : MatIn) (r g : Nat) : Nat × Nat :=
  let n := m.byte ((planesOf m.f m.rows m.cols).metadata + r * (m.cols / 8) + g / 2) / 16 ^ (g % 2) % 16
  (n % 4, n / 4)

/-- The terms of one row in one K-step: activation and stored column (R223, R225). -/
def MatIn.terms (m : MatIn) (r ks : Nat) : List (Nat × Nat) :=
  let k := (formatRow m.f).2.1
  if (formatRow m.f).2.2.2.2 then (List.range (k / 4)).flatMap fun g =>
    let gg := ks * (k / 4) + g
    [(4 * g + (m.meta r gg).1, 2 * gg), (4 * g + (m.meta r gg).2, 2 * gg + 1)]
  else (List.range k).map fun i => (i, ks * k + i)

/-- Some group of the row's K-step has i0 ≥ i1 (R225). -/
def MatIn.irregular (m : MatIn) (r ks : Nat) : Bool :=
  let k := (formatRow m.f).2.1
  (formatRow m.f).2.2.2.2 && (List.range (k / 4)).any fun g =>
    decide ((m.meta r (ks * (k / 4) + g)).2 ≤ (m.meta r (ks * (k / 4) + g)).1)

/-- MatRound of R223: NaN operands; ∞ × 0 or infinities of both signs; else one rounding of the exact sum, zero as +0. -/
def MatIn.FloatResult (m : MatIn) (r ks : Nat) (acc : Exact) (p : Word × Fl) : Prop :=
  let F := formatOf m.f
  let a := fun i => F.decode (m.activation i)
  let w := fun j => F.decode (m.weight r j)
  let ts := m.terms r ks
  let infinite := fun (x : Nat × Nat) => (a x.1).isInf || (w x.2).isInf
  let zero := fun (x : Nat × Nat) => (a x.1).isZero ∨ (w x.2).isZero ∨ m.actScale x.1 = 0 ∨ m.weightScale r x.2 = 0
  let minus := fun (x : Nat × Nat) => ((a x.1).neg != (w x.2).neg) != decide (m.weightScale r x.2 < 0)
  let inf := fun (n : Bool) => (acc.isInf = true ∧ acc.neg = n) ∨ ∃ x ∈ ts, infinite x = true ∧ ¬zero x ∧ minus x = n
  if acc.isNan = true ∨ (∃ i < (formatRow m.f).2.1, (a i).isNan = true) ∨ ∃ x ∈ ts, (w x.2).isNan = true
  then p = (0x7FC00000, 0)
  else if (∃ x ∈ ts, infinite x = true ∧ zero x) ∨ (inf true ∧ inf false) then p = (0x7FC00000, 1)
  else if inf true then p = (0xFF800000, 0) else if inf false then p = (0x7F800000, 0)
  else
    let s : ℚ := Exact.val acc +
      (ts.map fun x => Exact.val (a x.1) * m.actScale x.1 * (Exact.val (w x.2) * m.weightScale r x.2)).sum
    if s = 0 then p = (0, 0)
    else ∃ neg num den e, finVal neg num den e = s ∧ 0 < den ∧
      p = (BitVec.ofNat 32 (conv fmt32 .rne false (.fin neg num den e)).1, (conv fmt32 .rne false (.fin neg num den e)).2)

/-- The integer form of R223. -/
def MatIn.intResult (m : MatIn) (r ks : Nat) (acc : Word) (au sat : Bool) : Word :=
  let signed := fun (c : Nat) => if c < 128 then (c : Int) else (c : Int) - 256
  let x := acc.toInt + ((m.terms r ks).map fun p =>
    (if au then (m.activation p.1 : Int) else signed (m.activation p.1)) * signed (m.weight r p.2)).sum
  let y := if sat then (if x < -(2 ^ 31) then -(2 ^ 31) else if 2 ^ 31 - 1 < x then 2 ^ 31 - 1 else x) else x
  BitVec.ofNat 32 (y % 2 ^ 32).toNat

end Sys2Proof.Safety

/-! Terms of the launch statements: records as numbers, with the fields of R16, R19, R23, R25 and R26. -/

/-- Field [lo + len − 1 : lo] of a record. -/
def fieldOf (v lo len : Nat) : Nat := v / 2 ^ lo % 2 ^ len

/-- Some bit of the ranges [hi : lo] is set. -/
def anySet (v : Nat) (xs : List (Nat × Nat)) : Bool := xs.any fun x => fieldOf v x.2 (x.1 - x.2 + 1) != 0

/-- The code R24 gives a launch record `l`, its kernel record `k` and its region entries, all read; 0 where nothing fails. -/
def launchCode (s : State) (pasid l k : Nat) (rs : List Nat) : Nat :=
  let width := 8 * 2 ^ fieldOf k 112 2
  let w := fieldOf k 114 3
  let h := fieldOf k 117 3
  let tt := fieldOf k 128 13
  let groups := tt / width
  let scratch := fieldOf k 212 22
  let room := width * (8 * fieldOf k 144 6) * ((groups + 5) / 6) ≤ 65536
  let rectangle := ∃ die < 2, ∃ row < 10, ∃ col < 10, row + h ≤ 10 ∧ col + w ≤ 10 ∧
    ∀ i < h, ∀ j < w, (s.core (100 * die + 10 * (row + i) + col + j)).en = true
  let staged := rs.filter fun r => fieldOf r 131 1 == 1
  let span := fun r => (fieldOf r 96 21, fieldOf r 96 21 + fieldOf r 64 32)
  if anySet l [(63, 56), (127, 103), (191, 184), (447, 224)] ∨
    anySet k [(63, 56), (127, 120), (143, 141), (191, 179), (255, 234), (319, 312), (1023, 352)] ∨
    (∃ r ∈ rs, anySet r [(63, 56), (127, 117), (159, 132), (255, 192)]) then 0x81
  else if fieldOf l 64 32 = 0 ∨ w < 1 ∨ 6 < w ∨ h < 1 ∨ 6 < h ∨ 12 < w * h ∨ tt < 8 ∨ 4096 < tt ∨ tt % width ≠ 0 ∨ 192 < groups ∨
    8192 < w * h * tt ∨ fieldOf l 64 32 % (w * h) ≠ 0 ∨ fieldOf k 144 6 < 1 ∨ 32 < fieldOf k 144 6 ∨ 32 < fieldOf k 150 6 ∨
    64 < fieldOf k 156 7 ∨ 1024 < fieldOf k 168 11 ∨ fieldOf k 168 11 % 4 ≠ 0 ∨ 2097152 < scratch ∨ scratch % 256 ≠ 0 then 0x82
  else if ¬room ∨ ¬rectangle ∨ (s.pool pasid).2 < groups * fieldOf k 192 20 * 256 then 0x83
  else if fieldOf k 0 56 % 192 ≠ 0 ∨ fieldOf k 64 24 < 1 ∨ 0xFFFFFE < fieldOf k 64 24 ∨ fieldOf k 64 24 ≤ fieldOf k 88 24 then 0x84
  else if 16 < fieldOf k 163 5 ∨ (fieldOf k 163 5 ≠ 0 ∧ fieldOf k 256 56 % 64 ≠ 0) ∨
    (∃ r ∈ rs, fieldOf r 0 56 % 32 ≠ 0 ∨ fieldOf r 64 32 = 0 ∨ fieldOf r 64 32 % 32 ≠ 0 ∨ fieldOf r 96 21 % 32 ≠ 0) ∨
    (∃ r ∈ staged, scratch < (span r).2) ∨
    ¬staged.Pairwise (fun a b => (span a).2 ≤ (span b).1 ∨ (span b).2 ≤ (span a).1) then 0x85
  else if 1 ≤ fieldOf l 96 4 ∧ fieldOf l 96 4 ≤ 5 ∨ 10 ≤ fieldOf l 96 4 then 0x87
  else 0

/-- The hub reads the launch record at `va`, the kernel record it names and the region list, and their code is `c`. -/
def LaunchRead (s : State) (pasid va l k : Nat) (rs : List Nat) (c : Nat) : Prop :=
  HubReads s pasid va 64 l ∧ HubReads s pasid (fieldOf l 0 56) 128 k ∧
  (fieldOf k 163 5 ≤ 16 → fieldOf k 256 56 % 64 = 0 → rs.length = fieldOf k 163 5 ∧
    ∀ i r, rs[i]? = some r → HubReads s pasid (fieldOf k 256 56 + 32 * i) 32 r) ∧
  (¬(fieldOf k 163 5 ≤ 16 ∧ fieldOf k 256 56 % 64 = 0) → rs = []) ∧ c = launchCode s pasid l k rs

/-- The grid accepted for these records: number, PASID, teams, kernel and regions, priority and source (R23). -/
def GridFor (s : State) (g : Grid) (pasid va l k : Nat) (rs : List Nat) (src : Source) (prio : Nat) : Prop :=
  g.num = s.nextGrid ∧ g.pasid = pasid ∧ g.lrec = va ∧ g.src = src ∧ g.prio = prio ∧ g.st = .waiting ∧ g.started = 0 ∧
  g.l.nteams = fieldOf l 64 32 ∧ g.l.rscope = fieldOf l 96 4 ∧ g.l.param = fieldOf l 128 56 ∧
  g.l.stepadv.toNat = fieldOf l 192 32 ∧ (g.l.fab = true ↔ fieldOf l 100 1 = 1) ∧ (g.l.early = true ↔ fieldOf l 101 1 = 1) ∧
  (g.l.cirq = true ↔ fieldOf l 102 1 = 1) ∧ g.k.codebase = fieldOf k 0 56 ∧ g.k.codelen = fieldOf k 64 24 ∧
  g.k.entry = fieldOf k 88 24 ∧ g.k.width = 8 * 2 ^ fieldOf k 112 2 ∧ g.k.clw = fieldOf k 114 3 ∧ g.k.clh = fieldOf k 117 3 ∧
  g.k.tthreads = fieldOf k 128 13 ∧ g.k.regs = fieldOf k 144 6 ∧ g.k.uregs = fieldOf k 150 6 ∧ g.k.cells = fieldOf k 156 7 ∧
  g.k.plen = fieldOf k 168 11 ∧ g.k.pwords = fieldOf k 192 20 ∧ g.k.scratch = fieldOf k 212 22 ∧ g.regs.length = rs.length ∧
  ∀ (i : Nat) x r, g.regs[i]? = some x → rs[i]? = some r → x.src = fieldOf r 0 56 ∧ x.len = fieldOf r 64 32 ∧
    x.dest = fieldOf r 96 21 ∧ x.lprio = fieldOf r 128 3 ∧ (x.stage = true ↔ fieldOf r 131 1 = 1) ∧ x.nextuse.toNat = fieldOf r 160 32

/-- A graph the hub reads whole and has no reason to refuse (R25 to R28): header, nodes, edges, and the launch record of every
kernel node with its code 0. A rank that every edge raises says that there is no cycle. -/
def GraphRead (s : State) (pasid va hd : Nat) (nodes edges : List Nat) : Prop :=
  HubReads s pasid va 64 hd ∧ anySet hd [(63, 32), (127, 120), (191, 184), (511, 256)] = false ∧
  nodes.length = fieldOf hd 0 16 ∧ edges.length = fieldOf hd 16 16 ∧ 1 ≤ nodes.length ∧ nodes.length ≤ 4096 ∧ edges.length ≤ 16384 ∧
  fieldOf hd 64 56 % 128 = 0 ∧ fieldOf hd 128 56 % 8 = 0 ∧
  (∀ i n, nodes[i]? = some n → HubReads s pasid (fieldOf hd 64 56 + 128 * i) 128 n ∧ fieldOf n 0 4 ≤ 3 ∧
    anySet n [(7, 4), (15, 14), (31, 31), (63, 48), (127, 120), (255, 160)] = false ∧
    (fieldOf n 0 4 ≠ 2 → anySet n [(13, 8), (23, 16), (1023, 512)] = false) ∧ (fieldOf n 0 4 ≠ 0 → anySet n [(119, 64)] = false) ∧
    (fieldOf n 0 4 ≠ 1 → anySet n [(511, 256)] = false) ∧ (fieldOf n 0 4 = 0 ∨ fieldOf n 0 4 = 3 → anySet n [(47, 32)] = false) ∧
    (fieldOf n 0 4 = 1 → anySet n [(383, 376), (447, 432)] = false) ∧
    (fieldOf n 0 4 = 2 → fieldOf n 16 8 ≠ 0 ∧ s.epMask / 2 ^ fieldOf n 8 6 % 2 = 1) ∧
    (fieldOf n 0 4 = 0 → ∃ l k rs, LaunchRead s pasid (fieldOf n 64 56) l k rs 0)) ∧
  ∃ rank : Nat → Nat, ∀ i e, edges[i]? = some e → HubReads s pasid (fieldOf hd 128 56 + 8 * i) 8 e ∧ anySet e [(63, 33)] = false ∧
    fieldOf e 0 16 < nodes.length ∧ fieldOf e 16 16 < nodes.length ∧ rank (fieldOf e 0 16) < rank (fieldOf e 16 16) ∧
    (fieldOf e 32 1 = 1 → ∀ a ∈ [fieldOf e 0 16, fieldOf e 16 16], fieldOf (nodes.getD a 0) 0 4 = 0)

/-! ### Instructions that work lane by lane (R118 to R153) -/

/-- IADD, IADD3, ISUB, IMUL, IMULH, IMAD, IMIN, IMAX, IABS, INEG, ISAD and LEA complete in every state: each active lane's
destination receives the exact value of R134's table, wrapped or saturated, and nothing else changes. -/
def Obligations.IntegerArithmeticWritesExactValue : Prop :=
  ∀ (h : Hdr) (o : AluOps) (s : State), o.ty ∈ [Ty.dflt, .i32, .n32] →
    let a := fun l => typeInt o.ty (src s s.curG o.imm o.a l)
    let b := fun l => typeInt o.ty (src s s.curG o.imm o.b l)
    let c := fun l => typeInt o.ty (src s s.curG o.imm o.c l)
    let writes := fun (i : Instr) (x : Nat → Int) =>
      Gives (exec i s) fun t => LaneWrites s t h o.d (fun l => [written o (x l)]) fun _ => 0
    writes (.iadd h o) (fun l => a l + b l) ∧
    writes (.iadd3 h o) (fun l => a l + b l + c l) ∧
    writes (.isub h o) (fun l => a l - b l) ∧
    writes (.imul h o) (fun l => a l * b l) ∧
    (o.sat = false → writes (.imulh h o) (fun l => (a l * b l) / 2 ^ 32)) ∧
    writes (.imad h o) (fun l => a l * b l + c l) ∧
    (o.sat = false → writes (.imin h o) (fun l => if a l ≤ b l then a l else b l)) ∧
    (o.sat = false → writes (.imax h o) (fun l => if a l ≤ b l then b l else a l)) ∧
    writes (.iabs h o) (fun l => if a l < 0 then - a l else a l) ∧
    writes (.ineg h o) (fun l => - a l) ∧
    writes (.isad h o) (fun l => (if a l ≤ b l then b l - a l else a l - b l) + c l) ∧
    Gives (exec (.lea h o) s) fun t => LaneWrites s t h o.d (fun l =>
      [BitVec.ofNat 32 ((src s s.curG o.imm o.a l).toNat + (src s s.curG o.imm o.b l).toNat * 2 ^ o.mod.toNat)]) fun _ => 0

/-- IMADW, IDP4 and IDP2 complete in every state: the pair from D receives a × b + the pair from C modulo 2^64 (R135), and D
the dot product over the 8-bit or 16-bit elements plus C, exact until it is wrapped or saturated once (R136). -/
def Obligations.WideAndDotProductsAreExact : Prop :=
  ∀ (h : Hdr) (o : AluOps) (s : State),
    let a := src s s.curG o.imm o.a
    let b := src s s.curG o.imm o.b
    let c := src s s.curG o.imm o.c
    let c1 := src s s.curG o.imm (Opnd.plus o.c 1)
    (o.ty ∈ [Ty.dflt, .i32, .n32] → Gives (exec (.imadw h o) s) fun t => ∃ lo hi : Nat → Word,
      LaneWrites s t h o.d (fun l => [lo l, hi l]) (fun _ => 0) ∧
      ∀ l, (((lo l).toNat + 2 ^ 32 * (hi l).toNat : Nat) : Int) =
        (typeInt o.ty (a l) * typeInt o.ty (b l) + ((c l).toNat + 2 ^ 32 * typeInt o.ty (c1 l))) % 2 ^ 64) ∧
    (o.ty ∈ [Ty.i8, .n8] → Gives (exec (.idp4 h o) s) fun t => LaneWrites s t h o.d (fun l =>
      [dotWritten o ((List.range 4).map fun e => elemOf 8 e (o.ty == .i8) (a l) * elemOf 8 e (dotSigned o) (b l)) (c l)])
      fun _ => 0) ∧
    (o.ty ∈ [Ty.i16, .n16] → Gives (exec (.idp2 h o) s) fun t => LaneWrites s t h o.d (fun l =>
      [dotWritten o ((List.range 2).map fun e => elemOf 16 e (o.ty == .i16) (a l) * elemOf 16 e (dotSigned o) (b l)) (c l)])
      fun _ => 0)

/-- AND, OR, XOR, NOT, LOGT, SHL, SHR, SAR, ROT, FSHL, POPC, CLZ, CTZ and BREV complete in every state, and each active lane's
destination receives the value of R137's table. -/
def LogicAndShiftsWriteTheTableValue : Prop :=
  ∀ (h : Hdr) (o : AluOps) (s : State),
    let a := src s s.curG o.imm o.a
    let b := src s s.curG o.imm o.b
    let c := src s s.curG o.imm o.c
    let d := src s s.curG o.imm o.d
    let writes := fun (i : Instr) (P : Nat → Word → Prop) =>
      Gives (exec i s) fun t => ∃ r : Nat → Word, LaneWrites s t h o.d (fun l => [r l]) (fun _ => 0) ∧ ∀ l, P l (r l)
    writes (.land h o) (fun l r => ∀ i < 32, r.getLsbD i = ((a l).getLsbD i && (b l).getLsbD i)) ∧
    writes (.lor h o) (fun l r => ∀ i < 32, r.getLsbD i = ((a l).getLsbD i || (b l).getLsbD i)) ∧
    writes (.lxor h o) (fun l r => ∀ i < 32, r.getLsbD i = ((a l).getLsbD i != (b l).getLsbD i)) ∧
    writes (.lnot h o) (fun l r => ∀ i < 32, r.getLsbD i = !(a l).getLsbD i) ∧
    writes (.logt h o) (fun l r => ∀ i < 32, r.getLsbD i = o.imm.getLsbD (((a l).getLsbD i).toNat +
      2 * ((b l).getLsbD i).toNat + 4 * ((d l).getLsbD i).toNat)) ∧
    writes (.shl h o) (fun l r => r.toNat = if 32 ≤ (b l).toNat then 0 else (a l).toNat * 2 ^ (b l).toNat % 2 ^ 32) ∧
    writes (.shr h o) (fun l r => r.toNat = if 32 ≤ (b l).toNat then 0 else (a l).toNat / 2 ^ (b l).toNat) ∧
    writes (.sar h o) (fun l r => r.toInt = (a l).toInt / 2 ^ (min (b l).toNat 31)) ∧
    writes (.rot h o) (fun l r => ∀ i < 32, r.getLsbD ((i + (b l).toNat) % 32) = (a l).getLsbD i) ∧
    writes (.fshl h o) (fun l r => r.toNat =
      (((a l).toNat * 2 ^ 32 + (b l).toNat) * 2 ^ (min (c l).toNat 32)) % 2 ^ 64 / 2 ^ 32) ∧
    writes (.popc h o) (fun l r => r.toNat = ((List.range 32).map fun i => ((a l).getLsbD i).toNat).sum) ∧
    writes (.clz h o) (fun l r => if a l = 0 then r = 32 else
      r.toNat < 32 ∧ (a l).getLsbD (31 - r.toNat) = true ∧ ∀ i, 31 - r.toNat < i → (a l).getLsbD i = false) ∧
    writes (.ctz h o) (fun l r => if a l = 0 then r = 32 else
      r.toNat < 32 ∧ (a l).getLsbD r.toNat = true ∧ ∀ i, i < r.toNat → (a l).getLsbD i = false) ∧
    writes (.brev h o) (fun l r => ∀ i < 32, r.getLsbD i = (a l).getLsbD (31 - i))

/-- BFE, BFI and BMIX complete in every state. BFE extracts the field at b[7:0] of length b[15:8], zero- or sign-extended;
BFI replaces that field of b by the low bits of a (R139); BMIX builds the result from its byte 0 upward (R140). -/
def BitFieldsExtractInsertAndMix : Prop :=
  ∀ (h : Hdr) (o : AluOps) (s : State),
    let a := src s s.curG o.imm o.a
    let b := src s s.curG o.imm o.b
    let c := src s s.curG o.imm o.c
    let writes := fun (i : Instr) (P : Nat → Word → Prop) =>
      Gives (exec i s) fun t => ∃ r : Nat → Word, LaneWrites s t h o.d (fun l => [r l]) (fun _ => 0) ∧ ∀ l, P l (r l)
    (o.ty ∈ [Ty.dflt, .i32, .n32] → writes (.bfe h o) fun l r =>
      let pos := (b l).toNat % 256
      let len := (b l).toNat / 256 % 256
      if len = 0 ∨ 32 ≤ pos then r = 0
      else ∀ i < 32, r.getLsbD i =
        if pos + i < min (pos + len) 32 then (a l).getLsbD (pos + i)
        else o.ty == .i32 && (a l).getLsbD (min (pos + len) 32 - 1)) ∧
    writes (.bfi h o) (fun l r =>
      let pos := (c l).toNat % 256
      let len := (c l).toNat / 256 % 256
      ∀ i < 32, r.getLsbD i = if pos ≤ i ∧ i < pos + len then (a l).getLsbD (i - pos) else (b l).getLsbD i) ∧
    writes (.bmix h o) (fun l r => ∀ k < 4,
      let sel := (c l).toNat / 16 ^ k % 16
      let byte := fun (w : Word) (i : Nat) => w.toNat / 256 ^ i % 256
      byte r k = if sel < 4 then byte (a l) sel else if sel < 8 then byte (b l) (sel - 4)
        else if sel = 9 then (if k ≠ 0 ∧ 128 ≤ byte r (k - 1) then 255 else 0)
        else if sel = 15 then 255 else 0)

/-- ICMP, FCMP, PLOG, SEL, MOV, MOVI and both forms of PMOV complete in every state: the predicate or register receives the
comparison, the table entry, the selected, moved or packed value (R141 to R146); FCMP raises IV where R141 says so. -/
def ComparesSelectsAndMovesWriteTheirValue : Prop :=
  ∀ (h : Hdr) (o : AluOps) (s : State),
    let a := src s s.curG o.imm o.a
    let b := src s s.curG o.imm o.b
    let x := fun l => f32 (a l)
    let y := fun l => f32 (b l)
    let nan := fun l => (x l).isNan || (y l).isNan
    let writes := fun (i : Instr) (v : Nat → Word) (f : Nat → Fl) =>
      Gives (exec i s) fun t => LaneWrites s t h o.d (fun l => [v l]) f
    (o.ty ∈ [Ty.dflt, .i32, .n32] → o.mod.toNat < 6 → writes (.icmp h o) (fun l => truth
      (match o.mod.toNat with
        | 0 => decide (typeInt o.ty (a l) = typeInt o.ty (b l))
        | 1 => decide (typeInt o.ty (a l) ≠ typeInt o.ty (b l))
        | 2 => decide (typeInt o.ty (a l) < typeInt o.ty (b l))
        | 3 => decide (typeInt o.ty (a l) ≤ typeInt o.ty (b l))
        | 4 => decide (typeInt o.ty (a l) > typeInt o.ty (b l))
        | _ => decide (typeInt o.ty (a l) ≥ typeInt o.ty (b l)))) fun _ => 0) ∧
    writes (.fcmp h o) (fun l => truth
      (match o.mod.toNat with
        | 0 => !nan l && decide (Exact.cmp (x l) (y l) = .eq)
        | 1 => nan l || decide (Exact.cmp (x l) (y l) ≠ .eq)
        | 2 => !nan l && decide (Exact.cmp (x l) (y l) = .lt)
        | 3 => !nan l && decide (Exact.cmp (x l) (y l) ≠ .gt)
        | 4 => !nan l && decide (Exact.cmp (x l) (y l) = .gt)
        | 5 => !nan l && decide (Exact.cmp (x l) (y l) ≠ .lt)
        | 6 => !nan l
        | _ => nan l)) (fun l => if nan l ∧ 2 ≤ o.mod.toNat ∧ o.mod.toNat ≤ 5 then 1 else 0) ∧
    ((∃ i j k, o.d = .spc i ∧ o.a = .spc j ∧ o.b = .spc k ∧ i.toNat < 8 ∧ j.toNat < 8 ∧ k.toNat < 8) →
      writes (.plog h o) (fun l => truth (o.imm.getLsbD ((predOf (s.curG.lane l) o.a.index).toNat +
        2 * (predOf (s.curG.lane l) o.b.index).toNat + 4 * (predOf (s.curG.lane l) o.d.index).toNat))) fun _ => 0) ∧
    (∀ i, o.c = .spc i → i.toNat < 8 → writes (.sel h o)
      (fun l => if predOf (s.curG.lane l) i.toNat = o.mod.getLsbD 0 then b l else a l) fun _ => 0) ∧
    writes (.mov h o) a (fun _ => 0) ∧
    writes (.movi h o) (fun _ => o.imm) (fun _ => 0) ∧
    (Gives (exec (.pmov h o) s) fun t => ∃ r : Nat → Word, LaneWrites s t h o.d (fun l => [r l]) (fun _ => 0) ∧
      ∀ l i, (r l).getLsbD i = (decide (i < 7) && predOf (s.curG.lane l) i)) ∧
    Gives (exec (.pmovP h o) s) fun t => OnlyGroup s t ∧ t.curG = { s.curG with lanes := t.curG.lanes } ∧ LanesMoved s t ∧
      (∀ l j, t.curG.vreg l j = s.curG.vreg l j) ∧
      ∀ l k, k < 7 → predOf (t.curG.lane l) k =
        if l ∈ activeLanes s h ∧ o.imm.getLsbD k = true then (a l).getLsbD k else predOf (s.curG.lane l) k

/-- MOVS and RDLANE complete in every state: the uniform destination receives the lowest active lane's value of A, or lane
(Src(B) mod width)'s, active or not; with no active lane nothing is written (R145). -/
def UniformMovesReadOneLane : Prop :=
  ∀ (h : Hdr) (o : AluOps) (s : State) (i : BitVec 8), o.d = .uni i →
    let wrote := fun (t : State) (v : Nat → Word) => ∀ j, t.curG.ureg j =
      match activeLanes s h with
      | [] => s.curG.ureg j
      | l :: _ => if j = i.toNat then v l else s.curG.ureg j
    let frame := fun (t : State) => OnlyGroup s t ∧ LanesMoved s t ∧
      t.curG = { s.curG with lanes := t.curG.lanes, s := t.curG.s } ∧ (∀ l j, t.curG.vreg l j = s.curG.vreg l j) ∧
      ∀ l k, predOf (t.curG.lane l) k = predOf (s.curG.lane l) k
    (Gives (exec (.movs h o) s) fun t => frame t ∧ wrote t fun l => src s s.curG o.imm o.a l) ∧
    Gives (exec (.rdlane h o) s) fun t => frame t ∧ wrote t fun l =>
      src s s.curG o.imm o.a ((src s s.curG o.imm o.b l).toNat % s.curG.width)

/-- `ComparesSelectsAndMovesWriteTheirValue` and `UniformMovesReadOneLane` together. -/
def Obligations.ComparesSelectsAndUniformMovesWriteTheirValue : Prop := ComparesSelectsAndMovesWriteTheirValue ∧ UniformMovesReadOneLane

/-- `LogicAndShiftsWriteTheTableValue` and `BitFieldsExtractInsertAndMix` together. -/
def Obligations.LogicShiftsAndBitFieldsWriteTheirValue : Prop := LogicAndShiftsWriteTheTableValue ∧ BitFieldsExtractInsertAndMix
/-! ### Floating point, conversions and lanes (R70 to R79, R147 to R158) -/

/-- FADD, FSUB, FMUL and FFMA complete in every state and follow R147: NaN operands, then invalid operations, then one
rounding of the exact sum, difference, product or fused sum. -/
def Obligations.FloatArithmeticRoundsTheExactResultOnce : Prop :=
  ∀ (h : Hdr) (o : AluOps) (s : State),
    let a := fun l => f32 (src s s.curG o.imm o.a l)
    let b := fun l => f32 (src s s.curG o.imm o.b l)
    let c := fun l => f32 (src s s.curG o.imm o.c l)
    let rdn := o.rnd == .rdn
    let writes := fun (i : Instr) (P : Nat → Nat × Fl → Prop) => Gives (exec i s) fun t => ∃ p : Nat → Nat × Fl,
      LaneWrites s t h o.d (fun l => [BitVec.ofNat 32 (p l).1]) (fun l => (p l).2) ∧ ∀ l, P l (p l)
    writes (.fadd h o) (fun l => FloatRule fmt32 o.rnd [a l, b l] (opposite (a l) (b l)) (IsSum rdn (a l) (b l))) ∧
    writes (.fsub h o) (fun l => FloatRule fmt32 o.rnd [a l, b l] (opposite (a l) (b l).flip)
      (IsSum rdn (a l) (b l).flip)) ∧
    writes (.fmul h o) (fun l => FloatRule fmt32 o.rnd [a l, b l] (zeroTimesInf (a l) (b l)) (IsProduct (a l) (b l))) ∧
    writes (.ffma h o) (fun l => FloatRule fmt32 o.rnd [a l, b l, c l]
      (zeroTimesInf (a l) (b l) || (((a l).isInf || (b l).isInf) && (c l).isInf && (((a l).neg != (b l).neg) != (c l).neg)))
      fun x => ∃ p, IsProduct (a l) (b l) p ∧ IsSum rdn p (c l) x)

/-- FSCL, FMIN, FMAX, FRND and FCLASS complete in every state. FSCL multiplies by 2^n; FMIN and FMAX pick an operand's
pattern with −0 below +0 (R148); FRND rounds to an integral value and raises nothing (R149); FCLASS sets one bit (R150). -/
def Obligations.ScaleMinimumRoundAndClassFollowTheirRules : Prop :=
  ∀ (h : Hdr) (o : AluOps) (s : State),
    let a := src s s.curG o.imm o.a
    let b := src s s.curG o.imm o.b
    let writes := fun (i : Instr) (P : Nat → Word → Prop) => Gives (exec i s) fun t => ∃ r : Nat → Word,
      LaneWrites s t h o.d (fun l => [r l]) (fun _ => 0) ∧ ∀ l, P l (r l)
    (Gives (exec (.fscl h o) s) fun t => ∃ p : Nat → Nat × Fl,
      LaneWrites s t h o.d (fun l => [BitVec.ofNat 32 (p l).1]) (fun l => (p l).2) ∧
      ∀ l, if (f32 (a l)).isNan then p l = (0x7FC00000, 0)
        else -600 ≤ (b l).toInt → (b l).toInt ≤ 600 → ∃ x, p l = conv fmt32 o.rnd false x ∧
          if (f32 (a l)).isInf then x = f32 (a l)
          else ∃ num e, x = .fin (f32 (a l)).neg num 1 e ∧
            finVal (f32 (a l)).neg num 1 e = Exact.val (f32 (a l)) * (2 : ℚ) ^ (b l).toInt) ∧
    (Gives (exec (.fscl h o) s) fun t => ∃ p : Nat → Nat × Fl,
      LaneWrites s t h o.d (fun l => [BitVec.ofNat 32 (p l).1]) (fun l => (p l).2) ∧
      ∀ l, let n := (f32 (a l)).neg
        ((f32 (a l)).isInf ∨ (f32 (a l)).isZero → BitVec.ofNat 32 (p l).1 = a l ∧ (p l).2 = 0) ∧
        (isFinite (f32 (a l)) → (f32 (a l)).isZero = false → 600 < (b l).toInt →
          p l = (fmt32.signed n (fmt32.overCode o.rnd false n), 4 ||| 16)) ∧
        (isFinite (f32 (a l)) → (f32 (a l)).isZero = false → (b l).toInt < -600 →
          p l = (fmt32.signed n (if o.rnd = .rup ∧ n = false ∨ o.rnd = .rdn ∧ n = true then 1 else 0), 8 ||| 16))) ∧
    writes (.fmin h o) (fun l r => PickRule fmt32 true (a l).toNat (b l).toNat r.toNat) ∧
    writes (.fmax h o) (fun l r => PickRule fmt32 false (a l).toNat (b l).toNat r.toNat) ∧
    writes (.frnd h o) (fun l r => match f32 (a l) with
      | .nan => r = 0x7FC00000
      | .inf _ => r = a l
      | .fin n num den e => ∃ m : Nat, r = (toF32 .rne (.fin n m 1 0)).1 ∧
        (num = 0 → m = 0) ∧
        let v := finVal false num den e
        match o.rnd with
        | .rtz => (m : ℚ) ≤ v ∧ v < m + 1
        | .rup => if n then (m : ℚ) ≤ v ∧ v < m + 1 else v ≤ m ∧ (m : ℚ) < v + 1
        | .rdn => if n then v ≤ m ∧ (m : ℚ) < v + 1 else (m : ℚ) ≤ v ∧ v < m + 1
        | .rne => |v - m| ≤ 1 / 2 ∧ (|v - m| = 1 / 2 → m % 2 = 0)) ∧
    writes (.fclass h o) (fun l r => ∃ k, r = BitVec.ofNat 32 (2 ^ k) ∧ match f32 (a l) with
      | .nan => k = 8
      | .inf n => k = if n then 0 else 7
      | .fin n num _ _ => if num = 0 then k = if n then 3 else 4
        else if num < 2 ^ 23 then k = if n then 2 else 5 else k = if n then 1 else 6)

/-- PKADD, PKMUL, PKFMA, PKMIN and PKMAX complete in every state: each 16-bit half obeys R147 or R148 in BF16 or FP16, and
the flags of both halves are raised (R152). -/
def Obligations.PackedHalvesFollowTheScalarRules : Prop :=
  ∀ (h : Hdr) (o : AluOps) (s : State),
    let F := if o.ty = .f16 then fmtH16 else fmtB16
    let half := fun (w : Word) (k : Nat) => w.toNat / 2 ^ (16 * k) % 2 ^ 16
    let a := fun l k => F.decode (half (src s s.curG o.imm o.a l) k)
    let b := fun l k => F.decode (half (src s s.curG o.imm o.b l) k)
    let c := fun l k => F.decode (half (src s s.curG o.imm o.c l) k)
    let rdn := o.rnd == .rdn
    let writes := fun (i : Instr) (P : Nat → Nat → Nat × Fl → Prop) => Gives (exec i s) fun t =>
      ∃ p : Nat → Nat → Nat × Fl,
      LaneWrites s t h o.d (fun l => [BitVec.ofNat 32 ((p l 1).1 * 2 ^ 16 + (p l 0).1)]) (fun l => (p l 0).2 ||| (p l 1).2) ∧
      ∀ l k, k < 2 → (p l k).1 < 2 ^ 16 ∧ P l k (p l k)
    writes (.pkadd h o) (fun l k => FloatRule F o.rnd [a l k, b l k] (opposite (a l k) (b l k)) (IsSum rdn (a l k) (b l k))) ∧
    writes (.pkmul h o) (fun l k => FloatRule F o.rnd [a l k, b l k] (zeroTimesInf (a l k) (b l k))
      (IsProduct (a l k) (b l k))) ∧
    writes (.pkfma h o) (fun l k => FloatRule F o.rnd [a l k, b l k, c l k]
      (zeroTimesInf (a l k) (b l k) ||
        (((a l k).isInf || (b l k).isInf) && (c l k).isInf && (((a l k).neg != (b l k).neg) != (c l k).neg)))
      fun x => ∃ p, IsProduct (a l k) (b l k) p ∧ IsSum rdn p (c l k) x) ∧
    writes (.pkmin h o) (fun l k p => p.2 = 0 ∧
      PickRule F true (half (src s s.curG o.imm o.a l) k) (half (src s s.curG o.imm o.b l) k) p.1) ∧
    writes (.pkmax h o) (fun l k p => p.2 = 0 ∧
      PickRule F false (half (src s s.curG o.imm o.a l) k) (half (src s s.curG o.imm o.b l) k) p.1)

/-- FRCP, FRSQ, FSQRT, FEX2, FLG2, FSIN, FCOS, FTANH and FSIGM complete in every state, and their special and exact cases are
R153's: NaN gives the canonical NaN without a flag; zeros, infinities and negative operands give the listed results and flags;
FRCP's other results are Conv of the exact reciprocal. -/
def Obligations.SpecialFunctionsFollowTheListedCases : Prop :=
  ∀ (h : Hdr) (o : AluOps) (s : State),
    let a := fun l => f32 (src s s.curG o.imm o.a l)
    let pos := fun l => (a l).isInf && !(a l).neg
    let mns := fun l => (a l).isInf && (a l).neg
    let below := fun l => (a l).neg && !(a l).isZero
    let zero := fun l => (a l).isZero
    let IV : Fl := 1
    let DZ : Fl := 2
    let OF : Fl := 4
    let nan : Word := 0x7FC00000
    let sgn := fun l (w : Word) => if (a l).neg then w + 0x80000000#32 else w
    let writes := fun (i : Instr) (P : Nat → Word × Fl → Prop) => Gives (exec i s) fun t => ∃ p : Nat → Word × Fl,
      LaneWrites s t h o.d (fun l => [(p l).1]) (fun l => (p l).2) ∧ ∀ l,
        if (a l).isNan then p l = (nan, 0) else P l (p l)
    writes (.frcp h o) (fun l p => if (a l).isInf then p = (sgn l 0, 0) else if zero l then p = (sgn l 0x7F800000, DZ)
      else ∃ n num den e, p = toF32 o.rnd (.fin n num den e) ∧ n = (a l).neg ∧ 0 < den ∧
        finVal n num den e = 1 / Exact.val (a l)) ∧
    writes (.frsq h o) (fun l p => (zero l → p = (sgn l 0x7F800000, DZ)) ∧ (below l → p = (nan, IV)) ∧
      (pos l → p = (0, 0)) ∧ ∀ k : Int, isFinite (a l) → Exact.val (a l) = 4 ^ k → p = ((toF32 .rne (.fin false 1 1 (-k))).1, 0)) ∧
    writes (.fsqrt h o) (fun l p => (zero l → p = (sgn l 0, 0)) ∧ (below l → p = (nan, IV)) ∧ (pos l → p = (0x7F800000, 0))) ∧
    writes (.fex2 h o) (fun l p => (mns l → p = (0, 0)) ∧ (pos l → p = (0x7F800000, 0)) ∧
      (isFinite (a l) → 128 ≤ Exact.val (a l) → p = (0x7F800000, OF)) ∧
      ∀ k : Int, isFinite (a l) → Exact.val (a l) = k → -149 ≤ k → k ≤ 127 → p = ((toF32 .rne (.fin false 1 1 k)).1, 0)) ∧
    writes (.flg2 h o) (fun l p => (zero l → p = (0xFF800000, DZ)) ∧ (below l → p = (nan, IV)) ∧
      (pos l → p = (0x7F800000, 0)) ∧
      ∀ k : Int, isFinite (a l) → Exact.val (a l) = 2 ^ k → p = ((toF32 .rne (Exact.ofInt k)).1, 0)) ∧
    writes (.fsin h o) (fun l p => (zero l → p = (sgn l 0, 0)) ∧ ((a l).isInf → p = (nan, IV))) ∧
    writes (.fcos h o) (fun l p => (zero l → p = (0x3F800000, 0)) ∧ ((a l).isInf → p = (nan, IV))) ∧
    writes (.ftanh h o) (fun l p => (zero l → p = (sgn l 0, 0)) ∧ ((a l).isInf → p = (sgn l 0x3F800000, 0)) ∧
      (isFinite (a l) → 10 ≤ |Exact.val (a l)| → p = (sgn l 0x3F800000, 0))) ∧
    writes (.fsigm h o) (fun l p => (zero l → p = (0x3F000000, 0)) ∧ (mns l → p = (0, 0)) ∧ (pos l → p = (0x3F800000, 0)))
/-- CVT, CVTP and CVTU complete in every state for every legal form. CVT converts one element and keeps the other bits of D
(R74); CVTP rounds eight exact quotients by the scale code into one block (R75); CVTU multiplies eight elements by it (R76). -/
def ConversionsRoundEachElementOnce : Prop :=
  ∀ (h : Hdr) (o : AluOps) (s : State),
    let a := src s s.curG o.imm o.a
    let b := src s s.curG o.imm o.b
    let code := fun l => byteAt (o.mod.toNat % 4) (b l)
    let t := if o.ty = .dflt then Ty.e2m1 else o.ty
    let blk := fun i l => src s s.curG o.imm (Opnd.plus o.a i) l
    ((Instr.cvt h o).wellFormed = true → Gives (exec (.cvt h o) s) fun u => ∃ (r : Nat → Word) (p : Nat → Nat × Fl),
      LaneWrites s u h o.d (fun l => [r l]) (fun l => (p l).2) ∧ ∀ l,
        let st := Ty.ofBits (o.imm.extractLsb' 0 4)
        let lo := tyWidth o.ty * (o.imm.toNat / 256 % 32)
        CvtRule o st (elemExact st (o.imm.toNat / 16 % 16) (a l))
          (if o.mod.getLsbD 0 then some (stochBits (b l) l (o.imm.toNat / 256 % 32)) else none) (p l) ∧
        ∀ i < 32, (r l).getLsbD i = if lo ≤ i ∧ i < lo + tyWidth o.ty then (p l).1.testBit (i - lo)
          else (src s s.curG o.imm o.d l).getLsbD i) ∧
    (t ∈ [Ty.e2m1, .e4m3, .e5m2] → Gives (exec (.cvtp h o) s) fun u => ∃ c : Nat → Nat → Nat × Fl,
      (let n := 2 ^ tyWidth t
       let word := fun l k w => BitVec.ofNat 32 (((List.range w).map fun i => (c l (k + i)).1 * n ^ i).sum)
       LaneWrites s u h o.d (fun l => if t = .e2m1 then [word l 0 8] else [word l 0 4, word l 4 4])
        (fun l => (List.range 8).foldl (fun f i => f ||| (c l i).2) 0)) ∧
      ∀ l i, i < 8 → (c l i).1 < 2 ^ tyWidth t ∧ if code l = 0 then c l i = (0, 0)
        else ∃ q, c l i = (if o.mod.getLsbD 2 then convSr (tyFmt t) o.sat (stochBits (src s s.curG o.imm o.c l) l i) q
            else conv (tyFmt t) o.rnd o.sat q) ∧
          let x := f32 (blk i l)
          if isFinite x then IsValue q x.neg (|Exact.val x| / decScale (code l)) else q = x) ∧
    (t ∈ [Ty.e2m1, .e4m3, .e5m2] → Gives (exec (.cvtu h o) s) fun u => ∃ c : Nat → Nat → Nat × Fl,
      LaneWrites s u h o.d (fun l => if o.mod.getLsbD 2
          then (List.range 4).map fun j => BitVec.ofNat 32 ((c l (2 * j + 1)).1 * 2 ^ 16 + (c l (2 * j)).1)
          else (List.range 8).map fun i => BitVec.ofNat 32 (c l i).1)
        (fun l => (List.range 8).foldl (fun f i => f ||| (c l i).2) 0) ∧
      ∀ l i, i < 8 → ∃ w, c l i = (if o.mod.getLsbD 2 then conv fmtB16 o.rnd false w else conv fmt32 .rne false w) ∧
        let per := 32 / tyWidth t
        let y := elemExact t (i % per) (blk (i / per) l)
        if code l = 0 then w = .fin false 0 1 0 else if isFinite y then IsValue w y.neg (|Exact.val y| * decScale (code l)) else w = y)

/-- AMAX, SCALEQ and ABSSUM complete in every state: the largest magnitude, NaN elements ignored (R77); the least scale code
that reaches |a|, in byte BSEL of D (R78); and each block's sum of magnitudes, rounded upward (R79). -/
def MaximaScalesAndBlockSumsAreBounds : Prop :=
  ∀ (h : Hdr) (o : AluOps) (s : State),
    let a := fun l => f32 (src s s.curG o.imm o.a l)
    let b := fun l => f32 (src s s.curG o.imm o.b l)
    let t := if o.ty = .dflt then Ty.f32 else o.ty
    let elems := fun l k => (List.range (32 / tyWidth t)).map fun e => elemExact t e (src s s.curG o.imm (Opnd.plus o.a k) l)
    (t ∈ [Ty.f32, .bf16, .f16] → Gives (exec (.amax h o) s) fun u => ∃ r : Nat → Word,
      LaneWrites s u h o.d (fun l => [r l]) (fun _ => 0) ∧ ∀ l,
        let mags := (((List.range (o.imm.toNat % 16 + 1)).flatMap (elems l)) ++
          (if o.mod.getLsbD 0 then [f32 (src s s.curG o.imm o.d l)] else [])).map Exact.abs
        ∃ m, r l = (toF32 .rne m).1 ∧ if mags.all Exact.isNan then m = .nan
          else m ∈ mags ∧ m ≠ .nan ∧ ∀ y ∈ mags, y = .nan ∨ Exact.cmp y m ≠ .gt) ∧
    (Gives (exec (.scaleq h o) s) fun u => ∃ (r : Nat → Word) (p : Nat → Nat × Fl),
      LaneWrites s u h o.d (fun l => [r l]) (fun l => (p l).2) ∧ ∀ l,
        HasByte (r l) (src s s.curG o.imm o.d l) (o.mod.toNat % 4) (p l).1 ∧
        let mag := |Exact.val (a l)|
        if isFinite (b l) = false ∨ Exact.val (b l) ≤ 0 ∨ (a l).isNan then p l = (255, 1)
        else if isFinite (a l) ∧ mag = 0 then p l = (0, 0)
        else if isFinite (a l) = false ∨ decScale 255 * Exact.val (b l) < mag then p l = (255, 64)
        else mag ≤ decScale (p l).1 * Exact.val (b l) ∧ (p l).1 < 256 ∧
          (∀ c < (p l).1, decScale c * Exact.val (b l) < mag) ∧
          (p l).2 = if mag < decScale 1 * Exact.val (b l) then 64 else 0) ∧
    (t ∈ [Ty.f32, .bf16, .f16, .e4m3, .e5m2, .e2m1] → Gives (exec (.abssum h o) s) fun u => ∃ r : Nat → Nat → Word × Fl,
      let n := o.imm.toNat % 8 + 1
      LaneWrites s u h o.d (fun l => (List.range n).map fun j => (r l j).1)
        (fun l => (List.range n).foldl (fun f j => f ||| (r l j).2) 0) ∧ ∀ l j, j < n →
        let per := 32 / tyWidth t
        let regs := 8 / per
        let x := (List.range 8).map fun i => elemExact t (i % per) (src s s.curG o.imm (Opnd.plus o.a (j * regs + i / per)) l)
        let at' := o.mod.toNat / 2 % 4 + j
        let code := byteAt (at' % 4) (src s s.curG o.imm (Opnd.plus o.b (at' / 4)) l)
        let scaled := o.mod.getLsbD 0
        if scaled ∧ code = 0 then r l j = (0, 0)
        else if x.any Exact.isNan then r l j = (0x7F800000, 1)
        else if x.any Exact.isInf then r l j = (0x7F800000, 0)
        else ∃ y, r l j = toF32 .rup y ∧
          IsValue y false ((x.map fun e => |Exact.val e|).sum * if scaled then decScale code else 1))

/-- SHFL, VOTE and MATCH complete in every state: another lane's value, active or not, unless that lane is out of range or
has exited (R155); the vote over the active lanes (R156); the mask of active lanes with the same value (R158). -/
def ShufflesVotesAndMatchesReadTheActiveLanes : Prop :=
  ∀ (h : Hdr) (o : AluOps) (s : State),
    let a := src s s.curG o.imm o.a
    let b := src s s.curG o.imm o.b
    let act := activeLanes s h
    let mask := fun (P : Nat → Bool) (lo hi : Word) => ∀ j < 32,
      lo.getLsbD j = (act.contains j && P j) ∧ hi.getLsbD j = (act.contains (j + 32) && P (j + 32))
    let from' : Nat → Int := fun l => match o.mod.toNat % 4 with
      | 0 => (((b l).toNat % s.curG.width : Nat) : Int)
      | 1 => (l : Int) - ((b l).toNat : Int)
      | 2 => (l : Int) + ((b l).toNat : Int)
      | _ => ((BitVec.ofNat 32 l ^^^ b l).toNat : Int)
    (Gives (exec (.shfl h o) s) fun t => LaneWrites s t h o.d
      (fun l => [if 0 ≤ from' l ∧ from' l < (s.curG.width : Int) ∧ (s.curG.lane (from' l).toNat).exited = false
        then a (from' l).toNat else a l]) fun _ => 0) ∧
    (∀ i, o.a = .spc i → i.toNat < 8 →
      let p := fun l => predOf (s.curG.lane l) i.toNat
      (o.mod.toNat % 4 ≠ 3 → Gives (exec (.vote h o) s) fun t => LaneWrites s t h o.d (fun _ => [truth
        (match o.mod.toNat % 4 with
          | 0 => act.all p
          | 1 => act.any p
          | _ => act.all p || act.all fun l => !p l)]) fun _ => 0) ∧
      (o.mod.toNat % 4 = 3 → Gives (exec (.vote h o) s) fun t => ∃ lo hi,
        LaneWrites s t h o.d (fun _ => [lo, hi]) (fun _ => 0) ∧ mask p lo hi)) ∧
    Gives (exec (.matchl h o) s) fun t => ∃ lo hi : Nat → Word,
      LaneWrites s t h o.d (fun l => [lo l, hi l]) (fun _ => 0) ∧ ∀ l, mask (fun j => a j == a l) (lo l) (hi l)

/-- REDL and SCANL complete in every state: the fold of the active lanes' values in ascending order (exact sum, minimum,
maximum, bitwise operation, or one FP32 rounding a step), for each lane the fold of the lanes up to it, or below it (R157). -/
def FoldsRunOverActiveLanesInOrder : Prop :=
  ∀ (h : Hdr) (o : AluOps) (s : State), o.mod.toNat < 6 → o.ty ∈ [Ty.dflt, .i32, .n32, .f32] →
    let act := activeLanes s h
    let a := src s s.curG o.imm o.a
    let fold := foldAll o o.mod.toNat
    (Gives (exec (.redl h o) s) fun t =>
      let vs := act.map a
      LaneWrites s t h o.d (fun _ => [(fold vs).1]) (fun _ => (fold vs).2) ∧
      ∀ v rest, vs = v :: rest → if o.ty = .f32 then
        fold vs = match o.mod.toNat with
          | 0 => rest.foldl (fun (acc : Word × Fl) w =>
              let p := fAdd fmt32 o.rnd (f32 acc.1) (f32 w)
              (BitVec.ofNat 32 p.1, acc.2 ||| p.2)) (v, 0)
          | 1 => (rest.foldl (fun acc w => BitVec.ofNat 32 (fminN fmt32 acc.toNat w.toNat)) v, 0)
          | _ => (rest.foldl (fun acc w => BitVec.ofNat 32 (fmaxN fmt32 acc.toNat w.toNat)) v, 0)
      else (fold vs).2 = 0 ∧ match o.mod.toNat with
        | 0 => (fold vs).1 = written o ((vs.map (typeInt o.ty)).sum)
        | 1 => (fold vs).1 ∈ vs ∧ ∀ w ∈ vs, typeInt o.ty (fold vs).1 ≤ typeInt o.ty w
        | 2 => (fold vs).1 ∈ vs ∧ ∀ w ∈ vs, typeInt o.ty w ≤ typeInt o.ty (fold vs).1
        | 3 => ∀ i < 32, (fold vs).1.getLsbD i = vs.all fun w => w.getLsbD i
        | 4 => ∀ i < 32, (fold vs).1.getLsbD i = vs.any fun w => w.getLsbD i
        | _ => ∀ i < 32, (fold vs).1.getLsbD i = (vs.map fun w => w.getLsbD i).foldl (· != ·) false) ∧
    Gives (exec (.scanl h o) s) fun t => ∃ (r : Nat → Word) (fl : Nat → Fl),
      LaneWrites s t h o.d (fun l => [r l]) fl ∧ ∀ l ∈ act,
        if o.imm.getLsbD 0 then r l = (if act.head? = some l then
            (match o.mod.toNat with
              | 1 => if o.ty = .f32 then 0x7F800000 else if o.ty = .n32 then 0xFFFFFFFF else 0x7FFFFFFF
              | 2 => if o.ty = .f32 then 0xFF800000 else if o.ty = .n32 then 0 else 0x80000000
              | 3 => if o.ty = .f32 then 0 else 0xFFFFFFFF
              | _ => 0)
            else (fold ((act.filter (· < l)).map a)).1)
        else r l = (fold ((act.filter (· ≤ l)).map a)).1 ∧ fl l = (fold (act.map a)).2

/-- `ShufflesVotesAndMatchesReadTheActiveLanes` and `FoldsRunOverActiveLanesInOrder` together. -/
def Obligations.CrossLaneOperationsReadTheActiveLanes : Prop := ShufflesVotesAndMatchesReadTheActiveLanes ∧ FoldsRunOverActiveLanesInOrder

/-- `ConversionsRoundEachElementOnce` and `MaximaScalesAndBlockSumsAreBounds` together. -/
def Obligations.ConversionsMaximaAndBlockSumsFollowTheirRules : Prop := ConversionsRoundEachElementOnce ∧ MaximaScalesAndBlockSumsAreBounds
/-! ### Control and the supervisor registers (R122 to R133, R345 to R351) -/

/-- NOP, BRA, BRX, CALL, CALLX and RET complete in every state: active lanes continue at the target, the other lanes of the
subgroup at the successor; CALL and CALLX write the successor to D, CALLX after its target is read (R123). -/
def BranchesMoveActiveLanesToTheirTarget : Prop :=
  ∀ (h : Hdr) (o : CtlOps) (s : State),
    let low := fun (w : Word) => BitVec.ofNat 24 w.toNat
    let a := fun l => low (src s s.curG o.imm o.a l)
    let went := fun (t : State) (target : Nat → Pc) =>
      LanesWentTo s t (fun l => if (activeLanes s h).contains l then target l else s.cur.next) ∧
      ∀ l, (t.curG.lane l).meet = (s.curG.lane l).meet
    let linked := fun (t : State) => OneWord s t h o.d fun _ => BitVec.ofNat 32 s.cur.next.toNat
    (Gives (exec (.nop h o) s) fun t => went t (fun _ => s.cur.next) ∧ RegsKept s t) ∧
    (Gives (exec (.bra h o) s) fun t => went t (fun _ => low o.imm) ∧ RegsKept s t) ∧
    (Gives (exec (.brx h o) s) fun t => went t a ∧ RegsKept s t) ∧
    (Gives (exec (.ret h o) s) fun t => went t a ∧ RegsKept s t) ∧
    (Gives (exec (.call h o) s) fun t => went t (fun _ => low o.imm) ∧ linked t) ∧
    Gives (exec (.callx h o) s) fun t => went t a ∧ linked t

/-- MEET, its saving and its restoring form complete in every state: each active lane's MEET receives the target, D its old
value, and the whole subgroup continues at the successor (R126). -/
def MeetSetsSavesAndRestoresTheMeetingPoint : Prop :=
  ∀ (h : Hdr) (o : CtlOps) (s : State),
    let low := fun (w : Word) => BitVec.ofNat 24 w.toNat
    let met := fun (t : State) (v : Nat → Pc) => LanesWentTo s t (fun _ => s.cur.next) ∧
      ∀ l, (t.curG.lane l).meet = if (activeLanes s h).contains l then v l else (s.curG.lane l).meet
    (Gives (exec (.meetSet h o) s) fun t => met t (fun _ => low o.imm) ∧ RegsKept s t) ∧
    (Gives (exec (.meetSave h o) s) fun t => met t (fun _ => low o.imm) ∧
      OneWord s t h o.d fun l => BitVec.ofNat 32 (s.curG.lane l).meet.toNat) ∧
    Gives (exec (.meetRestore h o) s) fun t => met t (fun l => low (src s s.curG o.imm o.a l)) ∧ RegsKept s t

/-- EXIT, YIELD and SLEEP complete in every state. EXIT ends the active threads and drops their outstanding vector results,
nothing else (R125); YIELD holds the group back for the 8 cycles of its partition after this one and changes no register (R127); SLEEP blocks the active lanes
for n cycles, not at all where n is 0 (R128). -/
def Obligations.ExitYieldAndSleepActOnTheActiveThreads : Prop :=
  ∀ (h : Hdr) (o : CtlOps) (s : State),
    let act := activeLanes s h
    (Gives (exec (.exit h o) s) fun t =>
      OnlyGroup s t ∧ RegsKept s t ∧ (∀ a, t.readLoc a = s.readLoc a) ∧
      t.curG = { s.curG with lanes := t.curG.lanes, pend := t.curG.pend } ∧
      (∀ l, l < s.curG.lanes.length → t.curG.lane l = if act.contains l then { laneAdvance s.cur (s.curG.lane l) with exited := true }
        else if s.cur.mask.getLsbD l then laneAdvance s.cur (s.curG.lane l) else s.curG.lane l) ∧
      ∀ p ∈ t.curG.pend, ∃ p0 ∈ s.curG.pend, p = { p0 with lanes := p.lanes } ∧
        p.lanes = (if p0.file = 0 then p0.lanes.filter fun x => !act.contains x.lane else p0.lanes)) ∧
    (Gives (exec (.yield h o) s) fun t =>
      OnlyGroup s t ∧ RegsKept s t ∧ LanesMoved s t ∧ (∀ a, t.readLoc a = s.readLoc a) ∧
      t.curG = { s.curG with lanes := t.curG.lanes, yieldTill := t.curG.yieldTill, yieldMask := s.cur.mask } ∧
      ∀ u : State, u.group s.cur.slot = t.group s.cur.slot →
        (u.yields s.cur.slot = true ↔ (u.part (slotPart s.cur.slot)).cyc ≤ (s.part (slotPart s.cur.slot)).cyc + 8)) ∧
    Gives (exec (.sleep h o) s) fun t =>
      OnlyGroup s t ∧ RegsKept s t ∧ (∀ a, t.readLoc a = s.readLoc a) ∧
      let n := match act with
        | [] => 0
        | l :: _ => (src s s.curG o.imm o.a l).toNat
      if n = 0 then LanesMoved s t ∧ t.curG.blocked = s.curG.blocked
      else (∃ b, t.curG.blocked = s.curG.blocked ++ [b] ∧ b.why = .sleep (s.now + n) ∧ b.pc = s.cur.pc ∧
          b.next = s.cur.next ∧ ∀ l, b.mask.getLsbD l = act.contains l) ∧
        ∀ l, l < s.curG.lanes.length → (t.curG.lane l).pc =
          if s.cur.mask.getLsbD l ∧ act.contains l = false then s.cur.next else (s.curG.lane l).pc

/-- TRAP takes the trap of cause 9 with its code as detail where a lane is active, and continues at the successor where none
is; ERET and supervisor CSRs outside a routine take the illegal-instruction trap of detail 0x0B (R129 to R131, R345 to
R348). No group of the statement runs a routine already. -/
def Obligations.TrapsSaveTheirCauseAndEnterTheRoutine : Prop :=
  ∀ (h : Hdr) (o : CtlOps) (s : State), NoRoutine s.curG →
    (Gives (exec (.trap h o) s) fun t =>
      if activeLanes s h = [] then OnlyGroup s t ∧ LanesMoved s t ∧ RegsKept s t ∧ t.curG = { s.curG with lanes := t.curG.lanes }
      else TookTrap s t 9 (o.imm.toNat % 2 ^ 16) 0) ∧
    ((∃ l, l < 64 ∧ inSub s l ∧ (s.curG.lane l).sup = false) →
      (Gives (exec (.eret h o) s) fun t => TookTrap s t 1 0x0B s.cur.pc.toNat) ∧
      (0x100 ≤ o.imm.toNat → (Gives (exec (.csrr h o) s) fun t => TookTrap s t 1 0x0B s.cur.pc.toNat) ∧
        Gives (exec (.csrw h o) s) fun t => TookTrap s t 1 0x0B s.cur.pc.toNat))

/-- ERET in a routine completes: an ERET that not all threads of the trapped set have reached holds its active lanes; the
last one takes every thread of the set out of supervisor mode to TRAPPC, and held subgroups run again (R345, R350). -/
def Obligations.EretReturnsTheTrappedSetToTrappc : Prop :=
  ∀ (h : Hdr) (o : CtlOps) (s : State), (∀ l, l < 64 → inSub s l → (s.curG.lane l).sup = true) →
    s.curG.trapcause.getLsbD 5 = false → s.cur.rep = none →
    let act := activeLanes s h
    let there := fun l => (s.curG.lane l).sup = false ∨ (s.curG.lane l).exited = true ∨ act.contains l = true ∨
      (s.curG.lane l).atEret = true
    Gives (exec (.eret h o) s) fun t =>
      OnlyGroup s t ∧ RegsKept s t ∧ (∀ a, t.readLoc a = s.readLoc a) ∧ t.curG = { s.curG with lanes := t.curG.lanes } ∧
      t.curG.lanes.length = s.curG.lanes.length ∧
      ((∀ l, l < s.curG.lanes.length → there l) → ∀ l, l < s.curG.lanes.length →
        (t.curG.lane l).trapHeld = false ∧
        if (s.curG.lane l).sup = true ∧ (s.curG.lane l).exited = false then
          (t.curG.lane l).pc = s.curG.trappc ∧ (t.curG.lane l).sup = false ∧ (t.curG.lane l).resumed = true ∧
          (t.curG.lane l).repk = (s.curG.lane l).repk
        else (inSub s l ∨ t.curG.lane l = { s.curG.lane l with trapHeld := false })) ∧
      ((∃ l, l < s.curG.lanes.length ∧ ¬there l) → ∀ l, l < s.curG.lanes.length →
        if act.contains l then t.curG.lane l = { s.curG.lane l with atEret := true } else
        if inSub s l then t.curG.lane l = laneAdvance s.cur (s.curG.lane l) else t.curG.lane l = s.curG.lane l)

/-- CSRR completes outside a trap: D receives the CSR of R131, reserved bits zero (R131 to R133, R347). -/
def CsrReadsGiveTheRegister : Prop :=
  ∀ (h : Hdr) (o : CtlOps) (s : State),
    (o.imm.toNat < 0x100 ∨ ∀ l, l < 64 → inSub s l → (s.curG.lane l).sup = true) →
    let g := s.curG
    let clock := s.now - (s.core (s.team g.tid).core).base
    let reads := fun (n : Nat) (v : Nat) => o.imm.toNat = n →
      Gives (exec (.csrr h o) s) fun t => LaneWrites s t h o.d (fun _ => [BitVec.ofNat 32 v]) fun _ => 0
    reads 0x001 g.fstat.toNat ∧ reads 0x020 clock ∧ reads 0x021 (clock / 2 ^ 32) ∧
    reads 0x100 g.trapvec.toNat ∧ reads 0x101 (g.trapvec.toNat / 2 ^ 32) ∧ reads 0x102 g.trapcause.toNat ∧
    reads 0x103 g.trappc.toNat ∧ reads 0x104 g.trapaddr.toNat ∧ reads 0x105 (g.trapaddr.toNat / 2 ^ 32)

/-- CSRW completes outside a trap: the CSR takes Src(A) of the lowest active lane, reserved and read-only bits excepted and
TRAPVEC rounded down to a multiple of 192; with no active lane nothing is written (R133, R347). -/
def CsrWritesSetTheRegister : Prop :=
  ∀ (h : Hdr) (o : CtlOps) (s : State),
    (o.imm.toNat < 0x100 ∨ ∀ l, l < 64 → inSub s l → (s.curG.lane l).sup = true) →
    let g := s.curG
    let sets := fun (n : Nat) (new : Nat → Group → Group) => o.imm.toNat = n →
      Gives (exec (.csrw h o) s) fun t => OnlyGroup s t ∧ LanesMoved s t ∧ RegsKept s t ∧
        (∀ a, t.readLoc a = s.readLoc a) ∧
        let g1 : Group := match activeLanes s h with
          | [] => g
          | l :: _ => new (src s g 0 o.a l).toNat g
        t.curG = { g1 with lanes := t.curG.lanes }
    sets 0x001 (fun w g => { g with fstat := BitVec.ofNat 7 w }) ∧
    sets 0x100 (fun w g => { g with trapvec := BitVec.ofNat 52 ((g.trapvec.toNat / 2 ^ 32 * 2 ^ 32 + w) / 192 * 192) }) ∧
    sets 0x101 (fun w g => { g with
      trapvec := BitVec.ofNat 52 ((g.trapvec.toNat % 2 ^ 32 + w % 2 ^ 20 * 2 ^ 32) / 192 * 192) }) ∧
    sets 0x102 (fun w g => { g with
      trapcause := BitVec.ofNat 32 (w % 2 ^ 6 + w / 2 ^ 8 % 2 ^ 16 * 2 ^ 8 + g.trapcause.toNat / 2 ^ 24 * 2 ^ 24) }) ∧
    sets 0x103 (fun w g => { g with trappc := BitVec.ofNat 24 w }) ∧
    sets 0x104 (fun w g => { g with trapaddr := BitVec.ofNat 56 (g.trapaddr.toNat / 2 ^ 32 * 2 ^ 32 + w) }) ∧
    sets 0x105 (fun w g => { g with trapaddr := BitVec.ofNat 56 (g.trapaddr.toNat % 2 ^ 32 + w * 2 ^ 32) })

/-- A trap in supervisor mode is a double fault (R351): whatever its cause, the grid of the group is ended as faulted, its
running threads end, and the cabinet's newest trap record holds the inner trap's registers (R350, R375). -/
def Obligations.TrapInARoutineEndsTheGrid : Prop :=
  ∀ (s : State) (cause detail addr : Nat),
    (∃ l, l < s.curG.lanes.length ∧ l < 64 ∧ inSub s l ∧ (s.curG.lane l).sup = true ∧ (s.curG.lane l).exited = false) →
    let t := s.trap cause detail addr
    let n := (s.team s.curG.tid).grid
    (∀ g ∈ t.grids, g.num = n → g.faulted = true) ∧
    (∀ tid ∈ s.teamsOf n, (t.team tid).dead = true) ∧
    (∃ e rest, t.cab = e :: rest ∧ e.ty = 1 ∧ e.sev = 2 ∧ e.d1 = BitVec.ofNat 64 addr ∧
      e.d0.toNat % 2 ^ 32 = (cause % 32 + 256 * (detail % 2 ^ 16) + 2 ^ 24 * (s.cur.slot % 192)) % 2 ^ 32 ∧
      e.d0.toNat / 2 ^ 32 = s.cur.pc.toNat) ∧
    ∀ a, t.readLoc a = s.readLoc a

/-- `CsrReadsGiveTheRegister` and `CsrWritesSetTheRegister` together. -/
def Obligations.CsrReadsAndWritesReachTheRegister : Prop := CsrReadsGiveTheRegister ∧ CsrWritesSetTheRegister

/-- `BranchesMoveActiveLanesToTheirTarget` and `MeetSetsSavesAndRestoresTheMeetingPoint` together. -/
def Obligations.BranchesAndMeetSetThePlacesOfTheirThreads : Prop := BranchesMoveActiveLanesToTheirTarget ∧ MeetSetsSavesAndRestoresTheMeetingPoint
/-! ### Loads, stores and maintenance (R181 to R193, R316, R317) -/

/-- LD, LDU and LDX complete where every access is aligned, in bounds and translated, and peers have answered: one result
becomes outstanding whose lanes name the bytes their words will be made of, or, where a peer supplies some of a lane's bytes,
hold its words. LD and LDU move on; the lanes of an LDX wait at it with MEET at the join (R184 to R186, R189). -/
def Obligations.LoadsMakeTheirBytesOutstanding : Prop :=
  ∀ (h : Hdr) (o : MemOps) (s : State),
    let act := activeLanes s h
    let as := fun ldx lanes => accesses s o.space o.ty.bytes (memEa s s.curG o ldx) lanes
    let form : Form := { n := o.ty.bytes, signed := o.ty == .i8 || o.ty == .i16, priv := o.space == .p, nofill := o.mod == 2,
                         ev := o.mod == 1 }
    let result := fun ldx lanes file (ds : List Datum) => ({
      id := s.fresh, file, dst := opndIdx o.d, form, pasid := s.pasidOf s.cur.slot, acq := none,
      ldx := if ldx then some s.cur.next else none,
      lanes := ((as ldx lanes).zip ds).map fun x => { lane := x.1.lane, va := x.1.addr, datum := x.2 } } : Pend)
    let peers := fun (a : Acc) => (placesOf s 0 a).any fun b => b.2.isPeer
    let data := fun ldx lanes => List.Forall₂ (fun (a : Acc) (d : Datum) =>
      if !ldx && peers a then ∃ vs, List.Forall₂ (suppliedBy s form.nofill) (placesOf s 0 a) vs ∧ d = .words (form.words vs)
      else d = .mem (placesOf s 0 a)) (as ldx lanes)
    let fine := fun ldx lanes => Reachable s 0 true true (as ldx lanes) ∧ (ldx = true ∨ Answered s form.nofill (as ldx lanes))
    let kept := fun ldx lanes (t : State) => if form.nofill && !ldx && (as ldx lanes).any peers then
        t = { s with groups := t.groups, fresh := s.fresh + 1, peerGot := t.peerGot, cores := t.cores }
      else t = { s with groups := t.groups, fresh := s.fresh + 1, peerGot := t.peerGot }
    (act = [] → ∀ i ∈ [Instr.ld h o, .ldu h o, .ldx h o], Gives (exec i s) fun t => OnlyGroup s t ∧ MovedWith s t id) ∧
    (act ≠ [] → fine false act → Gives (exec (.ld h o) s) fun t => kept false act t ∧ ∃ ds, data false act ds ∧
      MovedWith s t fun g => { g with pend := g.pend ++ [result false act 0 ds] }) ∧
    (∀ l rest, act = l :: rest → fine false [l] → Gives (exec (.ldu h o) s) fun t => kept false [l] t ∧ ∃ ds, data false [l] ds ∧
      MovedWith s t fun g => { g with pend := g.pend ++ [result false [l] 1 ds] }) ∧
    (act ≠ [] → fine true act → Gives (exec (.ldx h o) s) fun t => kept true act t ∧ RegsKept s t ∧ (∀ a, t.readLoc a = s.readLoc a) ∧
      (∃ b, t.curG.blocked = s.curG.blocked ++ [b] ∧ b.why = .ldx ∧ b.pc = s.cur.pc ∧ b.next = s.cur.next ∧
        ∀ l, l < 64 → b.mask.getLsbD l = act.contains l) ∧
      (∃ ds, data true act ds ∧ t.curG.pend = s.curG.pend ++ [result true act 0 ds]) ∧
      ∀ l, l < s.curG.lanes.length → l < 64 → (t.curG.lane l).pc = (if inSub s l ∧ l ∉ act then s.cur.next else (s.curG.lane l).pc) ∧
        (t.curG.lane l).meet = if l ∈ act then BitVec.ofNat 24 o.imm.toNat else (s.curG.lane l).meet)

/-- The checks of an access come in one order for all lanes, before any byte moves (R183): a misaligned lane traps with
cause 2, else a lane out of bounds with the cause of its space, both with the lane's address. -/
def Obligations.AccessChecksTrapBeforeAnyByteMoves : Prop :=
  ∀ (h : Hdr) (o : MemOps) (s : State), NoRoutine s.curG →
    let as := accesses s o.space o.ty.bytes (memEa s s.curG o false) (activeLanes s h)
    let both := fun (cause detail addr : Nat) =>
      (Gives (exec (.ld h o) s) fun t => TookTrap s t cause detail addr) ∧
      Gives (exec (.st h o) s) fun t => TookTrap s t cause detail addr
    (∀ a before after, as = before ++ a :: after → a.mis = true → (∀ b ∈ before, b.mis = false) → both 2 0 a.addr) ∧
    (∀ a before after cause detail, as = before ++ a :: after → (∀ b ∈ as, b.mis = false) →
      (∀ b ∈ before, b.bounds = none) → a.bounds = some (cause, detail) → cause < 32 → detail < 65536 →
      both cause detail a.addr)

/-- ST completes where every access is aligned, in bounds, translated for writing and outside shelves: one entry joins the
store queue. It holds, for every place any active lane stores to, one byte of D's registers, that of the highest-numbered
lane which stores there (R187, R316); no memory changes yet. -/
def Obligations.StoresQueueTheHighestLanesBytes : Prop :=
  ∀ (h : Hdr) (o : MemOps) (s : State),
    let act := activeLanes s h
    let as := accesses s o.space o.ty.bytes (memEa s s.curG o false) act
    (act = [] → Gives (exec (.st h o) s) fun t => OnlyGroup s t ∧ MovedWith s t id) ∧
    (act ≠ [] → Reachable s 1 false true as → Gives (exec (.st h o) s) fun t =>
      t = { s with groups := t.groups, fresh := s.fresh + 1 } ∧
      ∃ bs : List StByte,
        (MovedWith s t fun g => { g with
          sq := g.sq ++ [{ id := s.fresh, pasid := s.pasidOf s.cur.slot, grid := (s.teamOf s.cur.slot).grid, sent := false,
                           kind := .store bs }] }) ∧
        (∀ a ∈ as, ∀ p ∈ placesOf s 1 a, ∃ b ∈ bs, b.loc = p.2) ∧
        ∀ b ∈ bs, ∃ before a after k, as = before ++ a :: after ∧ (placesOf s 1 a)[k]? = some (b.key, b.loc) ∧
          b.priv = (o.space == .p) ∧ b.ev = o.mod.getLsbD 0 ∧
          b.val.toNat = byteAt (k % 4) (src s s.curG 0 (Opnd.plus o.d (k / 4)) a.lane) ∧
          ∀ c ∈ after, ∀ p ∈ placesOf s 1 c, p.2 ≠ b.loc)

/-- A store entry at the head of a group's queue is performed when the group's older loads have been read, no older acquire is
incomplete and the L1 has room: cached bytes become valid and dirty in the core's L1, the others take their value at their place; every other byte of L1 and
memory is as it was, and the entry is gone (R172, R316, R321). -/
def Obligations.PerformedStoresReachTheirBytes : Prop :=
  ∀ (s : State) (slot : Nat) (e : SqEnt) (rest : List SqEnt) (bs : List StByte),
    (s.group slot).sq = e :: rest → e.kind = .store bs →
    (∀ p ∈ (s.group slot).pend, p.id < e.id → ∀ x ∈ p.lanes, ∀ xs, x.datum ≠ .mem xs) → NoOlderAcquire (s.group slot) e.id →
    L1Room s (slotCore slot) (storeLines bs) →
    Gives (exec (.storeQueuePerform slot) s) fun t =>
      (∀ a, t.readLoc a = afterWrites s ((bs.filter fun b => b.key == 0).map fun b => (b.loc, b.val)) a) ∧
      (∀ k, k ≠ 0 → t.l1 (slotCore slot) k =
        match (bs.filter fun b => b.key == k).getLast? with
        | some b => some { val := b.val, dirty := true, priv := b.priv, loc := b.loc, grid := e.grid }
        | none => s.l1 (slotCore slot) k) ∧
      (∀ c k, c ≠ slotCore slot → t.l1 c k = s.l1 c k) ∧
      t.group slot = { s.group slot with sq := rest.filter fun x => x.id != e.id } ∧
      ∀ i, i ≠ slot → t.group i = s.group i

/-- An outstanding load's lane whose datum can be read is written by SWITCH_RESULT_WRITE: the words go to the registers from
D, the lane leaves the result. A byte comes from an older store of the group, else from the L1, else from memory (R43, R185,
R316). An LDX lane is written the same way and continues at the join's successor (R189); FIXED_LATENCY_RESULT_WRITE
releases the registers the scoreboard held (R110). -/
def ReturnedBytesReachTheRegisters : Prop :=
  ∀ (s : State) (slot : Nat) (p : Pend) (x : PLane),
    let g := s.group slot
    let core := slotCore slot
    let source := fun (b : Nat × Loc) (v : Byte) =>
      sqByte b.2 (g.older p.id) none = some (some v) ∨ (sqByte b.2 (g.older p.id) none = none ∧
        ((b.1 = 0 ∧ v = s.readLoc b.2) ∨ (b.1 ≠ 0 ∧ p.form.nofill = false ∧ ∃ y, s.l1 core b.1 = some y ∧ v = y.val)))
    let got := fun (ws : List Word) =>
      x.datum = .words ws ∨ ∃ bs vs, x.datum = .mem bs ∧ List.Forall₂ source bs vs ∧ ws = p.form.words vs ∧ p.form.nofill = false ∧
        (∀ b ∈ bs, b.2.isPeer = false) ∧ NoOlderAcquire g p.id ∧ ∀ q ∈ g.pend, q.id < p.id → ∀ y ∈ q.lanes, y.datum.meets (bs.map Prod.snd) = false
    (∀ ws, g.pend.find? (fun q => q.id == p.id) = some p → p.lanes = [x] → p.file = 0 → x.lane < 64 →
      x.lane < g.lanes.length → (g.lane x.lane).exited = false → ws.length ≤ 16 → got ws →
      (p.ldx = none → p.acq = none → Gives (exec (.switchResultWrite slot p.id (1#64 <<< x.lane)) s) fun t =>
        (∀ j, (t.group slot).vreg x.lane j = (spanAt (BitVec.ofNat 8 p.dst) ws j).getD (g.vreg x.lane j)) ∧
        (∀ l, l ≠ x.lane → (t.group slot).lane l = g.lane l) ∧
        t.group slot = { g with lanes := (t.group slot).lanes, pend := g.pend.filter fun q => q.id != p.id } ∧
        t = { s with groups := t.groups } ∧ ∀ i, i ≠ slot → t.group i = s.group i) ∧
      (∀ succ b, p.ldx = some succ → p.acq = none →
        g.blocked.find? (fun c => c.why == .ldx && c.mask.getLsbD x.lane) = some b →
        (∀ bs, x.datum = .mem bs → ∀ a ∈ bs, s.poisoned a.2 = false) →
        Gives (exec (.ldxDatumArrive slot p.id x.lane) s) fun t =>
          (∀ j, (t.group slot).vreg x.lane j = (spanAt (BitVec.ofNat 8 p.dst) ws j).getD (g.vreg x.lane j)) ∧
          ((t.group slot).lane x.lane).pc = succ ∧ (∀ l, l ≠ x.lane → (t.group slot).lane l = g.lane l) ∧
          (t.group slot).blocked = (g.blocked.map fun c =>
            if c = b then { c with mask := c.mask &&& ~~~(1#64 <<< x.lane) } else c).filter (fun c => c.mask != 0) ∧
          (∀ a, t.readLoc a = s.readLoc a) ∧ ∀ i, i ≠ slot → t.group i = s.group i)) ∧
    Gives (exec (.fixedLatencyResultWrite slot) s) fun t =>
      t = s.setGroup slot { g with score := [] }

/-- A load of device bytes that the core's L1 does not hold reads them from memory and fills their sector: the bytes of the
sector that are not dirty then hold memory's values (R172, R185). -/
def LoadMissesFillTheSectorFromMemory : Prop :=
  ∀ (s : State) (slot n k a : Nat) (p : Pend) (lane va : Nat),
    let g := s.group slot
    let core := slotCore slot
    let bs := (List.range n).map fun i => (k + i, Loc.dev (a + i))
    0 < n → k % 32 = a % 32 → k % 32 + n ≤ 32 → 0 < k → g.sq = [] → p.form.nofill = false → p.file = 0 → p.ldx = none →
    p.acq = none → g.pend = [p] → p.lanes = [{ lane, va, datum := .mem bs }] → lane < 64 → lane < g.lanes.length →
    (g.lane lane).exited = false → (∀ i, i < n → s.l1 core (k + i) = none ∧ s.ownedLine ((a + i) / 128) = false) →
    NoOlderAcquire g p.id → L1Room s core [k / 128] →
    Gives (exec (.switchResultWrite slot p.id (1#64 <<< lane)) s) fun t =>
      (∀ j, (t.group slot).vreg lane j =
        (spanAt (BitVec.ofNat 8 p.dst) (p.form.words ((List.range n).map fun i => s.readLoc (.dev (a + i)))) j).getD
          (g.vreg lane j)) ∧
      (∀ i, i < 32 → match s.l1 core (k / 32 * 32 + i) with
        | some y => t.l1 core (k / 32 * 32 + i) = some (if y.dirty then y else
            { y with val := s.readLoc (.dev (a / 32 * 32 + i)), priv := p.form.priv })
        | none => ∃ y, t.l1 core (k / 32 * 32 + i) = some y ∧ y.dirty = false ∧ y.val = s.readLoc (.dev (a / 32 * 32 + i)) ∧
            y.loc = .dev (a / 32 * 32 + i)) ∧
      (∀ j, j / 32 ≠ k / 32 → t.l1 core j = s.l1 core j) ∧ ∀ b, t.readLoc b = s.readLoc b

/-- FENCE, FLUSH, PFETCH and INVL complete in every state. A FENCE or FLUSH of some active lane is outstanding with what it
names; INVL drops the clean bytes of the sectors that active lanes name, INVL.all those that private accesses did not bring;
PFETCH changes no register, and where the L1 has room for the lines it names no memory and no dirty byte; with .l2 it leaves
the L1 alone (R188, R191 to R193). -/
def FencesFlushesAndPrefetchesComplete : Prop :=
  ∀ (h : Hdr) (o : MemOps) (f : FenceOps) (s : State),
    let act := activeLanes s h
    let core := slotCore s.cur.slot
    let keys := act.flatMap (namedKeys s s.cur.slot o)
    let wait := fun (t : State) (u : Group → Group) =>
      (act = [] → OnlyGroup s t ∧ MovedWith s t id) ∧
      (act ≠ [] → t = { s with groups := t.groups, fresh := s.fresh + 1 } ∧ MovedWith s t u)
    let drops := fun (t : State) (gone : Nat → L1Byte → Bool) =>
      t = { s with groups := t.groups, cores := t.cores, outst := t.outst, peerGot := t.peerGot } ∧ MovedWith s t id ∧
      (Tab.wf none (s.core core).l1 = true → ∀ k, t.l1 core k = (s.l1 core k).filter fun b => b.dirty || !gone k b) ∧
      ∀ c k, c ≠ core → t.l1 c k = s.l1 c k
    (Gives (exec (.fence h f) s) fun t => wait t fun g => { g with
      fences := g.fences ++ [{ mark := s.fresh, instr := true, rel := f.ord == .rel || f.ord == .ar, acq := f.ord == .acq || f.ord == .ar,
                               scope := f.scope }] }) ∧
    (Gives (exec (.flush h o) s) fun t => wait t fun g => { g with
      flushes := g.flushes ++ [{ mark := s.fresh, all := false, inv := o.mod.getLsbD 1, keys }] }) ∧
    (Gives (exec (.flushAll h o) s) fun t => wait t fun g => { g with
      flushes := g.flushes ++ [{ mark := s.fresh, all := true, inv := o.mod.getLsbD 1, keys := [] }] }) ∧
    (Gives (exec (.invl h o) s) fun t => drops t fun k _ => (keys.map (· / 32)).contains (k / 32)) ∧
    (Gives (exec (.invlAll h o) s) fun t => drops t fun _ b => !act.isEmpty && !b.priv) ∧
    Gives (exec (.pfetch h o) s) fun t => LanesMoved s t ∧ RegsKept s t ∧ t.curG = { s.curG with lanes := t.curG.lanes } ∧
      (∀ i, i ≠ s.cur.slot → t.group i = s.group i) ∧
      (L1Room s core (keys.map (· / 128)) → (∀ a, t.readLoc a = s.readLoc a) ∧
        (∀ c k b, s.l1 c k = some b → b.dirty = true → t.l1 c k = some b) ∧
        t = { s with groups := t.groups, cores := t.cores, pages := t.pages, hbmUsed := t.hbmUsed, l2 := t.l2, outst := t.outst,
                     fresh := t.fresh, seqOut := t.seqOut, out := t.out }) ∧
      (o.mod = 1 → t = { s with groups := t.groups, pages := t.pages, hbmUsed := t.hbmUsed, l2 := t.l2 })

/-- A FENCE whose group's earlier loads and flushes, and for a release stores, are done completes, and so does a FLUSH: the core's dirty bytes
(those the FLUSH names) stand at their places in memory and are clean, every other byte of memory is as it was; with an
acquire of device scope or wider no clean byte of a global access stays in the L1, and .inv drops the named bytes (R191, R192,
R317). Every dirty byte of the statement lies in device memory, line by line, and no agent owns its line. -/
def FencesAndFlushesBringMemoryUpToDate : Prop :=
  ∀ (s : State) (slot : Nat) (home : Nat → Nat),
    let g := s.group slot
    let core := slotCore slot
    let dirty := fun k b => s.l1 core k = some b ∧ b.dirty = true
    let up := fun (t : State) (sel : Nat → Bool) =>
      (∀ k b, dirty k b → sel k = true → t.readLoc b.loc = b.val) ∧
      (∀ a, (∀ k b, dirty k b → sel k = true → b.loc ≠ a) → t.readLoc a = s.readLoc a) ∧
      (∀ k b, t.l1 core k = some b → sel k = true → b.dirty = false) ∧ ∀ i, i ≠ slot → t.group i = s.group i
    Tab.wf none (s.core core).l1 = true → (∀ x y, home x = home y → x = y) →
    (∀ k b, dirty k b → b.loc = .dev (128 * home (k / 128) + k % 128) ∧ s.ownedLine (home (k / 128)) = false) →
    (∀ f rest, g.fences = f :: rest → g.loadsBack f.mark = true → (∀ x ∈ g.flushes, f.mark ≤ x.mark) →
      (f.rel = true → g.storesDone f.mark = true ∧ (scopePeers f.scope = true → s.acked (s.team g.tid).grid = true)) →
      Gives (exec (.fenceComplete slot) s) fun t =>
        t.group slot = { g with fences := rest } ∧
        (f.rel = true → 3 ≤ scopeCode f.scope → up t fun _ => true) ∧
        (f.acq = true → 3 ≤ scopeCode f.scope → ∀ k b, t.l1 core k = some b → b.dirty = true ∨ b.priv = true) ∧
        ((f.rel = false ∨ scopeCode f.scope < 3) → ∀ a, t.readLoc a = s.readLoc a)) ∧
    (∀ f rest, g.flushes = f :: rest → (∀ e ∈ g.sq, f.mark ≤ e.id) →
      Gives (exec (.flushComplete slot) s) fun t =>
        let sel := fun k => f.all || (f.keys.map (· / 32)).contains (k / 32)
        t.group slot = { g with flushes := rest } ∧ up t sel ∧
        (f.inv = true → ∀ k b, t.l1 core k = some b → sel k = false))

/-- `ReturnedBytesReachTheRegisters` and `LoadMissesFillTheSectorFromMemory` together. -/
def Obligations.LoadedBytesFillTheSectorAndTheRegisters : Prop := ReturnedBytesReachTheRegisters ∧ LoadMissesFillTheSectorFromMemory

/-- `FencesFlushesAndPrefetchesComplete` and `FencesAndFlushesBringMemoryUpToDate` together. -/
def Obligations.FencesAndFlushesCompleteWithMemoryUpToDate : Prop := FencesFlushesAndPrefetchesComplete ∧ FencesAndFlushesBringMemoryUpToDate
/-! ### Atomics (R194 to R201) -/

/-- Op(x, y) of R195: wrapping sums, signed or unsigned minima and maxima, bitwise operations, exchange, and floating
addition and minima of R148 without flags. -/
def AtomicArithmeticFollowsTheTable : Prop :=
  ∀ (x y : BitVec 32) (u v : BitVec 64),
    let w := fun (z : BitVec 32) => z.zeroExtend 64
    let each := fun (op : Nat) (f : BitVec 32 → BitVec 32 → BitVec 32) =>
      atomOp .i32 op (w x) (w y) = w (f x y) ∧ atomOp .n32 op (w x) (w y) = w (f x y)
    each 0 (· + ·) ∧ each 3 (· &&& ·) ∧ each 4 (· ||| ·) ∧ each 5 (· ^^^ ·) ∧ each 6 (fun _ b => b) ∧
    atomOp .i32 1 (w x) (w y) = w (if x.toInt ≤ y.toInt then x else y) ∧
    atomOp .i32 2 (w x) (w y) = w (if y.toInt ≤ x.toInt then x else y) ∧
    atomOp .n32 1 (w x) (w y) = w (if x.toNat ≤ y.toNat then x else y) ∧
    atomOp .n32 2 (w x) (w y) = w (if y.toNat ≤ x.toNat then x else y) ∧
    atomOp .n64 0 u v = u + v ∧ atomOp .n64 1 u v = (if u.toNat ≤ v.toNat then u else v) ∧
    atomOp .n64 2 u v = (if v.toNat ≤ u.toNat then u else v) ∧
    atomOp .n64 3 u v = u &&& v ∧ atomOp .n64 4 u v = u ||| v ∧ atomOp .n64 5 u v = u ^^^ v ∧ atomOp .n64 6 u v = v ∧
    atomOp .f32 6 (w x) (w y) = w y ∧
    (∃ r : Nat, atomOp .f32 1 (w x) (w y) = BitVec.ofNat 64 r ∧ PickRule fmt32 true x.toNat y.toNat r) ∧
    (∃ r : Nat, atomOp .f32 2 (w x) (w y) = BitVec.ofNat 64 r ∧ PickRule fmt32 false x.toNat y.toNat r) ∧
    let a := fmt32.decode x.toNat
    let b := fmt32.decode y.toNat
    ∃ p, FloatRule fmt32 .rne [a, b] (opposite a b) (IsSum false a b) p ∧ atomOp .f32 0 (w x) (w y) = BitVec.ofNat 64 p.1

/-- ATOM, ATOMC, RED and ATOMORD complete where every access is aligned, in bounds, translated for writing, outside shelves
and not in error, the host permits the operation and a release asked for is complete: one entry joins the store queue with
each active lane's place and values; ATOM and ATOMC make their result outstanding. The lanes move on, but for a returning
atomic at a peer, whose lanes wait at it (R194 to R199). -/
def AtomicsQueueEachLanesRequest : Prop :=
  ∀ (h : Hdr) (o : AtomOps) (s : State) (kind : AtKind),
    let i : Instr := match kind with
      | .atom => .atom h o
      | .atomc => .atomc h o
      | .red => .red h o
      | .ord => .atomord h o
    let g := s.curG
    let act := activeLanes s h
    let n := if o.ty = .n64 then 8 else 4
    let as := wholeAccesses s o.space n (atomEa s g o) act
    let host := kind == .atomc || (kind != .ord && ((o.op == 0 && o.ty != .f32) || o.op == 6))
    let back := kind == .atom || kind == .atomc
    let value := fun (k l : Nat) => if o.ty = .n64 then srcPair s g 0 (Opnd.plus o.c (2 * k)) l
      else (src s g 0 (Opnd.plus o.c k) l).toNat
    (act = [] → Gives (exec i s) fun t => OnlyGroup s t ∧ MovedWith s t id) ∧
    (act ≠ [] → Reachable s 1 false host as → (∀ a ∈ as, ∀ b ∈ placesOf s 1 a, s.poisoned b.2 = false) →
      Released s (o.ord == .rel || o.ord == .ar) o.scope →
      Gives (exec i s) fun t => ∃ (xs : List AtLane) (eid pid : Nat),
        t = { s with groups := t.groups, fresh := t.fresh } ∧ RegsKept s t ∧ (∀ a, t.readLoc a = s.readLoc a) ∧
        t.curG.sq = g.sq ++ [{
          id := eid, pasid := s.pasidOf s.cur.slot, grid := (s.teamOf s.cur.slot).grid, sent := false
          kind := .atomic { kind, op := o.op.toNat, ty := o.ty, lanes := xs, pend := pid } }] ∧
        xs.map AtLane.lane = act ∧
        (∀ x ∈ xs, x.ph = 0 ∧ x.v.toNat = value 0 x.lane ∧ (kind = .atomc → x.new.toNat = value 1 x.lane) ∧
          (kind = .ord → x.tag = src s g 0 o.d x.lane) ∧
          ∃ a ∈ as, a.lane = x.lane ∧ a.addr = x.va ∧ (placesOf s 1 a).head?.map Prod.snd = some x.loc) ∧
        (back = true → t.curG.pend = g.pend ++ [{
          id := pid, file := 0, dst := opndIdx o.d, pasid := s.pasidOf s.cur.slot, form := Form.plain n
          acq := if o.ord = .acq ∨ o.ord = .ar then some o.scope else none, ldx := none,
          lanes := as.map fun a => { lane := a.lane, va := a.addr, datum := .wait } }]) ∧
        (back = false → t.curG.pend = g.pend) ∧
        if back && xs.any fun x => x.loc.isPeer then
          (∀ l, (t.curG.lane l).pc = (s.curG.lane l).pc) ∧ ∃ b, t.curG.blocked = g.blocked ++ [b] ∧ b.why = .atom eid ∧
            b.mask = s.cur.mask ∧ b.next = s.cur.next
        else LanesMoved s t ∧ t.curG.blocked = g.blocked)

/-- An ATOM or RED entry at the head of a store queue whose older loads and acquires are done is performed at its places: per address one indivisible Op with the
values of its lanes combined in ascending order; each lane of an ATOM receives the value its Op would have read, lanes
before it applied (R196). An ATOMC applies its lanes one after another, each storing only where it compares equal (R197).
Every other byte of memory is as it was; FSTAT is never touched (R195). -/
def AtomicEntriesActAtTheirPlaces : Prop :=
  ∀ (s : State) (slot : Nat) (e : SqEnt) (rest : List SqEnt) (r : AtReq),
    let g := s.group slot
    let n := if r.ty = .n64 then 8 else 4
    let places := r.lanes.map AtLane.loc
    g.sq = e :: rest → e.kind = .atomic r → (∀ x ∈ rest, x.id ≠ e.id) →
    NotDirty s (slotCore slot) (fun k => r.lanes.any fun x => (List.range n).any fun i => k / 16 == l1key e.pasid (x.va + i) / 16) →
    r.kind ≠ .ord → r.lanes ≠ [] →
    (∀ x ∈ r.lanes, Here x.loc ∧ x.ph = 0 ∧ s.ownedLoc x.loc = false) →
    (r.lanes.map AtLane.lane).Nodup → Apart places n → (∀ b ∈ g.blocked, b.why ≠ .atom e.id) →
    (∀ p ∈ g.pend, p.id < e.id → (p.id = r.pend ∨ p.acq = none) ∧ ∀ x ∈ p.lanes, ∀ xs, x.datum ≠ .mem xs) →
    (∀ f ∈ g.fences, f.acq = true → e.id ≤ f.mark) →
    Gives (exec (.storeQueuePerform slot) s) fun t =>
      let result := fun (x : AtLane) (old : DWord) => ∀ p ∈ (t.group slot).pend, p.id = r.pend → ∀ y ∈ p.lanes,
        y.lane = x.lane → y.datum = .words (if r.ty = .n64 then [old.extractLsb' 0 32, old.extractLsb' 32 32]
          else [old.extractLsb' 0 32])
      (∀ a, (∀ l ∈ places, ∀ i, i < n → byteCell (l.next i) ≠ byteCell a) → t.readLoc a = s.readLoc a) ∧
      (t.group slot).sq = rest ∧ (t.group slot).fstat = g.fstat ∧ (t.group slot).lanes = g.lanes ∧
      (∀ i, i ≠ slot → t.group i = s.group i) ∧
      ∀ l ∈ places,
        let at_l := r.lanes.filter fun x => x.loc == l
        let m := s.rdAt r.ty l
        if r.kind = .atomc then
          let after := fun (xs : List AtLane) => xs.foldl (fun old x => if old = x.v then x.new else old) m
          (∀ x ∈ r.lanes, x.v.toNat < 2 ^ (8 * n) ∧ x.new.toNat < 2 ^ (8 * n)) → t.rdAt r.ty l = after at_l ∧
          ∀ i x, at_l[i]? = some x → result x (after (at_l.take i))
        else
          let fold := fun (xs : List AtLane) => match xs.map AtLane.v with
            | [] => (0 : DWord)
            | v :: vs => atFold r.ty r.op v vs
          (r.ty ≠ .n64 → ∀ x ∈ r.lanes, x.v.toNat < 2 ^ 32) →
          t.rdAt r.ty l = atomOp r.ty r.op m (fold at_l) ∧
          ∀ i x, at_l[i]? = some x → result x (if i = 0 then m else atomOp r.ty r.op m (fold (at_l.take i)))

/-- WAITA completes where its accesses are in order and its words can be read: a lane whose word satisfies the condition
receives it in D and continues; any other lane waits at the WAITA, and WAITA_REREAD decides it again in the same way (R201). -/
def Obligations.WaitaReleasesTheLanesItsWordSatisfies : Prop :=
  ∀ (h : Hdr) (o : AtomOps) (s : State) (i : BitVec 8), o.d = .vec i →
    let g := s.curG
    let act := activeLanes s h
    let as := wholeAccesses s o.space 4 (atomEa s g o) act
    let lane := fun (a : Acc) => ({
      lane := a.lane, va := a.addr, c := src s g 0 o.c a.lane
      fix := if o.space == .g then none else (placesOf s 0 a).head?.map Prod.snd } : WaitaLane)
    (act = [] → Gives (exec (.waita h o) s) fun t => OnlyGroup s t ∧ MovedWith s t id) ∧
    (∀ at_ : Nat → Loc, act ≠ [] → Reachable s 0 true true as → o.ord ≠ .acq → s.cur.rep = none →
      (∀ b ∈ g.blocked, ∀ l ∈ act, b.mask.getLsbD l = false) →
      (∀ a ∈ as, WaitaSees s s.cur.slot (lane a) (at_ a.lane)) →
      Gives (exec (.waita h o) s) fun t => (∀ a, t.readLoc a = s.readLoc a) ∧
        (∀ k, k ≠ s.cur.slot → t.group k = s.group k) ∧
        (∀ l j, t.curG.vreg l j = if l ∈ act ∧ j = i.toNat ∧ satisfied o.op.toNat (wordAt s (at_ l)) (src s g 0 o.c l)
          then wordAt s (at_ l) else g.vreg l j) ∧
        ∀ l, l < g.lanes.length → l < 64 →
          if l ∈ act then
            (if satisfied o.op.toNat (wordAt s (at_ l)) (src s g 0 o.c l) then (t.curG.lane l).pc = s.cur.next
             else (t.curG.lane l).pc = (g.lane l).pc ∧ ∃ b ∈ t.curG.blocked, b.mask.getLsbD l = true ∧ b.pc = s.cur.pc ∧
               b.next = s.cur.next ∧ ∃ w, b.why = .waita w ∧ w.op = o.op.toNat ∧ w.dst = o.d)
          else (t.curG.lane l).pc = if inSub s l then s.cur.next else (g.lane l).pc) ∧
    (∀ (slot : Nat) (b : Blocked) (w : WaitaSt) (x : WaitaLane) (l : Loc) (k : Group), s.group slot = k → k.blocked = [b] →
      b.why = .waita w → w.lanes = [x] → b.mask = 1#64 <<< x.lane → x.lane < 64 → x.lane < k.lanes.length → w.dst = .vec i →
      w.acq = none → WaitaSees s slot x l →
      Gives (exec (.waitaReread slot x.lane) s) fun t =>
        (∀ a, t.readLoc a = s.readLoc a) ∧
        if satisfied w.op (wordAt s l) x.c then
          (t.group slot).blocked = [] ∧ ((t.group slot).lane x.lane).pc = b.next ∧
          ∀ m j, (t.group slot).vreg m j = if m = x.lane ∧ j = i.toNat then wordAt s l else k.vreg m j
        else t.group slot = k)

/-- ORDERED_STREAM_REQUEST answers a request of this package: the next number of its address is applied and the record goes
after LASTSEQ, a stream of one number needs no record, an early number is kept and changes no memory, and a tag that breaks
R199 is discarded with a cabinet event; STREAM_RECORD_TIMEOUT frees the records idle for 2^24 cycles (R199, R200). -/
def OrderedStreamsApplyTheirNumbersInSequence : Prop :=
  ∀ (s : State) (q : StreamReq),
    let sq := bits q.tag.toNat 8 12
    let la := bits q.tag.toNat 20 12
    let mine := fun (r : StreamRec) => r.pasid == q.pasid && r.stream == bits q.tag.toNat 0 6 && r.loc == q.loc
    let others := s.streams.filter fun r => !mine r
    let op := fun (m : DWord) => atomOp q.ty 0 m q.val
    let n := if q.ty = .n64 then 8 else 4
    let applied := fun (t : State) => t.rdAt q.ty (.dev q.loc) = op (s.rdAt q.ty (.dev q.loc)) ∧
      ∀ a, (∀ i, i < n → byteCell (.dev (q.loc + i)) ≠ byteCell a) → t.readLoc a = s.readLoc a
    let same := fun (t : State) => ∀ a, t.readLoc a = s.readLoc a
    let good := bits q.tag.toNat 6 2 = 0 ∧ sq ≤ la
    let gone := fun (t : State) => same t ∧ t.streams = s.streams ∧ ∃ e, t.cab = (e :: s.cab).take 4096 ∧ e.ty = 8 ∧ e.sev = 1 ∧
      e.d0 = BitVec.ofNat 64 q.loc ∧ e.d1 = BitVec.ofNat 64 (q.tag.toNat + 2 ^ 32 * q.pasid)
    s.streamReqs.find? (fun x => x.id == q.id) = some q → q.peer = none → s.ownedLine (q.loc / 128) = false →
    (q.ty ≠ .n64 → q.val.toNat < 2 ^ 32) →
    (∀ e ∈ (s.group q.slot).sq, ∀ r, e.kind = .atomic r → ∀ x ∈ r.lanes, x.ph < 3) →
    let run := fun (P : State → Prop) => Gives (exec (.orderedStreamRequest q.id) s) fun t =>
      (∀ x ∈ t.streamReqs, x.id ≠ q.id) ∧ P t
    (¬good → run gone) ∧
    (∀ r, good → s.streams.find? mine = some r →
      ((r.last ≠ la ∨ sq < r.next ∨ ∃ e ∈ r.early, e.1 = sq) → run gone) ∧
      (r.last = la → sq = r.next → r.early = [] → run fun t => applied t ∧
        t.streams = if sq = la then others else { r with next := sq + 1, stamp := s.now } :: others) ∧
      (r.last = la → r.next < sq → (∀ e ∈ r.early, e.1 ≠ sq) → s.earlyHeld q.loc < 1024 → run fun t => same t ∧
        t.streams = { r with early := r.early ++ [(sq, q.val)], stamp := s.now } :: others)) ∧
    (good → s.streams.find? mine = none → sq = 0 → la = 0 → run fun t => applied t ∧ t.streams = s.streams) ∧
    (∀ slice addr, Gives (exec (.streamRecordTimeout slice addr) s) fun t => same t ∧
      t.streams = s.streams.filter fun r => !(r.loc == addr && s.slice r.loc == slice && decide (2 ^ 24 ≤ s.now - r.stamp)))

/-- `AtomicEntriesActAtTheirPlaces` and `OrderedStreamsApplyTheirNumbersInSequence` together. -/
def Obligations.AtomicEntriesAndStreamsActAtTheirPlaces : Prop := AtomicEntriesActAtTheirPlaces ∧ OrderedStreamsApplyTheirNumbersInSequence

/-- `AtomicArithmeticFollowsTheTable` and `AtomicsQueueEachLanesRequest` together. -/
def Obligations.AtomicsQueueRequestsOfTheTablesOperations : Prop := AtomicArithmeticFollowsTheTable ∧ AtomicsQueueEachLanesRequest
/-! ### Sync cells (R297 to R312) -/

/-- Every CELLCFG completes: .free, .sem, .bar, .ring and .queue give the team's own cell the kind and state words of R299,
or change nothing where the cell already has that configuration; .bind and .unbind set the group's handle (R305, R306). -/
def Obligations.CellsAndHandlesAreConfigured : Prop :=
  ∀ (h : Hdr) (o : CellOps) (s : State) (ci : Nat),
    let tid := s.curG.tid
    let c := (s.team tid).cell ci
    let c0 := src s s.curG 0 o.b 0
    let c1 := src s s.curG 0 (Opnd.plus o.b 1) 0
    let act := activeLanes s h
    let n := (Machine.cellName s o).toNat
    let sets := fun (i : Instr) (k : CellKind) (w0 w1 w2 : Word) (a0 p : Nat) => NobodyWaits s tid ci →
      Gives (exec i s) fun t => MovedWith s t id ∧
        if k ≠ .none ∧ c.kind = k ∧ c.cfg0 = c0 ∧ c.cfg1 = c1 then t.team tid = s.team tid
        else CellBecame s t tid ci ((t.team tid).cell ci) ∧
          let d := (t.team tid).cell ci
          d.kind = k ∧ d.w0 = w0 ∧ d.w1 = w1 ∧ d.w2 = w2 ∧ d.w3 = 0 ∧ d.released = [] ∧
          (k ≠ .none → d.cfg0 = c0 ∧ d.cfg1 = c1) ∧ ∀ j, Tab.get 0 d.allow j = if j < p then a0 else 0
    (act = [] → ∀ i ∈ [Instr.cellcfgFree h o, .cellcfgSem h o, .cellcfgBar h o, .cellcfgRing h o, .cellcfgQueue h o,
      .cellcfgBind h o, .cellcfgUnbind h o], Gives (exec i s) fun t => OnlyGroup s t ∧ MovedWith s t id) ∧
    (act ≠ [] → o.huse = false → n < 64 → NamesCell s o tid ci →
      sets (.cellcfgFree h o) .none 0 0 0 0 0 ∧
      (c1 = 0 → sets (.cellcfgSem h o) .sem c0 0 0 0 0) ∧
      (c1 = 0 → 1 ≤ c0.toNat → c0.toNat ≤ 0x7FFFFFFF → sets (.cellcfgBar h o) .bar 0 c0 0 0 0) ∧
      (1 ≤ c0.toNat → c0.toNat ≤ 256 → sets (.cellcfgRing h o) .ring c1 c1 c0 0 0) ∧
      let cap := c1.toNat % 2 ^ 13
      let p := c1.toNat / 2 ^ 13 % 16 + 1
      let a0 := c1.toNat / 2 ^ 17
      (c0.toNat % 8 = 0 → 1 ≤ cap → cap ≤ 4096 → 1 ≤ a0 → p * a0 ≤ cap →
        c0.toNat + 8 * cap ≤ (s.gridOf s.cur.slot).k.scratch → sets (.cellcfgQueue h o) .queue 0 c0 c1 a0 p)) ∧
    (∀ owner, act ≠ [] → o.huse = false → NamesCell s o owner ci →
      let e := (s.team owner).cell ci
      (e.kind = .ring ∨ (e.kind = .queue ∧ c0.toNat < e.producers)) →
      Gives (exec (.cellcfgBind h o) s) fun t => OnlyGroup s t ∧ MovedWith s t (fun g => { g with h := t.curG.h }) ∧
        ∀ j, t.curG.hreg j = if j = o.hidx.toNat then
            BitVec.ofNat 64 (n + (if e.kind = .queue then c0.toNat else 0) * 2 ^ 11 + 2 ^ 15 + c1.toNat * 2 ^ 32)
          else s.curG.hreg j) ∧
    (act ≠ [] → Gives (exec (.cellcfgUnbind h o) s) fun t =>
      OnlyGroup s t ∧ MovedWith s t (fun g => { g with h := t.curG.h }) ∧
      ∀ j, t.curG.hreg j = if j = o.hidx.toNat then 0 else s.curG.hreg j)

/-- CELLRD, SEMSIG, BARARV and RINGPUB act on the cell they name without waiting and complete: a state word with KIND is read,
VALUE grows by the summed counts, an arrival completes a phase or counts, WP advances (R307 to R309, R311). -/
def CellOperationsThatNeverWaitUpdateTheCell : Prop :=
  ∀ (h : Hdr) (o : CellOps) (s : State) (tid ci : Nat),
    let act := activeLanes s h
    let c := (s.team tid).cell ci
    let b := src s s.curG o.imm o.b
    let sum := (act.map fun l => (b l).toNat).sum
    let code := match c.kind with
      | .none => 0
      | .sem => 1
      | .bar => 2
      | .ring => 3
      | .queue => 4
    let does := fun (t : State) (d : Cell) (ws : Option (List Word)) (f : Group → Group) => CellBecame s t tid ci d ∧
      MovedWith s t fun g => { f g with pend := match ws with
        | some ws => resultsAfter s o.d ws
        | none => g.pend }
    (act = [] → ∀ i ∈ [Instr.cellrd h o, .semsig h o, .semwait h o, .bararv h o, .barwait h o, .ringpub h o,
      .ringawtData h o, .ringawtFree h o, .ringrel h o, .qpush h o, .qpop h o],
      Gives (exec i s) fun t => OnlyGroup s t ∧ MovedWith s t id) ∧
    (act ≠ [] → NamesCell s o tid ci → o.ord ≠ .rel → Gives (exec (.cellrd h o) s) fun t =>
      does t c (some [match (b 0).toNat with
        | 0 => c.w0
        | 1 => c.w1
        | 2 => c.w2
        | _ => c.w3 ||| BitVec.ofNat 32 (code * 2 ^ 29)]) id) ∧
    (act ≠ [] → NamesCell s o tid ci → Released s (o.ord == .rel) o.scope → NobodyWaits s tid ci →
      (c.kind = .sem → Gives (exec (.semsig h o) s) fun t => does t { c with w0 := c.w0 + BitVec.ofNat 32 sum } none id) ∧
      (c.kind = .bar → Gives (exec (.bararv h o) s) fun t => does t
        (if c.w3.toNat % 256 = 0 then
          (if c.w1.toNat ≤ c.w0.toNat + sum then
            { c with w0 := 0, w2 := c.w2 + 1, w3 := if c.w1.toNat < c.w0.toNat + sum then c.w3 ||| 0x100#32 else c.w3 }
           else { c with w0 := BitVec.ofNat 32 (c.w0.toNat + sum) })
         else { c with w0 := c.w0 + BitVec.ofNat 32 sum }) (some [c.w2]) id) ∧
      (c.kind = .ring → 1 ≤ (b 0).toNat → (b 0).toNat ≤ c.w2.toNat % 512 → Gives (exec (.ringpub h o) s) fun t =>
        let wp := c.w0 + b 0
        does t { c with w0 := wp, w3 := if ((c.w2.toNat % 512 : Nat) : Int) < (wp - c.w1).toInt then c.w3 ||| 1#32 else c.w3 }
          none (fun g => if o.huse then { g with h := t.curG.h } else g) ∧
        (o.huse = true → ∀ j, t.curG.hreg j = if j = o.hidx.toNat then
            BitVec.ofNat 64 ((s.curG.hreg j).toNat % 2 ^ 32 + ((s.curG.hreg j).extractLsb' 32 32 + b 0).toNat * 2 ^ 32)
          else s.curG.hreg j)))

/-- RINGREL of a number that is published and not yet released marks it, and RP moves over every released number from RP
upward, no further; any other number only sets BADREL. Through a handle the first advances CURSOR (R311). -/
def RingReleaseMovesTheReadPointer : Prop :=
  ∀ (h : Hdr) (o : CellOps) (s : State) (tid ci : Nat),
    let c := (s.team tid).cell ci
    let n := if o.huse then (s.curG.hreg o.hidx.toNat).extractLsb' 32 32 else src s s.curG o.imm o.b 0
    let held := 0 ≤ (n - c.w1).toInt ∧ (n - c.w1).toInt < (c.w0 - c.w1).toInt ∧ n ∉ c.released
    let marked := n :: c.released
    activeLanes s h ≠ [] → NamesCell s o tid ci → Released s (o.ord == .rel) o.scope → NobodyWaits s tid ci →
    c.kind = .ring → c.released.length < 2 ^ 31 →
    Gives (exec (.ringrel h o) s) fun t =>
      let d := (t.team tid).cell ci
      CellBecame s t tid ci d ∧ MovedWith s t (fun g => { g with h := t.curG.h }) ∧
      (¬held → d = { c with w3 := c.w3 ||| 2#32 } ∧ t.curG.h = s.curG.h) ∧
      (held → ∃ k : Nat, d.w1 = c.w1 + BitVec.ofNat 32 k ∧ (∀ j < k, c.w1 + BitVec.ofNat 32 j ∈ marked) ∧
        c.w1 + BitVec.ofNat 32 k ∉ marked ∧ d = { c with w1 := d.w1, released := d.released } ∧
        (∀ x, x ∈ d.released ↔ x ∈ marked ∧ ∀ j < k, x ≠ c.w1 + BitVec.ofNat 32 j) ∧
        (o.huse = false → t.curG.h = s.curG.h) ∧
        (o.huse = true → ∀ j, t.curG.hreg j = if j = o.hidx.toNat then
            BitVec.ofNat 64 ((s.curG.hreg j).toNat % 2 ^ 32 + (n + 1#32).toNat * 2 ^ 32)
          else s.curG.hreg j))

/-- SEMWAIT, BARWAIT and RINGAWT complete at once where their condition holds and nobody waits before them: D receives
VALUE, the failure of the barrier, or the number, and .take lowers VALUE in the same operation. Where it does not hold the
subgroup waits with no effect (R304, R308, R310, R311). -/
def WaitsEndWhenTheirCellConditionHolds : Prop :=
  ∀ (h : Hdr) (o : CellOps) (s : State) (tid ci : Nat),
    let c := (s.team tid).cell ci
    let b := src s s.curG o.imm o.b 0
    let n := if o.huse then (s.curG.hreg o.hidx.toNat).extractLsb' 32 32 else b
    let decides := fun (i : Instr) (kind : CellKind) (op : WaitOp) (now : Prop) (d : Cell) (v : Word) => c.kind = kind →
      (now → Gives (exec i s) fun t => WaitOver s t h o.d v ∧ (t.team tid).cell ci = d ∧
        (∀ j, j ≠ ci → (t.team tid).cell j = (s.team tid).cell j) ∧ (∀ k, k ≠ tid → t.team k = s.team k) ∧
        ∀ a, t.readLoc a = s.readLoc a) ∧
      (¬now → Gives (exec i s) fun t => WaitsAtCell s t tid ci op)
    activeLanes s h ≠ [] → NamesCell s o tid ci → o.ord ≠ .rel → NobodyWaits s tid ci →
    decides (.semwait h o) .sem (.sem b o.flag) (0 ≤ (c.w0 - b).toInt) (if o.flag then { c with w0 := c.w0 - b } else c) c.w0 ∧
    decides (.barwait h o) .bar (.bar b) (c.w3.toNat % 256 ≠ 0 ∨ c.w2 ≠ b) c (if c.w3.toNat % 256 ≠ 0 then 1 else 0) ∧
    decides (.ringawtData h o) .ring (.ringData n) (0 < (c.w0 - n).toInt) c n ∧
    decides (.ringawtFree h o) .ring (.ringFree n) (0 < (c.w1 + BitVec.ofNat 32 (c.w2.toNat % 512) - n).toInt) c n

/-- QPUSH with an allowance stores its entry at the tail and uses one allowance; QPOP of a queue that holds an entry takes
the oldest, gives its producer the allowance back, and writes its tile handle to D; else both wait with no effect (R312). -/
def Obligations.QueuesHoldEntriesInOrder : Prop :=
  ∀ (h : Hdr) (o : CellOps) (s : State) (tid ci : Nat),
    let c := (s.team tid).cell ci
    let p := (s.curG.hreg o.hidx.toNat).toNat / 2 ^ 11 % 16
    let v := src s s.curG o.imm o.b 0
    let place := fun (j : Nat) => (List.range 8).map fun k => (s.team tid).scrLoc (c.w1.toNat + 8 * j + k)
    let entry := leNat ((place c.headx).map s.readLoc)
    let q := entry / 2 ^ 32 % 16
    let others := fun (t : State) => (∀ j, j ≠ ci → (t.team tid).cell j = (s.team tid).cell j) ∧ ∀ k, k ≠ tid → t.team k = s.team k
    activeLanes s h ≠ [] → NamesCell s o tid ci → NobodyWaits s tid ci → c.kind = .queue → 1 ≤ c.cap → c.headx < c.cap →
    (Released s (o.ord == .rel) o.scope → p < c.producers →
      (0 < Tab.get 0 c.allow p → Gives (exec (.qpush h o) s) fun t => others t ∧
        (t.team tid).cell ci = { c with w0 := c.w0 + 1#32, allow := ((t.team tid).cell ci).allow } ∧
        (∀ k, Tab.get 0 ((t.team tid).cell ci).allow k = if k = p then Tab.get 0 c.allow p - 1 else Tab.get 0 c.allow k) ∧
        (∀ a, t.readLoc a = afterWrites s
          ((place ((c.headx + c.w0.toNat) % c.cap)).zip (leBytes 8 (v.toNat + 2 ^ 32 * p))) a) ∧
        WaitOver s t h o.d 0) ∧
      (Tab.get 0 c.allow p = 0 → Gives (exec (.qpush h o) s) fun t => WaitsAtCell s t tid ci (.push p v))) ∧
    (o.ord ≠ .rel →
      (c.w0 ≠ 0 → Gives (exec (.qpop h o) s) fun t => others t ∧
        (t.team tid).cell ci = { c with w0 := c.w0 - 1#32, w3 := ((t.team tid).cell ci).w3, allow := ((t.team tid).cell ci).allow } ∧
        ((t.team tid).cell ci).headx = (c.headx + 1) % c.cap ∧
        ((t.team tid).cell ci).w3.getLsbD 13 = (c.w3.getLsbD 13 || decide (c.producers ≤ q)) ∧
        (∀ k, Tab.get 0 ((t.team tid).cell ci).allow k =
          if k = q ∧ q < c.producers then Tab.get 0 c.allow q + 1 else Tab.get 0 c.allow k) ∧
        (∀ a, t.readLoc a = s.readLoc a) ∧ WaitOver s t h o.d (BitVec.ofNat 32 entry)) ∧
      (c.w0 = 0 → Gives (exec (.qpop h o) s) fun t => WaitsAtCell s t tid ci .pop))

/-- The checks of R303 come in their order before any effect, for every instruction that names a cell: an unbound handle
(0x04, address 0), a bad name (0x01), a rank that is not there (0x02), another kind (0x03); RINGPUB of no or too many numbers
(0x07), QPUSH of an unknown producer (0x04), a remote or an impossible configuration (0x02, 0x05). -/
def Obligations.CellMisuseTrapsBeforeAnyEffect : Prop :=
  ∀ (h : Hdr) (o : CellOps) (s : State), NoRoutine s.curG → activeLanes s h ≠ [] →
    let k := (s.gridOf s.cur.slot).k
    let n := (Machine.cellName s o).toNat
    let b := src s s.curG o.imm o.b 0
    let traps := fun (i : Instr) (d a : Nat) => Gives (exec i s) fun t => TookTrap s t 7 d a
    let kinds : List (Instr × Option CellKind) := [(.cellrd h o, none), (.semsig h o, some .sem), (.semwait h o, some .sem),
      (.bararv h o, some .bar), (.barwait h o, some .bar), (.ringpub h o, some .ring), (.ringawtData h o, some .ring),
      (.ringawtFree h o, some .ring), (.ringrel h o, some .ring), (.qpush h o, some .queue), (.qpop h o, some .queue)]
    let unbound := o.huse = true ∧ (s.curG.hreg o.hidx.toNat).getLsbD 15 = false
    let bad := 2 ^ 11 ≤ n ∨ (n / 2 ^ 10 % 2 = 0 ∧ n / 64 % 16 ≠ 0) ∨ k.cells ≤ n % 64
    (unbound → ∀ e ∈ kinds, traps e.1 4 0) ∧
    (¬unbound → bad → (∀ e ∈ kinds, traps e.1 1 n) ∧ traps (.cellcfgSem h o) 1 n ∧ traps (.cellcfgBind h o) 1 n) ∧
    (¬unbound → ¬bad → n / 2 ^ 10 = 1 → traps (.cellcfgSem h o) 2 n ∧
      (k.clw * k.clh ≤ n / 64 % 16 → (∀ e ∈ kinds, traps e.1 2 n) ∧ traps (.cellcfgBind h o) 2 n)) ∧
    (∀ tid ci, NamesCell s o tid ci →
      let c := (s.team tid).cell ci
      (∀ e ∈ kinds, ∀ kind, e.2 = some kind → c.kind ≠ kind → traps e.1 3 n) ∧
      (c.kind = .ring → (b = 0 ∨ c.w2.toNat % 512 < b.toNat) → traps (.ringpub h o) 7 n) ∧
      (c.kind = .queue → c.producers ≤ (s.curG.hreg o.hidx.toNat).toNat / 2 ^ 11 % 16 → traps (.qpush h o) 4 n) ∧
      (c.kind ≠ .ring → c.kind ≠ .queue → traps (.cellcfgBind h o) 3 n) ∧
      (n < 64 → (src s s.curG 0 o.b 0).toNat % 8 ≠ 0 → traps (.cellcfgQueue h o) 5 n))

/-- CELL_WAITER_WAKE ends a wait that its cell has answered: D is written, the lanes continue after the instruction, and the
waiter is gone; a waiter that its cell turned away takes the cell-misuse trap of the detail noted for it; one that is not
answered goes on waiting (R303, R304). -/
def AnsweredWaitersContinue : Prop :=
  ∀ (s : State) (slot : Nat) (w : Waiter),
    let g := s.group slot
    s.waiters.find? (fun x => x.ticket == w.ticket && x.slot == slot) = some w →
    (∀ x ∈ s.waiters, x.ticket ≠ w.ticket → x.sat = none) → w.acq = none →
    let run := fun (P : State → Prop) => Gives (exec (.cellWaiterWake slot w.ticket) s) P
    let gone := fun (t : State) => t.waiters = (s.waiters.filter fun x => x.ticket != w.ticket) ∧
      (t.group slot).blocked = (g.blocked.filter fun b => b.why != .cell w.ticket) ∧ (∀ a, t.readLoc a = s.readLoc a) ∧
      (∀ k, k ≠ slot → t.group k = s.group k) ∧ t.teams = s.teams
    (w.sat = none → w.wrong = 0 → run fun t => t = s) ∧
    (∀ v, w.sat = some v → run fun t => gone t ∧
      (∀ l, l < g.lanes.length → ((t.group slot).lane l).pc = if w.mask.getLsbD l then w.next else (g.lane l).pc) ∧
      (∀ l j, (t.group slot).vreg l j = g.vreg l j) ∧
      (∀ j, (t.group slot).ureg j = if w.dst = .uni (BitVec.ofNat 8 j) ∧ j < 256 then v else g.ureg j) ∧
      ∀ l k, l < g.lanes.length → k < 7 → predOf ((t.group slot).lane l) k =
        if w.dst = .spc (BitVec.ofNat 8 k) ∧ w.lanes.getLsbD l then v != 0 else predOf (g.lane l) k) ∧
    (w.sat = none → w.wrong ≠ 0 → w.wrong < 2 ^ 16 → NoRoutine g → run fun t => gone t ∧
      (t.group slot).trapcause.toNat % 2 ^ 24 = 7 + 256 * w.wrong ∧ (t.group slot).trapaddr = BitVec.ofNat 56 w.name.toNat ∧
      ∀ l, l < g.lanes.length → (g.lane l).exited = false → w.mask.getLsbD l = true →
        ((t.group slot).lane l).pc = 112#24 ∧ ((t.group slot).lane l).sup = true)

/-- `CellOperationsThatNeverWaitUpdateTheCell` and `RingReleaseMovesTheReadPointer` together. -/
def Obligations.CellOperationsUpdateTheirCell : Prop := CellOperationsThatNeverWaitUpdateTheCell ∧ RingReleaseMovesTheReadPointer

/-- `WaitsEndWhenTheirCellConditionHolds` and `AnsweredWaitersContinue` together. -/
def Obligations.WaitsAtCellsEndWithTheirCondition : Prop := WaitsEndWhenTheirCellConditionHolds ∧ AnsweredWaitersContinue
/-! ### Matrix instructions, shelves and tile predicates (R208 to R228) -/

/-- Every matrix instruction completes on a READY shelf of its format whose rows and columns hold the block, all bytes sound:
each active lane receives 16 results, each one rounding of the exact sum of its terms (or the integer sum, wrapped or
saturated), and FSTAT their flags, SPX for an irregular 2:4 group (R121, R221 to R225). -/
def MatrixInstructionsRoundEachSumOnce : Prop :=
  ∀ (h : Hdr) (o : MatOps) (s : State),
    let g := s.curG
    let t0 := s.team g.tid
    let sel := (src s g 0 o.b 0).toNat
    let x := t0.shelf (sel % 16)
    let r0 := 16 * (sel / 16 % 2 ^ 12)
    let ks := sel / 2 ^ 16 % 2 ^ 10
    let ops : List (Instr × Nat) := [(.mmaF4b h o, 0), (.mmaF8a h o, 1), (.mmaF8b h o, 2), (.mmaB16 h o, 3), (.mmaH16 h o, 4),
      (.mmaI8 h o, 5), (.mmaspF4b h o, 8), (.mmaspF8a h o, 9), (.mmaspI8 h o, 13)]
    ∀ e ∈ ops,
      let input := fun l => ({
        f := e.2, rows := x.nrows, cols := x.klen
        byte := fun b => (s.readLoc (t0.scrLoc (x.m0 * 65536 + b))).toNat
        act := fun k => src s g 0 (Opnd.plus o.a k) l
        scale := fun k => src s g 0 (.vec (o.sreg + BitVec.ofNat 8 k)) l, sb := o.sb.toNat } : MatIn)
      let acc := fun n l => match o.c with
        | .con _ => (0 : Word)
        | c => src s g 0 (Opnd.plus c n) l
      (o.tq = true → (g.qreg o.qi.toNat).getLsbD (sel / 2 ^ 26) = true) → x.st = .ready → x.fmt = e.2 → r0 + 16 ≤ x.nrows →
      (ks + 1) * (formatRow e.2).2.1 ≤ x.klen → x.klen % (formatRow e.2).2.1 = 0 → s.poisonScr = [] →
      (s.core t0.core).mapout = [] → (∃ i, o.d = .vec i) →
      ((formatRow e.2).2.2.2.1 = true → ∀ r < x.nrows, let b := (planesOf e.2 x.nrows x.klen).bands + 2 * (r / 64)
        isFinite (fmtB16.decode ((input 0).byte b + 256 * (input 0).byte (b + 1))) = true) →
      Gives (exec e.1 s) fun t => ∃ p : Nat → Nat → Word × Fl,
        LaneWrites s t h o.d (fun l => (List.range 16).map fun n => (p l n).1)
          (fun l => (List.range 16).foldl (fun z n => z ||| (p l n).2) 0) ∧
        ∀ l n, n < 16 → ∃ q : Word × Fl, p l n = (q.1, q.2 ||| if (input l).irregular (r0 + n) ks then 32#7 else 0) ∧
          if e.2 = 5 ∨ e.2 = 13 then q = ((input l).intResult (r0 + n) ks (acc n l) o.au o.sat, 0)
          else (input l).FloatResult (r0 + n) ks (f32 (acc n l)) q

/-- Before it computes, a matrix instruction retires with no effect where its tile predicate bit is clear; traps with
scratchpad-bounds on a shelf that is FREE, EMPTY or FAILED, of another format, or too small; waits while it is LOADING; and
with no active lane only moves on (R223, R224). -/
def MatrixInstructionsCheckTheirShelf : Prop :=
  ∀ (h : Hdr) (o : MatOps) (s : State),
    let g := s.curG
    let sel := (src s g 0 o.b 0).toNat
    let x := (s.team g.tid).shelf (sel % 16)
    let off := o.tq = true ∧ (g.qreg o.qi.toNat).getLsbD (sel / 2 ^ 26) = false
    let ops : List (Instr × Nat) := [(.mmaF4b h o, 0), (.mmaF8a h o, 1), (.mmaF8b h o, 2), (.mmaB16 h o, 3), (.mmaH16 h o, 4),
      (.mmaI8 h o, 5), (.mmaspF4b h o, 8), (.mmaspF8a h o, 9), (.mmaspI8 h o, 13)]
    ∀ e ∈ ops,
      let small := x.nrows < 16 * (sel / 16 % 2 ^ 12) + 16 ∨ x.klen < (sel / 2 ^ 16 % 2 ^ 10 + 1) * (formatRow e.2).2.1
      ((activeLanes s h = [] ∨ off) → Gives (exec e.1 s) fun t => OnlyGroup s t ∧ MovedWith s t id) ∧
      (activeLanes s h ≠ [] → ¬off → NoRoutine g →
        ((x.st ∈ [ShelfSt.free, .empty, .failed] ∨ x.fmt ≠ e.2 ∨ small) → Gives (exec e.1 s) fun t => TookTrap s t 6 2 (sel % 16)) ∧
        (x.st = .loading → x.fmt = e.2 → ¬small → Gives (exec e.1 s) fun t => OnlyGroup s t ∧ RegsKept s t ∧
          (∀ l, (t.curG.lane l).pc = (g.lane l).pc) ∧
          ∃ b, t.curG.blocked = g.blocked ++ [b] ∧ b.mask = s.cur.mask ∧ b.pc = s.cur.pc ∧ b.why = .shelf (sel % 16)))

/-- QSET.v, QSET.range, QSET.all, QSET.rd and QLOG complete in every state with an active lane: the tile predicate receives the
register pair, the range of bits, all ones or the table's bits of three tile predicates; QSET.rd gives both words of one to a
uniform pair (R228). -/
def Obligations.TilePredicatesReceiveTheirTableValue : Prop :=
  ∀ (h : Hdr) (o : TileOps) (s : State),
    let g := s.curG
    let qi := fun (x : Opnd) => opndIdx x - 8
    let a := fun k => (src s g 0 (Opnd.plus o.a k) 0).toNat
    let b := (src s g 0 o.b 0).toNat
    let sets := fun (i : Instr) (v : BitVec 64) => Gives (exec i s) fun t => OnlyGroup s t ∧
      MovedWith s t (fun g => { g with q := t.curG.q }) ∧ ∀ j, t.curG.qreg j = if j = qi o.d then v else g.qreg j
    (activeLanes s h = [] → ∀ i ∈ [Instr.qsetV h o, .qsetRange h o, .qsetAll h o, .qsetRd h o, .qlog h o, .qld h o],
      Gives (exec i s) fun t => OnlyGroup s t ∧ MovedWith s t id) ∧
    (activeLanes s h ≠ [] →
      ((∃ i, o.a = .uni i) → sets (.qsetV h o) (BitVec.ofNat 64 (a 0 + 2 ^ 32 * a 1))) ∧
      (∃ v : BitVec 64, sets (.qsetRange h o) v ∧ ∀ k, v.getLsbD k = decide (a 0 ≤ k ∧ k < min b 64)) ∧
      sets (.qsetAll h o) (BitVec.allOnes 64) ∧
      (∃ v : BitVec 64, sets (.qlog h o) v ∧ ∀ k, k < 64 → v.getLsbD k = o.imm.getLsbD
        (((g.qreg (qi o.a)).getLsbD k).toNat + 2 * ((g.qreg (qi o.b)).getLsbD k).toNat + 4 * ((g.qreg (qi o.d)).getLsbD k).toNat)) ∧
      ∀ i : BitVec 8, o.d = .uni i → i.toNat < 255 → Gives (exec (.qsetRd h o) s) fun t => OnlyGroup s t ∧ LanesMoved s t ∧
        t.curG = { g with lanes := t.curG.lanes, s := t.curG.s } ∧ (∀ l k, t.curG.vreg l k = g.vreg l k) ∧
        ∀ j, t.curG.ureg j = if j = i.toNat then (g.qreg (qi o.a)).extractLsb' 0 32
          else if j = i.toNat + 1 then (g.qreg (qi o.a)).extractLsb' 32 32 else g.ureg j)

/-- `MatrixInstructionsRoundEachSumOnce` and `MatrixInstructionsCheckTheirShelf` together. -/
def Obligations.MatrixInstructionsCheckTheirShelfAndRoundOnce : Prop := MatrixInstructionsRoundEachSumOnce ∧ MatrixInstructionsCheckTheirShelf
/-- STATION, UNSTAT and WLOAD complete: a FREE index whose descriptor is good and finds macros becomes EMPTY with every byte
zero; UNSTAT frees an index no tile task reads, its macros with it, and cancels a load of it; WLOAD makes a stationed index
LOADING and enters the load. While a tile task reads the shelf, both wait (R208, R212, R214 to R216, R224). -/
def ShelvesAreStationedAndReleased : Prop :=
  ∀ (h : Hdr) (o : ShelfOps) (s : State),
    let g := s.curG
    let tm := s.team g.tid
    let i := (src s g 0 o.b 0).toNat
    let x := tm.shelf i
    let a := srcPair s g 0 o.a 0 % 2 ^ 56
    let stationed := fun (t : State) (d : Nat) => let y := descShelf d
      (t.team g.tid).shelf i = y ∧ y.st = .empty ∧ y.src = d % 2 ^ 56 ∧ y.fmt = d / 2 ^ 64 % 16 ∧ y.m0 = d / 2 ^ 80 % 32 ∧
      y.nm = d / 2 ^ 88 % 64 ∧ y.nrows = d / 2 ^ 96 % 2 ^ 24 ∧ y.klen = d / 2 ^ 128 % 2 ^ 24 ∧
      (∀ k, k < y.nm * 65536 → t.readLoc ((t.team g.tid).scrLoc (y.m0 * 65536 + k)) = 0) ∧
      (∀ j, j ≠ i → (t.team g.tid).shelf j = tm.shelf j) ∧ ∀ d', t.readLoc (.dev d') = s.readLoc (.dev d')
    (activeLanes s h = [] → ∀ j ∈ [Instr.station h o, .unstat h o, .wload h o], Gives (exec j s) fun t => OnlyGroup s t ∧ MovedWith s t id) ∧
    (∀ d, activeLanes s h ≠ [] → i ≤ 15 → x.st = .free → a % 64 = 0 → PlainReads s → ReadsAs s a 64 d →
      descOk tm (s.grid tm.grid).k.scratch d = true → s.stations tm.core = [] → tm.used = true → tm.st = .running →
      s.cur.slot ∈ tm.slots → (∀ m ∈ tm.macs, m.1 < (descShelf d).m0 ∨ (descShelf d).m0 + (descShelf d).nm ≤ m.1) →
      (descShelf d).nm ≤ (s.macroOrder tm.core false).length → s.cur.rep = none →
      Gives (exec (.station h o) s) fun t => stationed t d ∧ RegsKept s t ∧
        (∀ l, l < g.lanes.length → l < 64 → (t.curG.lane l).pc = if inSub s l then s.cur.next else (g.lane l).pc) ∧
        t.curG.blocked = g.blocked) ∧
    (activeLanes s h ≠ [] → i ≤ 15 → x.st = .free → Gives (exec (.unstat h o) s) fun t => OnlyGroup s t ∧ MovedWith s t id) ∧
    (activeLanes s h ≠ [] → i ≤ 15 → x.st ≠ .free → s.loadOf g.tid i = none → s.shelfRead g.tid i = false →
      s.stations tm.core = [] → Gives (exec (.unstat h o) s) fun t => MovedWith s t id ∧ ShelfBecame s t g.tid i Shelf.reset ∧
        (t.team g.tid).macs = (tm.macs.filter fun m => !(decide (x.m0 ≤ m.1 ∧ m.1 < x.m0 + x.nm))) ∧
        let mine := tm.macs.filter fun m => decide (x.m0 ≤ m.1 ∧ m.1 < x.m0 + x.nm)
        if x.st = .ready ∧ x.nrl = false ∧ x.ffp = none ∧ mine ≠ [] then ∃ r, t.retained = r :: s.retained ∧ r.core = tm.core ∧
          r.pasid = (s.grid tm.grid).pasid ∧ r.src = x.src ∧ r.fmt = x.fmt ∧ r.nrows = x.nrows ∧ r.klen = x.klen ∧
          r.macs = mine.map Prod.snd else t.retained = s.retained) ∧
    (∀ c, activeLanes s h ≠ [] → i ≤ 15 → x.st ≠ .free → s.loadOf g.tid i = some c → c.kind = .wload → c.aux1 < 64 →
      s.shelfRead g.tid i = false → s.stations tm.core = [] → Gives (exec (.unstat h o) s) fun t => ((t.team g.tid).shelf i).st = .free ∧
        (∀ e ∈ t.cmds, e.id ≠ c.id) ∧ SignalSent s t g.tid { cell := c.aux1, add := 1, arr := 1, status := 0x85, want := none }) ∧
    (activeLanes s h ≠ [] → i ≤ 15 → x.st ≠ .free → x.st ≠ .loading → SignalCell s o.cell.toNat → s.shelfRead g.tid i = false →
      Gives (exec (.wload h o) s) fun t => MovedWith s t id ∧
        ShelfBecame s t g.tid i { x with st := .loading, ffp := none } ∧
        t.cmds = s.cmds ++ [entered s .wload [] i o.cell.toNat (if o.reuse then 1 else 0)]) ∧
    (activeLanes s h ≠ [] → i ≤ 15 → x.st ≠ .free → s.shelfRead g.tid i = true →
      (s.loadOf g.tid i = none → Gives (exec (.unstat h o) s) fun t => WaitsHere s t (.unstat i)) ∧
      (x.st ≠ .loading → SignalCell s o.cell.toNat → Gives (exec (.wload h o) s) fun t => WaitsHere s t (.reading i))) ∧
    (NoRoutine g → activeLanes s h ≠ [] →
      ((15 < i ∨ x.st ≠ .free) → Gives (exec (.station h o) s) fun t => TookTrap s t 6 2 i) ∧
      (i ≤ 15 → x.st = .free → a % 64 ≠ 0 → Gives (exec (.station h o) s) fun t => TookTrap s t 2 1 a) ∧
      (15 < i → Gives (exec (.unstat h o) s) fun t => TookTrap s t 6 2 i) ∧
      ((15 < i ∨ x.st = .free ∨ x.st = .loading) → Gives (exec (.wload h o) s) fun t => TookTrap s t 6 2 i) ∧
      (i ≤ 15 → x.st ≠ .free → x.st ≠ .loading → ¬SignalCell s o.cell.toNat →
        Gives (exec (.wload h o) s) fun t => TookTrap s t 7 8 o.cell.toNat))

/-- A load of a shelf copies the whole sectors of its image from its source unchanged: WLOAD_COMPLETE leaves the shelf READY with the image's bytes
and signals its cell, or FAILED where a band scale is not finite (R210, R214). STATION_MACROS_GRANTED answers the waiting
STATION that issued first, UNSTAT_RELEASE frees a shelf once its readers are done (R213, R215). -/
def ShelfLoadsAndWaitsComplete : Prop :=
  ∀ (s : State) (tid i d : Nat) (c : Cmd) (slot : Nat) (b : Blocked),
    let tm := s.team tid
    let x := tm.shelf i
    let len := (planesOf x.fmt x.nrows x.klen).bands + if (formatRow x.fmt).2.2.2.1 then 2 * ((x.nrows + 63) / 64) else 0
    let whole := (len + 31) / 32 * 32
    let finite := (formatRow x.fmt).2.2.2.1 = true → ∀ k < (x.nrows + 63) / 64, let j := d + (planesOf x.fmt x.nrows x.klen).bands + 2 * k
      isFinite (fmtB16.decode ((s.readLoc (.dev j)).toNat + 256 * (s.readLoc (.dev (j + 1))).toNat)) = true
    let outcome := fun (status : Nat) => ({ cell := c.aux1, add := 1, arr := 1, status, want := none } : Sig)
    (s.loadOf tid i = some c → c.tid = tid → c.aux0 = i → c.kind = .wload → c.aux1 < 64 → c.aux2 = 0 → c.pos = 0 → c.data = [] →
      x.fmt ∈ [0, 1, 2, 3, 4, 5, 8, 9, 13] → x.src % 64 = 0 → s.cmdPaused c = false → s.cmdReady c = true →
      OwnBytes tm (x.m0 * 65536) whole → DevRange s c.core c.pasid 0 x.src whole d →
      Gives (exec (.wloadComplete tid i) s) fun t =>
        (finite → ((t.team tid).shelf i).st = .ready ∧ SignalSent s t tid (outcome 0)) ∧
        (¬finite → ((t.team tid).shelf i).st = .failed ∧ SignalSent s t tid (outcome 0x87)) ∧
        (∀ k, k < whole → t.readLoc (tm.scrLoc (x.m0 * 65536 + k)) = s.readLoc (.dev (d + k))) ∧
        (∀ k, t.readLoc (.dev k) = s.readLoc (.dev k)) ∧ ∀ e ∈ t.cmds, e.id ≠ c.id) ∧
    (∀ n j e (w : Team), let tid := (s.group slot).tid
      s.stations (slotCore slot) = [(slot, b, n, j, e)] → s.team tid = w → (w.shelf j).st = .free →
      descOk w (s.grid w.grid).k.scratch e = true → w.core = slotCore slot → w.st ≠ .stopped →
      (∀ m ∈ w.macs, m.1 < (descShelf e).m0 ∨ (descShelf e).m0 + (descShelf e).nm ≤ m.1) →
      (descShelf e).nm ≤ (s.macroOrder w.core false).length →
      Gives (exec (.stationMacrosGranted slot) s) fun t => ((t.team tid).shelf j).st = .empty ∧
        (∀ k, k < (descShelf e).nm * 65536 → t.readLoc ((t.team tid).scrLoc ((descShelf e).m0 * 65536 + k)) = 0) ∧
        (t.group slot).blocked = ((s.group slot).blocked.filter fun c => c != b) ∧
        ∀ l, l < (s.group slot).lanes.length → b.mask.getLsbD l = true → ((t.group slot).lane l).pc = b.next) ∧
    (∀ j, let tid := (s.group slot).tid
      (s.group slot).blocked = [b] → b.why = .unstat j → s.stations (slotCore slot) = [] →
      (s.shelfRead tid j = true → Gives (exec (.unstatRelease slot) s) fun t => t = s) ∧
      (s.shelfRead tid j = false → s.loadOf tid j = none → Gives (exec (.unstatRelease slot) s) fun t => ((t.team tid).shelf j).st = .free ∧
        (t.group slot).blocked = [] ∧ (∀ a, t.readLoc a = s.readLoc a) ∧
        ∀ l, l < (s.group slot).lanes.length → b.mask.getLsbD l = true → ((t.group slot).lane l).pc = b.next))

/-- QLD completes where its header, row offsets and indices can be read: the masks become outstanding, a bit set for each
index of the row that lies in the window (R227). ISECT completes with the merge of every lane's streams, at most 512 steps:
the positions and the number of matches of each lane become outstanding for D, and with .emit the matches join the store
queue (R43, R203, R204). -/
def Obligations.MasksAndIntersectionsReadTheirStreams : Prop :=
  ∀ (h : Hdr) (o : TileOps) (p : IsectOps) (s : State),
    let g := s.curG
    let act := activeLanes s h
    (∀ (n ix p0 p1 : Nat) (idx : Nat → Nat),
      let a := srcPair s g 0 o.a 0 % 2 ^ 56
      let r := (src s g 0 o.b 0).toNat
      let win := o.imm.toNat % 2 ^ 16
      let nq := o.imm.toNat / 2 ^ 16 % 8 + 1
      act ≠ [] → PlainReads s → (∃ hd, ReadsAs s a 16 hd ∧ hd % 2 ^ 32 = n ∧ hd / 2 ^ 64 % 2 ^ 56 = ix) →
      (r < n → ReadsAs s ((a + 16 + 4 * r) % 2 ^ 56) 4 p0 ∧ ReadsAs s ((a + 20 + 4 * r) % 2 ^ 56) 4 p1 ∧
        ∀ e, p0 ≤ e → e < p1 → ReadsAs s ((ix + 2 * e) % 2 ^ 56) 2 (idx e)) →
      Gives (exec (.qld h o) s) fun t => ∃ ms : List (BitVec 64), ms.length = nq ∧
        (∀ k m b, ms[k]? = some m → b < 64 → (m.getLsbD b = true ↔ r < n ∧ ∃ e, p0 ≤ e ∧ e < p1 ∧ idx e = 64 * (win + k) + b)) ∧
        MovedWith s t fun g => { g with pend := g.pend ++ [{
          id := s.fresh, file := 2, dst := opndIdx o.d - 8, pasid := s.pasidOf s.cur.slot, acq := none, ldx := none
          form := Form.plain 8
          lanes := ms.zipIdx.map fun q => { lane := q.2, va := 0, datum := .words [q.1.extractLsb' 0 32, q.1.extractLsb' 32 32] } }] }) ∧
    (act = [] → Gives (exec (.isect h p) s) fun t => OnlyGroup s t ∧ MovedWith s t id) ∧
    (∀ (x y : Nat → Nat → Nat) (place : Nat → Nat → Nat),
      let n1 := fun l => (src s g 0 (Opnd.plus p.a 2) l).toNat
      let n2 := fun l => (src s g 0 (Opnd.plus p.b 2) l).toNat
      let cap := fun l => (src s g 0 (Opnd.plus p.c 2) l).toNat
      let st0 := fun l => ((src s g 0 p.d l).toNat, (src s g 0 (Opnd.plus p.d 1) l).toNat, (src s g 0 (Opnd.plus p.d 2) l).toNat,
        ([] : List Nat))
      let more := fun (l : Nat) (q : Nat × Nat × Nat × List Nat) => q.1 < n1 l ∧ q.2.1 < n2 l ∧ ¬(p.emit = true ∧ q.2.2.1 = cap l)
      let one := fun (l : Nat) (q : Nat × Nat × Nat × List Nat) => if ¬more l q then q
        else if x l q.1 = y l q.2.1 then (q.1 + 1, q.2.1 + 1, q.2.2.1 + 1, q.2.2.2 ++ [x l q.1])
        else if x l q.1 < y l q.2.1 then (q.1 + 1, q.2.1, q.2.2.1, q.2.2.2) else (q.1, q.2.1 + 1, q.2.2.1, q.2.2.2)
      let end_ := fun l => (one l)^[512] (st0 l)
      let addr := fun o l => srcPair s g 0 o l % 2 ^ 56
      act ≠ [] → PlainReads s →
      (∀ l ∈ act, (∀ i, i < n1 l → ReadsAs s ((addr p.a l + 4 * i) % 2 ^ 56) 4 (x l i)) ∧
        (∀ j, j < n2 l → ReadsAs s ((addr p.b l + 4 * j) % 2 ^ 56) 4 (y l j)) ∧
        (p.emit = true → ∀ k, k < cap l → (addr p.c l + 4 * k) % 2 ^ 56 % 4 = 0 ∧
          s.look (slotCore s.cur.slot) (s.pasidOf s.cur.slot) ((addr p.c l + 4 * k) % 2 ^ 56) 1 = .hit (.dev (place l k)) ∧
          ∀ v i, (i < n1 l ∧ v = (addr p.a l + 4 * i) % 2 ^ 56) ∨ (i < n2 l ∧ v = (addr p.b l + 4 * i) % 2 ^ 56) →
            s.look (slotCore s.cur.slot) (s.pasidOf s.cur.slot) v 0 ≠ .hit (.dev (place l k)))) →
      (∃ i : BitVec 8, p.d = .vec i ∧ i.toNat < 254) → (∀ l ∈ act, p.emit = true → (st0 l).2.2.1 ≤ cap l) →
      Gives (exec (.isect h p) s) fun t => LanesMoved s t ∧ RegsKept s t ∧ (∀ a, t.readLoc a = s.readLoc a) ∧
        (∃ e, t.curG.pend = g.pend ++ [e] ∧ e.file = 0 ∧ e.dst = opndIdx p.d ∧ e.form = Form.plain 12 ∧
          e.pasid = s.pasidOf s.cur.slot ∧ e.acq = none ∧ e.ldx = none ∧ e.lanes = act.map fun l =>
            PLane.mk l 0 (.words [BitVec.ofNat 32 (end_ l).1, BitVec.ofNat 32 (end_ l).2.1, BitVec.ofNat 32 (end_ l).2.2.1])) ∧
        (p.emit = false → t.curG.sq = g.sq) ∧
        (p.emit = true → (act.flatMap fun l => (end_ l).2.2.2) ≠ [] → ∃ e, t.curG.sq = g.sq ++ [e] ∧ ∃ bs, e.kind = .store bs ∧
          bs.map (fun b => (b.loc, b.val)) = act.flatMap fun l => ((end_ l).2.2.2.zipIdx.flatMap fun v =>
            (leBytes 4 v.1).zipIdx.map fun b => (Loc.dev (place l ((st0 l).2.2.1 + v.2) + b.2), b.1))))

/-- `ShelvesAreStationedAndReleased` and `ShelfLoadsAndWaitsComplete` together. -/
def Obligations.ShelvesAreStationedLoadedAndReleased : Prop := ShelvesAreStationedAndReleased ∧ ShelfLoadsAndWaitsComplete
/-! ### Predicted rows (R229 to R242) -/

/-- FFPSEL completes on a list that lies in the declared area, earlier stores done: every row of the block that some active
lane scores above the threshold joins the list once, entries in ascending order while there is room, OVF beyond it, BAD for a
row past NR; with earlier stores waiting the group waits, its rows already chosen (R230, R232). FFPBND and FFPFCH complete by
entering their command, FFPFCH with its shelf LOADING, once no tile task reads it (R224, R233, R238). -/
def RowSelectionAndItsCommandsAreEntered : Prop :=
  ∀ (h : Hdr) (o : FfpOps) (s : State),
    let g := s.curG
    let act := activeLanes s h
    let tm := s.team g.tid
    let scratch := (s.grid tm.grid).k.scratch
    let b := fun k => (src s g 0 (Opnd.plus o.b k) 0).toNat
    let a := (src s g 0 o.a 0).toNat + 2 ^ 32 * (src s g 0 (Opnd.plus o.a 1) 0).toNat
    let addr := a % 2 ^ 56
    let words := fun (n : Nat) => [src s g 0 o.a 0, src s g 0 (Opnd.plus o.a 1) 0] ++
      (List.range n).map fun k => src s g 0 (Opnd.plus o.b k) 0
    let cell := o.imm.toNat % 64
    let wordOf := fun (t : State) (off : Nat) => leNat ((List.range 4).map fun i => t.readLoc (tm.scrLoc (off + i)))
    (act = [] → ∀ i ∈ [Instr.ffpsel h o, .ffpbnd h o, .ffpfch h o], Gives (exec i s) fun t => OnlyGroup s t ∧ MovedWith s t id) ∧
    (act ≠ [] →
      let l := b 0
      let count := wordOf s l
      let cap := wordOf s (l + 4)
      let nr := wordOf s (l + 8)
      let bitmap := fun (t : State) (r : Nat) => wordOf t (l + 16 + 4 * (r / 32)) / 2 ^ (r % 32) % 2 = 1
      let entryAt := fun (e : Nat) => l + 16 + 4 * ((nr + 31) / 32) + 4 * e
      let chosen := fun (n : Nat) => n ≤ o.imm.toNat % 16 ∧ ∃ m ∈ act,
        let z := f32 (src s g 0 (Opnd.plus o.a n) m)
        let tau := f32 (src s g 0 (Opnd.plus o.b 2) 0)
        z.isNan = true ∨ (tau.isNan = false ∧ Exact.cmp (if o.abs then z.abs else z) tau = .gt)
      l % 16 = 0 → entryAt cap ≤ scratch → 1 ≤ nr → nr ≤ 65536 → count ≤ cap → s.poisonScr = [] → g.sq = [] →
      OwnBytes tm l (entryAt cap - l) →
      Gives (exec (.ffpsel h o) s) fun t => LanesMoved s t ∧ RegsKept s t ∧
        (∀ d, t.readLoc (.dev d) = s.readLoc (.dev d)) ∧
        (∀ r, r < nr → (bitmap t r ↔ bitmap s r ∨ ∃ n, r = b 1 + n ∧ chosen n)) ∧
        wordOf t (l + 4) = cap ∧ wordOf t (l + 8) = nr ∧
        ∃ new : List Nat, new.Pairwise (· < ·) ∧ (∀ r, r ∈ new ↔ r < nr ∧ ¬bitmap s r ∧ ∃ n, r = b 1 + n ∧ chosen n) ∧
          wordOf t l = min cap (count + new.length) ∧
          (∀ e r, new[e]? = some r → count + e < cap → wordOf t (entryAt (count + e)) = r) ∧
          (∀ e, e < count → wordOf t (entryAt e) = wordOf s (entryAt e)) ∧
          ((cap < count + new.length ∧ wordOf t (l + 12) % 2 = 1) ∨ (count + new.length ≤ cap ∧ wordOf t (l + 12) % 2 = wordOf s (l + 12) % 2)) ∧
          (((∃ n, chosen n ∧ nr ≤ b 1 + n) ∧ wordOf t (l + 12) / 2 % 2 = 1) ∨
            ((∀ n, chosen n → b 1 + n < nr) ∧ wordOf t (l + 12) / 2 % 2 = wordOf s (l + 12) / 2 % 2))) ∧
    (act ≠ [] → b 0 % 16 = 0 → b 0 + 16 ≤ scratch → g.sq ≠ [] → Gives (exec (.ffpsel h o) s) fun t =>
      ∃ rows : List Nat, WaitsHere s t (.ffpsel (b 0) (b 1) rows) ∧ ∀ n, n ∈ rows ↔ n ≤ o.imm.toNat % 16 ∧ ∃ m ∈ act,
        let z := f32 (src s g 0 (Opnd.plus o.a n) m)
        let tau := f32 (src s g 0 (Opnd.plus o.b 2) 0)
        z.isNan = true ∨ (tau.isNan = false ∧ Exact.cmp (if o.abs then z.abs else z) tau = .gt)) ∧
    (act ≠ [] → addr % 64 = 0 → SignalCell s cell → b 0 % 16 = 0 → b 1 % 16 = 0 → b 2 % 16 = 0 → b 2 + 16384 ≤ scratch →
      Gives (exec (.ffpbnd h o) s) fun t => MovedWith s t id ∧ t = { s with groups := t.groups, cmds := t.cmds, fresh := s.fresh + 1 } ∧
        t.cmds = s.cmds ++ [entered s .ffpbnd (words 6) 0 cell 0]) ∧
    (∀ i, i = o.imm.toNat / 256 % 16 → act ≠ [] → addr % 64 = 0 → SignalCell s cell → (tm.shelf i).fmt = 0 →
      (tm.shelf i).st ∈ [ShelfSt.empty, .ready, .failed] → b 2 % 16 = 0 → b 2 + 16 + 8 * (tm.shelf i).nrows ≤ scratch →
      (s.shelfRead g.tid i = true → Gives (exec (.ffpfch h o) s) fun t => WaitsHere s t (.reading i)) ∧
      (s.shelfRead g.tid i = false → Gives (exec (.ffpfch h o) s) fun t => MovedWith s t id ∧
        ShelfBecame s t g.tid i { tm.shelf i with st := .loading, ffp := some (words 3) } ∧
        t.cmds = s.cmds ++ [entered s .ffpfch (words 3) i cell 0])) ∧
    (NoRoutine g → act ≠ [] →
      (b 0 % 16 ≠ 0 → Gives (exec (.ffpsel h o) s) fun t => TookTrap s t 2 1 (b 0)) ∧
      (addr % 64 ≠ 0 → (Gives (exec (.ffpbnd h o) s) fun t => TookTrap s t 2 1 addr) ∧
        Gives (exec (.ffpfch h o) s) fun t => TookTrap s t 2 1 addr) ∧
      (addr % 64 = 0 → ¬SignalCell s cell → Gives (exec (.ffpbnd h o) s) fun t => TookTrap s t 7 8 cell))

/-- A check and a gather read their layer record and lists when they start: with both good the check holds S and begins at its
first row, and the gather holds its rows, those of the replay list that the active list already names left out. FFPBND_CHECK_END
past the last row ends OK, or OVERFLOW, and adds its counts to the layer's counters; FFPFCH_GATHER_END ends OK with its shelf
READY where every row can be read. Each signals its cell. A check or gather whose record cannot be translated, or is malformed,
fails with cause 1 or 7, the row map of a gather saying so (R229, R230, R234, R239, R240, R242). -/
def ChecksAndGathersSignalTheirOutcome : Prop :=
  ∀ (s : State) (c : Cmd),
    let tm := s.team c.tid
    let word := fun k => (c.words.getD k 0).toNat
    let addr := (word 0 + 2 ^ 32 * word 1) % 2 ^ 56
    let sig := fun (cause : Nat) => ({ cell := c.aux1, add := 1, arr := 1, want := none, status := if cause = 0 then 0 else 0x80 + cause } : Sig)
    let bad := fun (d : Nat) => d / 2 ^ 56 % 256 ≠ 0 ∨ d / 2 ^ 88 % 256 ≠ 0 ∨ d / 2 ^ 120 % 256 ≠ 0 ∨ d / 2 ^ 139 % 2 ^ 373 ≠ 0 ∨
      d % 2 ^ 56 % 64 ≠ 0 ∨ d / 2 ^ 64 % 2 ^ 24 % 16 ≠ 0 ∨ d / 2 ^ 64 % 2 ^ 24 < 16 ∨ 65536 < d / 2 ^ 64 % 2 ^ 24 ∨
      d / 2 ^ 96 % 2 ^ 24 % 32 ≠ 0 ∨ d / 2 ^ 96 % 2 ^ 24 < 32 ∨ 32768 < d / 2 ^ 96 % 2 ^ 24
    let ended := fun (t : State) (cause : Nat) => (∀ e ∈ t.cmds, e.id ≠ c.id) ∧ SignalSent s t c.tid (sig cause)
    let src := fun (d : Nat) => d % 2 ^ 56
    let nrows := fun (d : Nat) => d / 2 ^ 64 % 2 ^ 24
    let klen := fun (d : Nat) => d / 2 ^ 96 % 2 ^ 24
    let at_ := fun (t : State) (o : Nat) => leNat ((List.range 4).map fun i => t.readLoc (tm.scrLoc (o + i)))
    let bitmap := fun (o r : Nat) => at_ s (o + 16 + 4 * (r / 32)) / 2 ^ (r % 32) % 2
    let entry := fun (o e : Nat) => at_ s (o + 16 + 4 * ((at_ s (o + 8) + 31) / 32) + 4 * e)
    let good := fun (o n : Nat) => o + 16 + 4 * ((n + 31) / 32) + 4 * at_ s (o + 4) ≤ (s.grid tm.grid).k.scratch ∧
      at_ s (o + 8) = n ∧ at_ s o ≤ at_ s (o + 4) ∧ at_ s (o + 12) < 2
    let layer := fun (ws : List Word) (d : Nat) => wordsNat (ws.take 2) = src d ∧ (ws.getD 2 0).toNat = nrows d ∧
      (ws.getD 3 0).toNat = klen d ∧ (ws.getD 4 0).toNat = d / 2 ^ 128 % 2 ^ 10 ∧ (ws.getD 5 0 = 1 ↔ d / 2 ^ 138 % 2 = 1)
    s.poisonScr = [] → s.cmds.find? (fun x => x.id == c.id) = some c → s.cmdPaused c = false → s.cmdReady c = true →
    (c.kind = .ffpbnd → c.st = .accepted →
      (∀ d, DevRange s c.core c.pasid 0 addr 64 d → bad (leNat (s.devBytes d 64)) →
        Gives (exec (.ffpbndCheckStart c.tid c.id) s) fun t => ended t 7) ∧
      (∀ d v, DevRange s c.core c.pasid 0 addr 64 d → v = leNat (s.devBytes d 64) → ¬bad v → good (word 2) (nrows v) →
        good (word 3) (nrows v) → Gives (exec (.ffpbndCheckStart c.tid c.id) s) fun t => ∃ ws, layer ws v ∧ ws.length = 6 + klen v / 8 ∧
          (∀ b, b < klen v / 8 → (ws.getD (6 + b) 0).toNat = at_ s (word 4 + 4 * b)) ∧
          t.cmds = s.cmds.map fun x => if x.id = c.id then { c with st := .running, data := ws, pos := word 6 } else x) ∧
      (∀ reason, ((asCmd s c.id).agentXl c.core c.pasid addr 0).1 = .bad reason →
        Gives (exec (.ffpbndCheckStart c.tid c.id) s) fun t => ended t 1)) ∧
    (c.kind = .ffpbnd → c.st = .running → min (word 7) (c.data.getD 2 0).toNat ≤ c.pos →
      Gives (exec (.ffpbndCheckEnd c.tid c.id) s) fun t =>
        let ovf := leNat ((List.range 4).map fun i => s.readLoc (tm.scrLoc (word 3 + 12 + i))) % 2 = 1
        (ovf → ended t 3) ∧ (¬ovf → ended t 0) ∧
        let set_ := 0x140000 + 0x20 * (c.data.getD 4 0).toNat
        (c.data.getD 5 0 = 1 → ¬ovf → t.reg set_ = s.reg set_ + BitVec.ofNat 64 c.cnt0 ∧
          t.reg (set_ + 8) = s.reg (set_ + 8) + BitVec.ofNat 64 c.cnt1 ∧ t.reg (set_ + 16) = s.reg (set_ + 16) + BitVec.ofNat 64 c.cnt2) ∧
        (c.data.getD 5 0 = 1 → ovf → t.reg (set_ + 24) = s.reg (set_ + 24) + 1) ∧ (c.data.getD 5 0 ≠ 1 → t.hub = s.hub)) ∧
    (c.kind = .ffpfch → c.aux1 < 64 → OwnBytes tm (word 4) 8 →
      let failed := fun (t : State) (cause done total : Nat) => ended t cause ∧ ((t.team c.tid).shelf c.aux0).st = .failed ∧
        leNat ((List.range 4).map fun i => t.readLoc (tm.scrLoc (word 4 + i))) = done ∧
        leNat ((List.range 4).map fun i => t.readLoc (tm.scrLoc (word 4 + 4 + i))) = total
      (c.st = .accepted → ∀ reason, ((asCmd s c.id).agentXl c.core c.pasid addr 0).1 = .bad reason →
        Gives (exec (.ffpfchGatherStart c.tid c.id) s) fun t => failed t 1 0 0xFFFFFFFF) ∧
      (c.st = .accepted → ∀ d, DevRange s c.core c.pasid 0 addr 64 d → bad (leNat (s.devBytes d 64)) →
        Gives (exec (.ffpfchGatherStart c.tid c.id) s) fun t => failed t 7 0 0xFFFFFFFF) ∧
      (c.st = .running → c.pos < c.data.length - 6 → ∀ reason,
        let from_ := wordsNat (c.data.take 2) + (c.data.getD (6 + c.pos) 0).toNat * ((c.data.getD 3 0).toNat / 2)
        2 ≤ (c.data.getD 3 0).toNat → from_ < 2 ^ 56 → c.pos < 2 ^ 32 → c.data.length < 2 ^ 32 →
        ((asCmd s c.id).agentXl c.core c.pasid from_ 0).1 = .bad reason →
        Gives (exec (.ffpfchGatherEnd c.tid c.id) s) fun t => failed t 1 c.pos (c.data.length - 6)) ∧
      (c.st = .accepted → ∀ d v, DevRange s c.core c.pasid 0 addr 64 d → v = leNat (s.devBytes d 64) → ¬bad v →
        klen v = (tm.shelf c.aux0).klen → good (word 2) (nrows v) → good (word 3) (nrows v) → at_ s (word 2 + 12) = 0 →
        at_ s (word 3 + 12) = 0 → OwnBytes tm (word 4) 16 →
        let rows := ((List.range (at_ s (word 2))).map (entry (word 2))) ++
          ((List.range (at_ s (word 3))).map (entry (word 3))).filter fun r => bitmap (word 2) r == 0
        16 * ((rows.length + 15) / 16) ≤ (tm.shelf c.aux0).nrows → rows.length < 2 ^ 32 →
        Gives (exec (.ffpfchGatherStart c.tid c.id) s) fun t => ∃ ws, layer ws v ∧ ws.length = 6 ∧
          t.cmds = (s.cmds.map fun x => if x.id = c.id then
            { c with st := .running, data := ws ++ rows.map (BitVec.ofNat 32), pos := 0 } else x) ∧
          at_ t (word 4) = 0 ∧ at_ t (word 4 + 4) = rows.length) ∧
      (c.st = .running → 6 ≤ c.data.length → c.pos ≤ c.data.length - 6 → c.data.length < 2 ^ 32 →
        let w := fun k => (c.data.getD k 0).toNat
        let from_ := wordsNat (c.data.take 2)
        let scales := from_ + (planesOf 0 (w 2) (w 3)).scales
        let bands := from_ + (planesOf 0 (w 2) (w 3)).bands
        (∀ k, c.pos ≤ k → k < c.data.length - 6 → let r := w (6 + k)
          (∃ d, DevRange s c.core c.pasid 0 (from_ + r * (w 3 / 2)) (w 3 / 2) d) ∧
          (∃ d, DevRange s c.core c.pasid 0 (scales + r * (w 3 / 8)) (w 3 / 8) d) ∧
          ∃ d, DevRange s c.core c.pasid 0 (bands + 2 * (r / 64)) 2 d) →
        Gives (exec (.ffpfchGatherEnd c.tid c.id) s) fun t => ended t 0 ∧ ((t.team c.tid).shelf c.aux0).st = .ready ∧
          at_ t (word 4) = c.data.length - 6))

/-- The guarantee of R235: let the bound the check computes for a row from its scale codes, its band scale and S be at most
ε. Then for every real vector whose absolute block sums stay within S, and every E2M1 code of the row, the exact product of
row and vector is at most ε in size. -/
def Obligations.SkippedRowsStayBelowTheThreshold : Prop :=
  ∀ (codes : List Byte) (S : List Word) (band : Nat) (eps : Word) (e : Nat → Nat) (v : Nat → ℚ),
    let value := fun (w : Word) => Exact.val (f32 w)
    codes.length = S.length →
    Exact.le (f32 (bndOf band (bndSum codes S 0))) (f32 eps) = true → isFinite (f32 eps) = true →
    (∀ b w, S[b]? = some w → isFinite (f32 w) = true ∧ ((List.range 8).map fun i => |v (8 * b + i)|).sum ≤ value w) →
    |((List.range (8 * codes.length)).map fun k =>
      Exact.val (fmtE2.decode (e k % 16)) * decScale ((codes.getD (k / 8) 0).toNat) * Exact.val (fmtB16.decode band) * v k).sum| ≤ value eps

/-- `RowSelectionAndItsCommandsAreEntered` and `ChecksAndGathersSignalTheirOutcome` together. -/
def Obligations.RowSelectionChecksAndGathersFollowTheirRules : Prop := RowSelectionAndItsCommandsAreEntered ∧ ChecksAndGathersSignalTheirOutcome
/-! ### Copies, gathers and tile tasks (R243 to R265) -/

/-- XCOPY, XGATH and TQPOST complete where there is room. A copy or gather receives the queue's serial number: its words and
its result word stand in the queue area, TAIL moves on, D receives the number (R244 to R246, R250). TQPOST hands the 16 words
of its record to the scheduler, nothing where its predicate bit is clear (R261). -/
def EngineCommandsEnterTheirQueue : Prop :=
  ∀ (h : Hdr) (o : EngOps) (s : State),
    let g := s.curG
    let tm := s.team g.tid
    let k := (s.grid tm.grid).k
    let ws := (List.range 8).map fun i => src s g 0 (Opnd.plus o.a i) 0
    let comp := (ws.getD 3 0).toNat / 2 ^ 24 % 4
    let cell := (ws.getD 3 0).toNat / 2 ^ 26
    let q := k.scratch - 4096
    let j := tm.qtail.toNat % 112
    let fits := comp = 0 ∨ (cell < k.cells ∧ (tm.cell cell).kind = (if comp = 1 then .sem else if comp = 2 then .ring else .bar))
    let put := fun (f : Nat) => if f < 4 then some (tm.qtail + 1) else if f < 8 then some tm.qhead else if f < 12 then some tm.qnfail
      else if f < 16 then some tm.qlastfail else if f / 4 = 16 + j then some 1
      else if f / 32 = 16 + j then ws[f / 4 % 8]? else none
    let acted := fun (i : Instr) (kind : CmdKind) => Gives (exec i s) fun t =>
      LanesMoved s t ∧ RegsKept s t ∧ (∀ u, u ≠ s.cur.slot → t.group u = s.group u) ∧
      t.curG = { g with
        lanes := t.curG.lanes
        pend := if o.res then resultsAfter { s with fresh := s.fresh + 1 } o.d [tm.qtail] else g.pend } ∧
      t.cmds = s.cmds ++ [{ entered s kind ws 0 0 0 with serial := tm.qtail.toNat }] ∧
      t.team g.tid = { tm with qtail := tm.qtail + 1 } ∧ (∀ u, u ≠ g.tid → t.team u = s.team u) ∧
      (∀ f, f < 4096 → t.readLoc (tm.scrLoc (q + f)) = match put f with
        | some w => BitVec.ofNat 8 (byteAt (f % 4) w)
        | none => s.readLoc (tm.scrLoc (q + f))) ∧
      ∀ a, (∀ f, f < 4096 → byteCell (tm.scrLoc (q + f)) ≠ byteCell a) → t.readLoc a = s.readLoc a
    let a := ((src s g 0 o.a 0).toNat + 2 ^ 32 * (src s g 0 (Opnd.plus o.a 1) 0).toNat) % 2 ^ 56
    let skip := ∃ b, o.b = .spc b ∧ (g.qreg (opndIdx o.b - 8)).getLsbD (o.imm.toNat % 64) = false
    (activeLanes s h = [] → ∀ i ∈ [Instr.xcopy h o, .xgath h o, .tqpost h o], Gives (exec i s) fun t => OnlyGroup s t ∧ MovedWith s t id) ∧
    (activeLanes s h ≠ [] → 4096 ≤ k.scratch → fits → (tm.qtail - tm.qhead).toNat < 112 → OwnBytes tm q 4096 →
      (o.res = true → ∃ i, o.d = .uni i) → acted (.xcopy h o) .copy ∧ acted (.xgath h o) .gather) ∧
    (activeLanes s h ≠ [] → skip → Gives (exec (.tqpost h o) s) fun t => OnlyGroup s t ∧ MovedWith s t id) ∧
    (∀ v, activeLanes s h ≠ [] → ¬skip → PlainReads s → ReadsAs s a 64 v → (s.tasks g.tid).length < 1024 →
      Gives (exec (.tqpost h o) s) fun t => MovedWith s t id ∧ ∃ c, t.cmds = s.cmds ++ [c] ∧
        c = { entered s .tile ((List.range 16).map fun i => BitVec.ofNat 32 (v / 2 ^ (32 * i) % 2 ^ 32)) 0 0 0 with
          id := c.id, mark := c.mark }) ∧
    (NoRoutine g → activeLanes s h ≠ [] →
      (k.scratch < 4096 → ∀ i ∈ [Instr.xcopy h o, .xgath h o], Gives (exec i s) fun t => TookTrap s t 6 4 0) ∧
      (4096 ≤ k.scratch → ¬fits → ∀ i ∈ [Instr.xcopy h o, .xgath h o], Gives (exec i s) fun t => TookTrap s t 7 9 cell) ∧
      (¬skip → a % 64 ≠ 0 → Gives (exec (.tqpost h o) s) fun t => TookTrap s t 2 1 a))

/-- A copy of one row and a gather do what R251 and R254 say. COPY_START and GATHER_START mark the command running, a
malformed one as failing with RECORD; ENGINE_GRANULE_BOUNDARY copies the bytes of its granule; COPY_FINISH and GATHER_FINISH
have every byte written, write the result word and HEAD and signal under COMP (R250, R257, R259). -/
def CopiesAndGathersMoveTheirBytesAndSignal : Prop :=
  ∀ (s : State) (c : Cmd) (sd dd : Nat),
    let tm := s.team c.tid
    let q := (s.grid tm.grid).k.scratch - 4096
    let x := copyOf c
    let y := gathOf c
    let comp := wordsNat c.words / 2 ^ 120 % 4
    let result := fun (t : State) => leNat ((List.range 4).map fun i => t.readLoc (tm.scrLoc (q + 64 + 4 * (c.serial % 112) + i)))
    let sig := fun (cause : Nat) => ({ cell := wordsNat c.words / 2 ^ 122 % 64, add := 1, arr := 1,
                                       status := if cause = 0 then 0 else 0x80 + cause,
                                       want := some (if comp = 1 then .sem else if comp = 2 then .ring else .bar) } : Sig)
    let ended := fun (t : State) (cause drops : Nat) => (∀ e ∈ t.cmds, e.id ≠ c.id) ∧
      result t = (if cause = 0 then 3 else 0x80 + cause) + 256 * drops ∧ (t.team c.tid).qhead = tm.qtail ∧
      (t.team c.tid).qnfail = (if cause = 0 then tm.qnfail else tm.qnfail + 1) ∧ (comp ≠ 0 → SignalSent s t c.tid (sig cause))
    let alone := (∀ e ∈ s.cmds, e.tid = c.tid → e.queued = true → e.id = c.id) ∧ (∀ e ∈ s.outst, e.who ≠ .cmd c.id) ∧
      (∀ e ∈ s.cmds, e.id ≠ c.id → e.owns = []) ∧ c.cnt1 = 0 ∧ c.pins = []
    s.cmds.find? (fun e => e.id == c.id) = some c → c.kind ∈ [.copy, .gather] → s.cmdPaused c = false → s.cmdReady c = true →
    alone → OwnBytes tm q 4096 →
    let copies := x.ssp = 0 ∧ x.dsp = 0 ∧ x.rows = 1 ∧ 1 ≤ x.rowlen ∧ DevRange s c.core c.pasid 0 x.src x.rowlen sd ∧
      DevRange s c.core c.pasid 1 x.dst x.rowlen dd ∧ (sd + x.rowlen ≤ dd ∨ dd + x.rowlen ≤ sd)
    let copied := fun (t : State) (stop : Nat) => ∀ d, t.readLoc (.dev d) =
      if dd + c.pos ≤ d ∧ d < dd + stop then s.readLoc (.dev (sd + (d - dd))) else s.readLoc (.dev d)
    (c.st = .accepted → c.kind = .copy → copyOk c = false →
      Gives (exec (.copyStart c.id) s) fun t => t.cmd c.id = some { c with st := .running, cause := 7 } ∧ result t = 2) ∧
    (c.st = .accepted → c.kind = .copy → copyOk c = true → copies →
      Gives (exec (.copyStart c.id) s) fun t => result t = 2 ∧ (∀ d, t.readLoc (.dev d) = s.readLoc (.dev d)) ∧
        ∃ own, t.cmd c.id = some { c with st := .running, owns := own }) ∧
    (c.st = .accepted → c.kind = .gather → gathOk c = false →
      Gives (exec (.gatherStart c.id) s) fun t => t.cmd c.id = some { c with st := .running, cause := 7 } ∧ result t = 2) ∧
    (∀ d v, let width := fieldOf v 96 24
      c.st = .accepted → c.kind = .gather → gathOk c = true → DevRange s c.core c.pasid 0 (wordsNat c.words % 2 ^ 56) 64 d →
      v = leNat (s.devBytes d 64) → tableOk v = true → y.isp = 2 → y.dsp = 2 → c.core < 1000 → (∀ i, (tm.shelf i).st = .free) →
      y.idx + 4 * y.nidx ≤ q → y.dst + y.nidx * width ≤ q → q + 4096 ≤ 2 ^ 21 → 4096 ≤ (s.grid tm.grid).k.scratch → c.grid = tm.grid →
      Gives (exec (.gatherStart c.id) s) fun t => result t = 2 ∧ (∀ a, t.readLoc (.dev a) = s.readLoc (.dev a)) ∧
        ∃ ws own, ws.length = 16 ∧ wordsNat ws = v ∧ t.cmd c.id = some { c with st := .running, data := ws, owns := own }) ∧
    (c.st = .running → c.cause ≠ 0 → c.cause < 128 → c.cnt0 < 2 ^ 24 → (Gives (exec (if c.kind = .copy then .copyFinish c.id else .gatherFinish c.id) s) fun t =>
      ended t c.cause (if c.kind = .copy then 0 else c.cnt0) ∧ ∀ d, t.readLoc (.dev d) = s.readLoc (.dev d))) ∧
    (c.st = .running → c.cause = 0 → c.kind = .copy → copies → c.pos < x.total →
      let stop := min x.total ((c.pos / x.granBytes + 1) * x.granBytes)
      (stop < x.total → Gives (exec (.engineGranuleBoundary c.id) s) fun t => copied t stop ∧
        ∃ own, t.cmd c.id = some { c with pos := stop, owns := own }) ∧
      (stop = x.total → Gives (exec (.copyFinish c.id) s) fun t => copied t stop ∧ ended t 0 0)) ∧
    (∀ (row : Nat → Option Nat), c.st = .running → c.cause = 0 → c.kind = .gather → c.pos = 0 → c.cnt0 = 0 → y.gran = 0 →
      1 ≤ y.nidx → y.isp = 2 → y.dsp = 2 → 1 ≤ y.rowb → c.core < 1000 → s.poisonScr = [] → (∀ i, (tm.shelf i).st = .free) →
      y.idx + 4 * y.nidx ≤ q → y.dst + y.nidx * y.rowb ≤ q → q + 4096 ≤ 2 ^ 21 → 4096 ≤ (s.grid tm.grid).k.scratch →
      OwnBytes tm 0 (q + 4096) → (y.idx + 4 * y.nidx ≤ y.dst ∨ y.dst + y.nidx * y.rowb ≤ y.idx) → c.grid = tm.grid →
      (∀ e < y.nidx,
        let i := leNat ((List.range 4).map fun b => s.readLoc (tm.scrLoc (y.idx + 4 * e + b)))
        let from_ := fun (va : Nat) => ∃ d, row e = some d ∧ DevRange s c.core c.pasid 0 va y.rowb d
        if y.ntab ≤ i then row e = none
        else if y.rmen = false then from_ (y.tbl + i * y.rowb)
        else ∃ m, DevRange s c.core c.pasid 0 (y.remap + 4 * i) 4 m ∧
          let slot := leNat (s.devBytes m 4)
          if slot = 0xFFFFFFFF then from_ (y.tbl + i * y.rowb)
          else if y.nhot ≤ slot then row e = none else from_ (y.hot + slot * y.rowb)) →
      Gives (exec (.gatherFinish c.id) s) fun t =>
        ended t 0 ((List.range y.nidx).filter fun e => (row e).isNone).length ∧ (∀ d, t.readLoc (.dev d) = s.readLoc (.dev d)) ∧
        ∀ e < y.nidx, ∀ b < y.rowb, t.readLoc (tm.scrLoc (y.dst + e * y.rowb + b)) = match row e with
          | some d => s.readLoc (.dev (d + b))
          | none => s.readLoc (tm.scrLoc (y.dst + e * y.rowb + b)))

/-- A tile task whose waits hold starts on the lowest rank with a READY shelf and a free array; one with no shelf to come ends
NOSHELF. TILE_TASK_FINISH leaves, for every token and weight row, the word that the chain of matrix steps from zero gives, and
signals the completion cell (R262 to R264). -/
def Obligations.TileTasksStartAndWriteTheirChains : Prop :=
  ∀ (s : State) (c : Cmd),
    let x := tileOf c
    let go := s.cmds.find? (fun e => e.id == c.id) = some c ∧ c.kind = .tile ∧ s.cmdPaused c = false ∧ s.cmdReady c = true
    let ready := fun (u i : Nat) => let y := (s.team u).shelf i
      y.src = x.shsrc ∧ y.fmt = x.fmt ∧ 16 * (x.rb0 + x.nrb) ≤ y.nrows
    let waits := ∀ i < 2, wordsNat c.words / 2 ^ (362 + 12 * i) % 2 = 1 → ∃ u,
      let cell := wordsNat c.words / 2 ^ (352 + 12 * i) % 64
      let rank := wordsNat c.words / 2 ^ (358 + 12 * i) % 16
      rank < (s.grid c.grid).k.clw * (s.grid c.grid).k.clh ∧ s.mate c.tid rank = some u ∧ cell < (s.grid c.grid).k.cells ∧
      ((s.team u).cell cell).kind = .sem ∧
      (((s.team u).cell cell).w0 - BitVec.ofNat 32 (wordsNat c.words / 2 ^ (384 + 32 * i))).toNat < 2 ^ 31
    (go → c.st = .accepted → tileOk c = false →
      Gives (exec (.tileTaskStart c.id) s) fun t => t.cmd c.id = some { c with st := .running, cause := 7 }) ∧
    (go → c.st = .accepted → tileOk c = true → waits →
      ((∀ u ∈ s.clusterTeams c.tid, ∀ i < 16, ready u i → ((s.team u).shelf i).st ∉ [ShelfSt.ready, .loading]) →
        Gives (exec (.tileTaskStart c.id) s) fun t => t.cmd c.id = some { c with st := .running, cause := 0x0A }) ∧
      (∀ before u after, s.clusterTeams c.tid = before ++ u :: after → (∀ e ∈ s.cmds, e.kind = .tile → e = c) →
        (∀ v ∈ before, ∀ i < 16, ready v i → ((s.team v).shelf i).st ≠ .ready) →
        (∃ i < 16, ready u i ∧ ((s.team u).shelf i).st = .ready) →
        Gives (exec (.tileTaskStart c.id) s) fun t => ∃ i < 16, ready u i ∧ ((s.team u).shelf i).st = .ready ∧
          ∃ own, t.cmd c.id = some { c with st := .running, aux0 := u, aux1 := i, aux2 := 1, owns := own })) ∧
    (∀ cause, go → c.st = .running → c.cause = cause → cause ≠ 0 → (∀ e ∈ s.outst, e.who ≠ .cmd c.id) → x.cen = false →
      Gives (exec (.tileTaskFinish c.id) s) fun t => (∀ e ∈ t.cmds, e.id ≠ c.id) ∧ (∀ a, t.readLoc a = s.readLoc a) ∧
        ∃ e rest, t.cab = e :: rest ∧ e.ty = 8 ∧ e.d0 = BitVec.ofNat 64 x.tag ∧ e.d1 = BitVec.ofNat 64 cause) ∧
    (let own := s.team c.aux0
     let y := own.shelf c.aux1
     let len := (y.klen * shW y.fmt + 7) / 8
     let at_ := fun (t : State) (o n : Nat) => (List.range n).map fun i => t.readLoc ((s.team c.tid).scrLoc (o + i))
     go → c.st = .running → y.st = .ready → c.cause = 0 → c.pos = 0 → c.cnt1 = 0 → x.gran = 0 → x.acc = false → 1 ≤ x.mrows → 1 ≤ x.nrb →
     (∀ e ∈ s.outst, e.who ≠ .cmd c.id) → (s.core own.core).mapout = [] → s.poisonScr = [] → shScaled y.fmt = false →
     x.isp = 3 → x.osp = 3 → c.core < 1000 → s.mate c.tid 0 = some c.tid →
     (∀ i, ((s.team c.tid).shelf i).st ≠ .free → (s.grid c.grid).k.scratch ≤ ((s.team c.tid).shelf i).m0 * 65536) →
     let k := (s.grid c.grid).k
     k.clw = 1 → k.clh = 1 → c.grid = (s.team c.tid).grid → k.scratch ≤ 2 ^ 21 → c.aux0 = c.tid → OwnBytes own 0 (2 ^ 21) →
     y.m0 + y.nm ≤ 32 → k.scratch ≤ y.m0 * 65536 → 16 * (x.rb0 + x.nrb) ≤ y.nrows → y.fmt ∈ [1, 2, 3, 4, 5, 9, 13] →
     (planesOf y.fmt y.nrows y.klen).bands + 2 * ((y.nrows + 63) / 64) ≤ y.nm * 65536 →
     x.inp + (x.mrows - 1) * x.istride + len ≤ k.scratch → x.out + (x.mrows - 1) * x.ostride + 64 * x.nrb ≤ k.scratch →
     ((s.team c.tid).qtail = 0 ∨ x.out + (x.mrows - 1) * x.ostride + 64 * x.nrb ≤ k.scratch - 4096) →
     64 * x.nrb ≤ x.ostride → (x.inp + (x.mrows - 1) * x.istride + len ≤ x.out ∨ x.out + (x.mrows - 1) * x.ostride + 64 * x.nrb ≤ x.inp) →
     (x.cen = true → x.crank = 0 ∧ x.ccell < k.cells) →
      Gives (exec (.tileTaskFinish c.id) s) fun t => (∀ e ∈ t.cmds, e.id ≠ c.id) ∧
        (∀ m < x.mrows, ∀ r < 16 * x.nrb, leNat (at_ t (x.out + m * x.ostride + 4 * r) 4) =
          (s.tileChain own y x (at_ s (x.inp + m * x.istride) len) [] (16 * x.rb0 + r) 0).toNat) ∧
        (x.cen = true → SignalSent s t c.tid { cell := x.ccell, add := 1, arr := 1, status := 0, want := none }))

/-- `EngineCommandsEnterTheirQueue` and `CopiesAndGathersMoveTheirBytesAndSignal` together. -/
def Obligations.EngineCommandsMoveTheirBytesAndSignal : Prop := EngineCommandsEnterTheirQueue ∧ CopiesAndGathersMoveTheirBytesAndSignal
/-! ### Launches, graphs and mailboxes (R22 to R32, R91 to R97) -/

/-- A launch whose records can be read gets exactly the code of R24: where it is 0, GLAUNCH.k completes with a new grid whose
number goes to D and to the record, else the record and D say why. GLAUNCH.g starts a run of a sealed graph, .seal seals a
graph that nothing refuses, .free releases a handle. With 4,096 device-side requests held a GLAUNCH stays outstanding, and the
group goes on to its next switch marker (R28, R91, R92). That a region entry of a bad length or alignment gets 0x85 is the
model's choice (log entry 49). -/
def Obligations.LaunchesGetTheCodeOfTheirRecords : Prop :=
  ∀ (h : Hdr) (o : LaunchOps) (s : State),
    let g := s.curG
    let pasid := s.pasidOf s.cur.slot
    let va := srcPair s g 0 o.a 0 % 2 ^ 56
    let hnd := (src s g 0 o.a 0).toNat
    let cell := if o.cen then some (o.imm.toNat % 64) else none
    let prio := min o.prio.toNat (s.gridPrio (s.gridOf s.cur.slot))
    let refused := fun (t : State) (code : Nat) => GivesD s t o.d [BitVec.ofNat 32 (0x80000000 + code)] ∧ t.runs = s.runs ∧
      t.grids = s.grids ∧ (o.cen = true → SignalSent s t g.tid { cell := o.imm.toNat % 64, add := 1, arr := 1, status := 0x8F, want := none })
    let gone := fun (u : Sealed) => u.valid = true ∧ u.handle = hnd ∧ u.pasid = pasid
    (activeLanes s h = [] → ∀ i ∈ [Instr.glaunchK h o, .glaunchG h o], Gives (exec i s) fun t => OnlyGroup s t ∧ MovedWith s t id) ∧
    (∀ l k rs code d, activeLanes s h ≠ [] → s.devRequests < 4096 → LaunchRead s pasid va l k rs code →
      HubWrites s pasid (va + 56) 8 d → StillThere s pasid (va + 56) 8 (fun a => d ≤ a ∧ a < d + 8) →
      Gives (exec (.glaunchK h o) s) fun t =>
        (code = 0 → (∃ x, t.grids = s.grids ++ [x] ∧ GridFor s x pasid va l k rs (.team g.tid cell) prio) ∧
          GivesD s t o.d [BitVec.ofNat 32 s.nextGrid] ∧ t.nextGrid = (s.nextGrid + 1) % 2 ^ 31 ∧
          leNat (t.devBytes d 4) = 0 ∧ leNat (t.devBytes (d + 4) 4) = s.nextGrid % 2 ^ 32) ∧
        (code ≠ 0 → refused t code ∧ leNat (t.devBytes d 4) = code ∧ t.devBytes (d + 4) 4 = s.devBytes (d + 4) 4) ∧
        ∀ a, (a < d ∨ d + 8 ≤ a) → t.readLoc (.dev a) = s.readLoc (.dev a)) ∧
    (∀ i : BitVec 8, activeLanes s h ≠ [] → 4096 ≤ s.devRequests → o.d = .uni i → ∀ e ∈ [Instr.glaunchK h o, .glaunchG h o],
      Gives (exec e s) fun t => LanesMoved s t ∧ RegsKept s t ∧ t.grids = s.grids ∧ t.runs = s.runs ∧ (∀ a, t.readLoc a = s.readLoc a) ∧
        ∃ p q, t.curG.pend = g.pend ++ [p] ∧ p.file = 1 ∧ p.dst = i.toNat ∧ p.lanes = [{ lane := 0, va := 0, datum := .wait }] ∧
          t.hubReqs = s.hubReqs ++ [q] ∧ q.pend = p.id ∧ q.slot = s.cur.slot ∧ q.cen = cell ∧ q.prio = prio) ∧
    (activeLanes s h ≠ [] → s.devRequests < 4096 →
      ((∀ u ∈ s.sealed, ¬gone u) → Gives (exec (.glaunchG h o) s) fun t => refused t 0x90) ∧
      ∀ u, s.sealed.find? (fun u => decide (gone u)) = some u → (s.gridOf s.cur.slot).pasid = pasid →
        ((∃ n ∈ u.nodes, n.cellen = true ∧ (s.gridOf s.cur.slot).k.cells ≤ n.cell) →
          Gives (exec (.glaunchG h o) s) fun t => refused t 0x92) ∧
        ((∀ n ∈ u.nodes, n.cellen = true → n.cell < (s.gridOf s.cur.slot).k.cells) →
          Gives (exec (.glaunchG h o) s) fun t => GivesD s t o.d [BitVec.ofNat 32 s.nextRun] ∧
            t.nextRun = (s.nextRun + 1) % 2 ^ 31 ∧ (∀ a, t.readLoc a = s.readLoc a) ∧ ∃ r, t.runs = s.runs ++ [r] ∧ r.num = s.nextRun ∧
              r.pasid = u.pasid ∧ r.nodes = u.nodes ∧ r.edges = u.edges ∧ r.src = .team g.tid cell ∧ r.prio = prio ∧
              r.st = List.replicate u.nodes.length .waiting)) ∧
    ((∀ l, l < 64 → inSub s l → (g.lane l).sup = true) → activeLanes s h ≠ [] →
      (∀ hd nodes edges d, GraphRead s pasid va hd nodes edges → HubWrites s pasid (va + 24) 8 d → (∀ u ∈ s.sealed, u.handle < 2 ^ 31) →
        s.nextHandle < 2 ^ 31 → s.sealed.length < 2 ^ 31 →
        Gives (exec (.glaunchSeal h o) s) fun t => ∃ u, t.sealed = s.sealed ++ [u] ∧ u.valid = true ∧ u.pasid = pasid ∧
          (∀ w ∈ s.sealed, w.handle ≠ u.handle) ∧ GivesD s t o.d [BitVec.ofNat 32 u.handle] ∧ u.handle < 2 ^ 31 ∧
          leNat (t.devBytes d 4) = 1 ∧ leNat (t.devBytes (d + 4) 4) = u.handle ∧ u.nodes.length = nodes.length ∧
          (∀ (i : Nat) x n, u.nodes[i]? = some x → nodes[i]? = some n → x.kind = fieldOf n 0 4 ∧ x.ep = fieldOf n 8 6 ∧
            x.stackMask = fieldOf n 16 8 ∧ x.cell = fieldOf n 24 6 ∧ (x.cellen = true ↔ fieldOf n 30 1 = 1) ∧ x.gran = fieldOf n 32 16 ∧
            x.lrec = fieldOf n 64 56 ∧ x.sigval.toNat = fieldOf n 128 32) ∧
          ∀ a b, ((∃ y, (a, b, y) ∈ u.edges) ↔ ∃ e ∈ edges, fieldOf e 0 16 = a ∧ fieldOf e 16 16 = b) ∧
            ((a, b, true) ∈ u.edges → ∀ e ∈ edges, fieldOf e 0 16 = a → fieldOf e 16 16 = b → fieldOf e 32 1 = 1)) ∧
      (∀ hd d, HubReads s pasid va 64 hd → anySet hd [(63, 32), (127, 120), (191, 184), (511, 256)] = true → fieldOf hd 0 32 = 0 →
        HubWrites s pasid (va + 24) 8 d →
        Gives (exec (.glaunchSeal h o) s) fun t => t.sealed = s.sealed ∧ GivesD s t o.d [0x80000081] ∧ leNat (t.devBytes d 4) = 0x81) ∧
      Gives (exec (.glaunchFree h o) s) fun t => (∀ a, t.readLoc a = s.readLoc a) ∧
        ((∃ u ∈ s.sealed, gone u) → GivesD s t o.d [0] ∧ t.sealed = s.sealed.filter fun u => !(u.handle == hnd && u.pasid == pasid)) ∧
        ((∀ u ∈ s.sealed, ¬gone u) → GivesD s t o.d [0x80000090] ∧ t.sealed = s.sealed))

/-- TRIG marks its active threads once their release at package scope is complete, and waits before that (R93). CHUNK takes the
next range of its dispenser (R94). STEP adds its signed operand to the PASID's counter (R96). LHINT gives the mapped pages of
its range their priority and next use, and no other (R97). -/
def Obligations.TriggersChunksStepsAndHintsAct : Prop :=
  ∀ (h : Hdr) (o : LaunchOps) (s : State),
    let g := s.curG
    let act := activeLanes s h
    let pasid := s.pasidOf s.cur.slot
    let va := srcPair s g 0 o.a 0 % 2 ^ 56
    (act = [] → ∀ i ∈ [Instr.trig h o, .chunk h o, .stepCtr h o, .lhint h o], Gives (exec i s) fun t => OnlyGroup s t ∧ MovedWith s t id) ∧
    (act ≠ [] → Released s true .package → Gives (exec (.trig h o) s) fun t => RegsKept s t ∧ (∀ a, t.readLoc a = s.readLoc a) ∧
      (∀ u, u ≠ s.cur.slot → t.group u = s.group u) ∧ t.curG = { g with lanes := t.curG.lanes } ∧ ∀ l, l < g.lanes.length → l < 64 →
        t.curG.lane l = if act.contains l then { laneAdvance s.cur (g.lane l) with trig := true }
          else if inSub s l then laneAdvance s.cur (g.lane l) else g.lane l) ∧
    (act ≠ [] → (g.loadsBack s.fresh = false ∨ g.storesDone s.fresh = false) → Gives (exec (.trig h o) s) fun t =>
      (∀ l, (t.curG.lane l).trig = (g.lane l).trig ∧ (t.curG.lane l).pc = (g.lane l).pc) ∧
      ∃ b, t.curG.blocked = g.blocked ++ [b] ∧ b.why = .release ∧ b.mask = s.cur.mask ∧ b.pc = s.cur.pc) ∧
    (∀ d, act ≠ [] → va % 32 = 0 → s.look (slotCore s.cur.slot) pasid va 1 = .hit (.dev d) → PlainReads s → d % 32 = 0 →
      s.ownedLine (d / 128) = false → s.poisoned (.dev d) = false →
      Gives (exec (.chunk h o) s) fun t =>
        let r := leNat (s.devBytes d 32)
        let next := fieldOf r 0 32
        let left := if next < fieldOf r 32 32 then fieldOf r 32 32 - next else 0
        let c := if fieldOf r 96 32 = 0 then (s.gridOf s.cur.slot).l.nteams else fieldOf r 96 32
        let bad := fieldOf r 64 16 = 0 ∨ fieldOf r 80 16 = 0 ∨ fieldOf r 128 128 ≠ 0
        let n := min left (max (fieldOf r 64 16) ((left * 256 + fieldOf r 80 16 * c - 1) / (fieldOf r 80 16 * c)))
        GivesD s t o.d (if bad then [0xFFFFFFFF, 0] else [BitVec.ofNat 32 next, BitVec.ofNat 32 n]) ∧
        leNat (t.devBytes d 4) = (if bad then next else next + n) ∧
        ∀ a, (a < d ∨ d + 4 ≤ a) → t.readLoc (.dev a) = s.readLoc (.dev a)) ∧
    (NoRoutine g → act ≠ [] → va % 32 ≠ 0 → Gives (exec (.chunk h o) s) fun t => TookTrap s t 2 1 va) ∧
    (act ≠ [] → Gives (exec (.stepCtr h o) s) fun t =>
      let v := s.stepOf pasid + (src s g o.imm o.a 0).signExtend 64
      GivesD s t o.d [v.setWidth 32] ∧ t.stepOf pasid = v ∧ (∀ p, p ≠ pasid → t.stepOf p = s.stepOf p) ∧ ∀ a, t.readLoc a = s.readLoc a) ∧
    (act ≠ [] → Gives (exec (.lhint h o) s) fun t => MovedWith s t id ∧
      let len := (src s g 0 o.b 0).toNat
      let next := if o.rel then o.imm + (s.stepOf pasid).setWidth 32 else o.imm
      let hinted := fun (p : Nat) => ∃ v d la w x, len ≠ 0 ∧ va / 65536 ≤ v ∧ v ≤ (va + len - 1) / 65536 ∧ p = d / 65536 ∧
        s.walk pasid (v % 2 ^ 40 * 65536) = .ok la w x ∧ s.formOf la = .inl (.dev d)
      ∀ p, (hinted p → t.page p = { s.page p with prio := o.prio.toNat, next := some next, pasid }) ∧ (¬hinted p → t.page p = s.page p))

/-- MBOXARM arms the lowest free mailbox where its record and its handler's are good, with COUNT 0 and MSTATE 1 in the record,
and says why where they are not; MBOXARM.d disarms an idle mailbox at once. MAILBOX_ARRIVAL puts the oldest arrival into the
slot of an idle mailbox and launches its handler (R31, R32, R95). That the lowest number is taken, the order of the refusal
codes, that arrivals are numbered from 0 and that the handler's records are read again are the model's choices (log entries 20,
21 and 49). -/
def Obligations.MailboxesAreArmedDeliverAndAreDisarmed : Prop :=
  ∀ (h : Hdr) (o : LaunchOps) (s : State),
    let g := s.curG
    let gr := s.gridOf s.cur.slot
    let va := srcPair s g 0 o.a 0 % 2 ^ 56
    let free := fun n => n < 1024 ∧ (s.mbox n).armed = false
    let tells := fun (t : State) (n : Nat) => GivesD s t o.d [BitVec.ofNat 32 n] ∧ t.mboxes = s.mboxes
    let good := fun (l k code : Nat) => code = 0 ∧ fieldOf l 64 32 = 1 ∧ fieldOf k 114 3 = 1 ∧ fieldOf k 117 3 = 1 ∧ 1 ≤ fieldOf k 150 6
    (activeLanes s h = [] → ∀ i ∈ [Instr.mboxarm h o, .mboxarmD h o], Gives (exec i s) fun t => OnlyGroup s t ∧ MovedWith s t id) ∧
    (∀ r, activeLanes s h ≠ [] → HubReads s gr.pasid va 64 r →
      (anySet r [(63, 56), (127, 123), (511, 168)] = true → Gives (exec (.mboxarm h o) s) fun t => tells t 0x8000009F) ∧
      (anySet r [(63, 56), (127, 123), (511, 168)] = false → fieldOf r 0 56 % 64 ≠ 0 →
        Gives (exec (.mboxarm h o) s) fun t => tells t 0x80000094) ∧
      ∀ l k rs code, anySet r [(63, 56), (127, 123), (511, 168)] = false → fieldOf r 0 56 % 64 = 0 → LaunchRead s gr.pasid (fieldOf r 64 56) l k rs code →
        (¬good l k code → Gives (exec (.mboxarm h o) s) fun t => tells t 0x80000094) ∧
        (good l k code → (∀ n, ¬free n) → Gives (exec (.mboxarm h o) s) fun t => tells t 0x80000093) ∧
        ∀ n d, good l k code → free n → (∀ m < n, ¬free m) → HubWrites s gr.pasid (va + 16) 5 d →
          Gives (exec (.mboxarm h o) s) fun t => GivesD s t o.d [BitVec.ofNat 32 n] ∧ (∀ m, m ≠ n → t.mbox m = s.mbox m) ∧
            t.mbox n = { Mbox.reset with armed := true, pasid := gr.pasid, mrec := va, slot := fieldOf r 0 56, hrec := fieldOf r 64 56,
                                         prio := min (fieldOf r 120 3) (s.gridPrio gr) } ∧
            leNat (t.devBytes d 4) = 0 ∧ t.readLoc (.dev (d + 4)) = 1) ∧
    (let n := (src s g 0 o.a 0).toNat
     let m := s.mbox n
     let mine := n < 1024 ∧ m.armed = true ∧ m.disarming = false ∧ m.pasid = s.pasidOf s.cur.slot
     activeLanes s h ≠ [] → (¬mine → Gives (exec (.mboxarmD h o) s) fun t => tells t 0x80000095) ∧
      (∀ d, mine → m.held = [] → m.running = none → HubWrites s m.pasid (m.mrec + 16) 5 d →
        Gives (exec (.mboxarmD h o) s) fun t => GivesD s t o.d [0] ∧ (t.mbox n).armed = false ∧ t.readLoc (.dev (d + 4)) = 0) ∧
      (mine → (m.held ≠ [] ∨ m.running ≠ none) → Gives (exec (.mboxarmD h o) s) fun t => GivesD s t o.d [0] ∧
        t.mbox n = { m with disarming := true })) ∧
    (∀ n a rest l k rs d e f, let m := s.mbox n
      m.armed = true → m.running = none → m.held = a :: rest → a.payload.length ≤ 56 → a.src < 2 ^ 16 → m.slot % 64 = 0 →
      LaunchRead s m.pasid m.hrec l k rs 0 → HubWrites s m.pasid m.slot 64 d → HubWrites s m.pasid (m.mrec + 16) 5 e →
      HubWrites s m.pasid (m.hrec + 56) 8 f → (e + 5 ≤ d ∨ d + 64 ≤ e) → (f + 8 ≤ d ∨ d + 64 ≤ f) → (f + 8 ≤ e ∨ e + 5 ≤ f) →
      (∀ va ∈ [m.mrec + 16, m.hrec + 56], StillThere s m.pasid va 8 fun a => (d ≤ a ∧ a < d + 64) ∨ (e ≤ a ∧ a < e + 5)) →
      Gives (exec (.mailboxArrival n) s) fun t =>
        (∀ i < 56, t.readLoc (.dev (d + i)) = a.payload.getD i 0) ∧ leNat (t.devBytes (d + 56) 2) = a.src ∧
        leNat (t.devBytes (d + 58) 2) = a.payload.length ∧ leNat (t.devBytes (d + 60) 4) = m.seq.toNat ∧
        leNat (t.devBytes e 4) = (m.count + 1).toNat ∧ t.readLoc (.dev (e + 4)) = 2 ∧
        t.mbox n = { m with held := rest, seq := m.seq + 1, count := m.count + 1, running := some s.nextGrid } ∧
        ∃ x, t.grids = s.grids ++ [x] ∧ GridFor s x m.pasid m.hrec l k rs (.mbox n) m.prio ∧ x.slotVa = some m.slot)
/-! ### Queues, teams, grids and graph runs (R11 to R30, R80 to R89, R329, R357 to R359) -/

/-- The entry at the head of queue `q`: its bytes latched, its wait satisfied now or when it was last evaluated, and the queue
free to dispatch it; entries that run have numbers already given (R82 to R84). -/
def HeadEntry (s : State) (q e : Nat) : Prop :=
  let i := fieldOf (s.reg (qreg q 0x18)).toNat 0 16
  let cfg := (s.reg (qreg q 0x08)).toNat
  let sem := fun n => BitVec.ofNat 32 (s.reg (semReg n)).toNat
  q < 64 ∧ cfg % 2 = 1 ∧ i ≠ fieldOf (s.reg (qreg q 0x10)).toNat 0 16 ∧
  (∃ bs, (s.queue q).latched.find? (fun x => x.1 == i) = some (i, bs) ∧ leNat bs = e) ∧
  (fieldOf e 24 1 = 1 → (s.queue q).go = true ∨ (sem (fieldOf e 8 8) - BitVec.ofNat 32 (fieldOf e 32 32)).toNat < 2 ^ 31) ∧
  (fieldOf cfg 8 1 = 1 → (s.queue q).busy = []) ∧ ∀ x ∈ (s.queue q).busy, x.id < s.fresh

/-- A nonzero reserved bit, an undefined KIND, or a field its KIND does not use (R81). -/
def entryWrong (e : Nat) : Bool :=
  let k := fieldOf e 0 4
  anySet e [(7, 4), (31, 26), (191, 184), (511, 256)] || decide (4 < k) || ((k == 0 || k == 2 || k == 3) && anySet e [(127, 96)]) ||
    ((k == 1 || k == 2 || k == 4) && anySet e [(183, 128)])

/-- The head entry was dispatched: HEAD moved past it, and its slot holds ESTATUS and, where given, RESULT; every other byte
of device memory outside `other` is kept. -/
def Dispatched (s t : State) (q status : Nat) (result : Option Nat) (other : Nat → Prop) : Prop :=
  let i := fieldOf (s.reg (qreg q 0x18)).toNat 0 16
  let d := s.qSlot q i + 24
  fieldOf (t.reg (qreg q 0x18)).toNat 0 16 = (i + 1) % 2 ^ 16 ∧ leNat (t.devBytes d 4) = status ∧
  (∀ r, result = some r → leNat (t.devBytes (d + 4) 4) = r) ∧
  ∀ a, ¬other a → (a < d ∨ d + 8 ≤ a) → t.readLoc (.dev a) = s.readLoc (.dev a)

/-- A dispatched entry completed at once: its semaphore was signalled, ERR set for any status but 2 (R81, R83, R84). -/
def CompletedAtOnce (s t : State) (q e status : Nat) : Prop :=
  let i := fieldOf (s.reg (qreg q 0x18)).toNat 0 16
  ((t.queue q).busy = (s.queue q).busy ∧ ∀ x ∈ (t.queue q).latched, x.1 ≠ i) ∧
  (∀ n, n < 256 → fieldOf (t.reg (semReg n)).toNat 0 32 = (fieldOf (s.reg (semReg n)).toNat 0 32 +
    (if fieldOf e 25 1 = 1 ∧ n = fieldOf e 16 8 then fieldOf e 64 32 else 0)) % 2 ^ 32) ∧
  (status ≠ 2 → fieldOf (t.reg (qreg q 0x20)).toNat 14 1 = 1)

/-- A notify write within the ring moves TAIL and has the entries it covers read; beyond the ring it sets OVF, and with EN = 0
it is ignored. EN rising clears HEAD and TAIL, while entries that run keep their bytes; EN falling changes no other field; a
write of QSEMVAL sets it, and the waits at the heads are evaluated (R80, R82, R84). -/
def QueueRegistersFollowTheirRules : Prop :=
  ∀ (s : State) (q : Nat) (v : BitVec 16) (cfg : DWord) (sem : Nat) (w : Word), q < 64 →
    let old := (s.reg (qreg q 0x08)).toNat
    let head := fieldOf (s.reg (qreg q 0x18)).toNat 0 16
    let tail := fieldOf (s.reg (qreg q 0x10)).toNat 0 16
    let ring := 2 ^ fieldOf old 1 4
    let ahead := (v.toNat + 65536 - head) % 65536
    let kept := fun (t : State) (offs : List Nat) => ∀ o, o ∉ offs → t.reg o = s.reg o
    (old % 2 = 0 → Gives (exec (.queueNotify q v) s) fun t => t = s) ∧
    (old % 2 = 1 → ring < ahead → Gives (exec (.queueNotify q v) s) fun t => kept t [qreg q 0x20] ∧
      (t.reg (qreg q 0x20)).getLsbD 13 = true ∧ t.queues = s.queues) ∧
    (old % 2 = 1 → ahead ≤ ring → Gives (exec (.queueNotify q v) s) fun t => kept t [qreg q 0x10] ∧
      fieldOf (t.reg (qreg q 0x10)).toNat 0 16 = v.toNat ∧ (t.queue q).busy = (s.queue q).busy ∧
      ((tail + 65536 - head) % 65536 ≤ ahead → ∀ j, j < (v.toNat + 65536 - tail) % 65536 → let i := (tail + j) % 65536
        (i, s.devBytes ((fieldOf (s.reg (qreg q 0)).toNat 6 50 * 64 + 64 * (i % ring)) % 2 ^ 44) 64) ∈ (t.queue q).latched)) ∧
    (old % 2 = 0 → Gives (exec (.queueEnable q cfg) s) fun t => kept t [qreg q 0x08, qreg q 0x10, qreg q 0x18] ∧
      let new := (t.reg (qreg q 0x08)).toNat
      new % 2 = 1 ∧ fieldOf new 1 4 = max 1 (fieldOf cfg.toNat 1 4) ∧ fieldOf new 5 6 = fieldOf cfg.toNat 5 6 ∧ fieldOf new 11 1 = 0 ∧
      fieldOf new 12 20 = fieldOf cfg.toNat 12 20 ∧ fieldOf new 32 32 = 0 ∧ fieldOf (t.reg (qreg q 0x10)).toNat 0 16 = 0 ∧
      fieldOf (t.reg (qreg q 0x18)).toNat 0 16 = 0 ∧ (t.queue q).latched = [] ∧ (t.queue q).busy = (s.queue q).busy) ∧
    (old % 2 = 1 → (Gives (exec (.queueEnable q cfg) s) fun t => t = s) ∧
      Gives (exec (.queueDisable q) s) fun t => kept t [qreg q 0x08] ∧ (t.reg (qreg q 0x08)).toNat = old - 1 ∧ t.queues = s.queues) ∧
    (sem < 256 → Gives (exec (.qsemvalWrite sem w) s) fun t => kept t [semReg sem] ∧ fieldOf (t.reg (semReg sem)).toNat 0 32 = w.toNat ∧
      fieldOf (t.reg (semReg sem)).toNat 32 32 = fieldOf (s.reg (semReg sem)).toNat 32 32 ∧
      ∀ bs, old % 2 = 1 → head ≠ tail → (s.queue q).latched.find? (fun x => x.1 == head) = some (head, bs) → fieldOf (leNat bs) 24 1 = 1 →
        fieldOf (leNat bs) 8 8 = sem → (w - BitVec.ofNat 32 (fieldOf (leNat bs) 32 32)).toNat < 2 ^ 31 → (t.queue q).go = true)

/-- The head entry of a queue that may dispatch it runs or completes as its kind says (R81 to R84): a kernel entry gets the code
of its records and starts a grid where it is 0, a graph entry a run; semaphore, seal and free entries complete at once; a
malformed entry, an unknown handle, cells in the graph or a missing PRIV refuse it, and every completion signals SSEM. -/
def QueueEntriesRunOrComplete : Prop :=
  ∀ (s : State) (q e : Nat), HeadEntry s q e →
    let i := fieldOf (s.reg (qreg q 0x18)).toNat 0 16
    let cfg := (s.reg (qreg q 0x08)).toNat
    let pasid := fieldOf cfg 12 20
    let kind := fieldOf e 0 4
    let va := fieldOf e 128 56
    let slot := s.qSlot q i
    let names := fun (u : Sealed) => decide (u.valid = true ∧ u.handle = fieldOf e 96 32 ∧ u.pasid = pasid)
    let act := if kind = 1 then Instr.queueGraphEntry q else if kind = 2 then .queueSemaphoreEntry q else if kind = 3 then .queueSealEntry q
      else if kind = 4 then .queueFreeEntry q else .queueKernelEntry q
    let completes := fun (t : State) (status : Nat) (result : Option Nat) (other : Nat → Prop) =>
      Dispatched s t q status result other ∧ CompletedAtOnce s t q e status
    let runs := fun (t : State) (num id : Nat) (other : Nat → Prop) =>
      Dispatched s t q 1 (some (num % 2 ^ 32)) other ∧ (t.queue q).busy = (s.queue q).busy ++ [{ id, idx := i, slot, entry := e }]
    let none_ := fun (_ : Nat) => False
    s.poison = [] →
    (entryWrong e = true → Gives (exec act s) fun t => completes t 0x9F (some 0) none_ ∧ t.grids = s.grids) ∧
    (entryWrong e = false →
      (kind = 0 → ∀ l k rs code d, LaunchRead s pasid va l k rs code → HubWrites s pasid (va + 56) 8 d →
        (d + 8 ≤ slot + 24 ∨ slot + 32 ≤ d) → Gives (exec act s) fun t => let other := fun a => d ≤ a ∧ a < d + 8
          (code = 0 → leNat (t.devBytes d 4) = 0 ∧ leNat (t.devBytes (d + 4) 4) = s.nextGrid % 2 ^ 32 ∧ ∃ x id, runs t s.nextGrid id other ∧
            t.grids = s.grids ++ [x] ∧ GridFor s x pasid va l k rs (.queue q id) (fieldOf cfg 5 3) ∧ (x.pre = true ↔ fieldOf cfg 9 1 = 1)) ∧
          (code ≠ 0 → completes t code (some 0) other ∧ leNat (t.devBytes d 4) = code ∧ t.grids = s.grids)) ∧
      (kind = 1 →
        ((∀ u ∈ s.sealed, names u = false) → Gives (exec act s) fun t => completes t 0x90 (some 0) none_ ∧ t.runs = s.runs) ∧
        ∀ u, s.sealed.find? names = some u →
          ((∃ n ∈ u.nodes, n.cellen = true) → Gives (exec act s) fun t => completes t 0x91 (some 0) none_ ∧ t.runs = s.runs) ∧
          ((∀ n ∈ u.nodes, n.cellen = false) → Gives (exec act s) fun t => ∃ r id, runs t s.nextRun id none_ ∧ t.runs = s.runs ++ [r] ∧
            r.num = s.nextRun ∧ r.pasid = u.pasid ∧ r.nodes = u.nodes ∧ r.edges = u.edges ∧ r.src = .queue q id ∧
            r.st = List.replicate u.nodes.length .waiting)) ∧
      (kind = 2 → Gives (exec act s) fun t => completes t 2 none none_) ∧
      (kind = 3 ∨ kind = 4 → fieldOf cfg 10 1 = 0 → Gives (exec act s) fun t => completes t 0x9E (some 0) none_ ∧ t.sealed = s.sealed) ∧
      (kind = 3 → fieldOf cfg 10 1 = 1 → ∀ hd nodes edges d, GraphRead s pasid va hd nodes edges → HubWrites s pasid (va + 24) 8 d →
        (d + 8 ≤ slot + 24 ∨ slot + 32 ≤ d) → (∀ u ∈ s.sealed, u.handle < 2 ^ 31) → s.nextHandle < 2 ^ 31 → s.sealed.length < 2 ^ 31 →
        Gives (exec act s) fun t => ∃ u, t.sealed = s.sealed ++ [u] ∧ u.pasid = pasid ∧ (∀ w ∈ s.sealed, w.handle ≠ u.handle) ∧
          completes t 2 (some u.handle) (fun a => d ≤ a ∧ a < d + 8) ∧ leNat (t.devBytes d 4) = 1 ∧ leNat (t.devBytes (d + 4) 4) = u.handle) ∧
      (kind = 4 → fieldOf cfg 10 1 = 1 → Gives (exec act s) fun t =>
        ((∃ u ∈ s.sealed, names u = true) → completes t 2 none none_ ∧
          t.sealed = s.sealed.filter fun u => !(u.handle == fieldOf e 96 32 && u.pasid == pasid)) ∧
        ((∀ u ∈ s.sealed, names u = false) → completes t 0x90 (some 0) none_ ∧ t.sealed = s.sealed)))

/-- TEAM_START places the dispatcher's choice: the next team stands on an admitting core with its groups at the entry word and
its parameters in their uniform registers. CLUSTER_RESERVE and GANG_AGE_EXPIRE reserve a cluster's cores. TEAM_END frees an
ended team, GRID_RETIRE reports the grid's outcome, FABRIC_FLUSH_TIMEOUT gives up waiting (R11 to R13, R86 to R89, R329, R357 to
R359). -/
def TeamsStartAndEndAndGridsRetire : Prop :=
  ∀ (s : State) (n core tid : Nat),
    let g := s.grid n
    let k := g.k
    let groups := k.tthreads / k.width
    (∀ v c slots d, s.best = some (.grid n) → k.clw * k.clh = 1 → g.regs = [] → g.params = none → g.slotVa = none → k.pwords = 0 →
      s.pickCore n g.pasid k [] 0 true = some c → s.assign c k = some slots → s.grids.find? (fun y => y.num == n) = some g →
      HubReads s g.pasid g.l.param k.plen v → k.plen % 4 = 0 → g.st = .waiting → HubWrites s g.pasid (g.lrec + 56) 4 d →
      slots.Nodup → Gives (exec (.teamStart n) s) fun t => ∃ x, (t.team x).used = true ∧ (t.team x).grid = n ∧ (t.team x).idx = g.started ∧
        (t.team x).core = c ∧ (t.team x).slots = slots ∧ (t.team x).st = .running ∧ slots.length = groups ∧ leNat (t.devBytes d 4) = 1 ∧
        t.stepOf g.pasid = s.stepOf g.pasid + g.l.stepadv.setWidth 64 ∧
        (t.grid n).st = .running ∧ (t.grid n).started = g.started + 1 ∧
        ∀ (i : Nat) j, slots[i]? = some j → let y := t.group j
          y.st = .pending ∧ y.tid = x ∧ y.gidx = i ∧ y.width = k.width ∧ y.pend = [] ∧ y.sq = [] ∧
          y.lanes = List.replicate k.width { Lane.reset with pc := BitVec.ofNat 24 k.entry } ∧
          ∀ r, r < min (k.plen / 4) (8 * k.uregs) → y.ureg r = BitVec.ofNat 32 (v / 2 ^ (32 * r))) ∧
    (1 < k.clw * k.clh → g.started < g.l.nteams → g.faulted = false → core ∈ g.rect → core ∉ g.resv →
      (∀ c ∈ g.rect, (s.core c).en = true) → s.admits core g.pasid k 0 true = true → s.grids.find? (fun y => y.num == n) = some g →
      Gives (exec (.clusterReserve n core) s) fun t => t.grid n = { g with resv := g.resv ++ [core] } ∧ t = { s with grids := t.grids }) ∧
    (g.ageUs ≠ 0 → g.aged = false → s.grids.find? (fun y => y.num == n) = some g →
      ((s.reg 0x120000).toNat % 2 ^ 32 < s.us - (g.ageUs - 1) → Gives (exec (.gangAgeExpire n) s) fun t => t.grid n = { g with aged := true } ∧
        t = { s with grids := t.grids }) ∧
      (s.us - (g.ageUs - 1) ≤ (s.reg 0x120000).toNat % 2 ^ 32 → Gives (exec (.gangAgeExpire n) s) fun t => t = s)) ∧
    (let x := s.team tid
     x.used = true → x.saved = [] → (∀ j ∈ x.slots, (s.group j).sq = [] ∧ ∀ y ∈ (s.group j).lanes, y.exited = true) →
      (∀ c ∈ s.cmds, c.tid ≠ tid ∧ c.kind ≠ .tile) → x.shelves = [] → (s.core x.core).l1 = [] → (∀ m, (s.grid x.grid).src ≠ .mbox m) → s.stations x.core = [] →
      Gives (exec (.teamEnd tid) s) fun t => (t.team tid).used = false ∧ (∀ j ∈ x.slots, t.group j = Group.reset) ∧
        (∀ j, j ∉ x.slots → t.group j = s.group j) ∧
        t.grids = s.grids.map (fun y => if y.num = x.grid then { y with ended := y.ended + 1 } else y) ∧
        (x.pbytes ≠ 0 → ∀ p ∈ t.privs, p.1 = (s.grid x.grid).pasid → p.2.1 ≠ x.pb) ∧ ∀ d, t.readLoc (.dev d) = s.readLoc (.dev d)) ∧
    (∀ d, s.grids.find? (fun y => y.num == n) = some g → s.gridOver g = true → g.waitAck = 0 → g.regs = [] → HubWrites s g.pasid (g.lrec + 56) 4 d →
      let status := if g.faulted then 0x8F else if g.fabfail then 0x8E else 2
      let cause := if g.faulted then 5 else if g.fabfail then 0x0E else 0
      (8 ≤ endScope g.l → g.flushed = false → g.peers ≠ 0 → Gives (exec (.gridRetire n) s) fun t =>
        (t.grid n).flushed = true ∧ (t.grid n).waitAck = g.peers ∧ (t.grid n).flushAt = s.now ∧ (t.grid n).st = g.st) ∧
      (g.peers = 0 → Gives (exec (.gridRetire n) s) fun t => (∀ y ∈ t.grids, y.num ≠ n) ∧
        (∀ x c, g.src = .team x c → leNat (t.devBytes d 4) = status ∧ ∀ ci, c = some ci →
          SignalSent s t x { cell := ci, add := 1, arr := 1, status := if cause = 0 then 0 else 0x80 + cause, want := none }) ∧
        (∀ q id e, g.src = .queue q id → q < 64 → (s.queue q).busy.find? (fun y => y.id == id) = some e →
          (d + 4 ≤ e.slot + 24 ∨ e.slot + 32 ≤ d) → leNat (t.devBytes d 4) = status ∧
          leNat (t.devBytes (e.slot + 24) 4) = status ∧ (∀ y ∈ (t.queue q).busy, y.id ≠ id) ∧
          (fieldOf e.entry 25 1 = 1 → let w := semReg (fieldOf e.entry 16 8)
            fieldOf (t.reg w).toNat 0 32 = (fieldOf (s.reg w).toNat 0 32 + fieldOf e.entry 64 32) % 2 ^ 32) ∧
          (g.l.cirq = true → s.msixMask.getLsbD q = false → ∃ o ∈ t.out.head?, o = .msix q)))) ∧
    (g.flushed = true → g.waitAck ≠ 0 → s.grids.find? (fun y => y.num == n) = some g →
      ((s.reg 0x190008).toNat % 2 ^ 32 ≤ s.now - g.flushAt → Gives (exec (.fabricFlushTimeout n) s) fun t =>
        t.grid n = { g with fabfail := true, waitAck := 0 } ∧ t = { s with grids := t.grids }) ∧
      (s.now - g.flushAt < (s.reg 0x190008).toNat % 2 ^ 32 → Gives (exec (.fabricFlushTimeout n) s) fun t => t = s))

/-- A node starts once its predecessors have completed: a kernel node as a grid, a copy node as a command of the hub, a call on
its stacks, a cell-signal node ends at once. A completed node is done or failed, signals its cell once, and the run that it
finishes is reported (R26 to R30). -/
def GraphNodesStartAndComplete : Prop :=
  ∀ (s : State) (r : Run) (i : Nat) (x : GNode), s.runs.find? (fun y => y.num == r.num) = some r → r.nodes[i]? = some x →
    (∀ y ∈ s.runs, y.num = r.num → y = r) →
    let stIs := fun (t : State) (st : NodeSt) => ∃ y, t.runs.find? (fun z => z.num == r.num) = some y ∧ y = { r with st := r.st.set i st }
    let free := r.st[i]? = some .waiting ∧ ∀ e ∈ r.edges, e.2.1 = i → r.st[e.1]? = some .done
    (free → x.kind = 3 → Gives (exec (.graphNodeStart r.num i) s) fun t => stIs t (.ending 0) ∧ t = { s with runs := t.runs }) ∧
    (free → x.kind = 1 → Gives (exec (.graphNodeStart r.num i) s) fun t => stIs t .running ∧ ∃ c, t.cmds = s.cmds ++ [c] ∧
      c.kind = .nodeCopy ∧ c.words = x.xcmd ∧ c.pasid = r.pasid ∧ c.st = .accepted ∧ c.aux0 = r.num ∧ c.aux1 = i ∧ c.aux2 = x.gran) ∧
    (free → x.kind = 2 → Gives (exec (.graphNodeStart r.num i) s) fun t => stIs t .running ∧ ∃ c, t.nodes = s.nodes ++ [c] ∧
      c.run = r.num ∧ c.node = i ∧ c.pasid = r.pasid ∧ c.ep = x.ep ∧ c.args = x.args ∧ c.gran = x.gran ∧
      c.parts.map NStack.stack = (List.range 8).filter fun k => x.stackMask / 2 ^ k % 2 = 1) ∧
    (free → x.kind = 0 → ∀ l k rs code d la, x.l = some la → LaunchRead s r.pasid x.lrec l k rs code → la = launchOf ⟨l, 2 ^ 512 - 1⟩ →
      fieldOf l 56 8 = 0 → fieldOf l 103 25 = 0 → fieldOf l 184 8 = 0 → fieldOf l 224 224 = 0 →
      HubWrites s r.pasid (x.lrec + 56) 8 d → Gives (exec (.graphNodeStart r.num i) s) fun t =>
        (code = 0 → stIs t .running ∧ ∃ g, t.grids = s.grids ++ [g] ∧ GridFor s g r.pasid x.lrec l k rs (.node r.num i) r.prio) ∧
        (code ≠ 0 → stIs t (.ending 0x0F) ∧ t.grids = s.grids ∧ leNat (t.devBytes d 4) = code)) ∧
    ((∃ e ∈ r.edges, e.2.1 = i ∧ e.2.2 = false ∧ r.st[e.1]? ≠ some .done) → Gives (exec (.graphNodeStart r.num i) s) fun t => t = s) ∧
    (∀ c, r.st[i]? = some (.ending c) → x.cellen = false → (∃ j, j ≠ i ∧ ∃ z, r.st[j]? = some z ∧ z ≠ .done ∧ ∀ d, z ≠ .failed d) →
      (c ≠ 0 → ∀ e ∈ r.edges, e.1 ≠ i) →
      Gives (exec (.graphNodeComplete r.num i) s) fun t => stIs t (if c = 0 then .done else .failed c) ∧ t = { s with runs := t.runs }) ∧
    (∀ c tid ci, r.st[i]? = some (.ending c) → r.edges = [] → r.nodes.length = 1 → r.st.length = 1 → r.src = .team tid ci → c < 128 →
      Gives (exec (.graphNodeComplete r.num i) s) fun t => (∀ y ∈ t.runs, y.num ≠ r.num) ∧
        (x.cellen = true → ci = none → SignalSent s t tid ⟨x.cell, x.sigval, if c = 0x0F ∨ (c ≠ 0 ∧ x.kind = 2) then 0 else x.sigval.toNat, if c = 0 then 0 else 0x80 + c,
          none⟩) ∧
        (x.cellen = false → ∀ j, ci = some j →
          SignalSent s t tid { cell := j, add := 1, arr := 1, status := if c = 0 then 0 else 0x80 + c, want := none }))

/-- `QueueRegistersFollowTheirRules` and `QueueEntriesRunOrComplete` together. -/
def Obligations.LaunchQueuesFollowTheirRules : Prop := QueueRegistersFollowTheirRules ∧ QueueEntriesRunOrComplete

/-- `TeamsStartAndEndAndGridsRetire` and `GraphNodesStartAndComplete` together. -/
def Obligations.TeamsGridsAndGraphRunsStartAndEnd : Prop := TeamsStartAndEndAndGridsRetire ∧ GraphNodesStartAndComplete
/-! ### Fetch, REP, the active set and pre-emption (R49 to R52, R99 to R106, R128, R334 to R344, R355) -/

/-- A fetched block stands in the buffer with the words of memory; REP begins at the lowest repeat of its lanes with the word
that follows it and its LIVE word, and lanes left at a repeat past the last go on behind that word; ACTIVE_ROTATION exchanges the oldest active group for the head of the pending list; SLEEP_EXPIRE lets the
sleeping lanes go on (R51, R99, R105, R106, R128). -/
def Obligations.FetchRepRotationAndSleepFollowTheirRules : Prop :=
  ∀ (s : State),
    (∀ slot blk d, let g := s.group slot
      let k := (s.gridOf slot).k
      let n := min 192 (12 * k.codelen - 192 * blk)
      let va := k.codebase + 192 * blk
      g.fetch.find? (fun x => x.2 == blk) = some (false, blk) → va + n ≤ 2 ^ 56 → k = (s.grid (s.team g.tid).grid).k →
      (∀ c ∈ chunksOf va n, s.look (slotCore slot) (s.pasidOf slot) c.1 2 = .hit (.dev (d + (c.1 - va))) ∧
        s.poisoned (.dev (d + (c.1 - va))) = false) →
      Gives (exec (.fetchBlockArrive slot blk false) s) fun t =>
        (∀ i, i < 16 → 12 * i + 12 ≤ n → ∃ w, (t.group slot).word? false (16 * blk + i) = some (.word w) ∧
          w.toNat = leNat (s.devBytes (d + 12 * i) 12)) ∧ (∀ x ∈ (t.group slot).fetch, x ≠ (false, blk)) ∧
        (t.group slot).lanes = g.lanes ∧ (∀ i, i ≠ slot → t.group i = s.group i) ∧ ∀ a, t.readLoc a = s.readLoc a) ∧
    (∀ (h : Hdr) (o : RepOps) w v k, let first := fun l => l < 64 ∧ inSub s l ∧ (s.curG.lane l).k0 = k
      s.curG.word? s.inSup (s.cur.pc.toNat + 1) = some (.word w) →
      (wSafe w = true → s.curG.word? s.inSup (s.cur.pc.toNat + 2) = some (.word v)) →
      (∃ l, first l) → (∀ l, l < 64 → inSub s l → k ≤ (s.curG.lane l).k0) →
      (k ≤ o.countM1.toNat → Gives (exec (.rep h o) s) fun t => OnlyGroup s t ∧ (∀ a, t.readLoc a = s.readLoc a) ∧ ∃ r,
        t.curG = { s.curG with rep := some r } ∧ r.pc = s.cur.pc ∧ r.word = w ∧ r.live = (if wSafe w then some v else none) ∧ r.k = k ∧
        r.countM1 = o.countM1.toNat ∧ r.sd = o.sd.toNat ∧ r.sa = o.sa.toNat ∧ r.sb = o.sb.toNat ∧ r.sc = o.sc.toNat ∧
        ∀ l, l < 64 → (r.mask.getLsbD l = true ↔ first l)) ∧
      (o.countM1.toNat < k → Gives (exec (.rep h o) s) fun t => OnlyGroup s t ∧ (∀ a, t.readLoc a = s.readLoc a) ∧
        t.curG = { s.curG with lanes := t.curG.lanes } ∧ t.curG.lanes.length = s.curG.lanes.length ∧
        ∀ l, l < s.curG.lanes.length → (first l → t.curG.lane l = { s.curG.lane l with
            pc := s.cur.pc + (if wSafe w then 3 else 2), repk := 0, resumed := false, since := 0 }) ∧
          (¬first l → t.curG.lane l = s.curG.lane l))) ∧
    (∀ p k rest, (s.part p).pending = k :: rest → (∀ a ∈ s.actives p, a.1 ≠ k) → s.actives p ≠ [] →
      (s.now - (s.part p).lastEnter < 1024 → Gives (exec (.activeRotation p) s) fun t => t = s) ∧
      (1024 ≤ s.now - (s.part p).lastEnter → Gives (exec (.activeRotation p) s) fun t => ∃ a ∈ s.actives p,
        (∀ b ∈ s.actives p, a.2 ≤ b.2) ∧ (t.part p).pending = rest ++ [a.1] ∧ (t.part p).lastEnter = s.now ∧
        t.group a.1 = { s.group a.1 with st := .pending } ∧ (t.group k).st = .active ∧ (t.group k).lanes = (s.group k).lanes ∧
        ∀ i, i ≠ a.1 → i ≠ k → t.group i = s.group i)) ∧
    (∀ slot b w, let g := s.group slot
      g.blocked = [b] → b.why = .sleep w →
      (s.now < w → Gives (exec (.sleepExpire slot) s) fun t => t.group slot = g) ∧
      (w ≤ s.now → Gives (exec (.sleepExpire slot) s) fun t => (t.group slot).blocked = [] ∧ (t.group slot).lanes.length = g.lanes.length ∧
        ∀ l, l < g.lanes.length → (t.group slot).lane l =
          if b.mask.getLsbD l then { g.lane l with pc := b.next, resumed := false, since := 0 } else g.lane l))

/-- A stop starts where the largest context fits the shadow region and is put off, with a record, where it does not; PRECTL
asks for it, TSAFE or HARD make it hard. A hard-stopped group keeps every register with its threads at an instruction
boundary, a context has the size of R342, and the resumed team runs with the registers it had (R334 to R344). -/
def Obligations.PreemptionStopsSavesAndResumesTeams : Prop :=
  ∀ (s : State) (tid slot : Nat) (gno : Word) (hard : Bool),
    let x := s.team tid
    let k := (s.grid x.grid).k
    let prectl := (s.reg 0x160028).toNat
    let cells := ((List.range 64).filter fun i => (x.cell i).kind != .none).length
    let macros := ((List.range 16).map fun i => if (x.shelf i).st != .free && (x.shelf i).nrl then (x.shelf i).nm else 0).sum
    let base := 2048 + 64 * cells + k.scratch + 65536 * macros + (if x.rank = 0 then 64 * (s.tasks tid).length else 0)
    let whole := fun (w : Nat) => 256 + w * (16 + 32 * k.regs) + 32 * k.uregs
    let most := (base + k.tthreads / k.width * whole k.width + 65535) / 65536
    let mine := fun (i : Nat) => (s.team i).used = true ∧ (s.team i).grid = gno.toNat
    let regs := fun (a b : Group) => a.s = b.s ∧ a.q = b.q ∧ a.h = b.h ∧ a.fstat = b.fstat ∧ a.trapvec = b.trapvec ∧
      a.trapcause = b.trapcause ∧ a.trappc = b.trappc ∧ a.trapaddr = b.trapaddr ∧ a.gidx = b.gidx ∧ a.lanes.length = b.lanes.length ∧
      ∀ l, l < b.lanes.length → (a.lane l).v = (b.lane l).v ∧ (a.lane l).p = (b.lane l).p ∧ (a.lane l).meet = (b.lane l).meet ∧
        (a.lane l).exited = (b.lane l).exited ∧ (a.lane l).sup = (b.lane l).sup
    (s.prectlWaits tid = true → s.mates tid = [tid] →
      (most ≤ s.shFree → Gives (exec (.teamStopRequest tid) s) fun t =>
        t.team tid = { x with st := .stopping, stopAt := s.now, shpages := most, hard := (x.byPrectl && prectl / 2 ^ 34 % 2 == 1) }) ∧
      (s.shFree < most → Gives (exec (.teamStopRequest tid) s) fun t => t.teams = s.teams ∧ ∃ e rest, t.cab = e :: rest ∧ e.ty = 2)) ∧
    (s.prectlBusy = true → Gives (exec (.prectlGo gno hard) s) fun t => t = { s with hub := t.hub } ∧
      (∀ k, k ≠ 0x160028 → t.reg k = s.reg k) ∧ (t.reg 0x160028).toNat % 2 ^ 32 = gno.toNat ∧ (t.reg 0x160028).getLsbD 34 = hard) ∧
    (s.prectlBusy = false → mine tid → x.st = .running → Gives (exec (.prectlGo gno hard) s) fun t =>
      t.team tid = { x with byPrectl := true, resume := false } ∧ (t.reg 0x160028).toNat % 2 ^ 32 = gno.toNat ∧
      (t.reg 0x160028).getLsbD 34 = hard) ∧
    (Tab.wf Team.reset s.teams = true → Gives (exec (.prectlResume gno) s) fun t => t = { s with teams := t.teams } ∧
      t.team tid = if mine tid ∧ x.byPrectl = true ∧ x.st = .stopped then { x with resume := true } else x) ∧
    (x.used = true → x.st = .stopping → s.mates tid = [tid] →
      let due := (x.byPrectl = true ∧ prectl / 2 ^ 34 % 2 = 1) ∨ (s.reg 0x160010).toNat % 2 ^ 32 ≤ s.now - x.stopAt
      (due → Gives (exec (.hardPreempt tid) s) fun t => t.team tid = { x with hard := true } ∧ t = { s with teams := t.teams }) ∧
      (¬due → Gives (exec (.hardPreempt tid) s) fun t => t = s)) ∧
    (let g := s.group slot
     g.tid = tid → x.used = true → x.st = .stopping → x.hard = true → slot ∈ x.slots → g.st = .active → (∃ y ∈ g.lanes, y.exited = false) →
      s.drained slot = true → Gives (exec (.groupStop slot) s) fun t => let g' := t.group slot
        g'.st = .stopped ∧ regs g' g ∧ g'.pend = [] ∧ g'.blocked = [] ∧ g'.rep = none ∧ (∀ w ∈ t.waiters, w.slot ≠ slot) ∧
        ∀ l, l < g.lanes.length → l < 64 → match g.blocked.find? fun b => b.mask.getLsbD l with
          | some b => (g'.lane l).pc = (match b.why with | .sleep _ => b.next | _ => (g.lane l).pc) ∧ (g'.lane l).repk = (g.lane l).repk
          | none => ∀ r, g.rep = some r → r.mask.getLsbD l = true → ((g.lane l).held = false ∨ (g.lane l).since = 0) →
              (g'.lane l).pc = r.pc ∧ (g'.lane l).repk = BitVec.ofNat 6 r.k ∧ (g'.lane l).resumed = true) ∧
    (x.used = true → x.st = .stopping → x.slots ≠ [] → x.slots.Nodup → (∀ i ∈ x.slots, (s.group i).st = .stopped ∧ (s.group i).safePt = none) →
      s.mustFinish tid = false → (s.core x.core).l1 = [] → Gives (exec (.contextSave tid) s) fun t => let y := t.team tid
        y.st = .stopped ∧ y.slots = [] ∧ y.macs = [] ∧ y.cells = x.cells ∧ y.shelves = x.shelves ∧ y.pb = x.pb ∧
        (∀ i ∈ x.slots, t.group i = Group.reset) ∧ y.saved.length = x.slots.length ∧
        (∀ i ∈ x.slots, ∃ g ∈ y.saved, g = { s.group i with age := 0 }) ∧ (y.saved.Pairwise fun a b => a.gidx ≤ b.gidx) ∧
        y.shpages = (base + (x.slots.map fun i => whole (s.group i).width).sum + 65535) / 65536) ∧
    (∀ core slots, s.best = some (.resume tid) → s.clusterOf tid = [tid] → s.resumeCores tid = some [core] → s.assign core k = some slots →
      slots.Nodup → x.saved.length ≤ slots.length → x.shelves = [] → x.held = [] →
      Gives (exec (.teamResume tid) s) fun t => let y := t.team tid
        y.st = .running ∧ y.core = core ∧ y.pb = x.pb ∧ y.pbytes = x.pbytes ∧ y.cells = x.cells ∧ y.slots = slots.take x.saved.length ∧ y.saved = [] ∧
        ∀ (i : Nat) j g, slots[i]? = some j → x.saved[i]? = some g → (t.group j).st = .pending ∧ regs (t.group j) g ∧
          ∀ l, l < g.lanes.length → ((t.group j).lane l).pc = (g.lane l).pc ∧ ((t.group j).lane l).repk = (g.lane l).repk) ∧
    (∀ b lane, let g := s.group slot
      let limit := (s.reg 0x160018).toNat % 2 ^ 32 * 1024
      let addr := match b.why with
        | .cell n => ((s.waiters.find? fun w => w.ticket == n).map fun w => w.name.toNat).getD 0
        | .unstat i => i
        | .station _ i _ => i
        | .ffpsel lo _ _ => lo
        | _ => 0
      g.blocked = [b] → b.mask.getLsbD lane = true → g.st = .benched → (s.team g.tid).st = .running → NoRoutine g → limit ≠ 0 →
      ((∃ i, b.why = .unstat i) ∨ (∃ n i d, b.why = .station n i d) ∨ (∃ lo r0 rows, b.why = .ffpsel lo r0 rows) ∨
        ∃ n, b.why = .cell n ∧ ∀ w ∈ s.waiters, w.slot = slot → w.ticket = n → w.sat = none ∧ w.wrong = 0) →
      (s.now - b.since < limit → Gives (exec (.watchdogExpire slot lane) s) fun t => t = s) ∧
      (limit ≤ s.now - b.since → Gives (exec (.watchdogExpire slot lane) s) fun t => let g' := t.group slot
        g'.blocked = [] ∧ g'.trapcause = BitVec.ofNat 32 (0x0A + 256 * 1 + 2 ^ 24 * (slot % 192)) ∧ g'.trappc = b.pc ∧
        g'.trapaddr = BitVec.ofNat 56 addr ∧ (∀ a, t.readLoc a = s.readLoc a) ∧
        ∀ l, l < g.lanes.length → if b.mask.getLsbD l = true ∧ (g.lane l).exited = false then (g'.lane l).pc = 0xA0#24 ∧
          (g'.lane l).sup = true else g'.lane l = g.lane l))
/-! ### Translation, the host port and placement (R6, R164 to R171, R177 to R180, R360 to R363, R370) -/

/-- The table walk of `va` for a PASID reads the entry at device address `a` of a level, with ATSEN `ats` (R165, R166): the
PASID's context entry is valid and sound, and each earlier entry is valid and sound, with HOST, LEAF and its reserved bits zero. -/
inductive WalkReads (s : State) (pasid va : Nat) : Nat → Nat → Nat → Prop
  | root (c : Nat) : pasid < fieldOf (s.reg 0x130008).toNat 0 21 → (c / 32) ∉ s.poison → c = fieldOf (s.reg 0x130000).toNat 13 39 * 2 ^ 13 + 32 * pasid →
      fieldOf (leNat (s.devBytes c 32)) 0 1 = 1 →
      WalkReads s pasid va (fieldOf (leNat (s.devBytes c 32)) 1 1) 3 (fieldOf (leNat (s.devBytes c 32)) 13 39 * 2 ^ 13 + 8 * fieldOf va 46 10)
  | table (ats l a e : Nat) : WalkReads s pasid va ats (l + 1) a → (a / 32) ∉ s.poison → e = leNat (s.devBytes a 8) →
      fieldOf e 0 2 = 1 → fieldOf e 4 1 = 0 → anySet e [(12, 5), (63, 52)] = false →
      WalkReads s pasid va ats l (fieldOf e 13 39 * 2 ^ 13 + 8 * fieldOf va (16 + 10 * l) 10)

/-- What a logical address names to a thread or an agent (R360). -/
def formPlace (s : State) (la : Nat) : Look :=
  let p := fieldOf la 44 6
  match fieldOf la 50 2 with
  | 0 => if p = 0 then .hit (.dev (fieldOf la 0 44)) else .bad 2
  | 1 => if p = fieldOf (s.reg 0x190000).toNat 0 6 then .hit (.dev (fieldOf la 0 44)) else .hit (.peer p (fieldOf la 0 44))
  | 2 => .hit (.door p (fieldOf la 16 10))
  | _ => .hit (.ingress (fieldOf la 44 4) (fieldOf la 12 32))

/-- A walk ends with the frame, its rights, the reason NOTMAPPED, BADENTRY or the context fault, or in the data error of its
entry; under a HOST entry it becomes an ATS request, whose answer gives host bytes with the host's rights or a page request;
a page response repeats the request or fails it. A failed result is for the accesses that waited (R165, R166, R169, R170). -/
def TranslationsEndWithTheirResult : Prop :=
  ∀ (s : State) (core pasid page : Nat) (w : Walk) (r wr ok : Bool) (hpage : HostPage),
    let va := 4096 * w.page
    let calm := fun (t : State) => t.groups = s.groups ∧ ∀ a, t.readLoc a = s.readLoc a
    let looks := fun (t : State) (a : Asker) => ({ t with asker := a, cur := { t.cur with mask := 0 } } : State).look
    let met := fun (who : List (Asker × Bool)) (a : Asker) => ∃ x ∈ who, x.1.meets a = true
    let gone := fun (t : State) => t.walks = s.walks.filter fun k => k ≠ w
    let room := (s.tlb.filter fun e => e.core == core && e.res.isOk).length < 4096
    let lost := fun (v kind : Nat) (a : Asker) => looks s a core pasid v kind = .miss ∨ looks s a core pasid v kind = .deny
    let fails := fun (x : Look) (t : State) => calm t ∧ gone t ∧
      (∀ a v kind, v / 4096 = w.page → met w.who a → lost v kind a → looks t a core pasid v kind = x) ∧
      (room → ∀ a c p v kind, (¬met w.who a ∨ c ≠ core ∨ p ≠ pasid ∨ v / 4096 ≠ w.page) → looks t a c p v kind = looks s a c p v kind)
    let held := fun (lo n : Nat) (f : Asker → Nat → Nat → Look) (t : State) =>
      (∀ a v kind, lo ≤ v / 4096 → v / 4096 < lo + n → looks t a core pasid v kind = f a v kind) ∧
      (room → (∀ e ∈ s.tlb, e.core = core → e.pasid = pasid → e.page + e.size ≤ lo ∨ lo + n ≤ e.page) →
        ∀ a c p v kind, (c = core → p = pasid → v / 4096 < lo ∨ lo + n ≤ v / 4096) → looks t a c p v kind = looks s a c p v kind)
    let frame := fun (base size e : Nat) (t : State) => calm t ∧ gone t ∧
      held (va / size * size / 4096) (size / 4096) (fun _ v kind =>
        if (kind = 1 ∧ fieldOf e 2 1 = 0) ∨ (kind = 2 ∧ fieldOf e 3 1 = 0) then .bad 3 else formPlace s (base + v % size)) t
    (w ∈ s.walks → w.on core pasid page = true → (∀ k ∈ s.walks, k.on core pasid page = true → k = w) → w.who ≠ [] →
      (w.st = .walk → let done := fun P => Gives (exec (.translationWalkDone core pasid page) s) P
        let c := fieldOf (s.reg 0x130000).toNat 13 39 * 2 ^ 13 + 32 * pasid
        let dataError := fun t => fails .data t ∧ ∃ e rest, t.cab = e :: rest ∧ e.ty = 4
        (fieldOf (s.reg 0x130008).toNat 0 21 ≤ pasid → done (fails (.bad 6))) ∧
        (pasid < fieldOf (s.reg 0x130008).toNat 0 21 → c / 32 ∈ s.poison → done dataError) ∧
        (pasid < fieldOf (s.reg 0x130008).toNat 0 21 → c / 32 ∉ s.poison → fieldOf (leNat (s.devBytes c 32)) 0 1 = 0 → done (fails (.bad 6))) ∧
        ∀ ats l a, WalkReads s pasid va ats l a → let e := leNat (s.devBytes a 8)
          if a / 32 ∈ s.poison then done dataError
          else if fieldOf e 0 1 = 0 then done (fails (.bad 1))
          else if anySet e [(12, 5), (63, 52)] = true then done (fails (.bad 2))
          else if fieldOf e 4 1 = 1 then
            (if anySet e [(63, 5)] = true then done (fails (.bad 2)) else if ats = 0 then done (fails (.bad 7))
             else done fun t => calm t ∧ t.walks = (s.walks.map fun k => if k = w then { w with st := .ats } else k) ∧
               t.out = .ats pasid w.page :: s.out)
          else if fieldOf e 1 1 = 1 then
            (if 2 ≤ l then done (fails (.bad 2))
             else if l = 1 then (if fieldOf e 13 13 = 0 then done (frame (fieldOf e 26 26 * 2 ^ 26) (2 ^ 26) e) else done (fails (.bad 2)))
             else if fieldOf e 13 3 = 0 then done (frame (fieldOf e 16 36 * 2 ^ 16) (2 ^ 16) e) else done (fails (.bad 2)))
          else l = 0 → done (fails (.bad 2))) ∧
      let answer := fun P => Gives (exec (.atsCompletion core pasid page r wr hpage) s) P
      let n := max 1 hpage.pages
      let lo := page / n * n
      let rest := { w with who := w.who.filter fun x => !(if x.2 then wr else r) }
      let host := fun (lacking : Asker → Nat → Look) => held lo n fun a v kind =>
        if (kind = 1 ∧ wr = false) ∨ (kind ≠ 1 ∧ r = false) then lacking a (v / 4096)
        else .hit (.host (4096 * (hpage.page / n * n + (v / 4096 - lo)) + v % 4096))
      let asks := fun (t : State) =>
        let now := fun st => t.walks = (s.walks.filter fun k => k ≠ w) ++ [{ rest with st }]
        if ∃ k ∈ s.walks, k.st = .pri ∧ k.pasid = pasid ∧ k.page = page then now .pri ∧ t.out = s.out
        else if s.priCount < 512 then now .pri ∧ t.out = .pri pasid page rest.write :: s.out else now .priWait ∧ t.out = s.out
      (∀ e ∈ s.tlb, ∀ p, lo ≤ p → p < lo + n → e.on core pasid p = true → e.res.isOk = true) →
      (w.st = .ats → rest.who = [] → answer fun t => calm t ∧ gone t ∧ t.out = s.out ∧ host (fun _ _ => .deny) t) ∧
      (w.st = .ats → rest.who ≠ [] → answer fun t => calm t ∧ asks t ∧
        if r = true ∨ wr = true then host (fun _ _ => .deny) t else t.tlb = s.tlb) ∧
      (w.st = .again → r = false → wr = false → answer (fails (.bad 4))) ∧
      (w.st = .again → rest.who = [] → answer fun t => calm t ∧ gone t ∧ host (fun _ _ => .deny) t) ∧
      (w.st = .again → (r = true ∨ wr = true) → rest.who ≠ [] → answer fun t => calm t ∧ gone t ∧
        ∀ a v kind, lo ≤ v / 4096 → v / 4096 < lo + n → looks t a core pasid v kind =
          if (kind = 1 ∧ wr = false) ∨ (kind ≠ 1 ∧ r = false) then
            (if v / 4096 = page ∧ rest.who.any (fun x => x.1.meets a) then .bad 3 else .deny)
          else .hit (.host (4096 * (hpage.page / n * n + (v / 4096 - lo)) + v % 4096)))) ∧
    let mine := fun (k : Walk) => k.st = .pri ∧ k.pasid = pasid ∧ k.page = page
    ((∀ k ∈ s.walks, k.st ≠ .priWait) →
      Gives (exec (.pageRequestResponse pasid page ok) s) fun t => calm t ∧
        (ok = true → t.walks = (s.walks.map fun k => if mine k then { k with st := .again } else k) ∧ t.tlb = s.tlb ∧
          t.out = List.replicate (s.walks.filter fun k => decide (mine k)).length (.ats pasid page) ++ s.out) ∧
        (ok = false → t.walks = (s.walks.filter fun k => ¬mine k) ∧ t.out = s.out ∧ ∀ k ∈ s.walks, mine k →
          ∀ a v kind, v / 4096 = page → met k.who a → looks s a k.core pasid v kind = .miss ∨ looks s a k.core pasid v kind = .deny →
            looks t a k.core pasid v kind = .bad 4))

/-- A TINVCTL GO drops every translation of the range, lets walks of the range walk again, writes back the dirty bytes of the
range and drops the clean ones; while BUSY only the other fields of the register are written. It ends only when every access
under the old translation has completed; one from the host is then answered (R164, R168, R171). -/
def InvalidationsDropTranslationsAndWriteBack : Prop :=
  ∀ (s : State) (v : DWord) (pasid page npages core id : Nat) (home : Nat → Nat),
    let covers := fun (x : Inval) (p : Nat) => x.all = true ∨ (x.page ≤ p ∧ p < x.page + x.npages)
    let begun := fun (x : Inval) (t : State) =>
      let inRange := fun k => k / 2 ^ 56 = x.pasid ∧ covers x (k % 2 ^ 56 / 4096)
      t.invals = s.invals ++ [x] ∧ t.groups = s.groups ∧
      (∀ e, e ∈ t.tlb ↔ e ∈ s.tlb ∧ ¬(e.pasid = x.pasid ∧ ∃ p, e.page ≤ p ∧ p < e.page + e.size ∧ covers x p)) ∧
      (t.walks = s.walks.map fun k => if k.pasid = x.pasid ∧ covers x k.page then { k with st := .walk } else k) ∧
      ((∀ c k b, c < 200 → s.l1 c k = some b → inRange k → c = core) →
        (∀ k b, s.l1 core k = some b → b.dirty = true → b.loc = .dev (128 * home (k / 128) + k % 128) ∧ s.ownedLine (home (k / 128)) = false) →
        (∀ c k, c < 200 → t.l1 c k = if inRange k then none else s.l1 c k) ∧
        (∀ k b, s.l1 core k = some b → b.dirty = true → inRange k → t.readLoc b.loc = b.val) ∧
        ∀ a, (∀ k b, s.l1 core k = some b → b.dirty = true → inRange k → b.loc ≠ a) → t.readLoc a = s.readLoc a)
    (∀ e ∈ s.tlb, 0 < e.size) → (∀ c, Tab.wf none (s.core c).l1 = true) → core < 200 →
    (∀ x y, home x = home y → x = y) →
    (Gives (exec (.tinvctlGo v) s) fun t =>
      fieldOf (t.reg 0x130018).toNat 0 21 = fieldOf v.toNat 0 21 ∧ fieldOf (t.reg 0x130018).toNat 24 32 = fieldOf v.toNat 24 32 ∧
      (∀ o, o ≠ 0x130018 → t.reg o = s.reg o) ∧
      (fieldOf v.toNat 21 1 = 0 ∨ (∃ x ∈ s.invals, x.fromHost = false) → t = { s with hub := t.hub }) ∧
      (fieldOf v.toNat 21 1 = 1 → (∀ x ∈ s.invals, x.fromHost = true) → begun ⟨s.fresh, fieldOf v.toNat 0 20,
        16 * fieldOf (s.reg 0x130010).toNat 16 40, 16 * fieldOf v.toNat 24 32, fieldOf v.toNat 20 1 == 1, false⟩ t)) ∧
    (Gives (exec (.atsInvalidationRequest pasid page npages) s)
      (begun { id := s.fresh, pasid, page, npages, all := false, fromHost := true })) ∧
    ∀ x rest, s.invals = x :: rest → x.id = id → (∀ y ∈ rest, y.id ≠ id) →
      let inRange := fun k => k / 2 ^ 56 = x.pasid ∧ covers x (k % 2 ^ 56 / 4096)
      (∀ g p q bs b, g ∈ s.groups → p ∈ g.2.pend → q ∈ p.lanes → p.id < id → p.pasid = x.pasid → q.datum = .mem bs → b ∈ bs →
        inRange b.1 → Gives (exec (.invalidationComplete id) s) fun t => t = s) ∧
      (∀ g e bs b, g ∈ s.groups → e ∈ g.2.sq → e.id < id → e.kind = .store bs → b ∈ bs → inRange b.key →
        Gives (exec (.invalidationComplete id) s) fun t => t = s) ∧
      (∀ o ∈ s.outst, o.tag < id → (∃ g, o.who = .write g) → inRange o.key → Gives (exec (.invalidationComplete id) s) fun t => t = s) ∧
      ((∀ g ∈ s.groups, (∀ p ∈ g.2.pend, id ≤ p.id) ∧ ∀ e ∈ g.2.sq, id ≤ e.id) → (∀ o ∈ s.outst, id ≤ o.tag) →
        (∀ c k b, c < 200 → s.l1 c k = some b → ¬inRange k) →
        Gives (exec (.invalidationComplete id) s) fun t => t.invals = rest ∧ (∀ a, t.readLoc a = s.readLoc a) ∧
          (∀ c k, c < 200 → t.l1 c k = s.l1 c k) ∧
          t.out = if x.fromHost then .atsInvDone x.pasid x.page :: s.out else s.out)

/-- `TranslationsEndWithTheirResult` and `InvalidationsDropTranslationsAndWriteBack` together. -/
def Obligations.TranslationsAndInvalidationsEndAsTheirRulesSay : Prop := TranslationsEndWithTheirResult ∧ InvalidationsDropTranslationsAndWriteBack
/-- Plain registers of the hub's map: offset, and the highest and lowest bit that the host may write (R22, R96, R164, R268,
R334, R355, R361, R366, R376, R377, R379). -/
def plainRegisters : List (Nat × Nat × Nat) :=
  [(0x120000, 31, 0), (0x130000, 51, 13), (0x130008, 20, 0), (0x130010, 55, 16), (0x148000, 19, 0), (0x160000, 51, 16),
   (0x160008, 31, 0), (0x160010, 31, 0), (0x160018, 31, 0), (0x190000, 5, 0), (0x190008, 31, 0), (0x190010, 63, 0),
   (0x1B0010, 63, 32), (0x1C0000, 11, 0)] ++
  ((List.range 8).map fun i => (0x150000 + 0x100 * i, 31, 0)) ++ ((List.range 4096).map fun i => (0x140000 + 8 * i, 63, 0)) ++
  ((List.range 64).map fun i => (0x190100 + 8 * i, 4, 0))

/-- A register write of the host, or of a supervisor routine to a translation register, changes the writable bits of that
register only; STEPVAL sets the selected step counter, a merge tree that is enabled takes only a write that clears EN, the
supervisor image base takes writes of the firmware only, which replace the standard image; reads give what was written. BAR2
windows reach device memory, closed ones read as ones, an access to an owned line waits at the port and holds the later ones;
unmasking sends a pending message once (R6, R96, R164, R175, R330, R353, R361, R362, R370). -/
def Obligations.HostAccessesReachRegistersAndMemory : Prop :=
  ∀ (s : State) (off n tree vec : Nat) (v : DWord) (bs : List Byte),
    let only := fun (o : Nat) (t : State) => t = { s with hub := t.hub } ∧ ∀ k, k ≠ o → t.reg k = s.reg k
    let keeps := fun (t : State) => ∀ a, t.readLoc a = s.readLoc a
    let free := ∀ o b, HostAcc.wr o b ∉ s.atPort
    let may := fun (w : Writer) => w = .system ∨ (w = .supervisor ∧ off / 0x1000 = 0x130)
    (∀ hi lo, (off, hi, lo) ∈ plainRegisters →
      (∀ w, may w → Gives (exec (.registerWrite off v w) s) fun t => only off t ∧
        ∀ i, i < 64 → (t.reg off).getLsbD i = if lo ≤ i ∧ i ≤ hi then v.getLsbD i else (s.reg off).getLsbD i) ∧
      (∀ w, ¬may w → Gives (exec (.registerWrite off v w) s) fun t => t = s) ∧
      (off ≠ 0x160008 → s.fw.getLsbD 0 = true → free → Gives (exec (.hostRead off 8) s) fun t =>
        t = { s with out := .hostRead off (leBytes 8 (s.reg off).toNat) :: s.out })) ∧
    (∀ w, if w = .firmware then
        Gives (exec (.registerWrite 0x160020 v w) s) fun t => t = { s with hub := t.hub, svStd := false } ∧
          (∀ k, k ≠ 0x160020 → t.reg k = s.reg k) ∧ t.reg 0x160020 = v
      else Gives (exec (.registerWrite 0x160020 v w) s) fun t => t = s) ∧
    (∀ w, off % 8 ≠ 0 → Gives (exec (.registerWrite off v w) s) fun t => t = s) ∧
    (let p := fieldOf (s.reg 0x148000).toNat 0 20
     let stepped := fun (t : State) => t = { s with steps := t.steps } ∧ ∀ k, t.stepOf k = if k = p then v else s.stepOf k
     Gives (exec (.stepvalWrite v) s) stepped ∧ Gives (exec (.registerWrite 0x148008 v .system) s) stepped) ∧
    (tree < 16 →
      let cleared := fun (t : State) => t = { s with hub := t.hub, rounds := t.rounds } ∧ (∀ k, k ≠ treeReg tree → t.reg k = s.reg k) ∧
        ∀ x, x ∈ t.rounds ↔ x ∈ s.rounds ∧ x.tree ≠ tree
      (Gives (exec (.mergeTreeClearEn tree) s) fun t => cleared t ∧
        ∀ i, i < 64 → (t.reg (treeReg tree)).getLsbD i = if i = 0 then false else (s.reg (treeReg tree)).getLsbD i) ∧
      (fieldOf (s.reg (treeReg tree)).toNat 0 1 = 1 →
        (v.getLsbD 0 = false → Gives (exec (.registerWrite (treeReg tree) v .system) s) fun t => cleared t ∧
          ∀ i, i < 64 → (t.reg (treeReg tree)).getLsbD i = if i < 28 then v.getLsbD i else (s.reg (treeReg tree)).getLsbD i) ∧
        (v.getLsbD 0 = true → Gives (exec (.registerWrite (treeReg tree) v .system) s) fun t => t = s))) ∧
    (vec < 72 → Gives (exec (.msiXVectorUnmask vec) s) fun t =>
      t = { s with msixMask := t.msixMask, msixPend := t.msixPend, out := t.out } ∧
      (∀ i, i < 72 → t.msixMask.getLsbD i = if i = vec then false else s.msixMask.getLsbD i) ∧
      (∀ i, i < 72 → t.msixPend.getLsbD i = if i = vec then false else s.msixPend.getLsbD i) ∧
      t.out = if s.msixPend.getLsbD vec then .msix vec :: s.out else s.out) ∧
    (s.fw.getLsbD 0 = true → free → 0 < n → off % 2 ^ 33 + n ≤ 2 ^ 33 → off < 2 ^ 36 →
      let win := (s.reg (0x170000 + 8 * (off / 2 ^ 33))).toNat
      let a := fieldOf win 33 11 * 2 ^ 33 + off % 2 ^ 33
      if fieldOf win 0 1 = 1 ∧ fieldOf win 44 8 = 0 then
        (∀ i, i < n → s.ownedLine ((a + i) / 128) = false) →
        ((∀ i, i < n → (a + i) / 32 ∉ s.poison) → Gives (exec (.hostRead (2 ^ 26 + off) n) s) fun t => keeps t ∧ t.groups = s.groups ∧
          t.out = .hostRead (2 ^ 26 + off) (s.devBytes a n) :: s.out) ∧
        (bs.length = n → Gives (exec (.hostWrite (2 ^ 26 + off) bs) s) fun t => t.groups = s.groups ∧ t.out = s.out ∧
          ∀ b, t.readLoc b = match b with
            | .dev x => if a ≤ x ∧ x < a + n then bs.getD (x - a) 0 else s.readLoc b
            | _ => s.readLoc b)
      else (Gives (exec (.hostRead (2 ^ 26 + off) n) s) fun t => t = { s with out := .hostRead (2 ^ 26 + off) (List.replicate n 0xFF) :: s.out }) ∧
        (bs.length = n → Gives (exec (.hostWrite (2 ^ 26 + off) bs) s) fun t => t = s)) ∧
    (s.ownedLine (off / 128) = true → off < 2 ^ 33 → fieldOf (s.reg 0x170000).toNat 0 1 = 1 → fieldOf (s.reg 0x170000).toNat 33 19 = 0 →
      s.fw.getLsbD 0 = true →
      (Gives (exec (.hostRead (2 ^ 26 + off) 1) s) fun t => t = { s with atPort := s.atPort ++ [.rd (2 ^ 26 + off) 1] }) ∧
      Gives (exec (.hostWrite (2 ^ 26 + off) [0]) s) fun t => t = { s with atPort := s.atPort ++ [.wr (2 ^ 26 + off) [0]] }) ∧
    (¬free → (Gives (exec (.hostRead off n) s) fun t => t = { s with atPort := s.atPort ++ [.rd off n] }) ∧
      Gives (exec (.hostWrite off bs) s) fun t => t = { s with atPort := s.atPort ++ [.wr off bs] })

/-- A page has a line that an agent owns, or a pinned one (R178). -/
def ownedPage (s : State) (p : Nat) : Prop := ∃ c ∈ s.cmds, (∃ l ∈ c.owns, l / 512 = p) ∨ ∃ l ∈ c.pins, l / 512 = p

/-- A page in HBM that a corpus holds on its stack, or with an owned or pinned line, stays where it is (R178, R280). -/
def heldPage (s : State) (p : Nat) : Prop := s.isBound p = true ∨ ownedPage s p

/-- Page `a` goes to the capacity tier before page `b` (R179): priority, then the furthest next use, then the number. -/
def evictedBefore (s : State) (a b : Nat) : Prop :=
  let dist := fun (x : PageSt) => match x.next with
    | none => 2 ^ 31
    | some w => let d := (w - BitVec.ofNat 32 (s.stepOf x.pasid).toNat).toNat
        if 2 ^ 31 ≤ d then 2 ^ 31 else d
  let x := s.page a
  let y := s.page b
  x.prio < y.prio ∨ (x.prio = y.prio ∧ (dist y < dist x ∨ (dist x = dist y ∧ a < b)))

/-- The page the eviction engine moves next (R177, R179). -/
def EvictedNext (s : State) (p : Nat) : Prop :=
  let may := fun q => (∃ k, (s.page q).place = .hbm k) ∧ s.isBound q = false ∧ s.fixedPage q = false
  may p ∧ ∀ q, may q → q ≠ p → evictedBefore s p q

/-- A page moves between stacks whole and by itself, keeping every byte; it moves to the capacity tier as the engine's next
page, while fewer than 2,048 frames have become free and not yet 4,096, and back where it ranked after that page when it was last
used; each epoch a page used mostly by the other die twice in a row is to move there, and moves once nothing holds it (R177 to
R180). -/
def Obligations.PlacementMovesPagesAndChangesNoByte : Prop :=
  ∀ (s : State) (p dest k : Nat),
    let x := s.page p
    let moves := fun (e : Instr) (dst : Place) (used : Nat) (going : Bool) => Gives (exec e s) fun t =>
      t = { s with pages := t.pages, hbmUsed := used, evicting := going, l2 := s.l2.filter fun e => e.line / 512 ≠ p } ∧
      ∀ q, t.page q = if q = p then { x with place := dst, due := false, prom := false } else s.page q
    Tab.wf PageSt.reset s.pages = true → (∀ q ∈ s.pages, q.1 < 2 ^ 28) →
    (x.place = .hbm k → heldPage s p → Gives (exec (.pageMove p dest) s) fun t => t = s) ∧
    (x.place = .hbm k → ¬heldPage s p → dest ≠ k → dest < 8 → s.onStack dest < 1048576 → moves (.pageMove p dest) (.hbm dest) (s.hbmUsed - 1 + 1) s.evicting) ∧
    (s.evicting = true → EvictedNext s p → ¬ownedPage s p → x.place ≠ .hbm 8 → ∀ c, s.freePort = some c →
      moves (.pageMove p 8) (.cap c) (s.hbmUsed - 1) (decide (8388608 - (s.hbmUsed - 1) < 4096))) ∧
    (∀ q, EvictedNext s q → q ≠ p → Gives (exec (.pageMove p 8) s) fun t => t = s) ∧
    (s.evicting = false → Gives (exec (.pageMove p 8) s) fun t => t = s) ∧
    (Gives (exec .evictionStart s) fun t => t = { s with evicting := s.evicting || decide (8388608 - s.hbmUsed < 2048) }) ∧
    (∀ c core a, x.place = .cap c → a / 65536 = p →
      (((s.touch core (.dev a)).page p).prom = true ↔ ∀ q, EvictedNext s q → evictedBefore s q p)) ∧
    (∀ c, x.place = .cap c → dest < 8 → s.onStack dest < 1048576 → ¬ownedPage s p →
      (x.prom = true → moves (.pagePromote p dest) (.hbm dest) (s.hbmUsed + 1) s.evicting) ∧
      (x.prom = false → Gives (exec (.pagePromote p dest) s) fun t => t = s)) ∧
    (s.now / 2 ^ 20 ≤ s.epoch → Gives (exec .placementEpochEnd s) fun t => t = s) ∧
    (s.epoch < s.now / 2 ^ 20 → Gives (exec .placementEpochEnd s) fun t =>
      let far := fun (y : PageSt) => match y.place with
        | .hbm k => if k < 4 then decide (3 * y.acc0 < y.acc1) else decide (3 * y.acc1 < y.acc0)
        | _ => false
      let goes := fun (y : PageSt) => (∃ k, y.place = .hbm k) ∧ ((far y = true ∧ y.hot = true) ∨ y.due = true)
      t = { s with pages := t.pages, hbmUsed := t.hbmUsed, epoch := s.now / 2 ^ 20, l2 := t.l2 } ∧
      (∀ q, let y := s.page q
        (t.page q).acc0 = 0 ∧ (t.page q).acc1 = 0 ∧ (t.page q).prio = y.prio ∧ (t.page q).hot = (far y && !y.hot) ∧
        (¬goes y → (t.page q).place = y.place ∧ (t.page q).due = false) ∧
        (goes y → heldPage s q → (t.page q).place = y.place ∧ (t.page q).due = true)) ∧
      (x.place = .hbm k → k < 8 → goes x → ¬heldPage s p → (∀ q, q ≠ p → ¬goes (s.page q) ∨ heldPage s q) →
        (∃ d, d < 8 ∧ d / 4 ≠ k / 4 ∧ s.onStack d < 1048576) →
        ∃ d, d < 8 ∧ d / 4 ≠ k / 4 ∧ (t.page p).place = .hbm d ∧ ∀ d', d' < 8 → d' / 4 ≠ k / 4 → s.onStack d ≤ s.onStack d'))
/-! ### Near-memory search (R266 to R296) -/

/-- A node reads, or writes, `n` bytes of its PASID at device addresses from `d`: translated by the tables (with W to write)
into local memory, not in error, and for a write owned by nobody, with room in the directories (R175, R273, R274, R275). -/
def NodeRange (s : State) (pasid va n d : Nat) (write : Bool) : Prop :=
  va + n ≤ 2 ^ 56 ∧ va % 4096 = d % 4096 ∧ ∀ c ∈ chunksOf va n, ∃ la w x, s.walk pasid c.1 = .ok la w x ∧ formPlace s la = .hit (.dev (d + (c.1 - va))) ∧
    s.poisoned (.dev (d + (c.1 - va))) = false ∧ (write = true → w = true ∧ s.ownedLine ((d + (c.1 - va)) / 128) = false ∧ (s.cmds.flatMap Cmd.owns).length ≤ 4032)
def NodeReads (s : State) (pasid va n v : Nat) : Prop := ∃ d, NodeRange s pasid va n d false ∧ leNat (s.devBytes d n) = v

/-- Element `j` of a vector in a format of R276. -/
def vectorElem (efmt v j : Nat) : Exact :=
  let code := fun w => v / 2 ^ (w * j) % 2 ^ w
  match efmt with
  | 0 => fmtH16.decode (code 16)
  | 1 => fmtB16.decode (code 16)
  | 2 => fmtE4.decode (code 8)
  | 3 => fmtE5.decode (code 8)
  | 4 => Exact.ofInt (if code 8 < 128 then (code 8 : Int) else (code 8 : Int) - 256)
  | _ => Exact.ofInt (code 1)

/-- The distance of R277 between a query and a vector; none for NaN. -/
def DistRule (efmt metric dim q x : Nat) (r : Option Word) : Prop :=
  let a := vectorElem efmt q
  let b := vectorElem efmt x
  let some' := fun (p : Nat → Prop) => ∃ j, j < dim ∧ p j
  let rounded := fun (e : ℚ) => if e = 0 then r = some 0 else ∃ neg num den k, finVal neg num den k = e ∧ 0 < den ∧
    r = some (BitVec.ofNat 32 (conv fmt32 .rne false (.fin neg num den k)).1)
  let term := fun (n : Bool) (j : Nat) => ((a j).isInf = true ∨ (b j).isInf = true) ∧ ((a j).neg != (b j).neg) = n
  if metric = 2 then rounded (((List.range dim).filter fun j => a j != b j).length : ℚ)
  else if some' (fun j => (a j).isNan = true ∨ (b j).isNan = true) then r = none
  else if metric = 0 then
    (if some' (fun j => (a j).isInf = true ∧ (b j).isInf = true ∧ (a j).neg = (b j).neg) then r = none
     else if some' (fun j => (a j).isInf = true ∨ (b j).isInf = true) then r = some 0x7F800000
     else rounded (((List.range dim).map fun j => (Exact.val (a j) - Exact.val (b j)) ^ 2).sum))
  else if some' (fun j => ((a j).isInf = true ∧ (b j).isZero = true) ∨ ((b j).isInf = true ∧ (a j).isZero = true)) ∨
      (some' (term true) ∧ some' (term false)) then r = none
  else if some' (term true) then r = some 0x7F800000
  else if some' (term false) then r = some 0xFF800000
  else rounded (-((List.range dim).map fun j => Exact.val (a j) * Exact.val (b j)).sum)

/-- Keys in order: the smaller distance as a real number, then the smaller id (R278). -/
def keyBefore (a b : Word × Word) : Prop :=
  Exact.cmp (fmt32.decode a.1.toNat) (fmt32.decode b.1.toNat) = .lt ∨
  (Exact.cmp (fmt32.decode a.1.toNat) (fmt32.decode b.1.toNat) = .eq ∧ a.2.toNat < b.2.toNat)

/-- A drawer of capacity `k` holds the best of these keys, which have distinct ids (R278). -/
def BestOf (k : Nat) (keys l : List (Word × Word)) : Prop :=
  l.Pairwise keyBefore ∧ l.length = min k keys.length ∧ (∀ x ∈ l, x ∈ keys) ∧ ∀ x ∈ keys, x ∉ l → ∀ y ∈ l, keyBefore y x

/-- Home stack of an id: the XOR of its 3-bit fields (R280). -/
def idHome (i : Nat) : Nat := (List.range 11).foldl (fun h j => h ^^^ fieldOf i (3 * j) 3) 0

/-- A record or block with this header is seen at a snapshot (R282). -/
def seenIn (h snap : Nat) : Bool := decide (fieldOf h 0 32 ≤ snap ∧ snap < fieldOf h 32 32)

/-- The part of a node on a stack. -/
def partOf (s : State) (nid k : Nat) : Option NStack := (s.nnode nid).bind fun n => n.part k

/-- A part that a stack works on. -/
def Working (s : State) (n : NNode) (p : NStack) (nid k : Nat) : Prop :=
  s.nnode nid = some n ∧ n.part k = some p ∧ p.started = true ∧ p.fin = false ∧ p.cause = 0 ∧ p.stopped = false ∧ n.stopped = false ∧ k < 8

/-- The status word of a part (R272). -/
def statusWord (p : NStack) : Nat :=
  (if p.cause = 0 then 3 else 0x80 + p.cause) + 2 ^ 8 * (if p.more then 1 else 0) + 2 ^ 9 * (if p.full then 1 else 0) +
  2 ^ 16 * min p.disc 0xFFFF + 2 ^ 32 * (p.count % 2 ^ 32)

/-- A stack starts a node when it has a place and none of higher priority waits; it writes state 1 in its status word, and a
malformed argument is cause RECORD. A failed stack writes 0x80 + cause; a SCAN that ends writes its lists and state 3. The node
completes with the cause of its lowest failing stack (R272, R273, R278, R285, R286). -/
def NodesStartFinishAndComplete : Prop :=
  ∀ (s : State) (nid k : Nat) (n : NNode) (p : NStack) (d : Nat),
    let a := n.arg
    let res := fieldOf (a 7) 0 56
    let pid := n.pasid
    let status := fun (t : State) => leNat (t.devBytes (d + 8 * k) 8)
    let kept := fun (t : State) (other : Nat → Prop) => ∀ x, ¬other x → (x < d + 8 * k ∨ d + 8 * k + 8 ≤ x) → t.readLoc (.dev x) = s.readLoc (.dev x)
    let common := res % 64 = 0 ∧ 2 ≤ fieldOf (a 7) 56 4 ∧ fieldOf (a 7) 56 4 ≤ 9 ∧ fieldOf (a 7) 60 4 = 0
    let merge := n.parts.length = 1 ∧ fieldOf (a 0) 56 8 = 0 ∧ a 0 % 32 = 0 ∧ anySet (a 1) [(7, 7), (15, 14), (63, 24)] = false ∧
      a 2 < 2 ^ (fieldOf (a 1) 8 6 + 1) ∧ a 3 = 0 ∧ a 4 = 0 ∧ a 5 = 0 ∧ a 6 = 0
    s.nnode nid = some n → n.part k = some p → k < 8 → NodeRange s pid (res + 8 * k) 8 (d + 8 * k) true →
    (let turn := p.started = false ∧ p.cause = 0 ∧ n.stopped = false ∧ (s.stackLoad k).2 < 8 ∧ ∀ m ∈ s.waitsOn k, m.prio ≤ n.prio
     (¬turn → Gives (exec (.nodeStackStart nid k) s) fun t => t = s) ∧
     (turn → res % 64 = 0 → ¬common → Gives (exec (.nodeStackStart nid k) s) fun t => partOf t nid k = some { p with started := true, cause := 7 } ∧
       status t = 1 ∧ kept t fun _ => False) ∧
     (turn → res % 64 ≠ 0 → Gives (exec (.nodeStackStart nid k) s) fun t => partOf t nid k = some { p with started := true, cause := 7 } ∧
       ∀ x, t.readLoc x = s.readLoc x) ∧
     (turn → n.ep = 6 → common → p.fin = false → p.posted = false → p.more = false → p.gran = 0 → p.stopped = false →
       Gives (exec (.nodeStackStart nid k) s) fun t => status t = 1 ∧ (kept t fun _ => False) ∧
       partOf t nid k = some (if merge then { p with started := true, posted := true } else { p with started := true, cause := 7 }))) ∧
    (p.fin = true → Gives (exec (.nodeStackFinish nid k) s) fun t => t = s) ∧
    (p.cause = 0 → p.posted = true → (n.ep ≠ 1 ∨ n.gran ≠ 0 ∨ ∃ ch ∈ s.channels k, nid ∈ (s.chan k ch).work) →
      Gives (exec (.nodeStackFinish nid k) s) fun t => t = s) ∧
    (p.fin = false → p.cause ≠ 0 → p.cause < 0x80 → res % 64 = 0 → (n.ep ≠ 2 ∨ n.stackList.head? ≠ some k) → Gives (exec (.nodeStackFinish nid k) s) fun t =>
      partOf t nid k = some { p with fin := true } ∧ status t = statusWord p ∧ kept t fun _ => False) ∧
    (let nq := fieldOf (a 2) 0 2 + 1
     let cap := fieldOf (a 2) 4 8 + 1
     let len := 32 * ((8 + 8 * cap + 31) / 32)
     let area := 64 + 8 * nq * len
     let at' := fun q => d + 64 + (8 * q + k) * len
     n.ep = 0 → p.fin = false → p.started = true → p.cause = 0 → p.posted = false → n.partOver p = true → res % 64 = 0 →
       NodeRange s pid res area d true → StillThere s pid res area (fun x => d ≤ x ∧ x < d + area) →
       StillThere s pid (res + 8 * k) 8 (fun x => d ≤ x ∧ x < d + area) → (∀ q, (p.drawer q).length ≤ cap) →
       Gives (exec (.nodeStackFinish nid k) s) fun t => partOf t nid k = some { p with fin := true } ∧ status t = statusWord p ∧
         (kept t fun x => ∃ q, q < nq ∧ at' q ≤ x ∧ x < at' q + len) ∧
         ∀ q, q < nq → leNat (t.devBytes (at' q) 2) = (p.drawer q).length ∧ ∀ e, e < cap →
           (leNat (t.devBytes (at' q + 8 + 8 * e) 4), leNat (t.devBytes (at' q + 12 + 8 * e) 4)) =
             match (p.drawer q)[e]? with
             | some x => (x.1.toNat, x.2.toNat)
             | none => (0x7F800000, 0xFFFFFFFF)) ∧
    ((∃ x ∈ n.parts, x.fin = false) → Gives (exec (.nodeComplete nid) s) fun t => t = s) ∧
    ((∃ o ∈ s.outst, o.who = .cmd nid) → Gives (exec (.nodeComplete nid) s) fun t => t = s) ∧
    ((∀ x ∈ n.parts, x.fin = true) → (∀ o ∈ s.outst, o.who ≠ .cmd nid) → (n.ep ≠ 4 ∨ a 4 ≠ 1 ∨ ∃ x ∈ n.parts, x.cause ≠ 0) →
      Gives (exec (.nodeComplete nid) s) fun t => (∀ x, t.readLoc x = s.readLoc x) ∧
        (∀ x, x ∈ t.nodes ↔ x ∈ s.nodes ∧ x.id ≠ nid) ∧ (∀ m, m ∈ t.msgs ↔ m ∈ s.msgs ∧ m.nid ≠ nid) ∧
        ∃ c, ((c = 0 ∧ ∀ x ∈ n.parts, x.cause = 0) ∨ ∃ before x after, n.parts = before ++ x :: after ∧ (∀ y ∈ before, y.cause = 0) ∧ x.cause = c ∧ c ≠ 0) ∧
          t.runs = s.runs.map fun r => if r.num = n.run then { r with st := r.st.set n.node (.ending c) } else r)

/-- A SCAN granule inserts the exact distance of every record seen at the snapshot, in the id range, into each query's drawer;
a walk message visits its target once, within the visited set, and spawns a walker where it ranks, live or, with no room left, in
the spill queue; a PUBLISH delete writes V into a
live record's header; a node stops at granules that have not begun, and resumes (R275, R277, R278, R280 to R282, R285, R286,
R289, R295). -/
def NodesSearchPublishStopAndResume : Prop :=
  ∀ (s : State) (nid k : Nat) (n : NNode) (p : NStack) (hd vec qv ids : Nat → Nat) (dd : Nat → Nat → Option Word) (m : WMsg) (rest : List WMsg) (d e : Nat),
    let a := n.arg
    let pid := n.pasid
    let c := p.desc
    let nids := fieldOf c 0 32
    let vb := (fieldOf c 48 16 * (match fieldOf c 32 4 with | 0 | 1 => 16 | 5 => 1 | _ => 8) + 7) / 8
    let rec' := fun u => (fieldOf c (512 + 64 * k) 56 + u * fieldOf c 64 32) % 2 ^ 56
    let keepsMem := fun (t : State) => ∀ x, t.readLoc x = s.readLoc x
    (∀ u, ids u / 8 = u ∧ idHome (ids u) = k) → fieldOf c 32 4 ≤ 5 →
    (Working s n p nid k → (p.posted = false ∨ ∃ ch ∈ s.channels k, nid ∈ (s.chan k ch).work) → n.ep ≠ 2 →
      Gives (exec (.nodeGranule nid k) s) fun t => t = s) ∧
    (let total := (nids + 7) / 8
     let g := if n.gran = 0 then max 1 total else 4096 * n.gran
     let us := (List.range (min total ((p.gran + 1) * g) - p.gran * g)).map fun i => p.gran * g + i
     let snap := a 4
     let scanned := us.filter fun u => decide (fieldOf (a 3) 0 32 ≤ ids u ∧ ids u < min (fieldOf (a 3) 32 32) nids)
     let seen := scanned.filter fun u => seenIn (hd u) snap
     let nq := fieldOf (a 2) 0 2 + 1
     Working s n p nid k → n.ep = 0 → p.posted = true → s.channels k ≠ [] → (∀ ch ∈ s.channels k, nid ∉ (s.chan k ch).work) →
       p.sub ≤ p.gran * g → fieldOf (a 2) 2 2 ≠ 3 →
       (∀ u ∈ scanned, NodeReads s pid (rec' u) 16 (hd u)) → (∀ u ∈ seen, NodeReads s pid (rec' u + 16) vb (vec u)) →
       (∀ q, q < nq → NodeReads s pid ((a 1 + q * (32 * ((vb + 31) / 32))) % 2 ^ 56) vb (qv q)) →
       (∀ q u, q < nq → u ∈ seen → DistRule (fieldOf c 32 4) (fieldOf (a 2) 2 2) (fieldOf c 48 16) (qv q) (vec u) (dd q u)) →
       (∀ q, (p.drawer q).Pairwise keyBefore ∧ (p.drawer q).length ≤ fieldOf (a 2) 4 8 + 1 ∧ ∀ x ∈ p.drawer q, x.2.toNat / 8 < p.gran * g ∧ (fmt32.decode x.1.toNat).isNan = false) →
       Gives (exec (.nodeGranule nid k) s) fun t => keepsMem t ∧ t.groups = s.groups ∧ ∃ p', partOf t nid k = some p' ∧ p'.gran = p.gran + 1 ∧
         p'.cause = 0 ∧ p'.count = p.count + seen.length ∧
         p'.disc = p.disc + ((List.range nq).map fun q => (seen.filter fun u => dd q u == none).length).sum ∧
         ∀ q, q < nq → BestOf (fieldOf (a 2) 4 8 + 1)
           (p.drawer q ++ seen.filterMap fun u => (dd q u).map fun w => (w, BitVec.ofNat 32 (ids u))) (p'.drawer q)) ∧
    (let y := m.target
     let q := m.qid
     let key := fun w => (w, BitVec.ofNat 32 y)
     let cap := fieldOf (a 2) 10 8 + 1
     let spawned := ((p.spawned.find? fun x => x.1 == q).map Prod.snd).getD 0
     let hmax := fieldOf (a 5) 0 32
     let room := p.spill = [] ∧ 0 < s.walkRoom n p
     let arrives := fun P => Gives (exec (.walkMessageReceive k m.src) s) fun t => t.msgs = rest ∧ keepsMem t ∧ ∃ p', partOf t nid k = some p' ∧ P p'
     let same := fun (p' : NStack) => p' = { p with posted := p'.posted, cause := p'.cause }
     Working s n p nid k → n.ep = 1 → s.msgs = m :: rest → m.nid = nid → m.dst = k → y < 2 ^ 32 → fieldOf (a 2) 8 2 ≠ 3 →
       (nids ≤ y → arrives same) ∧
       (y < nids → idHome y = k → NodeReads s pid (rec' (y / 8)) 16 (hd y) →
         ((seenIn (hd y) (fieldOf (a 4) 0 32) = false ∨ (q, y) ∈ p.visited) → arrives same) ∧
         (seenIn (hd y) (fieldOf (a 4) 0 32) = true → (q, y) ∉ p.visited →
           ((p.visited.filter fun v => v.1 == q).length = fieldOf (a 5) 32 14 + 1 → arrives fun p' => p' = { p with full := true, posted := p'.posted, cause := p'.cause }) ∧
           ((p.visited.filter fun v => v.1 == q).length ≠ fieldOf (a 5) 32 14 + 1 → NodeReads s pid (rec' (y / 8) + 16) vb (vec y) →
             NodeReads s pid ((a 1 + q * (32 * ((vb + 31) / 32))) % 2 ^ 56) vb (qv q) →
             DistRule (fieldOf c 32 4) (fieldOf (a 2) 8 2) (fieldOf c 48 16) (qv q) (vec y) (dd q y) →
             (p.drawer q).Pairwise keyBefore → (p.drawer q).length ≤ cap → (∀ x ∈ p.drawer q, x.2.toNat ≠ y ∧ (fmt32.decode x.1.toNat).isNan = false) →
             (dd q y = none → arrives fun p' => p' = { p with visited := p.visited ++ [(q, y)], disc := p.disc + 1, posted := p'.posted, cause := p'.cause }) ∧
             ∀ w, dd q y = some w → (room ∨ 64 * (p.spill.length + 1) ≤ Config.workArea) →
               arrives fun p' => p'.visited = p.visited ++ [(q, y)] ∧ p'.disc = p.disc ∧
                 BestOf cap (p.drawer q ++ [key w]) (p'.drawer q) ∧
                 let spawns := 1 ≤ m.budget ∧ (∃ i < fieldOf (a 2) 18 8 + 1, (p'.drawer q)[i]? = some (key w)) ∧ (hmax = 0 ∨ spawned < hmax)
                 let walker : Walker := { node := y, snap := fieldOf (a 4) 0 32, qid := q, budget := m.budget, vslot := q, dist := w, run := n.run }
                 p'.walkers = (if spawns ∧ room then p.walkers ++ [walker] else p.walkers) ∧
                 p'.spill = if spawns ∧ ¬room then p.spill ++ [walker] else p.spill)))) ∧
    (let g := if n.gran = 0 then max 1 (a 2) else n.gran
     let id := fieldOf e 32 32
     Working s n p nid k → n.ep = 4 → p.posted = true → (∀ ch ∈ s.channels k, nid ∉ (s.chan k ch).work) → p.sub ≤ p.gran → g = 1 → p.gran < a 2 →
       NodeReads s pid ((a 1 + 32 * p.gran) % 2 ^ 56) 32 e → anySet e [(31, 2), (127, 120), (255, 160)] = false → fieldOf e 0 2 = 1 →
       id < nids → idHome id = k → k ∈ n.stackList → NodeReads s pid (rec' (id / 8)) 16 (hd id) → NodeRange s pid (rec' (id / 8)) 16 d true →
       let v := fieldOf (a 3) 0 32
       Gives (exec (.nodeGranule nid k) s) fun t => (∀ x, (x < d ∨ d + 16 ≤ x) → t.readLoc (.dev x) = s.readLoc (.dev x)) ∧ ∃ p', partOf t nid k = some p' ∧ p'.gran = p.gran + 1 ∧
         if fieldOf (hd id) 0 32 < v ∧ fieldOf (hd id) 32 32 = 0xFFFFFFFF then p'.count = p.count + 1 ∧ p'.disc = p.disc ∧
           leNat (t.devBytes d 16) = fieldOf (hd id) 0 32 + 2 ^ 32 * v + 2 ^ 64 * fieldOf (hd id) 64 32
         else p'.count = p.count ∧ p'.disc = p.disc + 1 ∧ keepsMem t) ∧
    (s.nnode nid = some n → n.stackList.Nodup →
      (n.stopped = true → Gives (exec (.nodeStop nid) s) fun t => t = s) ∧
      (n.stopped = false → Gives (exec (.nodeStop nid) s) fun t => keepsMem t ∧ t.msgs = s.msgs ∧ (t.nnode nid).map NNode.stopped = some true ∧
        ∀ j x, n.part j = some x →
          if x.fin = true ∨ x.started = false ∨ x.stopped = true ∨ (x.posted = true ∧ ∃ ch ∈ s.channels j, nid ∉ (s.chan j ch).work)
          then partOf t nid j = some x
          else partOf t nid j = some { x with stopped := true, posted := false } ∧ ∀ ch, ch < 32 → nid ∉ (t.chan j ch).work ∧
            (t.chan j ch).halt = ((s.chan j ch).halt || ((s.chan j ch).phase == .preIn && (s.chan j ch).work.contains nid))) ∧
      (let live := n.parts.filter fun x => x.started && !x.fin && x.cause == 0
       let may := n.stopped = true ∧ ∀ x ∈ live, x.stopped = true ∧ (s.stackLoad x.stack).2 < 8 ∧ ∀ o ∈ s.waitsOn x.stack, o.prio ≤ n.prio
       (¬may → Gives (exec (.nodeResume nid) s) fun t => t = s) ∧
       (may → Gives (exec (.nodeResume nid) s) fun t => keepsMem t ∧ t.msgs = s.msgs ∧ (t.nnode nid).map NNode.stopped = some false ∧
         ∀ j x, n.part j = some x → ∃ x', partOf t nid j = some x' ∧ x'.stopped = false ∧ x'.gran = x.gran ∧ x'.drawers = x.drawers ∧ x'.sub = x.sub ∧
           x'.sums = x.sums ∧ x'.visited = x.visited ∧ x'.walkers ++ x'.spill = x.walkers ++ x.spill ∧ x'.count = x.count ∧ x'.disc = x.disc)))

/-- A channel changes its phase only as the table of R269 says; a computing unit issues the next step due, normal requests
queue up to 256 in arrival order outside NORMAL and are served in order, and the requests of a mapped-out channel go to the
lowest of the others of its stack as far as that holds them (R266, R269, R270). Which of the others serves them is the model's
choice (log entry 52). -/
def Obligations.ChannelsFollowThePhaseTable : Prop :=
  ∀ (s : State) (k c : Nat) (req : NormReq), k < 8 → c < 32 →
    let x := s.chan k c
    let el := s.now - x.since
    let nmin := fieldOf (s.reg (0x150000 + 0x100 * k)).toNat 16 16
    let qmax := max 256 (fieldOf (s.reg (0x150000 + 0x100 * k)).toNat 0 16)
    let becomes := fun (i : Instr) (y : Chan) => Gives (exec i s) fun t => t = { s with chans := t.chans } ∧
      ∀ j e, e < 32 → t.chan j e = if j = k ∧ e = c then y else s.chan j e
    let chen := s.reg (0x150008 + 0x100 * k)
    let enters := fun (i : Instr) (may : Prop) (ph : Phase) => (may → becomes i
      ⟨ph, s.now, x.queue, if ph = .normal ∨ ph = .preIn then x.queue.length else x.atEntry, x.work, false⟩) ∧ (¬may → Gives (exec i s) fun t => t = s)
    (∀ e, e < 32 → chen.getLsbD e = true ∨ (s.chan k e).queue = []) →
    enters (.channelEnterPreIn k c) (x.phase = .normal ∧ x.work ≠ [] ∧ nmin ≤ el ∧ x.atEntry = 0) .preIn ∧
    enters (.channelEnterSwIn k c) (x.phase = .preIn ∧ x.atEntry = 0 ∧ x.halt = false ∧ x.work ≠ []) .swIn ∧
    enters (.channelAbortPreIn k c) (x.phase = .preIn ∧ (x.halt = true ∨ x.work = [])) .normal ∧
    enters (.channelEnterCompute k c) (x.phase = .swIn ∧ 32 ≤ el) .compute ∧
    enters (.channelEnterPreOut k c) (x.phase = .compute ∧ (x.work = [] ∨ (qmax ≤ el ∧ x.queue ≠ []))) .preOut ∧
    enters (.channelEnterSwOut k c) (x.phase = .preOut ∧ 48 ≤ el) .swOut ∧
    enters (.channelEnterNormal k c) (x.phase = .swOut ∧ 32 ≤ el) .normal ∧
    ((x.phase = .compute → becomes (.computeStep k c) { x with work := x.work.drop 1 }) ∧
      (x.phase ≠ .compute → Gives (exec (.computeStep k c) s) fun t => t = s)) ∧
    (chen.getLsbD c = true →
      ((x.phase = .normal ∨ x.queue.length < 256) → becomes (.normalRequestArrive k c req) { x with queue := x.queue ++ [req] }) ∧
      (x.phase ≠ .normal → 256 ≤ x.queue.length → Gives (exec (.normalRequestArrive k c req) s) fun t => t = s)) ∧
    (((x.phase = .normal ∨ (x.phase = .preIn ∧ 0 < x.atEntry)) →
        becomes (.normalRequestComplete k c) { x with queue := x.queue.drop 1, atEntry := x.atEntry - 1 }) ∧
      (¬(x.phase = .normal ∨ (x.phase = .preIn ∧ 0 < x.atEntry)) → Gives (exec (.normalRequestComplete k c) s) fun t => t = s)) ∧
    (chen.getLsbD c = false → Gives (exec (.channelMapOut k c) s) fun t => t = s) ∧
    (chen.getLsbD c = true → Gives (exec (.channelMapOut k c) s) fun t =>
      let out := { x with work := [], halt := x.phase == .preIn }
      (∀ i, i < 32 → (t.reg (0x150008 + 0x100 * k)).getLsbD i = if i = c then false else chen.getLsbD i) ∧
      (∃ e more, t.cab = e :: more ∧ e.ty = 3) ∧ (∀ a, t.readLoc a = s.readLoc a) ∧
      ((∀ j, j < 32 → j ≠ c → chen.getLsbD j = false) → ∀ j, j < 32 → t.chan k j = if j = c then out else s.chan k j) ∧
      (∀ i, i < 32 → i ≠ c → chen.getLsbD i = true → (∀ j, j < i → j ≠ c → chen.getLsbD j = false) →
        let y := s.chan k i
        let n := if y.phase = .normal then x.queue.length else 256 - y.queue.length
        t.chan k i = { y with queue := y.queue ++ x.queue.take n } ∧ t.chan k c = { out with queue := x.queue.drop n } ∧
          ∀ j, j < 32 → j ≠ c → j ≠ i → t.chan k j = s.chan k j))

/-- `NodesStartFinishAndComplete` and `NodesSearchPublishStopAndResume` together. -/
def Obligations.NearMemoryNodesFollowTheirRules : Prop := NodesStartFinishAndComplete ∧ NodesSearchPublishStopAndResume
/-! ### The fabric (R199, R359, R365 to R372; the layout of a flit's own fields is the model's, log entry 31) -/

/-- Each kind of flit with its receipt (R367). -/
def FlitKind (k : Nat) (e : Flit → Instr) : Prop :=
  (k = 1 ∧ e = .wrFlit) ∨ (k = 2 ∧ e = .rdFlit) ∨ (k = 3 ∧ e = .rdrspFlit) ∨ (k = 4 ∧ e = .atomFlit) ∨ (k = 5 ∧ e = .atomrspFlit) ∨
  (k = 6 ∧ e = .ackFlit) ∨ (k = 7 ∧ e = .nakFlit) ∨ (k = 8 ∧ e = .flushFlit) ∨ (k = 9 ∧ e = .flushackFlit) ∨ (k = 10 ∧ e = .mboxFlit) ∨
  (k = 11 ∧ e = .mergeFlit)

/-- The flit is of this kind, for this package, and next in its sender's order (R367). -/
def InTurn (s : State) (f : Flit) (kind : Nat) : Prop :=
  f.kind.toNat = kind ∧ f.dst.toNat = fieldOf (s.reg 0x190000).toNat 0 6 ∧ Tab.get 0 s.seqIn f.src.toNat = f.seq.toNat

/-- The flit was performed: the next of its sender is awaited. -/
def Taken (s t : State) (f : Flit) : Prop :=
  ∀ p, Tab.get 0 t.seqIn p = if p = f.src.toNat then (f.seq.toNat + 1) % 2 ^ 32 else Tab.get 0 s.seqIn p

/-- Where a route leads back, an answer of a kind was sent, with the sender's tag and the next SEQ towards it. -/
def Answers (s t : State) (f : Flit) (kind : Nat) (P : Flit → Prop) : Prop :=
  s.canSend f.src.toNat = true → ∃ g rest, t.out = .flit g :: rest ∧ g.kind.toNat = kind ∧ g.dst = f.src ∧ g.tag = f.tag ∧
    g.seq = BitVec.ofNat 32 (Tab.get 0 s.seqOut f.src.toNat) ∧ P g

/-- The range lies in an open export window that admits the sender, and its writes (R366, R368). -/
def Exported (s : State) (src addr n : Nat) (write : Bool) : Prop :=
  ∃ i < 8, let c := (s.reg (0x190400 + 0x20 * i)).toNat
    fieldOf c 0 1 = 1 ∧ (write = true → fieldOf c 1 1 = 1) ∧ (s.reg (0x190410 + 0x20 * i)).getLsbD src = true ∧
    fieldOf c 16 28 * 65536 ≤ addr ∧ addr + n ≤ (fieldOf c 16 28 + fieldOf (s.reg (0x190408 + 0x20 * i)).toNat 0 32) * 65536

/-- Flits are performed in the order of their sender; misdirected ones and those of an unknown kind are discarded and recorded.
WR, RD and ATOM are performed at home where a window exports their bytes, and refused otherwise; an ordered ATOM is performed in
its place too, or waits for room at its slice; FLUSH, FLUSHACK and MBOX
follow R359 and R369; an access to a line an agent owns stays on the link (R175, R359, R366 to R369). -/
def FlitsOfPeersArePerformedInOrder : Prop :=
  ∀ (s : State) (f : Flit),
    let src := f.src.toNat
    let a := f.addr
    let same := fun (t : State) => ∀ x, t.readLoc x = s.readLoc x
    let owned := fun lo n => ∃ x, lo ≤ x ∧ x < lo + n ∧ s.ownedLine (x / 128) = true
    let recorded := fun (t : State) => same t ∧ t.groups = s.groups ∧ t.out = s.out ∧ ∃ e rest, t.cab = e :: rest ∧ e.ty = 8
    (∀ k e, FlitKind k e →
      (f.kind.toNat ≠ k → Gives (exec (e f) s) fun t => t = s) ∧
      (f.kind.toNat = k → f.dst.toNat ≠ fieldOf (s.reg 0x190000).toNat 0 6 → Gives (exec (e f) s) fun t => recorded t ∧ t.seqIn = s.seqIn) ∧
      (f.kind.toNat = k → f.dst.toNat = fieldOf (s.reg 0x190000).toNat 0 6 → Tab.get 0 s.seqIn src ≠ f.seq.toNat →
        Gives (exec (e f) s) fun t => t = s)) ∧
    (∀ k, (k = 0 ∨ 11 < k) → InTurn s f k → Gives (exec (.undefinedKindFlit f) s) fun t => recorded t ∧ Taken s t f) ∧
    (∀ n, InTurn s f 1 → f.data.length = n → 1 ≤ n → n ≤ 128 →
      (¬Exported s src a n true → Gives (exec (.wrFlit f) s) fun t => Taken s t f ∧ same t ∧ Answers s t f 7 fun _ => True) ∧
      (Exported s src a n true → owned a n → Gives (exec (.wrFlit f) s) fun t => t = s) ∧
      (Exported s src a n true → ¬owned a n → Gives (exec (.wrFlit f) s) fun t => Taken s t f ∧ t.groups = s.groups ∧ (Answers s t f 6 fun _ => True) ∧
        (∀ x, t.readLoc (.dev x) = if a ≤ x ∧ x < a + n ∧ f.mask.getD (x - a) false = true then f.data.getD (x - a) 0 else s.readLoc (.dev x)))) ∧
    (let lo := a / 32 * 32
     InTurn s f 2 →
      (¬Exported s src lo 32 false → Gives (exec (.rdFlit f) s) fun t => Taken s t f ∧ same t ∧ Answers s t f 3 fun g => g.stat = 1) ∧
      (Exported s src lo 32 false → s.ownedLine (lo / 128) = true → Gives (exec (.rdFlit f) s) fun t => t = s) ∧
      (Exported s src lo 32 false → s.ownedLine (lo / 128) = false → Gives (exec (.rdFlit f) s) fun t => Taken s t f ∧ same t ∧ t.groups = s.groups ∧
        Answers s t f 3 fun g => if s.poisoned (.dev lo) = true then g.stat = 2 else g.stat = 0 ∧ g.data = s.devBytes lo 32)) ∧
    (let ty := flitTy f
     let n := if ty = .n64 then 8 else 4
     let old := leNat (s.devBytes a n)
     let op := f.op.toNat
     InTurn s f 4 →
      (¬Exported s src a n true → Gives (exec (.atomFlit f) s) fun t => Taken s t f ∧ same t ∧ Answers s t f 7 fun _ => True) ∧
      (Exported s src a n true → owned a n → Gives (exec (.atomFlit f) s) fun t => t = s) ∧
      (Exported s src a n true → ¬owned a n → s.poisoned (.dev a) = true → Gives (exec (.atomFlit f) s) fun t => Taken s t f ∧ same t ∧
        Answers s t f 5 fun g => g.stat = 2) ∧
      (Exported s src a n true → ¬owned a n → s.poisoned (.dev a) = false → op / 16 % 4 ≤ 1 → Gives (exec (.atomFlit f) s) fun t => Taken s t f ∧
        (Answers s t f 5 fun g => g.stat = 0 ∧ g.val.toNat = old) ∧ (∀ x, (x < a ∨ a + n ≤ x) → t.readLoc (.dev x) = s.readLoc (.dev x)) ∧
        leNat (t.devBytes a n) = if op / 16 % 4 = 0 then (atomOp ty (op % 16) (BitVec.ofNat 64 old) f.val).toNat % 2 ^ (8 * n)
          else if old = f.val.toNat then f.val2.toNat % 2 ^ (8 * n) else old) ∧
      (let tag := fieldOf f.val2.toNat 0 32
       let pasid := fieldOf f.val2.toNat 32 20
       let seq := fieldOf tag 8 12
       let last := fieldOf tag 20 12
       Exported s src a n true → ¬owned a n → s.poisoned (.dev a) = false → 2 ≤ op / 16 % 4 → fieldOf tag 6 2 = 0 → seq ≤ last →
         (∀ r ∈ s.streams, ¬(r.pasid = pasid ∧ r.stream = fieldOf tag 0 6 ∧ r.loc = a)) → (s.page (a / 65536)).place ≠ .none →
         (last = 0 → Gives (exec (.atomFlit f) s) fun t => Taken s t f ∧ t.streams = s.streams ∧ t.streamReqs = s.streamReqs ∧
           (Answers s t f 5 fun g => g.stat = 0) ∧ (∀ x, (x < a ∨ a + n ≤ x) → t.readLoc (.dev x) = s.readLoc (.dev x)) ∧
           leNat (t.devBytes a n) = (atomOp ty 0 (BitVec.ofNat 64 old) f.val).toNat % 2 ^ (8 * n)) ∧
         (last ≠ 0 → 4096 ≤ (s.streams.filter fun x => s.slice x.loc == s.slice a).length → Gives (exec (.atomFlit f) s) fun t =>
           Taken s t f ∧ same t ∧ ∃ q, t.streamReqs = s.streamReqs ++ [q] ∧ q.loc = a ∧ q.ty = ty ∧ q.tag.toNat = tag ∧ q.pasid = pasid ∧
             q.val = f.val ∧ q.peer = some (src, f.tag)))) ∧
    (InTurn s f 8 →
      ((∃ q ∈ s.streamReqs, ∃ tag, q.peer = some (src, tag)) → Gives (exec (.flushFlit f) s) fun t => t = s) ∧
      ((∀ q ∈ s.streamReqs, ∀ p tag, q.peer = some (p, tag) → p ≠ src) → Gives (exec (.flushFlit f) s) fun t => Taken s t f ∧ same t ∧
        t.groups = s.groups ∧ Answers s t f 9 fun _ => True)) ∧
    (InTurn s f 9 → Gives (exec (.flushackFlit f) s) fun t => Taken s t f ∧ t = { s with seqIn := t.seqIn, grids := t.grids } ∧
      t.grids.length = s.grids.length ∧ ∀ (i : Nat) x, s.grids[i]? = some x → ∃ y, t.grids[i]? = some y ∧ y = { x with waitAck := y.waitAck } ∧
        ∀ p, p < 64 → y.waitAck.getLsbD p = if x.num = f.tag ∧ p = src then false else x.waitAck.getLsbD p) ∧
    (let m := s.mbox a
     InTurn s f 10 →
      (((s.reg 0x190010).getLsbD src = false ∨ m.armed = false ∨ m.disarming = true) → Gives (exec (.mboxFlit f) s) fun t => Taken s t f ∧ same t ∧
        t.mboxes = s.mboxes ∧ Answers s t f 7 fun _ => True) ∧
      ((s.reg 0x190010).getLsbD src = true → m.armed = true → m.disarming = false → m.running ≠ none →
        (m.held.length < 16 → Gives (exec (.mboxFlit f) s) fun t => Taken s t f ∧ same t ∧
          t.mbox a = { m with held := m.held ++ [{ src := src, payload := f.data }] } ∧ Answers s t f 6 fun _ => True) ∧
        (16 ≤ m.held.length → Gives (exec (.mboxFlit f) s) fun t => t = s)))

/-- Answers reach the requests they belong to: a sector fills the L1, one that an acquire or a store has made stale is dropped, an atomic's lanes receive the old value or the error, a
refused write fails its grid with the fabric's status; a merge list joins its round, a malformed one counts as empty and adds
to DROP; a port that drops makes what is out through it undeliverable (R172, R317, R321, R359, R366, R368, R371, R372). -/
def AnswersMergesAndPortsFollowTheirRules : Prop :=
  ∀ (s : State) (f : Flit) (o : Outst) (port : Nat) (up : Bool),
    let src := f.src.toNat
    let mine := o ∈ s.outst ∧ o.tag = f.tag ∧ o.dst = src ∧ ∀ x ∈ s.outst, x.tag = f.tag → x = o
    let freed := fun (t : State) => ∀ x, x ∈ t.outst ↔ x ∈ s.outst ∧ x.tag ≠ f.tag
    let same := fun (t : State) => ∀ x, t.readLoc x = s.readLoc x
    (∀ core key nc, InTurn s f 3 → mine → o.who = .fill core key nc → f.data.length = 32 →
      (f.stat = 0 → nc = false → core < 200 → key % 32 = 0 → L1Room s core [key / 128] →
        Gives (exec (.rdrspFlit f) s) fun t => Taken s t f ∧ same t ∧ freed t ∧ t.groups = s.groups ∧
        ∀ i, i < 32 → t.l1 core (key + i) = match s.l1 core (key + i) with
          | some b => some (if b.dirty then b else { b with val := f.data.getD i 0, priv := false })
          | none => some { val := f.data.getD i 0, dirty := false, priv := false, loc := .peer src (f.addr / 32 * 32 + i), grid := 0 }) ∧
      ((f.stat ≠ 0 ∨ nc = true) → 200 ≤ core → Gives (exec (.rdrspFlit f) s) fun t => Taken s t f ∧ same t ∧ freed t ∧
        { core, key, code := f.stat, bytes := f.data } ∈ t.peerGot)) ∧
    (InTurn s f 3 → mine → o.who = .gone → Gives (exec (.rdrspFlit f) s) fun t => Taken s t f ∧ freed t ∧
      t = { s with seqIn := t.seqIn, outst := t.outst }) ∧
    (∀ slot entry e r rest (answer : Instr) kind ph old, o.who = .atomic slot entry → mine → InTurn s f kind →
      (answer, kind, ph, old) ∈ [(.atomrspFlit f, 5, f.stat + 2, f.val), (.ackFlit f, 6, 2, f.val), (.nakFlit f, 7, 3, 0)] →
      (s.group slot).sq = e :: rest → e.id = entry → (∀ x ∈ rest, x.id ≠ entry) → e.kind = .atomic r → r.kind = .atomc → (r.lanes.map AtLane.lane).Nodup →
      (∃ x ∈ r.lanes, x.rid ≠ f.tag ∧ x.ph < 2) →
      Gives (exec answer s) fun t => Taken s t f ∧ same t ∧ freed t ∧ (∀ i, i ≠ slot → t.group i = s.group i) ∧
        t.group slot = { s.group slot with sq := { e with sent := true, kind := .atomic { r with
          lanes := r.lanes.map fun x => if x.rid = f.tag ∧ x.ph = 1 then { x with ph := ph, old := old } else x } } :: rest }) ∧
    (∀ grid, o.who = .write grid → mine →
      (InTurn s f 6 → Gives (exec (.ackFlit f) s) fun t => Taken s t f ∧ freed t ∧ t = { s with seqIn := t.seqIn, outst := t.outst }) ∧
      (InTurn s f 7 → Gives (exec (.nakFlit f) s) fun t => Taken s t f ∧ freed t ∧ same t ∧ (∃ e rest, t.cab = e :: rest ∧ e.ty = 8) ∧
        t.grids = s.grids.map fun g => if g.num = grid then { g with fabfail := true } else g)) ∧
    (let tree := f.tree.toNat
     let base := treeReg tree
     let k := fieldOf (s.reg base).toNat 10 8 + 1
     let nin := max 1 (fieldOf (s.reg base).toNat 6 4)
     let on := fieldOf (s.reg base).toNat 0 1 = 1
     let entry := fun i => ((BitVec.ofNat 32 (leNat ((f.data.drop (8 * i)).take 4)), BitVec.ofNat 32 (leNat ((f.data.drop (8 * i + 4)).take 4))) : Word × Word)
     let l := (List.range f.nent.toNat).map entry
     let whole := f.first = 0 ∧ f.count.toNat ≤ f.nent.toNat
     let good := f.km1.toNat + 1 = k ∧ f.nent.toNat ≤ 28 ∧ f.count.toNat = f.nent.toNat ∧ f.count.toNat ≤ k ∧ ∀ x ∈ l, (fmt32.decode x.1.toNat).isNan = false
     let received := if f.km1.toNat + 1 = k ∧ f.nent.toNat ≤ 28 ∧ f.count.toNat = f.nent.toNat ∧ f.count.toNat ≤ k ∧
       l.all (fun x => !(fmt32.decode x.1.toNat).isNan) then l else []
     let round := (s.rounds.find? fun x => x.tree == tree && x.round == f.round.toNat).getD ⟨tree, f.round.toNat, [], []⟩
     let drops := fun (t : State) => fieldOf (t.reg (base + 0x10)).toNat 32 32 = (fieldOf (s.reg (base + 0x10)).toNat 32 32 + if good then 0 else 1) % 2 ^ 32
     InTurn s f 11 →
      (¬on → Gives (exec (.mergeFlit f) s) fun t => Taken s t f ∧ same t ∧ t.rounds = s.rounds ∧ (∃ e rest, t.cab = e :: rest ∧ e.ty = 8) ∧
        fieldOf (t.reg (base + 0x10)).toNat 32 32 = (fieldOf (s.reg (base + 0x10)).toNat 32 32 +
          if f.count.toNat ≤ f.first.toNat + f.nent.toNat then 1 else 0) % 2 ^ 32) ∧
      (on → (∀ x ∈ s.rounds, x.tree = tree → x.round ≠ f.round.toNat) → 64 ≤ (s.rounds.filter fun x => x.tree == tree).length →
        Gives (exec (.mergeFlit f) s) fun t => t = s) ∧
      (on → whole → (round.part.find? fun x => x.1 == src) = none → s.roundRoom tree f.round.toNat = true →
        (round.lists.length + 1 < nin → Gives (exec (.mergeFlit f) s) fun t => Taken s t f ∧ same t ∧ drops t ∧
          (∀ x, (x.tree ≠ tree ∨ x.round ≠ f.round.toNat) → (x ∈ t.rounds ↔ x ∈ s.rounds)) ∧
          ∃ y, y ∈ t.rounds ∧ y.tree = tree ∧ y.round = f.round.toNat ∧ y.lists = round.lists ++ [received]) ∧
        (∀ p, nin ≤ round.lists.length + 1 → fieldOf (s.reg base).toNat 1 1 = 0 → s.behind (fieldOf (s.reg base).toNat 2 4) = some p →
          s.canSend p = true → k ≤ 28 → Gives (exec (.mergeFlit f) s) fun t => Taken s t f ∧ same t ∧ drops t ∧
            (∀ x ∈ t.rounds, x.tree ≠ tree ∨ x.round ≠ f.round.toNat) ∧
            ∃ best g, t.out = .flit g :: s.out ∧ g.kind = 11 ∧ g.dst = BitVec.ofNat 6 p ∧ g.round = f.round ∧ g.tree = f.tree ∧ g.km1.toNat + 1 = k ∧
              g.first = 0 ∧ g.count.toNat = best.length ∧ g.nent.toNat = best.length ∧
              g.data = best.flatMap (fun e => leBytes 4 e.1.toNat ++ leBytes 4 e.2.toNat) ∧
              ((((round.lists ++ [received]).flatten).map Prod.snd).Nodup →
                (∀ x ∈ (round.lists ++ [received]).flatten, (fmt32.decode x.1.toNat).isNan = false) →
                BestOf k (round.lists ++ [received]).flatten best)))) ∧
    (port < 12 → Gives (exec (.fabricPortChange port up) s) fun t =>
      (up = true → t = { s with hub := t.hub }) ∧
      ((up = true ∨ ∀ x ∈ s.outst, (∃ grid, x.who = .write grid) ∨ ∃ id, x.who = .cmd id) → same t ∧ t.groups = s.groups ∧
        (∀ i, i < 64 → (t.reg 0x190008).getLsbD i = if i = 32 + port then up else (s.reg 0x190008).getLsbD i) ∧
        ∀ r, r ≠ 0x190008 → t.reg r = s.reg r) ∧
      (up = false → (∀ x ∈ s.outst, (∃ grid, x.who = .write grid) ∨ ∃ id, x.who = .cmd id) →
        (∀ x, x ∈ t.outst ↔ x ∈ s.outst ∧ t.canSend x.dst = true) ∧
        (∀ (i : Nat) c, s.cmds[i]? = some c → t.cmds[i]? = some (if c.cause = 0 ∧ ∃ x ∈ s.outst, x.who = .cmd c.id ∧ t.canSend x.dst = false
          then { c with cause := 2 } else c)) ∧
        ∀ (i : Nat) g, s.grids[i]? = some g → t.grids[i]? = some (if ∃ x ∈ s.outst, x.who = .write g.num ∧ t.canSend x.dst = false
          then { g with fabfail := true } else g)))

/-- `FlitsOfPeersArePerformedInOrder` and `AnswersMergesAndPortsFollowTheirRules` together. -/
def Obligations.FabricFlitsFollowTheirRules : Prop := FlitsOfPeersArePerformedInOrder ∧ AnswersMergesAndPortsFollowTheirRules
/-! ### Reliability, power, reset and attestation (R364, R373 to R381) -/

/-- One event was recorded, with this type and severity; severity 2 asks for vector 64 (R362, R375). -/
def Recorded (s t : State) (ty sev : Nat) : Prop :=
  ∃ e, t.cab = (e :: s.cab).take 4096 ∧ e.ty = ty ∧ e.sev = sev ∧ e.seq = s.cabSeq ∧ e.stamp = s.us ∧ t.cabSeq = s.cabSeq + 1

/-- A scrub read counts towards its pass and changes no byte; a corrected error counts towards CE and, beyond CELIM, asks for
a replacement; the scrubber is late while its share read lags behind the time elapsed; a CXL port follows its link (R364, R373,
R374, R376). -/
def ScrubbingCountsErrorsAndChangesNoByte : Prop :=
  ∀ (s : State) (sector port : Nat) (fix up : Bool) (size : BitVec 16),
    let cfg := (s.reg 0x1B0000).toNat
    let ce := fieldOf (s.reg 0x1B0010).toNat 0 32
    let celim := fieldOf (s.reg 0x1B0010).toNat 32 32
    let kept := fun (t : State) => t.groups = s.groups ∧ t.poison = s.poison ∧ ∀ a, t.readLoc a = s.readLoc a
    let busy := fieldOf cfg 0 8 ≤ s.sectorQueue sector
    let last := 8388608 * 2048 ≤ s.scrubDone + 1
    ((fieldOf cfg 8 1 = 0 ∨ (fieldOf cfg 32 1 = 0 ∧ busy)) → Gives (exec (.scrubRead sector fix) s) fun t => t = s) ∧
    (fieldOf cfg 8 1 = 1 → (fieldOf cfg 32 1 = 1 ∨ ¬busy) → Gives (exec (.scrubRead sector fix) s) fun t => kept t ∧
      t.scrubDone = (if last then 0 else s.scrubDone + 1) ∧ t.scrubStart = (if last then s.us else s.scrubStart) ∧
      (sector ∈ s.poison → ∃ e rest, t.cab = e :: rest ∧ e.ty = 4 ∧ e.sev = 2) ∧
      (sector ∉ s.poison → fix = false → t.cab = s.cab ∧ t.hub = s.hub) ∧
      (sector ∉ s.poison → fix = true → Recorded s t 4 0 ∧ fieldOf (t.reg 0x1B0010).toNat 0 32 = min (ce + 1) 0xFFFFFFFF ∧
        fieldOf (t.reg 0x1B0010).toNat 32 32 = celim ∧
        (t.reg 0x1B0008).getLsbD 32 = ((s.reg 0x1B0008).getLsbD 32 || decide (celim < ce + 1)))) ∧
    (Gives (exec .scrubCheck s) fun t => t = { s with hub := t.hub } ∧ (∀ r, r ≠ 0x1B0000 → t.reg r = s.reg r) ∧
      ∀ i, i < 64 → (t.reg 0x1B0000).getLsbD i = if i = 32
        then decide (s.scrubDone * (fieldOf cfg 16 16 * 3600000000) < (s.us - s.scrubStart) * (8388608 * 2048)) else (s.reg 0x1B0000).getLsbD i) ∧
    (s.us / 3600000000 ≤ s.hour → Gives (exec .correctedErrorHourEnd s) fun t => t = s) ∧
    (s.hour < s.us / 3600000000 → Gives (exec .correctedErrorHourEnd s) fun t => t = { s with hour := s.us / 3600000000, hub := t.hub } ∧
      (∀ r, r ≠ 0x1B0010 → t.reg r = s.reg r) ∧ fieldOf (t.reg 0x1B0010).toNat 0 32 = 0 ∧ fieldOf (t.reg 0x1B0010).toNat 32 32 = celim) ∧
    (port < 8 → Gives (exec (.cxlLinkChange port up size) s) fun t => kept t ∧ Recorded s t 5 1 ∧
      (∀ r, r ≠ 0x180000 + 8 * port → t.reg r = s.reg r) ∧
      ∀ i, i < 64 → (t.reg (0x180000 + 8 * port)).getLsbD i =
        if i = 1 then up else if 4 ≤ i ∧ i < 20 then size.getLsbD (i - 4) else (s.reg (0x180000 + 8 * port)).getLsbD i)

/-- Above its power limit or at 105 °C the arithmetic clock falls by 100 MHz, not below 800; otherwise it rises again; at
115 °C every clock stops. A core leaves service once no team runs on it, a spare of its die takes its number, and the last
spare asks for a replacement. Resets give registers their reset values and end all work; a warm one keeps the cabinet and
memory (R376, R379, R380). -/
def PowerCoresAndResetsFollowTheirRules : Prop :=
  ∀ (s : State) (watts junction core : Nat),
    let kept := fun (t : State) => t.groups = s.groups ∧ (∀ r, t.reg r = s.reg r) ∧ ∀ a, t.readLoc a = s.readLoc a
    let limit := min (fieldOf (s.reg 0x1C0000).toNat 0 12) 2400
    (junction < 115 → Gives (exec (.powerThrottle watts junction) s) fun t => kept t ∧ t.halted = s.halted ∧ Recorded s t 5 1 ∧
      t.clockMHz = if limit < watts ∨ 105 ≤ junction then max 800 (s.clockMHz - 100) else min 1600 (s.clockMHz + 100)) ∧
    (115 ≤ junction → Gives (exec (.powerThrottle watts junction) s) fun t => kept t ∧ t.halted = true ∧ Recorded s t 5 2) ∧
    (Gives (exec .thermalTrip s) fun t => kept t ∧ t.halted = true ∧ Recorded s t 5 2) ∧
    (let c := s.core core
     let die := core / 100
     let spare := fun k => die * 100 + 96 ≤ k ∧ k < die * 100 + 100 ∧ (s.core k).en = false ∧ (s.core k).num = (Core.reset k).num
     let left := fieldOf (s.reg 0x1B0008).toNat (8 * die) 8
     core < 200 →
      (c.en = false → Gives (exec (.coreDisable core) s) fun t => t = s) ∧
      (∀ i, c.en = true → s.residents core = [i] → (s.team i).st = .stopping → s.mates i = [i] →
        Gives (exec (.coreDisable core) s) fun t => t.team i = { s.team i with hard := true } ∧ t.cores = s.cores ∧ ∀ j, j ≠ i → t.team j = s.team j) ∧
      (c.en = true → s.residents core = [] →
        ((∀ k, ¬spare k) → Gives (exec (.coreDisable core) s) fun t => (t.core core).en = false ∧ (∀ k, k ≠ core → t.core k = s.core k) ∧
          (t.reg 0x1B0008).getLsbD 32 = true ∧ Recorded s t 4 2 ∧ ∀ a, t.readLoc a = s.readLoc a) ∧
        (∀ k, spare k → k ≠ core → (∀ j, j < k → ¬spare j) → Gives (exec (.coreDisable core) s) fun t =>
          (t.core core).en = false ∧ (t.core k).en = true ∧ (t.core k).num = c.num ∧ (∀ j, j ≠ core → j ≠ k → t.core j = s.core j) ∧
          fieldOf (t.reg 0x1B0008).toNat (8 * die) 8 = left - 1 ∧
          (t.reg 0x1B0008).getLsbD 32 = ((s.reg 0x1B0008).getLsbD 32 || decide (left ≤ 1)) ∧ Recorded s t 4 2 ∧ ∀ a, t.readLoc a = s.readLoc a))) ∧
    (let fresh := fun (t : State) => (∀ i, t.group i = Group.reset ∧ t.team i = Team.reset) ∧ t.grids = [] ∧ t.runs = [] ∧ t.cmds = [] ∧ t.nodes = [] ∧
       t.waiters = [] ∧ t.walks = [] ∧ t.tlb = [] ∧ ∀ r, t.reg r = regReset r
     (Gives (exec .coldReset s) fun t => fresh t ∧ t.cab = [] ∧ t.cabSeq = 0 ∧ t.us = 0 ∧ t.halted = false ∧ t.mem = [] ∧ t.hostMem = s.hostMem ∧
       t = { State.reset with agenda := s.agenda, free := s.free, fresh := s.fresh, hostMem := s.hostMem, out := s.out }) ∧
     (Gives (exec .warmReset s) fun t => fresh t ∧ t.cab = s.cab ∧ t.cabSeq = s.cabSeq ∧ t.us = s.us ∧ t.mem = s.mem ∧ t.hostMem = s.hostMem ∧
       ∀ c, c < 200 → (t.core c).base = s.now ∧ (t.core c).l1 = [] ∧ (t.core c).en = (s.core c).en ∧ (t.core c).num = (s.core c).num))

/-- The attestation responder answers GET_VERSION with 1.2 and takes ECDSA P-256 with SHA-256 only; the requests that need
them are refused before; measurements exist for indices 1 to 4; the management port reads sensors, RASSTAT, BOOTSTAT and
the cabinet. Message codes are of the family's protocol (log entry 35), bodies open values (R377, R381). -/
def Obligations.AttestationAndManagementOnlyAnswer : Prop :=
  ∀ (s : State) (asym hash off len nonce idx cmd what : Nat),
    let sends := fun (i : Instr) (o : Out) => Gives (exec i s) fun t => t = { s with out := o :: s.out }
    let after := fun (i : Instr) (code : Nat) => (s.spdmNeg = true → ∃ body, sends i (.spdm code body)) ∧ (s.spdmNeg = false → sends i (.spdm 0x7F [4#8]))
    sends .getVersion (.spdm 0x04 [0x00#8, 0x12#8]) ∧ (∃ body, sends .getCapabilities (.spdm 0x61 body)) ∧
    (asym / 16 % 2 = 1 → hash % 2 = 1 → Gives (exec (.negotiateAlgorithms asym hash) s) fun t => ∃ body,
      t = { s with spdmNeg := true, out := .spdm 0x63 body :: s.out }) ∧
    ((asym / 16 % 2 = 0 ∨ hash % 2 = 0) → sends (.negotiateAlgorithms asym hash) (.spdm 0x7F [1#8])) ∧
    after .getDigests 0x01 ∧ after (.getCertificate off len) 0x02 ∧ after (.challenge nonce) 0x03 ∧
    (1 ≤ idx → idx ≤ 4 → after (.getMeasurements idx) 0x60) ∧
    ((idx = 0 ∨ 4 < idx) → sends (.getMeasurements idx) (.spdm 0x7F [1#8])) ∧
    (∃ body, sends (.mctpControlMessage cmd) (.mctp 0 body)) ∧ (∃ body, sends (.mctpVendorRead 0 idx) (.mctp 1 body)) ∧
    sends (.mctpVendorRead 1 idx) (.mctp 1 (leBytes 8 (s.reg 0x1B0008).toNat ++ leBytes 8 (s.reg 0x1B0010).toNat)) ∧
    sends (.mctpVendorRead 2 idx) (.mctp 1 (leBytes 8 (s.reg 0x1B0018).toNat)) ∧
    (3 ≤ what → sends (.mctpVendorRead what idx) (.mctp 1 ((List.range 32).map fun i => match s.cab.find? fun e => e.seq.toNat % 4096 == idx % 4096 with
      | none => 0
      | some e => (leBytes 1 e.ty ++ leBytes 1 (e.sev % 4) ++ leBytes 2 e.src ++ leBytes 4 e.seq.toNat ++ leBytes 8 e.stamp ++
          leBytes 8 e.d0.toNat ++ leBytes 8 e.d1.toNat).getD i 0)))

/-- `ScrubbingCountsErrorsAndChangesNoByte` and `PowerCoresAndResetsFollowTheirRules` together. -/
def Obligations.ReliabilityPowerAndResetsFollowTheirRules : Prop := ScrubbingCountsErrorsAndChangesNoByte ∧ PowerCoresAndResetsFollowTheirRules
/-! ### The whole machine -/

/-- A word the spec prints, and what the decoder reads from it. -/
def decodesTo (w : BitVec 96) (p : Instr → Bool) : Bool := match decode w with
  | some i => p i
  | none => false

/-- Every well-formed instruction has a word, and decoding that word, or its twelve bytes, gives the instruction back with
every operand (R33 to R54). -/
def Obligations.DecodingAnEncodedInstructionGivesItBack : Prop :=
  ∀ i : Instr, i.wellFormed = true → ∃ w, encode i = some w ∧ decode w = some i ∧
    decodeBytes (wordBytes w) = some (i, []) ∧ decodeTableWord 96 w.toNat = some i

/-- Words the spec prints decode to the instructions it prints them for, and a LIVE word, an opcode outside the map and a
nonzero unused bit decode to none (R33 to R36, R53, R54, R115, R226, R248). -/
def Obligations.PrintedWordsDecode : Prop :=
  decodesTo 0x100700C01C14030000000000 (fun i => i matches .iadd ⟨false, 7, false, false, false, false⟩ _) = true ∧
  decodesTo 0x800702102010470000000000 (fun i => i matches .ld _ _) = true ∧
  decodesTo 0x801702406000270000004000 (fun i => i matches .st _ _) = true ∧
  decodesTo 0xA097000004512A0000000000 (fun i => i matches .qpush _ _) = true ∧
  decodesTo 0xB12700000C00000000000500 (fun i => i matches .wload _ _) = true ∧
  decodesTo 0xC08705004020000000000000 (fun i => i matches .isect _ _) = true ∧
  decodesTo 0xD01741110000010000000000 (fun i => i matches .xgath _ _) = true ∧
  decodesTo 0x008700000000000000014F00 (fun i => i matches .rep _ ⟨15, 1, 1, 0, 0⟩) = true ∧
  decodesTo 0x402708000410000000000000 (fun i => i matches .fmul _ _) = true ∧
  decodesTo 0xB00708008418000000302000 (fun i => i matches .mmaF4b _ _) = true ∧
  decodesTo 0x001100000000000000001400 (fun i => i matches .bra ⟨false, 1, false, false, false, false⟩ _) = true ∧
  decodesTo 0x007705000000010000002700 (fun i => i matches .meetSave _ _) = true ∧
  decodesTo 0x600701402000090000010800 (fun i => i matches .cvt _ _) = true ∧
  decode 0xFFF000000030000000102000 = none ∧ decode 0xE00700000000000000000000 = none ∧ decode 0x100700C01C14030000000001 = none

/-- After reset no work exists, memory lists nothing and is in its form, every register has its reset value, STEPVAL and the
counters are zero, and the first 96 cores of each die are enabled. Values the spec gives no reset for are the model's
choice: log entries 5, 6, 8 and 9 (R6, R80, R268, R334, R366, R374, R376, R379, R380). -/
def Obligations.ResetGivesEveryRegisterItsValue : Prop :=
  let s := State.reset
  Safety.memOk s = true ∧ s.mem = [] ∧ s.grids = [] ∧ s.cmds = [] ∧ s.waiters = [] ∧ s.halted = false ∧ s.cab = [] ∧
  (∀ i, s.group i = Group.reset ∧ (s.group i).trapcause = 0 ∧ (s.group i).fstat = 0 ∧ s.team i = Team.reset) ∧
  (∀ q, q < 64 → s.reg (0x100008 + 0x40 * q) = 2 ∧ s.reg (0x100020 + 0x40 * q) = 3 ∧ s.reg (0x100010 + 0x40 * q) = 0) ∧
  (∀ n, n < 256 → s.reg (0x110000 + 0x10 * n) = 0) ∧ s.reg 0x120000 = 200 ∧ s.reg 0x130000 = 0 ∧ s.reg 0x130008 = 0 ∧ s.reg 0x130018 = 0 ∧
  (∀ k, k < 8 → s.reg (0x150000 + 0x100 * k) = 0x01000800 ∧ s.reg (0x150008 + 0x100 * k) = 0xFFFFFFFF ∧ s.reg (0x170000 + 8 * k) = 0 ∧
    s.reg (0x180000 + 8 * k) = 0) ∧
  s.reg 0x160000 = 0 ∧ s.reg 0x160010 = 8000 ∧ s.reg 0x160018 = 0 ∧ s.reg 0x190000 = 0 ∧ s.reg 0x190008 = 1600000 ∧ s.reg 0x1B0000 = 0x180110 ∧
  s.reg 0x1B0008 = 0x404 ∧ s.reg 0x1B0010 = 0x186A000000000 ∧ s.reg 0x1C0000 = 2400 ∧
  (∀ c, c < 200 → (s.core c).en = decide (c % 100 < 96) ∧ (s.core c).l1 = []) ∧ (∀ p, s.stepOf p = 0) ∧ s.us = 0

/-- A step keeps every memory in its canonical form: addresses rise, and no entry holds what an unlisted byte reads as, in
device memory, host memory, scratchpads and supervisor areas. -/
def Obligations.EveryStepKeepsMemoryInItsForm : Prop :=
  ∀ s t : State, Safety.memOk s = true → step s = .next t → Safety.memOk t = true

/-- A step stops only while the clocks do: it faults exactly then, unless a cold reset is chosen, and refuses nothing; every
instruction and every step of the device has a next state (R379). -/
def Obligations.AStepStopsOnlyWithTheClocks : Prop :=
  (∀ (i : Instr) (s : State), ∃ t, exec i s = .next t) ∧
  ∀ s : State, let cold := s.agenda.head? = some (.event .coldReset) ∨ ∃ images, s.agenda.head? = some (.boot images)
    (s.halted = true → ¬cold → step s = .fault .clocksStopped) ∧ ((s.halted = false ∨ cold) → ∃ t, step s = .next t)

/-- A step chosen for a group executes the instruction that the buffered word at its candidate's PC decodes to, or the next
repeat of its REP, and then settles; a step chosen for an event performs that row; a word that R53 makes illegal traps with
its lowest detail before any effect, and PC ≥ CODELEN with detail 1 (R14, R46, R51, R53, R99, R101). -/
def Obligations.AStepRunsTheDecodedInstruction : Prop :=
  ∀ (s : State) (slot : Nat) (rest : List Action),
    let s1 := { s with agenda := rest }
    let g := s.group slot
    let k := (s.grid (s.team g.tid).grid).k
    let stop := fun (sup : Bool) => if sup then 16 * fieldOf (s.reg 0x160020).toNat 52 12 else k.codelen
    let runs := fun (c : Cur) (others : Mask) (i : Instr) => ∃ port w, let b := (s1.beginIssue c others i).takePort (slotPart slot) (port, slot, w)
      (step s = match exec i b with
        | .next t => .next (State.settle b t)
        | .fault r => .fault r
        | .refused r => .refused r) ∧
      b.cur = c ∧ (∀ l j, (b.curG.vreg l j = g.vreg l j) ∧ predOf (b.curG.lane l) j = predOf (g.lane l) j ∧ (b.curG.lane l).pc = (g.lane l).pc) ∧
      (∀ j, b.curG.ureg j = g.ureg j) ∧ ∀ a, b.readLoc a = s.readLoc a
    s.halted = false →
    (∀ i t, s.agenda = .event i :: rest → i.isWord = false → exec i s1 = .next t → step s = .next (State.settle s1 t)) ∧
    (s.agenda = .issue slot :: rest → s1.mayTake slot = true →
      (∀ u w i, s1.repReady slot = false → s1.candidate slot = some u → g.word? u.sup u.pc = some (.word w) → u.pc < stop u.sup →
        (u.sup = true → s.svStd = false ∨ g.trapvec.toNat ≠ fieldOf (s.reg 0x160020).toNat 0 52) →
        decode w = some i → spansOk k i = true → (∀ h o, i ≠ .rep h o) →
        (wSafe w = false → runs ⟨slot, u.mask, BitVec.ofNat 24 u.pc, BitVec.ofNat 24 (u.pc + 1), none, none, false⟩ u.others i) ∧
        (∀ v, wSafe w = true → u.pc + 1 < stop u.sup → g.word? u.sup (u.pc + 1) = some (.word v) → liveBad k v = false →
          runs ⟨slot, u.mask, BitVec.ofNat 24 u.pc, BitVec.ofNat 24 (u.pc + 2), none, some v, false⟩ u.others i)) ∧
      (∀ r w i, s1.repReady slot = true → g.rep = some r → stepWord r.word r.k r.sd r.sa r.sb r.sc = some w → decode w = some i → spansOk k i = true →
        (∀ v, r.live = some v → liveBad k v = false) →
        let n := if r.k = r.countM1 then (if wSafe w then 3 else 2) else 0
        runs ⟨slot, r.mask, r.pc, BitVec.ofNat 24 (r.pc.toNat + n), some r.k, if r.k = r.countM1 then r.live else none, false⟩ (g.othersOf r.mask) i) ∧
      (∀ u d, s1.repReady slot = false → s1.candidate slot = some u → NoRoutine g → AtRest s → u.sup = false → u.pc < 2 ^ 24 →
        ((stop u.sup ≤ u.pc ∧ d = 1) ∨
         (u.pc < stop u.sup ∧ ∃ w, g.word? u.sup u.pc = some (.word w) ∧ wSafe w = false ∧ wOpc w ≠ 0x008 ∧
           let broken := (Raw.ofBits w).details ++ (match instrOf (Raw.ofBits w) with
             | some i => if spansOk k i then [] else [6]
             | none => [])
           d ∈ broken ∧ ∀ e ∈ broken, d ≤ e)) →
        ∃ t, step s = .next t ∧ (∀ a, t.readLoc a = s.readLoc a) ∧ let g' := t.group slot
          g'.trapcause = BitVec.ofNat 32 (1 + 256 * d + 2 ^ 24 * (slot % 192)) ∧ g'.trappc = BitVec.ofNat 24 u.pc ∧ g'.trapaddr = BitVec.ofNat 56 u.pc ∧
          (∀ j, g'.ureg j = g.ureg j) ∧ g'.lanes.length = g.lanes.length ∧ ∀ l, l < g.lanes.length → l < 64 →
            (∀ j, g'.vreg l j = g.vreg l j) ∧ (∀ j, predOf (g'.lane l) j = predOf (g.lane l) j) ∧
            (g'.lane l).pc = (if u.mask.getLsbD l then 0x10#24 else (g.lane l).pc) ∧ (g'.lane l).sup = (u.mask.getLsbD l || (g.lane l).sup)))
end

