-- ==== Sys2Proof/Laws/Table.lean ====
section
/-! SUPPORT. Laws of sparse tables: a read after a write, writes to other keys, and that every write keeps the
canonical form. -/

namespace Sys2Proof

theorem Tab.get_del {α : Type} (d : α) (t : Tab α) (k j : Nat) :
    Tab.get d (Tab.del t k) j = if j = k then d else Tab.get d t j := by
  induction t with
  | nil => simp [Tab.del, Tab.get]
  | cons e t ih =>
    obtain ⟨i, v⟩ := e
    by_cases h : i = k
    · subst h
      simp only [Tab.del, if_true, ih, Tab.get]
      by_cases hj : j = i
      · simp [hj]
      · simp [hj, Ne.symm hj]
    · by_cases hi : i = j
      · subst hi; simp [Tab.del, Tab.get, h]
      · simp [Tab.del, Tab.get, h, hi, ih]

theorem Tab.mem_del {α : Type} {t : Tab α} {k : Nat} {e : Nat × α} :
    e ∈ Tab.del t k ↔ e ∈ t ∧ e.1 ≠ k := by
  induction t with
  | nil => simp [Tab.del]
  | cons x t ih =>
    obtain ⟨i, v⟩ := x
    by_cases h : i = k
    · simp only [Tab.del, h, if_true, ih, List.mem_cons]
      constructor
      · rintro ⟨a, b⟩; exact ⟨.inr a, b⟩
      · rintro ⟨rfl | a, b⟩
        · exact absurd rfl b
        · exact ⟨a, b⟩
    · simp only [Tab.del, h, if_false, ih, List.mem_cons]
      constructor
      · rintro (rfl | ⟨a, b⟩)
        · exact ⟨.inl rfl, h⟩
        · exact ⟨.inr a, b⟩
      · rintro ⟨rfl | a, b⟩
        · exact .inl rfl
        · exact .inr ⟨a, b⟩

theorem Tab.get_ins {α : Type} (d : α) (t : Tab α) (k j : Nat) (v : α) (h : ∀ e ∈ t, e.1 ≠ k) :
    Tab.get d (Tab.ins t k v) j = if j = k then v else Tab.get d t j := by
  induction t with
  | nil => by_cases hj : k = j <;> simp [Tab.ins, Tab.get, hj, eq_comm]
  | cons e t ih =>
    obtain ⟨i, w⟩ := e
    have hi : i ≠ k := h (i, w) (by simp)
    have ih := ih fun e he => h e (by simp [he])
    by_cases hk : k < i
    · simp only [Tab.ins, hk, if_true, Tab.get, eq_comm (a := k)]
    · by_cases hj : i = j
      · subst hj; simp [Tab.ins, Tab.get, hk, hi]
      · simp [Tab.ins, Tab.get, hk, hj, ih]

/-- What a table reads after one write: the value at the key, everything else as before. -/
theorem Tab.get_set {α : Type} [DecidableEq α] (d : α) (t : Tab α) (k j : Nat) (v : α) :
    Tab.get d (Tab.set d t k v) j = if j = k then v else Tab.get d t j := by
  unfold Tab.set
  split
  · rw [Tab.get_del]; split <;> simp_all
  · rw [Tab.get_ins _ _ _ _ _ (fun e he => (Tab.mem_del.1 he).2), Tab.get_del]
    split <;> simp_all

@[simp] theorem Tab.get_set_self {α : Type} [DecidableEq α] (d : α) (t : Tab α) (k : Nat) (v : α) :
    Tab.get d (Tab.set d t k v) k = v := by simp [Tab.get_set]

theorem Tab.get_set_ne {α : Type} [DecidableEq α] (d : α) (t : Tab α) {k j : Nat} (v : α) (h : j ≠ k) :
    Tab.get d (Tab.set d t k v) j = Tab.get d t j := by simp [Tab.get_set, h]

/-- Reading another key after a write, with any default. -/
theorem Tab.set_get_other {α : Type} [DecidableEq α] (d e : α) (t : Tab α) (k j : Nat) (v : α) (h : j ≠ k) :
    Tab.get e (Tab.set d t k v) j = Tab.get e t j := by
  unfold Tab.set
  split
  · rw [Tab.get_del, if_neg h]
  · rw [Tab.get_ins _ _ _ _ _ (fun x hx => (Tab.mem_del.1 hx).2), if_neg h, Tab.get_del, if_neg h]

@[simp] theorem Tab.get_nil {α : Type} (d : α) (k : Nat) : Tab.get d [] k = d := rfl

/-! ### The canonical form -/

theorem Tab.wf_iff {α : Type} [DecidableEq α] (d : α) (t : Tab α) :
    Tab.wf d t = true ↔ t.Pairwise (fun a b => a.1 < b.1) ∧ ∀ e ∈ t, e.2 ≠ d := by
  simp [Tab.wf, List.all_eq_true]

theorem Tab.del_sublist {α : Type} (t : Tab α) (k : Nat) : (Tab.del t k).Sublist t := by
  induction t with
  | nil => simp [Tab.del]
  | cons e t ih =>
    by_cases h : e.1 = k
    · simpa [Tab.del, h] using ih.cons e
    · simpa [Tab.del, h] using ih.cons_cons e

theorem Tab.mem_ins {α : Type} {t : Tab α} {k : Nat} {v : α} {e : Nat × α} :
    e ∈ Tab.ins t k v ↔ e = (k, v) ∨ e ∈ t := by
  induction t with
  | nil => simp [Tab.ins]
  | cons x t ih =>
    obtain ⟨i, w⟩ := x
    by_cases h : k < i
    · simp [Tab.ins, h]
    · simp only [Tab.ins, h, if_false, List.mem_cons, ih]
      constructor
      · rintro (a | a | a) <;> simp [a]
      · rintro (a | a | a) <;> simp [a]

theorem Tab.ins_pairwise {α : Type} {t : Tab α} {k : Nat} {v : α}
    (ht : t.Pairwise fun a b => a.1 < b.1) (hk : ∀ e ∈ t, e.1 ≠ k) :
    (Tab.ins t k v).Pairwise fun a b => a.1 < b.1 := by
  induction t with
  | nil => simp [Tab.ins]
  | cons x t ih =>
    obtain ⟨i, w⟩ := x
    rw [List.pairwise_cons] at ht
    by_cases h : k < i
    · simp only [Tab.ins, h, if_true, List.pairwise_cons, List.mem_cons]
      refine ⟨?_, ht⟩
      rintro e (rfl | he)
      · exact h
      · exact Nat.lt_trans h (ht.1 e he)
    · simp only [Tab.ins, h, if_false, List.pairwise_cons]
      refine ⟨fun e he => ?_, ih ht.2 fun e he => hk e (by simp [he])⟩
      rcases Tab.mem_ins.1 he with rfl | he
      · have := hk (i, w) (by simp)
        simp only at this ⊢; omega
      · exact ht.1 e he

/-- A write keeps the canonical form. -/
theorem Tab.set_wf {α : Type} [DecidableEq α] {d : α} {t : Tab α} (k : Nat) (v : α) (h : Tab.wf d t = true) :
    Tab.wf d (Tab.set d t k v) = true := by
  rw [Tab.wf_iff] at h ⊢
  have hd : (Tab.del t k).Pairwise (fun a b => a.1 < b.1) := h.1.sublist (Tab.del_sublist t k)
  unfold Tab.set
  split
  · exact ⟨hd, fun e he => h.2 e (Tab.mem_del.1 he).1⟩
  · refine ⟨Tab.ins_pairwise hd fun e he => (Tab.mem_del.1 he).2, fun e he => ?_⟩
    rcases Tab.mem_ins.1 he with rfl | he
    · assumption
    · exact h.2 e (Tab.mem_del.1 he).1

theorem Tab.setSeq_wf {α : Type} [DecidableEq α] {d : α} (vs : List α) :
    ∀ {t : Tab α} (k : Nat), Tab.wf d t = true → Tab.wf d (Tab.setSeq d t k vs) = true := by
  induction vs with
  | nil => exact fun _ h => h
  | cons v vs ih => exact fun k h => ih (k + 1) (Tab.set_wf k v h)

/-- Reading after writing consecutive keys. -/
theorem Tab.get_setSeq {α : Type} [DecidableEq α] (d : α) (vs : List α) :
    ∀ (t : Tab α) (k j : Nat), Tab.get d (Tab.setSeq d t k vs) j =
      if k ≤ j ∧ j < k + vs.length then vs.getD (j - k) d else Tab.get d t j := by
  induction vs with
  | nil => intro t k j; rw [Tab.setSeq, List.length_nil, if_neg (by omega)]
  | cons v vs ih =>
    intro t k j
    rw [Tab.setSeq, ih, Tab.get_set]
    by_cases h1 : j = k
    · subst h1
      rw [if_neg (by omega), if_pos rfl, if_pos (by simp)]; simp
    · by_cases h2 : k + 1 ≤ j ∧ j < k + 1 + vs.length
      · have h3 : k ≤ j ∧ j < k + (v :: vs).length := by simp; omega
        have h4 : j - k = (j - (k + 1)) + 1 := by omega
        rw [if_pos h2, if_pos h3, h4]; simp
      · have h3 : ¬(k ≤ j ∧ j < k + (v :: vs).length) := by simp; omega
        rw [if_neg h2, if_neg h1, if_neg h3]

end Sys2Proof
end

