-- ==== Sys2Proof/Laws/Lanes.lean ====
section
/-! SUPPORT. Laws of groups and lanes: reading back the group of the issue, lanes after an update, and what the
instructions that work lane by lane change. -/

namespace Sys2Proof.Machine
open Sys2Proof.Safety

/-! ### The group of the issue in progress -/

@[simp] theorem State.group_setGroup (s : State) (i j : Nat) (g : Group) :
    (s.setGroup i g).group j = if j = i then g else s.group j := by
  simp [State.setGroup, State.group, Tab.get_set]

@[simp] theorem State.setGroup_cur (s : State) (i : Nat) (g : Group) : (s.setGroup i g).cur = s.cur := rfl
@[simp] theorem State.setCurG_cur (s : State) (g : Group) : (s.setCurG g).cur = s.cur := rfl
@[simp] theorem State.curG_setCurG (s : State) (g : Group) : (s.setCurG g).curG = g := by
  simp [State.setCurG, State.curG]

theorem Tab.del_ins_self {α : Type} (t : Tab α) (k : Nat) (v : α) (h : ∀ e ∈ t, e.1 ≠ k) :
    Tab.del (Tab.ins t k v) k = t := by
  induction t with
  | nil => simp [Tab.ins, Tab.del]
  | cons e t ih =>
    obtain ⟨i, w⟩ := e
    have hi : i ≠ k := h (i, w) (by simp)
    have hd : Tab.del t k = t := by
      have := fun e he => h e (List.mem_cons_of_mem _ he)
      clear ih h
      induction t with
      | nil => rfl
      | cons x t iht => simp [Tab.del, this x (by simp), iht fun e he => this e (by simp [he])]
    by_cases hk : k < i
    · simp [Tab.ins, hk, Tab.del, hi, hd]
    · simp [Tab.ins, hk, Tab.del, hi, ih fun e he => h e (by simp [he])]

theorem Tab.del_del {α : Type} (t : Tab α) (k : Nat) : Tab.del (Tab.del t k) k = Tab.del t k := by
  induction t with
  | nil => rfl
  | cons e t ih => by_cases h : e.1 = k <;> simp [Tab.del, h, ih]

/-- Writing one key twice leaves the second value. -/
theorem Tab.set_set {α : Type} [DecidableEq α] (d : α) (t : Tab α) (k : Nat) (v w : α) :
    Tab.set d (Tab.set d t k v) k w = Tab.set d t k w := by
  have h : Tab.del (Tab.set d t k v) k = Tab.del t k := by
    unfold Tab.set
    split
    · exact Tab.del_del t k
    · exact Tab.del_ins_self _ _ _ fun e he => (Tab.mem_del.1 he).2
  show (if w = d then _ else Tab.ins _ _ _) = (if w = d then _ else Tab.ins _ _ _)
  rw [h]

@[simp] theorem State.setCurG_setCurG (s : State) (g k : Group) : (s.setCurG g).setCurG k = s.setCurG k := by
  simp [State.setCurG, State.setGroup, Tab.set_set]

@[simp] theorem State.readLoc_setGroup (s : State) (i : Nat) (g : Group) (a : Loc) :
    (s.setGroup i g).readLoc a = s.readLoc a := by cases a <;> rfl
@[simp] theorem State.readLoc_setCurG (s : State) (g : Group) (a : Loc) :
    (s.setCurG g).readLoc a = s.readLoc a := by cases a <;> rfl

/-! ### Lanes -/

theorem mapLanes_length (f : Nat → Lane → Lane) : ∀ (n : Nat) (xs : List Lane), (mapLanes f n xs).length = xs.length
  | _, [] => rfl
  | n, _ :: xs => by simp [mapLanes, mapLanes_length f (n + 1) xs]

theorem mapLanes_getD (f : Nat → Lane → Lane) : ∀ (n : Nat) (xs : List Lane) (l : Nat),
    (mapLanes f n xs).getD l Lane.reset = if l < xs.length then f (n + l) (xs.getD l Lane.reset) else Lane.reset
  | _, [], l => by simp [mapLanes]
  | n, x :: xs, 0 => by simp [mapLanes]
  | n, x :: xs, l + 1 => by
    have := mapLanes_getD f (n + 1) xs l
    simp only [mapLanes, List.getD_cons_succ, this, List.length_cons, Nat.add_lt_add_iff_right]
    simp [Nat.add_assoc, Nat.add_comm 1 l]

@[simp] theorem Group.withLanes_length (g : Group) (f : Nat → Lane → Lane) :
    (g.withLanes f).lanes.length = g.lanes.length := mapLanes_length f 0 g.lanes

theorem Group.lane_withLanes (g : Group) (f : Nat → Lane → Lane) (l : Nat) :
    (g.withLanes f).lane l = if l < g.lanes.length then f l (g.lane l) else Lane.reset := by
  simp only [Group.withLanes, Group.lane, mapLanes_getD, Nat.zero_add]

theorem Group.lane_of_le (g : Group) {l : Nat} (h : g.lanes.length ≤ l) : g.lane l = Lane.reset := by
  simp [Group.lane, List.getD, h]

@[simp] theorem Group.modLane_length (g : Group) (l : Nat) (f : Lane → Lane) :
    (g.modLane l f).lanes.length = g.lanes.length := Group.withLanes_length _ _
@[simp] theorem Group.onMask_length (g : Group) (m : Mask) (f : Lane → Lane) :
    (g.onMask m f).lanes.length = g.lanes.length := Group.withLanes_length _ _

theorem Group.lane_modLane (g : Group) (k : Nat) (f : Lane → Lane) (l : Nat) :
    (g.modLane k f).lane l = if l = k ∧ l < g.lanes.length then f (g.lane l) else g.lane l := by
  rw [Group.modLane, Group.lane_withLanes]
  by_cases h : l < g.lanes.length
  · simp only [h, if_true, and_true]
  · simp [h, Group.lane_of_le g (Nat.le_of_not_lt h)]

theorem Group.lane_onMask (g : Group) (m : Mask) (f : Lane → Lane) (l : Nat) :
    (g.onMask m f).lane l = if m.getLsbD l ∧ l < g.lanes.length then f (g.lane l) else g.lane l := by
  rw [Group.onMask, Group.lane_withLanes]
  by_cases h : l < g.lanes.length
  · simp only [h, if_true, and_true]
  · simp [h, Group.lane_of_le g (Nat.le_of_not_lt h)]

theorem mem_activeLanes {s : State} {h : Hdr} {l : Nat} :
    l ∈ activeLanes s h ↔ l < s.curG.lanes.length ∧ activeLane s h l = true := by
  simp [activeLanes]

theorem activeLanes_nodup (s : State) (h : Hdr) : (activeLanes s h).Nodup :=
  List.nodup_range.filter _

/-! ### Advancing -/

theorem State.curG_advance (s : State) : s.advance.curG = s.curG.onMask s.cur.mask (laneAdvance s.cur) := by
  simp [State.advance]

@[simp] theorem State.advance_cur (s : State) : s.advance.cur = s.cur := rfl

/-! ### Destinations -/

/-- The parts of a group that writing destinations leaves alone. -/
def Group.SameRest (g k : Group) : Prop := k = { g with lanes := k.lanes, s := k.s, fstat := k.fstat }

/-- A group after register writes: the same but for lanes' vector registers and predicates, uniform registers, FSTAT. -/
structure Group.RegsOnly (g k : Group) : Prop where
  rest : Group.SameRest g k
  size : k.lanes.length = g.lanes.length
  lane : ∀ l, k.lane l = { g.lane l with v := (k.lane l).v, p := (k.lane l).p }

theorem Group.RegsOnly.rfl' (g : Group) : Group.RegsOnly g g := ⟨rfl, rfl, fun _ => rfl⟩

theorem Group.RegsOnly.trans {g k m : Group} (a : Group.RegsOnly g k) (b : Group.RegsOnly k m) :
    Group.RegsOnly g m := by
  refine ⟨?_, b.size.trans a.size, fun l => ?_⟩
  · have h1 := a.rest; have h2 := b.rest
    unfold Group.SameRest at *
    rw [h2, h1]
  · rw [b.lane l, a.lane l]

theorem Group.RegsOnly.dst (g : Group) (o : Opnd) (l : Nat) (w : Word) : Group.RegsOnly g (dst g o l w) := by
  cases o with
  | vec i =>
    refine ⟨rfl, Group.modLane_length _ _ _, fun m => ?_⟩
    simp only [Machine.dst, Group.setV, Group.lane_modLane]; split <;> rfl
  | uni i => exact ⟨rfl, rfl, fun _ => rfl⟩
  | spc i =>
    refine ⟨rfl, Group.modLane_length _ _ _, fun m => ?_⟩
    simp only [Machine.dst, Group.lane_modLane]
    split
    · unfold Lane.setP; split <;> rfl
    · rfl
  | con i => exact Group.RegsOnly.rfl' g

theorem Group.RegsOnly.dstSpan (ws : List Word) : ∀ (g : Group) (o : Opnd) (l : Nat),
    Group.RegsOnly g (dstSpan g o l ws) := by
  induction ws with
  | nil => intro g o l; exact Group.RegsOnly.rfl' g
  | cons w ws ih => intro g o l; exact (Group.RegsOnly.dst g o l w).trans (ih _ _ _)

theorem Group.RegsOnly.raise (g : Group) (f : Fl) : Group.RegsOnly g (g.raise f) := ⟨rfl, rfl, fun _ => rfl⟩

theorem Group.RegsOnly.writeRes (d : Opnd) (rs : List (Nat × LaneRes)) : ∀ g, Group.RegsOnly g (writeRes d g rs) := by
  induction rs with
  | nil => intro g; exact Group.RegsOnly.rfl' g
  | cons r rs ih =>
    intro g
    exact ((Group.RegsOnly.dstSpan _ _ _ _).trans (Group.RegsOnly.raise _ _)).trans (ih _)

@[simp] theorem dst_fstat (g : Group) (o : Opnd) (l : Nat) (w : Word) : (dst g o l w).fstat = g.fstat := by
  cases o <;> rfl
@[simp] theorem dstSpan_fstat (ws : List Word) : ∀ (g : Group) (o : Opnd) (l : Nat),
    (dstSpan g o l ws).fstat = g.fstat := by
  induction ws with
  | nil => intros; rfl
  | cons w ws ih => intro g o l; simp [dstSpan, ih]

theorem writeRes_fstat (d : Opnd) (rs : List (Nat × LaneRes)) : ∀ g,
    (writeRes d g rs).fstat = rs.foldl (fun f r => f ||| r.2.2) g.fstat := by
  induction rs with
  | nil => intro g; rfl
  | cons r rs ih => intro g; simp [writeRes, ih, Group.raise]

/-! ### Spans -/

theorem spanAt_none {ws : List Word} : ∀ {i : BitVec 8} {j : Nat},
    (∀ k, k < ws.length → j ≠ (i + BitVec.ofNat 8 k).toNat) → spanAt i ws j = none := by
  induction ws with
  | nil => intros; rfl
  | cons w ws ih =>
    intro i j h
    have h0 := h 0 (by simp)
    simp only [BitVec.add_zero] at h0
    rw [spanAt, if_neg h0]
    refine ih fun k hk => ?_
    have := h (k + 1) (by simpa using hk)
    rwa [show i + 1#8 + BitVec.ofNat 8 k = i + BitVec.ofNat 8 (k + 1) by
      rw [BitVec.add_assoc]; congr 1; simp [BitVec.ofNat_add, BitVec.add_comm]]

theorem spanAt_next_self {ws : List Word} {i : BitVec 8} (h : ws.length < 256) : spanAt (i + 1#8) ws i.toNat = none := by
  refine spanAt_none fun k hk => ?_
  intro e
  have e := congrArg (BitVec.ofNat 8) e
  simp only [BitVec.ofNat_toNat, BitVec.setWidth_eq] at e
  have hk' : (1 + BitVec.ofNat 8 k : BitVec 8) = 0 := by
    have : i + 0 = i + (1 + BitVec.ofNat 8 k) := by rw [← BitVec.add_assoc]; simpa using e
    exact (BitVec.add_right_inj i).mp this |>.symm
  have := congrArg BitVec.toNat hk'
  simp [BitVec.toNat_add] at this
  omega

theorem Group.vreg_dst_vec (g : Group) (i : BitVec 8) (l m j : Nat) (w : Word) :
    (dst g (.vec i) l w).vreg m j =
      if m = l ∧ m < g.lanes.length ∧ j = i.toNat then w else g.vreg m j := by
  simp only [dst, Group.setV, Group.vreg, Group.lane_modLane]
  by_cases h : m = l ∧ m < g.lanes.length
  · rw [if_pos h, Lane.setV, Tab.get_set]
    simp only [h.1, h.1 ▸ h.2, true_and]
  · rw [if_neg h, if_neg]
    rintro ⟨a, b, _⟩; exact h ⟨a, b⟩

theorem Group.vreg_dstSpan_vec (ws : List Word) : ∀ (g : Group) (i : BitVec 8) (l m j : Nat), ws.length ≤ 256 →
    (dstSpan g (.vec i) l ws).vreg m j =
      if m = l ∧ m < g.lanes.length then (spanAt i ws j).getD (g.vreg m j) else g.vreg m j := by
  induction ws with
  | nil => intro g i l m j _; simp [dstSpan, spanAt]
  | cons w ws ih =>
    intro g i l m j hw
    have hw' : ws.length < 256 := by simp at hw; omega
    rw [dstSpan, Opnd.plus, ih _ _ _ _ _ (by omega), Group.vreg_dst_vec]
    rw [(Group.RegsOnly.dst g (.vec i) l w).size]
    by_cases hm : m = l ∧ m < g.lanes.length
    · simp only [if_pos hm, spanAt]
      by_cases hj : j = i.toNat
      · subst hj; simp [spanAt_next_self hw', hm.1, hm.1 ▸ hm.2]
      · simp [hj]
    · have : ¬(m = l ∧ m < g.lanes.length ∧ j = i.toNat) := fun h => hm ⟨h.1, h.2.1⟩
      simp [hm, this]

theorem Group.ureg_dstSpan_uni (ws : List Word) : ∀ (g : Group) (i : BitVec 8) (l j : Nat), ws.length ≤ 256 →
    (dstSpan g (.uni i) l ws).ureg j = (spanAt i ws j).getD (g.ureg j) := by
  induction ws with
  | nil => intro g i l j _; simp [dstSpan, spanAt]
  | cons w ws ih =>
    intro g i l j hw
    have hw' : ws.length < 256 := by simp at hw; omega
    rw [dstSpan, Opnd.plus, ih _ _ _ _ (by omega)]
    simp only [dst, Group.setU, Group.ureg, Tab.get_set, spanAt, BitVec.ofNat_eq_ofNat]
    by_cases hj : j = i.toNat
    · subst hj; simp [spanAt_next_self hw']
    · simp [hj]

/-- Writing a destination that is not a vector register keeps the vector registers. -/
theorem Group.vreg_dstSpan_other (ws : List Word) : ∀ (g : Group) (o : Opnd) (l m j : Nat), (∀ i, o ≠ .vec i) →
    (dstSpan g o l ws).vreg m j = g.vreg m j := by
  induction ws with
  | nil => intros; rfl
  | cons w ws ih =>
    intro g o l m j h
    have h' : ∀ i, Opnd.plus o 1 ≠ .vec i := by
      cases o <;> simp_all [Opnd.plus]
    rw [dstSpan, ih _ _ _ _ _ h']
    cases o with
    | vec i => exact absurd rfl (h i)
    | uni i => rfl
    | spc i =>
      simp only [dst, Group.vreg, Group.lane_modLane]
      split
      · unfold Lane.setP; split <;> rfl
      · rfl
    | con i => rfl

theorem Group.ureg_dstSpan_other (ws : List Word) : ∀ (g : Group) (o : Opnd) (l j : Nat), (∀ i, o ≠ .uni i) →
    (dstSpan g o l ws).ureg j = g.ureg j := by
  induction ws with
  | nil => intros; rfl
  | cons w ws ih =>
    intro g o l j h
    have h' : ∀ i, Opnd.plus o 1 ≠ .uni i := by
      cases o <;> simp_all [Opnd.plus]
    rw [dstSpan, ih _ _ _ _ h']
    cases o <;> first | rfl | exact absurd rfl (h _)

end Sys2Proof.Machine
end

