-- ==== Sys2Proof/Laws/Alu.lean ====
section
/-! SUPPORT. What an instruction that works lane by lane does, once for all of them: `perLane_writes`; and the laws of
writing the results of the active lanes it rests on. -/

namespace Sys2Proof.Machine
open Sys2Proof.Safety

/-! ### Predicates -/

theorem Lane.setP_p (x : Lane) (i : Nat) (b : Bool) (k : Nat) (hk : k < 7) (hi : i < 7) :
    (x.setP i b).p.getLsbD k = if k = i then b else x.p.getLsbD k := by
  rw [show x.setP i b = { x with p := if b then x.p ||| (1#7 <<< i) else x.p &&& ~~~(1#7 <<< i) } by
    simp only [Lane.setP, hi, if_true]]
  have h1 : ((1#7 <<< i).getLsbD k) = decide (k = i) := by
    simp only [BitVec.getLsbD_shiftLeft, BitVec.getLsbD_one]
    by_cases h : k = i
    · subst h; simp [hk]
    · have : ¬(k - i = 0 ∧ ¬ k < i) := by omega
      by_cases h2 : k < i
      · simp [h, h2]
      · have : k - i ≠ 0 := by omega
        simp [h, h2, this]
  have hd : decide (k < 7) = true := by simp [hk]
  cases b
  · simp only [Bool.false_eq_true, if_false, BitVec.getLsbD_and, BitVec.getLsbD_not, h1, hd, Bool.true_and]
    by_cases hki : k = i <;> simp [hki]
  · simp only [if_true, BitVec.getLsbD_or, h1]
    by_cases hki : k = i <;> simp [hki]

theorem Lane.predOf_setP (x : Lane) (i : Nat) (b : Bool) (k : Nat) :
    predOf (x.setP i b) k = if k = i ∧ i < 7 then b else predOf x k := by
  unfold predOf
  by_cases hi : i < 7
  · by_cases hk : k < 7
    · have : k ≠ 7 := by omega
      rw [Lane.setP_p x i b k hk hi, show (k == 7) = false by simp [this]]
      simp [hi]
    · have h1 : k ≠ i := by omega
      have h2 : (x.setP i b).p.getLsbD k = x.p.getLsbD k := by
        rw [BitVec.getLsbD_of_ge _ _ (by omega), BitVec.getLsbD_of_ge _ _ (by omega)]
      simp [h1, h2]
  · simp [Lane.setP, hi]

/-- Predicates are kept by a write to another file. -/
theorem Group.predOf_dstSpan_other (ws : List Word) : ∀ (g : Group) (o : Opnd) (l m k : Nat), (∀ i, o ≠ .spc i) →
    predOf ((dstSpan g o l ws).lane m) k = predOf (g.lane m) k := by
  induction ws with
  | nil => intros; rfl
  | cons w ws ih =>
    intro g o l m k h
    have h' : ∀ i, Opnd.plus o 1 ≠ .spc i := by
      cases o <;> simp_all [Opnd.plus]
    rw [dstSpan, ih _ _ _ _ _ h']
    cases o with
    | vec i => simp only [dst, Group.setV, Group.lane_modLane]; split <;> rfl
    | uni i => rfl
    | spc i => exact absurd rfl (h i)
    | con i => rfl

/-- Writing lane `l` leaves the predicates of the other lanes. -/
theorem Group.predOf_dstSpan_ne (ws : List Word) : ∀ (g : Group) (o : Opnd) (l m k : Nat), m ≠ l →
    predOf ((dstSpan g o l ws).lane m) k = predOf (g.lane m) k := by
  induction ws with
  | nil => intros; rfl
  | cons w ws ih =>
    intro g o l m k h
    rw [dstSpan, ih _ _ _ _ _ h]
    cases o with
    | vec i => simp [dst, Group.setV, Group.lane_modLane, h]
    | uni i => rfl
    | spc i => simp [dst, Group.lane_modLane, h]
    | con i => rfl

theorem Group.predOf_dst_spc (g : Group) (i : BitVec 8) (l m k : Nat) (w : Word) :
    predOf ((dst g (.spc i) l w).lane m) k =
      if m = l ∧ m < g.lanes.length ∧ k = i.toNat ∧ i.toNat < 7 then (w != 0) else predOf (g.lane m) k := by
  simp only [dst, Group.lane_modLane]
  by_cases h : m = l ∧ m < g.lanes.length
  · rw [if_pos h, Lane.predOf_setP]
    by_cases hk : k = i.toNat ∧ i.toNat < 7
    · rw [if_pos hk, if_pos ⟨h.1, h.2, hk⟩]
    · rw [if_neg hk, if_neg fun x => hk x.2.2]
  · rw [if_neg h, if_neg fun x => h ⟨x.1, x.2.1⟩]

/-! ### The results of all active lanes -/

@[simp] theorem Group.raise_lane (g : Group) (f : Fl) (l : Nat) : (g.raise f).lane l = g.lane l := rfl
@[simp] theorem Group.raise_lanes (g : Group) (f : Fl) : (g.raise f).lanes = g.lanes := rfl
@[simp] theorem Group.raise_vreg (g : Group) (f : Fl) (l j : Nat) : (g.raise f).vreg l j = g.vreg l j := rfl
@[simp] theorem Group.raise_ureg (g : Group) (f : Fl) (j : Nat) : (g.raise f).ureg j = g.ureg j := rfl

/-- The results of a list of lanes. -/
abbrev resOf (act : List Nat) (f : Nat → LaneRes) : List (Nat × LaneRes) := act.map fun l => (l, f l)

theorem writeRes_vec (i : BitVec 8) (f : Nat → LaneRes) (act : List Nat) : ∀ (g : Group) (m j : Nat), act.Nodup →
    (∀ l ∈ act, (f l).1.length ≤ 256) →
    (writeRes (.vec i) g (resOf act f)).vreg m j =
      if m ∈ act ∧ m < g.lanes.length then (spanAt i (f m).1 j).getD (g.vreg m j) else g.vreg m j := by
  induction act with
  | nil => intros; simp [writeRes]
  | cons l act ih =>
    intro g m j hn hl
    rw [List.nodup_cons] at hn
    simp only [resOf, List.map_cons, writeRes]
    rw [ih _ _ _ hn.2 fun x hx => hl x (by simp [hx])]
    simp only [Group.raise_vreg, Group.raise_lanes, (Group.RegsOnly.dstSpan _ g (.vec i) l).size]
    rw [Group.vreg_dstSpan_vec _ _ _ _ _ _ (hl l (by simp))]
    by_cases hm : m = l
    · subst hm; simp [hn.1]
    · simp [hm]

theorem writeRes_vreg_other (d : Opnd) (hd : ∀ i, d ≠ .vec i) (f : Nat → LaneRes) (act : List Nat) :
    ∀ (g : Group) (m j : Nat), (writeRes d g (resOf act f)).vreg m j = g.vreg m j := by
  induction act with
  | nil => intros; rfl
  | cons l act ih =>
    intro g m j
    simp only [resOf, List.map_cons, writeRes]
    rw [ih]; simp [Group.vreg_dstSpan_other _ _ _ _ _ _ hd]

theorem writeRes_uni (i : BitVec 8) (f : Nat → LaneRes) (ws : List Word) (hw : ws.length ≤ 256) (act : List Nat) :
    ∀ (g : Group) (j : Nat), (∀ l ∈ act, (f l).1 = ws) →
    (writeRes (.uni i) g (resOf act f)).ureg j = if act = [] then g.ureg j else (spanAt i ws j).getD (g.ureg j) := by
  induction act with
  | nil => intros; simp [writeRes]
  | cons l act ih =>
    intro g j hl
    simp only [resOf, List.map_cons, writeRes]
    rw [ih _ _ fun x hx => hl x (by simp [hx]), hl l (by simp)]
    simp only [Group.raise_ureg, Group.ureg_dstSpan_uni _ _ _ _ _ hw]
    cases spanAt i ws j <;> simp

theorem writeRes_ureg_other (d : Opnd) (hd : ∀ i, d ≠ .uni i) (f : Nat → LaneRes) (act : List Nat) :
    ∀ (g : Group) (j : Nat), (writeRes d g (resOf act f)).ureg j = g.ureg j := by
  induction act with
  | nil => intros; rfl
  | cons l act ih =>
    intro g j
    simp only [resOf, List.map_cons, writeRes]
    rw [ih]; simp [Group.ureg_dstSpan_other _ _ _ _ _ hd]

theorem writeRes_pred_other (d : Opnd) (hd : ∀ i, d ≠ .spc i) (f : Nat → LaneRes) (act : List Nat) :
    ∀ (g : Group) (m k : Nat), predOf ((writeRes d g (resOf act f)).lane m) k = predOf (g.lane m) k := by
  induction act with
  | nil => intros; rfl
  | cons l act ih =>
    intro g m k
    simp only [resOf, List.map_cons, writeRes]
    rw [ih]; simp [Group.predOf_dstSpan_other _ _ _ _ _ _ hd]

theorem writeRes_pred_inactive (d : Opnd) (f : Nat → LaneRes) (act : List Nat) :
    ∀ (g : Group) (m k : Nat), m ∉ act → predOf ((writeRes d g (resOf act f)).lane m) k = predOf (g.lane m) k := by
  induction act with
  | nil => intros; rfl
  | cons l act ih =>
    intro g m k hm
    simp only [List.mem_cons, not_or] at hm
    simp only [resOf, List.map_cons, writeRes]
    rw [ih _ _ _ hm.2]; simp [Group.predOf_dstSpan_ne _ _ _ _ _ _ hm.1]

theorem writeRes_pred (i : BitVec 8) (f : Nat → LaneRes) (act : List Nat) :
    ∀ (g : Group) (m k : Nat), act.Nodup → (∀ l ∈ act, l < g.lanes.length) → (∀ l ∈ act, ∃ w, (f l).1 = [w]) →
    predOf ((writeRes (.spc i) g (resOf act f)).lane m) k =
      if m ∈ act ∧ k = i.toNat ∧ i.toNat < 7 then ((f m).1.headD 0 != 0) else predOf (g.lane m) k := by
  induction act with
  | nil => intros; simp [writeRes]
  | cons l act ih =>
    intro g m k hn hlen hw
    rw [List.nodup_cons] at hn
    obtain ⟨w, hw1⟩ := hw l (by simp)
    simp only [resOf, List.map_cons, writeRes]
    rw [ih _ _ _ hn.2 ?_ fun x hx => hw x (by simp [hx])]
    · simp only [Group.raise_lane, hw1, dstSpan, Group.predOf_dst_spc]
      by_cases hm : m = l
      · subst hm; simp [hn.1, hlen m (by simp), hw1]
      · simp [hm]
    · intro x hx
      rw [Group.raise_lanes, (Group.RegsOnly.dstSpan _ g (.spc i) l).size]
      exact hlen x (by simp [hx])

/-- Everything an instruction that works lane by lane does (R55, R120, R121). -/
theorem State.perLane_writes (s : State) (h : Hdr) (d : Opnd) (f : Group → Nat → LaneRes)
    (hl : ∀ l ∈ activeLanes s h, (f s.curG l).1.length ≤ 256) :
    LaneWrites s (s.perLane h d f) h d (fun l => (f s.curG l).1) (fun l => (f s.curG l).2) := by
  let act := activeLanes s h
  let g1 := writeRes d s.curG (resOf act fun l => f s.curG l)
  have hr : Group.RegsOnly s.curG g1 := Group.RegsOnly.writeRes _ _ _
  have ht : (s.perLane h d f).curG = g1.onMask s.cur.mask (laneAdvance s.cur) := by
    simp [State.perLane, State.curG_advance, g1, act, resOf]
  have hv : ∀ l j, (s.perLane h d f).curG.vreg l j = g1.vreg l j := fun l j => by
    rw [ht, Group.vreg, Group.lane_onMask]; split <;> rfl
  have hp : ∀ l k, predOf ((s.perLane h d f).curG.lane l) k = predOf (g1.lane l) k := fun l k => by
    rw [ht, Group.lane_onMask]; split <;> rfl
  have hu : ∀ j, (s.perLane h d f).curG.ureg j = g1.ureg j := fun j => by rw [ht]; rfl
  have hnd : act.Nodup := activeLanes_nodup s h
  have hlen : ∀ l ∈ act, l < s.curG.lanes.length := fun l hl => (mem_activeLanes.1 hl).1
  refine
    { only := ⟨(s.perLane h d f).curG, ?_⟩, rest := ?_, lanes := ⟨?_, fun l hl => ?_⟩, vec := fun i l j hd ha => ?_,
      vecKept := fun l j hk => ?_, uni := fun i l j hd ha hs => ?_, uniKept := fun hk j => ?_,
      prd := fun i l hd hi ha hall => ?_, prdKept := fun l k hk => ?_, flags := ?_, memory := fun a => ?_ }
  · rw [ht]; simp [State.perLane, State.advance, g1, act, resOf]
  · rw [ht]
    have := hr.rest
    unfold Group.SameRest at this
    simp only [Group.onMask, Group.withLanes]
    rw [this]
  · rw [ht, Group.onMask_length, hr.size]
  · rw [ht, Group.lane_onMask, hr.size]
    by_cases hm : s.cur.mask.getLsbD l = true
    · rw [if_pos ⟨hm, hl⟩, if_pos hm, hr.lane l]; simp [laneAdvance]
    · rw [if_neg fun x => hm x.1, if_neg hm]
      have h1 : l ∉ act := fun x => hm (by
        have := (mem_activeLanes.1 x).2; simp [activeLane] at this; exact this.1.1)
      have h2 : ∀ (rs : List Nat) (g : Group), l ∉ rs → (writeRes d g (resOf rs fun l => f s.curG l)).lane l = g.lane l := by
        intro rs
        induction rs with
        | nil => intros; rfl
        | cons x rs ih =>
          intro g hx
          simp only [List.mem_cons, not_or] at hx
          simp only [resOf, List.map_cons, writeRes]
          rw [ih _ hx.2, Group.raise_lane]
          have : ∀ (ws : List Word) (g : Group) (o : Opnd), (dstSpan g o x ws).lane l = g.lane l := by
            intro ws
            induction ws with
            | nil => intros; rfl
            | cons w ws ih2 =>
              intro g o
              rw [dstSpan, ih2]
              cases o <;> simp [dst, Group.setV, Group.lane_modLane, hx.1] <;> rfl
          exact this _ _ _
      exact h2 act s.curG h1
  · subst hd
    rw [hv, writeRes_vec _ _ _ _ _ _ hnd hl, if_pos ⟨ha, hlen l ha⟩]
  · rw [hv]
    by_cases hvec : ∃ i, d = .vec i
    · obtain ⟨i, rfl⟩ := hvec
      have hm : l ∉ act := hk.resolve_right fun x => x i rfl
      rw [writeRes_vec _ _ _ _ _ _ hnd hl, if_neg fun x => hm x.1]
    · exact writeRes_vreg_other d (fun i x => hvec ⟨i, x⟩) _ _ _ _ _
  · subst hd
    rw [hu, writeRes_uni i _ (f s.curG l).1 (hl l ha) act _ _ hs, if_neg fun x => by
      rw [show activeLanes s h = act from rfl, x] at ha; simp at ha]
  · rw [hu]
    by_cases hd : ∃ i, d = .uni i
    · have he : act = [] := hk.resolve_right fun x => by obtain ⟨i, e⟩ := hd; exact x i e
      simp only [g1, he]; rfl
    · exact writeRes_ureg_other d (fun i x => hd ⟨i, x⟩) _ _ _ _
  · subst hd
    rw [hp]
    rw [writeRes_pred _ _ _ _ _ _ hnd hlen hall, if_pos ⟨ha, rfl, hi⟩]
  · rw [hp]
    by_cases hd : ∃ i, d = .spc i
    · obtain ⟨i, rfl⟩ := hd
      rcases hk with h1 | h1 | ⟨h1, h2⟩
      · exact writeRes_pred_inactive _ _ _ _ _ _ h1
      · exact absurd rfl (h1 i)
      · rw [writeRes_pred _ _ _ _ _ _ hnd hlen h1, if_neg fun x => h2 i rfl x.2.1.symm]
    · exact writeRes_pred_other d (fun i x => hd ⟨i, x⟩) _ _ _ _ _
  · rw [ht]
    show g1.fstat = _
    rw [writeRes_fstat, resOf, List.foldl_map]
  · simp [State.perLane, State.advance]

/-- The same, with the values and flags named. -/
theorem State.perLane_gives {s : State} {h : Hdr} {d : Opnd} {f : Group → Nat → LaneRes} {v : Nat → List Word}
    {fl : Nat → Fl} (hv : ∀ l, (f s.curG l).1 = v l) (hf : ∀ l, (f s.curG l).2 = fl l) (hl : ∀ l, (v l).length ≤ 256) :
    Gives (Host.Outcome.next (s.perLane h d f)) fun t => LaneWrites s t h d v fl := by
  have := State.perLane_writes s h d f fun l _ => by rw [hv]; exact hl l
  rw [show (fun l => (f s.curG l).1) = v from funext hv, show (fun l => (f s.curG l).2) = fl from funext hf] at this
  exact ⟨_, rfl, this⟩

/-- The shared forms of one, two and three sources, without and with flags (R134, R137, R147). -/
theorem alu1_writes (s : State) (h : Hdr) (o : AluOps) (f : Word → Word) :
    Gives (alu1 s h o f) fun t =>
      LaneWrites s t h o.d (fun l => [f (src s s.curG o.imm o.a l)]) fun _ => 0 :=
  State.perLane_gives (fun _ => rfl) (fun _ => rfl) (fun _ => by simp)
theorem alu2_writes (s : State) (h : Hdr) (o : AluOps) (f : Word → Word → Word) :
    Gives (alu2 s h o f) fun t =>
      LaneWrites s t h o.d (fun l => [f (src s s.curG o.imm o.a l) (src s s.curG o.imm o.b l)]) fun _ => 0 :=
  State.perLane_gives (fun _ => rfl) (fun _ => rfl) (fun _ => by simp)
theorem alu3_writes (s : State) (h : Hdr) (o : AluOps) (f : Word → Word → Word → Word) :
    Gives (alu3 s h o f) fun t =>
      LaneWrites s t h o.d (fun l => [f (src s s.curG o.imm o.a l) (src s s.curG o.imm o.b l)
        (src s s.curG o.imm o.c l)]) fun _ => 0 :=
  State.perLane_gives (fun _ => rfl) (fun _ => rfl) (fun _ => by simp)
theorem fpu1_writes (s : State) (h : Hdr) (o : AluOps) (f : Word → Word × Fl) :
    Gives (fpu1 s h o f) fun t =>
      LaneWrites s t h o.d (fun l => [(f (src s s.curG o.imm o.a l)).1]) fun l => (f (src s s.curG o.imm o.a l)).2 :=
  State.perLane_gives (fun _ => rfl) (fun _ => rfl) (fun _ => by simp)
theorem fpu2_writes (s : State) (h : Hdr) (o : AluOps) (f : Word → Word → Word × Fl) :
    Gives (fpu2 s h o f) fun t =>
      LaneWrites s t h o.d (fun l => [(f (src s s.curG o.imm o.a l) (src s s.curG o.imm o.b l)).1])
        fun l => (f (src s s.curG o.imm o.a l) (src s s.curG o.imm o.b l)).2 :=
  State.perLane_gives (fun _ => rfl) (fun _ => rfl) (fun _ => by simp)
theorem fpu3_writes (s : State) (h : Hdr) (o : AluOps) (f : Word → Word → Word → Word × Fl) :
    Gives (fpu3 s h o f) fun t =>
      LaneWrites s t h o.d (fun l => [(f (src s s.curG o.imm o.a l) (src s s.curG o.imm o.b l)
        (src s s.curG o.imm o.c l)).1])
        fun l => (f (src s s.curG o.imm o.a l) (src s s.curG o.imm o.b l) (src s s.curG o.imm o.c l)).2 :=
  State.perLane_gives (fun _ => rfl) (fun _ => rfl) (fun _ => by simp)

end Sys2Proof.Machine
end

