-- ==== Sys2Proof/Laws/State.lean ====
section
/-! SUPPORT. What each named update of the state leaves unchanged, field by field, and what it reads back; all by
unfolding, so that no proof unfolds a record update. -/

namespace Sys2Proof.Machine

/-! ### setGroup -/

@[simp] theorem State.setGroup_agenda (s : State) (i : Nat) (g : Group) : (s.setGroup i g).agenda = s.agenda := rfl
@[simp] theorem State.setGroup_free (s : State) (i : Nat) (g : Group) : (s.setGroup i g).free = s.free := rfl
@[simp] theorem State.setGroup_fresh (s : State) (i : Nat) (g : Group) : (s.setGroup i g).fresh = s.fresh := rfl
@[simp] theorem State.setGroup_now (s : State) (i : Nat) (g : Group) : (s.setGroup i g).now = s.now := rfl
@[simp] theorem State.setGroup_us (s : State) (i : Nat) (g : Group) : (s.setGroup i g).us = s.us := rfl
@[simp] theorem State.setGroup_halted (s : State) (i : Nat) (g : Group) : (s.setGroup i g).halted = s.halted := rfl
@[simp] theorem State.setGroup_mem (s : State) (i : Nat) (g : Group) : (s.setGroup i g).mem = s.mem := rfl
@[simp] theorem State.setGroup_hostMem (s : State) (i : Nat) (g : Group) : (s.setGroup i g).hostMem = s.hostMem := rfl
@[simp] theorem State.setGroup_scr (s : State) (i : Nat) (g : Group) : (s.setGroup i g).scr = s.scr := rfl
@[simp] theorem State.setGroup_supMem (s : State) (i : Nat) (g : Group) : (s.setGroup i g).supMem = s.supMem := rfl
@[simp] theorem State.setGroup_poison (s : State) (i : Nat) (g : Group) : (s.setGroup i g).poison = s.poison := rfl
@[simp] theorem State.setGroup_poisonScr (s : State) (i : Nat) (g : Group) : (s.setGroup i g).poisonScr = s.poisonScr := rfl
@[simp] theorem State.setGroup_cores (s : State) (i : Nat) (g : Group) : (s.setGroup i g).cores = s.cores := rfl
@[simp] theorem State.setGroup_parts (s : State) (i : Nat) (g : Group) : (s.setGroup i g).parts = s.parts := rfl
@[simp] theorem State.setGroup_teams (s : State) (i : Nat) (g : Group) : (s.setGroup i g).teams = s.teams := rfl
@[simp] theorem State.setGroup_cmds (s : State) (i : Nat) (g : Group) : (s.setGroup i g).cmds = s.cmds := rfl
@[simp] theorem State.setGroup_waiters (s : State) (i : Nat) (g : Group) : (s.setGroup i g).waiters = s.waiters := rfl
@[simp] theorem State.setGroup_retained (s : State) (i : Nat) (g : Group) : (s.setGroup i g).retained = s.retained := rfl
@[simp] theorem State.setGroup_tlb (s : State) (i : Nat) (g : Group) : (s.setGroup i g).tlb = s.tlb := rfl
@[simp] theorem State.setGroup_walks (s : State) (i : Nat) (g : Group) : (s.setGroup i g).walks = s.walks := rfl
@[simp] theorem State.setGroup_invals (s : State) (i : Nat) (g : Group) : (s.setGroup i g).invals = s.invals := rfl
@[simp] theorem State.setGroup_peerGot (s : State) (i : Nat) (g : Group) : (s.setGroup i g).peerGot = s.peerGot := rfl
@[simp] theorem State.setGroup_streams (s : State) (i : Nat) (g : Group) : (s.setGroup i g).streams = s.streams := rfl
@[simp] theorem State.setGroup_streamReqs (s : State) (i : Nat) (g : Group) : (s.setGroup i g).streamReqs = s.streamReqs := rfl
@[simp] theorem State.setGroup_hub (s : State) (i : Nat) (g : Group) : (s.setGroup i g).hub = s.hub := rfl
@[simp] theorem State.setGroup_steps (s : State) (i : Nat) (g : Group) : (s.setGroup i g).steps = s.steps := rfl
@[simp] theorem State.setGroup_queues (s : State) (i : Nat) (g : Group) : (s.setGroup i g).queues = s.queues := rfl
@[simp] theorem State.setGroup_grids (s : State) (i : Nat) (g : Group) : (s.setGroup i g).grids = s.grids := rfl
@[simp] theorem State.setGroup_nextGrid (s : State) (i : Nat) (g : Group) : (s.setGroup i g).nextGrid = s.nextGrid := rfl
@[simp] theorem State.setGroup_nextRun (s : State) (i : Nat) (g : Group) : (s.setGroup i g).nextRun = s.nextRun := rfl
@[simp] theorem State.setGroup_nextHandle (s : State) (i : Nat) (g : Group) : (s.setGroup i g).nextHandle = s.nextHandle := rfl
@[simp] theorem State.setGroup_sealed (s : State) (i : Nat) (g : Group) : (s.setGroup i g).sealed = s.sealed := rfl
@[simp] theorem State.setGroup_runs (s : State) (i : Nat) (g : Group) : (s.setGroup i g).runs = s.runs := rfl
@[simp] theorem State.setGroup_mboxes (s : State) (i : Nat) (g : Group) : (s.setGroup i g).mboxes = s.mboxes := rfl
@[simp] theorem State.setGroup_rrQueue (s : State) (i : Nat) (g : Group) : (s.setGroup i g).rrQueue = s.rrQueue := rfl
@[simp] theorem State.setGroup_rrDevice (s : State) (i : Nat) (g : Group) : (s.setGroup i g).rrDevice = s.rrDevice := rfl
@[simp] theorem State.setGroup_nodes (s : State) (i : Nat) (g : Group) : (s.setGroup i g).nodes = s.nodes := rfl
@[simp] theorem State.setGroup_msgs (s : State) (i : Nat) (g : Group) : (s.setGroup i g).msgs = s.msgs := rfl
@[simp] theorem State.setGroup_chans (s : State) (i : Nat) (g : Group) : (s.setGroup i g).chans = s.chans := rfl
@[simp] theorem State.setGroup_seqOut (s : State) (i : Nat) (g : Group) : (s.setGroup i g).seqOut = s.seqOut := rfl
@[simp] theorem State.setGroup_seqIn (s : State) (i : Nat) (g : Group) : (s.setGroup i g).seqIn = s.seqIn := rfl
@[simp] theorem State.setGroup_outst (s : State) (i : Nat) (g : Group) : (s.setGroup i g).outst = s.outst := rfl
@[simp] theorem State.setGroup_rounds (s : State) (i : Nat) (g : Group) : (s.setGroup i g).rounds = s.rounds := rfl
@[simp] theorem State.setGroup_cab (s : State) (i : Nat) (g : Group) : (s.setGroup i g).cab = s.cab := rfl
@[simp] theorem State.setGroup_cabSeq (s : State) (i : Nat) (g : Group) : (s.setGroup i g).cabSeq = s.cabSeq := rfl
@[simp] theorem State.setGroup_out (s : State) (i : Nat) (g : Group) : (s.setGroup i g).out = s.out := rfl
@[simp] theorem State.setGroup_msixMask (s : State) (i : Nat) (g : Group) : (s.setGroup i g).msixMask = s.msixMask := rfl
@[simp] theorem State.setGroup_msixPend (s : State) (i : Nat) (g : Group) : (s.setGroup i g).msixPend = s.msixPend := rfl
@[simp] theorem State.setGroup_pages (s : State) (i : Nat) (g : Group) : (s.setGroup i g).pages = s.pages := rfl
@[simp] theorem State.setGroup_hbmUsed (s : State) (i : Nat) (g : Group) : (s.setGroup i g).hbmUsed = s.hbmUsed := rfl
@[simp] theorem State.setGroup_evicting (s : State) (i : Nat) (g : Group) : (s.setGroup i g).evicting = s.evicting := rfl
@[simp] theorem State.setGroup_epoch (s : State) (i : Nat) (g : Group) : (s.setGroup i g).epoch = s.epoch := rfl
@[simp] theorem State.setGroup_hour (s : State) (i : Nat) (g : Group) : (s.setGroup i g).hour = s.hour := rfl
@[simp] theorem State.setGroup_scrubDone (s : State) (i : Nat) (g : Group) : (s.setGroup i g).scrubDone = s.scrubDone := rfl
@[simp] theorem State.setGroup_scrubStart (s : State) (i : Nat) (g : Group) : (s.setGroup i g).scrubStart = s.scrubStart := rfl
@[simp] theorem State.setGroup_clockMHz (s : State) (i : Nat) (g : Group) : (s.setGroup i g).clockMHz = s.clockMHz := rfl
@[simp] theorem State.setGroup_fw (s : State) (i : Nat) (g : Group) : (s.setGroup i g).fw = s.fw := rfl
@[simp] theorem State.setGroup_spdmNeg (s : State) (i : Nat) (g : Group) : (s.setGroup i g).spdmNeg = s.spdmNeg := rfl
@[simp] theorem State.setGroup_privs (s : State) (i : Nat) (g : Group) : (s.setGroup i g).privs = s.privs := rfl

/-! ### setCurG -/

@[simp] theorem State.setCurG_agenda (s : State) (g : Group) : (s.setCurG g).agenda = s.agenda := rfl
@[simp] theorem State.setCurG_free (s : State) (g : Group) : (s.setCurG g).free = s.free := rfl
@[simp] theorem State.setCurG_fresh (s : State) (g : Group) : (s.setCurG g).fresh = s.fresh := rfl
@[simp] theorem State.setCurG_now (s : State) (g : Group) : (s.setCurG g).now = s.now := rfl
@[simp] theorem State.setCurG_us (s : State) (g : Group) : (s.setCurG g).us = s.us := rfl
@[simp] theorem State.setCurG_halted (s : State) (g : Group) : (s.setCurG g).halted = s.halted := rfl
@[simp] theorem State.setCurG_mem (s : State) (g : Group) : (s.setCurG g).mem = s.mem := rfl
@[simp] theorem State.setCurG_hostMem (s : State) (g : Group) : (s.setCurG g).hostMem = s.hostMem := rfl
@[simp] theorem State.setCurG_scr (s : State) (g : Group) : (s.setCurG g).scr = s.scr := rfl
@[simp] theorem State.setCurG_supMem (s : State) (g : Group) : (s.setCurG g).supMem = s.supMem := rfl
@[simp] theorem State.setCurG_poison (s : State) (g : Group) : (s.setCurG g).poison = s.poison := rfl
@[simp] theorem State.setCurG_poisonScr (s : State) (g : Group) : (s.setCurG g).poisonScr = s.poisonScr := rfl
@[simp] theorem State.setCurG_cores (s : State) (g : Group) : (s.setCurG g).cores = s.cores := rfl
@[simp] theorem State.setCurG_parts (s : State) (g : Group) : (s.setCurG g).parts = s.parts := rfl
@[simp] theorem State.setCurG_teams (s : State) (g : Group) : (s.setCurG g).teams = s.teams := rfl
@[simp] theorem State.setCurG_cmds (s : State) (g : Group) : (s.setCurG g).cmds = s.cmds := rfl
@[simp] theorem State.setCurG_waiters (s : State) (g : Group) : (s.setCurG g).waiters = s.waiters := rfl
@[simp] theorem State.setCurG_retained (s : State) (g : Group) : (s.setCurG g).retained = s.retained := rfl
@[simp] theorem State.setCurG_tlb (s : State) (g : Group) : (s.setCurG g).tlb = s.tlb := rfl
@[simp] theorem State.setCurG_walks (s : State) (g : Group) : (s.setCurG g).walks = s.walks := rfl
@[simp] theorem State.setCurG_invals (s : State) (g : Group) : (s.setCurG g).invals = s.invals := rfl
@[simp] theorem State.setCurG_peerGot (s : State) (g : Group) : (s.setCurG g).peerGot = s.peerGot := rfl
@[simp] theorem State.setCurG_streams (s : State) (g : Group) : (s.setCurG g).streams = s.streams := rfl
@[simp] theorem State.setCurG_streamReqs (s : State) (g : Group) : (s.setCurG g).streamReqs = s.streamReqs := rfl
@[simp] theorem State.setCurG_hub (s : State) (g : Group) : (s.setCurG g).hub = s.hub := rfl
@[simp] theorem State.setCurG_steps (s : State) (g : Group) : (s.setCurG g).steps = s.steps := rfl
@[simp] theorem State.setCurG_queues (s : State) (g : Group) : (s.setCurG g).queues = s.queues := rfl
@[simp] theorem State.setCurG_grids (s : State) (g : Group) : (s.setCurG g).grids = s.grids := rfl
@[simp] theorem State.setCurG_nextGrid (s : State) (g : Group) : (s.setCurG g).nextGrid = s.nextGrid := rfl
@[simp] theorem State.setCurG_nextRun (s : State) (g : Group) : (s.setCurG g).nextRun = s.nextRun := rfl
@[simp] theorem State.setCurG_nextHandle (s : State) (g : Group) : (s.setCurG g).nextHandle = s.nextHandle := rfl
@[simp] theorem State.setCurG_sealed (s : State) (g : Group) : (s.setCurG g).sealed = s.sealed := rfl
@[simp] theorem State.setCurG_runs (s : State) (g : Group) : (s.setCurG g).runs = s.runs := rfl
@[simp] theorem State.setCurG_mboxes (s : State) (g : Group) : (s.setCurG g).mboxes = s.mboxes := rfl
@[simp] theorem State.setCurG_rrQueue (s : State) (g : Group) : (s.setCurG g).rrQueue = s.rrQueue := rfl
@[simp] theorem State.setCurG_rrDevice (s : State) (g : Group) : (s.setCurG g).rrDevice = s.rrDevice := rfl
@[simp] theorem State.setCurG_nodes (s : State) (g : Group) : (s.setCurG g).nodes = s.nodes := rfl
@[simp] theorem State.setCurG_msgs (s : State) (g : Group) : (s.setCurG g).msgs = s.msgs := rfl
@[simp] theorem State.setCurG_chans (s : State) (g : Group) : (s.setCurG g).chans = s.chans := rfl
@[simp] theorem State.setCurG_seqOut (s : State) (g : Group) : (s.setCurG g).seqOut = s.seqOut := rfl
@[simp] theorem State.setCurG_seqIn (s : State) (g : Group) : (s.setCurG g).seqIn = s.seqIn := rfl
@[simp] theorem State.setCurG_outst (s : State) (g : Group) : (s.setCurG g).outst = s.outst := rfl
@[simp] theorem State.setCurG_rounds (s : State) (g : Group) : (s.setCurG g).rounds = s.rounds := rfl
@[simp] theorem State.setCurG_cab (s : State) (g : Group) : (s.setCurG g).cab = s.cab := rfl
@[simp] theorem State.setCurG_cabSeq (s : State) (g : Group) : (s.setCurG g).cabSeq = s.cabSeq := rfl
@[simp] theorem State.setCurG_out (s : State) (g : Group) : (s.setCurG g).out = s.out := rfl
@[simp] theorem State.setCurG_msixMask (s : State) (g : Group) : (s.setCurG g).msixMask = s.msixMask := rfl
@[simp] theorem State.setCurG_msixPend (s : State) (g : Group) : (s.setCurG g).msixPend = s.msixPend := rfl
@[simp] theorem State.setCurG_pages (s : State) (g : Group) : (s.setCurG g).pages = s.pages := rfl
@[simp] theorem State.setCurG_hbmUsed (s : State) (g : Group) : (s.setCurG g).hbmUsed = s.hbmUsed := rfl
@[simp] theorem State.setCurG_evicting (s : State) (g : Group) : (s.setCurG g).evicting = s.evicting := rfl
@[simp] theorem State.setCurG_epoch (s : State) (g : Group) : (s.setCurG g).epoch = s.epoch := rfl
@[simp] theorem State.setCurG_hour (s : State) (g : Group) : (s.setCurG g).hour = s.hour := rfl
@[simp] theorem State.setCurG_scrubDone (s : State) (g : Group) : (s.setCurG g).scrubDone = s.scrubDone := rfl
@[simp] theorem State.setCurG_scrubStart (s : State) (g : Group) : (s.setCurG g).scrubStart = s.scrubStart := rfl
@[simp] theorem State.setCurG_clockMHz (s : State) (g : Group) : (s.setCurG g).clockMHz = s.clockMHz := rfl
@[simp] theorem State.setCurG_fw (s : State) (g : Group) : (s.setCurG g).fw = s.fw := rfl
@[simp] theorem State.setCurG_spdmNeg (s : State) (g : Group) : (s.setCurG g).spdmNeg = s.spdmNeg := rfl
@[simp] theorem State.setCurG_privs (s : State) (g : Group) : (s.setCurG g).privs = s.privs := rfl

/-! ### setTeam -/

@[simp] theorem State.setTeam_agenda (s : State) (i : Nat) (t : Team) : (s.setTeam i t).agenda = s.agenda := rfl
@[simp] theorem State.setTeam_free (s : State) (i : Nat) (t : Team) : (s.setTeam i t).free = s.free := rfl
@[simp] theorem State.setTeam_fresh (s : State) (i : Nat) (t : Team) : (s.setTeam i t).fresh = s.fresh := rfl
@[simp] theorem State.setTeam_cur (s : State) (i : Nat) (t : Team) : (s.setTeam i t).cur = s.cur := rfl
@[simp] theorem State.setTeam_now (s : State) (i : Nat) (t : Team) : (s.setTeam i t).now = s.now := rfl
@[simp] theorem State.setTeam_us (s : State) (i : Nat) (t : Team) : (s.setTeam i t).us = s.us := rfl
@[simp] theorem State.setTeam_halted (s : State) (i : Nat) (t : Team) : (s.setTeam i t).halted = s.halted := rfl
@[simp] theorem State.setTeam_mem (s : State) (i : Nat) (t : Team) : (s.setTeam i t).mem = s.mem := rfl
@[simp] theorem State.setTeam_hostMem (s : State) (i : Nat) (t : Team) : (s.setTeam i t).hostMem = s.hostMem := rfl
@[simp] theorem State.setTeam_scr (s : State) (i : Nat) (t : Team) : (s.setTeam i t).scr = s.scr := rfl
@[simp] theorem State.setTeam_supMem (s : State) (i : Nat) (t : Team) : (s.setTeam i t).supMem = s.supMem := rfl
@[simp] theorem State.setTeam_poison (s : State) (i : Nat) (t : Team) : (s.setTeam i t).poison = s.poison := rfl
@[simp] theorem State.setTeam_poisonScr (s : State) (i : Nat) (t : Team) : (s.setTeam i t).poisonScr = s.poisonScr := rfl
@[simp] theorem State.setTeam_cores (s : State) (i : Nat) (t : Team) : (s.setTeam i t).cores = s.cores := rfl
@[simp] theorem State.setTeam_parts (s : State) (i : Nat) (t : Team) : (s.setTeam i t).parts = s.parts := rfl
@[simp] theorem State.setTeam_groups (s : State) (i : Nat) (t : Team) : (s.setTeam i t).groups = s.groups := rfl
@[simp] theorem State.setTeam_cmds (s : State) (i : Nat) (t : Team) : (s.setTeam i t).cmds = s.cmds := rfl
@[simp] theorem State.setTeam_waiters (s : State) (i : Nat) (t : Team) : (s.setTeam i t).waiters = s.waiters := rfl
@[simp] theorem State.setTeam_retained (s : State) (i : Nat) (t : Team) : (s.setTeam i t).retained = s.retained := rfl
@[simp] theorem State.setTeam_tlb (s : State) (i : Nat) (t : Team) : (s.setTeam i t).tlb = s.tlb := rfl
@[simp] theorem State.setTeam_walks (s : State) (i : Nat) (t : Team) : (s.setTeam i t).walks = s.walks := rfl
@[simp] theorem State.setTeam_invals (s : State) (i : Nat) (t : Team) : (s.setTeam i t).invals = s.invals := rfl
@[simp] theorem State.setTeam_peerGot (s : State) (i : Nat) (t : Team) : (s.setTeam i t).peerGot = s.peerGot := rfl
@[simp] theorem State.setTeam_streams (s : State) (i : Nat) (t : Team) : (s.setTeam i t).streams = s.streams := rfl
@[simp] theorem State.setTeam_streamReqs (s : State) (i : Nat) (t : Team) : (s.setTeam i t).streamReqs = s.streamReqs := rfl
@[simp] theorem State.setTeam_hub (s : State) (i : Nat) (t : Team) : (s.setTeam i t).hub = s.hub := rfl
@[simp] theorem State.setTeam_steps (s : State) (i : Nat) (t : Team) : (s.setTeam i t).steps = s.steps := rfl
@[simp] theorem State.setTeam_queues (s : State) (i : Nat) (t : Team) : (s.setTeam i t).queues = s.queues := rfl
@[simp] theorem State.setTeam_grids (s : State) (i : Nat) (t : Team) : (s.setTeam i t).grids = s.grids := rfl
@[simp] theorem State.setTeam_nextGrid (s : State) (i : Nat) (t : Team) : (s.setTeam i t).nextGrid = s.nextGrid := rfl
@[simp] theorem State.setTeam_nextRun (s : State) (i : Nat) (t : Team) : (s.setTeam i t).nextRun = s.nextRun := rfl
@[simp] theorem State.setTeam_nextHandle (s : State) (i : Nat) (t : Team) : (s.setTeam i t).nextHandle = s.nextHandle := rfl
@[simp] theorem State.setTeam_sealed (s : State) (i : Nat) (t : Team) : (s.setTeam i t).sealed = s.sealed := rfl
@[simp] theorem State.setTeam_runs (s : State) (i : Nat) (t : Team) : (s.setTeam i t).runs = s.runs := rfl
@[simp] theorem State.setTeam_mboxes (s : State) (i : Nat) (t : Team) : (s.setTeam i t).mboxes = s.mboxes := rfl
@[simp] theorem State.setTeam_rrQueue (s : State) (i : Nat) (t : Team) : (s.setTeam i t).rrQueue = s.rrQueue := rfl
@[simp] theorem State.setTeam_rrDevice (s : State) (i : Nat) (t : Team) : (s.setTeam i t).rrDevice = s.rrDevice := rfl
@[simp] theorem State.setTeam_nodes (s : State) (i : Nat) (t : Team) : (s.setTeam i t).nodes = s.nodes := rfl
@[simp] theorem State.setTeam_msgs (s : State) (i : Nat) (t : Team) : (s.setTeam i t).msgs = s.msgs := rfl
@[simp] theorem State.setTeam_chans (s : State) (i : Nat) (t : Team) : (s.setTeam i t).chans = s.chans := rfl
@[simp] theorem State.setTeam_seqOut (s : State) (i : Nat) (t : Team) : (s.setTeam i t).seqOut = s.seqOut := rfl
@[simp] theorem State.setTeam_seqIn (s : State) (i : Nat) (t : Team) : (s.setTeam i t).seqIn = s.seqIn := rfl
@[simp] theorem State.setTeam_outst (s : State) (i : Nat) (t : Team) : (s.setTeam i t).outst = s.outst := rfl
@[simp] theorem State.setTeam_rounds (s : State) (i : Nat) (t : Team) : (s.setTeam i t).rounds = s.rounds := rfl
@[simp] theorem State.setTeam_cab (s : State) (i : Nat) (t : Team) : (s.setTeam i t).cab = s.cab := rfl
@[simp] theorem State.setTeam_cabSeq (s : State) (i : Nat) (t : Team) : (s.setTeam i t).cabSeq = s.cabSeq := rfl
@[simp] theorem State.setTeam_out (s : State) (i : Nat) (t : Team) : (s.setTeam i t).out = s.out := rfl
@[simp] theorem State.setTeam_msixMask (s : State) (i : Nat) (t : Team) : (s.setTeam i t).msixMask = s.msixMask := rfl
@[simp] theorem State.setTeam_msixPend (s : State) (i : Nat) (t : Team) : (s.setTeam i t).msixPend = s.msixPend := rfl
@[simp] theorem State.setTeam_pages (s : State) (i : Nat) (t : Team) : (s.setTeam i t).pages = s.pages := rfl
@[simp] theorem State.setTeam_hbmUsed (s : State) (i : Nat) (t : Team) : (s.setTeam i t).hbmUsed = s.hbmUsed := rfl
@[simp] theorem State.setTeam_evicting (s : State) (i : Nat) (t : Team) : (s.setTeam i t).evicting = s.evicting := rfl
@[simp] theorem State.setTeam_epoch (s : State) (i : Nat) (t : Team) : (s.setTeam i t).epoch = s.epoch := rfl
@[simp] theorem State.setTeam_hour (s : State) (i : Nat) (t : Team) : (s.setTeam i t).hour = s.hour := rfl
@[simp] theorem State.setTeam_scrubDone (s : State) (i : Nat) (t : Team) : (s.setTeam i t).scrubDone = s.scrubDone := rfl
@[simp] theorem State.setTeam_scrubStart (s : State) (i : Nat) (t : Team) : (s.setTeam i t).scrubStart = s.scrubStart := rfl
@[simp] theorem State.setTeam_clockMHz (s : State) (i : Nat) (t : Team) : (s.setTeam i t).clockMHz = s.clockMHz := rfl
@[simp] theorem State.setTeam_fw (s : State) (i : Nat) (t : Team) : (s.setTeam i t).fw = s.fw := rfl
@[simp] theorem State.setTeam_spdmNeg (s : State) (i : Nat) (t : Team) : (s.setTeam i t).spdmNeg = s.spdmNeg := rfl
@[simp] theorem State.setTeam_privs (s : State) (i : Nat) (t : Team) : (s.setTeam i t).privs = s.privs := rfl

/-! ### setCore -/

@[simp] theorem State.setCore_agenda (s : State) (i : Nat) (c : Core) : (s.setCore i c).agenda = s.agenda := rfl
@[simp] theorem State.setCore_free (s : State) (i : Nat) (c : Core) : (s.setCore i c).free = s.free := rfl
@[simp] theorem State.setCore_fresh (s : State) (i : Nat) (c : Core) : (s.setCore i c).fresh = s.fresh := rfl
@[simp] theorem State.setCore_cur (s : State) (i : Nat) (c : Core) : (s.setCore i c).cur = s.cur := rfl
@[simp] theorem State.setCore_now (s : State) (i : Nat) (c : Core) : (s.setCore i c).now = s.now := rfl
@[simp] theorem State.setCore_us (s : State) (i : Nat) (c : Core) : (s.setCore i c).us = s.us := rfl
@[simp] theorem State.setCore_halted (s : State) (i : Nat) (c : Core) : (s.setCore i c).halted = s.halted := rfl
@[simp] theorem State.setCore_mem (s : State) (i : Nat) (c : Core) : (s.setCore i c).mem = s.mem := rfl
@[simp] theorem State.setCore_hostMem (s : State) (i : Nat) (c : Core) : (s.setCore i c).hostMem = s.hostMem := rfl
@[simp] theorem State.setCore_scr (s : State) (i : Nat) (c : Core) : (s.setCore i c).scr = s.scr := rfl
@[simp] theorem State.setCore_supMem (s : State) (i : Nat) (c : Core) : (s.setCore i c).supMem = s.supMem := rfl
@[simp] theorem State.setCore_poison (s : State) (i : Nat) (c : Core) : (s.setCore i c).poison = s.poison := rfl
@[simp] theorem State.setCore_poisonScr (s : State) (i : Nat) (c : Core) : (s.setCore i c).poisonScr = s.poisonScr := rfl
@[simp] theorem State.setCore_parts (s : State) (i : Nat) (c : Core) : (s.setCore i c).parts = s.parts := rfl
@[simp] theorem State.setCore_groups (s : State) (i : Nat) (c : Core) : (s.setCore i c).groups = s.groups := rfl
@[simp] theorem State.setCore_teams (s : State) (i : Nat) (c : Core) : (s.setCore i c).teams = s.teams := rfl
@[simp] theorem State.setCore_cmds (s : State) (i : Nat) (c : Core) : (s.setCore i c).cmds = s.cmds := rfl
@[simp] theorem State.setCore_waiters (s : State) (i : Nat) (c : Core) : (s.setCore i c).waiters = s.waiters := rfl
@[simp] theorem State.setCore_retained (s : State) (i : Nat) (c : Core) : (s.setCore i c).retained = s.retained := rfl
@[simp] theorem State.setCore_tlb (s : State) (i : Nat) (c : Core) : (s.setCore i c).tlb = s.tlb := rfl
@[simp] theorem State.setCore_walks (s : State) (i : Nat) (c : Core) : (s.setCore i c).walks = s.walks := rfl
@[simp] theorem State.setCore_invals (s : State) (i : Nat) (c : Core) : (s.setCore i c).invals = s.invals := rfl
@[simp] theorem State.setCore_peerGot (s : State) (i : Nat) (c : Core) : (s.setCore i c).peerGot = s.peerGot := rfl
@[simp] theorem State.setCore_streams (s : State) (i : Nat) (c : Core) : (s.setCore i c).streams = s.streams := rfl
@[simp] theorem State.setCore_streamReqs (s : State) (i : Nat) (c : Core) : (s.setCore i c).streamReqs = s.streamReqs := rfl
@[simp] theorem State.setCore_hub (s : State) (i : Nat) (c : Core) : (s.setCore i c).hub = s.hub := rfl
@[simp] theorem State.setCore_steps (s : State) (i : Nat) (c : Core) : (s.setCore i c).steps = s.steps := rfl
@[simp] theorem State.setCore_queues (s : State) (i : Nat) (c : Core) : (s.setCore i c).queues = s.queues := rfl
@[simp] theorem State.setCore_grids (s : State) (i : Nat) (c : Core) : (s.setCore i c).grids = s.grids := rfl
@[simp] theorem State.setCore_nextGrid (s : State) (i : Nat) (c : Core) : (s.setCore i c).nextGrid = s.nextGrid := rfl
@[simp] theorem State.setCore_nextRun (s : State) (i : Nat) (c : Core) : (s.setCore i c).nextRun = s.nextRun := rfl
@[simp] theorem State.setCore_nextHandle (s : State) (i : Nat) (c : Core) : (s.setCore i c).nextHandle = s.nextHandle := rfl
@[simp] theorem State.setCore_sealed (s : State) (i : Nat) (c : Core) : (s.setCore i c).sealed = s.sealed := rfl
@[simp] theorem State.setCore_runs (s : State) (i : Nat) (c : Core) : (s.setCore i c).runs = s.runs := rfl
@[simp] theorem State.setCore_mboxes (s : State) (i : Nat) (c : Core) : (s.setCore i c).mboxes = s.mboxes := rfl
@[simp] theorem State.setCore_rrQueue (s : State) (i : Nat) (c : Core) : (s.setCore i c).rrQueue = s.rrQueue := rfl
@[simp] theorem State.setCore_rrDevice (s : State) (i : Nat) (c : Core) : (s.setCore i c).rrDevice = s.rrDevice := rfl
@[simp] theorem State.setCore_nodes (s : State) (i : Nat) (c : Core) : (s.setCore i c).nodes = s.nodes := rfl
@[simp] theorem State.setCore_msgs (s : State) (i : Nat) (c : Core) : (s.setCore i c).msgs = s.msgs := rfl
@[simp] theorem State.setCore_chans (s : State) (i : Nat) (c : Core) : (s.setCore i c).chans = s.chans := rfl
@[simp] theorem State.setCore_seqOut (s : State) (i : Nat) (c : Core) : (s.setCore i c).seqOut = s.seqOut := rfl
@[simp] theorem State.setCore_seqIn (s : State) (i : Nat) (c : Core) : (s.setCore i c).seqIn = s.seqIn := rfl
@[simp] theorem State.setCore_outst (s : State) (i : Nat) (c : Core) : (s.setCore i c).outst = s.outst := rfl
@[simp] theorem State.setCore_rounds (s : State) (i : Nat) (c : Core) : (s.setCore i c).rounds = s.rounds := rfl
@[simp] theorem State.setCore_cab (s : State) (i : Nat) (c : Core) : (s.setCore i c).cab = s.cab := rfl
@[simp] theorem State.setCore_cabSeq (s : State) (i : Nat) (c : Core) : (s.setCore i c).cabSeq = s.cabSeq := rfl
@[simp] theorem State.setCore_out (s : State) (i : Nat) (c : Core) : (s.setCore i c).out = s.out := rfl
@[simp] theorem State.setCore_msixMask (s : State) (i : Nat) (c : Core) : (s.setCore i c).msixMask = s.msixMask := rfl
@[simp] theorem State.setCore_msixPend (s : State) (i : Nat) (c : Core) : (s.setCore i c).msixPend = s.msixPend := rfl
@[simp] theorem State.setCore_pages (s : State) (i : Nat) (c : Core) : (s.setCore i c).pages = s.pages := rfl
@[simp] theorem State.setCore_hbmUsed (s : State) (i : Nat) (c : Core) : (s.setCore i c).hbmUsed = s.hbmUsed := rfl
@[simp] theorem State.setCore_evicting (s : State) (i : Nat) (c : Core) : (s.setCore i c).evicting = s.evicting := rfl
@[simp] theorem State.setCore_epoch (s : State) (i : Nat) (c : Core) : (s.setCore i c).epoch = s.epoch := rfl
@[simp] theorem State.setCore_hour (s : State) (i : Nat) (c : Core) : (s.setCore i c).hour = s.hour := rfl
@[simp] theorem State.setCore_scrubDone (s : State) (i : Nat) (c : Core) : (s.setCore i c).scrubDone = s.scrubDone := rfl
@[simp] theorem State.setCore_scrubStart (s : State) (i : Nat) (c : Core) : (s.setCore i c).scrubStart = s.scrubStart := rfl
@[simp] theorem State.setCore_clockMHz (s : State) (i : Nat) (c : Core) : (s.setCore i c).clockMHz = s.clockMHz := rfl
@[simp] theorem State.setCore_fw (s : State) (i : Nat) (c : Core) : (s.setCore i c).fw = s.fw := rfl
@[simp] theorem State.setCore_spdmNeg (s : State) (i : Nat) (c : Core) : (s.setCore i c).spdmNeg = s.spdmNeg := rfl
@[simp] theorem State.setCore_privs (s : State) (i : Nat) (c : Core) : (s.setCore i c).privs = s.privs := rfl

/-! ### setPart -/

@[simp] theorem State.setPart_agenda (s : State) (i : Nat) (p : Part) : (s.setPart i p).agenda = s.agenda := rfl
@[simp] theorem State.setPart_free (s : State) (i : Nat) (p : Part) : (s.setPart i p).free = s.free := rfl
@[simp] theorem State.setPart_fresh (s : State) (i : Nat) (p : Part) : (s.setPart i p).fresh = s.fresh := rfl
@[simp] theorem State.setPart_cur (s : State) (i : Nat) (p : Part) : (s.setPart i p).cur = s.cur := rfl
@[simp] theorem State.setPart_now (s : State) (i : Nat) (p : Part) : (s.setPart i p).now = s.now := rfl
@[simp] theorem State.setPart_us (s : State) (i : Nat) (p : Part) : (s.setPart i p).us = s.us := rfl
@[simp] theorem State.setPart_halted (s : State) (i : Nat) (p : Part) : (s.setPart i p).halted = s.halted := rfl
@[simp] theorem State.setPart_mem (s : State) (i : Nat) (p : Part) : (s.setPart i p).mem = s.mem := rfl
@[simp] theorem State.setPart_hostMem (s : State) (i : Nat) (p : Part) : (s.setPart i p).hostMem = s.hostMem := rfl
@[simp] theorem State.setPart_scr (s : State) (i : Nat) (p : Part) : (s.setPart i p).scr = s.scr := rfl
@[simp] theorem State.setPart_supMem (s : State) (i : Nat) (p : Part) : (s.setPart i p).supMem = s.supMem := rfl
@[simp] theorem State.setPart_poison (s : State) (i : Nat) (p : Part) : (s.setPart i p).poison = s.poison := rfl
@[simp] theorem State.setPart_poisonScr (s : State) (i : Nat) (p : Part) : (s.setPart i p).poisonScr = s.poisonScr := rfl
@[simp] theorem State.setPart_cores (s : State) (i : Nat) (p : Part) : (s.setPart i p).cores = s.cores := rfl
@[simp] theorem State.setPart_groups (s : State) (i : Nat) (p : Part) : (s.setPart i p).groups = s.groups := rfl
@[simp] theorem State.setPart_teams (s : State) (i : Nat) (p : Part) : (s.setPart i p).teams = s.teams := rfl
@[simp] theorem State.setPart_cmds (s : State) (i : Nat) (p : Part) : (s.setPart i p).cmds = s.cmds := rfl
@[simp] theorem State.setPart_waiters (s : State) (i : Nat) (p : Part) : (s.setPart i p).waiters = s.waiters := rfl
@[simp] theorem State.setPart_retained (s : State) (i : Nat) (p : Part) : (s.setPart i p).retained = s.retained := rfl
@[simp] theorem State.setPart_tlb (s : State) (i : Nat) (p : Part) : (s.setPart i p).tlb = s.tlb := rfl
@[simp] theorem State.setPart_walks (s : State) (i : Nat) (p : Part) : (s.setPart i p).walks = s.walks := rfl
@[simp] theorem State.setPart_invals (s : State) (i : Nat) (p : Part) : (s.setPart i p).invals = s.invals := rfl
@[simp] theorem State.setPart_peerGot (s : State) (i : Nat) (p : Part) : (s.setPart i p).peerGot = s.peerGot := rfl
@[simp] theorem State.setPart_streams (s : State) (i : Nat) (p : Part) : (s.setPart i p).streams = s.streams := rfl
@[simp] theorem State.setPart_streamReqs (s : State) (i : Nat) (p : Part) : (s.setPart i p).streamReqs = s.streamReqs := rfl
@[simp] theorem State.setPart_hub (s : State) (i : Nat) (p : Part) : (s.setPart i p).hub = s.hub := rfl
@[simp] theorem State.setPart_steps (s : State) (i : Nat) (p : Part) : (s.setPart i p).steps = s.steps := rfl
@[simp] theorem State.setPart_queues (s : State) (i : Nat) (p : Part) : (s.setPart i p).queues = s.queues := rfl
@[simp] theorem State.setPart_grids (s : State) (i : Nat) (p : Part) : (s.setPart i p).grids = s.grids := rfl
@[simp] theorem State.setPart_nextGrid (s : State) (i : Nat) (p : Part) : (s.setPart i p).nextGrid = s.nextGrid := rfl
@[simp] theorem State.setPart_nextRun (s : State) (i : Nat) (p : Part) : (s.setPart i p).nextRun = s.nextRun := rfl
@[simp] theorem State.setPart_nextHandle (s : State) (i : Nat) (p : Part) : (s.setPart i p).nextHandle = s.nextHandle := rfl
@[simp] theorem State.setPart_sealed (s : State) (i : Nat) (p : Part) : (s.setPart i p).sealed = s.sealed := rfl
@[simp] theorem State.setPart_runs (s : State) (i : Nat) (p : Part) : (s.setPart i p).runs = s.runs := rfl
@[simp] theorem State.setPart_mboxes (s : State) (i : Nat) (p : Part) : (s.setPart i p).mboxes = s.mboxes := rfl
@[simp] theorem State.setPart_rrQueue (s : State) (i : Nat) (p : Part) : (s.setPart i p).rrQueue = s.rrQueue := rfl
@[simp] theorem State.setPart_rrDevice (s : State) (i : Nat) (p : Part) : (s.setPart i p).rrDevice = s.rrDevice := rfl
@[simp] theorem State.setPart_nodes (s : State) (i : Nat) (p : Part) : (s.setPart i p).nodes = s.nodes := rfl
@[simp] theorem State.setPart_msgs (s : State) (i : Nat) (p : Part) : (s.setPart i p).msgs = s.msgs := rfl
@[simp] theorem State.setPart_chans (s : State) (i : Nat) (p : Part) : (s.setPart i p).chans = s.chans := rfl
@[simp] theorem State.setPart_seqOut (s : State) (i : Nat) (p : Part) : (s.setPart i p).seqOut = s.seqOut := rfl
@[simp] theorem State.setPart_seqIn (s : State) (i : Nat) (p : Part) : (s.setPart i p).seqIn = s.seqIn := rfl
@[simp] theorem State.setPart_outst (s : State) (i : Nat) (p : Part) : (s.setPart i p).outst = s.outst := rfl
@[simp] theorem State.setPart_rounds (s : State) (i : Nat) (p : Part) : (s.setPart i p).rounds = s.rounds := rfl
@[simp] theorem State.setPart_cab (s : State) (i : Nat) (p : Part) : (s.setPart i p).cab = s.cab := rfl
@[simp] theorem State.setPart_cabSeq (s : State) (i : Nat) (p : Part) : (s.setPart i p).cabSeq = s.cabSeq := rfl
@[simp] theorem State.setPart_out (s : State) (i : Nat) (p : Part) : (s.setPart i p).out = s.out := rfl
@[simp] theorem State.setPart_msixMask (s : State) (i : Nat) (p : Part) : (s.setPart i p).msixMask = s.msixMask := rfl
@[simp] theorem State.setPart_msixPend (s : State) (i : Nat) (p : Part) : (s.setPart i p).msixPend = s.msixPend := rfl
@[simp] theorem State.setPart_pages (s : State) (i : Nat) (p : Part) : (s.setPart i p).pages = s.pages := rfl
@[simp] theorem State.setPart_hbmUsed (s : State) (i : Nat) (p : Part) : (s.setPart i p).hbmUsed = s.hbmUsed := rfl
@[simp] theorem State.setPart_evicting (s : State) (i : Nat) (p : Part) : (s.setPart i p).evicting = s.evicting := rfl
@[simp] theorem State.setPart_epoch (s : State) (i : Nat) (p : Part) : (s.setPart i p).epoch = s.epoch := rfl
@[simp] theorem State.setPart_hour (s : State) (i : Nat) (p : Part) : (s.setPart i p).hour = s.hour := rfl
@[simp] theorem State.setPart_scrubDone (s : State) (i : Nat) (p : Part) : (s.setPart i p).scrubDone = s.scrubDone := rfl
@[simp] theorem State.setPart_scrubStart (s : State) (i : Nat) (p : Part) : (s.setPart i p).scrubStart = s.scrubStart := rfl
@[simp] theorem State.setPart_clockMHz (s : State) (i : Nat) (p : Part) : (s.setPart i p).clockMHz = s.clockMHz := rfl
@[simp] theorem State.setPart_fw (s : State) (i : Nat) (p : Part) : (s.setPart i p).fw = s.fw := rfl
@[simp] theorem State.setPart_spdmNeg (s : State) (i : Nat) (p : Part) : (s.setPart i p).spdmNeg = s.spdmNeg := rfl
@[simp] theorem State.setPart_privs (s : State) (i : Nat) (p : Part) : (s.setPart i p).privs = s.privs := rfl

/-! ### setQueue -/

@[simp] theorem State.setQueue_agenda (s : State) (i : Nat) (q : Queue) : (s.setQueue i q).agenda = s.agenda := rfl
@[simp] theorem State.setQueue_free (s : State) (i : Nat) (q : Queue) : (s.setQueue i q).free = s.free := rfl
@[simp] theorem State.setQueue_fresh (s : State) (i : Nat) (q : Queue) : (s.setQueue i q).fresh = s.fresh := rfl
@[simp] theorem State.setQueue_cur (s : State) (i : Nat) (q : Queue) : (s.setQueue i q).cur = s.cur := rfl
@[simp] theorem State.setQueue_now (s : State) (i : Nat) (q : Queue) : (s.setQueue i q).now = s.now := rfl
@[simp] theorem State.setQueue_us (s : State) (i : Nat) (q : Queue) : (s.setQueue i q).us = s.us := rfl
@[simp] theorem State.setQueue_halted (s : State) (i : Nat) (q : Queue) : (s.setQueue i q).halted = s.halted := rfl
@[simp] theorem State.setQueue_mem (s : State) (i : Nat) (q : Queue) : (s.setQueue i q).mem = s.mem := rfl
@[simp] theorem State.setQueue_hostMem (s : State) (i : Nat) (q : Queue) : (s.setQueue i q).hostMem = s.hostMem := rfl
@[simp] theorem State.setQueue_scr (s : State) (i : Nat) (q : Queue) : (s.setQueue i q).scr = s.scr := rfl
@[simp] theorem State.setQueue_supMem (s : State) (i : Nat) (q : Queue) : (s.setQueue i q).supMem = s.supMem := rfl
@[simp] theorem State.setQueue_poison (s : State) (i : Nat) (q : Queue) : (s.setQueue i q).poison = s.poison := rfl
@[simp] theorem State.setQueue_poisonScr (s : State) (i : Nat) (q : Queue) : (s.setQueue i q).poisonScr = s.poisonScr := rfl
@[simp] theorem State.setQueue_cores (s : State) (i : Nat) (q : Queue) : (s.setQueue i q).cores = s.cores := rfl
@[simp] theorem State.setQueue_parts (s : State) (i : Nat) (q : Queue) : (s.setQueue i q).parts = s.parts := rfl
@[simp] theorem State.setQueue_groups (s : State) (i : Nat) (q : Queue) : (s.setQueue i q).groups = s.groups := rfl
@[simp] theorem State.setQueue_teams (s : State) (i : Nat) (q : Queue) : (s.setQueue i q).teams = s.teams := rfl
@[simp] theorem State.setQueue_cmds (s : State) (i : Nat) (q : Queue) : (s.setQueue i q).cmds = s.cmds := rfl
@[simp] theorem State.setQueue_waiters (s : State) (i : Nat) (q : Queue) : (s.setQueue i q).waiters = s.waiters := rfl
@[simp] theorem State.setQueue_retained (s : State) (i : Nat) (q : Queue) : (s.setQueue i q).retained = s.retained := rfl
@[simp] theorem State.setQueue_tlb (s : State) (i : Nat) (q : Queue) : (s.setQueue i q).tlb = s.tlb := rfl
@[simp] theorem State.setQueue_walks (s : State) (i : Nat) (q : Queue) : (s.setQueue i q).walks = s.walks := rfl
@[simp] theorem State.setQueue_invals (s : State) (i : Nat) (q : Queue) : (s.setQueue i q).invals = s.invals := rfl
@[simp] theorem State.setQueue_peerGot (s : State) (i : Nat) (q : Queue) : (s.setQueue i q).peerGot = s.peerGot := rfl
@[simp] theorem State.setQueue_streams (s : State) (i : Nat) (q : Queue) : (s.setQueue i q).streams = s.streams := rfl
@[simp] theorem State.setQueue_streamReqs (s : State) (i : Nat) (q : Queue) : (s.setQueue i q).streamReqs = s.streamReqs := rfl
@[simp] theorem State.setQueue_hub (s : State) (i : Nat) (q : Queue) : (s.setQueue i q).hub = s.hub := rfl
@[simp] theorem State.setQueue_steps (s : State) (i : Nat) (q : Queue) : (s.setQueue i q).steps = s.steps := rfl
@[simp] theorem State.setQueue_grids (s : State) (i : Nat) (q : Queue) : (s.setQueue i q).grids = s.grids := rfl
@[simp] theorem State.setQueue_nextGrid (s : State) (i : Nat) (q : Queue) : (s.setQueue i q).nextGrid = s.nextGrid := rfl
@[simp] theorem State.setQueue_nextRun (s : State) (i : Nat) (q : Queue) : (s.setQueue i q).nextRun = s.nextRun := rfl
@[simp] theorem State.setQueue_nextHandle (s : State) (i : Nat) (q : Queue) : (s.setQueue i q).nextHandle = s.nextHandle := rfl
@[simp] theorem State.setQueue_sealed (s : State) (i : Nat) (q : Queue) : (s.setQueue i q).sealed = s.sealed := rfl
@[simp] theorem State.setQueue_runs (s : State) (i : Nat) (q : Queue) : (s.setQueue i q).runs = s.runs := rfl
@[simp] theorem State.setQueue_mboxes (s : State) (i : Nat) (q : Queue) : (s.setQueue i q).mboxes = s.mboxes := rfl
@[simp] theorem State.setQueue_rrQueue (s : State) (i : Nat) (q : Queue) : (s.setQueue i q).rrQueue = s.rrQueue := rfl
@[simp] theorem State.setQueue_rrDevice (s : State) (i : Nat) (q : Queue) : (s.setQueue i q).rrDevice = s.rrDevice := rfl
@[simp] theorem State.setQueue_nodes (s : State) (i : Nat) (q : Queue) : (s.setQueue i q).nodes = s.nodes := rfl
@[simp] theorem State.setQueue_msgs (s : State) (i : Nat) (q : Queue) : (s.setQueue i q).msgs = s.msgs := rfl
@[simp] theorem State.setQueue_chans (s : State) (i : Nat) (q : Queue) : (s.setQueue i q).chans = s.chans := rfl
@[simp] theorem State.setQueue_seqOut (s : State) (i : Nat) (q : Queue) : (s.setQueue i q).seqOut = s.seqOut := rfl
@[simp] theorem State.setQueue_seqIn (s : State) (i : Nat) (q : Queue) : (s.setQueue i q).seqIn = s.seqIn := rfl
@[simp] theorem State.setQueue_outst (s : State) (i : Nat) (q : Queue) : (s.setQueue i q).outst = s.outst := rfl
@[simp] theorem State.setQueue_rounds (s : State) (i : Nat) (q : Queue) : (s.setQueue i q).rounds = s.rounds := rfl
@[simp] theorem State.setQueue_cab (s : State) (i : Nat) (q : Queue) : (s.setQueue i q).cab = s.cab := rfl
@[simp] theorem State.setQueue_cabSeq (s : State) (i : Nat) (q : Queue) : (s.setQueue i q).cabSeq = s.cabSeq := rfl
@[simp] theorem State.setQueue_out (s : State) (i : Nat) (q : Queue) : (s.setQueue i q).out = s.out := rfl
@[simp] theorem State.setQueue_msixMask (s : State) (i : Nat) (q : Queue) : (s.setQueue i q).msixMask = s.msixMask := rfl
@[simp] theorem State.setQueue_msixPend (s : State) (i : Nat) (q : Queue) : (s.setQueue i q).msixPend = s.msixPend := rfl
@[simp] theorem State.setQueue_pages (s : State) (i : Nat) (q : Queue) : (s.setQueue i q).pages = s.pages := rfl
@[simp] theorem State.setQueue_hbmUsed (s : State) (i : Nat) (q : Queue) : (s.setQueue i q).hbmUsed = s.hbmUsed := rfl
@[simp] theorem State.setQueue_evicting (s : State) (i : Nat) (q : Queue) : (s.setQueue i q).evicting = s.evicting := rfl
@[simp] theorem State.setQueue_epoch (s : State) (i : Nat) (q : Queue) : (s.setQueue i q).epoch = s.epoch := rfl
@[simp] theorem State.setQueue_hour (s : State) (i : Nat) (q : Queue) : (s.setQueue i q).hour = s.hour := rfl
@[simp] theorem State.setQueue_scrubDone (s : State) (i : Nat) (q : Queue) : (s.setQueue i q).scrubDone = s.scrubDone := rfl
@[simp] theorem State.setQueue_scrubStart (s : State) (i : Nat) (q : Queue) : (s.setQueue i q).scrubStart = s.scrubStart := rfl
@[simp] theorem State.setQueue_clockMHz (s : State) (i : Nat) (q : Queue) : (s.setQueue i q).clockMHz = s.clockMHz := rfl
@[simp] theorem State.setQueue_fw (s : State) (i : Nat) (q : Queue) : (s.setQueue i q).fw = s.fw := rfl
@[simp] theorem State.setQueue_spdmNeg (s : State) (i : Nat) (q : Queue) : (s.setQueue i q).spdmNeg = s.spdmNeg := rfl
@[simp] theorem State.setQueue_privs (s : State) (i : Nat) (q : Queue) : (s.setQueue i q).privs = s.privs := rfl

/-! ### setMbox -/

@[simp] theorem State.setMbox_agenda (s : State) (i : Nat) (m : Mbox) : (s.setMbox i m).agenda = s.agenda := rfl
@[simp] theorem State.setMbox_free (s : State) (i : Nat) (m : Mbox) : (s.setMbox i m).free = s.free := rfl
@[simp] theorem State.setMbox_fresh (s : State) (i : Nat) (m : Mbox) : (s.setMbox i m).fresh = s.fresh := rfl
@[simp] theorem State.setMbox_cur (s : State) (i : Nat) (m : Mbox) : (s.setMbox i m).cur = s.cur := rfl
@[simp] theorem State.setMbox_now (s : State) (i : Nat) (m : Mbox) : (s.setMbox i m).now = s.now := rfl
@[simp] theorem State.setMbox_us (s : State) (i : Nat) (m : Mbox) : (s.setMbox i m).us = s.us := rfl
@[simp] theorem State.setMbox_halted (s : State) (i : Nat) (m : Mbox) : (s.setMbox i m).halted = s.halted := rfl
@[simp] theorem State.setMbox_mem (s : State) (i : Nat) (m : Mbox) : (s.setMbox i m).mem = s.mem := rfl
@[simp] theorem State.setMbox_hostMem (s : State) (i : Nat) (m : Mbox) : (s.setMbox i m).hostMem = s.hostMem := rfl
@[simp] theorem State.setMbox_scr (s : State) (i : Nat) (m : Mbox) : (s.setMbox i m).scr = s.scr := rfl
@[simp] theorem State.setMbox_supMem (s : State) (i : Nat) (m : Mbox) : (s.setMbox i m).supMem = s.supMem := rfl
@[simp] theorem State.setMbox_poison (s : State) (i : Nat) (m : Mbox) : (s.setMbox i m).poison = s.poison := rfl
@[simp] theorem State.setMbox_poisonScr (s : State) (i : Nat) (m : Mbox) : (s.setMbox i m).poisonScr = s.poisonScr := rfl
@[simp] theorem State.setMbox_cores (s : State) (i : Nat) (m : Mbox) : (s.setMbox i m).cores = s.cores := rfl
@[simp] theorem State.setMbox_parts (s : State) (i : Nat) (m : Mbox) : (s.setMbox i m).parts = s.parts := rfl
@[simp] theorem State.setMbox_groups (s : State) (i : Nat) (m : Mbox) : (s.setMbox i m).groups = s.groups := rfl
@[simp] theorem State.setMbox_teams (s : State) (i : Nat) (m : Mbox) : (s.setMbox i m).teams = s.teams := rfl
@[simp] theorem State.setMbox_cmds (s : State) (i : Nat) (m : Mbox) : (s.setMbox i m).cmds = s.cmds := rfl
@[simp] theorem State.setMbox_waiters (s : State) (i : Nat) (m : Mbox) : (s.setMbox i m).waiters = s.waiters := rfl
@[simp] theorem State.setMbox_retained (s : State) (i : Nat) (m : Mbox) : (s.setMbox i m).retained = s.retained := rfl
@[simp] theorem State.setMbox_tlb (s : State) (i : Nat) (m : Mbox) : (s.setMbox i m).tlb = s.tlb := rfl
@[simp] theorem State.setMbox_walks (s : State) (i : Nat) (m : Mbox) : (s.setMbox i m).walks = s.walks := rfl
@[simp] theorem State.setMbox_invals (s : State) (i : Nat) (m : Mbox) : (s.setMbox i m).invals = s.invals := rfl
@[simp] theorem State.setMbox_peerGot (s : State) (i : Nat) (m : Mbox) : (s.setMbox i m).peerGot = s.peerGot := rfl
@[simp] theorem State.setMbox_streams (s : State) (i : Nat) (m : Mbox) : (s.setMbox i m).streams = s.streams := rfl
@[simp] theorem State.setMbox_streamReqs (s : State) (i : Nat) (m : Mbox) : (s.setMbox i m).streamReqs = s.streamReqs := rfl
@[simp] theorem State.setMbox_hub (s : State) (i : Nat) (m : Mbox) : (s.setMbox i m).hub = s.hub := rfl
@[simp] theorem State.setMbox_steps (s : State) (i : Nat) (m : Mbox) : (s.setMbox i m).steps = s.steps := rfl
@[simp] theorem State.setMbox_queues (s : State) (i : Nat) (m : Mbox) : (s.setMbox i m).queues = s.queues := rfl
@[simp] theorem State.setMbox_grids (s : State) (i : Nat) (m : Mbox) : (s.setMbox i m).grids = s.grids := rfl
@[simp] theorem State.setMbox_nextGrid (s : State) (i : Nat) (m : Mbox) : (s.setMbox i m).nextGrid = s.nextGrid := rfl
@[simp] theorem State.setMbox_nextRun (s : State) (i : Nat) (m : Mbox) : (s.setMbox i m).nextRun = s.nextRun := rfl
@[simp] theorem State.setMbox_nextHandle (s : State) (i : Nat) (m : Mbox) : (s.setMbox i m).nextHandle = s.nextHandle := rfl
@[simp] theorem State.setMbox_sealed (s : State) (i : Nat) (m : Mbox) : (s.setMbox i m).sealed = s.sealed := rfl
@[simp] theorem State.setMbox_runs (s : State) (i : Nat) (m : Mbox) : (s.setMbox i m).runs = s.runs := rfl
@[simp] theorem State.setMbox_rrQueue (s : State) (i : Nat) (m : Mbox) : (s.setMbox i m).rrQueue = s.rrQueue := rfl
@[simp] theorem State.setMbox_rrDevice (s : State) (i : Nat) (m : Mbox) : (s.setMbox i m).rrDevice = s.rrDevice := rfl
@[simp] theorem State.setMbox_nodes (s : State) (i : Nat) (m : Mbox) : (s.setMbox i m).nodes = s.nodes := rfl
@[simp] theorem State.setMbox_msgs (s : State) (i : Nat) (m : Mbox) : (s.setMbox i m).msgs = s.msgs := rfl
@[simp] theorem State.setMbox_chans (s : State) (i : Nat) (m : Mbox) : (s.setMbox i m).chans = s.chans := rfl
@[simp] theorem State.setMbox_seqOut (s : State) (i : Nat) (m : Mbox) : (s.setMbox i m).seqOut = s.seqOut := rfl
@[simp] theorem State.setMbox_seqIn (s : State) (i : Nat) (m : Mbox) : (s.setMbox i m).seqIn = s.seqIn := rfl
@[simp] theorem State.setMbox_outst (s : State) (i : Nat) (m : Mbox) : (s.setMbox i m).outst = s.outst := rfl
@[simp] theorem State.setMbox_rounds (s : State) (i : Nat) (m : Mbox) : (s.setMbox i m).rounds = s.rounds := rfl
@[simp] theorem State.setMbox_cab (s : State) (i : Nat) (m : Mbox) : (s.setMbox i m).cab = s.cab := rfl
@[simp] theorem State.setMbox_cabSeq (s : State) (i : Nat) (m : Mbox) : (s.setMbox i m).cabSeq = s.cabSeq := rfl
@[simp] theorem State.setMbox_out (s : State) (i : Nat) (m : Mbox) : (s.setMbox i m).out = s.out := rfl
@[simp] theorem State.setMbox_msixMask (s : State) (i : Nat) (m : Mbox) : (s.setMbox i m).msixMask = s.msixMask := rfl
@[simp] theorem State.setMbox_msixPend (s : State) (i : Nat) (m : Mbox) : (s.setMbox i m).msixPend = s.msixPend := rfl
@[simp] theorem State.setMbox_pages (s : State) (i : Nat) (m : Mbox) : (s.setMbox i m).pages = s.pages := rfl
@[simp] theorem State.setMbox_hbmUsed (s : State) (i : Nat) (m : Mbox) : (s.setMbox i m).hbmUsed = s.hbmUsed := rfl
@[simp] theorem State.setMbox_evicting (s : State) (i : Nat) (m : Mbox) : (s.setMbox i m).evicting = s.evicting := rfl
@[simp] theorem State.setMbox_epoch (s : State) (i : Nat) (m : Mbox) : (s.setMbox i m).epoch = s.epoch := rfl
@[simp] theorem State.setMbox_hour (s : State) (i : Nat) (m : Mbox) : (s.setMbox i m).hour = s.hour := rfl
@[simp] theorem State.setMbox_scrubDone (s : State) (i : Nat) (m : Mbox) : (s.setMbox i m).scrubDone = s.scrubDone := rfl
@[simp] theorem State.setMbox_scrubStart (s : State) (i : Nat) (m : Mbox) : (s.setMbox i m).scrubStart = s.scrubStart := rfl
@[simp] theorem State.setMbox_clockMHz (s : State) (i : Nat) (m : Mbox) : (s.setMbox i m).clockMHz = s.clockMHz := rfl
@[simp] theorem State.setMbox_fw (s : State) (i : Nat) (m : Mbox) : (s.setMbox i m).fw = s.fw := rfl
@[simp] theorem State.setMbox_spdmNeg (s : State) (i : Nat) (m : Mbox) : (s.setMbox i m).spdmNeg = s.spdmNeg := rfl
@[simp] theorem State.setMbox_privs (s : State) (i : Nat) (m : Mbox) : (s.setMbox i m).privs = s.privs := rfl

/-! ### setChan -/

@[simp] theorem State.setChan_agenda (s : State) (i j : Nat) (c : Chan) : (s.setChan i j c).agenda = s.agenda := rfl
@[simp] theorem State.setChan_free (s : State) (i j : Nat) (c : Chan) : (s.setChan i j c).free = s.free := rfl
@[simp] theorem State.setChan_fresh (s : State) (i j : Nat) (c : Chan) : (s.setChan i j c).fresh = s.fresh := rfl
@[simp] theorem State.setChan_cur (s : State) (i j : Nat) (c : Chan) : (s.setChan i j c).cur = s.cur := rfl
@[simp] theorem State.setChan_now (s : State) (i j : Nat) (c : Chan) : (s.setChan i j c).now = s.now := rfl
@[simp] theorem State.setChan_us (s : State) (i j : Nat) (c : Chan) : (s.setChan i j c).us = s.us := rfl
@[simp] theorem State.setChan_halted (s : State) (i j : Nat) (c : Chan) : (s.setChan i j c).halted = s.halted := rfl
@[simp] theorem State.setChan_mem (s : State) (i j : Nat) (c : Chan) : (s.setChan i j c).mem = s.mem := rfl
@[simp] theorem State.setChan_hostMem (s : State) (i j : Nat) (c : Chan) : (s.setChan i j c).hostMem = s.hostMem := rfl
@[simp] theorem State.setChan_scr (s : State) (i j : Nat) (c : Chan) : (s.setChan i j c).scr = s.scr := rfl
@[simp] theorem State.setChan_supMem (s : State) (i j : Nat) (c : Chan) : (s.setChan i j c).supMem = s.supMem := rfl
@[simp] theorem State.setChan_poison (s : State) (i j : Nat) (c : Chan) : (s.setChan i j c).poison = s.poison := rfl
@[simp] theorem State.setChan_poisonScr (s : State) (i j : Nat) (c : Chan) : (s.setChan i j c).poisonScr = s.poisonScr := rfl
@[simp] theorem State.setChan_cores (s : State) (i j : Nat) (c : Chan) : (s.setChan i j c).cores = s.cores := rfl
@[simp] theorem State.setChan_parts (s : State) (i j : Nat) (c : Chan) : (s.setChan i j c).parts = s.parts := rfl
@[simp] theorem State.setChan_groups (s : State) (i j : Nat) (c : Chan) : (s.setChan i j c).groups = s.groups := rfl
@[simp] theorem State.setChan_teams (s : State) (i j : Nat) (c : Chan) : (s.setChan i j c).teams = s.teams := rfl
@[simp] theorem State.setChan_cmds (s : State) (i j : Nat) (c : Chan) : (s.setChan i j c).cmds = s.cmds := rfl
@[simp] theorem State.setChan_waiters (s : State) (i j : Nat) (c : Chan) : (s.setChan i j c).waiters = s.waiters := rfl
@[simp] theorem State.setChan_retained (s : State) (i j : Nat) (c : Chan) : (s.setChan i j c).retained = s.retained := rfl
@[simp] theorem State.setChan_tlb (s : State) (i j : Nat) (c : Chan) : (s.setChan i j c).tlb = s.tlb := rfl
@[simp] theorem State.setChan_walks (s : State) (i j : Nat) (c : Chan) : (s.setChan i j c).walks = s.walks := rfl
@[simp] theorem State.setChan_invals (s : State) (i j : Nat) (c : Chan) : (s.setChan i j c).invals = s.invals := rfl
@[simp] theorem State.setChan_peerGot (s : State) (i j : Nat) (c : Chan) : (s.setChan i j c).peerGot = s.peerGot := rfl
@[simp] theorem State.setChan_streams (s : State) (i j : Nat) (c : Chan) : (s.setChan i j c).streams = s.streams := rfl
@[simp] theorem State.setChan_streamReqs (s : State) (i j : Nat) (c : Chan) : (s.setChan i j c).streamReqs = s.streamReqs := rfl
@[simp] theorem State.setChan_hub (s : State) (i j : Nat) (c : Chan) : (s.setChan i j c).hub = s.hub := rfl
@[simp] theorem State.setChan_steps (s : State) (i j : Nat) (c : Chan) : (s.setChan i j c).steps = s.steps := rfl
@[simp] theorem State.setChan_queues (s : State) (i j : Nat) (c : Chan) : (s.setChan i j c).queues = s.queues := rfl
@[simp] theorem State.setChan_grids (s : State) (i j : Nat) (c : Chan) : (s.setChan i j c).grids = s.grids := rfl
@[simp] theorem State.setChan_nextGrid (s : State) (i j : Nat) (c : Chan) : (s.setChan i j c).nextGrid = s.nextGrid := rfl
@[simp] theorem State.setChan_nextRun (s : State) (i j : Nat) (c : Chan) : (s.setChan i j c).nextRun = s.nextRun := rfl
@[simp] theorem State.setChan_nextHandle (s : State) (i j : Nat) (c : Chan) : (s.setChan i j c).nextHandle = s.nextHandle := rfl
@[simp] theorem State.setChan_sealed (s : State) (i j : Nat) (c : Chan) : (s.setChan i j c).sealed = s.sealed := rfl
@[simp] theorem State.setChan_runs (s : State) (i j : Nat) (c : Chan) : (s.setChan i j c).runs = s.runs := rfl
@[simp] theorem State.setChan_mboxes (s : State) (i j : Nat) (c : Chan) : (s.setChan i j c).mboxes = s.mboxes := rfl
@[simp] theorem State.setChan_rrQueue (s : State) (i j : Nat) (c : Chan) : (s.setChan i j c).rrQueue = s.rrQueue := rfl
@[simp] theorem State.setChan_rrDevice (s : State) (i j : Nat) (c : Chan) : (s.setChan i j c).rrDevice = s.rrDevice := rfl
@[simp] theorem State.setChan_nodes (s : State) (i j : Nat) (c : Chan) : (s.setChan i j c).nodes = s.nodes := rfl
@[simp] theorem State.setChan_msgs (s : State) (i j : Nat) (c : Chan) : (s.setChan i j c).msgs = s.msgs := rfl
@[simp] theorem State.setChan_seqOut (s : State) (i j : Nat) (c : Chan) : (s.setChan i j c).seqOut = s.seqOut := rfl
@[simp] theorem State.setChan_seqIn (s : State) (i j : Nat) (c : Chan) : (s.setChan i j c).seqIn = s.seqIn := rfl
@[simp] theorem State.setChan_outst (s : State) (i j : Nat) (c : Chan) : (s.setChan i j c).outst = s.outst := rfl
@[simp] theorem State.setChan_rounds (s : State) (i j : Nat) (c : Chan) : (s.setChan i j c).rounds = s.rounds := rfl
@[simp] theorem State.setChan_cab (s : State) (i j : Nat) (c : Chan) : (s.setChan i j c).cab = s.cab := rfl
@[simp] theorem State.setChan_cabSeq (s : State) (i j : Nat) (c : Chan) : (s.setChan i j c).cabSeq = s.cabSeq := rfl
@[simp] theorem State.setChan_out (s : State) (i j : Nat) (c : Chan) : (s.setChan i j c).out = s.out := rfl
@[simp] theorem State.setChan_msixMask (s : State) (i j : Nat) (c : Chan) : (s.setChan i j c).msixMask = s.msixMask := rfl
@[simp] theorem State.setChan_msixPend (s : State) (i j : Nat) (c : Chan) : (s.setChan i j c).msixPend = s.msixPend := rfl
@[simp] theorem State.setChan_pages (s : State) (i j : Nat) (c : Chan) : (s.setChan i j c).pages = s.pages := rfl
@[simp] theorem State.setChan_hbmUsed (s : State) (i j : Nat) (c : Chan) : (s.setChan i j c).hbmUsed = s.hbmUsed := rfl
@[simp] theorem State.setChan_evicting (s : State) (i j : Nat) (c : Chan) : (s.setChan i j c).evicting = s.evicting := rfl
@[simp] theorem State.setChan_epoch (s : State) (i j : Nat) (c : Chan) : (s.setChan i j c).epoch = s.epoch := rfl
@[simp] theorem State.setChan_hour (s : State) (i j : Nat) (c : Chan) : (s.setChan i j c).hour = s.hour := rfl
@[simp] theorem State.setChan_scrubDone (s : State) (i j : Nat) (c : Chan) : (s.setChan i j c).scrubDone = s.scrubDone := rfl
@[simp] theorem State.setChan_scrubStart (s : State) (i j : Nat) (c : Chan) : (s.setChan i j c).scrubStart = s.scrubStart := rfl
@[simp] theorem State.setChan_clockMHz (s : State) (i j : Nat) (c : Chan) : (s.setChan i j c).clockMHz = s.clockMHz := rfl
@[simp] theorem State.setChan_fw (s : State) (i j : Nat) (c : Chan) : (s.setChan i j c).fw = s.fw := rfl
@[simp] theorem State.setChan_spdmNeg (s : State) (i j : Nat) (c : Chan) : (s.setChan i j c).spdmNeg = s.spdmNeg := rfl
@[simp] theorem State.setChan_privs (s : State) (i j : Nat) (c : Chan) : (s.setChan i j c).privs = s.privs := rfl

/-! ### setPage -/

@[simp] theorem State.setPage_agenda (s : State) (i : Nat) (p : PageSt) : (s.setPage i p).agenda = s.agenda := rfl
@[simp] theorem State.setPage_free (s : State) (i : Nat) (p : PageSt) : (s.setPage i p).free = s.free := rfl
@[simp] theorem State.setPage_fresh (s : State) (i : Nat) (p : PageSt) : (s.setPage i p).fresh = s.fresh := rfl
@[simp] theorem State.setPage_cur (s : State) (i : Nat) (p : PageSt) : (s.setPage i p).cur = s.cur := rfl
@[simp] theorem State.setPage_now (s : State) (i : Nat) (p : PageSt) : (s.setPage i p).now = s.now := rfl
@[simp] theorem State.setPage_us (s : State) (i : Nat) (p : PageSt) : (s.setPage i p).us = s.us := rfl
@[simp] theorem State.setPage_halted (s : State) (i : Nat) (p : PageSt) : (s.setPage i p).halted = s.halted := rfl
@[simp] theorem State.setPage_mem (s : State) (i : Nat) (p : PageSt) : (s.setPage i p).mem = s.mem := rfl
@[simp] theorem State.setPage_hostMem (s : State) (i : Nat) (p : PageSt) : (s.setPage i p).hostMem = s.hostMem := rfl
@[simp] theorem State.setPage_scr (s : State) (i : Nat) (p : PageSt) : (s.setPage i p).scr = s.scr := rfl
@[simp] theorem State.setPage_supMem (s : State) (i : Nat) (p : PageSt) : (s.setPage i p).supMem = s.supMem := rfl
@[simp] theorem State.setPage_poison (s : State) (i : Nat) (p : PageSt) : (s.setPage i p).poison = s.poison := rfl
@[simp] theorem State.setPage_poisonScr (s : State) (i : Nat) (p : PageSt) : (s.setPage i p).poisonScr = s.poisonScr := rfl
@[simp] theorem State.setPage_cores (s : State) (i : Nat) (p : PageSt) : (s.setPage i p).cores = s.cores := rfl
@[simp] theorem State.setPage_parts (s : State) (i : Nat) (p : PageSt) : (s.setPage i p).parts = s.parts := rfl
@[simp] theorem State.setPage_groups (s : State) (i : Nat) (p : PageSt) : (s.setPage i p).groups = s.groups := rfl
@[simp] theorem State.setPage_teams (s : State) (i : Nat) (p : PageSt) : (s.setPage i p).teams = s.teams := rfl
@[simp] theorem State.setPage_cmds (s : State) (i : Nat) (p : PageSt) : (s.setPage i p).cmds = s.cmds := rfl
@[simp] theorem State.setPage_waiters (s : State) (i : Nat) (p : PageSt) : (s.setPage i p).waiters = s.waiters := rfl
@[simp] theorem State.setPage_retained (s : State) (i : Nat) (p : PageSt) : (s.setPage i p).retained = s.retained := rfl
@[simp] theorem State.setPage_tlb (s : State) (i : Nat) (p : PageSt) : (s.setPage i p).tlb = s.tlb := rfl
@[simp] theorem State.setPage_walks (s : State) (i : Nat) (p : PageSt) : (s.setPage i p).walks = s.walks := rfl
@[simp] theorem State.setPage_invals (s : State) (i : Nat) (p : PageSt) : (s.setPage i p).invals = s.invals := rfl
@[simp] theorem State.setPage_peerGot (s : State) (i : Nat) (p : PageSt) : (s.setPage i p).peerGot = s.peerGot := rfl
@[simp] theorem State.setPage_streams (s : State) (i : Nat) (p : PageSt) : (s.setPage i p).streams = s.streams := rfl
@[simp] theorem State.setPage_streamReqs (s : State) (i : Nat) (p : PageSt) : (s.setPage i p).streamReqs = s.streamReqs := rfl
@[simp] theorem State.setPage_hub (s : State) (i : Nat) (p : PageSt) : (s.setPage i p).hub = s.hub := rfl
@[simp] theorem State.setPage_steps (s : State) (i : Nat) (p : PageSt) : (s.setPage i p).steps = s.steps := rfl
@[simp] theorem State.setPage_queues (s : State) (i : Nat) (p : PageSt) : (s.setPage i p).queues = s.queues := rfl
@[simp] theorem State.setPage_grids (s : State) (i : Nat) (p : PageSt) : (s.setPage i p).grids = s.grids := rfl
@[simp] theorem State.setPage_nextGrid (s : State) (i : Nat) (p : PageSt) : (s.setPage i p).nextGrid = s.nextGrid := rfl
@[simp] theorem State.setPage_nextRun (s : State) (i : Nat) (p : PageSt) : (s.setPage i p).nextRun = s.nextRun := rfl
@[simp] theorem State.setPage_nextHandle (s : State) (i : Nat) (p : PageSt) : (s.setPage i p).nextHandle = s.nextHandle := rfl
@[simp] theorem State.setPage_sealed (s : State) (i : Nat) (p : PageSt) : (s.setPage i p).sealed = s.sealed := rfl
@[simp] theorem State.setPage_runs (s : State) (i : Nat) (p : PageSt) : (s.setPage i p).runs = s.runs := rfl
@[simp] theorem State.setPage_mboxes (s : State) (i : Nat) (p : PageSt) : (s.setPage i p).mboxes = s.mboxes := rfl
@[simp] theorem State.setPage_rrQueue (s : State) (i : Nat) (p : PageSt) : (s.setPage i p).rrQueue = s.rrQueue := rfl
@[simp] theorem State.setPage_rrDevice (s : State) (i : Nat) (p : PageSt) : (s.setPage i p).rrDevice = s.rrDevice := rfl
@[simp] theorem State.setPage_nodes (s : State) (i : Nat) (p : PageSt) : (s.setPage i p).nodes = s.nodes := rfl
@[simp] theorem State.setPage_msgs (s : State) (i : Nat) (p : PageSt) : (s.setPage i p).msgs = s.msgs := rfl
@[simp] theorem State.setPage_chans (s : State) (i : Nat) (p : PageSt) : (s.setPage i p).chans = s.chans := rfl
@[simp] theorem State.setPage_seqOut (s : State) (i : Nat) (p : PageSt) : (s.setPage i p).seqOut = s.seqOut := rfl
@[simp] theorem State.setPage_seqIn (s : State) (i : Nat) (p : PageSt) : (s.setPage i p).seqIn = s.seqIn := rfl
@[simp] theorem State.setPage_outst (s : State) (i : Nat) (p : PageSt) : (s.setPage i p).outst = s.outst := rfl
@[simp] theorem State.setPage_rounds (s : State) (i : Nat) (p : PageSt) : (s.setPage i p).rounds = s.rounds := rfl
@[simp] theorem State.setPage_cab (s : State) (i : Nat) (p : PageSt) : (s.setPage i p).cab = s.cab := rfl
@[simp] theorem State.setPage_cabSeq (s : State) (i : Nat) (p : PageSt) : (s.setPage i p).cabSeq = s.cabSeq := rfl
@[simp] theorem State.setPage_out (s : State) (i : Nat) (p : PageSt) : (s.setPage i p).out = s.out := rfl
@[simp] theorem State.setPage_msixMask (s : State) (i : Nat) (p : PageSt) : (s.setPage i p).msixMask = s.msixMask := rfl
@[simp] theorem State.setPage_msixPend (s : State) (i : Nat) (p : PageSt) : (s.setPage i p).msixPend = s.msixPend := rfl
@[simp] theorem State.setPage_hbmUsed (s : State) (i : Nat) (p : PageSt) : (s.setPage i p).hbmUsed = s.hbmUsed := rfl
@[simp] theorem State.setPage_evicting (s : State) (i : Nat) (p : PageSt) : (s.setPage i p).evicting = s.evicting := rfl
@[simp] theorem State.setPage_epoch (s : State) (i : Nat) (p : PageSt) : (s.setPage i p).epoch = s.epoch := rfl
@[simp] theorem State.setPage_hour (s : State) (i : Nat) (p : PageSt) : (s.setPage i p).hour = s.hour := rfl
@[simp] theorem State.setPage_scrubDone (s : State) (i : Nat) (p : PageSt) : (s.setPage i p).scrubDone = s.scrubDone := rfl
@[simp] theorem State.setPage_scrubStart (s : State) (i : Nat) (p : PageSt) : (s.setPage i p).scrubStart = s.scrubStart := rfl
@[simp] theorem State.setPage_clockMHz (s : State) (i : Nat) (p : PageSt) : (s.setPage i p).clockMHz = s.clockMHz := rfl
@[simp] theorem State.setPage_fw (s : State) (i : Nat) (p : PageSt) : (s.setPage i p).fw = s.fw := rfl
@[simp] theorem State.setPage_spdmNeg (s : State) (i : Nat) (p : PageSt) : (s.setPage i p).spdmNeg = s.spdmNeg := rfl
@[simp] theorem State.setPage_privs (s : State) (i : Nat) (p : PageSt) : (s.setPage i p).privs = s.privs := rfl

/-! ### setGrid -/

@[simp] theorem State.setGrid_agenda (s : State) (g : Grid) : (s.setGrid g).agenda = s.agenda := rfl
@[simp] theorem State.setGrid_free (s : State) (g : Grid) : (s.setGrid g).free = s.free := rfl
@[simp] theorem State.setGrid_fresh (s : State) (g : Grid) : (s.setGrid g).fresh = s.fresh := rfl
@[simp] theorem State.setGrid_cur (s : State) (g : Grid) : (s.setGrid g).cur = s.cur := rfl
@[simp] theorem State.setGrid_now (s : State) (g : Grid) : (s.setGrid g).now = s.now := rfl
@[simp] theorem State.setGrid_us (s : State) (g : Grid) : (s.setGrid g).us = s.us := rfl
@[simp] theorem State.setGrid_halted (s : State) (g : Grid) : (s.setGrid g).halted = s.halted := rfl
@[simp] theorem State.setGrid_mem (s : State) (g : Grid) : (s.setGrid g).mem = s.mem := rfl
@[simp] theorem State.setGrid_hostMem (s : State) (g : Grid) : (s.setGrid g).hostMem = s.hostMem := rfl
@[simp] theorem State.setGrid_scr (s : State) (g : Grid) : (s.setGrid g).scr = s.scr := rfl
@[simp] theorem State.setGrid_supMem (s : State) (g : Grid) : (s.setGrid g).supMem = s.supMem := rfl
@[simp] theorem State.setGrid_poison (s : State) (g : Grid) : (s.setGrid g).poison = s.poison := rfl
@[simp] theorem State.setGrid_poisonScr (s : State) (g : Grid) : (s.setGrid g).poisonScr = s.poisonScr := rfl
@[simp] theorem State.setGrid_cores (s : State) (g : Grid) : (s.setGrid g).cores = s.cores := rfl
@[simp] theorem State.setGrid_parts (s : State) (g : Grid) : (s.setGrid g).parts = s.parts := rfl
@[simp] theorem State.setGrid_groups (s : State) (g : Grid) : (s.setGrid g).groups = s.groups := rfl
@[simp] theorem State.setGrid_teams (s : State) (g : Grid) : (s.setGrid g).teams = s.teams := rfl
@[simp] theorem State.setGrid_cmds (s : State) (g : Grid) : (s.setGrid g).cmds = s.cmds := rfl
@[simp] theorem State.setGrid_waiters (s : State) (g : Grid) : (s.setGrid g).waiters = s.waiters := rfl
@[simp] theorem State.setGrid_retained (s : State) (g : Grid) : (s.setGrid g).retained = s.retained := rfl
@[simp] theorem State.setGrid_tlb (s : State) (g : Grid) : (s.setGrid g).tlb = s.tlb := rfl
@[simp] theorem State.setGrid_walks (s : State) (g : Grid) : (s.setGrid g).walks = s.walks := rfl
@[simp] theorem State.setGrid_invals (s : State) (g : Grid) : (s.setGrid g).invals = s.invals := rfl
@[simp] theorem State.setGrid_peerGot (s : State) (g : Grid) : (s.setGrid g).peerGot = s.peerGot := rfl
@[simp] theorem State.setGrid_streams (s : State) (g : Grid) : (s.setGrid g).streams = s.streams := rfl
@[simp] theorem State.setGrid_streamReqs (s : State) (g : Grid) : (s.setGrid g).streamReqs = s.streamReqs := rfl
@[simp] theorem State.setGrid_hub (s : State) (g : Grid) : (s.setGrid g).hub = s.hub := rfl
@[simp] theorem State.setGrid_steps (s : State) (g : Grid) : (s.setGrid g).steps = s.steps := rfl
@[simp] theorem State.setGrid_queues (s : State) (g : Grid) : (s.setGrid g).queues = s.queues := rfl
@[simp] theorem State.setGrid_nextGrid (s : State) (g : Grid) : (s.setGrid g).nextGrid = s.nextGrid := rfl
@[simp] theorem State.setGrid_nextRun (s : State) (g : Grid) : (s.setGrid g).nextRun = s.nextRun := rfl
@[simp] theorem State.setGrid_nextHandle (s : State) (g : Grid) : (s.setGrid g).nextHandle = s.nextHandle := rfl
@[simp] theorem State.setGrid_sealed (s : State) (g : Grid) : (s.setGrid g).sealed = s.sealed := rfl
@[simp] theorem State.setGrid_runs (s : State) (g : Grid) : (s.setGrid g).runs = s.runs := rfl
@[simp] theorem State.setGrid_mboxes (s : State) (g : Grid) : (s.setGrid g).mboxes = s.mboxes := rfl
@[simp] theorem State.setGrid_rrQueue (s : State) (g : Grid) : (s.setGrid g).rrQueue = s.rrQueue := rfl
@[simp] theorem State.setGrid_rrDevice (s : State) (g : Grid) : (s.setGrid g).rrDevice = s.rrDevice := rfl
@[simp] theorem State.setGrid_nodes (s : State) (g : Grid) : (s.setGrid g).nodes = s.nodes := rfl
@[simp] theorem State.setGrid_msgs (s : State) (g : Grid) : (s.setGrid g).msgs = s.msgs := rfl
@[simp] theorem State.setGrid_chans (s : State) (g : Grid) : (s.setGrid g).chans = s.chans := rfl
@[simp] theorem State.setGrid_seqOut (s : State) (g : Grid) : (s.setGrid g).seqOut = s.seqOut := rfl
@[simp] theorem State.setGrid_seqIn (s : State) (g : Grid) : (s.setGrid g).seqIn = s.seqIn := rfl
@[simp] theorem State.setGrid_outst (s : State) (g : Grid) : (s.setGrid g).outst = s.outst := rfl
@[simp] theorem State.setGrid_rounds (s : State) (g : Grid) : (s.setGrid g).rounds = s.rounds := rfl
@[simp] theorem State.setGrid_cab (s : State) (g : Grid) : (s.setGrid g).cab = s.cab := rfl
@[simp] theorem State.setGrid_cabSeq (s : State) (g : Grid) : (s.setGrid g).cabSeq = s.cabSeq := rfl
@[simp] theorem State.setGrid_out (s : State) (g : Grid) : (s.setGrid g).out = s.out := rfl
@[simp] theorem State.setGrid_msixMask (s : State) (g : Grid) : (s.setGrid g).msixMask = s.msixMask := rfl
@[simp] theorem State.setGrid_msixPend (s : State) (g : Grid) : (s.setGrid g).msixPend = s.msixPend := rfl
@[simp] theorem State.setGrid_pages (s : State) (g : Grid) : (s.setGrid g).pages = s.pages := rfl
@[simp] theorem State.setGrid_hbmUsed (s : State) (g : Grid) : (s.setGrid g).hbmUsed = s.hbmUsed := rfl
@[simp] theorem State.setGrid_evicting (s : State) (g : Grid) : (s.setGrid g).evicting = s.evicting := rfl
@[simp] theorem State.setGrid_epoch (s : State) (g : Grid) : (s.setGrid g).epoch = s.epoch := rfl
@[simp] theorem State.setGrid_hour (s : State) (g : Grid) : (s.setGrid g).hour = s.hour := rfl
@[simp] theorem State.setGrid_scrubDone (s : State) (g : Grid) : (s.setGrid g).scrubDone = s.scrubDone := rfl
@[simp] theorem State.setGrid_scrubStart (s : State) (g : Grid) : (s.setGrid g).scrubStart = s.scrubStart := rfl
@[simp] theorem State.setGrid_clockMHz (s : State) (g : Grid) : (s.setGrid g).clockMHz = s.clockMHz := rfl
@[simp] theorem State.setGrid_fw (s : State) (g : Grid) : (s.setGrid g).fw = s.fw := rfl
@[simp] theorem State.setGrid_spdmNeg (s : State) (g : Grid) : (s.setGrid g).spdmNeg = s.spdmNeg := rfl
@[simp] theorem State.setGrid_privs (s : State) (g : Grid) : (s.setGrid g).privs = s.privs := rfl

/-! ### modGrid -/

@[simp] theorem State.modGrid_agenda (s : State) (i : Nat) (f : Grid → Grid) : (s.modGrid i f).agenda = s.agenda := rfl
@[simp] theorem State.modGrid_free (s : State) (i : Nat) (f : Grid → Grid) : (s.modGrid i f).free = s.free := rfl
@[simp] theorem State.modGrid_fresh (s : State) (i : Nat) (f : Grid → Grid) : (s.modGrid i f).fresh = s.fresh := rfl
@[simp] theorem State.modGrid_cur (s : State) (i : Nat) (f : Grid → Grid) : (s.modGrid i f).cur = s.cur := rfl
@[simp] theorem State.modGrid_now (s : State) (i : Nat) (f : Grid → Grid) : (s.modGrid i f).now = s.now := rfl
@[simp] theorem State.modGrid_us (s : State) (i : Nat) (f : Grid → Grid) : (s.modGrid i f).us = s.us := rfl
@[simp] theorem State.modGrid_halted (s : State) (i : Nat) (f : Grid → Grid) : (s.modGrid i f).halted = s.halted := rfl
@[simp] theorem State.modGrid_mem (s : State) (i : Nat) (f : Grid → Grid) : (s.modGrid i f).mem = s.mem := rfl
@[simp] theorem State.modGrid_hostMem (s : State) (i : Nat) (f : Grid → Grid) : (s.modGrid i f).hostMem = s.hostMem := rfl
@[simp] theorem State.modGrid_scr (s : State) (i : Nat) (f : Grid → Grid) : (s.modGrid i f).scr = s.scr := rfl
@[simp] theorem State.modGrid_supMem (s : State) (i : Nat) (f : Grid → Grid) : (s.modGrid i f).supMem = s.supMem := rfl
@[simp] theorem State.modGrid_poison (s : State) (i : Nat) (f : Grid → Grid) : (s.modGrid i f).poison = s.poison := rfl
@[simp] theorem State.modGrid_poisonScr (s : State) (i : Nat) (f : Grid → Grid) : (s.modGrid i f).poisonScr = s.poisonScr := rfl
@[simp] theorem State.modGrid_cores (s : State) (i : Nat) (f : Grid → Grid) : (s.modGrid i f).cores = s.cores := rfl
@[simp] theorem State.modGrid_parts (s : State) (i : Nat) (f : Grid → Grid) : (s.modGrid i f).parts = s.parts := rfl
@[simp] theorem State.modGrid_groups (s : State) (i : Nat) (f : Grid → Grid) : (s.modGrid i f).groups = s.groups := rfl
@[simp] theorem State.modGrid_teams (s : State) (i : Nat) (f : Grid → Grid) : (s.modGrid i f).teams = s.teams := rfl
@[simp] theorem State.modGrid_cmds (s : State) (i : Nat) (f : Grid → Grid) : (s.modGrid i f).cmds = s.cmds := rfl
@[simp] theorem State.modGrid_waiters (s : State) (i : Nat) (f : Grid → Grid) : (s.modGrid i f).waiters = s.waiters := rfl
@[simp] theorem State.modGrid_retained (s : State) (i : Nat) (f : Grid → Grid) : (s.modGrid i f).retained = s.retained := rfl
@[simp] theorem State.modGrid_tlb (s : State) (i : Nat) (f : Grid → Grid) : (s.modGrid i f).tlb = s.tlb := rfl
@[simp] theorem State.modGrid_walks (s : State) (i : Nat) (f : Grid → Grid) : (s.modGrid i f).walks = s.walks := rfl
@[simp] theorem State.modGrid_invals (s : State) (i : Nat) (f : Grid → Grid) : (s.modGrid i f).invals = s.invals := rfl
@[simp] theorem State.modGrid_peerGot (s : State) (i : Nat) (f : Grid → Grid) : (s.modGrid i f).peerGot = s.peerGot := rfl
@[simp] theorem State.modGrid_streams (s : State) (i : Nat) (f : Grid → Grid) : (s.modGrid i f).streams = s.streams := rfl
@[simp] theorem State.modGrid_streamReqs (s : State) (i : Nat) (f : Grid → Grid) : (s.modGrid i f).streamReqs = s.streamReqs := rfl
@[simp] theorem State.modGrid_hub (s : State) (i : Nat) (f : Grid → Grid) : (s.modGrid i f).hub = s.hub := rfl
@[simp] theorem State.modGrid_steps (s : State) (i : Nat) (f : Grid → Grid) : (s.modGrid i f).steps = s.steps := rfl
@[simp] theorem State.modGrid_queues (s : State) (i : Nat) (f : Grid → Grid) : (s.modGrid i f).queues = s.queues := rfl
@[simp] theorem State.modGrid_nextGrid (s : State) (i : Nat) (f : Grid → Grid) : (s.modGrid i f).nextGrid = s.nextGrid := rfl
@[simp] theorem State.modGrid_nextRun (s : State) (i : Nat) (f : Grid → Grid) : (s.modGrid i f).nextRun = s.nextRun := rfl
@[simp] theorem State.modGrid_nextHandle (s : State) (i : Nat) (f : Grid → Grid) : (s.modGrid i f).nextHandle = s.nextHandle := rfl
@[simp] theorem State.modGrid_sealed (s : State) (i : Nat) (f : Grid → Grid) : (s.modGrid i f).sealed = s.sealed := rfl
@[simp] theorem State.modGrid_runs (s : State) (i : Nat) (f : Grid → Grid) : (s.modGrid i f).runs = s.runs := rfl
@[simp] theorem State.modGrid_mboxes (s : State) (i : Nat) (f : Grid → Grid) : (s.modGrid i f).mboxes = s.mboxes := rfl
@[simp] theorem State.modGrid_rrQueue (s : State) (i : Nat) (f : Grid → Grid) : (s.modGrid i f).rrQueue = s.rrQueue := rfl
@[simp] theorem State.modGrid_rrDevice (s : State) (i : Nat) (f : Grid → Grid) : (s.modGrid i f).rrDevice = s.rrDevice := rfl
@[simp] theorem State.modGrid_nodes (s : State) (i : Nat) (f : Grid → Grid) : (s.modGrid i f).nodes = s.nodes := rfl
@[simp] theorem State.modGrid_msgs (s : State) (i : Nat) (f : Grid → Grid) : (s.modGrid i f).msgs = s.msgs := rfl
@[simp] theorem State.modGrid_chans (s : State) (i : Nat) (f : Grid → Grid) : (s.modGrid i f).chans = s.chans := rfl
@[simp] theorem State.modGrid_seqOut (s : State) (i : Nat) (f : Grid → Grid) : (s.modGrid i f).seqOut = s.seqOut := rfl
@[simp] theorem State.modGrid_seqIn (s : State) (i : Nat) (f : Grid → Grid) : (s.modGrid i f).seqIn = s.seqIn := rfl
@[simp] theorem State.modGrid_outst (s : State) (i : Nat) (f : Grid → Grid) : (s.modGrid i f).outst = s.outst := rfl
@[simp] theorem State.modGrid_rounds (s : State) (i : Nat) (f : Grid → Grid) : (s.modGrid i f).rounds = s.rounds := rfl
@[simp] theorem State.modGrid_cab (s : State) (i : Nat) (f : Grid → Grid) : (s.modGrid i f).cab = s.cab := rfl
@[simp] theorem State.modGrid_cabSeq (s : State) (i : Nat) (f : Grid → Grid) : (s.modGrid i f).cabSeq = s.cabSeq := rfl
@[simp] theorem State.modGrid_out (s : State) (i : Nat) (f : Grid → Grid) : (s.modGrid i f).out = s.out := rfl
@[simp] theorem State.modGrid_msixMask (s : State) (i : Nat) (f : Grid → Grid) : (s.modGrid i f).msixMask = s.msixMask := rfl
@[simp] theorem State.modGrid_msixPend (s : State) (i : Nat) (f : Grid → Grid) : (s.modGrid i f).msixPend = s.msixPend := rfl
@[simp] theorem State.modGrid_pages (s : State) (i : Nat) (f : Grid → Grid) : (s.modGrid i f).pages = s.pages := rfl
@[simp] theorem State.modGrid_hbmUsed (s : State) (i : Nat) (f : Grid → Grid) : (s.modGrid i f).hbmUsed = s.hbmUsed := rfl
@[simp] theorem State.modGrid_evicting (s : State) (i : Nat) (f : Grid → Grid) : (s.modGrid i f).evicting = s.evicting := rfl
@[simp] theorem State.modGrid_epoch (s : State) (i : Nat) (f : Grid → Grid) : (s.modGrid i f).epoch = s.epoch := rfl
@[simp] theorem State.modGrid_hour (s : State) (i : Nat) (f : Grid → Grid) : (s.modGrid i f).hour = s.hour := rfl
@[simp] theorem State.modGrid_scrubDone (s : State) (i : Nat) (f : Grid → Grid) : (s.modGrid i f).scrubDone = s.scrubDone := rfl
@[simp] theorem State.modGrid_scrubStart (s : State) (i : Nat) (f : Grid → Grid) : (s.modGrid i f).scrubStart = s.scrubStart := rfl
@[simp] theorem State.modGrid_clockMHz (s : State) (i : Nat) (f : Grid → Grid) : (s.modGrid i f).clockMHz = s.clockMHz := rfl
@[simp] theorem State.modGrid_fw (s : State) (i : Nat) (f : Grid → Grid) : (s.modGrid i f).fw = s.fw := rfl
@[simp] theorem State.modGrid_spdmNeg (s : State) (i : Nat) (f : Grid → Grid) : (s.modGrid i f).spdmNeg = s.spdmNeg := rfl
@[simp] theorem State.modGrid_privs (s : State) (i : Nat) (f : Grid → Grid) : (s.modGrid i f).privs = s.privs := rfl

/-! ### setReg -/

@[simp] theorem State.setReg_agenda (s : State) (i : Nat) (v : DWord) : (s.setReg i v).agenda = s.agenda := rfl
@[simp] theorem State.setReg_free (s : State) (i : Nat) (v : DWord) : (s.setReg i v).free = s.free := rfl
@[simp] theorem State.setReg_fresh (s : State) (i : Nat) (v : DWord) : (s.setReg i v).fresh = s.fresh := rfl
@[simp] theorem State.setReg_cur (s : State) (i : Nat) (v : DWord) : (s.setReg i v).cur = s.cur := rfl
@[simp] theorem State.setReg_now (s : State) (i : Nat) (v : DWord) : (s.setReg i v).now = s.now := rfl
@[simp] theorem State.setReg_us (s : State) (i : Nat) (v : DWord) : (s.setReg i v).us = s.us := rfl
@[simp] theorem State.setReg_halted (s : State) (i : Nat) (v : DWord) : (s.setReg i v).halted = s.halted := rfl
@[simp] theorem State.setReg_mem (s : State) (i : Nat) (v : DWord) : (s.setReg i v).mem = s.mem := rfl
@[simp] theorem State.setReg_hostMem (s : State) (i : Nat) (v : DWord) : (s.setReg i v).hostMem = s.hostMem := rfl
@[simp] theorem State.setReg_scr (s : State) (i : Nat) (v : DWord) : (s.setReg i v).scr = s.scr := rfl
@[simp] theorem State.setReg_supMem (s : State) (i : Nat) (v : DWord) : (s.setReg i v).supMem = s.supMem := rfl
@[simp] theorem State.setReg_poison (s : State) (i : Nat) (v : DWord) : (s.setReg i v).poison = s.poison := rfl
@[simp] theorem State.setReg_poisonScr (s : State) (i : Nat) (v : DWord) : (s.setReg i v).poisonScr = s.poisonScr := rfl
@[simp] theorem State.setReg_cores (s : State) (i : Nat) (v : DWord) : (s.setReg i v).cores = s.cores := rfl
@[simp] theorem State.setReg_parts (s : State) (i : Nat) (v : DWord) : (s.setReg i v).parts = s.parts := rfl
@[simp] theorem State.setReg_groups (s : State) (i : Nat) (v : DWord) : (s.setReg i v).groups = s.groups := rfl
@[simp] theorem State.setReg_teams (s : State) (i : Nat) (v : DWord) : (s.setReg i v).teams = s.teams := rfl
@[simp] theorem State.setReg_cmds (s : State) (i : Nat) (v : DWord) : (s.setReg i v).cmds = s.cmds := rfl
@[simp] theorem State.setReg_waiters (s : State) (i : Nat) (v : DWord) : (s.setReg i v).waiters = s.waiters := rfl
@[simp] theorem State.setReg_retained (s : State) (i : Nat) (v : DWord) : (s.setReg i v).retained = s.retained := rfl
@[simp] theorem State.setReg_tlb (s : State) (i : Nat) (v : DWord) : (s.setReg i v).tlb = s.tlb := rfl
@[simp] theorem State.setReg_walks (s : State) (i : Nat) (v : DWord) : (s.setReg i v).walks = s.walks := rfl
@[simp] theorem State.setReg_invals (s : State) (i : Nat) (v : DWord) : (s.setReg i v).invals = s.invals := rfl
@[simp] theorem State.setReg_peerGot (s : State) (i : Nat) (v : DWord) : (s.setReg i v).peerGot = s.peerGot := rfl
@[simp] theorem State.setReg_streams (s : State) (i : Nat) (v : DWord) : (s.setReg i v).streams = s.streams := rfl
@[simp] theorem State.setReg_streamReqs (s : State) (i : Nat) (v : DWord) : (s.setReg i v).streamReqs = s.streamReqs := rfl
@[simp] theorem State.setReg_steps (s : State) (i : Nat) (v : DWord) : (s.setReg i v).steps = s.steps := rfl
@[simp] theorem State.setReg_queues (s : State) (i : Nat) (v : DWord) : (s.setReg i v).queues = s.queues := rfl
@[simp] theorem State.setReg_grids (s : State) (i : Nat) (v : DWord) : (s.setReg i v).grids = s.grids := rfl
@[simp] theorem State.setReg_nextGrid (s : State) (i : Nat) (v : DWord) : (s.setReg i v).nextGrid = s.nextGrid := rfl
@[simp] theorem State.setReg_nextRun (s : State) (i : Nat) (v : DWord) : (s.setReg i v).nextRun = s.nextRun := rfl
@[simp] theorem State.setReg_nextHandle (s : State) (i : Nat) (v : DWord) : (s.setReg i v).nextHandle = s.nextHandle := rfl
@[simp] theorem State.setReg_sealed (s : State) (i : Nat) (v : DWord) : (s.setReg i v).sealed = s.sealed := rfl
@[simp] theorem State.setReg_runs (s : State) (i : Nat) (v : DWord) : (s.setReg i v).runs = s.runs := rfl
@[simp] theorem State.setReg_mboxes (s : State) (i : Nat) (v : DWord) : (s.setReg i v).mboxes = s.mboxes := rfl
@[simp] theorem State.setReg_rrQueue (s : State) (i : Nat) (v : DWord) : (s.setReg i v).rrQueue = s.rrQueue := rfl
@[simp] theorem State.setReg_rrDevice (s : State) (i : Nat) (v : DWord) : (s.setReg i v).rrDevice = s.rrDevice := rfl
@[simp] theorem State.setReg_nodes (s : State) (i : Nat) (v : DWord) : (s.setReg i v).nodes = s.nodes := rfl
@[simp] theorem State.setReg_msgs (s : State) (i : Nat) (v : DWord) : (s.setReg i v).msgs = s.msgs := rfl
@[simp] theorem State.setReg_chans (s : State) (i : Nat) (v : DWord) : (s.setReg i v).chans = s.chans := rfl
@[simp] theorem State.setReg_seqOut (s : State) (i : Nat) (v : DWord) : (s.setReg i v).seqOut = s.seqOut := rfl
@[simp] theorem State.setReg_seqIn (s : State) (i : Nat) (v : DWord) : (s.setReg i v).seqIn = s.seqIn := rfl
@[simp] theorem State.setReg_outst (s : State) (i : Nat) (v : DWord) : (s.setReg i v).outst = s.outst := rfl
@[simp] theorem State.setReg_rounds (s : State) (i : Nat) (v : DWord) : (s.setReg i v).rounds = s.rounds := rfl
@[simp] theorem State.setReg_cab (s : State) (i : Nat) (v : DWord) : (s.setReg i v).cab = s.cab := rfl
@[simp] theorem State.setReg_cabSeq (s : State) (i : Nat) (v : DWord) : (s.setReg i v).cabSeq = s.cabSeq := rfl
@[simp] theorem State.setReg_out (s : State) (i : Nat) (v : DWord) : (s.setReg i v).out = s.out := rfl
@[simp] theorem State.setReg_msixMask (s : State) (i : Nat) (v : DWord) : (s.setReg i v).msixMask = s.msixMask := rfl
@[simp] theorem State.setReg_msixPend (s : State) (i : Nat) (v : DWord) : (s.setReg i v).msixPend = s.msixPend := rfl
@[simp] theorem State.setReg_pages (s : State) (i : Nat) (v : DWord) : (s.setReg i v).pages = s.pages := rfl
@[simp] theorem State.setReg_hbmUsed (s : State) (i : Nat) (v : DWord) : (s.setReg i v).hbmUsed = s.hbmUsed := rfl
@[simp] theorem State.setReg_evicting (s : State) (i : Nat) (v : DWord) : (s.setReg i v).evicting = s.evicting := rfl
@[simp] theorem State.setReg_epoch (s : State) (i : Nat) (v : DWord) : (s.setReg i v).epoch = s.epoch := rfl
@[simp] theorem State.setReg_hour (s : State) (i : Nat) (v : DWord) : (s.setReg i v).hour = s.hour := rfl
@[simp] theorem State.setReg_scrubDone (s : State) (i : Nat) (v : DWord) : (s.setReg i v).scrubDone = s.scrubDone := rfl
@[simp] theorem State.setReg_scrubStart (s : State) (i : Nat) (v : DWord) : (s.setReg i v).scrubStart = s.scrubStart := rfl
@[simp] theorem State.setReg_clockMHz (s : State) (i : Nat) (v : DWord) : (s.setReg i v).clockMHz = s.clockMHz := rfl
@[simp] theorem State.setReg_fw (s : State) (i : Nat) (v : DWord) : (s.setReg i v).fw = s.fw := rfl
@[simp] theorem State.setReg_spdmNeg (s : State) (i : Nat) (v : DWord) : (s.setReg i v).spdmNeg = s.spdmNeg := rfl
@[simp] theorem State.setReg_privs (s : State) (i : Nat) (v : DWord) : (s.setReg i v).privs = s.privs := rfl

/-! ### emit -/

@[simp] theorem State.emit_agenda (s : State) (o : Out) : (s.emit o).agenda = s.agenda := rfl
@[simp] theorem State.emit_free (s : State) (o : Out) : (s.emit o).free = s.free := rfl
@[simp] theorem State.emit_fresh (s : State) (o : Out) : (s.emit o).fresh = s.fresh := rfl
@[simp] theorem State.emit_cur (s : State) (o : Out) : (s.emit o).cur = s.cur := rfl
@[simp] theorem State.emit_now (s : State) (o : Out) : (s.emit o).now = s.now := rfl
@[simp] theorem State.emit_us (s : State) (o : Out) : (s.emit o).us = s.us := rfl
@[simp] theorem State.emit_halted (s : State) (o : Out) : (s.emit o).halted = s.halted := rfl
@[simp] theorem State.emit_mem (s : State) (o : Out) : (s.emit o).mem = s.mem := rfl
@[simp] theorem State.emit_hostMem (s : State) (o : Out) : (s.emit o).hostMem = s.hostMem := rfl
@[simp] theorem State.emit_scr (s : State) (o : Out) : (s.emit o).scr = s.scr := rfl
@[simp] theorem State.emit_supMem (s : State) (o : Out) : (s.emit o).supMem = s.supMem := rfl
@[simp] theorem State.emit_poison (s : State) (o : Out) : (s.emit o).poison = s.poison := rfl
@[simp] theorem State.emit_poisonScr (s : State) (o : Out) : (s.emit o).poisonScr = s.poisonScr := rfl
@[simp] theorem State.emit_cores (s : State) (o : Out) : (s.emit o).cores = s.cores := rfl
@[simp] theorem State.emit_parts (s : State) (o : Out) : (s.emit o).parts = s.parts := rfl
@[simp] theorem State.emit_groups (s : State) (o : Out) : (s.emit o).groups = s.groups := rfl
@[simp] theorem State.emit_teams (s : State) (o : Out) : (s.emit o).teams = s.teams := rfl
@[simp] theorem State.emit_cmds (s : State) (o : Out) : (s.emit o).cmds = s.cmds := rfl
@[simp] theorem State.emit_waiters (s : State) (o : Out) : (s.emit o).waiters = s.waiters := rfl
@[simp] theorem State.emit_retained (s : State) (o : Out) : (s.emit o).retained = s.retained := rfl
@[simp] theorem State.emit_tlb (s : State) (o : Out) : (s.emit o).tlb = s.tlb := rfl
@[simp] theorem State.emit_walks (s : State) (o : Out) : (s.emit o).walks = s.walks := rfl
@[simp] theorem State.emit_invals (s : State) (o : Out) : (s.emit o).invals = s.invals := rfl
@[simp] theorem State.emit_peerGot (s : State) (o : Out) : (s.emit o).peerGot = s.peerGot := rfl
@[simp] theorem State.emit_streams (s : State) (o : Out) : (s.emit o).streams = s.streams := rfl
@[simp] theorem State.emit_streamReqs (s : State) (o : Out) : (s.emit o).streamReqs = s.streamReqs := rfl
@[simp] theorem State.emit_hub (s : State) (o : Out) : (s.emit o).hub = s.hub := rfl
@[simp] theorem State.emit_steps (s : State) (o : Out) : (s.emit o).steps = s.steps := rfl
@[simp] theorem State.emit_queues (s : State) (o : Out) : (s.emit o).queues = s.queues := rfl
@[simp] theorem State.emit_grids (s : State) (o : Out) : (s.emit o).grids = s.grids := rfl
@[simp] theorem State.emit_nextGrid (s : State) (o : Out) : (s.emit o).nextGrid = s.nextGrid := rfl
@[simp] theorem State.emit_nextRun (s : State) (o : Out) : (s.emit o).nextRun = s.nextRun := rfl
@[simp] theorem State.emit_nextHandle (s : State) (o : Out) : (s.emit o).nextHandle = s.nextHandle := rfl
@[simp] theorem State.emit_sealed (s : State) (o : Out) : (s.emit o).sealed = s.sealed := rfl
@[simp] theorem State.emit_runs (s : State) (o : Out) : (s.emit o).runs = s.runs := rfl
@[simp] theorem State.emit_mboxes (s : State) (o : Out) : (s.emit o).mboxes = s.mboxes := rfl
@[simp] theorem State.emit_rrQueue (s : State) (o : Out) : (s.emit o).rrQueue = s.rrQueue := rfl
@[simp] theorem State.emit_rrDevice (s : State) (o : Out) : (s.emit o).rrDevice = s.rrDevice := rfl
@[simp] theorem State.emit_nodes (s : State) (o : Out) : (s.emit o).nodes = s.nodes := rfl
@[simp] theorem State.emit_msgs (s : State) (o : Out) : (s.emit o).msgs = s.msgs := rfl
@[simp] theorem State.emit_chans (s : State) (o : Out) : (s.emit o).chans = s.chans := rfl
@[simp] theorem State.emit_seqOut (s : State) (o : Out) : (s.emit o).seqOut = s.seqOut := rfl
@[simp] theorem State.emit_seqIn (s : State) (o : Out) : (s.emit o).seqIn = s.seqIn := rfl
@[simp] theorem State.emit_outst (s : State) (o : Out) : (s.emit o).outst = s.outst := rfl
@[simp] theorem State.emit_rounds (s : State) (o : Out) : (s.emit o).rounds = s.rounds := rfl
@[simp] theorem State.emit_cab (s : State) (o : Out) : (s.emit o).cab = s.cab := rfl
@[simp] theorem State.emit_cabSeq (s : State) (o : Out) : (s.emit o).cabSeq = s.cabSeq := rfl
@[simp] theorem State.emit_msixMask (s : State) (o : Out) : (s.emit o).msixMask = s.msixMask := rfl
@[simp] theorem State.emit_msixPend (s : State) (o : Out) : (s.emit o).msixPend = s.msixPend := rfl
@[simp] theorem State.emit_pages (s : State) (o : Out) : (s.emit o).pages = s.pages := rfl
@[simp] theorem State.emit_hbmUsed (s : State) (o : Out) : (s.emit o).hbmUsed = s.hbmUsed := rfl
@[simp] theorem State.emit_evicting (s : State) (o : Out) : (s.emit o).evicting = s.evicting := rfl
@[simp] theorem State.emit_epoch (s : State) (o : Out) : (s.emit o).epoch = s.epoch := rfl
@[simp] theorem State.emit_hour (s : State) (o : Out) : (s.emit o).hour = s.hour := rfl
@[simp] theorem State.emit_scrubDone (s : State) (o : Out) : (s.emit o).scrubDone = s.scrubDone := rfl
@[simp] theorem State.emit_scrubStart (s : State) (o : Out) : (s.emit o).scrubStart = s.scrubStart := rfl
@[simp] theorem State.emit_clockMHz (s : State) (o : Out) : (s.emit o).clockMHz = s.clockMHz := rfl
@[simp] theorem State.emit_fw (s : State) (o : Out) : (s.emit o).fw = s.fw := rfl
@[simp] theorem State.emit_spdmNeg (s : State) (o : Out) : (s.emit o).spdmNeg = s.spdmNeg := rfl
@[simp] theorem State.emit_privs (s : State) (o : Out) : (s.emit o).privs = s.privs := rfl

/-! ### Reading one table after an update -/

@[simp] theorem State.group_setTeam (s : State) (k : Nat) (i : Nat) (t : Team) : (s.setTeam i t).group k = s.group k := rfl
@[simp] theorem State.group_setCore (s : State) (k : Nat) (i : Nat) (c : Core) : (s.setCore i c).group k = s.group k := rfl
@[simp] theorem State.group_setPart (s : State) (k : Nat) (i : Nat) (p : Part) : (s.setPart i p).group k = s.group k := rfl
@[simp] theorem State.group_setQueue (s : State) (k : Nat) (i : Nat) (q : Queue) : (s.setQueue i q).group k = s.group k := rfl
@[simp] theorem State.group_setMbox (s : State) (k : Nat) (i : Nat) (m : Mbox) : (s.setMbox i m).group k = s.group k := rfl
@[simp] theorem State.group_setChan (s : State) (k : Nat) (i j : Nat) (c : Chan) : (s.setChan i j c).group k = s.group k := rfl
@[simp] theorem State.group_setPage (s : State) (k : Nat) (i : Nat) (p : PageSt) : (s.setPage i p).group k = s.group k := rfl
@[simp] theorem State.group_setGrid (s : State) (k : Nat) (g : Grid) : (s.setGrid g).group k = s.group k := rfl
@[simp] theorem State.group_modGrid (s : State) (k : Nat) (i : Nat) (f : Grid → Grid) : (s.modGrid i f).group k = s.group k := rfl
@[simp] theorem State.group_setReg (s : State) (k : Nat) (i : Nat) (v : DWord) : (s.setReg i v).group k = s.group k := rfl
@[simp] theorem State.group_emit (s : State) (k : Nat) (o : Out) : (s.emit o).group k = s.group k := rfl
theorem State.team_setTeam (s : State) (i j : Nat) (t : Team) : (s.setTeam i t).team j = if j = i then t else s.team j := by
  simp [State.team, State.setTeam, Tab.get_set]
@[simp] theorem State.team_setGroup (s : State) (k : Nat) (i : Nat) (g : Group) : (s.setGroup i g).team k = s.team k := rfl
@[simp] theorem State.team_setCurG (s : State) (k : Nat) (g : Group) : (s.setCurG g).team k = s.team k := rfl
@[simp] theorem State.team_setCore (s : State) (k : Nat) (i : Nat) (c : Core) : (s.setCore i c).team k = s.team k := rfl
@[simp] theorem State.team_setPart (s : State) (k : Nat) (i : Nat) (p : Part) : (s.setPart i p).team k = s.team k := rfl
@[simp] theorem State.team_setQueue (s : State) (k : Nat) (i : Nat) (q : Queue) : (s.setQueue i q).team k = s.team k := rfl
@[simp] theorem State.team_setMbox (s : State) (k : Nat) (i : Nat) (m : Mbox) : (s.setMbox i m).team k = s.team k := rfl
@[simp] theorem State.team_setChan (s : State) (k : Nat) (i j : Nat) (c : Chan) : (s.setChan i j c).team k = s.team k := rfl
@[simp] theorem State.team_setPage (s : State) (k : Nat) (i : Nat) (p : PageSt) : (s.setPage i p).team k = s.team k := rfl
@[simp] theorem State.team_setGrid (s : State) (k : Nat) (g : Grid) : (s.setGrid g).team k = s.team k := rfl
@[simp] theorem State.team_modGrid (s : State) (k : Nat) (i : Nat) (f : Grid → Grid) : (s.modGrid i f).team k = s.team k := rfl
@[simp] theorem State.team_setReg (s : State) (k : Nat) (i : Nat) (v : DWord) : (s.setReg i v).team k = s.team k := rfl
@[simp] theorem State.team_emit (s : State) (k : Nat) (o : Out) : (s.emit o).team k = s.team k := rfl
theorem State.core_setCore (s : State) (i j : Nat) (c : Core) : (s.setCore i c).core j = if j = i then c else s.core j := by
  simp only [State.core, State.setCore]; by_cases h : j = i
  · subst h; simp
  · rw [if_neg h, Tab.set_get_other _ _ _ _ _ _ h]
@[simp] theorem State.core_setGroup (s : State) (k : Nat) (i : Nat) (g : Group) : (s.setGroup i g).core k = s.core k := rfl
@[simp] theorem State.core_setCurG (s : State) (k : Nat) (g : Group) : (s.setCurG g).core k = s.core k := rfl
@[simp] theorem State.core_setTeam (s : State) (k : Nat) (i : Nat) (t : Team) : (s.setTeam i t).core k = s.core k := rfl
@[simp] theorem State.core_setPart (s : State) (k : Nat) (i : Nat) (p : Part) : (s.setPart i p).core k = s.core k := rfl
@[simp] theorem State.core_setQueue (s : State) (k : Nat) (i : Nat) (q : Queue) : (s.setQueue i q).core k = s.core k := rfl
@[simp] theorem State.core_setMbox (s : State) (k : Nat) (i : Nat) (m : Mbox) : (s.setMbox i m).core k = s.core k := rfl
@[simp] theorem State.core_setChan (s : State) (k : Nat) (i j : Nat) (c : Chan) : (s.setChan i j c).core k = s.core k := rfl
@[simp] theorem State.core_setPage (s : State) (k : Nat) (i : Nat) (p : PageSt) : (s.setPage i p).core k = s.core k := rfl
@[simp] theorem State.core_setGrid (s : State) (k : Nat) (g : Grid) : (s.setGrid g).core k = s.core k := rfl
@[simp] theorem State.core_modGrid (s : State) (k : Nat) (i : Nat) (f : Grid → Grid) : (s.modGrid i f).core k = s.core k := rfl
@[simp] theorem State.core_setReg (s : State) (k : Nat) (i : Nat) (v : DWord) : (s.setReg i v).core k = s.core k := rfl
@[simp] theorem State.core_emit (s : State) (k : Nat) (o : Out) : (s.emit o).core k = s.core k := rfl
theorem State.part_setPart (s : State) (i j : Nat) (p : Part) : (s.setPart i p).part j = if j = i then p else s.part j := by
  simp [State.part, State.setPart, Tab.get_set]
@[simp] theorem State.part_setGroup (s : State) (k : Nat) (i : Nat) (g : Group) : (s.setGroup i g).part k = s.part k := rfl
@[simp] theorem State.part_setCurG (s : State) (k : Nat) (g : Group) : (s.setCurG g).part k = s.part k := rfl
@[simp] theorem State.part_setTeam (s : State) (k : Nat) (i : Nat) (t : Team) : (s.setTeam i t).part k = s.part k := rfl
@[simp] theorem State.part_setCore (s : State) (k : Nat) (i : Nat) (c : Core) : (s.setCore i c).part k = s.part k := rfl
@[simp] theorem State.part_setQueue (s : State) (k : Nat) (i : Nat) (q : Queue) : (s.setQueue i q).part k = s.part k := rfl
@[simp] theorem State.part_setMbox (s : State) (k : Nat) (i : Nat) (m : Mbox) : (s.setMbox i m).part k = s.part k := rfl
@[simp] theorem State.part_setChan (s : State) (k : Nat) (i j : Nat) (c : Chan) : (s.setChan i j c).part k = s.part k := rfl
@[simp] theorem State.part_setPage (s : State) (k : Nat) (i : Nat) (p : PageSt) : (s.setPage i p).part k = s.part k := rfl
@[simp] theorem State.part_setGrid (s : State) (k : Nat) (g : Grid) : (s.setGrid g).part k = s.part k := rfl
@[simp] theorem State.part_modGrid (s : State) (k : Nat) (i : Nat) (f : Grid → Grid) : (s.modGrid i f).part k = s.part k := rfl
@[simp] theorem State.part_setReg (s : State) (k : Nat) (i : Nat) (v : DWord) : (s.setReg i v).part k = s.part k := rfl
@[simp] theorem State.part_emit (s : State) (k : Nat) (o : Out) : (s.emit o).part k = s.part k := rfl
theorem State.queue_setQueue (s : State) (i j : Nat) (q : Queue) : (s.setQueue i q).queue j = if j = i then q else s.queue j := by
  simp [State.queue, State.setQueue, Tab.get_set]
@[simp] theorem State.queue_setGroup (s : State) (k : Nat) (i : Nat) (g : Group) : (s.setGroup i g).queue k = s.queue k := rfl
@[simp] theorem State.queue_setCurG (s : State) (k : Nat) (g : Group) : (s.setCurG g).queue k = s.queue k := rfl
@[simp] theorem State.queue_setTeam (s : State) (k : Nat) (i : Nat) (t : Team) : (s.setTeam i t).queue k = s.queue k := rfl
@[simp] theorem State.queue_setCore (s : State) (k : Nat) (i : Nat) (c : Core) : (s.setCore i c).queue k = s.queue k := rfl
@[simp] theorem State.queue_setPart (s : State) (k : Nat) (i : Nat) (p : Part) : (s.setPart i p).queue k = s.queue k := rfl
@[simp] theorem State.queue_setMbox (s : State) (k : Nat) (i : Nat) (m : Mbox) : (s.setMbox i m).queue k = s.queue k := rfl
@[simp] theorem State.queue_setChan (s : State) (k : Nat) (i j : Nat) (c : Chan) : (s.setChan i j c).queue k = s.queue k := rfl
@[simp] theorem State.queue_setPage (s : State) (k : Nat) (i : Nat) (p : PageSt) : (s.setPage i p).queue k = s.queue k := rfl
@[simp] theorem State.queue_setGrid (s : State) (k : Nat) (g : Grid) : (s.setGrid g).queue k = s.queue k := rfl
@[simp] theorem State.queue_modGrid (s : State) (k : Nat) (i : Nat) (f : Grid → Grid) : (s.modGrid i f).queue k = s.queue k := rfl
@[simp] theorem State.queue_setReg (s : State) (k : Nat) (i : Nat) (v : DWord) : (s.setReg i v).queue k = s.queue k := rfl
@[simp] theorem State.queue_emit (s : State) (k : Nat) (o : Out) : (s.emit o).queue k = s.queue k := rfl
theorem State.mbox_setMbox (s : State) (i j : Nat) (m : Mbox) : (s.setMbox i m).mbox j = if j = i then m else s.mbox j := by
  simp [State.mbox, State.setMbox, Tab.get_set]
@[simp] theorem State.mbox_setGroup (s : State) (k : Nat) (i : Nat) (g : Group) : (s.setGroup i g).mbox k = s.mbox k := rfl
@[simp] theorem State.mbox_setCurG (s : State) (k : Nat) (g : Group) : (s.setCurG g).mbox k = s.mbox k := rfl
@[simp] theorem State.mbox_setTeam (s : State) (k : Nat) (i : Nat) (t : Team) : (s.setTeam i t).mbox k = s.mbox k := rfl
@[simp] theorem State.mbox_setCore (s : State) (k : Nat) (i : Nat) (c : Core) : (s.setCore i c).mbox k = s.mbox k := rfl
@[simp] theorem State.mbox_setPart (s : State) (k : Nat) (i : Nat) (p : Part) : (s.setPart i p).mbox k = s.mbox k := rfl
@[simp] theorem State.mbox_setQueue (s : State) (k : Nat) (i : Nat) (q : Queue) : (s.setQueue i q).mbox k = s.mbox k := rfl
@[simp] theorem State.mbox_setChan (s : State) (k : Nat) (i j : Nat) (c : Chan) : (s.setChan i j c).mbox k = s.mbox k := rfl
@[simp] theorem State.mbox_setPage (s : State) (k : Nat) (i : Nat) (p : PageSt) : (s.setPage i p).mbox k = s.mbox k := rfl
@[simp] theorem State.mbox_setGrid (s : State) (k : Nat) (g : Grid) : (s.setGrid g).mbox k = s.mbox k := rfl
@[simp] theorem State.mbox_modGrid (s : State) (k : Nat) (i : Nat) (f : Grid → Grid) : (s.modGrid i f).mbox k = s.mbox k := rfl
@[simp] theorem State.mbox_setReg (s : State) (k : Nat) (i : Nat) (v : DWord) : (s.setReg i v).mbox k = s.mbox k := rfl
@[simp] theorem State.mbox_emit (s : State) (k : Nat) (o : Out) : (s.emit o).mbox k = s.mbox k := rfl
theorem State.page_setPage (s : State) (i j : Nat) (p : PageSt) : (s.setPage i p).page j = if j = i then p else s.page j := by
  simp [State.page, State.setPage, Tab.get_set]
@[simp] theorem State.page_setGroup (s : State) (k : Nat) (i : Nat) (g : Group) : (s.setGroup i g).page k = s.page k := rfl
@[simp] theorem State.page_setCurG (s : State) (k : Nat) (g : Group) : (s.setCurG g).page k = s.page k := rfl
@[simp] theorem State.page_setTeam (s : State) (k : Nat) (i : Nat) (t : Team) : (s.setTeam i t).page k = s.page k := rfl
@[simp] theorem State.page_setCore (s : State) (k : Nat) (i : Nat) (c : Core) : (s.setCore i c).page k = s.page k := rfl
@[simp] theorem State.page_setPart (s : State) (k : Nat) (i : Nat) (p : Part) : (s.setPart i p).page k = s.page k := rfl
@[simp] theorem State.page_setQueue (s : State) (k : Nat) (i : Nat) (q : Queue) : (s.setQueue i q).page k = s.page k := rfl
@[simp] theorem State.page_setMbox (s : State) (k : Nat) (i : Nat) (m : Mbox) : (s.setMbox i m).page k = s.page k := rfl
@[simp] theorem State.page_setChan (s : State) (k : Nat) (i j : Nat) (c : Chan) : (s.setChan i j c).page k = s.page k := rfl
@[simp] theorem State.page_setGrid (s : State) (k : Nat) (g : Grid) : (s.setGrid g).page k = s.page k := rfl
@[simp] theorem State.page_modGrid (s : State) (k : Nat) (i : Nat) (f : Grid → Grid) : (s.modGrid i f).page k = s.page k := rfl
@[simp] theorem State.page_setReg (s : State) (k : Nat) (i : Nat) (v : DWord) : (s.setReg i v).page k = s.page k := rfl
@[simp] theorem State.page_emit (s : State) (k : Nat) (o : Out) : (s.emit o).page k = s.page k := rfl
theorem State.reg_setReg (s : State) (i j : Nat) (v : DWord) : (s.setReg i v).reg j = if j = i then v else s.reg j := by
  simp only [State.reg, State.setReg]; by_cases h : j = i
  · subst h; simp
  · rw [if_neg h, Tab.set_get_other _ _ _ _ _ _ h]
@[simp] theorem State.reg_setGroup (s : State) (k : Nat) (i : Nat) (g : Group) : (s.setGroup i g).reg k = s.reg k := rfl
@[simp] theorem State.reg_setCurG (s : State) (k : Nat) (g : Group) : (s.setCurG g).reg k = s.reg k := rfl
@[simp] theorem State.reg_setTeam (s : State) (k : Nat) (i : Nat) (t : Team) : (s.setTeam i t).reg k = s.reg k := rfl
@[simp] theorem State.reg_setCore (s : State) (k : Nat) (i : Nat) (c : Core) : (s.setCore i c).reg k = s.reg k := rfl
@[simp] theorem State.reg_setPart (s : State) (k : Nat) (i : Nat) (p : Part) : (s.setPart i p).reg k = s.reg k := rfl
@[simp] theorem State.reg_setQueue (s : State) (k : Nat) (i : Nat) (q : Queue) : (s.setQueue i q).reg k = s.reg k := rfl
@[simp] theorem State.reg_setMbox (s : State) (k : Nat) (i : Nat) (m : Mbox) : (s.setMbox i m).reg k = s.reg k := rfl
@[simp] theorem State.reg_setChan (s : State) (k : Nat) (i j : Nat) (c : Chan) : (s.setChan i j c).reg k = s.reg k := rfl
@[simp] theorem State.reg_setPage (s : State) (k : Nat) (i : Nat) (p : PageSt) : (s.setPage i p).reg k = s.reg k := rfl
@[simp] theorem State.reg_setGrid (s : State) (k : Nat) (g : Grid) : (s.setGrid g).reg k = s.reg k := rfl
@[simp] theorem State.reg_modGrid (s : State) (k : Nat) (i : Nat) (f : Grid → Grid) : (s.modGrid i f).reg k = s.reg k := rfl
@[simp] theorem State.reg_emit (s : State) (k : Nat) (o : Out) : (s.emit o).reg k = s.reg k := rfl

theorem State.modGroup_eq (s : State) (i : Nat) (f : Group → Group) : s.modGroup i f = s.setGroup i (f (s.group i)) := rfl
theorem State.modTeam_eq (s : State) (i : Nat) (f : Team → Team) : s.modTeam i f = s.setTeam i (f (s.team i)) := rfl
theorem State.modCore_eq (s : State) (i : Nat) (f : Core → Core) : s.modCore i f = s.setCore i (f (s.core i)) := rfl
theorem State.advance_eq (s : State) : s.advance = s.setCurG (s.curG.onMask s.cur.mask (laneAdvance s.cur)) := rfl

end Sys2Proof.Machine
end

