-- ==== Sys2Proof/Laws/Control.lean ====
section
/-! SUPPORT. What a transfer of control and the taking of a trap do, once for every instruction that does either. -/

namespace Sys2Proof.Machine
open Sys2Proof.Safety

/-- Everything a branch does: active lanes go where it says, the other lanes of the subgroup to the successor (R123). -/
theorem State.jump_went (s : State) (h : Hdr) (f : Group → Nat → Pc) :
   LanesWentTo s (s.jump h f) (fun l => if (activeLanes s h).contains l then f s.curG l else s.cur.next) ∧
   (∀ l, ((s.jump h f).curG.lane l).meet = (s.curG.lane l).meet) ∧ RegsKept s (s.jump h f) := by
  have hl : ∀ l, (s.jump h f).curG.lane l = if l < s.curG.lanes.length then
     (if s.cur.mask.getLsbD l then
      (if (activeLanes s h).contains l then { (laneAdvance s.cur (s.curG.lane l)) with pc := f s.curG l } else laneAdvance s.cur (s.curG.lane l))
     else s.curG.lane l) else Lane.reset := by
    intro l; simp only [State.jump, State.curG_setCurG, Group.lane_withLanes]
  have hz : ∀ l, ¬ l < s.curG.lanes.length → s.curG.lane l = Lane.reset := fun l h => Group.lane_of_le _ (Nat.le_of_not_lt h)
  refine ⟨⟨⟨_, rfl⟩, ?_, ?_, ?_, ?_⟩, ?_, ?_, ?_, ?_⟩
  · simp [State.jump, Group.withLanes]
  · simp [State.jump]
  · intro a; simp [State.jump]
  · intro l hlt
    rw [hl, if_pos hlt]
    constructor
    · intro hm; rw [if_neg]; simpa [inSub] using hm
    · intro hm; rw [if_pos (by simpa [inSub] using hm)]
      split <;> simp_all [laneAdvance]
  · intro l; rw [hl]; split
    · split <;> (try split) <;> rfl
    · rw [hz l ‹_›]
  · intro l j; unfold Group.vreg; rw [hl]; split
    · split <;> (try split) <;> rfl
    · rw [hz l ‹_›]
  · intro l j; rw [hl]; split
    · split <;> (try split) <;> rfl
    · rw [hz l ‹_›]
  · intro j; simp [State.jump]; rfl


/-- A property of some lane, by its number. -/
theorem zipIdx_any (f : Lane → Nat → Bool) (xs : List Lane) : ∀ n, ((xs.zipIdx n).any fun p => f p.1 p.2) = true ↔ ∃ l, l < xs.length ∧ f (xs.getD l Lane.reset) (n+l) = true := by
  induction xs with
  | nil => simp
  | cons x xs ih =>
    intro n
    simp only [List.zipIdx_cons, List.any_cons, Bool.or_eq_true, ih, List.length_cons]
    constructor
    · rintro (h | ⟨l, h1, h2⟩)
      · exact ⟨0, by omega, by simpa using h⟩
      · exact ⟨l+1, by omega, by rw [List.getD_cons_succ]; rw [show n + (l+1) = n+1+l by omega]; exact h2⟩
    · rintro ⟨l, h1, h2⟩
      cases l with
      | zero => left; simpa using h2
      | succ l => right; exact ⟨l, by omega, by rw [List.getD_cons_succ] at h2; rw [show n+1+l = n + (l+1) by omega]; exact h2⟩

/-- TRAPCAUSE after a trap (R347). -/
theorem trapCause_eq (slot cause detail : Nat) (hc : cause < 32) (hd : detail < 65536) :
    trapCause slot cause detail = BitVec.ofNat 32 (cause + 256 * detail + 2 ^ 24 * (slot % 192)) := by
  rw [trapCause, Nat.mod_eq_of_lt hc, Nat.mod_eq_of_lt hd, Nat.mul_comm detail, Nat.mul_comm (slot % 192)]

/-- The lanes of a group after an update of a mask's lanes, of REP and of the lanes at switch markers. -/
theorem Group.lane_onMask_rep (g : Group) (m : Mask) (f : Lane → Lane) (r : Option RepSt) (w : Mask) (l : Nat) :
    ({ g.onMask m f with rep := r, swMask := w } : Group).lane l =
      if m.getLsbD l ∧ l < g.lanes.length then f (g.lane l) else g.lane l :=
  Group.lane_onMask g m f l

/-- A trap taken while no routine of the group runs: the registers and the lanes (R345 to R348). -/
theorem State.trapAt_enter (s : State) (slot : Nat) (m : Mask) (pc : Pc) (rep : Option Nat) (cause detail addr : Nat)
    (h : NoRoutine (s.group slot)) : s.trapAt slot m pc rep cause detail addr =
      s.setGroup slot { ((s.group slot).trapCsrs slot cause detail pc addr).onMask m
        (laneTrap { s.cur with slot, mask := m, pc, rep } cause) with
          rep := repLeft (s.group slot) m, swMask := (s.group slot).swMask &&& ~~~m } := by
  have hr : (match (s.group slot).rep with
      | some r => if r.mask &&& m = 0 then some r else none
      | none => none) = repLeft (s.group slot) m := by
    unfold repLeft
    cases (s.group slot).rep with
    | none => rfl
    | some r => by_cases h0 : r.mask &&& m = 0 <;> simp [h0, Option.filter]
  rw [← hr]
  unfold State.trapAt
  simp only []
  have free : ∀ x ∈ (s.group slot).lanes, (x.sup && !x.exited) = false := fun x hx => by
    have := h x hx; cases hh : x.exited <;> simp_all
  refine (if_neg ?_).trans ((if_neg ?_).trans rfl)
  · rw [Bool.not_eq_true, List.any_eq_false]
    intro p hp
    have := free p.1 (List.fst_mem_of_mem_zipIdx hp)
    simp only [Bool.and_eq_true] at *
    rintro ⟨⟨_, h1⟩, h2⟩
    simp [h1, h2] at this
  · simpa [Group.inRoutine] using fun x hx => by simpa using free x hx

/-- Everything the taking of a trap does outside a routine: the CSRs, the lanes and nothing else (R345 to R348). -/
theorem State.trap_taken (s : State) (h : NoRoutine s.curG) (cause detail addr : Nat) (hc : cause < 32) (hd : detail < 65536) :
    TookTrap s (s.trap cause detail addr) cause detail addr := by
  obtain ⟨c, hcur⟩ : ∃ c, c = s.cur := ⟨_, rfl⟩
  obtain ⟨v, hv⟩ : ∃ v, v = trapCause s.cur.slot cause detail := ⟨_, rfl⟩
  obtain ⟨g, hg⟩ : ∃ g : Group, g = { s.curG with trapcause := v, trappc := s.cur.pc, trapaddr := BitVec.ofNat 56 addr } := ⟨_, rfl⟩
  have ht : s.trap cause detail addr = s.setCurG { g.onMask s.cur.mask (laneTrap c cause) with
      rep := repLeft s.curG s.cur.mask, swMask := s.curG.swMask &&& ~~~s.cur.mask } := by
    rw [State.trap, State.trapAt_enter _ _ _ _ _ _ _ _ h, hg, hv, hcur]; rfl
  have hl : ∀ l, g.lane l = s.curG.lane l := fun l => by rw [hg]; rfl
  have hn : g.lanes.length = s.curG.lanes.length := by rw [hg]
  have hlane := fun l => Group.lane_onMask_rep g s.cur.mask (laneTrap c cause) (repLeft s.curG s.cur.mask) (s.curG.swMask &&& ~~~s.cur.mask) l
  simp only [hl, hn] at hlane
  rw [ht]
  refine ⟨⟨_, rfl⟩, ⟨fun l j => ?_, fun l j => ?_, fun j => ?_⟩, fun a => by simp, ?_, ?_, fun l hlt => ?_⟩
  · rw [State.curG_setCurG, Group.vreg, hlane]; split <;> (try rfl); unfold laneTrap; split <;> rfl
  · rw [State.curG_setCurG, hlane]; split <;> (try rfl); unfold laneTrap; split <;> rfl
  · rw [State.curG_setCurG, hg]; rfl
  · rw [State.curG_setCurG, ← trapCause_eq _ _ _ hc hd, ← hv, hg]; rfl
  · rw [State.curG_setCurG, ← hn]; exact Group.onMask_length _ _ _
  · rw [State.curG_setCurG, hlane]
    by_cases hm : s.cur.mask.getLsbD l = true
    · by_cases he : (s.curG.lane l).exited = true
      · simp [inSub, hm, he, hlt, laneTrap]
      · simp only [Bool.not_eq_true] at he
        rw [if_pos ⟨hm, he⟩, if_pos ⟨hm, hlt⟩, laneTrap, he, hcur]
        exact ⟨rfl, rfl, rfl, by cases s.cur.rep <;> rfl⟩
    · simp [inSub, hm]

end Sys2Proof.Machine
end

