-- ==== Sys2Proof/Laws/Memory.lean ====
section
/-! SUPPORT. Laws of the memories: reading after one byte is written at a place, and that every operation that changes a
memory keeps its canonical form. -/

namespace Sys2Proof.Machine
open Sys2Proof.Safety

/-! ### Reading after a write -/

/-- Places that hold bytes this package can read. -/
def Loc.held : Loc → Bool
  | .dev _ | .host _ | .scr _ _ | .sup _ _ => true
  | _ => false

/-- Two names of one byte. -/
def Loc.same : Loc → Loc → Bool
  | .dev a, .dev b => a == b
  | .host a, .host b => a == b
  | .scr c a, .scr d b => c * 2 ^ 21 + a == d * 2 ^ 21 + b
  | .sup t a, .sup u b => t * 2 ^ 32 + a == u * 2 ^ 32 + b
  | _, _ => false

/-- What a place reads after one byte was written at a place. -/
theorem State.readLoc_writeLoc (s : State) (v : Byte) (a b : Loc) :
    (s.writeLoc v a).readLoc b = if a.same b then v else s.readLoc b := by
  cases a <;> cases b <;> simp only [State.writeLoc, State.readLoc, Loc.same, Tab.get_set, beq_iff_eq, Bool.false_eq_true, if_false] <;>
    simp only [eq_comm]

theorem Loc.same_self {a : Loc} (h : a.held = true) : a.same a = true := by
  cases a <;> simp_all [Loc.held, Loc.same]

/-- Scratchpad names are unique within a core's 2 MiB. -/
theorem Loc.same_scr {c d a b : Nat} (ha : a < 2 ^ 21) (hb : b < 2 ^ 21) :
    Loc.same (.scr c a) (.scr d b) = true ↔ c = d ∧ a = b := by
  simp only [Loc.same, beq_iff_eq]; omega

/-! ### The canonical form -/

theorem memOk_iff (s : State) : memOk s = true ↔
    Memory.wf s.mem = true ∧ Memory.wf s.hostMem = true ∧ Memory.wf s.scr = true ∧ Memory.wf s.supMem = true := by
  simp [memOk, and_assoc]

/-- Two states with the same memories. -/
theorem memOk_of_same {s t : State} (h : memOk s = true) (h1 : t.mem = s.mem) (h2 : t.hostMem = s.hostMem)
    (h3 : t.scr = s.scr) (h4 : t.supMem = s.supMem) : memOk t = true := by
  rw [memOk_iff] at h ⊢; rw [h1, h2, h3, h4]; exact h

theorem Tab.filter_wf {α : Type} [DecidableEq α] {d : α} {t : Tab α} (p : Nat × α → Bool) (h : Tab.wf d t = true) :
    Tab.wf d (t.filter p) = true := by
  rw [Tab.wf_iff] at h ⊢
  exact ⟨h.1.sublist List.filter_sublist, fun e he => h.2 e (List.mem_filter.1 he).1⟩

theorem State.writeLoc_memOk {s : State} (v : Byte) (a : Loc) (h : memOk s = true) : memOk (s.writeLoc v a) = true := by
  rw [memOk_iff] at h ⊢
  cases a <;> simp only [State.writeLoc] <;>
    first
    | exact h
    | exact ⟨Tab.set_wf _ _ h.1, h.2⟩
    | exact ⟨h.1, Tab.set_wf _ _ h.2.1, h.2.2⟩
    | exact ⟨h.1, h.2.1, Tab.set_wf _ _ h.2.2.1, h.2.2.2⟩
    | exact ⟨h.1, h.2.1, h.2.2.1, Tab.set_wf _ _ h.2.2.2⟩

theorem State.heal_memOk {s : State} (base : Loc) (bs : List (Option Byte)) (h : memOk s = true) :
    memOk (s.heal base bs) = true := by cases base <;> exact h

theorem State.putBytes_memOk (base : Loc) (bs : List (Option Byte)) : ∀ {s : State} (i : Nat), memOk s = true →
    memOk (s.putBytes base i bs) = true := by
  induction bs with
  | nil => exact fun _ h => h
  | cons b bs ih =>
    intro s i h
    cases b with
    | none => exact ih _ h
    | some v => exact ih _ (State.writeLoc_memOk v _ h)

theorem State.homeWrite_memOk {s : State} (base : Loc) (bs : List (Option Byte)) (h : memOk s = true) :
    memOk (s.homeWrite base bs) = true := State.putBytes_memOk _ _ _ (State.heal_memOk _ _ h)

theorem State.homePut_memOk {s : State} (base : Loc) (bs : List Byte) (h : memOk s = true) :
    memOk (s.homePut base bs) = true := State.homeWrite_memOk _ _ h

theorem State.scrPut_memOk (t : Team) (bs : List Byte) : ∀ {s : State} (o : Nat), memOk s = true →
    memOk (s.scrPut t o bs) = true := by
  induction bs with
  | nil => exact fun _ h => h
  | cons b bs ih => exact fun o h => ih _ (State.writeLoc_memOk _ _ h)

theorem State.scrStore_memOk {s : State} (t : Team) (o : Nat) (bs : List Byte) (h : memOk s = true) :
    memOk (s.scrStore t o bs) = true := by
  have h1 := State.scrPut_memOk t bs o h
  unfold State.scrStore
  simp only
  split
  · exact h1
  · exact memOk_of_same h1 rfl rfl rfl rfl

theorem State.clearMacros_memOk {s : State} (core : Nat) (ms : List Nat) (h : memOk s = true) :
    memOk (s.clearMacros core ms) = true := by
  rw [memOk_iff] at h ⊢
  exact ⟨h.1, h.2.1, Tab.filter_wf _ h.2.2.1, h.2.2.2⟩

/-- A fold keeps the form if each of its steps does. -/
theorem memOk_foldl {α : Type} (f : State → α → State) (hf : ∀ s x, memOk s = true → memOk (f s x) = true) (l : List α) :
    ∀ {s : State}, memOk s = true → memOk (l.foldl f s) = true := by
  induction l with
  | nil => exact fun h => h
  | cons x l ih => exact fun h => ih (hf _ _ h)

theorem State.freeTeam_memOk {s : State} (tid : Nat) (h : memOk s = true) : memOk (s.freeTeam tid) = true := by
  have h1 : memOk ((s.team tid).slots.foldl (fun s k => s.setGroup k Group.reset) s) = true :=
    memOk_foldl (fun (s : State) (k : Nat) => s.setGroup k Group.reset) (fun s _ hs => memOk_of_same hs rfl rfl rfl rfl) _ h
  rw [memOk_iff] at h1 ⊢
  exact ⟨h1.1, h1.2.1, Tab.filter_wf _ h1.2.2.1, Tab.filter_wf _ h1.2.2.2⟩

theorem reset_memOk : memOk State.reset = true := by decide

/-! ### Updates that touch no memory -/

theorem State.msix_memOk {s : State} (v : Nat) (h : memOk s = true) : memOk (s.msix v) = true := by
  unfold State.msix; split <;> exact memOk_of_same h rfl rfl rfl rfl

theorem State.record_memOk {s : State} (ty sev src : Nat) (d0 d1 : DWord) (h : memOk s = true) :
    memOk (s.record ty sev src d0 d1) = true := by
  unfold State.record; simp only
  split
  · exact State.msix_memOk _ (memOk_of_same h rfl rfl rfl rfl)
  · exact memOk_of_same h rfl rfl rfl rfl

theorem State.advance_memOk {s : State} (h : memOk s = true) : memOk s.advance = true := memOk_of_same h rfl rfl rfl rfl

theorem State.block_memOk {s : State} (m : Mask) (w : Why) (h : memOk s = true) : memOk (s.block m w) = true :=
  memOk_of_same h rfl rfl rfl rfl

theorem State.cancelled_memOk {s : State} (c : Cmd) (h : memOk s = true) : memOk (s.cancelled c) = true := by
  unfold State.cancelled
  split
  · exact memOk_of_same h rfl rfl rfl rfl
  · split <;> first | exact memOk_of_same h rfl rfl rfl rfl | exact h

theorem State.killTeam_memOk {s : State} (tid : Nat) (h : memOk s = true) : memOk (s.killTeam tid) = true := by
  have h1 := memOk_foldl (fun (s : State) slot => (s.forget slot).modGroup slot fun g =>
      { g with st := .free, lanes := g.lanes.map fun x => { x with exited := true }, pend := [],
               blocked := [], rep := none, score := [], fences := [], flushes := [] })
    (fun s _ hs => memOk_of_same hs rfl rfl rfl rfl) (s.team tid).slots h
  refine memOk_of_same (memOk_foldl State.cancelled (fun _ c hs => State.cancelled_memOk c hs) _ ?_) rfl rfl rfl rfl
  exact memOk_of_same h1 rfl rfl rfl rfl

theorem State.abortGrid_memOk {s : State} (g : Nat) (c p : Word) (a : Nat) (h : memOk s = true) :
    memOk (s.abortGrid g c p a) = true := by
  have h1 := memOk_foldl _ (fun s t hs => State.killTeam_memOk t hs) (s.teamsOf g) h
  exact State.record_memOk _ _ _ _ _ (memOk_of_same h1 rfl rfl rfl rfl)

theorem State.trapAt_memOk {s : State} (slot : Nat) (m : Mask) (pc : Pc) (rep : Option Nat) (c d a : Nat)
    (h : memOk s = true) : memOk (s.trapAt slot m pc rep c d a) = true := by
  unfold State.trapAt; simp only
  split
  · exact State.abortGrid_memOk _ _ _ _ h
  · split <;> exact memOk_of_same h rfl rfl rfl rfl

theorem State.trap_memOk {s : State} (c d a : Nat) (h : memOk s = true) : memOk (s.trap c d a) = true :=
  State.trapAt_memOk _ _ _ _ _ _ _ h

end Sys2Proof.Machine
end

