-- ==== Sys2Proof/Laws/PerInstr.lean ====
section
/-! SUPPORT. Decoding the fields of a well-formed instruction gives the instruction back, with every operand and no bit
unaccounted for: one lemma for each row. -/

namespace Sys2Proof.Laws.RoundTrip

/-- The fields of the instruction's word name the instruction, and no bit of the word is unused (R33 to R54). For a row
that is a step of the device there is no word. -/
def Statement (i : Instr) : Prop :=
  ∀ r, i.raw = some r → i.details = [] → instrOf r = some i ∧ r.unused i = []

/-! ### Fields -/

theorem ty_of (t : Ty) : Ty.ofBits t.toBits = t := by cases t <;> rfl
theorem rnd_of (t : Rnd) : Rnd.ofBits t.toBits = t := by cases t <;> rfl
theorem memTy_of (t : MemTy) : MemTy.ofBits t.toBits = t := by cases t <;> rfl
theorem atTy_of (t : AtTy) : AtTy.ofBits t.toBits = t := by cases t <;> rfl
theorem space_of (t : Space) : Space.ofBits t.toBits = t := by cases t <;> rfl
theorem ord_of (t : Ord) : Ord.ofBits t.toBits = t := by cases t <;> rfl
theorem scope_of (t : Scope) : Scope.ofBits t.toBits = t := by cases t <;> rfl

/-- A field of a concatenation: in its right part, in its left part, or all of one. -/
theorem ext_right {m n : Nat} (a : BitVec m) (b : BitVec n) (i k : Nat) (h : i + k ≤ n) :
    (a ++ b).extractLsb' i k = b.extractLsb' i k := by
  apply BitVec.eq_of_getLsbD_eq; intro j hj
  simp only [BitVec.getLsbD_extractLsb', BitVec.getLsbD_append, hj, decide_true, Bool.true_and]
  rw [if_pos (by omega)]
theorem ext_left {m n : Nat} (a : BitVec m) (b : BitVec n) (i k : Nat) (h : n ≤ i) :
    (a ++ b).extractLsb' i k = a.extractLsb' (i - n) k := by
  apply BitVec.eq_of_getLsbD_eq; intro j hj
  simp only [BitVec.getLsbD_extractLsb', BitVec.getLsbD_append, hj, decide_true, Bool.true_and]
  rw [if_neg (by omega), show i + j - n = i - n + j by omega]
theorem ext_all {n : Nat} (a : BitVec n) : a.extractLsb' 0 n = a := by
  apply BitVec.eq_of_getLsbD_eq; intro j hj; simp [hj]
theorem bit_right {m n : Nat} (a : BitVec m) (b : BitVec n) (i : Nat) (h : i < n) :
    (a ++ b).getLsbD i = b.getLsbD i := by simp [BitVec.getLsbD_append, h]
theorem bit_left {m n : Nat} (a : BitVec m) (b : BitVec n) (i : Nat) (h : n ≤ i) :
    (a ++ b).getLsbD i = a.getLsbD (i - n) := by simp [BitVec.getLsbD_append, show ¬i < n by omega]
theorem opnd_of (o : Opnd) : Opnd.ofBits o.toBits = o := by
  have h (m : BitVec 2) (i : BitVec 8) : (m ++ i).extractLsb' 0 8 = i ∧ (m ++ i).extractLsb' 8 2 = m := by
    exact ⟨(ext_right m i 0 8 (by omega)).trans (ext_all i), (ext_left m i 8 2 (by omega)).trans (ext_all m)⟩
  cases o <;> simp only [Opnd.toBits, Opnd.ofBits] <;> rw [(h _ _).1, (h _ _).2] <;> rfl
theorem bit1_at (b : Bool) : (bit1 b).getLsbD 0 = b := by cases b <;> rfl

theorem hint_low (h : Hdr) : h.hintBits.extractLsb' 0 4 = 0 := by
  unfold Hdr.hintBits; rw [ext_right _ _ _ _ (by omega)]; rfl

/-- No bit is unused where the word is the encoder's. -/
theorem unused_nil {i : Instr} {r : Raw} (hr : i.raw = some r) (hh : r.hint.extractLsb' 0 4 = 0) : r.unused i = [] := by
  unfold Raw.unused; rw [hr]; simp only []; split <;> simp [need, hh]

theorem done {i : Instr} {r : Raw} (hr : i.raw = some r) (hh : r.hint.extractLsb' 0 4 = 0)
    (hi : i.details = [] → instrOf r = some i) : Statement i := by
  intro r' h hd
  rw [hr] at h; cases h
  exact ⟨hi hd, unused_nil hr hh⟩

/-- The header of a word with the encoder's guard and hints. -/
theorem hdr_of {r : Raw} (h : Hdr) (hg : r.g = h.gBits) (hh : r.hint = h.hintBits) : hdrOf r = h := by
  rw [hdrOf, hg, hh]
  have e : ∀ (neg : Bool) (pred : BitVec 3) (safe sw ra rb : Bool), let k : Hdr := ⟨neg, pred, safe, sw, ra, rb⟩
      (⟨k.gBits.getLsbD 3, k.gBits.extractLsb' 0 3, k.hintBits.getLsbD 7, k.hintBits.getLsbD 6, k.hintBits.getLsbD 5,
        k.hintBits.getLsbD 4⟩ : Hdr) = k := by decide
  exact e _ _ _ _ _ _

theorem need_iff (b : Bool) (d : Nat) : need b d = [] ↔ b = true := by cases b <;> simp [need]

/-! ### Forms -/

theorem ops_ctl (opc : BitVec 12) (mode : BitVec 2) (h : Hdr) (o : CtlOps) : ctlOf (ctlRaw opc mode h o) = o := by
  cases o; exact (CtlOps.mk.injEq ..).mpr ⟨opnd_of _,
    opnd_of _,
    opnd_of _,
    rfl⟩

theorem ops_alu (opc : BitVec 12) (h : Hdr) (o : AluOps) : aluOf (aluRaw opc h o) = o := by
  cases o; exact (AluOps.mk.injEq ..).mpr ⟨opnd_of _,
    opnd_of _,
    opnd_of _,
    (congrArg Ty.ofBits (((ext_right _ _ 0 4 (by omega))).trans (ext_all _))).trans (ty_of _),
    (congrArg Rnd.ofBits ((((ext_left _ _ 4 2 (by omega))).trans (ext_right _ _ 0 2 (by omega))).trans (ext_all _))).trans (rnd_of _),
    ((((bit_left _ _ 6 (by omega))).trans (bit_left _ _ 2 (by omega))).trans (bit_right _ _ 0 (by omega))).trans (bit1_at _),
    ((((ext_left _ _ 7 3 (by omega))).trans (ext_left _ _ 3 3 (by omega))).trans (ext_left _ _ 1 3 (by omega))).trans (ext_all _),
    rfl⟩

theorem ops_mem (opc : BitVec 12) (h : Hdr) (o : MemOps) : memOf (memRaw opc h o) = o := by
  cases o; exact (MemOps.mk.injEq ..).mpr ⟨opnd_of _,
    opnd_of _,
    opnd_of _,
    (congrArg MemTy.ofBits (((ext_right _ _ 0 4 (by omega))).trans (ext_all _))).trans (memTy_of _),
    (congrArg Space.ofBits ((((ext_left _ _ 4 2 (by omega))).trans (ext_right _ _ 0 2 (by omega))).trans (ext_all _))).trans (space_of _),
    ((((bit_left _ _ 6 (by omega))).trans (bit_left _ _ 2 (by omega))).trans (bit_right _ _ 0 (by omega))).trans (bit1_at _),
    (((((ext_left _ _ 7 2 (by omega))).trans (ext_left _ _ 3 2 (by omega))).trans (ext_left _ _ 1 2 (by omega))).trans (ext_right _ _ 0 2 (by omega))).trans (ext_all _),
    rfl⟩

theorem ops_atom (opc : BitVec 12) (h : Hdr) (o : AtomOps) : atomOf (atomRaw opc h o) = o := by
  cases o; exact (AtomOps.mk.injEq ..).mpr ⟨opnd_of _,
    opnd_of _,
    opnd_of _,
    (congrArg AtTy.ofBits (((ext_right _ _ 0 2 (by omega))).trans (ext_all _))).trans (atTy_of _),
    (congrArg Space.ofBits ((((ext_left _ _ 2 2 (by omega))).trans (ext_right _ _ 0 2 (by omega))).trans (ext_all _))).trans (space_of _),
    (congrArg Ord.ofBits (((((ext_left _ _ 4 2 (by omega))).trans (ext_left _ _ 2 2 (by omega))).trans (ext_right _ _ 0 2 (by omega))).trans (ext_all _))).trans (ord_of _),
    (congrArg Scope.ofBits (((((ext_left _ _ 6 4 (by omega))).trans (ext_left _ _ 4 4 (by omega))).trans (ext_left _ _ 2 4 (by omega))).trans (ext_all _))).trans (scope_of _),
    (congrArg Opnd.ofBits (((ext_right _ _ 0 10 (by omega))).trans (ext_all _))).trans (opnd_of _),
    (((ext_left _ _ 10 4 (by omega))).trans (ext_right _ _ 0 4 (by omega))).trans (ext_all _),
    ((((ext_left _ _ 14 3 (by omega))).trans (ext_left _ _ 4 3 (by omega))).trans (ext_right _ _ 0 3 (by omega))).trans (ext_all _)⟩

theorem ops_cell (opc : BitVec 12) (h : Hdr) (o : CellOps) : cellOf (cellRaw opc h o) = o := by
  cases o; exact (CellOps.mk.injEq ..).mpr ⟨opnd_of _,
    opnd_of _,
    opnd_of _,
    ((((bit_left _ _ 3 (by omega))).trans (bit_left _ _ 2 (by omega))).trans (bit_right _ _ 0 (by omega))).trans (bit1_at _),
    (((ext_left _ _ 1 2 (by omega))).trans (ext_right _ _ 0 2 (by omega))).trans (ext_all _),
    ((bit_right _ _ 0 (by omega))).trans (bit1_at _),
    (congrArg Ord.ofBits ((((((ext_left _ _ 4 2 (by omega))).trans (ext_left _ _ 3 2 (by omega))).trans (ext_left _ _ 1 2 (by omega))).trans (ext_right _ _ 0 2 (by omega))).trans (ext_all _))).trans (ord_of _),
    (congrArg Scope.ofBits ((((((ext_left _ _ 6 4 (by omega))).trans (ext_left _ _ 5 4 (by omega))).trans (ext_left _ _ 3 4 (by omega))).trans (ext_left _ _ 2 4 (by omega))).trans (ext_all _))).trans (scope_of _),
    rfl⟩

theorem ops_mat (opc : BitVec 12) (h : Hdr) (o : MatOps) : matOf (matRaw opc h o) = o := by
  cases o; exact (MatOps.mk.injEq ..).mpr ⟨opnd_of _,
    opnd_of _,
    opnd_of _,
    (congrArg Opnd.ofBits (((ext_right _ _ 0 10 (by omega))).trans (ext_all _))).trans (opnd_of _),
    (((ext_left _ _ 10 8 (by omega))).trans (ext_right _ _ 0 8 (by omega))).trans (ext_all _),
    ((((ext_left _ _ 18 2 (by omega))).trans (ext_left _ _ 8 2 (by omega))).trans (ext_right _ _ 0 2 (by omega))).trans (ext_all _),
    ((((((bit_left _ _ 23 (by omega))).trans (bit_left _ _ 13 (by omega))).trans (bit_left _ _ 5 (by omega))).trans (bit_left _ _ 3 (by omega))).trans (bit_right _ _ 0 (by omega))).trans (bit1_at _),
    (((((ext_left _ _ 20 3 (by omega))).trans (ext_left _ _ 10 3 (by omega))).trans (ext_left _ _ 2 3 (by omega))).trans (ext_right _ _ 0 3 (by omega))).trans (ext_all _),
    ((bit_right _ _ 0 (by omega))).trans (bit1_at _),
    (((bit_left _ _ 1 (by omega))).trans (bit_right _ _ 0 (by omega))).trans (bit1_at _)⟩

theorem ops_shelf (opc : BitVec 12) (h : Hdr) (o : ShelfOps) : shelfOf (shelfRaw opc h o) = o := by
  cases o; exact (ShelfOps.mk.injEq ..).mpr ⟨opnd_of _,
    opnd_of _,
    opnd_of _,
    ((bit_right _ _ 0 (by omega))).trans (bit1_at _),
    ((ext_right _ _ 0 6 (by omega))).trans (ext_all _)⟩

theorem ops_tile (opc : BitVec 12) (mode : BitVec 2) (h : Hdr) (o : TileOps) : tileOf (tileRaw opc mode h o) = o := by
  cases o; exact (TileOps.mk.injEq ..).mpr ⟨opnd_of _,
    opnd_of _,
    opnd_of _,
    rfl⟩

theorem ops_ffp (opc : BitVec 12) (h : Hdr) (o : FfpOps) : ffpOf (ffpRaw opc h o) = o := by
  cases o; exact (FfpOps.mk.injEq ..).mpr ⟨opnd_of _,
    opnd_of _,
    opnd_of _,
    (((bit_left _ _ 7 (by omega))).trans (bit_right _ _ 0 (by omega))).trans (bit1_at _),
    rfl⟩

theorem ops_eng (opc : BitVec 12) (h : Hdr) (o : EngOps) : engOf (engRaw opc h o) = o := by
  cases o; exact (EngOps.mk.injEq ..).mpr ⟨opnd_of _,
    opnd_of _,
    opnd_of _,
    ((bit_right _ _ 0 (by omega))).trans (bit1_at _),
    rfl⟩

theorem ops_launch (opc : BitVec 12) (form : BitVec 2) (dis : Bool) (h : Hdr) (o : LaunchOps) : launchOf (launchRaw opc form dis h o) = o := by
  cases o; exact (LaunchOps.mk.injEq ..).mpr ⟨opnd_of _,
    opnd_of _,
    opnd_of _,
    ((ext_right _ _ 0 3 (by omega))).trans (ext_all _),
    ((((bit_left _ _ 5 (by omega))).trans (bit_left _ _ 2 (by omega))).trans (bit_right _ _ 0 (by omega))).trans (bit1_at _),
    (((((bit_left _ _ 6 (by omega))).trans (bit_left _ _ 3 (by omega))).trans (bit_left _ _ 1 (by omega))).trans (bit_right _ _ 0 (by omega))).trans (bit1_at _),
    rfl⟩

theorem ops_rep  (h : Hdr) (o : RepOps) : repOf (repRaw h o) = o := by
  cases o; exact (RepOps.mk.injEq ..).mpr ⟨((ext_right _ _ 0 6 (by omega))).trans (ext_all _),
    (((ext_left _ _ 6 2 (by omega))).trans (ext_right _ _ 0 2 (by omega))).trans (ext_all _),
    ((((ext_left _ _ 8 2 (by omega))).trans (ext_left _ _ 2 2 (by omega))).trans (ext_right _ _ 0 2 (by omega))).trans (ext_all _),
    (((((ext_left _ _ 10 2 (by omega))).trans (ext_left _ _ 4 2 (by omega))).trans (ext_left _ _ 2 2 (by omega))).trans (ext_right _ _ 0 2 (by omega))).trans (ext_all _),
    ((((((ext_left _ _ 12 2 (by omega))).trans (ext_left _ _ 6 2 (by omega))).trans (ext_left _ _ 4 2 (by omega))).trans (ext_left _ _ 2 2 (by omega))).trans (ext_right _ _ 0 2 (by omega))).trans (ext_all _)⟩

theorem ops_fence  (h : Hdr) (o : FenceOps) : fenceOf (fenceRaw h o) = o := by
  cases o; exact (FenceOps.mk.injEq ..).mpr ⟨(congrArg Ord.ofBits ((((ext_left _ _ 4 2 (by omega))).trans (ext_right _ _ 0 2 (by omega))).trans (ext_all _))).trans (ord_of _),
    (congrArg Scope.ofBits ((((ext_left _ _ 6 4 (by omega))).trans (ext_left _ _ 2 4 (by omega))).trans (ext_all _))).trans (scope_of _)⟩

theorem ops_isect  (h : Hdr) (o : IsectOps) : isectOf (isectRaw h o) = o := by
  cases o; exact (IsectOps.mk.injEq ..).mpr ⟨opnd_of _,
    opnd_of _,
    opnd_of _,
    (congrArg Opnd.ofBits (((ext_right _ _ 0 10 (by omega))).trans (ext_all _))).trans (opnd_of _),
    (((bit_left _ _ 7 (by omega))).trans (bit_right _ _ 0 (by omega))).trans (bit1_at _)⟩

/-- CELLCFG's word holds no HUSE, flag or ORD. -/
theorem ops_cfg (kind : BitVec 4) (h : Hdr) (o : CellOps) (h1 : o.huse = false) (h2 : o.flag = false) (h3 : o.ord = .rlx) : cfgOf (cfgRaw kind h o) = o := by
  cases o; exact (CellOps.mk.injEq ..).mpr ⟨opnd_of _,
    opnd_of _,
    opnd_of _,
    h1.symm,
    (((ext_left _ _ 4 2 (by omega))).trans (ext_right _ _ 0 2 (by omega))).trans (ext_all _),
    h2.symm,
    h3.symm,
    (congrArg Scope.ofBits ((((ext_left _ _ 6 4 (by omega))).trans (ext_left _ _ 2 4 (by omega))).trans (ext_all _))).trans (scope_of _),
    rfl⟩

theorem of_ctl {mk : Hdr → CtlOps → Instr} {opc : BitVec 12} {mode : BitVec 2} {h : Hdr} {o : CtlOps}
    (hr : (mk h o).raw = some (ctlRaw opc mode h o))
    (hi : (mk h o).details = [] → instrOf (ctlRaw opc mode h o) = some (mk (hdrOf (ctlRaw opc mode h o)) (ctlOf (ctlRaw opc mode h o)))) : Statement (mk h o) :=
  done hr (hint_low h) fun h' => by rw [hi h', hdr_of (r := ctlRaw opc mode h o) h rfl rfl, ops_ctl]

theorem of_alu {mk : Hdr → AluOps → Instr} {opc : BitVec 12} {h : Hdr} {o : AluOps}
    (hr : (mk h o).raw = some (aluRaw opc h o))
    (hi : (mk h o).details = [] → instrOf (aluRaw opc h o) = some (mk (hdrOf (aluRaw opc h o)) (aluOf (aluRaw opc h o)))) : Statement (mk h o) :=
  done hr (hint_low h) fun h' => by rw [hi h', hdr_of (r := aluRaw opc h o) h rfl rfl, ops_alu]

theorem of_mem {mk : Hdr → MemOps → Instr} {opc : BitVec 12} {h : Hdr} {o : MemOps}
    (hr : (mk h o).raw = some (memRaw opc h o))
    (hi : (mk h o).details = [] → instrOf (memRaw opc h o) = some (mk (hdrOf (memRaw opc h o)) (memOf (memRaw opc h o)))) : Statement (mk h o) :=
  done hr (hint_low h) fun h' => by rw [hi h', hdr_of (r := memRaw opc h o) h rfl rfl, ops_mem]

theorem of_atom {mk : Hdr → AtomOps → Instr} {opc : BitVec 12} {h : Hdr} {o : AtomOps}
    (hr : (mk h o).raw = some (atomRaw opc h o))
    (hi : (mk h o).details = [] → instrOf (atomRaw opc h o) = some (mk (hdrOf (atomRaw opc h o)) (atomOf (atomRaw opc h o)))) : Statement (mk h o) :=
  done hr (hint_low h) fun h' => by rw [hi h', hdr_of (r := atomRaw opc h o) h rfl rfl, ops_atom]

theorem of_cell {mk : Hdr → CellOps → Instr} {opc : BitVec 12} {h : Hdr} {o : CellOps}
    (hr : (mk h o).raw = some (cellRaw opc h o))
    (hi : (mk h o).details = [] → instrOf (cellRaw opc h o) = some (mk (hdrOf (cellRaw opc h o)) (cellOf (cellRaw opc h o)))) : Statement (mk h o) :=
  done hr (hint_low h) fun h' => by rw [hi h', hdr_of (r := cellRaw opc h o) h rfl rfl, ops_cell]

theorem of_mat {mk : Hdr → MatOps → Instr} {opc : BitVec 12} {h : Hdr} {o : MatOps}
    (hr : (mk h o).raw = some (matRaw opc h o))
    (hi : (mk h o).details = [] → instrOf (matRaw opc h o) = some (mk (hdrOf (matRaw opc h o)) (matOf (matRaw opc h o)))) : Statement (mk h o) :=
  done hr (hint_low h) fun h' => by rw [hi h', hdr_of (r := matRaw opc h o) h rfl rfl, ops_mat]

theorem of_shelf {mk : Hdr → ShelfOps → Instr} {opc : BitVec 12} {h : Hdr} {o : ShelfOps}
    (hr : (mk h o).raw = some (shelfRaw opc h o))
    (hi : (mk h o).details = [] → instrOf (shelfRaw opc h o) = some (mk (hdrOf (shelfRaw opc h o)) (shelfOf (shelfRaw opc h o)))) : Statement (mk h o) :=
  done hr (hint_low h) fun h' => by rw [hi h', hdr_of (r := shelfRaw opc h o) h rfl rfl, ops_shelf]

theorem of_tile {mk : Hdr → TileOps → Instr} {opc : BitVec 12} {mode : BitVec 2} {h : Hdr} {o : TileOps}
    (hr : (mk h o).raw = some (tileRaw opc mode h o))
    (hi : (mk h o).details = [] → instrOf (tileRaw opc mode h o) = some (mk (hdrOf (tileRaw opc mode h o)) (tileOf (tileRaw opc mode h o)))) : Statement (mk h o) :=
  done hr (hint_low h) fun h' => by rw [hi h', hdr_of (r := tileRaw opc mode h o) h rfl rfl, ops_tile]

theorem of_ffp {mk : Hdr → FfpOps → Instr} {opc : BitVec 12} {h : Hdr} {o : FfpOps}
    (hr : (mk h o).raw = some (ffpRaw opc h o))
    (hi : (mk h o).details = [] → instrOf (ffpRaw opc h o) = some (mk (hdrOf (ffpRaw opc h o)) (ffpOf (ffpRaw opc h o)))) : Statement (mk h o) :=
  done hr (hint_low h) fun h' => by rw [hi h', hdr_of (r := ffpRaw opc h o) h rfl rfl, ops_ffp]

theorem of_eng {mk : Hdr → EngOps → Instr} {opc : BitVec 12} {h : Hdr} {o : EngOps}
    (hr : (mk h o).raw = some (engRaw opc h o))
    (hi : (mk h o).details = [] → instrOf (engRaw opc h o) = some (mk (hdrOf (engRaw opc h o)) (engOf (engRaw opc h o)))) : Statement (mk h o) :=
  done hr (hint_low h) fun h' => by rw [hi h', hdr_of (r := engRaw opc h o) h rfl rfl, ops_eng]

theorem of_launch {mk : Hdr → LaunchOps → Instr} {opc : BitVec 12} {form : BitVec 2} {dis : Bool} {h : Hdr} {o : LaunchOps}
    (hr : (mk h o).raw = some (launchRaw opc form dis h o))
    (hi : (mk h o).details = [] → instrOf (launchRaw opc form dis h o) = some (mk (hdrOf (launchRaw opc form dis h o)) (launchOf (launchRaw opc form dis h o)))) : Statement (mk h o) :=
  done hr (hint_low h) fun h' => by rw [hi h', hdr_of (r := launchRaw opc form dis h o) h rfl rfl, ops_launch]

theorem of_rep {mk : Hdr → RepOps → Instr}  {h : Hdr} {o : RepOps}
    (hr : (mk h o).raw = some (repRaw h o))
    (hi : (mk h o).details = [] → instrOf (repRaw h o) = some (mk (hdrOf (repRaw h o)) (repOf (repRaw h o)))) : Statement (mk h o) :=
  done hr (hint_low h) fun h' => by rw [hi h', hdr_of (r := repRaw h o) h rfl rfl, ops_rep]

theorem of_fence {mk : Hdr → FenceOps → Instr}  {h : Hdr} {o : FenceOps}
    (hr : (mk h o).raw = some (fenceRaw h o))
    (hi : (mk h o).details = [] → instrOf (fenceRaw h o) = some (mk (hdrOf (fenceRaw h o)) (fenceOf (fenceRaw h o)))) : Statement (mk h o) :=
  done hr (hint_low h) fun h' => by rw [hi h', hdr_of (r := fenceRaw h o) h rfl rfl, ops_fence]

theorem of_isect {mk : Hdr → IsectOps → Instr}  {h : Hdr} {o : IsectOps}
    (hr : (mk h o).raw = some (isectRaw h o))
    (hi : (mk h o).details = [] → instrOf (isectRaw h o) = some (mk (hdrOf (isectRaw h o)) (isectOf (isectRaw h o)))) : Statement (mk h o) :=
  done hr (hint_low h) fun h' => by rw [hi h', hdr_of (r := isectRaw h o) h rfl rfl, ops_isect]

theorem of_cfg {mk : Hdr → CellOps → Instr} {kind : BitVec 4} {h : Hdr} {o : CellOps}
    (hr : (mk h o).raw = some (cfgRaw kind h o))
    (hi : instrOf (cfgRaw kind h o) = some (mk (hdrOf (cfgRaw kind h o)) (cfgOf (cfgRaw kind h o))))
    (hd : (mk h o).details = [] → o.huse = false ∧ o.flag = false ∧ o.ord = .rlx) : Statement (mk h o) :=
  done hr (hint_low h) fun h' => by rw [hi, hdr_of (r := cfgRaw kind h o) h rfl rfl, ops_cfg _ _ _ (hd h').1 (hd h').2.1 (hd h').2.2]

theorem cfgX_gives {o : CellOps} {b : Bool} (h : cfgX o b = []) : o.huse = false ∧ o.flag = false ∧ o.ord = .rlx := by
  simp only [cfgX, need_iff, Bool.and_eq_true, Bool.not_eq_true', beq_iff_eq] at h
  exact ⟨h.1.1.2, h.1.2, h.2⟩

theorem alu_bit {opc : BitVec 12} {h : Hdr} (o : AluOps) : (aluRaw opc h o).x.getLsbD 7 = o.mod.getLsbD 0 :=
  (bit_left _ _ 7 (by omega)).trans ((bit_left _ _ 3 (by omega)).trans (bit_left _ _ 1 (by omega)))
theorem pmov_bit {h : Hdr} (o : AluOps) (h' : (Instr.pmov h o).details = []) :
    (aluRaw 0x308 h o).x.getLsbD 7 = false := by
  have h1 : xIn o [.dflt] false false [0] = [] := by simp only [Instr.details, List.append_eq_nil_iff] at h'; exact h'.2
  have h2 : o.mod = 0 := by
    simp only [xIn, need_iff, Bool.and_eq_true] at h1
    have := h1.2; simp at this; exact BitVec.eq_of_toNat_eq this
  rw [alu_bit, h2]; rfl
theorem pmovP_bit {h : Hdr} (o : AluOps) (h' : (Instr.pmovP h o).details = []) :
    (aluRaw 0x308 h o).x.getLsbD 7 = true := by
  have h1 : xIn o [.dflt] false false [1] = [] := by simp only [Instr.details, List.append_eq_nil_iff] at h'; exact h'.2
  have h2 : o.mod = 1 := by
    simp only [xIn, need_iff, Bool.and_eq_true] at h1
    have := h1.2; simp at this; exact BitVec.eq_of_toNat_eq this
  rw [alu_bit, h2]; rfl
theorem memX_mod {o : MemOps} {b : Bool} {sps : List Space} {m : List Nat} (h : memX o b sps m = []) : o.mod.toNat ∈ m := by
  simp only [memX, need_iff, Bool.and_eq_true] at h; simpa using h.2
theorem mem_bit {opc : BitVec 12} {h : Hdr} (o : MemOps) : (memRaw opc h o).x.getLsbD 7 = o.mod.getLsbD 0 :=
  (bit_left _ _ 7 (by omega)).trans ((bit_left _ _ 3 (by omega)).trans ((bit_left _ _ 1 (by omega)).trans (bit_right _ _ 0 (by omega))))
theorem mod_even {o : MemOps} (h : o.mod.toNat ∈ [0, 2]) : o.mod.getLsbD 0 = false := by
  cases o with | mk d a b ty space idx mod imm => simp only at *; revert mod; decide
theorem mod_odd {o : MemOps} (h : o.mod.toNat ∈ [1, 3]) : o.mod.getLsbD 0 = true := by
  cases o with | mk d a b ty space idx mod imm => simp only at *; revert mod; decide
theorem flush_bit {h : Hdr} (o : MemOps) (h' : (Instr.flush h o).details = []) : (memRaw 0x806 h o).x.getLsbD 7 = false := by
  simp only [Instr.details, List.append_eq_nil_iff] at h'; rw [mem_bit, mod_even (memX_mod h'.2)]
theorem flushAll_bit {h : Hdr} (o : MemOps) (h' : (Instr.flushAll h o).details = []) : (memRaw 0x806 h o).x.getLsbD 7 = true := by
  simp only [Instr.details, List.append_eq_nil_iff] at h'; rw [mem_bit, mod_odd (memX_mod h'.2)]
theorem invl_bit {h : Hdr} (o : MemOps) (h' : (Instr.invl h o).details = []) : (memRaw 0x807 h o).x.getLsbD 7 = false := by
  simp only [Instr.details, List.append_eq_nil_iff] at h'; rw [mem_bit, mod_even (by have := memX_mod h'.2; simp at this ⊢; omega)]
theorem invlAll_bit {h : Hdr} (o : MemOps) (h' : (Instr.invlAll h o).details = []) : (memRaw 0x807 h o).x.getLsbD 7 = true := by
  simp only [Instr.details, List.append_eq_nil_iff] at h'; rw [mem_bit, mod_odd (by have := memX_mod h'.2; simp at this ⊢; omega)]
theorem cell_bit {opc : BitVec 12} {h : Hdr} (o : CellOps) : (cellRaw opc h o).x.getLsbD 0 = o.flag :=
  (bit_right _ _ 0 (by omega)).trans (bit1_at _)
theorem cfg_kind (kind : BitVec 4) (h : Hdr) (o : CellOps) : (cfgRaw kind h o).xkind = kind.toNat :=
  congrArg BitVec.toNat ((ext_right _ _ 0 4 (by omega)).trans (ext_all _))
theorem cfg_pick (kind : BitVec 4) (h : Hdr) (o : CellOps) : instrOf (cfgRaw kind h o) =
    some (match kind.toNat with
      | 1 => .cellcfgSem (hdrOf (cfgRaw kind h o)) (cfgOf (cfgRaw kind h o))
      | 2 => .cellcfgBar (hdrOf (cfgRaw kind h o)) (cfgOf (cfgRaw kind h o))
      | 3 => .cellcfgRing (hdrOf (cfgRaw kind h o)) (cfgOf (cfgRaw kind h o))
      | 4 => .cellcfgQueue (hdrOf (cfgRaw kind h o)) (cfgOf (cfgRaw kind h o))
      | 8 => .cellcfgBind (hdrOf (cfgRaw kind h o)) (cfgOf (cfgRaw kind h o))
      | 9 => .cellcfgUnbind (hdrOf (cfgRaw kind h o)) (cfgOf (cfgRaw kind h o))
      | _ => .cellcfgFree (hdrOf (cfgRaw kind h o)) (cfgOf (cfgRaw kind h o))) := by
  rw [← cfg_kind kind h o]; rfl
theorem launch_form (opc : BitVec 12) (form : BitVec 2) (dis : Bool) (h : Hdr) (o : LaunchOps) :
    (launchRaw opc form dis h o).xform = form.toNat :=
  congrArg BitVec.toNat ((ext_left _ _ 3 2 (by omega)).trans ((ext_right _ _ 0 2 (by omega)).trans (ext_all _)))
theorem glaunch_pick (form : BitVec 2) (h : Hdr) (o : LaunchOps) : instrOf (launchRaw 0xD10 form false h o) =
    some (match form.toNat with
      | 1 => .glaunchG (hdrOf (launchRaw 0xD10 form false h o)) (launchOf (launchRaw 0xD10 form false h o))
      | 2 => .glaunchSeal (hdrOf (launchRaw 0xD10 form false h o)) (launchOf (launchRaw 0xD10 form false h o))
      | 3 => .glaunchFree (hdrOf (launchRaw 0xD10 form false h o)) (launchOf (launchRaw 0xD10 form false h o))
      | _ => .glaunchK (hdrOf (launchRaw 0xD10 form false h o)) (launchOf (launchRaw 0xD10 form false h o))) := by
  rw [← launch_form 0xD10 form false h o]; rfl
theorem launch_dis (opc : BitVec 12) (form : BitVec 2) (dis : Bool) (h : Hdr) (o : LaunchOps) :
    (launchRaw opc form dis h o).x.getLsbD 7 = dis :=
  (bit_left _ _ 7 (by omega)).trans ((bit_left _ _ 4 (by omega)).trans ((bit_left _ _ 2 (by omega)).trans
    ((bit_left _ _ 1 (by omega)).trans ((bit_right _ _ 0 (by omega)).trans (bit1_at _)))))
theorem mboxarm_pick (dis : Bool) (h : Hdr) (o : LaunchOps) : instrOf (launchRaw 0xD13 0 dis h o) =
    some (if dis then .mboxarmD (hdrOf (launchRaw 0xD13 0 dis h o)) (launchOf (launchRaw 0xD13 0 dis h o))
      else .mboxarm (hdrOf (launchRaw 0xD13 0 dis h o)) (launchOf (launchRaw 0xD13 0 dis h o))) := by
  have e : instrOf (launchRaw 0xD13 0 dis h o) = some (if (launchRaw 0xD13 0 dis h o).x.getLsbD 7
      then .mboxarmD (hdrOf (launchRaw 0xD13 0 dis h o)) (launchOf (launchRaw 0xD13 0 dis h o))
      else .mboxarm (hdrOf (launchRaw 0xD13 0 dis h o)) (launchOf (launchRaw 0xD13 0 dis h o))) := rfl
  rw [e, launch_dis]
theorem ringawtData_bit {h : Hdr} (o : CellOps) (h' : (Instr.ringawtData h o).details = []) : (cellRaw 0xA07 h o).x.getLsbD 0 = false := by
  simp only [Instr.details, List.append_eq_nil_iff, cellX, need_iff, Bool.and_eq_true] at h'
  rw [cell_bit]; simpa using h'.1.2.2
theorem ringawtFree_bit {h : Hdr} (o : CellOps) (h' : (Instr.ringawtFree h o).details = []) : (cellRaw 0xA07 h o).x.getLsbD 0 = true := by
  simp only [Instr.details, List.append_eq_nil_iff, need_iff] at h'
  rw [cell_bit]; exact h'.1.1.2

/-! ### The rows -/

theorem nop (h : Hdr) (o : CtlOps) : Statement (.nop h o) := of_ctl rfl fun _ => rfl
theorem bra (h : Hdr) (o : CtlOps) : Statement (.bra h o) := of_ctl rfl fun _ => rfl
theorem brx (h : Hdr) (o : CtlOps) : Statement (.brx h o) := of_ctl rfl fun _ => rfl
theorem call (h : Hdr) (o : CtlOps) : Statement (.call h o) := of_ctl rfl fun _ => rfl
theorem callx (h : Hdr) (o : CtlOps) : Statement (.callx h o) := of_ctl rfl fun _ => rfl
theorem ret (h : Hdr) (o : CtlOps) : Statement (.ret h o) := of_ctl rfl fun _ => rfl
theorem exit (h : Hdr) (o : CtlOps) : Statement (.exit h o) := of_ctl rfl fun _ => rfl
theorem meetSet (h : Hdr) (o : CtlOps) : Statement (.meetSet h o) := of_ctl rfl fun _ => rfl
theorem meetSave (h : Hdr) (o : CtlOps) : Statement (.meetSave h o) := of_ctl rfl fun _ => rfl
theorem meetRestore (h : Hdr) (o : CtlOps) : Statement (.meetRestore h o) := of_ctl rfl fun _ => rfl
theorem yield (h : Hdr) (o : CtlOps) : Statement (.yield h o) := of_ctl rfl fun _ => rfl
theorem sleep (h : Hdr) (o : CtlOps) : Statement (.sleep h o) := of_ctl rfl fun _ => rfl
theorem trap (h : Hdr) (o : CtlOps) : Statement (.trap h o) := of_ctl rfl fun _ => rfl
theorem eret (h : Hdr) (o : CtlOps) : Statement (.eret h o) := of_ctl rfl fun _ => rfl
theorem csrr (h : Hdr) (o : CtlOps) : Statement (.csrr h o) := of_ctl rfl fun _ => rfl
theorem csrw (h : Hdr) (o : CtlOps) : Statement (.csrw h o) := of_ctl rfl fun _ => rfl
theorem iadd (h : Hdr) (o : AluOps) : Statement (.iadd h o) := of_alu rfl fun _ => rfl
theorem iadd3 (h : Hdr) (o : AluOps) : Statement (.iadd3 h o) := of_alu rfl fun _ => rfl
theorem isub (h : Hdr) (o : AluOps) : Statement (.isub h o) := of_alu rfl fun _ => rfl
theorem imul (h : Hdr) (o : AluOps) : Statement (.imul h o) := of_alu rfl fun _ => rfl
theorem imulh (h : Hdr) (o : AluOps) : Statement (.imulh h o) := of_alu rfl fun _ => rfl
theorem imad (h : Hdr) (o : AluOps) : Statement (.imad h o) := of_alu rfl fun _ => rfl
theorem imadw (h : Hdr) (o : AluOps) : Statement (.imadw h o) := of_alu rfl fun _ => rfl
theorem imin (h : Hdr) (o : AluOps) : Statement (.imin h o) := of_alu rfl fun _ => rfl
theorem imax (h : Hdr) (o : AluOps) : Statement (.imax h o) := of_alu rfl fun _ => rfl
theorem iabs (h : Hdr) (o : AluOps) : Statement (.iabs h o) := of_alu rfl fun _ => rfl
theorem ineg (h : Hdr) (o : AluOps) : Statement (.ineg h o) := of_alu rfl fun _ => rfl
theorem isad (h : Hdr) (o : AluOps) : Statement (.isad h o) := of_alu rfl fun _ => rfl
theorem lea (h : Hdr) (o : AluOps) : Statement (.lea h o) := of_alu rfl fun _ => rfl
theorem idp4 (h : Hdr) (o : AluOps) : Statement (.idp4 h o) := of_alu rfl fun _ => rfl
theorem idp2 (h : Hdr) (o : AluOps) : Statement (.idp2 h o) := of_alu rfl fun _ => rfl
theorem land (h : Hdr) (o : AluOps) : Statement (.land h o) := of_alu rfl fun _ => rfl
theorem lor (h : Hdr) (o : AluOps) : Statement (.lor h o) := of_alu rfl fun _ => rfl
theorem lxor (h : Hdr) (o : AluOps) : Statement (.lxor h o) := of_alu rfl fun _ => rfl
theorem lnot (h : Hdr) (o : AluOps) : Statement (.lnot h o) := of_alu rfl fun _ => rfl
theorem logt (h : Hdr) (o : AluOps) : Statement (.logt h o) := of_alu rfl fun _ => rfl
theorem shl (h : Hdr) (o : AluOps) : Statement (.shl h o) := of_alu rfl fun _ => rfl
theorem shr (h : Hdr) (o : AluOps) : Statement (.shr h o) := of_alu rfl fun _ => rfl
theorem sar (h : Hdr) (o : AluOps) : Statement (.sar h o) := of_alu rfl fun _ => rfl
theorem rot (h : Hdr) (o : AluOps) : Statement (.rot h o) := of_alu rfl fun _ => rfl
theorem fshl (h : Hdr) (o : AluOps) : Statement (.fshl h o) := of_alu rfl fun _ => rfl
theorem popc (h : Hdr) (o : AluOps) : Statement (.popc h o) := of_alu rfl fun _ => rfl
theorem clz (h : Hdr) (o : AluOps) : Statement (.clz h o) := of_alu rfl fun _ => rfl
theorem ctz (h : Hdr) (o : AluOps) : Statement (.ctz h o) := of_alu rfl fun _ => rfl
theorem brev (h : Hdr) (o : AluOps) : Statement (.brev h o) := of_alu rfl fun _ => rfl
theorem bfe (h : Hdr) (o : AluOps) : Statement (.bfe h o) := of_alu rfl fun _ => rfl
theorem bfi (h : Hdr) (o : AluOps) : Statement (.bfi h o) := of_alu rfl fun _ => rfl
theorem bmix (h : Hdr) (o : AluOps) : Statement (.bmix h o) := of_alu rfl fun _ => rfl
theorem icmp (h : Hdr) (o : AluOps) : Statement (.icmp h o) := of_alu rfl fun _ => rfl
theorem fcmp (h : Hdr) (o : AluOps) : Statement (.fcmp h o) := of_alu rfl fun _ => rfl
theorem plog (h : Hdr) (o : AluOps) : Statement (.plog h o) := of_alu rfl fun _ => rfl
theorem sel (h : Hdr) (o : AluOps) : Statement (.sel h o) := of_alu rfl fun _ => rfl
theorem mov (h : Hdr) (o : AluOps) : Statement (.mov h o) := of_alu rfl fun _ => rfl
theorem movi (h : Hdr) (o : AluOps) : Statement (.movi h o) := of_alu rfl fun _ => rfl
theorem movs (h : Hdr) (o : AluOps) : Statement (.movs h o) := of_alu rfl fun _ => rfl
theorem rdlane (h : Hdr) (o : AluOps) : Statement (.rdlane h o) := of_alu rfl fun _ => rfl
theorem pmov (h : Hdr) (o : AluOps) : Statement (.pmov h o) := of_alu rfl fun h' => by
  have e : instrOf (aluRaw 0x308 h o) = some (if (aluRaw 0x308 h o).x.getLsbD 7 then .pmovP (hdrOf (aluRaw 0x308 h o)) (aluOf (aluRaw 0x308 h o))
    else .pmov (hdrOf (aluRaw 0x308 h o)) (aluOf (aluRaw 0x308 h o))) := rfl
  rw [e, pmov_bit o h']; rfl
theorem pmovP (h : Hdr) (o : AluOps) : Statement (.pmovP h o) := of_alu rfl fun h' => by
  have e : instrOf (aluRaw 0x308 h o) = some (if (aluRaw 0x308 h o).x.getLsbD 7 then .pmovP (hdrOf (aluRaw 0x308 h o)) (aluOf (aluRaw 0x308 h o))
    else .pmov (hdrOf (aluRaw 0x308 h o)) (aluOf (aluRaw 0x308 h o))) := rfl
  rw [e, pmovP_bit o h']; rfl
theorem fadd (h : Hdr) (o : AluOps) : Statement (.fadd h o) := of_alu rfl fun _ => rfl
theorem fsub (h : Hdr) (o : AluOps) : Statement (.fsub h o) := of_alu rfl fun _ => rfl
theorem fmul (h : Hdr) (o : AluOps) : Statement (.fmul h o) := of_alu rfl fun _ => rfl
theorem ffma (h : Hdr) (o : AluOps) : Statement (.ffma h o) := of_alu rfl fun _ => rfl
theorem fmin (h : Hdr) (o : AluOps) : Statement (.fmin h o) := of_alu rfl fun _ => rfl
theorem fmax (h : Hdr) (o : AluOps) : Statement (.fmax h o) := of_alu rfl fun _ => rfl
theorem frnd (h : Hdr) (o : AluOps) : Statement (.frnd h o) := of_alu rfl fun _ => rfl
theorem fclass (h : Hdr) (o : AluOps) : Statement (.fclass h o) := of_alu rfl fun _ => rfl
theorem fscl (h : Hdr) (o : AluOps) : Statement (.fscl h o) := of_alu rfl fun _ => rfl
theorem pkadd (h : Hdr) (o : AluOps) : Statement (.pkadd h o) := of_alu rfl fun _ => rfl
theorem pkmul (h : Hdr) (o : AluOps) : Statement (.pkmul h o) := of_alu rfl fun _ => rfl
theorem pkfma (h : Hdr) (o : AluOps) : Statement (.pkfma h o) := of_alu rfl fun _ => rfl
theorem pkmin (h : Hdr) (o : AluOps) : Statement (.pkmin h o) := of_alu rfl fun _ => rfl
theorem pkmax (h : Hdr) (o : AluOps) : Statement (.pkmax h o) := of_alu rfl fun _ => rfl
theorem frcp (h : Hdr) (o : AluOps) : Statement (.frcp h o) := of_alu rfl fun _ => rfl
theorem frsq (h : Hdr) (o : AluOps) : Statement (.frsq h o) := of_alu rfl fun _ => rfl
theorem fsqrt (h : Hdr) (o : AluOps) : Statement (.fsqrt h o) := of_alu rfl fun _ => rfl
theorem fex2 (h : Hdr) (o : AluOps) : Statement (.fex2 h o) := of_alu rfl fun _ => rfl
theorem flg2 (h : Hdr) (o : AluOps) : Statement (.flg2 h o) := of_alu rfl fun _ => rfl
theorem fsin (h : Hdr) (o : AluOps) : Statement (.fsin h o) := of_alu rfl fun _ => rfl
theorem fcos (h : Hdr) (o : AluOps) : Statement (.fcos h o) := of_alu rfl fun _ => rfl
theorem ftanh (h : Hdr) (o : AluOps) : Statement (.ftanh h o) := of_alu rfl fun _ => rfl
theorem fsigm (h : Hdr) (o : AluOps) : Statement (.fsigm h o) := of_alu rfl fun _ => rfl
theorem cvt (h : Hdr) (o : AluOps) : Statement (.cvt h o) := of_alu rfl fun _ => rfl
theorem cvtp (h : Hdr) (o : AluOps) : Statement (.cvtp h o) := of_alu rfl fun _ => rfl
theorem cvtu (h : Hdr) (o : AluOps) : Statement (.cvtu h o) := of_alu rfl fun _ => rfl
theorem amax (h : Hdr) (o : AluOps) : Statement (.amax h o) := of_alu rfl fun _ => rfl
theorem scaleq (h : Hdr) (o : AluOps) : Statement (.scaleq h o) := of_alu rfl fun _ => rfl
theorem abssum (h : Hdr) (o : AluOps) : Statement (.abssum h o) := of_alu rfl fun _ => rfl
theorem shfl (h : Hdr) (o : AluOps) : Statement (.shfl h o) := of_alu rfl fun _ => rfl
theorem vote (h : Hdr) (o : AluOps) : Statement (.vote h o) := of_alu rfl fun _ => rfl
theorem redl (h : Hdr) (o : AluOps) : Statement (.redl h o) := of_alu rfl fun _ => rfl
theorem scanl (h : Hdr) (o : AluOps) : Statement (.scanl h o) := of_alu rfl fun _ => rfl
theorem matchl (h : Hdr) (o : AluOps) : Statement (.matchl h o) := of_alu rfl fun _ => rfl
theorem ld (h : Hdr) (o : MemOps) : Statement (.ld h o) := of_mem rfl fun _ => rfl
theorem st (h : Hdr) (o : MemOps) : Statement (.st h o) := of_mem rfl fun _ => rfl
theorem ldu (h : Hdr) (o : MemOps) : Statement (.ldu h o) := of_mem rfl fun _ => rfl
theorem pfetch (h : Hdr) (o : MemOps) : Statement (.pfetch h o) := of_mem rfl fun _ => rfl
theorem ldx (h : Hdr) (o : MemOps) : Statement (.ldx h o) := of_mem rfl fun _ => rfl
theorem flush (h : Hdr) (o : MemOps) : Statement (.flush h o) := of_mem rfl fun h' => by
  have e : instrOf (memRaw 0x806 h o) = some (if (memRaw 0x806 h o).x.getLsbD 7 then .flushAll (hdrOf (memRaw 0x806 h o)) (memOf (memRaw 0x806 h o))
    else .flush (hdrOf (memRaw 0x806 h o)) (memOf (memRaw 0x806 h o))) := rfl
  rw [e, flush_bit o h']; rfl
theorem flushAll (h : Hdr) (o : MemOps) : Statement (.flushAll h o) := of_mem rfl fun h' => by
  have e : instrOf (memRaw 0x806 h o) = some (if (memRaw 0x806 h o).x.getLsbD 7 then .flushAll (hdrOf (memRaw 0x806 h o)) (memOf (memRaw 0x806 h o))
    else .flush (hdrOf (memRaw 0x806 h o)) (memOf (memRaw 0x806 h o))) := rfl
  rw [e, flushAll_bit o h']; rfl
theorem invl (h : Hdr) (o : MemOps) : Statement (.invl h o) := of_mem rfl fun h' => by
  have e : instrOf (memRaw 0x807 h o) = some (if (memRaw 0x807 h o).x.getLsbD 7 then .invlAll (hdrOf (memRaw 0x807 h o)) (memOf (memRaw 0x807 h o))
    else .invl (hdrOf (memRaw 0x807 h o)) (memOf (memRaw 0x807 h o))) := rfl
  rw [e, invl_bit o h']; rfl
theorem invlAll (h : Hdr) (o : MemOps) : Statement (.invlAll h o) := of_mem rfl fun h' => by
  have e : instrOf (memRaw 0x807 h o) = some (if (memRaw 0x807 h o).x.getLsbD 7 then .invlAll (hdrOf (memRaw 0x807 h o)) (memOf (memRaw 0x807 h o))
    else .invl (hdrOf (memRaw 0x807 h o)) (memOf (memRaw 0x807 h o))) := rfl
  rw [e, invlAll_bit o h']; rfl
theorem atom (h : Hdr) (o : AtomOps) : Statement (.atom h o) := of_atom rfl fun _ => rfl
theorem atomc (h : Hdr) (o : AtomOps) : Statement (.atomc h o) := of_atom rfl fun _ => rfl
theorem red (h : Hdr) (o : AtomOps) : Statement (.red h o) := of_atom rfl fun _ => rfl
theorem atomord (h : Hdr) (o : AtomOps) : Statement (.atomord h o) := of_atom rfl fun _ => rfl
theorem waita (h : Hdr) (o : AtomOps) : Statement (.waita h o) := of_atom rfl fun _ => rfl
theorem cellcfgFree (h : Hdr) (o : CellOps) : Statement (.cellcfgFree h o) := of_cfg rfl (cfg_pick _ h o) fun h => by
  simp only [Instr.details, List.append_eq_nil_iff] at h; exact cfgX_gives h.1.2
theorem cellcfgSem (h : Hdr) (o : CellOps) : Statement (.cellcfgSem h o) := of_cfg rfl (cfg_pick _ h o) fun h => by
  simp only [Instr.details, List.append_eq_nil_iff] at h; exact cfgX_gives h.1.2
theorem cellcfgBar (h : Hdr) (o : CellOps) : Statement (.cellcfgBar h o) := of_cfg rfl (cfg_pick _ h o) fun h => by
  simp only [Instr.details, List.append_eq_nil_iff] at h; exact cfgX_gives h.1.2
theorem cellcfgRing (h : Hdr) (o : CellOps) : Statement (.cellcfgRing h o) := of_cfg rfl (cfg_pick _ h o) fun h => by
  simp only [Instr.details, List.append_eq_nil_iff] at h; exact cfgX_gives h.1.2
theorem cellcfgQueue (h : Hdr) (o : CellOps) : Statement (.cellcfgQueue h o) := of_cfg rfl (cfg_pick _ h o) fun h => by
  simp only [Instr.details, List.append_eq_nil_iff] at h; exact cfgX_gives h.1.2
theorem cellcfgBind (h : Hdr) (o : CellOps) : Statement (.cellcfgBind h o) := of_cfg rfl (cfg_pick _ h o) fun h => by
  simp only [Instr.details, List.append_eq_nil_iff] at h; exact cfgX_gives h.1.2
theorem cellcfgUnbind (h : Hdr) (o : CellOps) : Statement (.cellcfgUnbind h o) := of_cfg rfl (cfg_pick _ h o) fun h => by
  simp only [Instr.details, List.append_eq_nil_iff] at h; exact cfgX_gives h.1.2
theorem cellrd (h : Hdr) (o : CellOps) : Statement (.cellrd h o) := of_cell rfl fun _ => rfl
theorem semsig (h : Hdr) (o : CellOps) : Statement (.semsig h o) := of_cell rfl fun _ => rfl
theorem semwait (h : Hdr) (o : CellOps) : Statement (.semwait h o) := of_cell rfl fun _ => rfl
theorem bararv (h : Hdr) (o : CellOps) : Statement (.bararv h o) := of_cell rfl fun _ => rfl
theorem barwait (h : Hdr) (o : CellOps) : Statement (.barwait h o) := of_cell rfl fun _ => rfl
theorem ringpub (h : Hdr) (o : CellOps) : Statement (.ringpub h o) := of_cell rfl fun _ => rfl
theorem ringawtData (h : Hdr) (o : CellOps) : Statement (.ringawtData h o) := of_cell rfl fun h' => by
  have e : instrOf (cellRaw 0xA07 h o) = some (if (cellRaw 0xA07 h o).x.getLsbD 0 then .ringawtFree (hdrOf (cellRaw 0xA07 h o)) (cellOf (cellRaw 0xA07 h o))
    else .ringawtData (hdrOf (cellRaw 0xA07 h o)) (cellOf (cellRaw 0xA07 h o))) := rfl
  rw [e, ringawtData_bit o h']; rfl
theorem ringawtFree (h : Hdr) (o : CellOps) : Statement (.ringawtFree h o) := of_cell rfl fun h' => by
  have e : instrOf (cellRaw 0xA07 h o) = some (if (cellRaw 0xA07 h o).x.getLsbD 0 then .ringawtFree (hdrOf (cellRaw 0xA07 h o)) (cellOf (cellRaw 0xA07 h o))
    else .ringawtData (hdrOf (cellRaw 0xA07 h o)) (cellOf (cellRaw 0xA07 h o))) := rfl
  rw [e, ringawtFree_bit o h']; rfl
theorem ringrel (h : Hdr) (o : CellOps) : Statement (.ringrel h o) := of_cell rfl fun _ => rfl
theorem qpush (h : Hdr) (o : CellOps) : Statement (.qpush h o) := of_cell rfl fun _ => rfl
theorem qpop (h : Hdr) (o : CellOps) : Statement (.qpop h o) := of_cell rfl fun _ => rfl
theorem mmaF4b (h : Hdr) (o : MatOps) : Statement (.mmaF4b h o) := of_mat rfl fun _ => rfl
theorem mmaF8a (h : Hdr) (o : MatOps) : Statement (.mmaF8a h o) := of_mat rfl fun _ => rfl
theorem mmaF8b (h : Hdr) (o : MatOps) : Statement (.mmaF8b h o) := of_mat rfl fun _ => rfl
theorem mmaB16 (h : Hdr) (o : MatOps) : Statement (.mmaB16 h o) := of_mat rfl fun _ => rfl
theorem mmaH16 (h : Hdr) (o : MatOps) : Statement (.mmaH16 h o) := of_mat rfl fun _ => rfl
theorem mmaI8 (h : Hdr) (o : MatOps) : Statement (.mmaI8 h o) := of_mat rfl fun _ => rfl
theorem mmaspF4b (h : Hdr) (o : MatOps) : Statement (.mmaspF4b h o) := of_mat rfl fun _ => rfl
theorem mmaspF8a (h : Hdr) (o : MatOps) : Statement (.mmaspF8a h o) := of_mat rfl fun _ => rfl
theorem mmaspI8 (h : Hdr) (o : MatOps) : Statement (.mmaspI8 h o) := of_mat rfl fun _ => rfl
theorem station (h : Hdr) (o : ShelfOps) : Statement (.station h o) := of_shelf rfl fun _ => rfl
theorem unstat (h : Hdr) (o : ShelfOps) : Statement (.unstat h o) := of_shelf rfl fun _ => rfl
theorem wload (h : Hdr) (o : ShelfOps) : Statement (.wload h o) := of_shelf rfl fun _ => rfl
theorem qld (h : Hdr) (o : TileOps) : Statement (.qld h o) := of_tile rfl fun _ => rfl
theorem qsetV (h : Hdr) (o : TileOps) : Statement (.qsetV h o) := of_tile rfl fun _ => rfl
theorem qsetRange (h : Hdr) (o : TileOps) : Statement (.qsetRange h o) := of_tile rfl fun _ => rfl
theorem qsetAll (h : Hdr) (o : TileOps) : Statement (.qsetAll h o) := of_tile rfl fun _ => rfl
theorem qsetRd (h : Hdr) (o : TileOps) : Statement (.qsetRd h o) := of_tile rfl fun _ => rfl
theorem qlog (h : Hdr) (o : TileOps) : Statement (.qlog h o) := of_tile rfl fun _ => rfl
theorem ffpsel (h : Hdr) (o : FfpOps) : Statement (.ffpsel h o) := of_ffp rfl fun _ => rfl
theorem ffpbnd (h : Hdr) (o : FfpOps) : Statement (.ffpbnd h o) := of_ffp rfl fun _ => rfl
theorem ffpfch (h : Hdr) (o : FfpOps) : Statement (.ffpfch h o) := of_ffp rfl fun _ => rfl
theorem xcopy (h : Hdr) (o : EngOps) : Statement (.xcopy h o) := of_eng rfl fun _ => rfl
theorem xgath (h : Hdr) (o : EngOps) : Statement (.xgath h o) := of_eng rfl fun _ => rfl
theorem tqpost (h : Hdr) (o : EngOps) : Statement (.tqpost h o) := of_eng rfl fun _ => rfl
theorem glaunchK (h : Hdr) (o : LaunchOps) : Statement (.glaunchK h o) := of_launch rfl fun _ => glaunch_pick _ h o
theorem glaunchG (h : Hdr) (o : LaunchOps) : Statement (.glaunchG h o) := of_launch rfl fun _ => glaunch_pick _ h o
theorem glaunchSeal (h : Hdr) (o : LaunchOps) : Statement (.glaunchSeal h o) := of_launch rfl fun _ => glaunch_pick _ h o
theorem glaunchFree (h : Hdr) (o : LaunchOps) : Statement (.glaunchFree h o) := of_launch rfl fun _ => glaunch_pick _ h o
theorem trig (h : Hdr) (o : LaunchOps) : Statement (.trig h o) := of_launch rfl fun _ => rfl
theorem chunk (h : Hdr) (o : LaunchOps) : Statement (.chunk h o) := of_launch rfl fun _ => rfl
theorem mboxarm (h : Hdr) (o : LaunchOps) : Statement (.mboxarm h o) := of_launch rfl fun _ => mboxarm_pick _ h o
theorem mboxarmD (h : Hdr) (o : LaunchOps) : Statement (.mboxarmD h o) := of_launch rfl fun _ => mboxarm_pick _ h o
theorem stepCtr (h : Hdr) (o : LaunchOps) : Statement (.stepCtr h o) := of_launch rfl fun _ => rfl
theorem lhint (h : Hdr) (o : LaunchOps) : Statement (.lhint h o) := of_launch rfl fun _ => rfl
theorem rep (h : Hdr) (o : RepOps) : Statement (.rep h o) := of_rep rfl fun _ => rfl
theorem fence (h : Hdr) (o : FenceOps) : Statement (.fence h o) := of_fence rfl fun _ => rfl
theorem isect (h : Hdr) (o : IsectOps) : Statement (.isect h o) := of_isect rfl fun _ => rfl
theorem fetchBlockArrive (slot blk : Nat) (cached : Bool) : Statement (.fetchBlockArrive slot blk cached) := fun _ h => nomatch h
theorem switchResultWrite (slot id : Nat) (lanes : Mask) : Statement (.switchResultWrite slot id lanes) := fun _ h => nomatch h
theorem ldxDatumArrive (slot id lane : Nat) : Statement (.ldxDatumArrive slot id lane) := fun _ h => nomatch h
theorem storeQueuePerform (slot : Nat) : Statement (.storeQueuePerform slot) := fun _ h => nomatch h
theorem fenceComplete (slot : Nat) : Statement (.fenceComplete slot) := fun _ h => nomatch h
theorem flushComplete (slot : Nat) : Statement (.flushComplete slot) := fun _ h => nomatch h
theorem activeRotation (part : Nat) : Statement (.activeRotation part) := fun _ h => nomatch h
theorem sleepExpire (slot : Nat) : Statement (.sleepExpire slot) := fun _ h => nomatch h
theorem cellWaiterWake (slot ticket : Nat) : Statement (.cellWaiterWake slot ticket) := fun _ h => nomatch h
theorem waitaReread (slot lane : Nat) : Statement (.waitaReread slot lane) := fun _ h => nomatch h
theorem stationMacrosGranted (slot : Nat) : Statement (.stationMacrosGranted slot) := fun _ h => nomatch h
theorem unstatRelease (slot : Nat) : Statement (.unstatRelease slot) := fun _ h => nomatch h
theorem wloadComplete (tid shelf : Nat) : Statement (.wloadComplete tid shelf) := fun _ h => nomatch h
theorem ffpbndCheckStart (tid id : Nat) : Statement (.ffpbndCheckStart tid id) := fun _ h => nomatch h
theorem ffpbndCheckEnd (tid id : Nat) : Statement (.ffpbndCheckEnd tid id) := fun _ h => nomatch h
theorem ffpfchGatherStart (tid id : Nat) : Statement (.ffpfchGatherStart tid id) := fun _ h => nomatch h
theorem ffpfchGatherEnd (tid id : Nat) : Statement (.ffpfchGatherEnd tid id) := fun _ h => nomatch h
theorem copyStart (id : Nat) : Statement (.copyStart id) := fun _ h => nomatch h
theorem copyFinish (id : Nat) : Statement (.copyFinish id) := fun _ h => nomatch h
theorem gatherStart (id : Nat) : Statement (.gatherStart id) := fun _ h => nomatch h
theorem gatherFinish (id : Nat) : Statement (.gatherFinish id) := fun _ h => nomatch h
theorem tileTaskStart (id : Nat) : Statement (.tileTaskStart id) := fun _ h => nomatch h
theorem tileTaskFinish (id : Nat) : Statement (.tileTaskFinish id) := fun _ h => nomatch h
theorem engineGranuleBoundary (id : Nat) : Statement (.engineGranuleBoundary id) := fun _ h => nomatch h
theorem fixedLatencyResultWrite (slot : Nat) : Statement (.fixedLatencyResultWrite slot) := fun _ h => nomatch h
theorem queueNotify (q : Nat) (v : BitVec 16) : Statement (.queueNotify q v) := fun _ h => nomatch h
theorem queueEnable (q : Nat) (cfg : DWord) : Statement (.queueEnable q cfg) := fun _ h => nomatch h
theorem queueDisable (q : Nat) : Statement (.queueDisable q) := fun _ h => nomatch h
theorem qsemvalWrite (sem : Nat) (v : Word) : Statement (.qsemvalWrite sem v) := fun _ h => nomatch h
theorem queueKernelEntry (q : Nat) : Statement (.queueKernelEntry q) := fun _ h => nomatch h
theorem queueGraphEntry (q : Nat) : Statement (.queueGraphEntry q) := fun _ h => nomatch h
theorem queueSemaphoreEntry (q : Nat) : Statement (.queueSemaphoreEntry q) := fun _ h => nomatch h
theorem queueSealEntry (q : Nat) : Statement (.queueSealEntry q) := fun _ h => nomatch h
theorem queueFreeEntry (q : Nat) : Statement (.queueFreeEntry q) := fun _ h => nomatch h
theorem teamStart (grid : Nat) : Statement (.teamStart grid) := fun _ h => nomatch h
theorem clusterReserve (grid core : Nat) : Statement (.clusterReserve grid core) := fun _ h => nomatch h
theorem gangAgeExpire (grid : Nat) : Statement (.gangAgeExpire grid) := fun _ h => nomatch h
theorem graphNodeStart (run node : Nat) : Statement (.graphNodeStart run node) := fun _ h => nomatch h
theorem graphNodeComplete (run node : Nat) : Statement (.graphNodeComplete run node) := fun _ h => nomatch h
theorem teamEnd (tid : Nat) : Statement (.teamEnd tid) := fun _ h => nomatch h
theorem gridRetire (grid : Nat) : Statement (.gridRetire grid) := fun _ h => nomatch h
theorem fabricFlushTimeout (grid : Nat) : Statement (.fabricFlushTimeout grid) := fun _ h => nomatch h
theorem mailboxArrival (mbox : Nat) : Statement (.mailboxArrival mbox) := fun _ h => nomatch h
theorem teamStopRequest (tid : Nat) : Statement (.teamStopRequest tid) := fun _ h => nomatch h
theorem prectlGo (grid : Word) (hard : Bool) : Statement (.prectlGo grid hard) := fun _ h => nomatch h
theorem prectlResume (grid : Word) : Statement (.prectlResume grid) := fun _ h => nomatch h
theorem groupStop (slot : Nat) : Statement (.groupStop slot) := fun _ h => nomatch h
theorem hardPreempt (tid : Nat) : Statement (.hardPreempt tid) := fun _ h => nomatch h
theorem contextSave (tid : Nat) : Statement (.contextSave tid) := fun _ h => nomatch h
theorem teamResume (tid : Nat) : Statement (.teamResume tid) := fun _ h => nomatch h
theorem watchdogExpire (slot lane : Nat) : Statement (.watchdogExpire slot lane) := fun _ h => nomatch h
theorem translationWalkDone (core pasid vpage : Nat) : Statement (.translationWalkDone core pasid vpage) := fun _ h => nomatch h
theorem atsCompletion (core pasid page : Nat) (r w : Bool) (hpage : HostPage) : Statement (.atsCompletion core pasid page r w hpage) := fun _ h => nomatch h
theorem pageRequestResponse (pasid page : Nat) (ok : Bool) : Statement (.pageRequestResponse pasid page ok) := fun _ h => nomatch h
theorem atsInvalidationRequest (pasid page npages : Nat) : Statement (.atsInvalidationRequest pasid page npages) := fun _ h => nomatch h
theorem tinvctlGo (v : DWord) : Statement (.tinvctlGo v) := fun _ h => nomatch h
theorem invalidationComplete (id : Nat) : Statement (.invalidationComplete id) := fun _ h => nomatch h
theorem stepvalWrite (v : DWord) : Statement (.stepvalWrite v) := fun _ h => nomatch h
theorem hostRead (off n : Nat) : Statement (.hostRead off n) := fun _ h => nomatch h
theorem hostWrite (off : Nat) (bytes : List Byte) : Statement (.hostWrite off bytes) := fun _ h => nomatch h
theorem registerWrite (off : Nat) (v : DWord) (host : Writer) : Statement (.registerWrite off v host) := fun _ h => nomatch h
theorem pageMove (page dest : Nat) : Statement (.pageMove page dest) := fun _ h => nomatch h
theorem evictionStart : Statement .evictionStart := fun _ h => nomatch h
theorem pagePromote (page dest : Nat) : Statement (.pagePromote page dest) := fun _ h => nomatch h
theorem placementEpochEnd : Statement .placementEpochEnd := fun _ h => nomatch h
theorem orderedStreamRequest (id : Nat) : Statement (.orderedStreamRequest id) := fun _ h => nomatch h
theorem streamRecordTimeout (slice addr : Nat) : Statement (.streamRecordTimeout slice addr) := fun _ h => nomatch h
theorem nodeStackStart (nid stack : Nat) : Statement (.nodeStackStart nid stack) := fun _ h => nomatch h
theorem nodeGranule (nid stack : Nat) : Statement (.nodeGranule nid stack) := fun _ h => nomatch h
theorem nodeStackFinish (nid stack : Nat) : Statement (.nodeStackFinish nid stack) := fun _ h => nomatch h
theorem nodeComplete (nid : Nat) : Statement (.nodeComplete nid) := fun _ h => nomatch h
theorem walkMessageReceive (stack src : Nat) : Statement (.walkMessageReceive stack src) := fun _ h => nomatch h
theorem nodeStop (nid : Nat) : Statement (.nodeStop nid) := fun _ h => nomatch h
theorem nodeResume (nid : Nat) : Statement (.nodeResume nid) := fun _ h => nomatch h
theorem channelEnterPreIn (stack ch : Nat) : Statement (.channelEnterPreIn stack ch) := fun _ h => nomatch h
theorem channelEnterSwIn (stack ch : Nat) : Statement (.channelEnterSwIn stack ch) := fun _ h => nomatch h
theorem channelAbortPreIn (stack ch : Nat) : Statement (.channelAbortPreIn stack ch) := fun _ h => nomatch h
theorem channelEnterCompute (stack ch : Nat) : Statement (.channelEnterCompute stack ch) := fun _ h => nomatch h
theorem computeStep (stack ch : Nat) : Statement (.computeStep stack ch) := fun _ h => nomatch h
theorem channelEnterPreOut (stack ch : Nat) : Statement (.channelEnterPreOut stack ch) := fun _ h => nomatch h
theorem channelEnterSwOut (stack ch : Nat) : Statement (.channelEnterSwOut stack ch) := fun _ h => nomatch h
theorem channelEnterNormal (stack ch : Nat) : Statement (.channelEnterNormal stack ch) := fun _ h => nomatch h
theorem normalRequestComplete (stack ch : Nat) : Statement (.normalRequestComplete stack ch) := fun _ h => nomatch h
theorem normalRequestArrive (stack ch : Nat) (req : NormReq) : Statement (.normalRequestArrive stack ch req) := fun _ h => nomatch h
theorem wrFlit (f : Flit) : Statement (.wrFlit f) := fun _ h => nomatch h
theorem rdFlit (f : Flit) : Statement (.rdFlit f) := fun _ h => nomatch h
theorem rdrspFlit (f : Flit) : Statement (.rdrspFlit f) := fun _ h => nomatch h
theorem atomFlit (f : Flit) : Statement (.atomFlit f) := fun _ h => nomatch h
theorem atomrspFlit (f : Flit) : Statement (.atomrspFlit f) := fun _ h => nomatch h
theorem ackFlit (f : Flit) : Statement (.ackFlit f) := fun _ h => nomatch h
theorem nakFlit (f : Flit) : Statement (.nakFlit f) := fun _ h => nomatch h
theorem flushFlit (f : Flit) : Statement (.flushFlit f) := fun _ h => nomatch h
theorem flushackFlit (f : Flit) : Statement (.flushackFlit f) := fun _ h => nomatch h
theorem mboxFlit (f : Flit) : Statement (.mboxFlit f) := fun _ h => nomatch h
theorem mergeFlit (f : Flit) : Statement (.mergeFlit f) := fun _ h => nomatch h
theorem scrubRead (sector : Nat) (correctable : Bool) : Statement (.scrubRead sector correctable) := fun _ h => nomatch h
theorem scrubCheck : Statement .scrubCheck := fun _ h => nomatch h
theorem coreDisable (core : Nat) : Statement (.coreDisable core) := fun _ h => nomatch h
theorem cxlLinkChange (port : Nat) (up : Bool) (size : BitVec 16) : Statement (.cxlLinkChange port up size) := fun _ h => nomatch h
theorem powerThrottle (watts junction : Nat) : Statement (.powerThrottle watts junction) := fun _ h => nomatch h
theorem thermalTrip : Statement .thermalTrip := fun _ h => nomatch h
theorem coldReset : Statement .coldReset := fun _ h => nomatch h
theorem warmReset : Statement .warmReset := fun _ h => nomatch h
theorem getVersion : Statement .getVersion := fun _ h => nomatch h
theorem getCapabilities : Statement .getCapabilities := fun _ h => nomatch h
theorem negotiateAlgorithms (asym hash : Nat) : Statement (.negotiateAlgorithms asym hash) := fun _ h => nomatch h
theorem getDigests : Statement .getDigests := fun _ h => nomatch h
theorem getCertificate (off len : Nat) : Statement (.getCertificate off len) := fun _ h => nomatch h
theorem challenge (nonce : Nat) : Statement (.challenge nonce) := fun _ h => nomatch h
theorem getMeasurements (idx : Nat) : Statement (.getMeasurements idx) := fun _ h => nomatch h
theorem mctpControlMessage (cmd : Nat) : Statement (.mctpControlMessage cmd) := fun _ h => nomatch h
theorem mctpVendorRead (what idx : Nat) : Statement (.mctpVendorRead what idx) := fun _ h => nomatch h
theorem fabricPortChange (port : Nat) (up : Bool) : Statement (.fabricPortChange port up) := fun _ h => nomatch h
theorem msiXVectorUnmask (vector : Nat) : Statement (.msiXVectorUnmask vector) := fun _ h => nomatch h
theorem mergeTreeClearEn (tree : Nat) : Statement (.mergeTreeClearEn tree) := fun _ h => nomatch h
theorem channelMapOut (stack ch : Nat) : Statement (.channelMapOut stack ch) := fun _ h => nomatch h
theorem correctedErrorHourEnd : Statement .correctedErrorHourEnd := fun _ h => nomatch h
theorem undefinedKindFlit (f : Flit) : Statement (.undefinedKindFlit f) := fun _ h => nomatch h

end Sys2Proof.Laws.RoundTrip
end

