-- ==== Sys2Proof/Tests/Slice0.lean ====
section
/-! SUPPORT. Tests: words of the spec decoded and ill-formed terms refused, single steps with hand-computed results, and for
each obligation with hypotheses concrete states and operands that meet them. -/

open Sys2Proof Sys2Proof.Machine Sys2Proof.Safety

namespace Sys2Proof.Tests

set_option Elab.async false

/-! Decoding: one word per instruction, its fields put where R33 and the table of its class put them; the rule of each word is the
one the opcode table names. -/
theorem test_decode_control : [
    decodesTo 0x000700000000000000000000 (fun i => i matches .nop ..),
    decodesTo 0x001700000000000000004000 (fun i => i matches .bra ..),
    decodesTo 0x002700009000000000000000 (fun i => i matches .brx ..),
    decodesTo 0x003741000000000000001400 (fun i => i matches .call ..),
    decodesTo 0x004700D05000000000000000 (fun i => i matches .callx ..),
    decodesTo 0x005700003000000000000000 (fun i => i matches .ret ..),
    decodesTo 0x006700000000000000000000 (fun i => i matches .exit ..),
    decodesTo 0x007700000000000000000900 (fun i => i matches .meetSet ..),
    decodesTo 0x007705000000010000002700 (fun i => i matches .meetSave ..),
    decodesTo 0x007700014000020000000000 (fun i => i matches .meetRestore ..),
    decodesTo 0x008700000000000000014F00 (fun i => i matches .rep ..),
    decodesTo 0x009700000000000000000000 (fun i => i matches .yield ..),
    decodesTo 0x00A700328000000000000000 (fun i => i matches .sleep ..),
    decodesTo 0x00B700000000000000123400 (fun i => i matches .trap ..),
    decodesTo 0x00C700000000000000000000 (fun i => i matches .eret ..),
    decodesTo 0x00D700400000000000002000 (fun i => i matches .csrr ..),
    decodesTo 0x00E700103000000000000100 (fun i => i matches .csrw ..)].all id = true := by decide +kernel

theorem test_decode_integer : [
    decodesTo 0x100700C01C14470000000000 (fun i => i matches .iadd ..),
    decodesTo 0x101700C01C14000000000900 (fun i => i matches .iadd3 ..),
    decodesTo 0x102700C01C14000000000000 (fun i => i matches .isub ..),
    decodesTo 0x103700C01C14000000000000 (fun i => i matches .imul ..),
    decodesTo 0x104700C01C14000000000000 (fun i => i matches .imulh ..),
    decodesTo 0x105700C01C14000000000900 (fun i => i matches .imad ..),
    decodesTo 0x106700C01C14000000000800 (fun i => i matches .imadw ..),
    decodesTo 0x107700C01C14000000000000 (fun i => i matches .imin ..),
    decodesTo 0x108700C01C14000000000000 (fun i => i matches .imax ..),
    decodesTo 0x109700C01000000000000000 (fun i => i matches .iabs ..),
    decodesTo 0x10A700C01000000000000000 (fun i => i matches .ineg ..),
    decodesTo 0x10B700C01C14000000000900 (fun i => i matches .isad ..),
    decodesTo 0x10C700C01C15870000000000 (fun i => i matches .lea ..),
    decodesTo 0x10D700C01C14410000000700 (fun i => i matches .idp4 ..),
    decodesTo 0x10E700C01C14060000000700 (fun i => i matches .idp2 ..)].all id = true := by decide +kernel

theorem test_decode_logic : [
    decodesTo 0x200700C01C14000000000000 (fun i => i matches .land ..),
    decodesTo 0x201700C01C14000000000000 (fun i => i matches .lor ..),
    decodesTo 0x202700C01C14000000000000 (fun i => i matches .lxor ..),
    decodesTo 0x203700C01000000000000000 (fun i => i matches .lnot ..),
    decodesTo 0x204700C01C14000000009600 (fun i => i matches .logt ..),
    decodesTo 0x205700C01C14000000000000 (fun i => i matches .shl ..),
    decodesTo 0x206700C01C14000000000000 (fun i => i matches .shr ..),
    decodesTo 0x207700C01C14000000000000 (fun i => i matches .sar ..),
    decodesTo 0x208700C01C14000000000000 (fun i => i matches .rot ..),
    decodesTo 0x209700C01C14000000000900 (fun i => i matches .fshl ..),
    decodesTo 0x20A700C01000000000000000 (fun i => i matches .popc ..),
    decodesTo 0x20B700C01000000000000000 (fun i => i matches .clz ..),
    decodesTo 0x20C700C01000000000000000 (fun i => i matches .ctz ..),
    decodesTo 0x20D700C01000000000000000 (fun i => i matches .brev ..),
    decodesTo 0x20E700C01C14000000000000 (fun i => i matches .bfe ..),
    decodesTo 0x20F700C01C14000000000900 (fun i => i matches .bfi ..),
    decodesTo 0x210700C01C14000000000900 (fun i => i matches .bmix ..)].all id = true := by decide +kernel

theorem test_decode_compare_and_move : [
    decodesTo 0x300780402C0D000000000000 (fun i => i matches .icmp ..),
    decodesTo 0x30178080200F800000000000 (fun i => i matches .fcmp ..),
    decodesTo 0x302780201808000000001E00 (fun i => i matches .plog ..),
    decodesTo 0x30370040200C000000020400 (fun i => i matches .sel ..),
    decodesTo 0x304700502000000000000000 (fun i => i matches .mov ..),
    decodesTo 0x30570040000000DEADBEEF00 (fun i => i matches .movi ..),
    decodesTo 0x306740402000000000000000 (fun i => i matches .movs ..),
    decodesTo 0x307740402C1C000000000000 (fun i => i matches .rdlane ..),
    decodesTo 0x308701000000000000000000 (fun i => i matches .pmov ..),
    decodesTo 0x308700004000800000005500 (fun i => i matches .pmovP ..)].all id = true := by decide +kernel

theorem test_decode_float : [
    decodesTo 0x400700C01C14100000000000 (fun i => i matches .fadd ..),
    decodesTo 0x401700C01C14000000000000 (fun i => i matches .fsub ..),
    decodesTo 0x402700C01C14000000000000 (fun i => i matches .fmul ..),
    decodesTo 0x403700C01C14000000000900 (fun i => i matches .ffma ..),
    decodesTo 0x404700C01C14000000000000 (fun i => i matches .fmin ..),
    decodesTo 0x405700C01C14000000000000 (fun i => i matches .fmax ..),
    decodesTo 0x406700C01000000000000000 (fun i => i matches .frnd ..),
    decodesTo 0x407700C01000000000000000 (fun i => i matches .fclass ..),
    decodesTo 0x408700C01C14000000000000 (fun i => i matches .fscl ..)].all id = true := by decide +kernel

theorem test_decode_packed_and_special : [
    decodesTo 0x500700C01C140A0000000000 (fun i => i matches .pkadd ..),
    decodesTo 0x501700C01C14000000000000 (fun i => i matches .pkmul ..),
    decodesTo 0x502700C01C14000000000900 (fun i => i matches .pkfma ..),
    decodesTo 0x503700C01C14000000000000 (fun i => i matches .pkmin ..),
    decodesTo 0x504700C01C14000000000000 (fun i => i matches .pkmax ..),
    decodesTo 0x510700C01000000000000000 (fun i => i matches .frcp ..),
    decodesTo 0x511700C01000000000000000 (fun i => i matches .frsq ..),
    decodesTo 0x512700C01000000000000000 (fun i => i matches .fsqrt ..),
    decodesTo 0x513700C01000000000000000 (fun i => i matches .fex2 ..),
    decodesTo 0x514700C01000000000000000 (fun i => i matches .flg2 ..),
    decodesTo 0x515700C01000000000000000 (fun i => i matches .fsin ..),
    decodesTo 0x516700C01000000000000000 (fun i => i matches .fcos ..),
    decodesTo 0x517700C01000000000000000 (fun i => i matches .ftanh ..),
    decodesTo 0x518700C01000000000000000 (fun i => i matches .fsigm ..)].all id = true := by decide +kernel

theorem test_decode_conversion : [
    decodesTo 0x600701402000090000010800 (fun i => i matches .cvt ..),
    decodesTo 0x6017048000440D0000000000 (fun i => i matches .cvtp ..),
    decodesTo 0x602702004014000000000000 (fun i => i matches .cvtu ..),
    decodesTo 0x603700408000800000000700 (fun i => i matches .amax ..),
    decodesTo 0x60470040200C800000000000 (fun i => i matches .scaleq ..),
    decodesTo 0x605700408000000000000000 (fun i => i matches .abssum ..)].all id = true := by decide +kernel

theorem test_decode_cross_lane : [
    decodesTo 0x700700402C0D800000000000 (fun i => i matches .shfl ..),
    decodesTo 0x701780602000800000000000 (fun i => i matches .vote ..),
    decodesTo 0x702741009000080000000000 (fun i => i matches .redl ..),
    decodesTo 0x703701009000470000000100 (fun i => i matches .scanl ..),
    decodesTo 0x704701009000000000000000 (fun i => i matches .matchl ..)].all id = true := by decide +kernel

theorem test_decode_memory : [
    decodesTo 0x800702102010470000000000 (fun i => i matches .ld ..),
    decodesTo 0x801702506000270000004000 (fun i => i matches .st ..),
    decodesTo 0x8027421020000D0000001000 (fun i => i matches .ldu ..),
    decodesTo 0x803700102000800000002000 (fun i => i matches .pfetch ..),
    decodesTo 0x80470410600C470200005800 (fun i => i matches .ldx ..),
    decodesTo 0x805700000000B00000000000 (fun i => i matches .fence ..),
    decodesTo 0x806700102001000000000400 (fun i => i matches .flush ..),
    decodesTo 0x806700000000800000000000 (fun i => i matches .flushAll ..),
    decodesTo 0x807700102000000000000000 (fun i => i matches .invl ..),
    decodesTo 0x807700000000800000000000 (fun i => i matches .invlAll ..)].all id = true := by decide +kernel

theorem test_decode_atomic : [
    decodesTo 0x900701902C00010000040400 (fun i => i matches .atom ..),
    decodesTo 0x901701902C00030000000400 (fun i => i matches .atomc ..),
    decodesTo 0x902700102C00020000000400 (fun i => i matches .red ..),
    decodesTo 0x903701902C00020000000400 (fun i => i matches .atomord ..),
    decodesTo 0x904701902C00000000090400 (fun i => i matches .waita ..)].all id = true := by decide +kernel

theorem test_decode_cell : [
    decodesTo 0xA00700303000000000000000 (fun i => i matches .cellcfgFree ..),
    decodesTo 0xA00700303410010000000000 (fun i => i matches .cellcfgSem ..),
    decodesTo 0xA00700303410020000000000 (fun i => i matches .cellcfgBar ..),
    decodesTo 0xA00700303410030000000000 (fun i => i matches .cellcfgRing ..),
    decodesTo 0xA00700303410040000000000 (fun i => i matches .cellcfgQueue ..),
    decodesTo 0xA00700303410080000000000 (fun i => i matches .cellcfgBind ..),
    decodesTo 0xA00700000000090000000000 (fun i => i matches .cellcfgUnbind ..),
    decodesTo 0xA01742303C08000000000000 (fun i => i matches .cellrd ..),
    decodesTo 0xA02700303C05600000000000 (fun i => i matches .semsig ..),
    decodesTo 0xA03742303C04010000000000 (fun i => i matches .semwait ..),
    decodesTo 0xA04743503C05A00000000000 (fun i => i matches .bararv ..),
    decodesTo 0xA05780503431900000000000 (fun i => i matches .barwait ..),
    decodesTo 0xA06700303C04000000000000 (fun i => i matches .ringpub ..),
    decodesTo 0xA07740400000080000000000 (fun i => i matches .ringawtData ..),
    decodesTo 0xA07740702410010000000000 (fun i => i matches .ringawtFree ..),
    decodesTo 0xA087000000000A0000000000 (fun i => i matches .ringrel ..),
    decodesTo 0xA097000004512A0000000000 (fun i => i matches .qpush ..),
    decodesTo 0xA0A7454000011A0000000000 (fun i => i matches .qpop ..)].all id = true := by decide +kernel

theorem test_decode_matrix_and_tile : [
    decodesTo 0xB00708008418000000303000 (fun i => i matches .mmaF4b ..),
    decodesTo 0xB01708008418000000030000 (fun i => i matches .mmaF8a ..),
    decodesTo 0xB02708008418000000030000 (fun i => i matches .mmaF8b ..),
    decodesTo 0xB03708008418000000030000 (fun i => i matches .mmaB16 ..),
    decodesTo 0xB04708008418000000030000 (fun i => i matches .mmaH16 ..),
    decodesTo 0xB05708008418030000030000 (fun i => i matches .mmaI8 ..),
    decodesTo 0xB08708008418000000330000 (fun i => i matches .mmaspF4b ..),
    decodesTo 0xB09708008418000000030000 (fun i => i matches .mmaspF8a ..),
    decodesTo 0xB0D708008418030000030000 (fun i => i matches .mmaspI8 ..),
    decodesTo 0xB10700102C00000000000000 (fun i => i matches .station ..),
    decodesTo 0xB11700000C04000000000000 (fun i => i matches .unstat ..),
    decodesTo 0xB12700000C00000000000500 (fun i => i matches .wload ..),
    decodesTo 0xB18782502410000001000500 (fun i => i matches .qld ..),
    decodesTo 0xB19782502000000000000000 (fun i => i matches .qsetV ..),
    decodesTo 0xB19782703C24010000000000 (fun i => i matches .qsetRange ..),
    decodesTo 0xB19782400000020000000000 (fun i => i matches .qsetAll ..),
    decodesTo 0xB19741209000030000000000 (fun i => i matches .qsetRd ..),
    decodesTo 0xB1A78260A82C000000008000 (fun i => i matches .qlog ..)].all id = true := by decide +kernel

theorem test_decode_prediction_and_stream : [
    decodesTo 0xC00700040420000000000F00 (fun i => i matches .ffpsel ..),
    decodesTo 0xC01700102420000000000500 (fun i => i matches .ffpbnd ..),
    decodesTo 0xC02700102420000000020500 (fun i => i matches .ffpfch ..),
    decodesTo 0xC08705004020000000000000 (fun i => i matches .isect ..)].all id = true := by decide +kernel

theorem test_decode_engine_and_launch : [
    decodesTo 0xD00741108000010000000000 (fun i => i matches .xcopy ..),
    decodesTo 0xD01700110000000000000000 (fun i => i matches .xgath ..),
    decodesTo 0xD02700102824000000000500 (fun i => i matches .tqpost ..),
    decodesTo 0xD10741102000250000000700 (fun i => i matches .glaunchK ..),
    decodesTo 0xD10741102000080000000000 (fun i => i matches .glaunchG ..),
    decodesTo 0xD10741102000100000000000 (fun i => i matches .glaunchSeal ..),
    decodesTo 0xD10741102000180000000000 (fun i => i matches .glaunchFree ..),
    decodesTo 0xD11700000000000000000000 (fun i => i matches .trig ..),
    decodesTo 0xD12741102000000000000000 (fun i => i matches .chunk ..),
    decodesTo 0xD13741102000000000000000 (fun i => i matches .mboxarm ..),
    decodesTo 0xD13741102000800000000000 (fun i => i matches .mboxarmD ..),
    decodesTo 0xD14741301000000000000000 (fun i => i matches .stepCtr ..),
    decodesTo 0xD15700102410430000000900 (fun i => i matches .lhint ..)].all id = true := by decide +kernel

/-! Full decodings of words the spec prints. -/

theorem test_decode_iadd_operands : decode 0x100700C01C14030000000000 =
    some (.iadd ⟨false, 7, false, false, false, false⟩ ⟨.vec 3, .vec 1, .con 5, .i32, .rne, false, 0, 0⟩) := by decide +kernel
theorem test_decode_ldx_operands : decode 0x80470410600C470200005800 =
    some (.ldx ⟨false, 7, false, false, false, false⟩ ⟨.vec 16, .uni 6, .vec 3, .n32, .g, true, 0, 0x02000058⟩) := by decide +kernel
theorem test_decode_ffma_operands : decode 0x40370280200C000000000A80 =
    some (.ffma ⟨false, 7, true, false, false, false⟩ ⟨.vec 10, .vec 2, .vec 3, .dflt, .rne, false, 0, 10⟩) := by decide +kernel
theorem test_decode_barwait_operands : decode 0xA05780700431900000000040 =
    some (.barwait ⟨false, 7, false, true, false, false⟩ ⟨.spc 1, .con 0, .uni 12, false, 0, false, .acq, .package, 0⟩) := by decide +kernel

/-! Ill-formed terms, one for each condition of R53 that a term can break. -/

def hdr : Hdr := ⟨false, 7, false, false, false, false⟩
theorem test_illFormed_safeOnRep : (Instr.rep ⟨false, 7, true, false, false, false⟩ ⟨0, 0, 0, 0, 0⟩).wellFormed = false := by decide +kernel
theorem test_illFormed_destinationIsConstant : (Instr.iadd hdr ⟨.con 1, .vec 1, .vec 2, .dflt, .rne, false, 0, 0⟩).wellFormed = false := by
  decide +kernel
theorem test_illFormed_reservedIndex : (Instr.iadd hdr ⟨.vec 1, .con 0x90, .vec 2, .dflt, .rne, false, 0, 0⟩).wellFormed = false := by decide +kernel
theorem test_illFormed_unlistedType : (Instr.fadd hdr ⟨.vec 1, .vec 1, .vec 2, .i8, .rne, false, 0, 0⟩).wellFormed = false := by decide +kernel
theorem test_illFormed_unusedImmediate : (Instr.movs hdr ⟨.uni 1, .vec 1, .vec 0, .dflt, .rne, false, 0, 3⟩).wellFormed = false := by decide +kernel
theorem test_illFormed_guardedRep : (Instr.rep ⟨false, 1, false, false, false, false⟩ ⟨0, 0, 0, 0, 0⟩).wellFormed = false := by decide +kernel
theorem test_illFormed_stepOfTheDevice : (Instr.coldReset).wellFormed = false := by decide +kernel
theorem test_wellFormed_term : (Instr.iadd hdr ⟨.vec 3, .vec 1, .con 5, .i32, .rne, false, 0, 0⟩).wellFormed = true := by decide +kernel

/-! One step on one word. -/

/-- What the step over `w` leaves, with register `i` of lane `l` at `v i l` and uniform register `i` at `u i` before. -/
def after (w : Nat) (v : List (List Nat)) (u : List Nat := []) (n : Nat := 8) : Option State :=
  let s := State.reset.withFetchWord 96 w
  let g := s.group 0
  let lanes := (List.range n).map fun l => { Lane.reset with v := v.zipIdx.foldl (fun m x => Tab.set 0 m x.2 (BitVec.ofNat 32 (x.1.getD l 0))) [] }
  match step (s.setGroup 0 { g with lanes, s := u.zipIdx.foldl (fun m x => Tab.set 0 m x.2 (BitVec.ofNat 32 x.1)) [] }) with
  | .next t => some t
  | _ => none

/-- Registers of lane 0, and of the group, afterwards. -/
def vecIs (r : Option State) (i x : Nat) (l : Nat := 0) : Bool := r.any fun t => (t.group 0).vreg l i == BitVec.ofNat 32 x
def uniIs (r : Option State) (i x : Nat) : Bool := r.any fun t => (t.group 0).ureg i == BitVec.ofNat 32 x


/-- R134: IABS.i32 of 0x80000000 gives itself, saturated 0x7FFFFFFF. -/
theorem test_iabs_wraps : (fun r => vecIs r 1 0x80000000) (after 0x109700400000000000000000 [[0x80000000, 0x80000000, 0x80000000, 0x80000000, 0x80000000, 0x80000000, 0x80000000, 0x80000000]]) = true := by decide +kernel

/-- R134. -/
theorem test_iabs_saturates : (fun r => vecIs r 1 0x7FFFFFFF) (after 0x109700400000400000000000 [[0x80000000, 0x80000000, 0x80000000, 0x80000000, 0x80000000, 0x80000000, 0x80000000, 0x80000000]]) = true := by decide +kernel

/-- R134: ISUB.n32.sat of 3 and 5 gives 0. -/
theorem test_isub_saturates : (fun r => vecIs r 1 0) (after 0x102700703C14470000000000 [[9, 9, 9, 9, 9, 9, 9, 9], [9, 9, 9, 9, 9, 9, 9, 9]]) = true := by decide +kernel

/-- R134: wrap of −1 + 2. -/
theorem test_iadd_wraps : (fun r => vecIs r 1 1) (after 0x100700400C08000000000000 [[0xFFFFFFFF, 0xFFFFFFFF, 0xFFFFFFFF, 0xFFFFFFFF, 0xFFFFFFFF, 0xFFFFFFFF, 0xFFFFFFFF, 0xFFFFFFFF]]) = true := by decide +kernel

/-- R134: ⌊−1 × 1 / 2^32⌋ = −1 for .i32 and 0 for .n32. -/
theorem test_imulh_signed : (fun r => vecIs r 1 0xFFFFFFFF) (after 0x104700400C04000000000000 [[0xFFFFFFFF, 0xFFFFFFFF, 0xFFFFFFFF, 0xFFFFFFFF, 0xFFFFFFFF, 0xFFFFFFFF, 0xFFFFFFFF, 0xFFFFFFFF]]) = true := by decide +kernel

/-- R134. -/
theorem test_imulh_unsigned : (fun r => vecIs r 1 0) (after 0x104700400C04070000000000 [[0xFFFFFFFF, 0xFFFFFFFF, 0xFFFFFFFF, 0xFFFFFFFF, 0xFFFFFFFF, 0xFFFFFFFF, 0xFFFFFFFF, 0xFFFFFFFF]]) = true := by decide +kernel

/-- R135: 0xFFFFFFFF × 1 + 0x1_00000001 as .n32 pairs. -/
theorem test_imadw_carries : (fun r => vecIs r 4 0 && vecIs r 5 2) (after 0x106701000C04070000000200 [[0xFFFFFFFF, 0xFFFFFFFF, 0xFFFFFFFF, 0xFFFFFFFF, 0xFFFFFFFF, 0xFFFFFFFF, 0xFFFFFFFF, 0xFFFFFFFF], [0, 0, 0, 0, 0, 0, 0, 0], [1, 1, 1, 1, 1, 1, 1, 1], [1, 1, 1, 1, 1, 1, 1, 1]]) = true := by decide +kernel

/-- R137: SAR by 40 copies the sign. -/
theorem test_sar_fills : (fun r => vecIs r 1 0xFFFFFFFF) (after 0x207700400CA0000000000000 [[0x80000000, 0x80000000, 0x80000000, 0x80000000, 0x80000000, 0x80000000, 0x80000000, 0x80000000]]) = true := by decide +kernel

/-- R137: SHL by 32 gives 0. -/
theorem test_shl_past_the_width : (fun r => vecIs r 1 0) (after 0x205700400C80000000000000 [[0xFFFFFFFF, 0xFFFFFFFF, 0xFFFFFFFF, 0xFFFFFFFF, 0xFFFFFFFF, 0xFFFFFFFF, 0xFFFFFFFF, 0xFFFFFFFF]]) = true := by decide +kernel

/-- R137: ROT by 33 is ROT by 1. -/
theorem test_rot_by_33 : (fun r => vecIs r 1 5) (after 0x208700400C84000000000000 [[0x80000002, 0x80000002, 0x80000002, 0x80000002, 0x80000002, 0x80000002, 0x80000002, 0x80000002]]) = true := by decide +kernel

/-- R137: bits [63:32] of (a × 2^32 + b) × 2^8. -/
theorem test_fshl : (fun r => vecIs r 3 0x22334455) (after 0x209700C00004000000030800 [[0x11223344, 0x11223344, 0x11223344, 0x11223344, 0x11223344, 0x11223344, 0x11223344, 0x11223344], [0x55667788, 0x55667788, 0x55667788, 0x55667788, 0x55667788, 0x55667788, 0x55667788, 0x55667788]]) = true := by decide +kernel

/-- R137. -/
theorem test_clz_of_zero : (fun r => vecIs r 1 32) (after 0x20B700400000000000000000 [[0, 0, 0, 0, 0, 0, 0, 0]]) = true := by decide +kernel

/-- R137. -/
theorem test_ctz : (fun r => vecIs r 1 31) (after 0x20C700400000000000000000 [[0x80000000, 0x80000000, 0x80000000, 0x80000000, 0x80000000, 0x80000000, 0x80000000, 0x80000000]]) = true := by decide +kernel

/-- R140: c = 0xF964 gives 0xFF007755. -/
theorem test_bmix_moves : (fun r => vecIs r 3 0xFF007755) (after 0x210700C00004000000000200 [[0x44332211, 0x44332211, 0x44332211, 0x44332211, 0x44332211, 0x44332211, 0x44332211, 0x44332211], [0x88776655, 0x88776655, 0x88776655, 0x88776655, 0x88776655, 0x88776655, 0x88776655, 0x88776655], [0x0000F964, 0x0000F964, 0x0000F964, 0x0000F964, 0x0000F964, 0x0000F964, 0x0000F964, 0x0000F964]]) = true := by decide +kernel

/-- R140: c = 0x9997 gives 0xFFFFFF88. -/
theorem test_bmix_extends : (fun r => vecIs r 3 0xFFFFFF88) (after 0x210700C00004000000000200 [[0x44332211, 0x44332211, 0x44332211, 0x44332211, 0x44332211, 0x44332211, 0x44332211, 0x44332211], [0x88776655, 0x88776655, 0x88776655, 0x88776655, 0x88776655, 0x88776655, 0x88776655, 0x88776655], [0x00009997, 0x00009997, 0x00009997, 0x00009997, 0x00009997, 0x00009997, 0x00009997, 0x00009997]]) = true := by decide +kernel

/-- R139: a field of length 4 at 4, sign-extended. -/
theorem test_bfe_signed : (fun r => vecIs r 1 0xFFFFFFFF) (after 0x20E700400FFC030000040400 [[240, 240, 240, 240, 240, 240, 240, 240]]) = true := by decide +kernel

/-- R138: lut 0x96 is the parity of a, b and d. -/
theorem test_logt_is_lut_of_a_b_d : (fun r => vecIs r 2 0) (after 0x204700800004000000009600 [[12, 12, 12, 12, 12, 12, 12, 12], [10, 10, 10, 10, 10, 10, 10, 10], [6, 6, 6, 6, 6, 6, 6, 6]]) = true := by decide +kernel

/-- R147: 2^24 + 1 rounds to 2^24 and sets NX. -/
theorem test_fadd_inexact : (fun r => vecIs r 1 0x4B800000 && r.any (fun t => (t.group 0).fstat == 16)) (after 0x400700400E04000000000000 [[0x4B800000, 0x4B800000, 0x4B800000, 0x4B800000, 0x4B800000, 0x4B800000, 0x4B800000, 0x4B800000]]) = true := by decide +kernel

/-- R147: ∞ − ∞ gives the canonical NaN and IV. -/
theorem test_fadd_opposite_infinities : (fun r => vecIs r 1 0x7FC00000 && r.any (fun t => (t.group 0).fstat == 1)) (after 0x400700789E28000000000000 [[0, 0, 0, 0, 0, 0, 0, 0], [0, 0, 0, 0, 0, 0, 0, 0]]) = true := by decide +kernel

/-- R148: −0 lies below +0. -/
theorem test_fmin_of_zeros : (fun r => vecIs r 1 0x80000000) (after 0x404700700E20000000000000 [[0, 0, 0, 0, 0, 0, 0, 0], [1, 1, 1, 1, 1, 1, 1, 1]]) = true := by decide +kernel

/-- R149: 2.5 rounds to 2 and −0.5 up to −0. -/
theorem test_frnd_ties_to_even : (fun r => vecIs r 1 0x40000000 && vecIs r 1 0x80000000 1) (after 0x406700400000000000000000 [[0x40200000, 0xBF000000, 0, 0, 0, 0, 0, 0]]) = true := by decide +kernel

/-- R150: a negative subnormal sets bit 2. -/
theorem test_fclass_of_subnormal : (fun r => vecIs r 1 4) (after 0x407700400000000000000000 [[0x80000001, 0x80000001, 0x80000001, 0x80000001, 0x80000001, 0x80000001, 0x80000001, 0x80000001]]) = true := by decide +kernel

/-- R153: 1 / −0 gives −∞ and DZ. -/
theorem test_frcp_of_zero : (fun r => vecIs r 1 0xFF800000 && r.any (fun t => (t.group 0).fstat == 2)) (after 0x510700788000000000000000 [[0, 0, 0, 0, 0, 0, 0, 0], [0, 0, 0, 0, 0, 0, 0, 0]]) = true := by decide +kernel

/-- R153: 2^−149 is exact. -/
theorem test_fex2_of_integer : (fun r => vecIs r 1 1 && r.any (fun t => (t.group 0).fstat == 0)) (after 0x513700400000000000000000 [[0xC3150000, 0xC3150000, 0xC3150000, 0xC3150000, 0xC3150000, 0xC3150000, 0xC3150000, 0xC3150000]]) = true := by decide +kernel

/-- R74: 0x3FAAAAAB to BF16 in the high half of 0x00001234. -/
theorem test_cvt_rounds_and_merges : (fun r => vecIs r 5 0x3FAB1234 && r.any (fun t => (t.group 0).fstat == 16)) (after 0x600701402000090000010800 [[0, 0, 0, 0, 0, 0, 0, 0], [0, 0, 0, 0, 0, 0, 0, 0], [0x3FAAAAAB, 0x3FAAAAAB, 0x3FAAAAAB, 0x3FAAAAAB, 0x3FAAAAAB, 0x3FAAAAAB, 0x3FAAAAAB, 0x3FAAAAAB], [0, 0, 0, 0, 0, 0, 0, 0], [0, 0, 0, 0, 0, 0, 0, 0], [0x00001234, 0x00001234, 0x00001234, 0x00001234, 0x00001234, 0x00001234, 0x00001234, 0x00001234]]) = true := by decide +kernel

/-- R157: 2^24, 1, 1, −2^24 in ascending lanes give +0 and NX. -/
theorem test_redl_adds_in_order : (fun r => uniIs r 4 0 && r.any (fun t => (t.group 0).fstat == 16)) (after 0x702741001000080000000000 [[0, 0, 0, 0], [0x4B800000, 0x3F800000, 0x3F800000, 0xCB800000]] [] 4) = true := by decide +kernel

/-- R157: the third running sum is 2^24, the fourth 0. -/
theorem test_scanl_adds_in_order : (fun r => vecIs r 2 0x4B800000 2 && vecIs r 2 0 3) (after 0x703700801000080000000000 [[0, 0, 0, 0], [0x4B800000, 0x3F800000, 0x3F800000, 0xCB800000], [7, 7, 7, 7]] [] 4) = true := by decide +kernel

/-- R157: lane 0 receives 0, lane 3 the sum of the first three. -/
theorem test_scanl_exclusive : (fun r => vecIs r 2 0 && vecIs r 2 0x4B800000 3) (after 0x703700801000080000000100 [[0, 0, 0, 0], [0x4B800000, 0x3F800000, 0x3F800000, 0xCB800000], [7, 7, 7, 7]] [] 4) = true := by decide +kernel

/-- R155: mode 2 reads the lane l + b, and keeps its own value beyond the width. -/
theorem test_shfl_down : (fun r => vecIs r 1 17 && vecIs r 1 11 1) (after 0x700700400C1D000000000000 [[10, 11, 12, 13, 14, 15, 16, 17]]) = true := by decide +kernel

/-- R145. -/
theorem test_movs_reads_the_lowest_lane : (fun r => uniIs r 1 5) (after 0x306740400000000000000000 [[5, 6, 7, 8, 9, 10, 11, 12]]) = true := by decide +kernel

/-- R123: the lanes stand at the target, D holds the successor. -/
theorem test_call_links_and_jumps : (fun r => uniIs r 4 1 && r.any (fun t => ((t.group 0).lane 0).pc == 0x14)) (after 0x003741000000000000001400 []) = true := by decide +kernel

/-- R129, R346, R348: cause 9, the code as detail, PC 0x90, supervisor mode. -/
theorem test_trap_enters_the_routine : (fun r => r.any (fun t => (t.group 0).trapcause == 0x123409 && ((t.group 0).lane 0).pc == 0x90 && ((t.group 0).lane 0).sup)) (after 0x00B700000000000000123400 []) = true := by decide +kernel

/-- R130, R53: cause 1, detail 0x0B. -/
theorem test_eret_outside_a_routine : (fun r => r.any (fun t => (t.group 0).trapcause == 0xB01)) (after 0x00C700000000000000000000 []) = true := by decide +kernel

/-- R53: class 0xE, detail 3. -/
theorem test_undefined_opcode_traps : (fun r => r.any (fun t => (t.group 0).trapcause == 0x301 && ((t.group 0).lane 0).pc == 0x10)) (after 0xE00700000000000000000000 []) = true := by decide +kernel

/-- R125. -/
theorem test_exit_ends_the_threads : (fun r => r.any (fun t => !(t.team 0).used || (t.group 0).lanes.all (fun x => x.exited))) (after 0x006700000000000000000000 []) = true := by decide +kernel

/-- R46: the successor of a SAFE word is PC + 2. -/
theorem test_live_word_after_safe : (fun r => r.any (fun t => ((t.group 0).lane 0).pc == 2)) (after 0x000700000000000000000080 []) = true := by decide +kernel

/-- R39: guard !pt. -/
theorem test_guard_off_writes_nothing : (fun r => vecIs r 1 7) (after 0x305F00400000000000000500 [[0, 0, 0, 0, 0, 0, 0, 0], [7, 7, 7, 7, 7, 7, 7, 7]]) = true := by decide +kernel

/-- R305, R299: a SEM cell with VALUE 5. -/
theorem test_cellcfg_sets_the_cell : (fun r => r.any (fun t => ((t.team 0).cell 3).kind == .sem && ((t.team 0).cell 3).w0 == 5)) (after 0xA00700303410010000000000 [] [0, 0, 0, 0, 5, 0]) = true := by decide +kernel

/-- R303: the kind is not the one the instruction acts on, detail 3. -/
theorem test_semsig_on_no_cell_traps : (fun r => r.any (fun t => (t.group 0).trapcause == 0x307 && (t.group 0).trapaddr == 3)) (after 0xA02700303C04000000000000 []) = true := by decide +kernel

/-- R182: cause 2, TRAPADDR the address of the lowest lane. -/
theorem test_ld_of_a_misaligned_word : (fun r => r.any (fun t => (t.group 0).trapcause == 2 && (t.group 0).trapaddr == 0x1002)) (after 0x800702102000070000000200 [] [0, 0, 0x00001000, 0]) = true := by decide +kernel

/-- R161: no scratchpad is declared, cause 6 detail 1. -/
theorem test_scratchpad_bounds : (fun r => r.any (fun t => (t.group 0).trapcause == 0x106 && (t.group 0).trapaddr == 0x40)) (after 0x801702102000270000000000 [] [0, 0, 64]) = true := by decide +kernel

/-- R228: QSET.range of 3 to 9. -/
theorem test_qset_all_and_range : (fun r => r.any (fun t => (t.group 0).qreg 1 == 0x1F8)) (after 0xB19782703C24010000000000 []) = true := by decide +kernel

/-- R223: scratchpad-bounds, detail 2. -/
theorem test_mma_on_a_free_shelf : (fun r => r.any (fun t => (t.group 0).trapcause == 0x206)) (after 0xB01708008418000000030000 [] [0, 0, 0, 0, 0, 0, 0]) = true := by decide +kernel

/-- R94: cause 2, detail 1. -/
theorem test_chunk_misaligned : (fun r => r.any (fun t => (t.group 0).trapcause == 0x102)) (after 0xD12741102000000000000000 [] [0, 0, 0x00001010, 0]) = true := by decide +kernel

/-- R250: cause 6, detail 4. -/
theorem test_xcopy_without_a_queue_area : (fun r => r.any (fun t => (t.group 0).trapcause == 0x406)) (after 0xD00700108000000000000000 []) = true := by decide +kernel

/-- R96. -/
theorem test_step_adds : (fun r => r.any (fun t => t.stepOf 0 == 5)) (after 0xD14741305000000000000000 []) = true := by decide +kernel

/-- R123. -/
theorem test_brx_reads_each_lane : (fun r => r.any (fun t => ((t.group 0).lane 2).pc == 3)) (after 0x002700000000000000000000 [[1, 2, 3, 4, 5, 6, 7, 8]]) = true := by decide +kernel

/-- R136: four products of 127 × 127 added to 0x7FFFFF01 saturate. -/
theorem test_idp4_saturates : (fun r => vecIs r 7 0x7FFFFFFF) (after 0x10D701C0200C410000000700 [[0, 0, 0, 0, 0, 0, 0, 0], [0, 0, 0, 0, 0, 0, 0, 0], [0x7F7F7F7F, 0x7F7F7F7F, 0x7F7F7F7F, 0x7F7F7F7F, 0x7F7F7F7F, 0x7F7F7F7F, 0x7F7F7F7F, 0x7F7F7F7F], [0x7F7F7F7F, 0x7F7F7F7F, 0x7F7F7F7F, 0x7F7F7F7F, 0x7F7F7F7F, 0x7F7F7F7F, 0x7F7F7F7F, 0x7F7F7F7F], [0, 0, 0, 0, 0, 0, 0, 0], [0, 0, 0, 0, 0, 0, 0, 0], [0, 0, 0, 0, 0, 0, 0, 0], [0x7FFFFF01, 0x7FFFFF01, 0x7FFFFF01, 0x7FFFFF01, 0x7FFFFF01, 0x7FFFFF01, 0x7FFFFF01, 0x7FFFFF01]]) = true := by decide +kernel

/-! Witnesses: a concrete state and operands that meet the hypotheses of each statement, clause by clause. -/

/-- A running team of eight lanes on core 0 with 64 KiB of scratchpad, whose pages 0 to 3 are mapped to device bytes 0 to 16,383
for the core and for the hub. -/
def kern : Kernel := { Kernel.oneWord with scratch := 65536 }
def grid0 : Grid := { Grid.none with
  l := { Launch.none with nteams := 1 }, k := kern, src := .team 0 none, st := .running, params := some [], started := 1 }
def team0 : Team := { Team.reset with used := true, slots := [0], macs := [(0, 0)], st := .running }
def grp0 : Group := { Group.reset with st := .active, width := 8, lanes := List.replicate 8 Lane.reset }
def base : State := { State.reset with
  cur := ⟨0, 0xFF, 0, 1, none, none, false⟩, grids := [grid0], teams := [(0, team0)], groups := [(0, grp0)], nextGrid := 1
  tlb := [0, hubCore].flatMap fun c => (List.range 4).map fun p => ⟨c, 0, p, 1, .ok p false true true, []⟩ }
/-- The base state with its group, its team or its core 0 changed. -/
def withG (f : Group → Group) (s : State := base) : State := s.setGroup 0 (f (s.group 0))
def withT (f : Team → Team) (s : State := base) : State := s.setTeam 0 (f (s.team 0))
/-- Its group with uniform registers. -/
def withU (u : List Nat) (s : State := base) : State := withG (fun g => { g with s := u.zipIdx.foldl (fun m x => Tab.set 0 m x.2 (BitVec.ofNat 32 x.1)) [] }) s
/-- Its lanes in a supervisor routine. -/
def inRoutine (s : State := base) : State := withG (fun g => { g with lanes := g.lanes.map fun l => { l with sup := true } }) s
def off : Hdr := ⟨true, 7, false, false, false, false⟩
def alu (ty : Ty) (d a b : Opnd) (imm : Word := 0) : AluOps := ⟨d, a, b, ty, .rne, false, 0, imm⟩
def ctl (imm : Word) (a : Opnd := .con 0) : CtlOps := ⟨.vec 1, a, .vec 0, imm⟩
def mem (d a b : Opnd) (sp : Space := .g) (imm : Word := 0) : MemOps := ⟨d, a, b, .n32, sp, false, 0, imm⟩

/-- No active lane, and some. -/
theorem wit_guards : activeLanes base off = [] ∧ activeLanes base hdr = [0, 1, 2, 3, 4, 5, 6, 7] := by decide +kernel
theorem wit_IntegerArithmetic : let o := alu .n32 (.vec 3) (.vec 1) (.con 5); o.ty ∈ [Ty.dflt, .i32, .n32] ∧ o.sat = false := by decide
theorem wit_DotProducts : (alu .n8 (.vec 3) (.vec 1) (.vec 2)).ty ∈ [Ty.i8, .n8] ∧ (alu .i16 (.vec 3) (.vec 1) (.vec 2)).ty ∈ [Ty.i16, .n16] := by decide
theorem wit_Compares : let o : AluOps := ⟨.spc 0, .spc 1, .spc 7, .dflt, .rne, false, 5, 0x88⟩
    o.ty ∈ [Ty.dflt, .i32, .n32] ∧ o.mod.toNat < 6 ∧ ∃ i j k, o.d = .spc i ∧ o.a = .spc j ∧ o.b = .spc k ∧ i.toNat < 8 ∧ j.toNat < 8 ∧ k.toNat < 8 :=
  ⟨by decide, by decide, 0, 1, 7, by decide⟩
theorem wit_Select : (alu .dflt (.vec 1) (.vec 2) (.vec 3) 0x204).c = .spc 4 ∧ (4 : BitVec 8).toNat < 8 := by decide
theorem wit_UniformMoves : (alu .dflt (.uni 255) (.vec 2) (.vec 3)).d = .uni 255 := by decide
theorem wit_Conversions : (Instr.cvt hdr ⟨.vec 5, .vec 2, .vec 0, .bf16, .rne, false, 0, 0x108⟩).wellFormed = true ∧
    (if Ty.dflt = .dflt then Ty.e2m1 else .dflt) ∈ [Ty.e2m1, .e4m3, .e5m2] := by decide +kernel
theorem wit_CrossLane : let o : AluOps := ⟨.spc 0, .spc 7, .vec 0, .f32, .rne, false, 3, 0⟩
    o.a = .spc 7 ∧ o.mod.toNat % 4 = 3 ∧ o.mod.toNat < 6 ∧ o.ty ∈ [Ty.dflt, .i32, .n32, .f32] := by decide

/-- Traps: no routine runs, and a lane of the subgroup is outside one; inside one, the return of all and of some. -/
theorem wit_Traps : NoRoutine base.curG ∧ (∃ l, l < 64 ∧ inSub base l ∧ (base.curG.lane l).sup = false) ∧ 0x100 ≤ (ctl 0x100).imm.toNat :=
  ⟨by unfold NoRoutine; decide +kernel, ⟨0, by decide +kernel⟩, by decide⟩
theorem wit_EretOfAll : let s := inRoutine; (∀ l, l < 64 → inSub s l → (s.curG.lane l).sup = true) ∧ s.curG.trapcause.getLsbD 5 = false ∧
    s.cur.rep = none ∧ ∀ l, l < s.curG.lanes.length → (activeLanes s hdr).contains l = true := by decide +kernel
theorem wit_EretOfSome : let s := { inRoutine with cur := ⟨0, 0x0F, 0, 1, none, none, false⟩ }
    (∀ l, l < 64 → inSub s l → (s.curG.lane l).sup = true) ∧ ∃ l, l < s.curG.lanes.length ∧ ¬((s.curG.lane l).sup = false ∨
      (s.curG.lane l).exited = true ∨ (activeLanes s hdr).contains l = true ∨ (s.curG.lane l).atEret = true) := by
  exact ⟨by decide +kernel, 7, by decide +kernel⟩
theorem wit_CsrNumbers : (ctl 0x021).imm.toNat < 0x100 ∧ (ctl 0x105).imm.toNat = 0x105 ∧
    (∀ l, l < 64 → inSub inRoutine l → (inRoutine.curG.lane l).sup = true) := by decide +kernel
theorem wit_DoubleFault : ∃ l, l < inRoutine.curG.lanes.length ∧ l < 64 ∧ inSub inRoutine l ∧ (inRoutine.curG.lane l).sup = true ∧
    (inRoutine.curG.lane l).exited = false := ⟨7, by decide +kernel⟩

theorem reachable_of {s : State} {kind va d : Nat} {b c : Bool} {as : List Acc}
    (h : ∀ a ∈ as, a.mis = false ∧ a.bounds = none ∧ a.stat = false ∧ a.pieces = [(va, 4)])
    (hl : s.look (slotCore s.cur.slot) (s.pasidOf s.cur.slot) va kind = .hit (.dev d)) : Reachable s kind b c as := fun a ha =>
  ⟨(h a ha).1, (h a ha).2.1, fun _ => (h a ha).2.2.1, fun p hp => by
    rw [(h a ha).2.2.2] at hp; obtain rfl := List.mem_singleton.1 hp; exact ⟨_, hl, .inl ⟨d, rfl⟩⟩⟩
/-- Loads and stores: aligned, in bounds and translated, with and without active lanes, at the last word of the mapped pages. -/
theorem wit_Loads : let s := withU [0, 0, 0x3FFC, 0]; let o := mem (.vec 8) (.uni 2) (.vec 0)
    let as := accesses s o.space o.ty.bytes (memEa s s.curG o false) (activeLanes s hdr)
    activeLanes s hdr ≠ [] ∧ Reachable s 0 true true as ∧ Answered s false as := by
  refine ⟨by decide +kernel, reachable_of (va := 0x3FFC) (d := 0x3FFC) (by decide +kernel) (by decide +kernel), ?_⟩
  · intro a ha b hb
    refine ⟨by revert a b; decide +kernel, fun p d e => ?_⟩
    have : ∀ a ∈ accesses (withU [0, 0, 0x3FFC, 0]) .g 4 (memEa (withU [0, 0, 0x3FFC, 0]) (withU [0, 0, 0x3FFC, 0]).curG (mem (.vec 8) (.uni 2) (.vec 0)) false)
        (activeLanes (withU [0, 0, 0x3FFC, 0]) hdr), ∀ b ∈ placesOf (withU [0, 0, 0x3FFC, 0]) 0 a, b.2.isPeer = false := by decide +kernel
    have := this a ha b hb
    rw [e] at this; simp [Loc.isPeer] at this
/-- A misaligned lane first, then lanes out of bounds (private words: none is declared). -/
theorem wit_MisalignedAccess : let s := withU [0, 0, 0x3FFD, 0]; let o := mem (.vec 8) (.uni 2) (.vec 0)
    NoRoutine s.curG ∧ ∃ a after, accesses s o.space o.ty.bytes (memEa s s.curG o false) (activeLanes s hdr) = a :: after ∧ a.mis = true :=
  ⟨by unfold NoRoutine; decide +kernel, _, _, rfl, by decide +kernel⟩
theorem wit_AccessOutOfBounds : let s := base; let o := mem (.vec 8) (.con 0) (.vec 0) .p
    let as := accesses s o.space o.ty.bytes (memEa s s.curG o false) (activeLanes s hdr)
    (∀ b ∈ as, b.mis = false) ∧ ∃ a after, as = a :: after ∧ a.bounds = some (4, 0) := ⟨by decide +kernel, _, _, rfl, by decide +kernel⟩
/-- A store at the head of a queue, with no older load; one byte is cached, one is not. -/
def storeBytes : List StByte := [⟨.dev 5, 5, false, false, 7⟩, ⟨.scr 0 9, 0, false, true, 8⟩]
def storing : State := withG fun g => { g with sq := [{ id := 3, pasid := 0, grid := 0, sent := false, kind := .store storeBytes }] }
theorem wit_PerformedStore : (storing.group 0).sq = [{ id := 3, pasid := 0, grid := 0, sent := false, kind := .store storeBytes }] ∧
    (storing.group 0).pend = [] ∧ NoOlderAcquire (storing.group 0) 3 ∧ L1Room storing (slotCore 0) (storeLines storeBytes) := by
  unfold NoOlderAcquire L1Room; decide +kernel
/-- An outstanding load of four device bytes that the L1 does not hold, or of other places; the same as an LDX. -/
def loaded (ldx : Option Pc) (places : List (Nat × Loc) := (List.range 4).map fun i => (28 + i, Loc.dev (28 + i))) : Pend := {
  id := 2, file := 0, dst := 8, form := ⟨4, false, false, false, false⟩, pasid := 0, acq := none, ldx := ldx
  lanes := [{ lane := 7, va := 28, datum := .mem places }] }
def waits (why : Why) (mask : Mask := 0x80#64) : Blocked := { mask := mask, pc := 0, next := 1, why := why, since := 0, live := none }
def loading (ldx : Option Pc) : State := withG fun g => { g with pend := [loaded ldx], blocked := [waits .ldx] }
/-- A byte of an older store of the group, one of the L1, and two of the scratchpad. -/
def fourPlaces : List (Nat × Loc) := [(5, .dev 5), (130, .dev 130), (0, .scr 0 10), (0, .scr 0 11)]
def mixed (ldx : Option Pc) : State :=
  let s := base.modCore 0 fun c => { c with l1 := Tab.set none [] 130 (some ⟨7, true, false, .dev 130, 0⟩) }
  withG (fun g => { g with pend := [loaded ldx fourPlaces], blocked := [waits .ldx], sq := [{ id := 1, pasid := 0, grid := 0, sent := false, kind := .store storeBytes }] }) s
theorem wit_ReturnedBytes : let s := mixed none; let p := loaded none fourPlaces; let g := s.group 0
    g.pend.find? (fun q => q.id == p.id) = some p ∧ (g.lane 7).exited = false ∧ g.lanes.length = 8 ∧ p.acq = none ∧ p.form.nofill = false ∧
    sqByte (.dev 5) (g.older p.id) none = some (some 7) ∧ (sqByte (.dev 130) (g.older p.id) none = none ∧ s.l1 0 130 = some ⟨7, true, false, .dev 130, 0⟩) ∧
    (sqByte (.scr 0 10) (g.older p.id) none = none ∧ sqByte (.scr 0 11) (g.older p.id) none = none) := by decide +kernel
theorem wit_ReturnedAlone : (∀ b ∈ fourPlaces, b.2.isPeer = false ∧ (mixed (some 9)).poisoned b.2 = false) ∧ NoOlderAcquire ((mixed none).group 0) 2 ∧
    (∀ q ∈ ((mixed (some 9)).group 0).pend, ¬q.id < 2) ∧ ((mixed (some 9)).group 0).pend = [loaded (some 9) fourPlaces] := by
  unfold NoOlderAcquire; decide +kernel
theorem wit_ReturnedLdx : ((mixed (some 9)).group 0).blocked.find? (fun c => c.why == .ldx && c.mask.getLsbD 7) = some (waits .ldx) := by decide +kernel
theorem wit_ReturnedWords : ∃ ws : List Word, ({ lane := 7, va := 28, datum := .words ws } : PLane).datum = .words ws ∧ ws.length ≤ 16 := ⟨[5], rfl, by decide⟩
theorem wit_LoadMiss : let s := loading none; 28 % 32 + 4 ≤ 32 ∧ (s.group 0).sq = [] ∧ (s.group 0).pend = [loaded none] ∧ ((s.group 0).lane 7).exited = false ∧
    (∀ i, i < 4 → s.l1 0 (28 + i) = none ∧ s.ownedLine ((28 + i) / 128) = false) ∧ NoOlderAcquire (s.group 0) 2 ∧ L1Room s 0 [28 / 128] := by
  unfold NoOlderAcquire L1Room; decide +kernel
/-- Prefetched lines with room for them; with as many other lines as the L1 holds there is none. -/
theorem wit_Prefetch : let keys := (activeLanes base hdr).flatMap (namedKeys base 0 (mem (.vec 8) (.con 0) (.vec 0)))
    keys ≠ [] ∧ L1Room base 0 (keys.map (· / 128)) := by unfold L1Room; decide +kernel
/-- Fences and flushes whose earlier work is done; the core holds one dirty byte, of a line nobody owns. -/
def dirty0 (s : State := base) : State := s.modCore 0 fun c => { c with l1 := Tab.set none [] 130 (some ⟨7, true, false, .dev 130, 0⟩) }
theorem wit_FenceComplete : let f : FenceEnt := { mark := 5, instr := true, rel := true, acq := true, scope := .system }
    let s := dirty0 (withG fun g => { g with fences := [f] })
    Tab.wf none (s.core 0).l1 = true ∧ (s.group 0).fences = [f] ∧ (s.group 0).loadsBack f.mark = true ∧ (s.group 0).storesDone f.mark = true ∧
    (s.group 0).flushes = [] ∧ s.acked (s.team (s.group 0).tid).grid = true ∧ s.ownedLine 1 = false ∧ s.l1 0 130 = some ⟨7, true, false, .dev (128 * 1 + 130 % 128), 0⟩ := by decide +kernel
theorem wit_FlushComplete : let f : FlushEnt := { mark := 5, all := false, inv := true, keys := [130] }
    let s := dirty0 (withG fun g => { g with flushes := [f] }); (s.group 0).flushes = [f] ∧ ∀ e ∈ (s.group 0).sq, f.mark ≤ e.id := by decide +kernel

def atm (kind : Ord) (sp : Space := .g) : AtomOps := ⟨.vec 6, .uni 2, .con 0, .i32, sp, kind, .system, .uni 4, 0, 0⟩
theorem wit_Atomics : let s := withU [0, 0, 0x3FFC, 0, 5]; let o := atm .rel; let as := accesses s o.space 4 (atomEa s s.curG o) (activeLanes s hdr)
    Reachable s 1 false false as ∧ (∀ a ∈ as, ∀ b ∈ placesOf s 1 a, s.poisoned b.2 = false) ∧ Released s (o.ord == .rel || o.ord == .ar) o.scope := by
  refine ⟨reachable_of (va := 0x3FFC) (d := 0x3FFC) (by decide +kernel) (by decide +kernel), by decide +kernel, ?_⟩
  · unfold Released NotDirty; decide +kernel
/-- An atomic at the head of a queue: lanes 0 and 3 at one place, lane 7 at another. -/
def atLane (l a : Nat) : AtLane := ⟨l, .dev a, a, 1, 2, 0, 0, 0, 0⟩
def atReq (kind : AtKind) : AtReq := ⟨kind, 0, .i32, [atLane 0 8, atLane 3 8, atLane 7 12], 4⟩
def atEnt (kind : AtKind) : SqEnt := ⟨3, 0, 0, false, .atomic (atReq kind)⟩
theorem wit_AtomicEntry : ∀ kind ∈ [AtKind.atom, .atomc, .red], let s := withG fun g => { g with sq := [atEnt kind] }; let r := atReq kind
    (s.group 0).sq = [atEnt kind] ∧ NotDirty s (slotCore 0) (fun k => r.lanes.any fun x => (List.range 4).any fun i => k / 16 == l1key 0 (x.va + i) / 16) ∧
    r.kind ≠ .ord ∧ (∀ x ∈ r.lanes, Here x.loc ∧ x.ph = 0 ∧ s.ownedLoc x.loc = false ∧ x.v.toNat < 2 ^ 32 ∧ x.new.toNat < 2 ^ 32) ∧
    (r.lanes.map AtLane.lane).Nodup ∧ Apart (r.lanes.map AtLane.loc) 4 ∧ (s.group 0).blocked = [] ∧ (s.group 0).pend = [] ∧ (s.group 0).fences = [] ∧ r.lanes ≠ [] := by
  intro kind _
  refine ⟨by cases kind <;> decide +kernel, by cases kind <;> (unfold NotDirty; decide +kernel), by simp_all [atReq]; rintro rfl; simp_all, ?_, by cases kind <;> decide +kernel, ?_,
    by cases kind <;> decide +kernel, by cases kind <;> decide +kernel, by cases kind <;> decide +kernel, by cases kind <;> decide +kernel⟩
  · cases kind <;> (unfold Here; decide +kernel)
  · intro a ha b hb
    simp only [atReq, atLane, List.map_cons, List.map_nil, List.mem_cons, List.not_mem_nil, or_false] at ha hb
    rcases ha with rfl | rfl | rfl <;> rcases hb with rfl | rfl | rfl <;> simp [byteCell, Loc.next] <;> omega
theorem wit_Waita : let s := withU [0, 0, 0x3FFC, 0, 5]; let o := atm .rlx; let as := accesses s o.space 4 (atomEa s s.curG o) (activeLanes s hdr)
    Reachable s 0 true true as ∧ o.ord ≠ .acq ∧ s.cur.rep = none ∧ s.curG.blocked = [] ∧
    ∀ a ∈ as, WaitaSees s 0 { lane := a.lane, va := a.addr, c := src s s.curG 0 o.c a.lane, fix := none } (.dev 0x3FFC) := by
  refine ⟨reachable_of (va := 0x3FFC) (d := 0x3FFC) (by decide +kernel) (by decide +kernel), by decide, by decide +kernel, by decide +kernel, fun a ha => ⟨by unfold Here; decide, .inr ⟨rfl, ?_⟩, by decide +kernel, by decide +kernel, by decide +kernel, ?_⟩⟩
  · have h : a.addr = 0x3FFC := by revert a; decide +kernel
    simp only [h]; decide +kernel
  · unfold NotDirty; intro _ e he; have : ((withU [0, 0, 0x3FFC, 0, 5]).core (slotCore 0)).l1 = [] := by decide +kernel
    rw [this] at he; cases he
theorem wit_WaitaReread : let x : WaitaLane := { lane := 7, va := 12, fix := none, c := 5 }; let w : WaitaSt := { op := 2, dst := .vec 6, acq := none, lanes := [x] }
    let s := withG fun g => { g with blocked := [waits (.waita w)] }
    (s.group 0).blocked = [waits (.waita w)] ∧ (waits (.waita w)).mask = 1#64 <<< x.lane ∧ x.lane < (s.group 0).lanes.length ∧ WaitaSees s 0 x (.dev 12) :=
  ⟨by decide +kernel, by decide +kernel, by decide +kernel, by unfold WaitaSees Here NotDirty; decide +kernel⟩
/-- Ordered streams: the number that is due, an early one, one of a stream of one, one out of range; the record of one address. -/
def req (tag : Word) : StreamReq := ⟨9, 0, 0, 0, 64, .i32, tag, 5, none⟩
def streaming (tag : Word) (rs : List StreamRec) : State := { base with streams := rs, streamReqs := [req tag] }
def rcd : StreamRec := ⟨0, 1, 64, .i32, 1, 2, 0, []⟩
theorem wit_StreamHypotheses : let s := streaming 0x00200101 [rcd]; let q := req 0x00200101
    s.streamReqs.find? (fun x => x.id == q.id) = some q ∧ q.peer = none ∧ s.ownedLine (q.loc / 128) = false ∧ q.val.toNat < 2 ^ 32 ∧ (s.group 0).sq = [] := by
  decide +kernel
theorem wit_StreamClauses : let good := fun (t : Word) => bits t.toNat 6 2 = 0 ∧ bits t.toNat 8 12 ≤ bits t.toNat 20 12
    let mine := fun (q : StreamReq) (r : StreamRec) => r.pasid == q.pasid && r.stream == bits q.tag.toNat 0 6 && r.loc == q.loc
    (good 0x00200101 ∧ [rcd].find? (mine (req 0x00200101)) = some rcd ∧ rcd.last = 2 ∧ bits 0x00200101 8 12 = rcd.next) ∧
    (good 0x00200201 ∧ [rcd].find? (mine (req 0x00200201)) = some rcd ∧ rcd.next < bits 0x00200201 8 12 ∧ (streaming 0x00200201 [rcd]).earlyHeld 64 < 1024) ∧
    (good 0x00000001 ∧ ([] : List StreamRec).find? (mine (req 1)) = none ∧ bits 1 8 12 = 0 ∧ bits 1 20 12 = 0) ∧ ¬good 0x00200301 ∧ ¬good 0x00200141 := by decide +kernel

def cel (a b : Opnd) (huse : Bool := false) (ord : Ord := .rlx) : CellOps := ⟨.uni 8, a, b, huse, 3, false, ord, .system, 0⟩
def withC (c : Cell) (s : State := base) : State := withT (fun t => { t with cells := Tab.set Cell.reset [] 63 c }) s
theorem wit_CellNames : NamesCell base (cel (.con 63) (.con 0)) 0 63 ∧ NobodyWaits base 0 63 ∧ NamesCell (withU [1024 + 63]) (cel (.uni 0) (.con 0)) 0 63 ∧
    NamesCell (withG fun g => { g with h := Tab.set 0 [] 3 (BitVec.ofNat 64 (2 ^ 15 + 63)) }) (cel (.vec 0) (.con 0) true) 0 63 := by
  refine ⟨?_, ?_, ?_, ?_⟩
  · unfold NamesCell; decide +kernel
  · exact ⟨by decide +kernel, fun b hb => by have : base.curG.blocked = [] := by decide +kernel
                                             rw [this] at hb; cases hb⟩
  · unfold NamesCell; decide +kernel
  · unfold NamesCell; decide +kernel
/-- Configurations at the ends of their ranges: the pair of words each CELLCFG reads. -/
theorem wit_CellConfigurations : let c0 := fun (u : List Nat) => src (withU u) (withU u).curG 0 (.uni 4) 0
    let c1 := fun (u : List Nat) => src (withU u) (withU u).curG 0 (Opnd.plus (.uni 4) 1) 0
    (c1 [0, 0, 0, 0, 7, 0] = 0) ∧ ((c0 [0, 0, 0, 0, 0x7FFFFFFF, 0]).toNat = 0x7FFFFFFF ∧ c1 [0, 0, 0, 0, 0x7FFFFFFF, 0] = 0) ∧
    (c0 [0, 0, 0, 0, 256, 9]).toNat = 256 ∧
    (let c0 := (c0 [0, 0, 0, 0, 65528, 1 + 2 ^ 17]).toNat; let c1 := (c1 [0, 0, 0, 0, 65528, 1 + 2 ^ 17]).toNat
     c0 % 8 = 0 ∧ 1 ≤ c1 % 2 ^ 13 ∧ c1 % 2 ^ 13 ≤ 4096 ∧ 1 ≤ c1 / 2 ^ 17 ∧ (c1 / 2 ^ 13 % 16 + 1) * (c1 / 2 ^ 17) ≤ c1 % 2 ^ 13 ∧
       c0 + 8 * (c1 % 2 ^ 13) ≤ (base.gridOf base.cur.slot).k.scratch) := by decide +kernel
def ringCell : Cell := { Cell.reset with kind := .ring, w0 := 3, w1 := 1, w2 := 4, released := [2] }
def semCell : Cell := { Cell.reset with kind := .sem, w0 := 5 }
def barCell : Cell := { Cell.reset with kind := .bar, w0 := 2, w1 := 3, w2 := 0x10 }
def queueCell (n : Word) : Cell := { Cell.reset with kind := .queue, w0 := n, w1 := 64, w2 := 4 + 1 * 2 ^ 13 + 2 * 2 ^ 17, allow := [(0, 2), (1, 2)] }
theorem wit_BoundRing : let s := withC ringCell; ((s.team 0).cell 63).kind = .ring ∧ ((s.team 0).cell 63).released.length ≤ 256 := by decide +kernel
theorem wit_BoundQueue : let s := withC (queueCell 1); let c := (s.team 0).cell 63; c.kind = .queue ∧ (1 : Word).toNat < c.producers ∧ 1 ≤ c.cap ∧ c.headx < c.cap := by
  decide +kernel
theorem wit_CellOperations : let s := withC barCell; NamesCell s (cel (.con 63) (.con 1) false .rel) 0 63 ∧ Released s true .system ∧ NobodyWaits s 0 63 ∧
    ((s.team 0).cell 63).kind = .bar ∧ ((withC semCell).team 0).cell 63 = semCell ∧
    1 ≤ (src s s.curG 0 (.con 1) 0).toNat ∧ (src s s.curG 0 (.con 4) 0).toNat ≤ ringCell.w2.toNat % 512 := by
  refine ⟨by unfold NamesCell; decide +kernel, by unfold Released NotDirty; decide +kernel, ⟨by decide +kernel, fun b hb => ?_⟩, by decide +kernel⟩
  have : (withC barCell).curG.blocked = [] := by decide +kernel
  rw [this] at hb; cases hb
/-- The wait conditions hold in one state and fail in another. -/
theorem wit_WaitConditions : 0 ≤ (semCell.w0 - 5).toInt ∧ ¬0 ≤ (semCell.w0 - 6).toInt ∧ barCell.w2 ≠ 0x0F ∧ ¬(barCell.w3.toNat % 256 ≠ 0 ∨ barCell.w2 ≠ 0x10) ∧
    0 < (ringCell.w0 - 2).toInt ∧ ¬0 < (ringCell.w0 - 3).toInt ∧ 0 < (ringCell.w1 + BitVec.ofNat 32 (ringCell.w2.toNat % 512) - 4).toInt ∧
    ¬0 < (ringCell.w1 + BitVec.ofNat 32 (ringCell.w2.toNat % 512) - 5).toInt := by decide +kernel
theorem wit_Queues : let c := queueCell 0; c.kind = .queue ∧ 1 ≤ c.cap ∧ c.headx < c.cap ∧ 1 < c.producers ∧ 0 < Tab.get 0 c.allow 1 ∧
    Tab.get 0 (queueCell 4).allow 2 = 0 ∧ c.w0 = 0 ∧ (queueCell 4).w0 ≠ 0 := by decide +kernel
/-- The misuses of R303, each apart from those before it. -/
theorem wit_CellMisuse : let n := fun (w : Nat) => (Machine.cellName (withU [w]) (cel (.uni 0) (.con 0))).toNat
    NoRoutine base.curG ∧ ((cel (.uni 0) (.con 0) true).huse = true ∧ (base.curG.hreg 3).getLsbD 15 = false) ∧ 2 ^ 11 ≤ n 2048 ∧
    (n 64 / 2 ^ 10 % 2 = 0 ∧ n 64 / 64 % 16 ≠ 0) ∧ (n (1024 + 64) / 2 ^ 10 = 1 ∧ n (1024 + 64) / 64 % 16 ≥ kern.clw * kern.clh ∧ n (1024 + 64) % 64 < kern.cells) ∧
    semCell.kind ≠ .bar ∧ (src base base.curG 0 (.con 0) 0 = 0) ∧ (queueCell 0).producers ≤ 2 ∧ (src base base.curG 0 (.con 4) 0).toNat % 8 ≠ 0 := by
  refine ⟨by unfold NoRoutine; decide +kernel, by decide +kernel⟩
/-- A waiter whose cell answered, one whose cell changed kind, one that goes on waiting. -/
def waiter (sat : Option Word) (wrong : Nat) : Waiter := ⟨9, 0, 0xFF, 0xFF, 0, 63, 63, .sem 5 false, .uni 8, none, 1, sat, wrong⟩
theorem wit_Waiters : ∀ w ∈ [waiter (some 5) 0, waiter none 6, waiter none 0],
    let s := { withG fun g => { g with blocked := [waits (.cell 9) 0xFF] } with waiters := [w] }
    s.waiters.find? (fun x => x.ticket == w.ticket && x.slot == 0) = some w ∧ (∀ x ∈ s.waiters, x.ticket ≠ w.ticket → x.sat = none) ∧ w.acq = none ∧ NoRoutine (s.group 0) := by
  unfold NoRoutine; decide +kernel

/-- Shelf 5 of the team, in logical slot 1, and its macros. -/
def shelf (st : ShelfSt) (fmt rows cols : Nat) : Shelf := { st, src := 64, fmt, nrl := false, m0 := 1, nm := 1, nrows := rows, klen := cols, ffp := none }
def withS (x : Shelf) (s : State := base) : State := withT (fun t => { t with shelves := Tab.set Shelf.reset [] 5 x, macs := [(0, 0), (1, 1)] }) s
def mat (b : Opnd) : MatOps := ⟨.vec 32, .vec 8, b, .con 0, 0, 0, false, 0, false, false⟩
theorem wit_Matrix : let s := withU [5 + 16 * 1 + 2 ^ 16 * 1] (withS (shelf .ready 1 32 32)); let o := mat (.uni 0)
    let sel := (src s s.curG 0 o.b 0).toNat; let x := (s.team 0).shelf (sel % 16)
    o.tq = false ∧ x.st = .ready ∧ x.fmt = 1 ∧ 16 * (sel / 16 % 2 ^ 12) + 16 = x.nrows ∧ (sel / 2 ^ 16 % 2 ^ 10 + 1) * (formatRow 1).2.1 = x.klen ∧
    x.klen % (formatRow 1).2.1 = 0 ∧ s.poisonScr = [] ∧ (s.core 0).mapout = [] ∧
    ∀ r < x.nrows, let b := (planesOf 1 x.nrows x.klen).bands + 2 * (r / 64)
      isFinite (fmtB16.decode ((s.readLoc ((s.team 0).scrLoc (65536 + b))).toNat + 256 * (s.readLoc ((s.team 0).scrLoc (65536 + b + 1))).toNat)) = true := by decide +kernel
theorem wit_MatrixChecks : NoRoutine base.curG ∧ activeLanes base hdr ≠ [] ∧ (base.team 0).shelf 0 = Shelf.reset ∧
    ((withS (shelf .loading 1 32 32)).team 0).shelf 5 = shelf .loading 1 32 32 ∧ ((withG fun g => { g with q := [(3, 0)] }).curG.qreg 3).getLsbD 63 = false := by
  exact ⟨by unfold NoRoutine; decide +kernel, by decide +kernel⟩
theorem wit_TilePredicates : (∃ i, (⟨.spc 9, .uni 2, .vec 0, 0⟩ : TileOps).a = .uni i) ∧ (⟨.uni 254, .spc 9, .vec 0, 0⟩ : TileOps).d = .uni 254 ∧ (254 : BitVec 8).toNat < 255 :=
  ⟨⟨2, rfl⟩, rfl, by decide⟩
/-- A descriptor at address 64: format 1, slot 1, one macro, 16 rows of 16 columns from address 0; and the state whose memory holds it. -/
def desc : Nat := 1 * 2 ^ 64 + 1 * 2 ^ 80 + 1 * 2 ^ 88 + 16 * 2 ^ 96 + 16 * 2 ^ 128
def putAt (a n v : Nat) (s : State := base) : State := { s with mem := (leBytes n v).zipIdx.foldl (fun m x => Tab.set 0 m (a + x.2) x.1) s.mem }
def shf (b : Opnd) : ShelfOps := ⟨.vec 0, .uni 0, b, false, 63⟩
theorem wit_Station : let s := putAt 64 64 desc (withU [64, 0]); let i := (src s s.curG 0 (.con 5) 0).toNat; let tm := s.team 0
    activeLanes s hdr ≠ [] ∧ i ≤ 15 ∧ (tm.shelf i).st = .free ∧ PlainReads s ∧ ReadsAs s 64 64 desc ∧ descOk tm (s.grid tm.grid).k.scratch desc = true ∧
    s.stations tm.core = [] ∧ tm.used = true ∧ tm.st = .running ∧ s.cur.slot ∈ tm.slots ∧
    (∀ m ∈ tm.macs, m.1 < (descShelf desc).m0 ∨ (descShelf desc).m0 + (descShelf desc).nm ≤ m.1) ∧
    (descShelf desc).nm ≤ (s.macroOrder tm.core false).length ∧ s.cur.rep = none :=
  ⟨by decide +kernel, by decide +kernel, by decide +kernel, by unfold PlainReads NoOlderAcquire; decide +kernel, ⟨by decide, 64, by decide +kernel⟩, by decide +kernel⟩
theorem wit_UnstatAndWload : let s := withC semCell (withS (shelf .ready 1 16 16))
    ((s.team 0).shelf 5).st ≠ .free ∧ ((s.team 0).shelf 5).st ≠ .loading ∧ s.loadOf 0 5 = none ∧ s.shelfRead 0 5 = false ∧ s.stations 0 = [] ∧ SignalCell s 63 ∧
    ¬SignalCell s 62 := by unfold SignalCell; decide +kernel
theorem wit_ShelfTraps : NoRoutine base.curG ∧ 15 < (src base base.curG 0 (.con 16) 0).toNat ∧ ((base.team 0).shelf 5).st = .free ∧
    srcPair (withU [32, 0]) (withU [32, 0]).curG 0 (.uni 0) 0 % 2 ^ 56 % 64 ≠ 0 := by exact ⟨by unfold NoRoutine; decide +kernel, by decide +kernel⟩
def cmd0 (kind : CmdKind) (st : CmdSt) (words : List Word) : Cmd :=
  ⟨8, kind, 0, 0, 0, 0, 0, words, st, 0, 0, 0, 0, 0, 0, 5, 63, 0, 0, 0, [], [], [], none⟩
/-- A load that an UNSTAT cancels, and a shelf that a tile task reads. -/
theorem wit_UnstatOfALoad : let c := cmd0 .wload .accepted []; let s := { withC semCell (withS (shelf .loading 1 16 16)) with cmds := [c] }
    ((s.team 0).shelf 5).st ≠ .free ∧ s.loadOf 0 5 = some c ∧ c.kind = .wload ∧ c.aux1 < 64 ∧ s.shelfRead 0 5 = false ∧ s.stations 0 = [] := by decide +kernel
theorem wit_ShelfBeingRead : let s := { withC semCell (withS (shelf .ready 1 16 16)) with cmds := [{ cmd0 .tile .running (List.replicate 16 0) with aux0 := 0, aux1 := 5, aux2 := 1 }] }
    ((s.team 0).shelf 5).st ≠ .free ∧ ((s.team 0).shelf 5).st ≠ .loading ∧ s.shelfRead 0 5 = true ∧ s.loadOf 0 5 = none ∧ SignalCell s 63 := by unfold SignalCell; decide +kernel
/-- A WLOAD of an image of 256 + 2 bytes, nine sectors, from address 64 = device byte 64. -/
theorem wit_WloadComplete : let s := { withS (shelf .loading 1 16 16) with cmds := [cmd0 .wload .accepted []] }; let c := cmd0 .wload .accepted []
    let x := (s.team 0).shelf 5; let len := (planesOf x.fmt x.nrows x.klen).bands + 2 * ((x.nrows + 63) / 64)
    s.loadOf 0 5 = some c ∧ c.aux0 = 5 ∧ c.aux1 < 64 ∧ c.aux2 = 0 ∧ c.pos = 0 ∧ c.data = [] ∧ x.fmt = 1 ∧ x.src % 64 = 0 ∧ s.cmdPaused c = false ∧ s.cmdReady c = true ∧
    DevRange s c.core c.pasid 0 x.src 288 64 ∧ (len + 31) / 32 * 32 = 288 := by
  unfold DevRange; decide +kernel
theorem ownBytes_of {t : Team} {o n : Nat} (h : ∀ i < n, t.scrLoc (o + i) = .scr t.core (o + i)) : OwnBytes t o n := fun i j hi hj hij => by
  rw [h i hi, h j hj]; simp [byteCell]; omega
theorem wit_OwnBytes : OwnBytes (base.team 0) 0 65536 := ownBytes_of fun i hi => by
  have h : base.team 0 = team0 := by decide +kernel
  have e : i / 65536 = 0 := Nat.div_eq_of_lt hi
  rw [h]; simp [Team.scrLoc, team0, e, Nat.mod_eq_of_lt hi, Team.reset]
theorem wit_ShelfBytes : OwnBytes ((withS (shelf .loading 1 16 16)).team 0) 65536 288 := ownBytes_of fun i hi => by
  have h : ((withS (shelf .loading 1 16 16)).team 0).core = 0 ∧ ((withS (shelf .loading 1 16 16)).team 0).macs.find? (fun m => m.1 == 1) = some (1, 1) ∧
    (((withS (shelf .loading 1 16 16)).team 0).st == .stopped) = false := by decide +kernel
  have e : (65536 + i) / 65536 = 1 := by omega
  simp only [Team.scrLoc, h.2.2, e, h.2.1, h.1]
  simp; omega
theorem wit_StationGranted : let b := waits (.station 4 5 desc) 0xFF; let s := withG fun g => { g with blocked := [b] }; let w := s.team 0
    s.stations (slotCore 0) = [(0, b, 4, 5, desc)] ∧ (w.shelf 5).st = .free ∧ descOk w (s.grid w.grid).k.scratch desc = true ∧ w.core = slotCore 0 ∧
    (∀ m ∈ w.macs, m.1 < (descShelf desc).m0 ∨ (descShelf desc).m0 + (descShelf desc).nm ≤ m.1) ∧ (descShelf desc).nm ≤ (s.macroOrder w.core false).length := by decide +kernel
theorem wit_UnstatRelease : let b := waits (.unstat 5) 0xFF; let s := withG (fun g => { g with blocked := [b] }) (withS (shelf .ready 1 16 16))
    (s.group 0).blocked = [b] ∧ s.stations (slotCore 0) = [] ∧ s.shelfRead 0 5 = false ∧
    { s with cmds := [{ cmd0 .tile .running (List.replicate 16 0) with aux0 := 0, aux1 := 5, aux2 := 1 }] }.shelfRead 0 5 = true := by decide +kernel
/-- Streams: a header at 64 of four rows whose offsets and indices lie behind it; two streams of one element each. -/
theorem wit_MaskHeader : let s := putAt 128 2 9 (putAt 80 8 (2 ^ 32) (putAt 64 16 (1 + 128 * 2 ^ 64) (withU [64, 0])))
    PlainReads s ∧ (∃ hd, ReadsAs s 64 16 hd ∧ hd % 2 ^ 32 = 1 ∧ hd / 2 ^ 64 % 2 ^ 56 = 128) ∧ ReadsAs s 80 4 0 ∧ ReadsAs s 84 4 1 ∧ ReadsAs s 128 2 9 :=
  ⟨by unfold PlainReads NoOlderAcquire; decide +kernel, ⟨_, ⟨by decide, 64, by decide +kernel, by decide +kernel, rfl⟩, by decide +kernel⟩, ⟨by decide, 80, by decide +kernel⟩,
    ⟨by decide, 84, by decide +kernel⟩, ⟨by decide, 128, by decide +kernel⟩⟩
theorem wit_Isect : let s := putAt 64 4 7 (putAt 128 4 7 (withU [64, 0, 1, 0, 128, 0, 1, 0, 256, 0, 1])); let p : IsectOps := ⟨.vec 253, .uni 0, .uni 4, .uni 8, true⟩
    PlainReads s ∧ (src s s.curG 0 (Opnd.plus p.a 2) 0).toNat = 1 ∧ ReadsAs s (srcPair s s.curG 0 p.a 0 % 2 ^ 56) 4 7 ∧ ReadsAs s (srcPair s s.curG 0 p.b 0 % 2 ^ 56) 4 7 ∧
    (let a := srcPair s s.curG 0 p.c 0 % 2 ^ 56; a % 4 = 0 ∧ s.look 0 0 a 1 = .hit (.dev 256) ∧ s.look 0 0 64 0 ≠ .hit (.dev 256) ∧ s.look 0 0 128 0 ≠ .hit (.dev 256)) ∧
    (src s s.curG 0 (Opnd.plus p.d 2) 0).toNat ≤ (src s s.curG 0 (Opnd.plus p.c 2) 0).toNat :=
  ⟨by unfold PlainReads NoOlderAcquire; decide +kernel, by decide +kernel, ⟨by decide +kernel, 64, by decide +kernel⟩, ⟨by decide +kernel, 128, by decide +kernel⟩, by decide +kernel⟩

/-! Predicted rows and engines. -/
def putScr (o n v : Nat) (s : State := base) : State := { s with scr := (leBytes n v).zipIdx.foldl (fun m x => Tab.set 0 m (o + x.2) x.1) s.scr }
def ffp (imm : Word) : FfpOps := ⟨.vec 0, .vec 16, .uni 0, false, imm⟩
/-- A list of 32 rows with room for two entries at offset 64, none used; threshold 0. -/
theorem wit_RowSelection : let s := putScr 64 16 (2 * 2 ^ 32 + 32 * 2 ^ 64) (withU [64, 31, 0])
    let wordOf := fun (off : Nat) => leNat ((List.range 4).map fun i => s.readLoc ((s.team 0).scrLoc (off + i)))
    let l := (src s s.curG 0 (.uni 0) 0).toNat
    activeLanes s hdr ≠ [] ∧ l % 16 = 0 ∧ l + 16 + 4 * ((wordOf (l + 8) + 31) / 32) + 4 * wordOf (l + 4) ≤ 65536 ∧ wordOf (l + 8) = 32 ∧ wordOf l ≤ wordOf (l + 4) ∧
    s.poisonScr = [] ∧ s.curG.sq = [] ∧ { s with groups := storing.groups }.curG.sq ≠ [] ∧ l + 16 ≤ kern.scratch := by decide +kernel
/-- The list area is the team's own, by `wit_OwnBytes`. -/
theorem wit_RowCommands : let s := withC semCell (withS (shelf .ready 0 16 32) (withU [64, 0, 0, 49152, 49152, 65536 - 16384, 0, 0, 0, 16]))
    SignalCell s ((ffp 63).imm.toNat % 64) ∧ ¬SignalCell s 62 ∧ 49152 + 16384 ≤ kern.scratch ∧ ((s.team 0).shelf 5).fmt = 0 ∧
    ((s.team 0).shelf ((ffp 0x53F).imm.toNat / 256 % 16)).st ∈ [ShelfSt.empty, .ready, .failed] ∧ NoRoutine s.curG ∧
    (src s s.curG 0 (.uni 9) 0).toNat % 16 = 0 := by unfold SignalCell NoRoutine; decide +kernel
/-- A check whose record (all zero) is malformed, one without a translation, one past its last row, one whose list overflowed. -/
theorem wit_Checks : let c := cmd0 .ffpbnd .accepted [64, 0]; let s := { base with cmds := [c] }; let e := cmd0 .ffpbnd .accepted [0, 1]
    s.cmds.find? (fun x => x.id == c.id) = some c ∧ s.cmdPaused c = false ∧ s.cmdReady c = true ∧ DevRange s 0 0 0 64 64 64 ∧ s.poisonScr = [] ∧
    leNat (s.devBytes 64 64) / 2 ^ 64 % 2 ^ 24 < 16 ∧ ((asCmd { base with cmds := [e] } e.id).agentXl 0 0 (wordsNat e.words) 0).1 = .bad 6 := by
  unfold DevRange; decide +kernel
/-- A layer of 16 rows of 32 columns from address 64, and two lists of 16 rows with room for two entries: row 3 replayed. -/
def layered (c : Cmd) : State :=
  putScr 512 24 (1 + 2 * 2 ^ 32 + 16 * 2 ^ 64 + 2 ^ 131 + 3 * 2 ^ 160) (putScr 256 16 (2 * 2 ^ 32 + 16 * 2 ^ 64)
    (putAt 64 64 (64 + 16 * 2 ^ 64 + 32 * 2 ^ 96) { withS (shelf .loading 0 16 32) with cmds := [c] }))
theorem wit_LayerRead : ∀ kind ∈ [CmdKind.ffpbnd, .ffpfch], let c := cmd0 kind .accepted [64, 0, 256, 512, 1024, 0, 0, 16]; let s := layered c
    let d := 64 + 16 * 2 ^ 64 + 32 * 2 ^ 96; let at_ := fun (o : Nat) => leNat ((List.range 4).map fun i => s.readLoc ((s.team 0).scrLoc (o + i)))
    s.cmds.find? (fun x => x.id == c.id) = some c ∧ s.cmdPaused c = false ∧ s.cmdReady c = true ∧ s.poisonScr = [] ∧ DevRange s 0 0 0 64 64 64 ∧ leNat (s.devBytes 64 64) = d ∧
    (∀ o ∈ [256, 512], at_ (o + 8) = 16 ∧ at_ o ≤ at_ (o + 4) ∧ at_ (o + 4) = 2 ∧ at_ (o + 12) = 0) ∧ ((s.team 0).shelf 5).klen = 32 ∧ at_ 256 = 0 ∧ at_ 512 = 1 ∧ at_ (512 + 20) = 3 ∧
    16 ≤ ((s.team 0).shelf 5).nrows := by unfold DevRange; decide +kernel
/-- The gather of row 3: its codes, its scales and its band can be read. -/
theorem wit_GatherOfARow : let c := { cmd0 .ffpfch .running [64, 0, 256, 512, 1024] with data := [64, 0, 16, 32, 0, 0, 3] }; let s := layered c
    6 ≤ c.data.length ∧ c.pos ≤ c.data.length - 6 ∧ s.cmdPaused c = false ∧ s.cmdReady c = true ∧ c.aux1 < 64 ∧ (planesOf 0 16 32).scales = 256 ∧ (planesOf 0 16 32).bands = 320 ∧
    DevRange s 0 0 0 (64 + 3 * 16) 16 112 ∧ DevRange s 0 0 0 (320 + 3 * 4) 4 332 ∧ DevRange s 0 0 0 (384 + 2 * (3 / 64)) 2 384 := by unfold DevRange; decide +kernel
theorem wit_CheckEnds : let c := { cmd0 .ffpbnd .running [64, 0, 0, 64] with data := [64, 0, 16, 32, 7, 1] }; min (c.words.getD 7 0).toNat (c.data.getD 2 0).toNat ≤ c.pos ∧
    leNat ((List.range 4).map fun i => (putScr 76 4 1).readLoc ((base.team 0).scrLoc (64 + 12 + i))) % 2 = 1 := by decide +kernel
theorem wit_Gathers : let c := { cmd0 .ffpfch .running [64, 0, 0, 0, 64] with data := [0, 1, 0, 2, 0, 0, 9], pos := 0 }; let s := { base with cmds := [c] }
    let from_ := wordsNat (c.data.take 2) + (c.data.getD 6 0).toNat * ((c.data.getD 3 0).toNat / 2)
    c.aux1 < 64 ∧ c.pos < c.data.length - 6 ∧ 2 ≤ (c.data.getD 3 0).toNat ∧ from_ < 2 ^ 56 ∧ ((asCmd s c.id).agentXl 0 0 from_ 0).1 = .bad 6 := by decide +kernel
theorem wit_SkippedRows : let codes : List Byte := [0xE0]; let S : List Word := [0x3F800000]; let v : Nat → ℚ := fun _ => 1 / 8
    codes.length = S.length ∧ Exact.le (f32 (bndOf 0x3F80 (bndSum codes S 0))) (f32 0x41000000) = true ∧ isFinite (f32 0x41000000) = true ∧
    ∀ b w, S[b]? = some w → isFinite (f32 w) = true ∧ ((List.range 8).map fun i => |v (8 * b + i)|).sum ≤ Exact.val (f32 w) := by
  refine ⟨rfl, by decide +kernel, by decide +kernel, fun b w h => ?_⟩
  have e : f32 0x3F800000 = .fin false 8388608 1 (-23) := by decide +kernel
  cases b with
  | succ b => simp at h
  | zero =>
    simp only [List.getElem?_cons_zero, Option.some.injEq] at h
    subst h
    rw [e]
    refine ⟨rfl, ?_⟩
    simp only [Exact.val, finVal, List.range_succ, List.range_zero, List.map_append, List.map_cons, List.map_nil, List.sum_append, List.sum_cons, List.sum_nil]
    norm_num [abs_of_pos]
def eng : EngOps := ⟨.uni 4, .uni 8, .spc 9, true, 63⟩
theorem wit_EngineCommands : let s := withU (List.replicate 16 0); let tm := s.team 0; 4096 ≤ (s.grid tm.grid).k.scratch ∧
    ((List.range 8).map fun i => src s s.curG 0 (Opnd.plus eng.a i) 0) = List.replicate 8 0 ∧ (tm.qtail - tm.qhead).toNat < 112 ∧ (∃ i, eng.d = .uni i) :=
  ⟨by decide +kernel, by decide +kernel, by decide +kernel, _, rfl⟩
theorem wit_TilePost : let s := withU [0, 0, 0, 0, 0, 0, 0, 0, 64, 0]; PlainReads s ∧ ReadsAs s ((src s s.curG 0 eng.a 0).toNat + 2 ^ 32 * (src s s.curG 0 (Opnd.plus eng.a 1) 0).toNat) 64 0 ∧
    (s.tasks 0).length < 1024 ∧ (s.curG.qreg (opndIdx eng.b - 8)).getLsbD (eng.imm.toNat % 64) = true ∧
    ((withG fun g => { g with q := [(1, 0)] }).curG.qreg (opndIdx eng.b - 8)).getLsbD 63 = false ∧ (src s s.curG 0 eng.a 0).toNat % 64 = 0 :=
  ⟨by unfold PlainReads NoOlderAcquire; decide +kernel, ⟨by decide +kernel, 64, by decide +kernel, by decide +kernel, by decide +kernel⟩, by decide +kernel⟩
theorem wit_EngineTraps : let s := { base with grids := [{ grid0 with k := { kern with scratch := 4095 } }] }; s.grids.length = 1 ∧ (s.grid 0).k.scratch < 4096 ∧
    ¬((base.team 0).cell 62).kind = .sem := by decide +kernel
/-- A copy of 100 bytes from 64 to 4,096 with a granule of one page, and a malformed one. -/
def copyWords (scope : Nat) : List Word := (List.range 8).map fun i => BitVec.ofNat 32 ((64 + 4096 * 2 ^ 64 + scope * 2 ^ 128 + 5000 * 2 ^ 136 + 2 ^ 160 + 2 ^ 176) / 2 ^ (32 * i))
theorem wit_Copies : let c := cmd0 .copy .running (copyWords 2); let s := { base with cmds := [c] }; let x := copyOf c
    s.cmds.find? (fun e => e.id == c.id) = some c ∧ s.cmdPaused c = false ∧ s.cmdReady c = true ∧ (∀ e ∈ s.cmds, e.tid = c.tid → e.queued = true → e.id = c.id) ∧ s.outst = [] ∧
    (∀ e ∈ s.cmds, e.id ≠ c.id → e.owns = []) ∧ c.cnt1 = 0 ∧ c.pins = [] ∧ copyOk c = true ∧ copyOk (cmd0 .copy .accepted (copyWords 1)) = false ∧ x.ssp = 0 ∧ x.dsp = 0 ∧ x.rows = 1 ∧ 1 ≤ x.rowlen ∧ c.pos < x.total ∧
    min x.total ((c.pos / x.granBytes + 1) * x.granBytes) < x.total ∧ min x.total ((4096 / x.granBytes + 1) * x.granBytes) = x.total := by decide +kernel
theorem wit_CopyRanges : let x := copyOf (cmd0 .copy .running (copyWords 2)); DevRange base 0 0 0 x.src x.rowlen x.src ∧ DevRange base 0 0 1 x.dst x.rowlen x.dst ∧
    (x.src + x.rowlen ≤ 8192 ∨ x.dst + x.rowlen ≤ x.src) := by unfold DevRange; decide +kernel
/-- A gather of one row of 32 bytes from the table at 64, its index 0 at offset 0, to offset 32; the command is well formed. -/
def gathCmd : Cmd := { cmd0 .gather .running ((List.range 8).map fun i => BitVec.ofNat 32 ((2 ^ 60 + 2 ^ 59 + 32 * 2 ^ 64 + 2 * 2 ^ 128 + 2 ^ 192 + 2 ^ 252) / 2 ^ (32 * i))) with
  data := (List.range 16).map fun i => BitVec.ofNat 32 ((64 + 1 * 2 ^ 64 + 32 * 2 ^ 96) / 2 ^ (32 * i)) }
theorem wit_Gather : let s := { base with cmds := [gathCmd] }; let y := gathOf gathCmd; let q := kern.scratch - 4096
    gathOk gathCmd = true ∧ gathOk (cmd0 .gather .accepted (copyWords 2)) = false ∧ gathCmd.pos = 0 ∧ gathCmd.cnt0 = 0 ∧ y.gran = 0 ∧ 1 ≤ y.nidx ∧ y.isp = 2 ∧ y.dsp = 2 ∧ 1 ≤ y.rowb ∧
    gathCmd.core < 1000 ∧ s.poisonScr = [] ∧ (s.team 0).shelves = [] ∧ y.idx + 4 * y.nidx ≤ q ∧ y.dst + y.nidx * y.rowb ≤ q ∧ q + 4096 ≤ 2 ^ 21 ∧
    (y.idx + 4 * y.nidx ≤ y.dst ∨ y.dst + y.nidx * y.rowb ≤ y.idx) ∧ y.rmen = false ∧ leNat ((List.range 4).map fun b => s.readLoc ((s.team 0).scrLoc (y.idx + b))) < y.ntab ∧
    DevRange s 0 0 0 y.tbl y.rowb 64 := by
  unfold DevRange; decide +kernel
/-- The same gather before its start, its table descriptor in memory at 0. -/
def gathStarts : State := { base with cmds := [{ gathCmd with st := .accepted, data := [] }], mem := [(0, 64), (8, 1), (12, 32)] }
theorem wit_GatherStart : let c : Cmd := { gathCmd with st := .accepted, data := [] }; let s := gathStarts; let y := gathOf c; let v := leNat (s.devBytes 0 64)
    s.cmds.find? (fun e => e.id == c.id) = some c ∧ s.cmdPaused c = false ∧ s.cmdReady c = true ∧ gathOk c = true ∧ wordsNat c.words % 2 ^ 56 = 0 ∧
    DevRange s c.core c.pasid 0 0 64 0 ∧ tableOk v = true ∧ y.isp = 2 ∧ y.dsp = 2 ∧ c.core < 1000 ∧ (s.team 0).shelves = [] ∧
    y.idx + 4 * y.nidx ≤ kern.scratch - 4096 ∧ y.dst + y.nidx * fieldOf v 96 24 ≤ kern.scratch - 4096 ∧ c.grid = (s.team c.tid).grid := by
  unfold DevRange; decide +kernel
/-- A tile task of one token and one row block on shelf 5, and what its finish asks. -/
def tileWords : List Word := (List.range 16).map fun i => BitVec.ofNat 32 ((64 + 1 * 2 ^ 56 + 2 ^ 60 + 2 ^ 61 + 2 ^ 120 + 4096 * 2 ^ 192 + 64 * 2 ^ 280 + 2 ^ 320 + 2 * 2 ^ 456) / 2 ^ (32 * i))
/-- Shelf 5 with every logical slot of the scratchpad mapped. -/
def withM (x : Shelf) : State := withT (fun t => { t with shelves := Tab.set Shelf.reset [] 5 x, macs := (List.range 32).map fun i => (i, i) })
theorem wit_OwnScratchpad : OwnBytes ((withM (shelf .ready 1 16 16)).team 0) 0 (2 ^ 21) := ownBytes_of fun i hi => by
  have h : ∀ k < 32, ((withM (shelf .ready 1 16 16)).team 0).macs.find? (fun m => m.1 == k) = some (k, k) := by decide +kernel
  have c : ((withM (shelf .ready 1 16 16)).team 0).core = 0 := by decide +kernel
  have r : (((withM (shelf .ready 1 16 16)).team 0).st == .stopped) = false := by decide +kernel
  rw [Nat.zero_add, Team.scrLoc, h (i / 65536) (by omega), c, r]
  simp; omega
def tileCmd (st : CmdSt) : Cmd := { cmd0 .tile st tileWords with aux0 := 0, aux1 := 5, aux2 := 1 }
theorem wit_TileStart : let c := tileCmd .accepted; let s := { withS (shelf .ready 1 16 16) with cmds := [c] }; let x := Machine.tileOf c; let y := (s.team 0).shelf 5
    s.cmds.find? (fun e => e.id == c.id) = some c ∧ s.cmdPaused c = false ∧ s.cmdReady c = true ∧ tileOk c = true ∧ tileOk (cmd0 .tile .accepted (List.replicate 16 0)) = false ∧
    (∀ i < 2, wordsNat c.words / 2 ^ (362 + 12 * i) % 2 ≠ 1) ∧ s.clusterTeams 0 = [0] ∧ (y.src = x.shsrc ∧ y.fmt = x.fmt ∧ 16 * (x.rb0 + x.nrb) ≤ y.nrows ∧ y.st = .ready) ∧
    ∀ u ∈ base.clusterTeams 0, ∀ i < 16, ((base.team u).shelf i).src ≠ x.shsrc := by decide +kernel
theorem wit_TileFinish : let c := tileCmd .running; let s := { withM (shelf .ready 1 16 16) with cmds := [c] }; let x := Machine.tileOf c; let y := (s.team 0).shelf 5; let len := (y.klen * shW y.fmt + 7) / 8
    s.cmdPaused c = false ∧ x.gran = 0 ∧ x.acc = false ∧ 1 ≤ x.mrows ∧ 1 ≤ x.nrb ∧ s.outst = [] ∧ (s.core 0).mapout = [] ∧ s.poisonScr = [] ∧ shScaled y.fmt = false ∧ x.isp = 3 ∧ x.osp = 3 ∧
    s.mate 0 0 = some 0 ∧ kern.clw = 1 ∧ kern.clh = 1 ∧ kern.scratch ≤ y.m0 * 65536 ∧ 16 * (x.rb0 + x.nrb) ≤ y.nrows ∧
    (planesOf y.fmt y.nrows y.klen).bands + 2 * ((y.nrows + 63) / 64) ≤ y.nm * 65536 ∧ x.inp + (x.mrows - 1) * x.istride + len ≤ kern.scratch ∧
    x.out + (x.mrows - 1) * x.ostride + 64 * x.nrb ≤ kern.scratch ∧ 64 * x.nrb ≤ x.ostride ∧ x.inp + (x.mrows - 1) * x.istride + len ≤ x.out ∧ x.cen = false := by decide +kernel

/-! Launches, graphs and mailboxes: records in the mapped pages. -/
def lrec : Nat := 512 + 2 ^ 64
def krec : Nat := 16 * 2 ^ 64 + 2 ^ 114 + 2 ^ 117 + 8 * 2 ^ 128 + 2 ^ 144 + 2 ^ 150
def records (s : State := base) : State := putAt 512 128 krec (putAt 256 64 lrec s)
def lau (imm : Word := 63) : LaunchOps := ⟨.uni 4, .uni 0, .vec 0, 7, true, false, imm⟩
theorem hubReads_of {s : State} {n v : Nat} (va : Nat) (h : va + n ≤ 2 ^ 56 ∧ (∀ c ∈ chunksOf va n, (s.agentXl hubCore 0 c.1 0).1 = .hit (.dev (va + (c.1 - va))) ∧
    s.poisoned (.dev (va + (c.1 - va))) = false ∧ ∀ e ∈ s.tlb, e.on hubCore 0 (c.1 / 4096) = true → e.res.isOk = true) ∧ leNat (s.devBytes va n) = v) : HubReads s 0 va n v := ⟨va, ⟨h.1, rfl, h.2.1⟩, h.2.2⟩
theorem launchRead_records {s : State} (h : s ∈ [records, records (withU [256, 0]), records (putAt 2048 64 (2112 + 256 * 2 ^ 64) (withU [2048, 0]))]) :
    LaunchRead s 0 256 lrec krec [] 0 := by
  simp only [List.mem_cons, List.not_mem_nil, or_false] at h
  rcases h with rfl | rfl | rfl <;> exact ⟨hubReads_of 256 (by decide +kernel), hubReads_of 512 (by decide +kernel), fun _ _ => ⟨by decide +kernel, by simp⟩,
    fun h => absurd (by decide +kernel) h, by decide +kernel⟩
theorem walk_base {s t : State} (h : s.fld 0x130008 0 21 = 0) (e : t.hub = s.hub) (va : Nat) : t.walk 0 va = s.walk 0 va := by
  have : t.fld 0x130008 0 21 = s.fld 0x130008 0 21 := by simp [State.fld, State.reg, e]
  simp [State.walk, this, h]
theorem wit_LaunchAccepted : let s := records (withU [256, 0]); activeLanes s hdr ≠ [] ∧ s.devRequests < 4096 ∧ LaunchRead s 0 256 lrec krec [] 0 ∧
    HubWrites s 0 (256 + 56) 8 312 ∧ StillThere s 0 (256 + 56) 8 (fun a => 312 ≤ a ∧ a < 312 + 8) :=
  ⟨by decide +kernel, by decide +kernel, launchRead_records (by simp), by unfold HubWrites DevRange; decide +kernel, fun _ _ _ e _ _ => walk_base (by decide +kernel) e _⟩
/-- 4,096 grids that device-side launches asked for and that have not started. -/
theorem wit_LaunchHeld : let s := { withU [256, 0] with grids := List.replicate 4096 { grid0 with src := .team 0 none, started := 0 } }; 4096 ≤ s.devRequests ∧ activeLanes s hdr ≠ [] :=
  ⟨by unfold State.devRequests; rw [List.filter_replicate, if_pos (by decide +kernel), List.length_replicate]; exact Nat.le_add_right _ _, by decide +kernel⟩
/-- A launch whose kernel record is zero has code 0x82 (SHAPE). -/
theorem wit_LaunchRefused : let s := putAt 256 64 lrec base; LaunchRead s 0 256 lrec 0 [] (launchCode s 0 lrec 0 []) ∧ launchCode s 0 lrec 0 [] = 0x82 :=
  ⟨⟨hubReads_of 256 (by decide +kernel), hubReads_of 512 (by decide +kernel), fun _ _ => ⟨by decide +kernel, by simp⟩, fun h => absurd (by decide +kernel) h, rfl⟩, by decide +kernel⟩
def gnode (cellen : Bool) (kind : Nat) : GNode := ⟨kind, 6, 1, 63, cellen, 0, 256, 1, List.replicate 8 0, List.replicate 8 0, some (Machine.launchOf ⟨lrec, 2 ^ 512 - 1⟩)⟩
def sealed1 (cellen : Bool) : Sealed := ⟨5, 0, true, [gnode cellen 3], [], 0, 1⟩
theorem wit_GraphHandles : let s := { withU [5] with sealed := [sealed1 true] }; let u := sealed1 true
    (u.valid = true ∧ u.handle = (src s s.curG 0 (.uni 0) 0).toNat ∧ u.pasid = s.pasidOf s.cur.slot) ∧ (s.gridOf s.cur.slot).pasid = s.pasidOf s.cur.slot ∧
    (∀ n ∈ u.nodes, n.cellen = true → n.cell < (s.gridOf s.cur.slot).k.cells) ∧ { s with sealed := [] }.sealed = [] ∧
    (∃ n ∈ u.nodes, n.cellen = true ∧ ({ s with grids := [{ grid0 with k := { kern with cells := 63 } }] }.gridOf 0).k.cells ≤ n.cell) := by decide +kernel
/-- A graph of one node that signals a cell, read by a group in a routine. -/
def graphed : State := putAt 1152 128 3 (putAt 1024 64 (1 + 1152 * 2 ^ 64) (inRoutine (withU [1024, 0])))
theorem wit_GraphSeal : let s := graphed; (∀ l, l < 64 → inSub s l → (s.curG.lane l).sup = true) ∧ GraphRead s 0 1024 (1 + 1152 * 2 ^ 64) [3] [] ∧
    HubWrites s 0 (1024 + 24) 8 1048 ∧ s.sealed = [] ∧ s.nextHandle < 2 ^ 31 := by
  refine ⟨by decide +kernel, ⟨hubReads_of 1024 (by decide +kernel), by decide +kernel, by decide +kernel, by decide +kernel, by decide, by decide, by decide, by decide +kernel,
    by decide +kernel, fun i n h => ?_, fun _ => 0, by simp⟩, by unfold HubWrites DevRange; decide +kernel, by decide +kernel, by decide +kernel⟩
  cases i with
  | succ i => simp at h
  | zero =>
    simp only [List.getElem?_cons_zero, Option.some.injEq] at h
    subst h
    exact ⟨hubReads_of 1152 (by decide +kernel), by decide, by decide +kernel, by decide +kernel, by decide +kernel, by decide +kernel, by decide +kernel, by decide +kernel, by decide, fun e => by simp [fieldOf] at e⟩
theorem wit_GraphMalformed : let hd := 2 ^ 32; anySet hd [(63, 32), (127, 120), (191, 184), (511, 256)] = true ∧ fieldOf hd 0 32 = 0 ∧ HubReads (putAt 1024 64 hd base) 0 1024 64 hd :=
  ⟨by decide, by decide, hubReads_of 1024 (by decide +kernel)⟩
theorem wit_TriggersAndChunks : let s := putAt 64 32 (4 * 2 ^ 32 + 2 ^ 64 + 2 ^ 80) (withU [64, 0, 0, 0]); Released s true .package ∧ PlainReads s ∧
    srcPair s s.curG 0 (.uni 0) 0 % 2 ^ 56 % 32 = 0 ∧ s.look 0 0 64 1 = .hit (.dev 64) ∧ s.ownedLine 0 = false ∧ s.poisoned (.dev 64) = false ∧
    (loading none).curG.loadsBack (loading none).fresh = true ∧ { loading none with fresh := 3 }.curG.loadsBack 3 = false ∧
    srcPair (withU [63, 0]) (withU [63, 0]).curG 0 (.uni 0) 0 % 2 ^ 56 % 32 ≠ 0 ∧ NoRoutine s.curG := by
  unfold Released NotDirty PlainReads NoOlderAcquire NoRoutine; decide +kernel
/-- A mailbox record at 2,048 with its slot at 2,112 and its handler's launch record at 256; a malformed one. -/
theorem wit_Mailboxes : let s := records (putAt 2048 64 (2112 + 256 * 2 ^ 64) (withU [2048, 0])); let r := 2112 + 256 * 2 ^ 64
    HubReads s 0 2048 64 r ∧ anySet r [(63, 56), (127, 123), (511, 168)] = false ∧ fieldOf r 0 56 % 64 = 0 ∧ LaunchRead s 0 (fieldOf r 64 56) lrec krec [] 0 ∧
    (fieldOf lrec 64 32 = 1 ∧ fieldOf krec 114 3 = 1 ∧ fieldOf krec 117 3 = 1 ∧ 1 ≤ fieldOf krec 150 6) ∧ (s.mbox 0).armed = false ∧ HubWrites s 0 (2048 + 16) 5 2064 ∧
    anySet (2 ^ 56) [(63, 56), (127, 123), (511, 168)] = true := by
  refine ⟨hubReads_of 2048 (by decide +kernel), by decide +kernel, by decide +kernel, ?_, by decide +kernel, by decide +kernel, by unfold HubWrites DevRange; decide +kernel, by decide +kernel⟩
  have e : fieldOf (2112 + 256 * 2 ^ 64) 64 56 = 256 := by decide
  rw [e]; exact launchRead_records (by simp)
def mbox0 (held : List Arrival) : Mbox := { Mbox.reset with armed := true, mrec := 2048, slot := 2112, hrec := 256, held }
theorem wit_Disarm : let s := { base with mboxes := [(0, mbox0 [])] }; let m := s.mbox (src s s.curG 0 (.con 0) 0).toNat
    m.armed = true ∧ m.disarming = false ∧ m.pasid = s.pasidOf s.cur.slot ∧ m.held = [] ∧ m.running = none ∧ (mbox0 [⟨0, []⟩]).held ≠ [] ∧ (s.mbox 1).armed = false ∧
    HubWrites s m.pasid (m.mrec + 16) 5 2064 := by unfold HubWrites DevRange; decide +kernel
theorem wit_Arrival : let m := mbox0 [⟨3, [1, 2]⟩]; let s := { records with mboxes := [(0, m)] }
    s.mbox 0 = m ∧ m.armed = true ∧ m.running = none ∧ LaunchRead s 0 m.hrec lrec krec [] 0 ∧ HubWrites s 0 m.slot 64 2112 ∧ HubWrites s 0 (m.mrec + 16) 5 2064 ∧
    HubWrites s 0 (m.hrec + 56) 8 312 ∧ ∀ va ∈ [m.mrec + 16, m.hrec + 56], StillThere s 0 va 8 fun a => (2112 ≤ a ∧ a < 2112 + 64) ∨ (2064 ≤ a ∧ a < 2064 + 5) :=
  ⟨by decide +kernel, rfl, rfl, ⟨hubReads_of 256 (by decide +kernel), hubReads_of 512 (by decide +kernel), fun _ _ => ⟨by decide +kernel, by simp⟩, fun h => absurd (by decide +kernel) h,
    by decide +kernel⟩, by unfold HubWrites DevRange; decide +kernel, by unfold HubWrites DevRange; decide +kernel, by unfold HubWrites DevRange; decide +kernel, fun _ _ _ _ _ e _ _ => walk_base (by decide +kernel) e _⟩

/-! Launch queues, teams, grids and graph runs. -/
def withR (o : Nat) (v : DWord) (s : State := base) : State := s.setReg o v
theorem wit_QueueRegisters : let s := withR (qreg 63 0x08) 3; let old := (s.reg (qreg 63 0x08)).toNat
    old % 2 = 1 ∧ (base.reg (qreg 63 0x08)).toNat % 2 = 0 ∧ 2 ^ fieldOf old 1 4 < ((3 : BitVec 16).toNat + 65536 - fieldOf (s.reg (qreg 63 0x18)).toNat 0 16) % 65536 ∧
    ((2 : BitVec 16).toNat + 65536 - fieldOf (s.reg (qreg 63 0x18)).toNat 0 16) % 65536 ≤ 2 ^ fieldOf old 1 4 := by decide +kernel
/-- Queue 63 with entry `e` latched at its head, its ring at device address 4,096; privileged where `priv`. -/
def queued (e : Nat) (priv : Bool) (s : State := records) : State :=
  let s1 := withR (qreg 63 0x10) 1 (withR (qreg 63 0) 4096 (withR (qreg 63 0x08) (if priv then 0x403 else 3) s))
  { s1 with queues := [(63, { latched := [(0, leBytes 64 e)], busy := [], go := true })] }
theorem headEntry_of {s : State} {q e : Nat} (bs : List Byte) (h : q < 64 ∧ (s.reg (qreg q 0x08)).toNat % 2 = 1 ∧
    fieldOf (s.reg (qreg q 0x18)).toNat 0 16 ≠ fieldOf (s.reg (qreg q 0x10)).toNat 0 16 ∧
    (s.queue q).latched.find? (fun x => x.1 == fieldOf (s.reg (qreg q 0x18)).toNat 0 16) = some (fieldOf (s.reg (qreg q 0x18)).toNat 0 16, bs) ∧ leNat bs = e ∧
    (s.queue q).go = true ∧ (s.queue q).busy = []) : HeadEntry s q e :=
  ⟨h.1, h.2.1, h.2.2.1, ⟨bs, h.2.2.2.1, h.2.2.2.2.1⟩, fun _ => .inl h.2.2.2.2.2.1, fun _ => h.2.2.2.2.2.2, by rw [h.2.2.2.2.2.2]; simp⟩
def queuedOk (s : State) (e : Nat) : Bool := decide ((s.reg (qreg 63 0x08)).toNat % 2 = 1 ∧
    fieldOf (s.reg (qreg 63 0x18)).toNat 0 16 ≠ fieldOf (s.reg (qreg 63 0x10)).toNat 0 16 ∧
    (s.queue 63).latched.find? (fun x => x.1 == fieldOf (s.reg (qreg 63 0x18)).toNat 0 16) = some (fieldOf (s.reg (qreg 63 0x18)).toNat 0 16, leBytes 64 e) ∧
    leNat (leBytes 64 e) = e ∧ (s.queue 63).go = true ∧ (s.queue 63).busy = [])
theorem head_of {s : State} {e : Nat} (h : queuedOk s e = true) : HeadEntry s 63 e := headEntry_of (leBytes 64 e) ⟨by decide, of_decide_eq_true h⟩
theorem wit_KernelEntry : let e := 256 * 2 ^ 128; let s := queued e false; HeadEntry s 63 e ∧ s.poison = [] ∧ entryWrong e = false ∧ fieldOf e 0 4 = 0 ∧
    LaunchRead s 0 (fieldOf e 128 56) lrec krec [] 0 ∧ HubWrites s 0 (256 + 56) 8 312 ∧ (312 + 8 ≤ s.qSlot 63 0 + 24 ∨ s.qSlot 63 0 + 32 ≤ 312) := by
  refine ⟨head_of (by decide +kernel), by decide +kernel, by decide +kernel, by decide, ?_, by unfold HubWrites DevRange; decide +kernel, by decide +kernel⟩
  have e : fieldOf (256 * 2 ^ 128) 128 56 = 256 := by decide
  rw [e]
  exact ⟨hubReads_of 256 (by decide +kernel), hubReads_of 512 (by decide +kernel), fun _ _ => ⟨by decide +kernel, by simp⟩, fun h => absurd (by decide +kernel) h, by decide +kernel⟩
/-- An entry that waits: its semaphore was satisfied when it was evaluated, or is now; and one of a queue that serves one at a time. -/
theorem wit_WaitingEntry : let e := 2 + 2 ^ 24; HeadEntry (queued e false) 63 e ∧ fieldOf e 24 1 = 1 ∧
    ((BitVec.ofNat 32 ((queued e false).reg (semReg 0)).toNat - BitVec.ofNat 32 (fieldOf e 32 32)).toNat < 2 ^ 31) := ⟨head_of (by decide +kernel), by decide, by decide +kernel⟩
theorem wit_OtherEntries : (∀ e ∈ [1 + 5 * 2 ^ 96, 2, 3, 4 + 5 * 2 ^ 96], ∀ p ∈ [false, true], HeadEntry (queued e p) 63 e ∧ entryWrong e = false ∧
      fieldOf ((queued e p).reg (qreg 63 0x08)).toNat 10 1 = if p then 1 else 0) ∧ (HeadEntry (queued 5 false) 63 5 ∧ entryWrong 5 = true) ∧
    { queued 2 false with sealed := [sealed1 false] }.sealed.find? (fun u => decide (u.valid = true ∧ u.handle = 5 ∧ u.pasid = 0)) = some (sealed1 false) ∧
    (∀ n ∈ (sealed1 false).nodes, n.cellen = false) ∧ ∃ n ∈ (sealed1 true).nodes, n.cellen = true := by
  refine ⟨?_, ?_, by decide +kernel, by decide +kernel, by decide +kernel⟩
  · intro e he p _
    have h : ∀ e ∈ [1 + 5 * 2 ^ 96, 2, 3, 4 + 5 * 2 ^ 96], ∀ p ∈ [false, true], queuedOk (queued e p) e = true ∧ entryWrong e = false ∧
      fieldOf ((queued e p).reg (qreg 63 0x08)).toNat 10 1 = if p then 1 else 0 := by decide +kernel
    obtain ⟨h1, h2, h3⟩ := h e he p (by cases p <;> simp)
    exact ⟨head_of h1, h2, h3⟩
  · exact ⟨head_of (by decide +kernel), by decide +kernel⟩
theorem wit_SealEntry : let e := 3 + 1024 * 2 ^ 128; let s := queued e true graphed; HeadEntry s 63 e ∧ HubReads s 0 (fieldOf e 128 56) 64 (1 + 1152 * 2 ^ 64) ∧ entryWrong e = false ∧
    (1048 + 8 ≤ s.qSlot 63 0 + 24) ∧ s.sealed = [] := by
  have e : fieldOf (3 + 1024 * 2 ^ 128) 128 56 = 1024 := by decide
  refine ⟨head_of (by decide +kernel), ?_, by decide +kernel, by decide +kernel, by decide +kernel⟩
  rw [e]; exact hubReads_of 1024 (by decide +kernel)
/-- A grid that waits to be placed; one of a cluster. -/
def waitingGrid (clw : Nat) : Grid := { Grid.none with
  num := 0, lrec := 256, l := { Launch.none with nteams := 2 }, k := { kern with clw, codelen := 16 }, src := .queue 0 0, st := .waiting, rect := if clw = 2 then [4, 5] else [], resv := [] }
def waiting (clw : Nat) : State := { base with grids := [waitingGrid clw], teams := [], groups := [] }
/-- The same with core 0 alone enabled. -/
def oneCore : State := { waiting 1 with
  cores := ((List.range 200).filter fun c => c != 0 && c % 100 < 96).map fun c => (c, { Core.reset c with en := false }) }
theorem wit_TeamStart : let s := oneCore; let g := waitingGrid 1
    s.best = some (.grid 0) ∧ s.pickCore 0 0 g.k [] 0 true = some 0 ∧ s.assign 0 g.k = some [0] ∧ s.grids.find? (fun y => y.num == 0) = some g ∧ g.k.plen % 4 = 0 ∧
    HubWrites s 0 (g.lrec + 56) 4 312 ∧ HubReads s 0 g.l.param g.k.plen 0 :=
  ⟨by decide +kernel, by decide +kernel, by decide +kernel, by decide +kernel, by decide +kernel, by unfold HubWrites DevRange; decide +kernel, hubReads_of 0 (by decide +kernel)⟩
theorem wit_ClusterReserve : let s := waiting 2; let g := waitingGrid 2; 1 < g.k.clw * g.k.clh ∧ g.started < g.l.nteams ∧ g.faulted = false ∧ 4 ∈ g.rect ∧ 4 ∉ g.resv ∧
    (∀ c ∈ g.rect, (s.core c).en = true) ∧ s.admits 4 0 g.k 0 true = true ∧ s.grids.find? (fun y => y.num == 0) = some g := by decide +kernel
theorem wit_GangAge : let g := { waitingGrid 1 with ageUs := 1 }; let s := { base with grids := [g], us := 201 }; g.ageUs ≠ 0 ∧ g.aged = false ∧ s.grids.find? (fun y => y.num == 0) = some g ∧
    (s.reg 0x120000).toNat % 2 ^ 32 < s.us - (g.ageUs - 1) ∧ { s with us := 200 }.us - (g.ageUs - 1) ≤ (s.reg 0x120000).toNat % 2 ^ 32 := by decide +kernel
def ended : State := withG (fun g => { g with lanes := g.lanes.map fun l => { l with exited := true } }) base
theorem wit_TeamEnd : let s := ended; let x := s.team 0; x.used = true ∧ x.saved = [] ∧ (∀ j ∈ x.slots, (s.group j).sq = [] ∧ ∀ y ∈ (s.group j).lanes, y.exited = true) ∧ s.cmds = [] ∧
    x.shelves = [] ∧ (s.core x.core).l1 = [] ∧ (∀ m, (s.grid x.grid).src ≠ .mbox m) ∧ s.stations x.core = [] := by
  refine ⟨by decide +kernel, by decide +kernel, by decide +kernel, by decide +kernel, by decide +kernel, by decide +kernel, fun m h => ?_, by decide +kernel⟩
  have : (ended.grid (ended.team 0).grid).src = .team 0 none := by decide +kernel
  rw [this] at h; cases h
/-- A grid whose teams have ended, with peers to flush and without; one whose flush waits. -/
def overGrid (rscope : Nat) (peers : Mask) (flushed : Bool) (ack : Mask) : Grid := { grid0 with lrec := 256, l := { Launch.none with nteams := 1, rscope }, ended := 1, peers, flushed, waitAck := ack }
theorem wit_GridRetire : let s := { base with grids := [overGrid 8 2 false 0], teams := [] }; let g := overGrid 8 2 false 0; s.grids.find? (fun y => y.num == 0) = some g ∧ s.gridOver g = true ∧ g.waitAck = 0 ∧ g.regs = [] ∧
    HubWrites s 0 (g.lrec + 56) 4 312 ∧ 8 ≤ endScope g.l ∧ g.flushed = false ∧ g.peers ≠ 0 ∧ (overGrid 8 0 false 0).peers = 0 ∧ s.gridOver (overGrid 8 0 false 0) = true := by
  unfold HubWrites DevRange; decide +kernel
/-- The same grid of a queue whose entry runs, with a signal of a semaphore. -/
theorem wit_QueuedGridRetire : let e : QRun := ⟨7, 0, 4096, 2 ^ 25⟩; let g := { overGrid 8 0 false 0 with src := .queue 63 7 }
    let s := { base with grids := [g], teams := [], msixMask := 0, queues := [(63, { latched := [], busy := [e], go := false })] }
    s.gridOver g = true ∧ g.waitAck = 0 ∧ g.peers = 0 ∧ (s.queue 63).busy.find? (fun y => y.id == 7) = some e ∧ 312 + 4 ≤ e.slot + 24 ∧ fieldOf e.entry 25 1 = 1 ∧
    HubWrites s 0 (g.lrec + 56) 4 312 ∧ s.msixMask.getLsbD 63 = false := by unfold HubWrites DevRange; decide +kernel
theorem wit_FlushTimeout : let g := overGrid 8 2 true 2; let s := { base with grids := [g] }; g.flushed = true ∧ g.waitAck ≠ 0 ∧ s.grids.find? (fun y => y.num == 0) = some g ∧
    s.now - g.flushAt < (s.reg 0x190008).toNat % 2 ^ 32 ∧ (s.reg 0x190008).toNat % 2 ^ 32 ≤ { s with now := 1600000 }.now - g.flushAt := by decide +kernel
/-- A run of two nodes of a kind, the second after the first; a run of one that is ending. -/
def run2 (kind : Nat) (first second : NodeSt) : Run := ⟨4, 0, [gnode false 3, gnode false kind], [(0, 1, false)], .team 0 none, 0, [first, second], false, 0⟩
theorem wit_NodeStart : ∀ kind < 4, let r := run2 kind .done .waiting; let s := { records with runs := [r] }
    s.runs.find? (fun y => y.num == r.num) = some r ∧ r.nodes[1]? = some (gnode false kind) ∧ (∀ y ∈ s.runs, y.num = r.num → y = r) ∧
    r.st[1]? = some .waiting ∧ (∀ e ∈ r.edges, e.2.1 = 1 → r.st[e.1]? = some .done) ∧ (gnode false kind).kind = kind ∧
    (∃ e ∈ (run2 kind .waiting .waiting).edges, e.2.1 = 1 ∧ e.2.2 = false ∧ (run2 kind .waiting .waiting).st[e.1]? ≠ some .done) := by decide +kernel
theorem wit_KernelNode : let s := { records with runs := [run2 0 .done .waiting] }; LaunchRead s 0 256 lrec krec [] 0 ∧ (gnode false 0).l = some (Machine.launchOf ⟨lrec, 2 ^ 512 - 1⟩) ∧
    fieldOf lrec 56 8 = 0 ∧ fieldOf lrec 103 25 = 0 ∧ fieldOf lrec 184 8 = 0 ∧ fieldOf lrec 224 224 = 0 ∧ HubWrites s 0 (256 + 56) 8 312 :=
  ⟨⟨hubReads_of 256 (by decide +kernel), hubReads_of 512 (by decide +kernel), fun _ _ => ⟨by decide +kernel, by simp⟩, fun h => absurd (by decide +kernel) h, by decide +kernel⟩, rfl,
    by decide, by decide, by decide, by decide, by unfold HubWrites DevRange; decide +kernel⟩
theorem wit_NodeComplete : let r := run2 3 (.ending 1) .waiting; r.st[0]? = some (.ending 1) ∧ (∃ j, j ≠ 0 ∧ ∃ z, r.st[j]? = some z ∧ z ≠ .done ∧ ∀ d, z ≠ .failed d) ∧
    (let q : Run := ⟨4, 0, [gnode false 3], [], .team 0 (some 63), 0, [.ending 0], false, 0⟩; q.edges = [] ∧ q.nodes.length = 1 ∧ q.st.length = 1 ∧ q.st[0]? = some (.ending 0)) ∧
    ∀ e ∈ r.edges, e.1 ≠ 1 := ⟨by decide, ⟨1, by decide, .waiting, rfl, by decide, fun _ => by simp⟩, by decide, by decide⟩

/-! Fetch, pre-emption, translation, host accesses and placement. -/
theorem wit_Fetch : let s := withG fun g => { g with fetch := [(false, 0)] }; let k := s.gridOf 0 |>.k; let n := min 192 (12 * k.codelen - 192 * 0)
    (s.group 0).fetch.find? (fun x => x.2 == 0) = some (false, 0) ∧ k.codebase + 192 * 0 + n ≤ 2 ^ 56 ∧ k = (s.grid (s.team (s.group 0).tid).grid).k ∧ n = 192 ∧
    ∀ c ∈ chunksOf (k.codebase + 192 * 0) n, s.look (slotCore 0) (s.pasidOf 0) c.1 2 = .hit (.dev (0 + (c.1 - (k.codebase + 192 * 0)))) ∧
      s.poisoned (.dev (0 + (c.1 - (k.codebase + 192 * 0)))) = false := by decide +kernel
/-- A REP, its target and the target's LIVE word; lanes at repeat 0, and the lanes of a REP that was interrupted at repeat 5. -/
theorem wit_Rep : ∀ k ∈ [0, 5], let lane := { Lane.reset with resumed := decide (k = 5), repk := 5, repAt := 0 }
    let s := withG fun g => { g with ibuf := [⟨false, 0, [0x008700000000000000014F00, 0x100700C01C14030000000080, 0xFFF000000000000000000000], none⟩], lanes := List.replicate 8 lane }
    s.curG.word? s.inSup (s.cur.pc.toNat + 1) = some (.word 0x100700C01C14030000000080) ∧ wSafe 0x100700C01C14030000000080 = true ∧
    s.curG.word? s.inSup (s.cur.pc.toNat + 2) = some (.word 0xFFF000000000000000000000) ∧ (inSub s 0 ∧ (s.curG.lane 0).k0 = k) ∧ ∀ l, l < 64 → inSub s l → k ≤ (s.curG.lane l).k0 := by
  decide +kernel
theorem wit_Rotation : let s := { base with parts := [(0, { Part.reset with pending := [4] })], now := 1024 }
    (s.part 0).pending = 4 :: [] ∧ (∀ a ∈ s.actives 0, a.1 ≠ 4) ∧ s.actives 0 ≠ [] ∧ 1024 ≤ s.now - (s.part 0).lastEnter ∧ { s with now := 1023 }.now - (s.part 0).lastEnter < 1024 := by
  decide +kernel
theorem wit_Sleep : let s := withG fun g => { g with blocked := [waits (.sleep 9)] }; (s.group 0).blocked = [waits (.sleep 9)] ∧ s.now < 9 ∧ 9 ≤ { s with now := 9 }.now := by decide +kernel
/-- A stop asked for by PRECTL, with room for the context and without. -/
def stopping (st : TeamSt) (hard : Bool) : State := withR 0x160008 3 (withT (fun t => { t with byPrectl := true, st, hard }))
theorem wit_StopRequest : let s := stopping .running false; s.prectlWaits 0 = true ∧ s.mates 0 = [0] ∧ s.prectlBusy = true ∧
    (let x := s.team 0; let k := (s.grid x.grid).k; let base := 2048 + k.scratch; let most := (base + k.tthreads / k.width * (256 + k.width * (16 + 32 * k.regs) + 32 * k.uregs) + 65535) / 65536
     most ≤ s.shFree ∧ (withR 0x160008 2 s).shFree < most) := by decide +kernel
theorem wit_Prectl : base.prectlBusy = false ∧ ((base.team 0).used = true ∧ (base.team 0).grid = (0 : Word).toNat) ∧ (base.team 0).st = .running ∧ Tab.wf Team.reset base.teams = true := by decide +kernel
theorem wit_HardPreempt : let s := { stopping .stopping false with now := 8000 }; let x := s.team 0; x.used = true ∧ x.st = .stopping ∧ s.mates 0 = [0] ∧
    (s.reg 0x160010).toNat % 2 ^ 32 ≤ s.now - x.stopAt ∧ ¬((x.byPrectl = true ∧ (s.reg 0x160028).toNat / 2 ^ 34 % 2 = 1) ∨ (s.reg 0x160010).toNat % 2 ^ 32 ≤ { s with now := 7999 }.now - x.stopAt) := by
  decide +kernel
theorem wit_GroupStop : let s := stopping .stopping true; let g := s.group 0; let x := s.team 0; g.tid = 0 ∧ x.used = true ∧ x.st = .stopping ∧ x.hard = true ∧ 0 ∈ x.slots ∧ g.st = .active ∧
    (∃ y ∈ g.lanes, y.exited = false) ∧ s.drained 0 = true := by decide +kernel
def stopped : State := withG (fun g => { g with st := .stopped }) (stopping .stopping true)
theorem wit_ContextSave : let s := stopped; let x := s.team 0; x.used = true ∧ x.st = .stopping ∧ x.slots ≠ [] ∧ x.slots.Nodup ∧ (∀ i ∈ x.slots, (s.group i).st = .stopped ∧ (s.group i).safePt = none) ∧
    s.mustFinish 0 = false ∧ (s.core x.core).l1 = [] := by decide +kernel
def saved : State := { withT (fun t => { t with st := .stopped, slots := [], macs := [], saved := [grp0] }) with
  groups := [], cores := ((List.range 200).filter fun c => c != 0 && c % 100 < 96).map fun c => (c, { Core.reset c with en := false }) }
theorem wit_TeamResume : let s := saved; let x := s.team 0; s.best = some (.resume 0) ∧ s.clusterOf 0 = [0] ∧ s.resumeCores 0 = some [0] ∧
    s.assign 0 (s.grid x.grid).k = some [0] ∧ x.saved.length ≤ [0].length ∧ x.shelves = [] ∧ x.held = [] := by decide +kernel
theorem wit_Watchdog : ∀ why ∈ [Why.unstat 5, .station 4 5 desc, .ffpsel 64 0 [1], .cell 9], let b := waits why; let s := withR 0x160018 1 (withG fun g => { g with blocked := [b], st := .benched }); s.waiters = [] ∧ (s.group 0).blocked = [b] ∧ b.mask.getLsbD 7 = true ∧
    (s.group 0).st = .benched ∧ (s.team 0).st = .running ∧ NoRoutine (s.group 0) ∧ (s.reg 0x160018).toNat % 2 ^ 32 * 1024 ≠ 0 ∧ s.now - b.since < 1024 ∧ 1024 ≤ { s with now := 1024 }.now - b.since := by
  unfold NoRoutine; decide +kernel
/-- Tables for PASID 0 at device addresses 8,192 (context), 16,384, 24,576, 32,768 and 40,960; `leaf` is the last entry of address 0. -/
def tables (leaf : Nat) (s : State := { base with tlb := [] }) : State :=
  putAt 40960 8 leaf (putAt 32768 8 (1 + 5 * 2 ^ 13) (putAt 24576 8 (1 + 4 * 2 ^ 13) (putAt 16384 8 (1 + 3 * 2 ^ 13) (putAt 8192 32 (3 + 2 * 2 ^ 13) (withR 0x130008 1 (withR 0x130000 8192 s))))))
def walkOf (st : WalkSt) : Walk := ⟨0, 0, 0, [((1, 0xFF), true)], st⟩
theorem walkReads_tables {leaf : Nat} (h : leaf ∈ [0, 1, 15 + 2 ^ 16, 17, 2 ^ 52 + 1]) : WalkReads { tables leaf with walks := [walkOf .walk] } 0 0 1 0 40960 := by
  simp only [List.mem_cons, List.not_mem_nil, or_false] at h
  have r : WalkReads { tables leaf with walks := [walkOf .walk] } 0 0 1 3 16384 := by
    have := WalkReads.root (s := { tables leaf with walks := [walkOf .walk] }) (pasid := 0) (va := 0) 8192 (by rcases h with rfl | rfl | rfl | rfl | rfl <;> decide +kernel)
      (by rcases h with rfl | rfl | rfl | rfl | rfl <;> decide +kernel) (by rcases h with rfl | rfl | rfl | rfl | rfl <;> decide +kernel)
      (by rcases h with rfl | rfl | rfl | rfl | rfl <;> decide +kernel)
    rw [show leNat (({ tables leaf with walks := [walkOf .walk] } : State).devBytes 8192 32) = 3 + 2 * 2 ^ 13 by rcases h with rfl | rfl | rfl | rfl | rfl <;> decide +kernel] at this
    exact this
  have t2 := WalkReads.table (va := 0) _ 2 _ (1 + 3 * 2 ^ 13) r (by rcases h with rfl | rfl | rfl | rfl | rfl <;> decide +kernel) (by rcases h with rfl | rfl | rfl | rfl | rfl <;> decide +kernel)
    (by decide) (by decide) (by decide)
  have t1 := WalkReads.table (va := 0) _ 1 _ (1 + 4 * 2 ^ 13) t2 (by rcases h with rfl | rfl | rfl | rfl | rfl <;> decide +kernel) (by rcases h with rfl | rfl | rfl | rfl | rfl <;> decide +kernel)
    (by decide) (by decide) (by decide)
  exact WalkReads.table (va := 0) _ 0 _ (1 + 5 * 2 ^ 13) t1 (by rcases h with rfl | rfl | rfl | rfl | rfl <;> decide +kernel) (by rcases h with rfl | rfl | rfl | rfl | rfl <;> decide +kernel)
    (by decide) (by decide) (by decide)
/-- Walks in each state; the last entries of the walk above are one with V clear, a table, a frame with W and X, a HOST entry, and one with a reserved bit. -/
theorem wit_Walks : ∀ st ∈ [WalkSt.walk, .ats, .again, .pri], let w := walkOf st; let s := { tables 17 with walks := [w] }
    w.on 0 0 0 = true ∧ w ∈ s.walks ∧ (∀ k ∈ s.walks, k.on 0 0 0 = true → k = w) ∧ w.who ≠ [] ∧ (∀ k ∈ s.walks, k.st ≠ .priWait) ∧ s.tlb = [] ∧ s.priCount < 512 ∧
    (w.who.filter fun x => !(if x.2 then true else false)) = [] ∧ (w.who.filter fun x => !(if x.2 then false else true)) ≠ [] ∧
    (∃ k ∈ { s with walks := [w, { walkOf .pri with core := 1 }] }.walks, k.st = .pri ∧ k.pasid = 0 ∧ k.page = 0) ∧
    (w.who.any fun x => x.1.meets (1, 1)) = true ∧ (w.who.any fun x => x.1.meets (3, 1)) = false ∧
    fieldOf (s.reg 0x130008).toNat 0 21 = 1 ∧ fieldOf (base.reg 0x130008).toNat 0 21 ≤ 0 ∧ 8192 / 32 ∉ s.poison ∧ 8192 / 32 ∈ { s with poison := [256] }.poison ∧
    fieldOf 17 4 1 = 1 ∧ anySet 17 [(63, 5)] = false ∧ anySet (2 ^ 52 + 1) [(12, 5), (63, 52)] = true ∧ fieldOf (15 + 2 ^ 16) 13 3 = 0 := by decide +kernel
theorem wit_Invalidations : let s := dirty0; (∀ e ∈ s.tlb, 0 < e.size) ∧ (∀ c, Tab.wf none (s.core c).l1 = true) ∧ s.walks = [] ∧ s.invals = [] ∧ ((∀ c k b, c < 200 → s.l1 c k = some b → c = 0) ∧ (s.l1 0 130).isSome = true ∧
    s.ownedLine (130 / 128) = false) := by
  refine ⟨by decide +kernel, fun c => ?_, by decide +kernel, by decide +kernel, fun c k b hc h => ?_, by decide +kernel⟩
  · by_cases hc : c = 0
    · subst hc; decide +kernel
    · have e : dirty0.cores = [(0, { Core.reset 0 with l1 := [(130, some ⟨7, true, false, .dev 130, 0⟩)] })] := by decide +kernel
      unfold State.core; rw [e]; simp [Tab.get, Ne.symm hc, Core.reset, Tab.wf]
  by_contra hne
  have e : dirty0.cores = [(0, { Core.reset 0 with l1 := [(130, some ⟨7, true, false, .dev 130, 0⟩)] })] := by decide +kernel
  have : (dirty0.core c).l1 = [] := by
    unfold State.core; rw [e]; simp [Tab.get, Ne.symm hne, Core.reset]
  simp [State.l1, this, Tab.get] at h
def inval (fromHost : Bool) : Inval := ⟨9, 0, 0, 16, false, fromHost⟩
/-- An invalidation with nothing under way; one that a load, a store entry or a write on its way to a peer holds back. -/
theorem wit_InvalidationComplete : let s := { base with invals := [inval true] }; s.invals = [inval true] ∧ (∃ o ∈ { s with outst := [⟨7, 1, .write 0, 5⟩] }.outst, o.tag < 9 ∧ o.key / 2 ^ 56 = 0 ∧ o.key / 4096 < 16) ∧ (∀ g ∈ s.groups, g.2.pend = [] ∧ g.2.sq = []) ∧ s.outst = [] ∧
    (∃ g ∈ (loading none).groups, ∃ p ∈ g.2.pend, p.id < 9 ∧ p.pasid = 0) ∧ (∃ g ∈ storing.groups, ∃ e ∈ g.2.sq, e.id < 9 ∧ e.kind = .store storeBytes ∧ ⟨.dev 5, 5, false, false, 7⟩ ∈ storeBytes) := by decide +kernel
theorem wit_HostRegisters : (0x120000, 31, 0) ∈ plainRegisters ∧ (0x190100 + 8 * 63, 4, 0) ∈ plainRegisters ∧ 0x120001 % 8 ≠ 0 ∧
    fieldOf ((withR (treeReg 15) 1).reg (treeReg 15)).toNat 0 1 = 1 ∧ base.fw.getLsbD 0 = true ∧ (0x130000, 51, 13) ∈ plainRegisters ∧ 0x130000 / 0x1000 = 0x130 ∧ 0x120000 / 0x1000 ≠ 0x130 ∧
    base.atPort = [] ∧ HostAcc.wr 0 [0] ∈ { base with atPort := [.wr 0 [0]] }.atPort ∧ base.svStd = true := by decide +kernel
/-- Window 7 of BAR2 open on device address 0, its last bytes reached; windows closed at reset; a line an agent owns. -/
theorem wit_HostWindows : let s := withR (0x170000 + 8 * 7) 1; let off := 8 * 2 ^ 33 - 4; off % 2 ^ 33 + 4 ≤ 2 ^ 33 ∧ off < 2 ^ 36 ∧
    (let win := (s.reg (0x170000 + 8 * (off / 2 ^ 33))).toNat; fieldOf win 0 1 = 1 ∧ fieldOf win 44 8 = 0) ∧ fieldOf (base.reg 0x170000).toNat 0 1 = 0 ∧
    ({ withR 0x170000 1 with cmds := [{ cmd0 .copy .running [] with owns := [3] }] }.ownedLine (3 * 128 / 128) = true) := by decide +kernel
def placed (ps : List (Nat × PageSt)) (ev : Bool) : State := { base with pages := ps, hbmUsed := ps.length, evicting := ev }
def pg (place : Place) (hot : Bool) (acc0 acc1 : Nat) : PageSt := { PageSt.reset with place, hot, acc0, acc1 }
theorem free_of {s : State} {p : Nat} (h : s.cmds = []) (b : s.isBound p = false) : ¬heldPage s p := by
  rintro (x | ⟨c, hc, _⟩)
  · rw [b] at x; cases x
  · rw [h] at hc; cases hc
theorem wit_PageMoves : let s := placed [(3, pg (.hbm 1) true 0 9)] false; Tab.wf PageSt.reset s.pages = true ∧ (∀ q ∈ s.pages, q.1 < 2 ^ 28) ∧ (s.page 3).place = .hbm 1 ∧ ¬heldPage s 3 ∧ (PageSt.reset.place ≠ .hbm 0 ∧ (pg (.hbm 1) false 0 0).due = false ∧ { pg (.hbm 1) false 0 0 with due := true }.due = true) ∧
    s.onStack 7 < 1048576 ∧ s.epoch ≥ s.now / 2 ^ 20 ∧ s.epoch < { s with now := 2 ^ 20 }.now / 2 ^ 20 ∧ 3 * (s.page 3).acc0 < (s.page 3).acc1 ∧ (s.page 3).hot = true :=
  ⟨by decide +kernel, by decide +kernel, by decide +kernel, free_of (by decide +kernel) (by decide +kernel), by decide +kernel⟩
theorem wit_HeldPage : heldPage { placed [(3, pg (.hbm 1) true 0 9)] false with cmds := [{ cmd0 .copy .running [] with owns := [3 * 512 + 511] }] } 3 :=
  .inr ⟨_, List.mem_singleton.2 rfl, .inl ⟨3 * 512 + 511, by decide, by decide⟩⟩
theorem wit_PinnedPage : ownedPage { placed [(3, pg (.hbm 1) true 0 9)] false with cmds := [{ cmd0 .copy .running [] with pins := [3 * 512] }] } 3 :=
  ⟨_, List.mem_singleton.2 rfl, .inr ⟨3 * 512, by decide, by decide⟩⟩
/-- Page 4 goes before page 3, being of a lower priority; a port of the capacity tier has room. -/
theorem evictedNext_4 : EvictedNext (withR 0x180000 0x13 (placed [(3, { pg (.hbm 1) false 0 0 with prio := 1 }), (4, pg (.hbm 2) false 0 0), (5, pg (.cap 0) false 0 0)] true)) 4 := by
  have h : ∀ q, q ≠ 3 → q ≠ 4 → ∀ k, ((withR 0x180000 0x13 (placed [(3, { pg (.hbm 1) false 0 0 with prio := 1 }), (4, pg (.hbm 2) false 0 0), (5, pg (.cap 0) false 0 0)] true)).page q).place ≠ .hbm k := by
    intro q h3 h4 k
    by_cases h5 : q = 5
    · subst h5
      rw [show ((withR 0x180000 0x13 (placed [(3, { pg (.hbm 1) false 0 0 with prio := 1 }), (4, pg (.hbm 2) false 0 0), (5, pg (.cap 0) false 0 0)] true)).page 5).place = .cap 0 by decide +kernel]
      simp
    · have e : (withR 0x180000 0x13 (placed [(3, { pg (.hbm 1) false 0 0 with prio := 1 }), (4, pg (.hbm 2) false 0 0), (5, pg (.cap 0) false 0 0)] true)).page q = PageSt.reset := by
        simp [State.page, withR, State.setReg, placed, Tab.get, Ne.symm h3, Ne.symm h4, Ne.symm h5]
      rw [e]; simp [PageSt.reset]
  refine ⟨⟨⟨2, by decide +kernel⟩, by decide +kernel, by decide +kernel⟩, fun q hq hne => ?_⟩
  obtain ⟨⟨k, hk⟩, _⟩ := hq
  by_cases h3 : q = 3
  · subst h3; exact .inl (by decide +kernel)
  · exact absurd hk (h q h3 hne k)
theorem wit_Promote : let s := withR 0x180000 0x13 (placed [(3, { pg (.hbm 1) false 0 0 with prio := 1 }), (4, pg (.hbm 2) false 0 0), (5, pg (.cap 0) false 0 0)] true)
    (s.page 5).place = .cap 0 ∧ s.freePort = some 0 ∧ s.evicting = true ∧ ¬ownedPage s 5 ∧ ¬ownedPage s 4 ∧ s.onStack 7 < 1048576 ∧ { pg (.cap 0) false 0 0 with prom := true }.prom = true ∧
    (∀ q, EvictedNext s q → evictedBefore s q 5) := by
  refine ⟨by decide +kernel, by decide +kernel, by decide +kernel, fun h => by obtain ⟨c, hc, _⟩ := h; exact absurd hc (by simp [withR, State.setReg, placed, base, State.reset]),
    fun h => by obtain ⟨c, hc, _⟩ := h; exact absurd hc (by simp [withR, State.setReg, placed, base, State.reset]), by decide +kernel, rfl, fun q hq => ?_⟩
  by_cases e : q = 4
  · subst e; exact .inr ⟨by decide +kernel, .inr ⟨by decide +kernel, by decide⟩⟩
  · have := hq.2 4 evictedNext_4.1 (Ne.symm e)
    have h2 := evictedNext_4.2 q hq.1 e
    unfold evictedBefore at this h2; omega

/-! Near-memory nodes. Addresses from 0 are at device addresses from 65,536 on. -/
def near (s : State := base) : State := tables (15 + 2 ^ 16) { s with tlb := [] }
def part3 : NStack := ⟨3, false, false, false, 0, false, 0, 0, 0, 0, false, false, 0, 0, [], [], [], [], [], []⟩
def node0 (ep : Nat) (args : List Nat) (p : NStack) : NNode := ⟨9, 4, 0, 0, 2, ep, args.map (BitVec.ofNat 64), 0, [p], 0, [], false, 0, false⟩
def withN (n : NNode) (s : State := near) : State := { s with nodes := [n] }
def nodeByte (s : State) (va d : Nat) : Bool := match s.walk 0 va with
  | .ok la w _ => formPlace s la == .hit (.dev d) && !s.poisoned (.dev d) && w && !s.ownedLine (d / 128) && decide ((s.cmds.flatMap Cmd.owns).length ≤ 4032)
  | _ => false
theorem nodeRange_of {s : State} {va n d : Nat} (w : Bool) (h : va + n ≤ 2 ^ 56 ∧ va % 4096 = d % 4096 ∧ ∀ c ∈ chunksOf va n, nodeByte s c.1 (d + (c.1 - va)) = true) :
    NodeRange s 0 va n d w := by
  refine ⟨h.1, h.2.1, fun c hc => ?_⟩
  have := h.2.2 c hc
  unfold nodeByte at this
  split at this
  · next la b x e => simp only [Bool.and_eq_true, beq_iff_eq, Bool.not_eq_true', decide_eq_true_eq] at this; exact ⟨la, b, x, e, this.1.1.1.1, this.1.1.1.2, fun _ => ⟨this.1.1.2, this.1.2, this.2⟩⟩
  · cases this
theorem nodeReads_of {s : State} {va n v : Nat} (d : Nat) (h : va + n ≤ 2 ^ 56 ∧ va % 4096 = d % 4096 ∧ ∀ c ∈ chunksOf va n, nodeByte s c.1 (d + (c.1 - va)) = true)
    (e : leNat (s.devBytes d n) = v) : NodeReads s 0 va n v := ⟨d, nodeRange_of false h, e⟩
/-- A node that starts: MERGE with good and with bad arguments, and with RES of the wrong alignment. -/
theorem wit_NearNodeStart : (∀ args ∈ [[0, 0, 1, 0, 0, 0, 0, 2 ^ 57], [0, 0, 1, 1, 0, 0, 0, 2 ^ 57], [0, 0, 1, 0, 0, 0, 0, 0], [0, 0, 1, 0, 0, 0, 0, 2 ^ 57 + 8]],
    let n := node0 6 args part3; let s := withN n; s.nnode 9 = some n ∧ n.part 3 = some part3 ∧ part3.started = false ∧ (s.stackLoad 3).2 < 8 ∧ (∀ m ∈ s.waitsOn 3, m.prio ≤ n.prio) ∧
    NodeRange s 0 (fieldOf (n.arg 7) 0 56 + 24) 8 (65536 + fieldOf (n.arg 7) 0 56 + 24) true) ∧
    (let n := node0 6 [0, 0, 1, 0, 0, 0, 0, 2 ^ 57] part3; fieldOf (n.arg 7) 56 4 = 2 ∧ n.parts.length = 1 ∧ n.arg 2 < 2 ^ (fieldOf (n.arg 1) 8 6 + 1)) := by
  refine ⟨fun args h => ⟨?_, ?_, ?_, ?_, ?_, nodeRange_of true ?_⟩, by decide⟩ <;> revert args <;> decide +kernel
theorem walk_to {u : State} {va : Nat} (f : u.fld 0x130008 0 21 = 1) (g : u.fld 0x130000 13 39 = 1) (z : ∀ l, bits va (16 + 10 * l) 10 = 0)
    (r0 : u.rdTable 8192 32 = some (3 + 2 * 2 ^ 13)) (r3 : u.rdTable 16384 8 = some (1 + 3 * 2 ^ 13)) (r2 : u.rdTable 24576 8 = some (1 + 4 * 2 ^ 13))
    (r1 : u.rdTable 32768 8 = some (1 + 5 * 2 ^ 13)) : u.walk 0 va = walkFrom u va true 0 40960 := by
  have down : ∀ l k, u.rdTable (k * 2 ^ 13) 8 = some (1 + (k + 1) * 2 ^ 13) → k + 1 < 2 ^ 10 → walkFrom u va true (l + 1) (k * 2 ^ 13) = walkFrom u va true l ((k + 1) * 2 ^ 13) := by
    intro l k h hk
    rw [walkFrom, z (l + 1), Nat.mul_zero, Nat.add_zero, h]
    have b0 : bitAt (1 + (k + 1) * 2 ^ 13) 0 = true := by simp [bitAt]; omega
    have b1 : bitAt (1 + (k + 1) * 2 ^ 13) 1 = false := by simp [bitAt]; omega
    have b4 : bitAt (1 + (k + 1) * 2 ^ 13) 4 = false := by simp [bitAt]; omega
    have b5 : bits (1 + (k + 1) * 2 ^ 13) 5 8 = 0 := by simp only [bits]; omega
    have b52 : bits (1 + (k + 1) * 2 ^ 13) 52 12 = 0 := by simp only [bits]; omega
    have b13 : bits (1 + (k + 1) * 2 ^ 13) 13 39 = k + 1 := by simp only [bits]; omega
    simp only [b0, b1, b4, b5, b52, b13]; rfl
  unfold State.walk
  rw [f, g, show 1 * 2 ^ 13 + 32 * 0 = 8192 by decide, r0]
  have e := (down 2 2 r3 (by decide)).trans ((down 1 3 r2 (by decide)).trans (down 0 4 r1 (by decide)))
  exact e
theorem walk_far {s t : State} {va : Nat} (P : Nat → Prop) (hP : ∀ a, P a → 65536 ≤ a) (hub : t.hub = s.hub) (po : ∀ k, (∀ a, P a → a / 32 ≠ k) → t.poison.contains k = s.poison.contains k)
    (me : ∀ a, ¬P a → t.readLoc (.dev a) = s.readLoc (.dev a)) (hs : s.hub = near.hub)
    (rd : ∀ a ∈ [(8192, 32, 3 + 2 * 2 ^ 13), (16384, 8, 1 + 3 * 2 ^ 13), (24576, 8, 1 + 4 * 2 ^ 13), (32768, 8, 1 + 5 * 2 ^ 13)], s.rdTable a.1 a.2.1 = some a.2.2)
    (hv : va < 65536) : t.walk 0 va = s.walk 0 va := by
  have seq : ∀ n a, a + n ≤ 65536 → Tab.getSeq 0 t.mem a n = Tab.getSeq 0 s.mem a n := by
    intro n
    induction n with
    | zero => intros; rfl
    | succ n ih => intro a h; simp only [Tab.getSeq]; rw [ih (a + 1) (by omega)]; exact congrArg (· :: _) (me a fun x => by have := hP a x; omega)
  have H : ∀ a n, a + n ≤ 65536 → 0 < n → t.rdTable a n = s.rdTable a n := fun a n h h0 => by
    unfold State.rdTable State.devBytes
    rw [po (a / 32) (fun x hx => by have := hP x hx; omega), seq n a h]
  have hb : ∀ o l n, t.fld o l n = near.fld o l n ∧ s.fld o l n = near.fld o l n := fun o l n => by simp [State.fld, State.reg, hub, hs]
  have f : near.fld 0x130008 0 21 = 1 := by decide +kernel
  have g : near.fld 0x130000 13 39 = 1 := by decide +kernel
  have z : ∀ l, bits va (16 + 10 * l) 10 = 0 := fun l => by
    exact (congrArg (· % 2 ^ 10) (Nat.div_eq_of_lt (lt_of_lt_of_le hv (by rw [show 65536 = 2 ^ 16 by rfl]; exact Nat.pow_le_pow_right (by decide) (by omega))))).trans (Nat.zero_mod _)
  simp only [List.mem_cons, List.not_mem_nil, or_false, forall_eq_or_imp, forall_eq] at rd
  obtain ⟨r0, r3, r2, r1⟩ := rd
  rw [walk_to ((hb _ _ _).1.trans f) ((hb _ _ _).1.trans g) z ((H _ _ (by decide) (by decide)).trans r0) ((H _ _ (by decide) (by decide)).trans r3)
      ((H _ _ (by decide) (by decide)).trans r2) ((H _ _ (by decide) (by decide)).trans r1),
    walk_to ((hb _ _ _).2.trans f) ((hb _ _ _).2.trans g) z r0 r3 r2 r1, walkFrom, walkFrom, z 0, H _ _ (by decide) (by decide)]
def fin3 : NStack := { part3 with started := true, drawers := [(0, [(0x3F800000, 3)])] }
theorem drawer_one (q : Nat) : fin3.drawer q = if q = 0 then [(0x3F800000, 3)] else [] := by
  by_cases h : q = 0
  · subst h; rfl
  · have e : ((0 : Nat) == q) = false := by simp [Ne.symm h]
    simp [fin3, NStack.drawer, List.find?, h, e]
/-- SCAN of nothing with two queries, ready to write its lists; a stack that failed, and one with its steps given. -/
theorem wit_NearNodeFinish : let n := node0 0 [0, 0, 1, 0, 0, 0, 0, 2 ^ 57] fin3; let s := withN n; let area := 64 + 8 * 2 * 32
    s.nnode 9 = some n ∧ n.part 3 = some fin3 ∧ fieldOf (n.arg 2) 0 2 + 1 = 2 ∧ fin3.fin = false ∧ fin3.started = true ∧ fin3.cause = 0 ∧ fin3.posted = false ∧ n.partOver fin3 = true ∧
    NodeRange s 0 24 8 (65536 + 24) true ∧ NodeRange s 0 0 area 65536 true ∧ StillThere s 0 0 area (fun x => 65536 ≤ x ∧ x < 65536 + area) ∧
    StillThere s 0 24 8 (fun x => 65536 ≤ x ∧ x < 65536 + area) ∧ ∀ q, (fin3.drawer q).length ≤ fieldOf (n.arg 2) 4 8 + 1 := by
  have st : ∀ va k, (∀ c ∈ chunksOf va k, c.1 < 65536) →
      StillThere (withN (node0 0 [0, 0, 1, 0, 0, 0, 0, 2 ^ 57] fin3)) 0 va k (fun x => 65536 ≤ x ∧ x < 65536 + (64 + 8 * 2 * 32)) := fun va k h c hc t e1 e2 e3 =>
    walk_far _ (fun a x => x.1) e1 e2 e3 rfl (by decide +kernel) (h c hc)
  exact ⟨by decide +kernel, by decide +kernel, by decide, by decide, by decide, by decide, by decide, by decide +kernel, nodeRange_of _ (by decide +kernel), nodeRange_of _ (by decide +kernel),
    st _ _ (by decide +kernel), st _ _ (by decide +kernel), fun q => by rw [drawer_one]; split <;> decide⟩
theorem wit_NearNodeComplete : (let n := node0 0 [] { fin3 with fin := true, cause := 5 }; (∀ x ∈ n.parts, x.fin = true) ∧ (withN n).outst = [] ∧ n.ep ≠ 4) ∧
    (∃ x ∈ (node0 0 [] fin3).parts, x.fin = false) ∧ ({ fin3 with cause := 5 }.cause ≠ 0 ∧ { fin3 with cause := 5 }.cause < 0x80) ∧ { fin3 with posted := true }.posted = true ∧
    ∃ o ∈ { near with outst := [⟨7, 1, .cmd 9, 0⟩] }.outst, o.who = .cmd 9 := by decide +kernel

/-- Ids of stack 3: index `u` and the low digit that makes the XOR of the digits 3. -/
def digits (u : Nat) : Nat := (List.range 10).foldl (fun h j => h ^^^ fieldOf u (3 * j) 3) 0
def ids3 (u : Nat) : Nat := 8 * u + (3 ^^^ digits u)
theorem ids3_home (u : Nat) : ids3 u / 8 = u ∧ idHome (ids3 u) = 3 := by
  have small : ∀ l : List Nat, ∀ h < 8, l.foldl (fun h j => h ^^^ fieldOf u (3 * j) 3) h < 8 := by
    intro l
    induction l with
    | nil => exact fun h e => e
    | cons j l ih => exact fun h e => ih _ (Nat.xor_lt_two_pow (n := 3) e (Nat.mod_lt _ (by decide)))
  have d8 : 3 ^^^ digits u < 8 := Nat.xor_lt_two_pow (n := 3) (by decide) (small _ 0 (by decide))
  have q : ids3 u / 8 = u := by unfold ids3; omega
  refine ⟨q, ?_⟩
  have f0 : fieldOf (ids3 u) 0 3 = 3 ^^^ digits u := by unfold fieldOf ids3; omega
  have f : ∀ j, fieldOf (ids3 u) (3 * (j + 1)) 3 = fieldOf u (3 * j) 3 := fun j => by
    unfold fieldOf; rw [show 3 * (j + 1) = 3 + 3 * j by ring, Nat.pow_add, ← Nat.div_div_eq_div_mul, show 2 ^ 3 = 8 by rfl, q]
  have move : ∀ l : List Nat, ∀ a b, l.foldl (fun h j => h ^^^ fieldOf u (3 * j) 3) (a ^^^ b) = a ^^^ l.foldl (fun h j => h ^^^ fieldOf u (3 * j) 3) b := by
    intro l
    induction l with
    | nil => exact fun a b => rfl
    | cons j l ih => exact fun a b => by rw [List.foldl_cons, List.foldl_cons, Nat.xor_assoc, ih]
  unfold idHome
  rw [List.range_succ_eq_map, List.foldl_cons, List.foldl_map]
  simp only [Nat.succ_eq_add_one, f, Nat.mul_zero, f0, Nat.zero_xor]
  rw [show 3 ^^^ digits u = (3 ^^^ digits u) ^^^ 0 by simp, move]
  show 3 ^^^ digits u ^^^ digits u = 3
  rw [Nat.xor_assoc, Nat.xor_self, Nat.xor_zero]
/-- A corpus of eight ids, H16, one coordinate: record 0 of stack 3 at 128, seen at snapshot 1; its vector is `v`, the query 2.0. -/
def corp : Nat := 8 + 2 ^ 48 + 32 * 2 ^ 64 + 128 * 2 ^ 704
def work3 : NStack := { part3 with started := true, posted := true, desc := corp }
def recd (v : Nat) : State := putAt (65536 + 128) 16 (5 * 2 ^ 32) (putAt (65536 + 144) 2 v (putAt (65536 + 192) 2 0x4000 near))
theorem working_of {s : State} {n : NNode} {p : NStack} (h : s.nnode 9 = some n ∧ n.part 3 = some p ∧ p.started = true ∧ p.fin = false ∧ p.cause = 0 ∧ p.stopped = false ∧ n.stopped = false) :
    Working s n p 9 3 := ⟨h.1, h.2.1, h.2.2.1, h.2.2.2.1, h.2.2.2.2.1, h.2.2.2.2.2.1, h.2.2.2.2.2.2, by decide⟩
theorem dist_one : DistRule 0 0 1 0x4000 0x3C00 (some 0x3F800000) := by
  have a : vectorElem 0 0x4000 0 = .fin false 1024 1 (-9) := by decide +kernel
  have b : vectorElem 0 0x3C00 0 = .fin false 1024 1 (-10) := by decide +kernel
  unfold DistRule
  simp only [Nat.lt_one_iff, exists_eq_left, a, b, Exact.isNan, Exact.isInf, List.range_one, List.map_cons, List.map_nil, List.sum_cons, List.sum_nil, Exact.val, finVal]
  norm_num
  exact .inl ⟨1, 1, 0, by norm_num, by decide +kernel⟩
theorem dist_nan : DistRule 0 0 1 0x4000 0x7E00 none := by
  have b : vectorElem 0 0x7E00 0 = .nan := by decide +kernel
  unfold DistRule
  simp [exists_eq_left, b, Exact.isNan]
def scanNode : NNode := node0 0 [0, 192, 0, 2 ^ 32 * 100, 1, 0, 0, 2 ^ 57] work3
/-- SCAN of one record at one query. -/
theorem wit_ScanGranule : let n := scanNode; let s := withN n (recd 0x3C00); let c := work3.desc; let rec' := fun u => (fieldOf c (512 + 64 * 3) 56 + u * fieldOf c 64 32) % 2 ^ 56
    let us := (List.range (min ((fieldOf c 0 32 + 7) / 8) ((work3.gran + 1) * max 1 ((fieldOf c 0 32 + 7) / 8)) - work3.gran * max 1 ((fieldOf c 0 32 + 7) / 8))).map fun i => work3.gran * max 1 ((fieldOf c 0 32 + 7) / 8) + i
    let scanned := us.filter fun u => decide (fieldOf (n.arg 3) 0 32 ≤ ids3 u ∧ ids3 u < min (fieldOf (n.arg 3) 32 32) (fieldOf c 0 32))
    (∀ u, ids3 u / 8 = u ∧ idHome (ids3 u) = 3) ∧ fieldOf c 32 4 = 0 ∧ fieldOf c 48 16 = 1 ∧ Working s n work3 9 3 ∧ n.gran = 0 ∧ work3.posted = true ∧ s.channels 3 ≠ [] ∧
    (∀ ch ∈ s.channels 3, 9 ∉ (s.chan 3 ch).work) ∧ work3.sub ≤ work3.gran ∧ fieldOf (n.arg 2) 2 2 = 0 ∧ scanned = [0] ∧ seenIn (5 * 2 ^ 32) (n.arg 4) = true ∧
    NodeReads s 0 (rec' 0) 16 (5 * 2 ^ 32) ∧ NodeReads s 0 (rec' 0 + 16) 2 0x3C00 ∧ fieldOf (n.arg 2) 0 2 + 1 = 1 ∧ NodeReads s 0 ((n.arg 1 + 0 * 32) % 2 ^ 56) 2 0x4000 ∧
    DistRule 0 0 1 0x4000 0x3C00 (some 0x3F800000) ∧ ∀ q, work3.drawer q = [] :=
  ⟨ids3_home, by decide +kernel, by decide +kernel, working_of (by decide +kernel), rfl, rfl, by decide +kernel, by decide +kernel, by decide +kernel, by decide +kernel, by decide +kernel, by decide +kernel,
    nodeReads_of (65536 + 128) (by decide +kernel) (by decide +kernel), nodeReads_of (65536 + 144) (by decide +kernel) (by decide +kernel), by decide +kernel,
    nodeReads_of (65536 + 192) (by decide +kernel) (by decide +kernel), dist_one, fun q => rfl⟩
/-- The part without its steps given, and with steps still in a channel. -/
theorem wit_GranuleWaits : Working (withN { scanNode with parts := [{ work3 with posted := false }] }) { scanNode with parts := [{ work3 with posted := false }] } { work3 with posted := false } 9 3 ∧
    ∃ ch ∈ (near.setChan 3 31 { Chan.reset with work := [9] }).channels 3, 9 ∈ ((near.setChan 3 31 { Chan.reset with work := [9] }).chan 3 ch).work :=
  ⟨working_of (by decide +kernel), by decide +kernel⟩
/-- WALK with a message for id 3: a vector that ranks and one with NaN, a record seen and one not, a full visited set, an id past the corpus. -/
def walkNode (args5 : Nat) (p : NStack) : NNode := node0 1 [0, 192, 0, 0, 1, args5, 0, 2 ^ 57] p
def wmsg (y : Nat) : WMsg := ⟨9, 3, 3, 0, y, 2, 1, 0⟩
/-- Room for a walker, and none with one in the spill queue (whose own room is an open value, log entry 52). -/
theorem wit_WalkRoom : let n := node0 1 [0, 192, 0, 0, 1, 0, 0, 2 ^ 57] work3; let w : Walker := ⟨3, 1, 0, 2, 0, 0, 0⟩
    (work3.spill = [] ∧ 0 < (withN n).walkRoom n work3) ∧ { work3 with spill := [w] }.spill ≠ [] := by decide +kernel
theorem wit_WalkMessage : ∀ x ∈ [(0x3C00, [(0, 11)], 1 + 2 ^ 32), (0x7E00, [], 0), (0x3C00, [(0, 3)], 0), (0x3C00, [(0, 11)], 0)], let p := { work3 with visited := x.2.1 }; let n := walkNode x.2.2 p
    let s := { withN n (recd x.1) with msgs := [wmsg 3] }; let rec' := fun u => (fieldOf p.desc (512 + 64 * 3) 56 + u * fieldOf p.desc 64 32) % 2 ^ 56
    Working s n p 9 3 ∧ n.ep = 1 ∧ s.msgs = [wmsg 3] ∧ fieldOf (n.arg 2) 8 2 = 0 ∧ 3 < fieldOf p.desc 0 32 ∧ fieldOf p.desc 0 32 ≤ (wmsg 8).target ∧ idHome 3 = 3 ∧
    NodeReads s 0 (rec' (3 / 8)) 16 (5 * 2 ^ 32) ∧ seenIn (5 * 2 ^ 32) (fieldOf (n.arg 4) 0 32) = true ∧ seenIn (5 * 2 ^ 32) 5 = false ∧ NodeReads s 0 (rec' (3 / 8) + 16) 2 x.1 ∧
    NodeReads s 0 ((n.arg 1 + 0 * 32) % 2 ^ 56) 2 0x4000 ∧ ∀ q, p.drawer q = [] := by
  intro x h
  refine ⟨working_of ?_, rfl, rfl, ?_, ?_, ?_, ?_, nodeReads_of (65536 + 128) ?_ ?_, ?_, ?_, nodeReads_of (65536 + 144) ?_ ?_, nodeReads_of (65536 + 192) ?_ ?_, fun q => rfl⟩ <;> revert x <;> decide +kernel
theorem wit_WalkDistances : DistRule 0 0 1 0x4000 0x3C00 (some 0x3F800000) ∧ DistRule 0 0 1 0x4000 0x7E00 none ∧ (0, 3) ∈ [((0 : Nat), (3 : Nat))] ∧ (0, 3) ∉ [((0 : Nat), (11 : Nat))] ∧
    ([((0 : Nat), (11 : Nat))].filter fun v => v.1 == 0).length = fieldOf 0 32 14 + 1 ∧ ([((0 : Nat), (11 : Nat))].filter fun v => v.1 == 0).length ≠ fieldOf (1 + 2 ^ 32) 32 14 + 1 :=
  ⟨dist_one, dist_nan, by decide, by decide, by decide, by decide⟩
/-- PUBLISH of one delete, id 3: of a live record, and of one already deleted. -/
def pubNode (v : Nat) : NNode := node0 4 [0, 256, 1, v, 0, 0, 0, 2 ^ 57] work3
theorem wit_PublishDelete : ∀ h ∈ [0xFFFFFFFF * 2 ^ 32, 5 * 2 ^ 32], let n := pubNode 7; let s := withN n (putAt (65536 + 128) 16 h (putAt (65536 + 256) 32 (1 + 3 * 2 ^ 32) (recd 0)))
    let e := 1 + 3 * 2 ^ 32; let r := (fieldOf work3.desc (512 + 64 * 3) 56 + 3 / 8 * fieldOf work3.desc 64 32) % 2 ^ 56
    Working s n work3 9 3 ∧ n.ep = 4 ∧ (∀ ch ∈ s.channels 3, 9 ∉ (s.chan 3 ch).work) ∧ max 1 (n.arg 2) = 1 ∧ work3.gran < n.arg 2 ∧ NodeReads s 0 ((n.arg 1 + 32 * work3.gran) % 2 ^ 56) 32 e ∧
    anySet e [(31, 2), (127, 120), (255, 160)] = false ∧ fieldOf e 0 2 = 1 ∧ fieldOf e 32 32 = 3 ∧ 3 < fieldOf work3.desc 0 32 ∧ idHome 3 = 3 ∧ 3 ∈ n.stackList ∧ NodeReads s 0 r 16 h ∧
    NodeRange s 0 r 16 (65536 + 128) true ∧ fieldOf (n.arg 3) 0 32 = 7 := by
  intro h hh
  refine ⟨working_of ?_, rfl, ?_, ?_, ?_, nodeReads_of (65536 + 256) ?_ ?_, ?_, ?_, ?_, ?_, ?_, ?_, nodeReads_of (65536 + 128) ?_ ?_, nodeRange_of _ ?_, ?_⟩ <;> revert h <;> decide +kernel
theorem wit_PublishLive : (fieldOf (0xFFFFFFFF * 2 ^ 32) 0 32 < 7 ∧ fieldOf (0xFFFFFFFF * 2 ^ 32) 32 32 = 0xFFFFFFFF) ∧ fieldOf (5 * 2 ^ 32) 32 32 ≠ 0xFFFFFFFF := by decide
/-- A node that stops, one already stopped that may resume, and one that may not (a node of higher priority waits). -/
theorem wit_StopAndResume : let n := scanNode; let z := { scanNode with stopped := true, parts := [{ work3 with stopped := true }] }
    (withN n).nnode 9 = some n ∧ n.stackList.Nodup ∧ n.stopped = false ∧ (withN z).nnode 9 = some z ∧ z.stopped = true ∧
    (∀ x ∈ z.parts.filter fun x => x.started && !x.fin && x.cause == 0, x.stopped = true ∧ ((withN z).stackLoad x.stack).2 < 8 ∧ ∀ o ∈ (withN z).waitsOn x.stack, o.prio ≤ z.prio) ∧
    ∃ o ∈ { near with nodes := [z, { z with id := 10, prio := 3 }] }.waitsOn 3, z.prio < o.prio := by decide +kernel

/-! Channels, the fabric, reliability, and the whole machine. -/
def withCh (x : Chan) (now : Nat) : State := { near.setChan 7 31 x with now }
theorem wit_Channels : let ch := fun ph at' work queue => (⟨ph, 0, queue, at', work, false⟩ : Chan); let q : List NormReq := [⟨5, true⟩]
    (∀ x ∈ [ch .normal 0 [9] [], ch .preIn 0 [9] [], ch .preIn 0 [] [], { ch .preIn 0 [9] [] with halt := true }, ch .preIn 2 [9] q, ch .swIn 0 [9] [], ch .compute 0 [9] q, ch .preOut 0 [] [], ch .swOut 0 [] []], (withCh x 256).chan 7 31 = x) ∧
    fieldOf ((withCh Chan.reset 256).reg (0x150000 + 0x100 * 7)).toNat 16 16 = 256 ∧ max 256 (fieldOf ((withCh Chan.reset 256).reg (0x150000 + 0x100 * 7)).toNat 0 16) = 2048 ∧
    (withCh Chan.reset 256).now - (ch .normal 0 [9] []).since = 256 ∧ 32 ≤ 256 ∧ 48 ≤ 256 ∧ (withCh Chan.reset 2048).now - 0 = 2048 ∧ (withCh Chan.reset 31).now - 0 < 32 ∧
    (∀ e, e < 32 → ((withCh Chan.reset 256).reg (0x150008 + 0x100 * 7)).getLsbD e = true ∨ ((withCh Chan.reset 256).chan 7 e).queue = []) ∧ (ch .swIn 0 [] (List.replicate 256 ⟨5, true⟩)).queue.length = 256 ∧ ((withCh Chan.reset 0).reg (0x150008 + 0x100 * 7)).getLsbD 31 = true ∧
    ((withR (0x150008 + 0x100 * 7) 1).reg (0x150008 + 0x100 * 7)).getLsbD 31 = false ∧ ((withCh Chan.reset 0).reg (0x150008 + 0x100 * 7)).getLsbD 0 = true := by decide +kernel
/-- Package 0 with a route to package 2 by port 3, which is up, and its last export window open to package 2 for writing; package 63 has no route. -/
def fab (s : State := base) : State := withR (0x190100 + 8 * 2) 0x13 (withR 0x190008 (2 ^ 35) (withR 0x190010 4 (withR (0x190400 + 0x20 * 7) 3 (withR (0x190408 + 0x20 * 7) 1 (withR (0x190410 + 0x20 * 7) 4 s)))))
def flit (kind : BitVec 8) (addr : Nat) (n : Nat) : Flit := ⟨kind, 2, 0, 0, addr, 7, 0, 0, 5, 6, 0, List.replicate n true, List.replicate n 1, 0, 15, 2, 0, 0, 0⟩
theorem wit_Flits : ∀ x ∈ [(1, Instr.wrFlit), (2, .rdFlit), (3, .rdrspFlit), (4, .atomFlit), (5, .atomrspFlit), (6, .ackFlit), (7, .nakFlit), (8, .flushFlit), (9, .flushackFlit),
    (10, .mboxFlit), (11, .mergeFlit)], let f := flit (BitVec.ofNat 8 x.1) 64 32; FlitKind x.1 x.2 ∧ InTurn fab f x.1 ∧ { f with seq := 1 }.seq.toNat ≠ Tab.get 0 fab.seqIn f.src.toNat ∧
    ({ f with dst := 1 }).dst.toNat ≠ fieldOf (fab.reg 0x190000).toNat 0 6 ∧ fab.canSend f.src.toNat = true ∧ fab.canSend 63 = false := by
  intro x h
  simp only [List.mem_cons, List.not_mem_nil, or_false] at h
  rcases h with rfl | rfl | rfl | rfl | rfl | rfl | rfl | rfl | rfl | rfl | rfl <;>
    exact ⟨by simp [FlitKind], by unfold InTurn; decide +kernel, by decide +kernel, by decide +kernel, by decide +kernel, by decide +kernel⟩
theorem wit_UnknownFlit : InTurn fab (flit 0 64 32) 0 ∧ InTurn fab (flit 255 64 32) 255 ∧ ((255 : Nat) = 0 ∨ 11 < 255) := by unfold InTurn; decide +kernel
def owning (line : Nat) : State := { fab with cmds := [{ cmd0 .copy .running [] with owns := [line] }] }
/-- The last sector and word of the window, one byte past it, a line that an agent owns, and a sector in error. -/
theorem wit_Exported : Exported fab 2 (65536 - 128) 128 true ∧ ¬Exported fab 2 (65536 - 127) 128 true ∧ ¬Exported fab 63 0 32 false ∧ Exported (owning 511) 2 (65536 - 128) 128 true ∧
    (∃ x, 65408 ≤ x ∧ x < 65408 + 128 ∧ (owning 511).ownedLine (x / 128) = true) ∧ (∀ x, fab.ownedLine (x / 128) = false) ∧ (owning 511).ownedLine (65504 / 128) = true ∧
    { fab with poison := [2] }.poisoned (.dev 64) = true ∧ fab.poisoned (.dev 64) = false := by
  refine ⟨by unfold Exported; decide +kernel, by unfold Exported; decide +kernel, by unfold Exported; decide +kernel, by unfold Exported; decide +kernel, ⟨65408, by decide +kernel⟩,
    fun x => rfl, by decide +kernel, by decide +kernel, by decide +kernel⟩
theorem wit_AtomicFlits : (flit 4 64 0).op.toNat / 16 % 4 = 0 ∧ ({ flit 4 64 0 with op := 0x10 }).op.toNat / 16 % 4 = 1 ∧ ({ flit 4 64 0 with op := 0x2F }).op.toNat / 16 % 4 = 2 := by decide
/-- An ordered atomic of a peer: alone in its stream, and as the first of two where its slice holds 4,096 streams of another sender. -/
theorem wit_OrderedFlits : let f := fun v => { flit 4 64 0 with op := 0x2F, val2 := v }; let s := { fab with pages := [(0, { PageSt.reset with place := .hbm 0 })] }
    let many := { s with streams := List.replicate 4096 ({ pasid := 1, stream := 1, loc := 64, ty := .i32, next := 0, last := 1, stamp := 0, early := [] } : StreamRec) }
    InTurn s (f 0) 4 ∧ Exported s 2 64 4 true ∧ s.poisoned (.dev 64) = false ∧ (s.page 0).place ≠ .none ∧ fieldOf (f 0).val2.toNat 20 12 = 0 ∧ fieldOf (f 0x100000).val2.toNat 20 12 = 1 ∧
    fieldOf (f 0x100000).val2.toNat 6 2 = 0 ∧ (∀ r ∈ many.streams, ¬(r.pasid = 0 ∧ r.stream = 0 ∧ r.loc = 64)) ∧ (many.streams.filter fun x => many.slice x.loc == many.slice 64).length = 4096 := by
  refine ⟨by unfold InTurn; decide +kernel, by unfold Exported; decide +kernel, by decide +kernel, by decide +kernel, by decide +kernel, by decide +kernel, by decide +kernel, fun r hr => ?_, ?_⟩
  · rw [List.eq_of_mem_replicate hr]; decide
  · rw [List.filter_replicate, if_pos (by decide +kernel), List.length_replicate]
theorem wit_FlushAndMailbox : (∃ q ∈ { fab with streamReqs := [{ req 3 with peer := some (2, 9) }] }.streamReqs, ∃ tag, q.peer = some (2, tag)) ∧
    (∀ q ∈ { fab with streamReqs := [{ req 3 with peer := some (1, 9) }] }.streamReqs, ∀ p tag, q.peer = some (p, tag) → p ≠ 2) ∧
    ({ fab with grids := [{ grid0 with waitAck := 4 }] }.grids[0]?) = some { grid0 with waitAck := 4 } ∧ (fab.reg 0x190010).getLsbD 2 = true ∧ (base.reg 0x190010).getLsbD 2 = false ∧
    (let m := { mbox0 [] with running := some 0 }; m.armed = true ∧ m.disarming = false ∧ m.running ≠ none ∧ m.held.length < 16 ∧
      16 ≤ { m with held := List.replicate 16 ⟨2, []⟩ }.held.length ∧ Mbox.reset.armed = false) := by
  refine ⟨⟨_, List.mem_singleton.2 rfl, 9, rfl⟩, fun q hq p tag e => ?_, rfl, by decide +kernel, by decide +kernel, by decide +kernel⟩
  rw [List.mem_singleton.1 hq] at e; cases e; decide
/-- A request of each sort that waits for the answer with tag 7 of package 2. -/
def asks (w : Waitee) (s : State := fab) : State := { s with outst := [⟨7, 2, w, 0⟩] }
theorem wit_Answers : (∀ w ∈ [Waitee.fill 0 128 false, .fill 4000 130 true, .write 0, .gone], let s := asks w; let o : Outst := ⟨7, 2, w, 0⟩
      o ∈ s.outst ∧ o.tag = (flit 3 64 32).tag ∧ o.dst = (flit 3 64 32).src.toNat ∧ (∀ x ∈ s.outst, x.tag = (flit 3 64 32).tag → x = o)) ∧
    (∀ k ∈ [3, 6, 7], (flit (BitVec.ofNat 8 k) 64 32).data.length = 32 ∧ (flit (BitVec.ofNat 8 k) 64 32).stat = 0) ∧ ({ flit 3 64 32 with stat := 2 }).stat ≠ 0 ∧ 128 % 32 = 0 ∧
    L1Room fab 0 [128 / 128] := by unfold L1Room; decide +kernel
/-- An atomic with two lanes sent, one of them waiting for this answer, and its three answers. -/
def atWait : SqEnt := { atEnt .atomc with sent := true, kind := .atomic { atReq .atomc with lanes := [{ atLane 0 8 with rid := 7, ph := 1 }, { atLane 3 12 with rid := 8, ph := 1 }] } }
theorem wit_AtomicAnswers : ∀ x ∈ [(5, 2), (6, 2), (7, 3)], let s := asks (.atomic 0 3) (withG (fun g => { g with sq := [atWait] }) fab); let f := flit (BitVec.ofNat 8 x.1) 64 0
    InTurn s f x.1 ∧ (⟨7, 2, .atomic 0 3, 0⟩ : Outst) ∈ s.outst ∧ (∃ answer, (answer, x.1, x.2, if x.1 = 7 then (0 : DWord) else f.val) ∈ [(Instr.atomrspFlit f, 5, f.stat + 2, f.val), (.ackFlit f, 6, 2, f.val), (.nakFlit f, 7, 3, 0)]) ∧
    (s.group 0).sq = [atWait] ∧ atWait.id = 3 ∧ (∃ r, atWait.kind = .atomic r ∧ r.kind = .atomc ∧ (r.lanes.map AtLane.lane).Nodup ∧ ∃ y ∈ r.lanes, y.rid ≠ f.tag ∧ y.ph < 2) := by
  intro x h
  simp only [List.mem_cons, List.not_mem_nil, or_false] at h
  rcases h with rfl | rfl | rfl
  · exact ⟨by unfold InTurn; decide +kernel, by decide +kernel, ⟨_, .head _⟩, by decide +kernel, rfl, _, rfl, rfl, by decide, by decide⟩
  · exact ⟨by unfold InTurn; decide +kernel, by decide +kernel, ⟨_, .tail _ (.head _)⟩, by decide +kernel, rfl, _, rfl, rfl, by decide, by decide⟩
  · exact ⟨by unfold InTurn; decide +kernel, by decide +kernel, ⟨_, .tail _ (.tail _ (.head _))⟩, by decide +kernel, rfl, _, rfl, rfl, by decide, by decide⟩
/-- Tree 15, on, K of 3, with `nin` inputs and its parent behind port 3; one list of a round of it is there. -/
def tree (nin : Nat) (s : State := fab) : State := withR (treeReg 15) (BitVec.ofNat 64 (1 + 3 * 4 + nin * 64 + 2 * 1024)) s
def mergeList (entries : List (Nat × Nat)) : Flit := { flit 11 0 0 with
  data := entries.flatMap fun e => leBytes 4 e.1 ++ leBytes 4 e.2, count := BitVec.ofNat 9 entries.length, nent := BitVec.ofNat 5 entries.length }
def round0 (n : Nat) : Round := ⟨15, n, [[(0x3F800000, 3)]], []⟩
theorem wit_Merges : ∀ nin ∈ [2, 3], let s := { tree nin with rounds := [round0 0] }; let f := mergeList [(0, 5), (0x3F800000, 6)]; InTurn s f 11 ∧ f.tree = 15 ∧
    fieldOf (s.reg (treeReg 15)).toNat 0 1 = 1 ∧ fieldOf (s.reg (treeReg 15)).toNat 10 8 + 1 = 3 ∧ max 1 (fieldOf (s.reg (treeReg 15)).toNat 6 4) = nin ∧ f.km1.toNat + 1 = 3 ∧ f.first = 0 ∧
    f.count.toNat ≤ f.nent.toNat ∧ f.count.toNat = 2 ∧ (s.rounds.find? fun x => x.tree == 15 && x.round == f.round.toNat) = some (round0 0) ∧ s.roundRoom 15 f.round.toNat = true ∧
    fieldOf (s.reg (treeReg 15)).toNat 1 1 = 0 ∧ s.behind (fieldOf (s.reg (treeReg 15)).toNat 2 4) = some 2 ∧ s.canSend 2 = true ∧ (round0 0).lists.length + 1 = 2 := by
  unfold InTurn; decide +kernel
theorem wit_MergesDistinct : let l : List (Word × Word) := [(0x3F800000, 3), (0, 5), (0x3F800000, 6)]; (l.map Prod.snd).Nodup ∧ ∀ x ∈ l, (fmt32.decode x.1.toNat).isNan = false := by
  refine ⟨by decide +kernel, fun x h => ?_⟩
  simp only [List.mem_cons, List.not_mem_nil, or_false] at h
  rcases h with rfl | rfl | rfl <;> decide +kernel
theorem wit_MergesDropped : (let s := { tree 2 with rounds := (List.range 64).map fun i => round0 (i + 1) }; fieldOf (s.reg (treeReg 15)).toNat 0 1 = 1 ∧
      (∀ x ∈ s.rounds, x.tree = 15 → x.round ≠ (mergeList []).round.toNat) ∧ 64 ≤ (s.rounds.filter fun x => x.tree == 15).length) ∧ fieldOf (fab.reg (treeReg 15)).toNat 0 1 ≠ 1 ∧
    (fmt32.decode 0x7FC00000).isNan = true ∧ 3 < 12 ∧ ∃ grid, (⟨7, 2, .write 0, 0⟩ : Outst).who = .write grid := ⟨by decide +kernel, by decide +kernel, by decide +kernel, by decide, 0, rfl⟩
/-- Scrubbing on and off, with the channels of the sector busy and idle; an hour gone and not. -/
theorem wit_Scrub : let busy := { placed [(0, pg (.hbm 7) false 0 0)] false with chans := (withCh { Chan.reset with queue := List.replicate 32 ⟨5, true⟩ } 0).chans }
    (∀ s ∈ [base, busy], fieldOf (s.reg 0x1B0000).toNat 8 1 = 1 ∧ fieldOf (s.reg 0x1B0000).toNat 32 1 = 0) ∧ fieldOf ((withR 0x1B0000 16).reg 0x1B0000).toNat 8 1 = 0 ∧
    ¬fieldOf (base.reg 0x1B0000).toNat 0 8 ≤ base.sectorQueue 5 ∧ fieldOf (busy.reg 0x1B0000).toNat 0 8 ≤ busy.sectorQueue 5 ∧ 5 ∈ { base with poison := [5] }.poison ∧ 5 ∉ base.poison ∧
    base.us / 3600000000 ≤ base.hour ∧ { base with us := 3600000000 }.hour < { base with us := 3600000000 }.us / 3600000000 := by decide +kernel
/-- A core out of service; one with a team that stops; an idle one with spares and one without; the two limits of power and heat. -/
theorem wit_Cores : (base.core 96).en = false ∧ (let s := withT fun t => { t with st := .stopping }; (s.core 0).en = true ∧ s.residents 0 = [0] ∧ (s.team 0).st = .stopping ∧ s.mates 0 = [0]) ∧
    (State.reset.core 0).en = true ∧ State.reset.residents 0 = [] ∧ (let spare := fun k => 0 * 100 + 96 ≤ k ∧ k < 0 * 100 + 100 ∧ (State.reset.core k).en = false ∧ (State.reset.core k).num = (Core.reset k).num
      spare 96 ∧ ∀ j, j < 96 → ¬spare j) ∧
    (let s := { State.reset with cores := [96, 97, 98, 99].map fun k => (k, { Core.reset k with en := true }) }; (s.core 0).en = true ∧ s.residents 0 = [] ∧
      ∀ k, ¬(0 * 100 + 96 ≤ k ∧ k < 0 * 100 + 100 ∧ (s.core k).en = false ∧ (s.core k).num = (Core.reset k).num)) := by
  refine ⟨by decide +kernel, by decide +kernel, by decide +kernel, by decide +kernel, ⟨by decide +kernel, fun j h x => by have := x.1; omega⟩, by decide +kernel, by decide +kernel, ?_⟩
  rintro k ⟨a, b, c, _⟩
  have : ∀ k < 100, 96 ≤ k → (({ State.reset with cores := [96, 97, 98, 99].map fun k => (k, { Core.reset k with en := true }) } : State).core k).en = true := by decide +kernel
  rw [this k (by omega) (by omega)] at c; cases c
theorem wit_Attestation : (0x10 / 16 % 2 = 1 ∧ 1 % 2 = 1) ∧ (0 / 16 % 2 = 0) ∧ State.reset.spdmNeg = false ∧ { State.reset with spdmNeg := true }.spdmNeg = true := by decide
/-- The whole machine: an instruction with a word, a state in form, stopped clocks, and a first word, REP and words that trap. -/
theorem wit_DecodingAnEncoded : (Instr.iadd hdr ⟨.vec 255, .uni 3, .con 5, .n32, .rne, true, 0, 0⟩).wellFormed = true := by decide +kernel
theorem wit_EveryStepKeeps : Safety.memOk State.reset = true ∧ ∃ t, step State.reset = .next t := ⟨by decide +kernel, _, rfl⟩
theorem wit_Stopped : let s := { State.reset with halted := true }
    s.halted = true ∧ ¬(s.agenda.head? = some (.event .coldReset) ∨ ∃ images, s.agenda.head? = some (.boot images)) ∧ State.reset.halted = false := by
  intro s
  exact ⟨rfl, by simp [s, State.reset], rfl⟩
/-- A cold reset that finds the hub's image bad: BOOTSTAT reads 2 and the host port nothing else (R377, R380). -/
theorem test_boot_fails : let s := State.reset.boot 0xE; (s.regRead 0x1B0018).toNat = 2 ∧ s.bar0 0x1B0018 = some 2 ∧ s.bar0 0x1C0000 = none ∧
    s.cab.map (fun e => (e.ty, e.sev)) = [(9, 2)] := by decide +kernel
def started (w : BitVec 96) : State := State.reset.withFetchWord 96 w.toNat
theorem wit_AStepRuns : ∃ slot rest, let s := started 0x100700C01C14030000000000; let s1 := { s with agenda := rest }
    s.halted = false ∧ s.agenda = .issue slot :: rest ∧ s1.mayTake slot = true ∧ s1.repReady slot = false ∧ ∃ u i, s1.candidate slot = some u ∧ (s.group slot).word? u.sup u.pc = some (.word 0x100700C01C14030000000000) ∧
    u.pc < (s.grid (s.team (s.group slot).tid).grid).k.codelen ∧ u.sup = false ∧ decode 0x100700C01C14030000000000 = some i ∧ spansOk (s.grid (s.team (s.group slot).tid).grid).k i = true ∧
    wSafe 0x100700C01C14030000000000 = false := ⟨_, _, by decide +kernel, rfl, by decide +kernel, by decide +kernel, _, _, rfl, by decide +kernel, by decide +kernel, rfl, rfl, by decide +kernel, by decide +kernel⟩

/-- Group 0 with these words buffered, of a kernel as long. -/
def issuing (ws : List (BitVec 96)) (f : Group → Group) : State := let s := started 0x100700C01C14030000000000
  (({ s with grids := s.grids.map fun (g : Grid) => { g with k := { g.k with codelen := ws.length } } } : State).setGroup 0 (f { s.group 0 with ibuf := [⟨false, 0, ws, none⟩] }))
/-- A word with S and its LIVE word. -/
theorem wit_AStepRunsLive : let w := 0x100700C01C14030000000080; let v := 0xFFF000000000000000000000; let s := issuing [w, v] id; let s1 := { s with agenda := [] }; let k := (s.grid (s.team (s.group 0).tid).grid).k
    s.halted = false ∧ s.agenda = .issue 0 :: [] ∧ s1.mayTake 0 = true ∧ s1.repReady 0 = false ∧ ∃ u i, s1.candidate 0 = some u ∧ (s.group 0).word? u.sup u.pc = some (.word w) ∧ u.sup = false ∧
      u.pc + 1 < k.codelen ∧ (s.group 0).word? u.sup (u.pc + 1) = some (.word v) ∧ liveBad k v = false ∧ decode w = some i ∧ spansOk k i = true ∧ wSafe w = true :=
  ⟨by decide +kernel, rfl, by decide +kernel, by decide +kernel, _, _, rfl, by decide +kernel, by decide +kernel, by decide +kernel, by decide +kernel, by decide +kernel, rfl, by decide +kernel, by decide +kernel⟩
theorem wit_AStepRepeats : let r : RepSt := ⟨0xFF, 0, 0x100700C01C14030000000000, none, 2, 3, 0, 0, 0, 0⟩; let s := issuing [0x008700000000000000000300, r.word] fun g => { g with rep := some r }
    let s1 := { s with agenda := [] }; s.agenda = .issue 0 :: [] ∧ s1.mayTake 0 = true ∧ s1.repReady 0 = true ∧ (s.group 0).rep = some r ∧ stepWord r.word r.k r.sd r.sa r.sb r.sc = some r.word ∧
    r.live = none ∧ ∃ i, decode r.word = some i ∧ spansOk (s.grid (s.team (s.group 0).tid).grid).k i = true :=
  ⟨rfl, by decide +kernel, by decide +kernel, by decide +kernel, by decide +kernel, by decide +kernel, _, rfl, by decide +kernel⟩
/-- The last repeat of a word with S, and its LIVE word. -/
theorem wit_AStepRepeatsLive : let v := 0xFFF000000000000000000000; let r : RepSt := ⟨0xFF, 0, 0x100700C01C14030000000080, some v, 3, 3, 0, 0, 0, 0⟩
    let s := issuing [0x008700000000000000000300, r.word, v] fun g => { g with rep := some r }; let s1 := { s with agenda := [] }; let k := (s.grid (s.team (s.group 0).tid).grid).k
    s1.mayTake 0 = true ∧ s1.repReady 0 = true ∧ (s.group 0).rep = some r ∧ stepWord r.word r.k r.sd r.sa r.sb r.sc = some r.word ∧ r.k = r.countM1 ∧ wSafe r.word = true ∧
    liveBad k v = false ∧ ∃ i, decode r.word = some i ∧ spansOk k i = true :=
  ⟨by decide +kernel, by decide +kernel, by decide +kernel, by decide +kernel, by decide +kernel, by decide +kernel, by decide +kernel, _, rfl, by decide +kernel⟩
theorem atRest_of {s : State} (h : (s.atPort.isEmpty && s.hubWrites.isEmpty && s.hubReqs.isEmpty && s.rounds.isEmpty && s.groups.all fun g => g.2.blocked.isEmpty) = true) : AtRest s := by
  simp only [Bool.and_eq_true, List.isEmpty_iff, List.all_eq_true] at h
  refine ⟨h.1.1.1.1, h.1.1.1.2, h.1.1.2, fun x hx => ?_, fun g hg b hb => ?_⟩
  · rw [h.1.2] at hx; cases hx
  · rw [h.2 g hg] at hb; cases hb
/-- A word of an opcode outside the map, and the PC at CODELEN. -/
theorem wit_AStepTraps : (let w := 0xE00700000000000000000000; let s := issuing [w] id; let s1 := { s with agenda := [] }; s1.mayTake 0 = true ∧ s1.repReady 0 = false ∧ NoRoutine (s.group 0) ∧ AtRest s ∧
      ∃ u, s1.candidate 0 = some u ∧ u.sup = false ∧ u.pc < 1 ∧ (s.group 0).word? u.sup u.pc = some (.word w) ∧ wSafe w = false ∧ wOpc w ≠ 0x008 ∧
        3 ∈ (Raw.ofBits w).details ∧ ∀ e ∈ (Raw.ofBits w).details, 3 ≤ e) ∧
    (let s := issuing [0x100700C01C14030000000000] fun g => { g with lanes := g.lanes.map fun l => { l with pc := 1 } }; let s1 := { s with agenda := [] }
      s1.mayTake 0 = true ∧ s1.repReady 0 = false ∧ NoRoutine (s.group 0) ∧ AtRest s ∧ ∃ u, s1.candidate 0 = some u ∧ u.sup = false ∧ 1 ≤ u.pc ∧ u.pc < 2 ^ 24) :=
  ⟨⟨by decide +kernel, by decide +kernel, by unfold NoRoutine; decide +kernel, atRest_of (by decide +kernel), _, rfl, by decide +kernel⟩,
    by decide +kernel, by decide +kernel, by unfold NoRoutine; decide +kernel, atRest_of (by decide +kernel), _, rfl, by decide +kernel⟩

end Sys2Proof.Tests
end

section
namespace Sys2Proof.ScalarVector
open Sys2Proof Sys2Proof.Machine Sys2Proof.Safety

/-! The logic, shift and bit-field instructions: O4. -/

/-! ### Instructions whose words are known by a property -/

/-- What the statements say of an instruction that gives each active lane one word and raises no flag: the words have the
property. -/
def MeetsWords (s : State) (h : Hdr) (d : Opnd) (out : Out') (P : Nat → Word → Prop) : Prop :=
  Gives out fun t => ∃ r : Nat → Word, LaneWrites s t h d (fun l => [r l]) (fun _ => 0) ∧ ∀ l, P l (r l)

section
variable {s : State} {h : Hdr} {o : AluOps} {P : Nat → Word → Prop}

theorem perLane_meets {d : Opnd} {r : Group → Nat → Word} (hP : ∀ l, P l (r s.curG l)) :
    MeetsWords s h d (.next (s.perLane h d fun g l => ([r g l], 0))) P :=
  ⟨_, rfl, _, State.perLane_writes s h d (fun g l => ([r g l], 0)) fun _ _ => by simp, hP⟩
theorem alu1_meets {f : Word → Word} (hP : ∀ l, P l (f (src s s.curG o.imm o.a l))) :
    MeetsWords s h o.d (alu1 s h o f) P := perLane_meets hP
theorem alu2_meets {f : Word → Word → Word} (hP : ∀ l, P l (f (src s s.curG o.imm o.a l) (src s s.curG o.imm o.b l))) :
    MeetsWords s h o.d (alu2 s h o f) P := perLane_meets hP
theorem alu3_meets {f : Word → Word → Word → Word}
    (hP : ∀ l, P l (f (src s s.curG o.imm o.a l) (src s s.curG o.imm o.b l) (src s s.curG o.imm o.c l))) :
    MeetsWords s h o.d (alu3 s h o f) P := perLane_meets hP
end

/-! ### Values built bit by bit -/

theorem bitAt_eq_testBit (v i : Nat) : bitAt v i = v.testBit i := by
  rw [bitAt, Nat.testBit_eq_decide_div_mod_eq]; rfl

theorem ofBitFn_succ (n : Nat) (f : Nat → Bool) : ofBitFn (n + 1) f = 2 ^ n * (f n).toNat + ofBitFn n f := by
  cases hf : f n <;> simp [ofBitFn, List.range_succ, hf, Nat.add_comm]

theorem ofBitFn_lt (n : Nat) (f : Nat → Bool) : ofBitFn n f < 2 ^ n := by
  induction n with
  | zero => simp [ofBitFn]
  | succ n ih =>
    have := Nat.mul_le_mul_left (2 ^ n) (f n).toNat_le
    rw [ofBitFn_succ, Nat.pow_succ]
    omega

theorem testBit_ofBitFn (n : Nat) (f : Nat → Bool) (i : Nat) : (ofBitFn n f).testBit i = (decide (i < n) && f i) := by
  induction n with
  | zero => simp [ofBitFn]
  | succ n ih =>
    rw [ofBitFn_succ, Nat.testBit_two_pow_mul_add _ (ofBitFn_lt n f), ih, Nat.testBit_bool_toNat]
    by_cases h1 : i < n
    · simp [h1, Nat.lt_succ_of_lt h1]
    · by_cases h2 : i = n
      · simp [h2]
      · simp [h1, show ¬ i < n + 1 by omega, show i - n ≠ 0 by omega]

theorem getLsbD_ofBitFn (f : Nat → Bool) {i : Nat} (hi : i < 32) : (BitVec.ofNat 32 (ofBitFn 32 f)).getLsbD i = f i := by
  rw [BitVec.getLsbD_ofNat, testBit_ofBitFn]; simp [hi]

/-! ### Logic and shifts (R137, R138) -/

theorem getLsbD_logt (imm a b d : Word) {i : Nat} (hi : i < 32) : (logt (imm.toNat % 256) a b d).getLsbD i =
    imm.getLsbD ((a.getLsbD i).toNat + 2 * (b.getLsbD i).toNat + 4 * (d.getLsbD i).toNat) := by
  rw [logt, getLsbD_ofBitFn _ hi, lutBit, bitAt_eq_testBit, show 256 = 2 ^ 8 from rfl, Nat.testBit_mod_two_pow]
  cases a.getLsbD i <;> cases b.getLsbD i <;> cases d.getLsbD i <;> simp [BitVec.getLsbD, -Nat.testBit_zero]

theorem toNat_shl (a b : Word) : (if 32 ≤ b.toNat then 0 else a <<< b.toNat : Word).toNat =
    if 32 ≤ b.toNat then 0 else a.toNat * 2 ^ b.toNat % 2 ^ 32 := by
  split
  · rfl
  · rw [BitVec.toNat_shiftLeft, Nat.shiftLeft_eq]

theorem toNat_shr (a b : Word) : (a >>> b.toNat).toNat = if 32 ≤ b.toNat then 0 else a.toNat / 2 ^ b.toNat := by
  rw [BitVec.toNat_ushiftRight, Nat.shiftRight_eq_div_pow]
  split
  · rename_i h
    exact Nat.div_eq_of_lt (Nat.lt_of_lt_of_le a.isLt (Nat.pow_le_pow_right (by omega) h))
  · rfl

theorem getLsbD_rot (a : Word) (n : Nat) {i : Nat} (hi : i < 32) :
    (a.rotateLeft (n % 32)).getLsbD ((i + n) % 32) = a.getLsbD i := by
  rw [BitVec.getLsbD_rotateLeft, Nat.mod_mod]
  by_cases h : i + n % 32 < 32
  · rw [show (i + n) % 32 = i + n % 32 by omega]
    simp [h]
  · rw [show (i + n) % 32 = i + n % 32 - 32 by omega]
    simp [show i + n % 32 - 32 < n % 32 by omega, show 32 - n % 32 + (i + n % 32 - 32) = i by omega]

theorem toNat_append_add {m n : Nat} (a : BitVec m) (b : BitVec n) : (a ++ b).toNat = a.toNat * 2 ^ n + b.toNat := by
  rw [BitVec.toNat_append, ← Nat.shiftLeft_add_eq_or_of_lt b.isLt, Nat.shiftLeft_eq]

theorem toNat_fshl (a b c : Word) : (((a ++ b) <<< (min c.toNat 32)).extractLsb' 32 32 : Word).toNat =
    ((a.toNat * 2 ^ 32 + b.toNat) * 2 ^ (min c.toNat 32)) % 2 ^ 64 / 2 ^ 32 := by
  rw [BitVec.extractLsb'_toNat, BitVec.toNat_shiftLeft, toNat_append_add, Nat.shiftLeft_eq, Nat.shiftRight_eq_div_pow]
  have := Nat.mod_lt ((a.toNat * 2 ^ 32 + b.toNat) * 2 ^ (min c.toNat 32)) (show 0 < 2 ^ (32 + 32) by decide)
  exact Nat.mod_eq_of_lt (by omega)

theorem toInt_sar (a b : Word) : (a.sshiftRight (min b.toNat 31)).toInt = a.toInt / 2 ^ (min b.toNat 31) := by
  rw [BitVec.toInt_sshiftRight, Int.shiftRight_eq_div_pow]; rfl

/-! ### Counts of bits (R137) -/

theorem length_filter_eq_sum (xs : List Nat) (p : Nat → Bool) : (xs.filter p).length = (xs.map fun i => (p i).toNat).sum := by
  induction xs with
  | nil => rfl
  | cons x xs ih => cases hp : p x <;> simp [hp, ih, Nat.add_comm]

theorem toNat_popc (a : Word) : (BitVec.ofNat 32 (popc a)).toNat = ((List.range 32).map fun i => (a.getLsbD i).toNat).sum := by
  have : popc a ≤ 32 := by simpa [popc] using List.length_filter_le (fun i => a.getLsbD i) (List.range 32)
  rw [BitVec.toNat_ofNat, Nat.mod_eq_of_lt (by omega), popc, length_filter_eq_sum]

/-- The leading run of `range n` where `p` fails ends at the first number with `p`, or at `n`. -/
theorem length_takeWhile_range (n : Nat) (p : Nat → Bool) :
    let k := ((List.range n).takeWhile fun i => !p i).length
    k ≤ n ∧ (∀ i < k, p i = false) ∧ (k < n → p k = true) := by
  intro k
  have hfirst : (List.range n).findIdx p ≤ (List.range n).length := List.findIdx_le_length
  have hk : k = (List.range n).findIdx p := by
    simp only [k, List.takeWhile_eq_take_findIdx_not, Bool.not_not, List.length_take]
    exact Nat.min_eq_left hfirst
  have hle : k ≤ n := by simpa [hk] using hfirst
  refine ⟨hle, fun i hi => ?_, fun hn => ?_⟩
  · simpa using List.not_of_lt_findIdx (hk ▸ hi : i < (List.range n).findIdx p)
  · have hlt : (List.range n).findIdx p < (List.range n).length := by simpa [← hk] using hn
    have : p ((List.range n)[(List.range n).findIdx p]) = true := List.findIdx_getElem
    simpa [← hk] using this

/-- The run counted by CLZ and CTZ, over bits taken in the order `pos`. -/
theorem zeros_count (a : Word) (pos : Nat → Nat) :
    let k := ((List.range 32).takeWhile fun i => !a.getLsbD (pos i)).length
    (BitVec.ofNat 32 k).toNat = k ∧ k ≤ 32 ∧ (∀ i < k, a.getLsbD (pos i) = false) ∧ (k < 32 → a.getLsbD (pos k) = true) := by
  obtain ⟨h1, h2, h3⟩ := length_takeWhile_range 32 fun i => a.getLsbD (pos i)
  exact ⟨by rw [BitVec.toNat_ofNat, Nat.mod_eq_of_lt (by omega)], h1, h2, h3⟩

theorem clz_first_one (a : Word) : if a = 0 then BitVec.ofNat 32 (clz a) = 32 else
    (BitVec.ofNat 32 (clz a)).toNat < 32 ∧ a.getLsbD (31 - (BitVec.ofNat 32 (clz a)).toNat) = true ∧
      ∀ i, 31 - (BitVec.ofNat 32 (clz a)).toNat < i → a.getLsbD i = false := by
  split
  · subst a; decide
  rename_i hne
  obtain ⟨h0, h1, h2, h3⟩ := zeros_count a (31 - ·)
  have hlt : clz a < 32 := by
    refine Nat.lt_of_le_of_ne h1 fun he => hne (BitVec.eq_of_getLsbD_eq fun i hi => ?_)
    have := h2 (31 - i) (show 31 - i < clz a by omega)
    rw [show 31 - (31 - i) = i by omega] at this
    simpa using this
  rw [clz, h0, ← clz]
  refine ⟨hlt, h3 hlt, fun i hi => ?_⟩
  by_cases h32 : i < 32
  · have := h2 (31 - i) (show 31 - i < clz a by omega)
    rwa [show 31 - (31 - i) = i by omega] at this
  · exact BitVec.getLsbD_of_ge _ _ (by omega)

theorem ctz_first_one (a : Word) : if a = 0 then BitVec.ofNat 32 (ctz a) = 32 else
    (BitVec.ofNat 32 (ctz a)).toNat < 32 ∧ a.getLsbD (BitVec.ofNat 32 (ctz a)).toNat = true ∧
      ∀ i, i < (BitVec.ofNat 32 (ctz a)).toNat → a.getLsbD i = false := by
  split
  · subst a; decide
  rename_i hne
  obtain ⟨h0, h1, h2, h3⟩ := zeros_count a id
  have hlt : ctz a < 32 := by
    refine Nat.lt_of_le_of_ne h1 fun he => hne (BitVec.eq_of_getLsbD_eq fun i hi => ?_)
    simpa using h2 i (show i < ctz a by omega)
  rw [ctz, show (fun i => !a.getLsbD i) = fun i => !a.getLsbD (id i) from rfl, h0]
  exact ⟨hlt, h3 hlt, h2⟩

/-- Each instruction of R137's table by the lemma of its value. -/
theorem logicAndShiftsWriteTheTableValue : LogicAndShiftsWriteTheTableValue := by
  intro h o s a b c d writes
  have hw : writes = fun i => MeetsWords s h o.d (exec i s) := rfl
  rw [hw]
  show MeetsWords s h o.d (execLand h o s) _ ∧ MeetsWords s h o.d (execLor h o s) _ ∧ MeetsWords s h o.d (execLxor h o s) _ ∧
    MeetsWords s h o.d (execLnot h o s) _ ∧ MeetsWords s h o.d (execLogt h o s) _ ∧ MeetsWords s h o.d (execShl h o s) _ ∧
    MeetsWords s h o.d (execShr h o s) _ ∧ MeetsWords s h o.d (execSar h o s) _ ∧ MeetsWords s h o.d (execRot h o s) _ ∧
    MeetsWords s h o.d (execFshl h o s) _ ∧ MeetsWords s h o.d (execPopc h o s) _ ∧ MeetsWords s h o.d (execClz h o s) _ ∧
    MeetsWords s h o.d (execCtz h o s) _ ∧ MeetsWords s h o.d (execBrev h o s) _
  refine ⟨?land, ?lor, ?lxor, ?lnot, ?logt, ?shl, ?shr, ?sar, ?rot, ?fshl, ?popc, ?clz, ?ctz, ?brev⟩
  case land => exact alu2_meets fun l i _ => BitVec.getLsbD_and
  case lor => exact alu2_meets fun l i _ => BitVec.getLsbD_or
  case lxor => exact alu2_meets fun l i _ => BitVec.getLsbD_xor
  case lnot => exact alu1_meets fun l i hi => by simp [hi, a]
  case logt => exact perLane_meets fun l i hi => getLsbD_logt _ _ _ _ hi
  case shl => exact alu2_meets fun l => toNat_shl _ _
  case shr => exact alu2_meets fun l => toNat_shr _ _
  case sar => exact alu2_meets fun l => toInt_sar _ _
  case rot => exact alu2_meets fun l i hi => getLsbD_rot _ _ hi
  case fshl => exact alu3_meets fun l => toNat_fshl _ _ _
  case popc => exact alu1_meets fun l => toNat_popc _
  case clz => exact alu1_meets fun l => clz_first_one _
  case ctz => exact alu1_meets fun l => ctz_first_one _
  case brev => exact alu1_meets fun l i hi => getLsbD_ofBitFn _ hi

/-! ### Bit fields (R139) -/

theorem toNat_byte (w : Word) (k : Nat) : (w.extractLsb' (8 * k) 8).toNat = w.toNat / 256 ^ k % 256 := by
  rw [BitVec.extractLsb'_toNat, Nat.shiftRight_eq_div_pow, Nat.pow_mul]

theorem toNat_nibble (w : Word) (k : Nat) : (w.extractLsb' (4 * k) 4).toNat = w.toNat / 16 ^ k % 16 := by
  rw [BitVec.extractLsb'_toNat, Nat.shiftRight_eq_div_pow, Nat.pow_mul]

theorem testBit_bits (a : Word) (pos n i : Nat) : (bits a.toNat pos n).testBit i = (decide (i < n) && a.getLsbD (pos + i)) := by
  rw [bits, Nat.testBit_mod_two_pow, Nat.testBit_div_two_pow, Nat.add_comm]; rfl

/-- A field of `n` bits less 2^n, in two's complement: ones above the field. -/
theorem getLsbD_ofInt_sub_two_pow {x n i : Nat} (hx : x < 2 ^ n) (hn : n ≤ 32) (hi : i < 32) :
    (BitVec.ofInt 32 ((x : Int) - 2 ^ n)).getLsbD i = if i < n then x.testBit i else true := by
  have hp : 2 ^ n * 2 ^ (32 - n) = 2 ^ 32 := by rw [← Nat.pow_add, Nat.add_sub_cancel' hn]
  have hv : BitVec.ofInt 32 ((x : Int) - 2 ^ n) = BitVec.ofNat 32 (2 ^ n * (2 ^ (32 - n) - 1) + x) := by
    rw [← BitVec.ofInt_natCast]
    have hle : 2 ^ n ≤ 2 ^ 32 := Nat.pow_le_pow_right (by decide) hn
    refine BitVec.eq_of_toInt_eq ?_
    have hsum : ((2 ^ 32 - 2 ^ n + x : Nat) : Int) = (x : Int) - 2 ^ n + (2 ^ 32 : Nat) := by
      rw [Nat.cast_add, Nat.cast_sub hle]; push_cast; ring
    rw [BitVec.toInt_ofInt, BitVec.toInt_ofInt, Nat.mul_sub, hp, Nat.mul_one, hsum]
    exact (Int.add_bmod_right _ _).symm
  rw [hv, BitVec.getLsbD_ofNat, Nat.testBit_two_pow_mul_add _ hx, Nat.testBit_two_pow_sub_one]
  by_cases h : i < n
  · simp [h, hi]
  · simp [h, hi]; omega

theorem bfe_field (signed : Bool) (a b : Word) :
    let pos := b.toNat % 256
    let len := b.toNat / 256 % 256
    if len = 0 ∨ 32 ≤ pos then bfe signed a b = 0
    else ∀ i < 32, (bfe signed a b).getLsbD i =
      if pos + i < min (pos + len) 32 then a.getLsbD (pos + i) else signed && a.getLsbD (min (pos + len) 32 - 1) := by
  intro pos len
  have hpos : (b.extractLsb' 0 8).toNat = pos := (toNat_byte b 0).trans (by simp [pos])
  have hlen : (b.extractLsb' 8 8).toNat = len := by simpa using toNat_byte b 1
  unfold bfe
  simp only [hpos, hlen]
  by_cases hz : len = 0 ∨ 32 ≤ pos
  · rw [if_pos hz, if_pos hz]
  rw [if_neg hz, if_neg hz]
  intro i hi
  generalize hn : min (pos + len) 32 - pos = n
  have hn1 : 0 < n := by omega
  have hn32 : n ≤ 32 := by omega
  have hend : min (pos + len) 32 - 1 = pos + (n - 1) := by omega
  have hin : pos + i < min (pos + len) 32 ↔ i < n := by omega
  have hfield := testBit_bits a pos n
  have hx : bits a.toNat pos n < 2 ^ n := Nat.mod_lt _ (Nat.two_pow_pos n)
  have htop : bitAt (bits a.toNat pos n) (n - 1) = a.getLsbD (pos + (n - 1)) := by
    rw [bitAt_eq_testBit, hfield]; simp [hn1]
  simp only [hin, htop, hend]
  cases hs : signed && a.getLsbD (pos + (n - 1))
  · rw [if_neg (by simp), BitVec.getLsbD_ofNat, hfield]
    by_cases h : i < n <;> simp [h, hi]
  · rw [if_pos rfl, getLsbD_ofInt_sub_two_pow hx hn32 hi, hfield]
    by_cases h : i < n <;> simp [h]

theorem bfi_field (a b c : Word) :
    let pos := c.toNat % 256
    let len := c.toNat / 256 % 256
    ∀ i < 32, (bfi a b c).getLsbD i = if pos ≤ i ∧ i < pos + len then a.getLsbD (i - pos) else b.getLsbD i := by
  intro pos len i hi
  have hpos : (c.extractLsb' 0 8).toNat = pos := (toNat_byte c 0).trans (by simp [pos])
  have hlen : (c.extractLsb' 8 8).toNat = len := by simpa using toNat_byte c 1
  unfold bfi
  simp only [hpos, hlen]
  by_cases h32 : 32 ≤ pos
  · rw [if_pos h32, if_neg (by omega)]
  · rw [if_neg h32, getLsbD_ofBitFn _ hi]
    have : (decide (pos ≤ i) && decide (i < pos + min len (32 - pos))) = decide (pos ≤ i ∧ i < pos + len) := by
      rw [← Bool.decide_and, decide_eq_decide]; omega
    simp only [this, decide_eq_true_eq]

/-! ### Byte mixes (R140) -/

/-- Byte `k` of a word, as the statement of BMIX names it. -/
def byteOf (w : Word) (k : Nat) : Nat := w.toNat / 256 ^ k % 256

/-- What R140's table gives for a selector: a byte of A or B, the sign of the byte before, ones or zeros. -/
def mixedByte (a b : Word) (prevNegative : Prop) [Decidable prevNegative] (sel : Nat) : Nat :=
  if sel < 4 then byteOf a sel else if sel < 8 then byteOf b (sel - 4)
  else if sel = 9 then (if prevNegative then 255 else 0) else if sel = 15 then 255 else 0

theorem toNat_bmixByte (a b : Word) (prev : Option Byte) (sel : Nat) :
    (bmixByte a b prev sel).toNat = mixedByte a b (∃ p ∈ prev, 128 ≤ p.toNat) sel := by
  have hsign (p : Byte) : p.getLsbD 7 = decide (128 ≤ p.toNat) := by
    have := p.isLt
    rw [BitVec.getLsbD, Nat.testBit_eq_decide_div_mod_eq, decide_eq_decide]; omega
  unfold bmixByte mixedByte byteOf
  split
  · exact toNat_byte a sel
  split
  · exact toNat_byte b (sel - 4)
  split
  · cases prev with
    | none => rfl
    | some p => simp only [hsign, Option.mem_some_iff, exists_eq_left', decide_eq_true_eq]; split <;> rfl
  · split <;> rfl

theorem byteOf_append (r3 r2 r1 r0 : Byte) : byteOf (r3 ++ r2 ++ r1 ++ r0) 0 = r0.toNat ∧
    byteOf (r3 ++ r2 ++ r1 ++ r0) 1 = r1.toNat ∧ byteOf (r3 ++ r2 ++ r1 ++ r0) 2 = r2.toNat ∧
    byteOf (r3 ++ r2 ++ r1 ++ r0) 3 = r3.toNat := by
  have h0 := r0.isLt; have h1 := r1.isLt; have h2 := r2.isLt; have h3 := r3.isLt
  simp only [byteOf, toNat_append_add]
  omega

theorem byteOf_bmix (a b c : Word) {k : Nat} (hk : k < 4) : byteOf (bmix a b c) k =
    mixedByte a b (k ≠ 0 ∧ 128 ≤ byteOf (bmix a b c) (k - 1)) (c.toNat / 16 ^ k % 16) := by
  obtain ⟨r0, h0⟩ : ∃ r, r = bmixByte a b none (c.extractLsb' (4 * 0) 4).toNat := ⟨_, rfl⟩
  obtain ⟨r1, h1⟩ : ∃ r, r = bmixByte a b (some r0) (c.extractLsb' (4 * 1) 4).toNat := ⟨_, rfl⟩
  obtain ⟨r2, h2⟩ : ∃ r, r = bmixByte a b (some r1) (c.extractLsb' (4 * 2) 4).toNat := ⟨_, rfl⟩
  obtain ⟨r3, h3⟩ : ∃ r, r = bmixByte a b (some r2) (c.extractLsb' (4 * 3) 4).toNat := ⟨_, rfl⟩
  obtain ⟨b0, b1, b2, b3⟩ := byteOf_append r3 r2 r1 r0
  have hmix : bmix a b c = r3 ++ r2 ++ r1 ++ r0 := by rw [h3, h2, h1, h0]; rfl
  rw [hmix]
  have step (prev : Option Byte) (k : Nat) : (bmixByte a b prev (c.extractLsb' (4 * k) 4).toNat).toNat =
      mixedByte a b (∃ p ∈ prev, 128 ≤ p.toNat) (c.toNat / 16 ^ k % 16) := by
    rw [toNat_bmixByte, toNat_nibble]
  match k, hk with
  | 0, _ => rw [b0, h0, step]; rfl
  | 1, _ => rw [b1, b0, h1, step]; simp
  | 2, _ => rw [b2, b1, h2, step]; simp
  | 3, _ => rw [b3, b2, h3, step]; simp

theorem bitFieldsExtractInsertAndMix : BitFieldsExtractInsertAndMix := by
  intro h o s a b c writes
  have hw : writes = fun i => MeetsWords s h o.d (exec i s) := rfl
  rw [hw]
  show (_ → MeetsWords s h o.d (execBfe h o s) _) ∧ MeetsWords s h o.d (execBfi h o s) _ ∧
    MeetsWords s h o.d (execBmix h o s) _
  refine ⟨fun _ => ?bfe, ?bfi, ?bmix⟩
  case bfe => exact alu2_meets fun l => bfe_field _ (a l) (b l)
  case bfi => exact alu3_meets fun l => bfi_field (a l) (b l) (c l)
  case bmix => exact alu3_meets fun l k hk => byteOf_bmix (a l) (b l) (c l) hk

/-- Settles O4, each instruction by the lemma of its word. -/
theorem logicShiftsAndBitFieldsWriteTheirValue : Obligations.LogicShiftsAndBitFieldsWriteTheirValue :=
  ⟨logicAndShiftsWriteTheTableValue, bitFieldsExtractInsertAndMix⟩

end Sys2Proof.ScalarVector
end

section
namespace Sys2Proof.ScalarVector
open Sys2Proof Sys2Proof.Machine Sys2Proof.Safety

/-! FP32 codes, rounding and FSCL, FMIN, FMAX, FRND, FCLASS: O6. -/

/-! ### Codes of a format with infinities (R63 to R66) -/

/-- Significand of a finite magnitude code, an integer. -/
def significand (F : Fmt) (m : Nat) : Nat := if m / 2 ^ F.f = 0 then m % 2 ^ F.f else 2 ^ F.f + m % 2 ^ F.f
/-- Exponent of the unit of a finite magnitude code. -/
def unitExp (F : Fmt) (m : Nat) : Int := ((max (m / 2 ^ F.f) 1 : Nat) : Int) - F.bias - F.f
/-- A finite magnitude in units of the format's least one. -/
def inLeastUnits (F : Fmt) (m : Nat) : Nat := significand F m * 2 ^ (max (m / 2 ^ F.f) 1 - 1)

/-- Above the greatest finite code stands infinity, and above it the NaNs. -/
theorem decode_eq {F : Fmt} (hF : F.inf = some (F.maxc + 1)) (c : Nat) :
    F.decode c = if F.maxc + 1 < c % 2 ^ (F.w - 1) then .nan
      else if F.maxc + 1 = c % 2 ^ (F.w - 1) then .inf (bitAt c (F.w - 1))
      else .fin (bitAt c (F.w - 1)) (significand F (c % 2 ^ (F.w - 1))) 1 (unitExp F (c % 2 ^ (F.w - 1))) := by
  unfold Fmt.decode significand unitExp
  simp only [hF]
  generalize c % 2 ^ (F.w - 1) = m
  by_cases h1 : F.maxc + 1 = m
  · simp [h1]
  by_cases h2 : F.maxc < m
  · simp [h1, h2, show F.maxc + 1 < m by omega]
  have h3 : ¬ F.maxc + 1 < m := by omega
  by_cases h0 : m / 2 ^ F.f = 0
  · simp [h1, h2, h3, h0]
  · rw [max_eq_left (Nat.one_le_iff_ne_zero.2 h0)]
    simp [h1, h2, h3, h0]

section
variable (F : Fmt)

theorem significand_lt (m : Nat) : significand F m < 2 ^ (F.f + 1) := by
  have := Nat.mod_lt m (Nat.two_pow_pos F.f)
  unfold significand
  split <;> omega

theorem significand_lt_iff (m : Nat) : significand F m < 2 ^ F.f ↔ m < 2 ^ F.f := by
  have hm := Nat.mod_lt m (Nat.two_pow_pos F.f)
  rw [← Nat.div_eq_zero_iff_lt (Nat.two_pow_pos F.f)]
  unfold significand
  split <;> simp_all

theorem significand_eq_zero (m : Nat) : significand F m = 0 ↔ m = 0 := by
  have hm := Nat.div_add_mod m (2 ^ F.f)
  have hp := Nat.two_pow_pos F.f
  unfold significand
  split
  · rename_i h; rw [h] at hm; omega
  · rename_i h
    have : m ≠ 0 := by rintro rfl; simp at h
    omega

theorem inLeastUnits_eq_zero (m : Nat) : inLeastUnits F m = 0 ↔ m = 0 := by
  simp [inLeastUnits, significand_eq_zero]

/-- Codes of one exponent lie below the least code of the next. -/
theorem inLeastUnits_lt (m : Nat) : inLeastUnits F m < 2 ^ F.f * 2 ^ (m / 2 ^ F.f) := by
  have hr := Nat.mod_lt m (Nat.two_pow_pos F.f)
  unfold inLeastUnits significand
  by_cases h : m / 2 ^ F.f = 0
  · simpa [h] using hr
  · obtain ⟨e, he⟩ := Nat.exists_eq_succ_of_ne_zero h
    rw [if_neg h, he, show max e.succ 1 - 1 = e by omega, Nat.pow_succ]
    calc (2 ^ F.f + m % 2 ^ F.f) * 2 ^ e < (2 ^ F.f * 2) * 2 ^ e := by gcongr; omega
      _ = _ := by ring

theorem inLeastUnits_strictMono : StrictMono (inLeastUnits F) := by
  intro a b hab
  rcases (Nat.div_le_div_right hab.le : a / 2 ^ F.f ≤ b / 2 ^ F.f).lt_or_eq with he | he
  · have hb : 2 ^ F.f * 2 ^ (b / 2 ^ F.f - 1) ≤ inLeastUnits F b := by
      have hb0 : b / 2 ^ F.f ≠ 0 := Nat.ne_zero_of_lt he
      rw [inLeastUnits, significand, if_neg hb0, max_eq_left (Nat.one_le_iff_ne_zero.2 hb0)]
      gcongr; omega
    calc inLeastUnits F a < 2 ^ F.f * 2 ^ (a / 2 ^ F.f) := inLeastUnits_lt F a
      _ ≤ 2 ^ F.f * 2 ^ (b / 2 ^ F.f - 1) := by gcongr; exacts [one_le_two, Nat.le_sub_one_of_lt he]
      _ ≤ _ := hb
  · have ha := Nat.div_add_mod a (2 ^ F.f)
    have hb := Nat.div_add_mod b (2 ^ F.f)
    rw [he] at ha
    have : significand F a < significand F b := by
      unfold significand; rw [he]; split <;> omega
    unfold inLeastUnits
    rw [he]; gcongr

/-! ### Minimum and maximum (R148) -/

/-- Value of a finite code: its magnitude in least units, with its sign. -/
theorem finVal_code (neg : Bool) (m : Nat) : finVal neg (significand F m) 1 (unitExp F m) =
    (if neg then -(inLeastUnits F m : ℚ) else inLeastUnits F m) * (2 : ℚ) ^ (1 - (F.bias : Int) - F.f) := by
  have : unitExp F m = ((max (m / 2 ^ F.f) 1 - 1 : Nat) : Int) + (1 - (F.bias : Int) - F.f) := by unfold unitExp; omega
  rw [finVal, this, zpow_add₀ two_ne_zero, zpow_natCast, inLeastUnits]
  cases neg <;> simp <;> ring

theorem finVal_lt_iff (n1 n2 : Bool) (m1 m2 : Nat) :
    finVal n2 (significand F m2) 1 (unitExp F m2) < finVal n1 (significand F m1) 1 (unitExp F m1) ↔
      (if n2 then -(inLeastUnits F m2 : Int) else inLeastUnits F m2) <
        if n1 then -(inLeastUnits F m1 : Int) else inLeastUnits F m1 := by
  rw [finVal_code, finVal_code, mul_lt_mul_iff_left₀ (by positivity)]
  cases n1 <;> cases n2 <;> simp <;> norm_cast

end

theorem above_inf_inf (n k : Bool) : above (.inf n) (.inf k) = (!n && k) := by cases n <;> cases k <;> rfl
theorem above_inf_fin (n k : Bool) (a d : Nat) (e : Int) : above (.inf n) (.fin k a d e) = !n := by cases n <;> rfl
theorem above_fin_inf (n k : Bool) (a d : Nat) (e : Int) : above (.fin n a d e) (.inf k) = k := by
  cases k <;> simp [above, Exact.cmp, Exact.isZero]
theorem above_fin_fin (n k : Bool) (a d b c : Nat) (e j : Int) : above (.fin n a d e) (.fin k b c j) =
    (decide (finVal k b c j < finVal n a d e) || (a == 0 && b == 0 && !n && k)) := by
  have : (compare (finVal n a d e) (finVal k b c j) == .gt) = decide (finVal k b c j < finVal n a d e) := by
    rw [Bool.eq_iff_iff, beq_iff_eq, compare_gt_iff_gt, decide_eq_true_iff]
  rw [← this]; rfl

/-- The order of R148 on patterns that are not NaN is the order of their keys. -/
theorem above_iff {F : Fmt} (hF : F.inf = some (F.maxc + 1)) {a b : Nat} (ha : (F.decode a).isNan = false)
    (hb : (F.decode b).isNan = false) : above (F.decode a) (F.decode b) = true ↔ fkey F b < fkey F a := by
  rw [decode_eq hF] at ha hb ⊢
  rw [decode_eq hF b]
  unfold fkey
  generalize a % 2 ^ (F.w - 1) = m1 at *
  generalize b % 2 ^ (F.w - 1) = m2 at *
  generalize bitAt a (F.w - 1) = n1 at *
  generalize bitAt b (F.w - 1) = n2 at *
  have hmono12 : inLeastUnits F m1 < inLeastUnits F m2 ↔ m1 < m2 := (inLeastUnits_strictMono F).lt_iff_lt
  have hmono21 : inLeastUnits F m2 < inLeastUnits F m1 ↔ m2 < m1 := (inLeastUnits_strictMono F).lt_iff_lt
  have hz1 := inLeastUnits_eq_zero F m1
  have hz2 := inLeastUnits_eq_zero F m2
  have h1 : ¬ F.maxc + 1 < m1 := fun h => by simp [h, Exact.isNan] at ha
  have h2 : ¬ F.maxc + 1 < m2 := fun h => by simp [h, Exact.isNan] at hb
  simp only [h1, h2, if_false]
  by_cases i1 : F.maxc + 1 = m1 <;> by_cases i2 : F.maxc + 1 = m2
  · rw [if_pos i1, if_pos i2, above_inf_inf]
    cases n1 <;> cases n2 <;> simp <;> omega
  · rw [if_pos i1, if_neg i2, above_inf_fin]
    cases n1 <;> cases n2 <;> simp <;> omega
  · rw [if_neg i1, if_pos i2, above_fin_inf]
    cases n1 <;> cases n2 <;> simp <;> omega
  · rw [if_neg i1, if_neg i2, above_fin_fin, Bool.or_eq_true, decide_eq_true_iff, finVal_lt_iff]
    cases n1 <;> cases n2 <;> simp [significand_eq_zero] <;> omega

section
variable {F : Fmt}

theorem fminN_picks (hF : F.inf = some (F.maxc + 1)) (a b : Nat) : PickRule F true a b (fminN F a b) := by
  unfold PickRule fminN
  cases hx : (F.decode a).isNan <;> cases hy : (F.decode b).isNan <;> simp [above_iff hF, hx, hy]
  simp only [← not_lt, ite_not]

theorem fmaxN_picks (hF : F.inf = some (F.maxc + 1)) (a b : Nat) : PickRule F false a b (fmaxN F a b) := by
  unfold PickRule fmaxN
  cases hx : (F.decode a).isNan <;> cases hy : (F.decode b).isNan <;> simp [above_iff hF, hx, hy]
  simp only [← not_lt, ite_not]

theorem fminN_lt {n a b : Nat} (hn : F.nan < n) (ha : a < n) (hb : b < n) : fminN F a b < n := by
  unfold fminN; split_ifs <;> assumption
theorem fmaxN_lt {n a b : Nat} (hn : F.nan < n) (ha : a < n) (hb : b < n) : fmaxN F a b < n := by
  unfold fmaxN; split_ifs <;> assumption
end

theorem fmt32_inf : fmt32.inf = some (fmt32.maxc + 1) := rfl

theorem fmin_picks (a b : Word) : PickRule fmt32 true a.toNat b.toNat (BitVec.ofNat 32 (fminN fmt32 a.toNat b.toNat)).toNat := by
  rw [BitVec.toNat_ofNat, Nat.mod_eq_of_lt (fminN_lt (by decide) a.isLt b.isLt)]
  exact fminN_picks fmt32_inf _ _
theorem fmax_picks (a b : Word) : PickRule fmt32 false a.toNat b.toNat (BitVec.ofNat 32 (fmaxN fmt32 a.toNat b.toNat)).toNat := by
  rw [BitVec.toNat_ofNat, Nat.mod_eq_of_lt (fmaxN_lt (by decide) a.isLt b.isLt)]
  exact fmaxN_picks fmt32_inf _ _

/-! ### FP32 patterns -/

/-- An FP32 pattern by its magnitude: NaN above infinity, infinity, or a finite value whose integer significand is below 2^24. -/
theorem f32_eq (a : Word) : f32 a = if 0x7F800000 < a.toNat % 2 ^ 31 then .nan
    else if 0x7F800000 = a.toNat % 2 ^ 31 then .inf (a.getLsbD 31)
    else .fin (a.getLsbD 31) (significand fmt32 (a.toNat % 2 ^ 31)) 1 (unitExp fmt32 (a.toNat % 2 ^ 31)) := by
  rw [f32, decode_eq fmt32_inf, bitAt_eq_testBit]; rfl

/-- A pattern is its sign and its magnitude. -/
theorem ofNat_signed (a : Word) : BitVec.ofNat 32 (fmt32.signed (a.getLsbD 31) (a.toNat % 2 ^ 31)) = a := by
  refine BitVec.eq_of_toNat_eq ?_
  have := a.isLt
  rw [BitVec.getLsbD, Nat.testBit_eq_decide_div_mod_eq, Fmt.signed, BitVec.toNat_ofNat]
  simp only [decide_eq_true_eq, fmt32]
  split <;> omega

/-- What the finite FP32 values have in common. -/
theorem f32_fin {a : Word} {n : Bool} {num den : Nat} {e : Int} (h : f32 a = .fin n num den e) :
    n = a.getLsbD 31 ∧ den = 1 ∧ num < 2 ^ 24 ∧ -149 ≤ e ∧ e ≤ 104 ∧ (num = 0 ↔ a.toNat % 2 ^ 31 = 0) ∧
      (num < 2 ^ 23 ↔ a.toNat % 2 ^ 31 < 2 ^ 23) ∧ a.toNat % 2 ^ 31 < 0x7F800000 := by
  rw [f32_eq] at h
  split at h
  · cases h
  split at h
  · cases h
  cases h
  have hm : a.toNat % 2 ^ 31 < 0x7F800000 := by omega
  refine ⟨rfl, rfl, significand_lt fmt32 _, ?_, ?_, significand_eq_zero fmt32 _, significand_lt_iff fmt32 _, hm⟩ <;>
    simp only [unitExp, fmt32] <;> omega

theorem f32_inf {a : Word} {n : Bool} (h : f32 a = .inf n) : n = a.getLsbD 31 ∧ a.toNat % 2 ^ 31 = 0x7F800000 := by
  rw [f32_eq] at h
  split at h
  · cases h
  split at h
  · cases h; exact ⟨rfl, by omega⟩
  · cases h

theorem f32_nan {a : Word} (h : f32 a = .nan) : 0x7F800000 < a.toNat % 2 ^ 31 := by
  rw [f32_eq] at h
  split at h
  · assumption
  split at h <;> cases h

/-! ### Classes (R150) -/

theorem fclass_bit (a : Word) : ∃ k, fclass a = BitVec.ofNat 32 (2 ^ k) ∧ match f32 a with
    | .nan => k = 8
    | .inf n => k = if n then 0 else 7
    | .fin n num _ _ => if num = 0 then k = if n then 3 else 4
      else if num < 2 ^ 23 then k = if n then 2 else 5 else k = if n then 1 else 6 := by
  have hbit (k : Nat) : 1#32 <<< k = BitVec.ofNat 32 (2 ^ k) := by
    rw [← BitVec.toNat_inj, BitVec.toNat_shiftLeft, Nat.shiftLeft_eq, BitVec.toNat_ofNat, BitVec.toNat_ofNat,
      Nat.mod_mul_mod, Nat.one_mul]
  refine ⟨_, hbit _, ?_⟩
  cases hx : f32 a with
  | nan => simp only [f32_nan hx, if_true]
  | inf n =>
    obtain ⟨rfl, hm⟩ := f32_inf hx
    simp only [hm, lt_self_iff_false, if_true, if_false]
  | fin n num den e =>
    obtain ⟨rfl, -, -, -, -, hz, hs, hm⟩ := f32_fin hx
    have h1 : ¬ 0x7F800000 < a.toNat % 2 ^ 31 := by omega
    have h2 : ¬ a.toNat % 2 ^ 31 = 0x7F800000 := by omega
    have h3 : 0x00800000 ≤ a.toNat % 2 ^ 31 ↔ ¬ num < 2 ^ 23 := by omega
    simp only [h1, h2, h3, ← hz, if_false]
    by_cases h0 : num = 0
    · simp only [h0, if_true, Nat.two_pow_pos, not_true, if_false]
    · by_cases h4 : num < 2 ^ 23 <;> simp only [h0, h4, not_true, not_false_eq_true, if_true, if_false]

/-! ### Rounding to an integer (R149) -/

/-- A quotient of naturals is its integer part and a proper fraction. -/
theorem div_eq_add_fraction (n : Nat) {d : Nat} (hd : 0 < d) :
    ∃ t : ℚ, (n : ℚ) / d = (n / d : Nat) + t ∧ 0 ≤ t ∧ t < 1 ∧ (n % d = 0 ↔ t = 0) ∧ (2 * (n % d) < d ↔ t < 1 / 2) ∧
      (d < 2 * (n % d) ↔ 1 / 2 < t) := by
  have hd' : (0 : ℚ) < d := by exact_mod_cast hd
  have hr : (n % d : Nat) < d := Nat.mod_lt n hd
  refine ⟨(n % d : Nat) / d, ?_, by positivity, ?_, ?_, ?_, ?_⟩
  · rw [eq_comm, add_div' _ _ _ hd'.ne', div_left_inj' hd'.ne']
    exact_mod_cast Nat.div_add_mod' n d
  · rw [div_lt_one hd']; exact_mod_cast hr
  · simp [hd'.ne']
  · rw [div_lt_div_iff₀ hd' two_pos, mul_comm, one_mul]; exact_mod_cast Iff.rfl
  · rw [div_lt_div_iff₀ two_pos hd', mul_comm, one_mul]; exact_mod_cast Iff.rfl

/-- Each mode rounds a magnitude as R70 says. -/
theorem roundNat_bounds (neg : Bool) (n : Nat) {d : Nat} (hd : 0 < d) (r : Rnd) :
    let v : ℚ := n / d
    let m := roundNat r neg n d
    match r with
    | .rtz => (m : ℚ) ≤ v ∧ v < m + 1
    | .rup => if neg then (m : ℚ) ≤ v ∧ v < m + 1 else v ≤ m ∧ (m : ℚ) < v + 1
    | .rdn => if neg then v ≤ m ∧ (m : ℚ) < v + 1 else (m : ℚ) ≤ v ∧ v < m + 1
    | .rne => |v - m| ≤ 1 / 2 ∧ (|v - m| = 1 / 2 → m % 2 = 0) := by
  intro v m
  obtain ⟨t, hv, h0, h1, hz, hlo, hhi⟩ := div_eq_add_fraction n hd
  have hvq : v = (n / d : Nat) + t := hv
  generalize hq : n / d = q at *
  by_cases h : n % d = 0
  · have hm : m = q := by simp [m, roundNat, h, hq]
    have hvm : v = m := by rw [hm, hvq, hz.1 h, add_zero]
    cases r <;> cases neg <;> simp [hvm]
  have hpos : 0 < t := lt_of_le_of_ne h0 fun e => h (hz.2 e.symm)
  have hm : m = _ := if_neg h
  have down : (q : ℚ) ≤ v ∧ v < q + 1 := ⟨by linarith, by linarith⟩
  have up : v ≤ (q + 1 : Nat) ∧ ((q + 1 : Nat) : ℚ) < v + 1 := by push_cast; constructor <;> linarith
  have dq : |v - q| = t := by rw [hvq, add_sub_cancel_left, abs_of_pos hpos]
  have dq1 : |v - (q + 1 : Nat)| = 1 - t := by
    rw [hvq, Nat.cast_add, Nat.cast_one, add_sub_add_left_eq_sub, abs_sub_comm, abs_of_pos (by linarith)]
  cases r with
  | rtz => simp only [hm, hq]; exact down
  | rup => cases neg <;> simp only [hm, hq, if_true, Bool.false_eq_true, if_false] <;> assumption
  | rdn => cases neg <;> simp only [hm, hq, if_true, Bool.false_eq_true, if_false] <;> assumption
  | rne =>
    simp only [hm, hq, hlo, hhi]
    split
    · rw [dq]; exact ⟨by linarith, fun he => by linarith⟩
    split
    · rw [dq1]; exact ⟨by linarith, fun he => by linarith⟩
    split
    · rw [dq]; exact ⟨by linarith, fun _ => by assumption⟩
    · rw [dq1]; exact ⟨by linarith, fun _ => by omega⟩

theorem fracOf_val (num : Nat) {den : Nat} (hd : 0 < den) (e : Int) :
    0 < (fracOf num den e).2 ∧ ((fracOf num den e).1 : ℚ) / (fracOf num den e).2 = finVal false num den e := by
  unfold fracOf finVal
  split
  · rename_i h
    obtain ⟨k, rfl⟩ := Int.eq_ofNat_of_zero_le h
    refine ⟨hd, ?_⟩
    simp; ring
  · rename_i h
    obtain ⟨k, hk⟩ := Int.eq_ofNat_of_zero_le (show 0 ≤ -e by omega)
    refine ⟨Nat.mul_pos hd (Nat.two_pow_pos _), ?_⟩
    rw [show e = -(k : Int) by omega]
    simp [div_eq_mul_inv]; ring

theorem frnd_integral (r : Rnd) (a : Word) : match f32 a with
    | .nan => (toF32 .rne (integral r (f32 a))).1 = 0x7FC00000
    | .inf _ => (toF32 .rne (integral r (f32 a))).1 = a
    | .fin n num den e => ∃ m : Nat, (toF32 .rne (integral r (f32 a))).1 = (toF32 .rne (.fin n m 1 0)).1 ∧
        (num = 0 → m = 0) ∧
        let v := finVal false num den e
        match r with
        | .rtz => (m : ℚ) ≤ v ∧ v < m + 1
        | .rup => if n then (m : ℚ) ≤ v ∧ v < m + 1 else v ≤ m ∧ (m : ℚ) < v + 1
        | .rdn => if n then v ≤ m ∧ (m : ℚ) < v + 1 else (m : ℚ) ≤ v ∧ v < m + 1
        | .rne => |v - m| ≤ 1 / 2 ∧ (|v - m| = 1 / 2 → m % 2 = 0) := by
  cases hx : f32 a with
  | nan => rfl
  | inf n =>
    obtain ⟨rfl, hm⟩ := f32_inf hx
    have := ofNat_signed a
    rwa [hm] at this
  | fin n num den e =>
    obtain ⟨-, rfl, -⟩ := f32_fin hx
    obtain ⟨hd, hv⟩ := fracOf_val num Nat.one_pos e
    refine ⟨_, rfl, ?_, ?_⟩
    · rintro rfl
      simp [roundNat, fracOf]; split <;> simp
    · rw [← hv]; exact roundNat_bounds n _ hd r

/-! ### Scaling by a power of two (R147) -/

/-- With one operand that is not NaN, the rule of R147 is the conversion of the result. -/
theorem arith_one (F : Fmt) (r : Rnd) {x y : Exact} (hx : x.isNan = false) (hy : y.isNan = false) :
    arith F r [x] y = conv F r false y := by
  cases y with
  | nan => cases hy
  | inf n => simp [arith, hx]
  | fin n a d e => simp [arith, hx]

theorem ilog2_one (num : Nat) (h : num ≠ 0) : ilog2 num 1 = Nat.log2 num := by
  have hle : 2 ^ num.log2 ≤ num := Nat.log2_self_le h
  have h1 : Nat.log2 1 = 0 := by decide
  simp [ilog2, fracOf, hle, h1]

/-- The code of a significand of full width, and of a lesser one. -/
theorem code_normal (F : Fmt) {m : Nat} (q : Int) (h1 : 2 ^ F.f ≤ m) (h2 : m < 2 ^ (F.f + 1)) :
    F.code m q = (q + F.f + F.bias).toNat * 2 ^ F.f + (m - 2 ^ F.f) := by
  unfold Fmt.code
  simp only [if_neg h2.ne, if_neg h1.not_gt]
theorem code_subnormal (F : Fmt) {m : Nat} (q : Int) (h : m < 2 ^ F.f) : F.code m q = m := by
  have h2 : m ≠ 2 ^ (F.f + 1) := (h.trans_le (Nat.pow_le_pow_right two_pos (Nat.le_succ _))).ne
  unfold Fmt.code
  simp only [if_neg h2, if_pos h]

/-- Conv of a finite value other than 0, on the format's grid (R70). -/
theorem conv_fin (F : Fmt) (r : Rnd) (sat n : Bool) {num den : Nat} {e : Int} (h0 : num ≠ 0) :
    conv F r sat (.fin n num den e) =
      let q := F.unit num den e
      let fr := fracOf num den (e - q)
      let c := F.code (roundNat r n fr.1 fr.2) q
      let nx := fr.1 % fr.2 != 0
      if F.maxc < c then (F.signed n (F.overCode r sat n), flOF ||| flNX)
      else (F.signed n c, flIf nx flNX ||| flIf (nx && F.tiny num den e) flUF) := if_neg h0

/-- A significand below 2^24 times 2^e, e at least 128, is beyond FP32's range. -/
theorem conv_overflow (r : Rnd) (n : Bool) {num : Nat} {e : Int} (h0 : num ≠ 0) (hn : num < 2 ^ 24) (he : 128 ≤ e) :
    conv fmt32 r false (.fin n num 1 e) = (fmt32.signed n (fmt32.overCode r false n), 4 ||| 16) := by
  obtain ⟨k, hk⟩ : ∃ k, k = num.log2 := ⟨_, rfl⟩
  have hk24 : k < 24 := hk ▸ (Nat.log2_lt h0).2 hn
  have hlo : 2 ^ k ≤ num := hk ▸ Nat.log2_self_le h0
  have hhi : num < 2 ^ (k + 1) := hk ▸ Nat.lt_log2_self
  have hunit : fmt32.unit num 1 e = k + e - 23 := by
    rw [Fmt.unit, ilog2_one num h0, ← hk]; simp only [fmt32]; omega
  have hfrac : fracOf num 1 (e - fmt32.unit num 1 e) = (num * 2 ^ (23 - k), 1) := by
    rw [hunit, fracOf, if_pos (by omega), show (e - (k + e - 23)).toNat = 23 - k by omega]
  have hm : roundNat r n (num * 2 ^ (23 - k)) 1 = num * 2 ^ (23 - k) := by simp [roundNat, Nat.mod_one]
  have hm1 : 2 ^ 23 ≤ num * 2 ^ (23 - k) := by
    calc 2 ^ 23 = 2 ^ k * 2 ^ (23 - k) := by rw [← Nat.pow_add]; congr 1; omega
      _ ≤ _ := Nat.mul_le_mul_right _ hlo
  have hm2 : num * 2 ^ (23 - k) < 2 ^ 24 := by
    calc num * 2 ^ (23 - k) < 2 ^ (k + 1) * 2 ^ (23 - k) := Nat.mul_lt_mul_of_pos_right hhi (Nat.two_pow_pos _)
      _ = 2 ^ 24 := by rw [← Nat.pow_add]; congr 1; omega
  have hcode : fmt32.maxc < fmt32.code (num * 2 ^ (23 - k)) (k + e - 23) := by
    rw [code_normal fmt32 _ hm1 hm2]
    simp only [fmt32]; omega
  simp only [conv_fin _ _ _ _ h0, hfrac, hm]
  rw [hunit, if_pos hcode]
  rfl

/-- A significand below 2^24 times 2^e, e at most −200, is below half of FP32's least value: only an upward mode leaves 0. -/
theorem conv_underflow (r : Rnd) (n : Bool) {num : Nat} {e : Int} (h0 : num ≠ 0) (hn : num < 2 ^ 24) (he : e ≤ -200) :
    conv fmt32 r false (.fin n num 1 e) =
      (fmt32.signed n (if r = .rup ∧ n = false ∨ r = .rdn ∧ n = true then 1 else 0), 8 ||| 16) := by
  have hk24 : num.log2 < 24 := (Nat.log2_lt h0).2 hn
  have hunit : fmt32.unit num 1 e = -149 := by
    rw [Fmt.unit, ilog2_one num h0]; simp only [fmt32]; omega
  obtain ⟨d, hd⟩ : ∃ d, d = 2 ^ (-(e + 149)).toNat := ⟨_, rfl⟩
  have hbig : 2 ^ 25 ≤ d := hd ▸ Nat.pow_le_pow_right (by decide) (by omega)
  have hfrac : fracOf num 1 (e - fmt32.unit num 1 e) = (num, d) := by
    rw [hunit, fracOf, if_neg (by omega), hd, Nat.one_mul]; rfl
  have hmod : num % d = num := Nat.mod_eq_of_lt (by omega)
  have hm : roundNat r n num d = if r = .rup ∧ n = false ∨ r = .rdn ∧ n = true then 1 else 0 := by
    unfold roundNat
    simp only [hmod, Nat.div_eq_of_lt (show num < d by omega), if_neg h0]
    cases r with
    | rne => simp [show 2 * num < d by omega]
    | rtz => simp
    | rup => cases n <;> simp
    | rdn => cases n <;> simp
  have htiny : fmt32.tiny num 1 e = true := by
    rw [Fmt.tiny, ilog2_one num h0, Bool.and_eq_true, decide_eq_true_eq, bne_iff_ne]
    refine ⟨h0, ?_⟩
    simp only [fmt32]; omega
  simp only [conv_fin _ _ _ _ h0, hfrac, hm, hmod, htiny]
  rw [code_subnormal fmt32 _ (by split <;> decide), if_neg (by split <;> decide), (bne_iff_ne).2 h0]
  rfl

/-- FSCL's result for the power `b`. -/
def scaled (r : Rnd) (a b : Word) : Nat × Fl :=
  arith fmt32 r [f32 a] ((f32 a).scale (max (-600) (min 600 b.toInt)))

theorem scaled_eq (r : Rnd) (a b : Word) : if (f32 a).isNan then scaled r a b = (0x7FC00000, 0)
    else -600 ≤ b.toInt → b.toInt ≤ 600 → ∃ x, scaled r a b = conv fmt32 r false x ∧
      if (f32 a).isInf then x = f32 a
      else ∃ num e, x = .fin (f32 a).neg num 1 e ∧
        finVal (f32 a).neg num 1 e = Exact.val (f32 a) * (2 : ℚ) ^ b.toInt := by
  unfold scaled
  cases hx : f32 a with
  | nan => rfl
  | inf n => exact fun _ _ => ⟨_, arith_one _ _ rfl rfl, rfl⟩
  | fin n num den e =>
    obtain ⟨-, rfl, -⟩ := f32_fin hx
    intro h1 h2
    rw [min_eq_right h2, max_eq_right h1]
    refine ⟨_, arith_one _ _ rfl rfl, num, e + b.toInt, rfl, ?_⟩
    simp only [Exact.neg, Exact.val, finVal]
    rw [zpow_add₀ two_ne_zero, ← mul_assoc]; rfl

theorem scaled_special (r : Rnd) (a b : Word) (h : (f32 a).isInf ∨ (f32 a).isZero) :
    BitVec.ofNat 32 (scaled r a b).1 = a ∧ (scaled r a b).2 = 0 := by
  have hs := ofNat_signed a
  unfold scaled
  cases hx : f32 a with
  | nan => simp [hx, Exact.isInf, Exact.isZero] at h
  | inf n =>
    obtain ⟨rfl, hm⟩ := f32_inf hx
    rw [hm] at hs
    rw [arith_one _ _ rfl rfl]
    exact ⟨hs, rfl⟩
  | fin n num den e =>
    obtain ⟨rfl, -, -, -, -, hz, -⟩ := f32_fin hx
    have h0 : num = 0 := by simpa [hx, Exact.isInf, Exact.isZero] using h
    rw [hz.1 h0] at hs
    rw [arith_one _ _ rfl rfl]
    subst h0
    exact ⟨hs, rfl⟩

theorem scaled_far (r : Rnd) (a b : Word) (hf : isFinite (f32 a)) (hz : (f32 a).isZero = false) :
    (600 < b.toInt → scaled r a b = (fmt32.signed (f32 a).neg (fmt32.overCode r false (f32 a).neg), 4 ||| 16)) ∧
    (b.toInt < -600 → scaled r a b = (fmt32.signed (f32 a).neg
      (if r = .rup ∧ (f32 a).neg = false ∨ r = .rdn ∧ (f32 a).neg = true then 1 else 0), 8 ||| 16)) := by
  unfold scaled
  cases hx : f32 a with
  | nan => simp [hx, isFinite] at hf
  | inf n => simp [hx, isFinite] at hf
  | fin n num den e =>
    obtain ⟨-, rfl, hlt, he1, he2, -⟩ := f32_fin hx
    have h0 : num ≠ 0 := by simpa [hx, Exact.isZero] using hz
    rw [arith_one _ _ rfl rfl]
    constructor
    · intro hb
      exact conv_overflow r n h0 hlt (by omega)
    · intro hb
      exact conv_underflow r n h0 hlt (by omega)

/-- Settles O6, each instruction by the lemma of its rule. -/
theorem scaleMinimumRoundAndClassFollowTheirRules : Obligations.ScaleMinimumRoundAndClassFollowTheirRules := by
  intro h o s a b writes
  have hw : writes = fun i => MeetsWords s h o.d (exec i s) := rfl
  obtain ⟨t, ht, w⟩ := fpu2_writes s h o fun a b => w32 (scaled o.rnd a b)
  rw [hw]
  refine ⟨⟨t, ht, fun l => scaled o.rnd (a l) (b l), w, fun l => scaled_eq _ _ _⟩,
    ⟨t, ht, fun l => scaled o.rnd (a l) (b l), w, fun l => ⟨scaled_special _ _ _, fun hf hz => (scaled_far _ _ _ hf hz).1,
      fun hf hz => (scaled_far _ _ _ hf hz).2⟩⟩, ?_⟩
  show MeetsWords s h o.d (execFmin h o s) _ ∧ MeetsWords s h o.d (execFmax h o s) _ ∧
    MeetsWords s h o.d (execFrnd h o s) _ ∧ MeetsWords s h o.d (execFclass h o s) _
  exact ⟨alu2_meets fun l => fmin_picks _ _, alu2_meets fun l => fmax_picks _ _,
    alu1_meets fun l => frnd_integral _ _, alu1_meets fun l => fclass_bit _⟩

end Sys2Proof.ScalarVector
end

section
namespace Sys2Proof.ScalarVector
open Sys2Proof Sys2Proof.Machine Sys2Proof.Safety

/-! The operations across lanes: O9. -/

/-! ### Masks of lanes (R154) -/

/-- The model keeps 64 lanes to a group (R9): an active lane is one of the mask. -/
theorem activeLane_lt {s : State} {h : Hdr} {l : Nat} (hl : l ∈ activeLanes s h) : l < 64 := by
  have hm := (mem_activeLanes.1 hl).2
  simp only [activeLane, Bool.and_eq_true] at hm
  exact BitVec.lt_of_getLsbD hm.1.1

theorem getLsbD_lanesMask (ls : List Nat) {j : Nat} (hj : j < 64) : (lanesMask ls).getLsbD j = ls.contains j := by
  induction ls with
  | nil => simp [lanesMask]
  | cons l ls ih =>
    rw [lanesMask, BitVec.getLsbD_or, ih, List.contains_cons, Bool.or_comm]
    congr 1
    rw [BitVec.getLsbD_shiftLeft, BitVec.getLsbD_one, Bool.eq_iff_iff]
    simp [hj]; omega

theorem getLsbD_lanesMask_filter (ls : List Nat) (p : Nat → Bool) {j : Nat} (hj : j < 64) :
    (lanesMask (ls.filter p)).getLsbD j = (ls.contains j && p j) := by
  rw [getLsbD_lanesMask _ hj, Bool.eq_iff_iff]; simp

/-- The pair of words of a mask (R118): lane j and lane j + 32. -/
theorem getLsbD_maskWords (ls : List Nat) (p : Nat → Bool) {j : Nat} (hj : j < 32) :
    ((lanesMask (ls.filter p)).extractLsb' 0 32).getLsbD j = (ls.contains j && p j) ∧
    ((lanesMask (ls.filter p)).extractLsb' 32 32).getLsbD j = (ls.contains (j + 32) && p (j + 32)) := by
  constructor
  · rw [BitVec.getLsbD_extractLsb', Nat.zero_add, getLsbD_lanesMask_filter _ _ (by omega)]; simp [hj]
  · rw [BitVec.getLsbD_extractLsb', Nat.add_comm, getLsbD_lanesMask_filter _ _ (by omega)]; simp [hj]

theorem lanesMask_filter_eq (ls : List Nat) (hls : ∀ l ∈ ls, l < 64) (p : Nat → Bool) :
    (lanesMask (ls.filter p) == lanesMask ls) = ls.all p := by
  rw [Bool.eq_iff_iff, beq_iff_eq, List.all_eq_true]
  constructor
  · intro he l hl
    have hbit := getLsbD_lanesMask_filter ls p (hls l hl)
    rw [he, getLsbD_lanesMask ls (hls l hl)] at hbit
    simpa [hl] using hbit
  · intro ha
    rw [List.filter_eq_self.2 ha]

theorem lanesMask_filter_eq_zero (ls : List Nat) (hls : ∀ l ∈ ls, l < 64) (p : Nat → Bool) :
    (lanesMask (ls.filter p) == 0) = ls.all fun l => !p l := by
  rw [Bool.eq_iff_iff, beq_iff_eq, List.all_eq_true]
  constructor
  · intro he l hl
    have hbit := getLsbD_lanesMask_filter ls p (hls l hl)
    rw [he] at hbit
    simpa [hl] using hbit
  · intro ha
    rw [List.filter_eq_nil_iff.2 fun l hl => by simpa using ha l hl]; rfl

theorem lanesMask_filter_ne_zero (ls : List Nat) (hls : ∀ l ∈ ls, l < 64) (p : Nat → Bool) :
    (lanesMask (ls.filter p) != 0) = ls.any p := by
  rw [bne, lanesMask_filter_eq_zero ls hls, List.not_all_eq_any_not]; simp

theorem src_pred (s : State) (g : Group) (imm : Word) {i : BitVec 8} (hi : i.toNat < 8) (l : Nat) :
    (src s g imm (.spc i) l != 0) = predOf (g.lane l) i.toNat := by
  rw [src, if_pos hi]; cases predOf (g.lane l) i.toNat <;> rfl

/-- VOTE by its counts over the active lanes, and by the mask of those whose predicate is set (R156). -/
theorem exec_vote (s : State) (h : Hdr) (o : AluOps) {i : BitVec 8} (ha : o.a = .spc i) (hi : i.toNat < 8) :
    let act := activeLanes s h
    let p := fun l => predOf (s.curG.lane l) i.toNat
    let m := lanesMask (act.filter p)
    exec (.vote h o) s = .next (s.perLane h o.d fun _ _ =>
      if o.mod.toNat % 4 = 3 then ([m.extractLsb' 0 32, m.extractLsb' 32 32], 0)
      else ([truth (if o.mod.toNat % 4 = 0 then act.all p else if o.mod.toNat % 4 = 1 then act.any p
        else act.all p || act.all fun l => !p l)], 0)) := by
  intro act p m
  have hp : (fun l => src s s.curG 0 o.a l != 0) = p := funext fun l => by rw [ha, src_pred _ _ _ hi]
  have hact : ∀ l ∈ act, l < 64 := fun l => activeLane_lt
  show execVote h o s = _
  unfold execVote
  simp only [hp, show activeLanes s h = act from rfl, lanesMask_filter_eq act hact, lanesMask_filter_eq_zero act hact,
    lanesMask_filter_ne_zero act hact, Bool.or_comm (act.all fun l => !p l)]
  rfl

/-- SHFL, VOTE and MATCH (R155, R156, R158). -/
theorem shufflesVotesAndMatchesReadTheActiveLanes : ShufflesVotesAndMatchesReadTheActiveLanes := by
  intro h o s a b act mask from'
  refine ⟨?shfl, ?vote, ?matchl⟩
  case shfl =>
    refine State.perLane_gives (fun l => ?_) (fun _ => rfl) fun _ => by simp
    have hj : shflLane (o.mod.toNat % 4) s.curG.width l (b l) = from' l := rfl
    simp only [show src s s.curG o.imm o.b l = b l from rfl, hj, Bool.not_eq_true']
    split <;> rfl
  case vote =>
    intro i ha hi p
    have hexec := exec_vote s h o ha hi
    constructor
    · intro hm
      rw [hexec]
      simp only [if_neg hm]
      refine State.perLane_gives (fun l => ?_) (fun l => rfl) fun _ => by simp
      generalize o.mod.toNat % 4 = mode
      match mode with
      | 0 => rfl
      | 1 => rfl
      | n + 2 => rfl
    · intro hm
      rw [hexec]
      simp only [if_pos hm]
      exact ⟨_, rfl, _, _, State.perLane_writes s h o.d _ fun _ _ => by simp, fun j hj => getLsbD_maskWords act p hj⟩
  case matchl =>
    exact ⟨_, rfl, _, _, State.perLane_writes s h o.d _ fun _ _ => by simp, fun l j hj => getLsbD_maskWords act _ hj⟩

/-! ### Folds of words (R157) -/

/-- The types of a fold that are integers. -/
def IntegerFold (t : Ty) : Prop := t = .dflt ∨ t = .i32 ∨ t = .n32

theorem IntegerFold.ne_f32 {t : Ty} (ht : IntegerFold t) : (t == .f32) = false := by
  rcases ht with rfl | rfl | rfl <;> rfl

theorem ofInt_readAs (sg : Bool) (w : Word) : BitVec.ofInt 32 (readAs sg w) = w := by
  cases sg <;> simp [readAs]

theorem readAs_eq_typeInt {t : Ty} (ht : IntegerFold t) (w : Word) : readAs (signedTy t) w = typeInt t w := by
  have hs : w.toInt = if w.toNat < 2 ^ 31 then (w.toNat : Int) else (w.toNat : Int) - 2 ^ 32 := by
    rw [BitVec.toInt_eq_toNat_cond]; split <;> split <;> omega
  rcases ht with rfl | rfl | rfl
  · exact hs
  · exact hs
  · rfl

theorem ofNat_emod (y : Int) : BitVec.ofNat 32 (y % 2 ^ 32).toNat = BitVec.ofInt 32 y := by
  refine BitVec.eq_of_toNat_eq ?_
  rw [BitVec.toNat_ofInt, BitVec.toNat_ofNat]
  exact Nat.mod_eq_of_lt (by omega)

/-- Sat32 and Wrap32 (R55). -/
theorem narrow_eq_written {o : AluOps} (ht : IntegerFold o.ty) (x : Int) : narrow o x = written o x := by
  unfold narrow written
  simp only [ofNat_emod]
  cases o.sat with
  | false => rfl
  | true =>
    rw [if_pos rfl, if_pos rfl, sat32]
    rcases ht with h | h | h <;> simp only [h, signedTy, if_true, if_false, reduceCtorEq, Bool.false_eq_true] <;> congr 1 <;>
      split <;> (try split) <;> omega

/-- The accumulator of a fold read as a word and flags. -/
def accWord (a : FoldAcc) : Word × Fl := (BitVec.ofInt 32 a.1, a.2)

section
variable {o : AluOps}

theorem foldInit_f32 (ht : o.ty = .f32) (op : Nat) (w : Word) : accWord (foldInit o op w) = (w, 0) := by
  simp [foldInit, ht, accWord]

theorem foldInit_int (ht : IntegerFold o.ty) (op : Nat) (w : Word) : accWord (foldInit o op w) = (w, 0) := by
  unfold foldInit
  simp only [ht.ne_f32]
  by_cases h : op ≤ 2 <;> simp [h, accWord, ofInt_readAs]

/-- Patterns come out of a fold as they are held. -/
theorem foldAll_eq_accWord {op : Nat} (h : o.ty = .f32 ∨ 0 < op) (v : Word) (rest : List Word) :
    foldAll o op (v :: rest) = accWord (rest.foldl (foldStep o op) (foldInit o op v)) := by
  have : (o.ty == .f32 || decide (0 < op)) = true := by simpa using h
  simp only [foldAll, foldOut, this, if_true, accWord]

/-- A step on patterns, folded. -/
theorem foldAll_of_step {op : Nat} (h : o.ty = .f32 ∨ 0 < op) (g : Word × Fl → Word → Word × Fl)
    (h0 : ∀ v, accWord (foldInit o op v) = (v, 0)) (hg : ∀ a w, g (accWord a) w = accWord (foldStep o op a w))
    (v : Word) (rest : List Word) : foldAll o op (v :: rest) = rest.foldl g (v, 0) := by
  rw [foldAll_eq_accWord h, ← h0, List.foldl_hom accWord hg]

/-- The same where a step raises no flag. -/
theorem foldAll_of_word_step {op : Nat} (h : o.ty = .f32 ∨ 0 < op) (g : Word → Word → Word)
    (h0 : ∀ v, accWord (foldInit o op v) = (v, 0))
    (hg : ∀ a w, accWord (foldStep o op a w) = (g (BitVec.ofInt 32 a.1) w, a.2))
    (v : Word) (rest : List Word) : foldAll o op (v :: rest) = (rest.foldl g v, 0) := by
  rw [foldAll_of_step h (fun a w => (g a.1 w, a.2)) h0 fun a w => (hg a w).symm]
  exact (List.foldl_hom (fun w : Word => (w, (0 : Fl))) fun _ _ => rfl)

theorem foldAll_f32 {op : Nat} (ht : o.ty = .f32) (v : Word) (rest : List Word) : foldAll o op (v :: rest) = match op with
    | 0 => rest.foldl (fun (acc : Word × Fl) w =>
        let p := fAdd fmt32 o.rnd (f32 acc.1) (f32 w)
        (BitVec.ofNat 32 p.1, acc.2 ||| p.2)) (v, 0)
    | 1 => (rest.foldl (fun acc w => BitVec.ofNat 32 (fminN fmt32 acc.toNat w.toNat)) v, 0)
    | _ => (rest.foldl (fun acc w => BitVec.ofNat 32 (fmaxN fmt32 acc.toNat w.toNat)) v, 0) := by
  match op with
  | 0 => exact foldAll_of_step (.inl ht) _ (foldInit_f32 ht _) (fun a w => by simp [foldStep, ht, accWord]) v rest
  | 1 => exact foldAll_of_word_step (.inl ht) _ (foldInit_f32 ht _) (fun a w => by simp [foldStep, ht, accWord]) v rest
  | n + 2 => exact foldAll_of_word_step (.inl ht) _ (foldInit_f32 ht _) (fun a w => by simp [foldStep, ht, accWord]) v rest

/-- One step of AND, OR or XOR. -/
def bitStep (op : Nat) : Word → Word → Word :=
  match op with
  | 3 => (· &&& ·)
  | 4 => (· ||| ·)
  | _ => (· ^^^ ·)

/-- AND, OR and XOR fold words. -/
theorem foldAll_bitwise (ht : IntegerFold o.ty) {op : Nat} (h : 3 ≤ op) (v : Word) (rest : List Word) :
    foldAll o op (v :: rest) = (rest.foldl (bitStep op) v, 0) := by
  have hf := ht.ne_f32
  refine foldAll_of_word_step (.inr (by omega)) _ (foldInit_int ht _) (fun a w => ?_) v rest
  match op, h with
  | 3, _ => simp only [foldStep, hf, accWord]; exact Prod.ext (ofInt_readAs false _) rfl
  | 4, _ => simp only [foldStep, hf, accWord]; exact Prod.ext (ofInt_readAs false _) rfl
  | n + 5, _ => simp only [foldStep, hf, accWord]; exact Prod.ext (ofInt_readAs false _) rfl

/-- One step of a sum, a minimum or a maximum, exact. -/
def exactStep (op : Nat) : Int → Int → Int :=
  match op with
  | 0 => (· + ·)
  | 1 => min
  | _ => max

/-- Sums, minima and maxima fold the exact values. -/
theorem foldAll_exact (ht : IntegerFold o.ty) {op : Nat} (h : op < 3) (v : Word) (rest : List Word) :
    foldAll o op (v :: rest) = (foldOut o op ((rest.map (typeInt o.ty)).foldl (exactStep op) (typeInt o.ty v), 0), 0) := by
  have hf := ht.ne_f32
  have hstep (x : Int) (w : Word) : foldStep o op (x, 0) w = (exactStep op x (typeInt o.ty w), 0) := by
    match op, h with
    | 0, _ => simp only [foldStep, hf, readAs_eq_typeInt ht]; rfl
    | 1, _ => simp only [foldStep, hf, readAs_eq_typeInt ht]; rfl
    | 2, _ => simp only [foldStep, hf, readAs_eq_typeInt ht]; rfl
  have hinit : foldInit o op v = (typeInt o.ty v, 0) := by
    simp only [foldInit, hf, readAs_eq_typeInt ht, show op ≤ 2 by omega, if_true]; rfl
  rw [foldAll, hinit, List.foldl_hom (fun x : Int => ((x, 0) : FoldAcc)) hstep, List.foldl_map]

theorem foldOut_sum (ht : IntegerFold o.ty) (x : Int) (f : Fl) : foldOut o 0 (x, f) = written o x := by
  have hf := ht.ne_f32
  simp [foldOut, hf, narrow_eq_written ht]

theorem foldOut_typeInt (ht : IntegerFold o.ty) {op : Nat} (h : 0 < op) (w : Word) (f : Fl) :
    foldOut o op (typeInt o.ty w, f) = w := by
  simp [foldOut, h, ← readAs_eq_typeInt ht, ofInt_readAs]

/-- A fold that selects a word by its value gives one of the words. -/
theorem foldOut_mem (ht : IntegerFold o.ty) {op : Nat} (h : 0 < op) {vs : List Word} {x : Int} (f : Fl)
    (hx : x ∈ vs.map (typeInt o.ty)) : foldOut o op (x, f) ∈ vs ∧ typeInt o.ty (foldOut o op (x, f)) = x := by
  obtain ⟨w, hw, rfl⟩ := List.mem_map.1 hx
  rw [foldOut_typeInt ht h]
  exact ⟨hw, rfl⟩

theorem getLsbD_foldl (g : Word → Word → Word) (b : Bool → Bool → Bool) (i : Nat)
    (hg : ∀ x y : Word, (g x y).getLsbD i = b (x.getLsbD i) (y.getLsbD i)) (v : Word) (rest : List Word) :
    (rest.foldl g v).getLsbD i = (rest.map (·.getLsbD i)).foldl b (v.getLsbD i) := by
  rw [List.foldl_map]
  exact (List.foldl_hom (fun w : Word => w.getLsbD i) fun x y => (hg x y).symm).symm

theorem foldl_and_eq_all (b : Bool) (bs : List Bool) : bs.foldl (· && ·) b = (b && bs.all id) := by
  induction bs generalizing b with
  | nil => simp
  | cons c cs ih => simp [ih, Bool.and_assoc]
theorem foldl_or_eq_any (b : Bool) (bs : List Bool) : bs.foldl (· || ·) b = (b || bs.any id) := by
  induction bs generalizing b with
  | nil => simp
  | cons c cs ih => simp [ih, Bool.or_assoc]

/-- R157's table for the integer types. -/
theorem foldAll_integer (ht : IntegerFold o.ty) {op : Nat} {v : Word} {rest vs : List Word} (hvs : vs = v :: rest) :
    (foldAll o op vs).2 = 0 ∧ match op with
      | 0 => (foldAll o op vs).1 = written o ((vs.map (typeInt o.ty)).sum)
      | 1 => (foldAll o op vs).1 ∈ vs ∧ ∀ w ∈ vs, typeInt o.ty (foldAll o op vs).1 ≤ typeInt o.ty w
      | 2 => (foldAll o op vs).1 ∈ vs ∧ ∀ w ∈ vs, typeInt o.ty w ≤ typeInt o.ty (foldAll o op vs).1
      | 3 => ∀ i < 32, (foldAll o op vs).1.getLsbD i = vs.all fun w => w.getLsbD i
      | 4 => ∀ i < 32, (foldAll o op vs).1.getLsbD i = vs.any fun w => w.getLsbD i
      | _ => ∀ i < 32, (foldAll o op vs).1.getLsbD i = (vs.map fun w => w.getLsbD i).foldl (· != ·) false := by
  match op with
  | 0 =>
    rw [hvs, foldAll_exact ht (by omega)]
    refine ⟨rfl, ?_⟩
    simp only [foldOut_sum ht]
    rw [List.map_cons, List.sum_eq_foldl, List.foldl_cons, Int.zero_add]; rfl
  | 1 =>
    rw [hvs, foldAll_exact ht (by omega), ← hvs]
    refine ⟨rfl, ?_⟩
    obtain ⟨hm, hle⟩ := List.min?_eq_some_iff.1 (show (vs.map (typeInt o.ty)).min? = some _ by
      rw [hvs, List.map_cons, List.min?_cons'])
    obtain ⟨h1, h2⟩ := foldOut_mem ht (show 0 < 1 from Nat.one_pos) 0 hm
    exact ⟨h1, fun w hw => h2.trans_le (hle _ (List.mem_map_of_mem hw))⟩
  | 2 =>
    rw [hvs, foldAll_exact ht (by omega), ← hvs]
    refine ⟨rfl, ?_⟩
    obtain ⟨hm, hle⟩ := List.max?_eq_some_iff.1 (show (vs.map (typeInt o.ty)).max? = some _ by
      rw [hvs, List.map_cons, List.max?_cons'])
    obtain ⟨h1, h2⟩ := foldOut_mem ht (show 0 < 2 from Nat.two_pos) 0 hm
    exact ⟨h1, fun w hw => (hle _ (List.mem_map_of_mem hw)).trans_eq h2.symm⟩
  | 3 =>
    rw [hvs, foldAll_bitwise ht (by omega)]
    refine ⟨rfl, fun i _ => ?_⟩
    rw [getLsbD_foldl (bitStep 3) (· && ·) i (fun _ _ => BitVec.getLsbD_and), foldl_and_eq_all, List.all_map]; rfl
  | 4 =>
    rw [hvs, foldAll_bitwise ht (by omega)]
    refine ⟨rfl, fun i _ => ?_⟩
    rw [getLsbD_foldl (bitStep 4) (· || ·) i (fun _ _ => BitVec.getLsbD_or), foldl_or_eq_any, List.any_map]; rfl
  | n + 5 =>
    rw [hvs, foldAll_bitwise ht (by omega)]
    refine ⟨rfl, fun i _ => ?_⟩
    rw [getLsbD_foldl (bitStep (n + 5)) (· != ·) i (fun _ _ => BitVec.getLsbD_xor), List.map_cons,
       List.foldl_cons, Bool.false_bne]

end

/-! ### Scans (R157) -/

section
variable {o : AluOps} {op : Nat}

/-- The accumulator after one more value. -/
def foldNext (o : AluOps) (op : Nat) (acc : Option FoldAcc) (w : Word) : Option FoldAcc :=
  some (acc.elim (foldInit o op w) fun a => foldStep o op a w)
/-- The word of an accumulator: the operation's identity before any value. -/
def scanOut (o : AluOps) (op : Nat) (acc : Option FoldAcc) : Word := acc.elim (foldId o op) (foldOut o op)

theorem scanVals_cons (acc : Option FoldAcc) (w : Word) (ws : List Word) : scanVals o op acc (w :: ws) =
    (scanOut o op acc, scanOut o op (foldNext o op acc w)) :: scanVals o op (foldNext o op acc w) ws := by
  cases acc <;> rfl

theorem scanOut_fold (v : Word) (ws : List Word) :
    scanOut o op ((v :: ws).foldl (foldNext o op) none) = (foldAll o op (v :: ws)).1 := by
  have : ws.foldl (foldNext o op) (some (foldInit o op v)) = some (ws.foldl (foldStep o op) (foldInit o op v)) :=
    List.foldl_hom some fun _ _ => rfl
  rw [List.foldl_cons, show foldNext o op none v = some (foldInit o op v) from rfl, this]; rfl

/-- The results of a scan for one lane: the fold of the lanes before it, and of those and it. -/
theorem find?_scanVals (o : AluOps) (op : Nat) (a : Nat → Word) (l : Nat) (post : List Nat) :
    ∀ (pre : List Nat) (acc : Option FoldAcc), l ∉ pre →
    ((pre ++ l :: post).zip (scanVals o op acc ((pre ++ l :: post).map a))).find? (fun p => p.1 == l) =
      some (l, scanOut o op ((pre.map a).foldl (foldNext o op) acc),
        scanOut o op (((pre ++ [l]).map a).foldl (foldNext o op) acc))
  | [], acc, _ => by simp [scanVals_cons]
  | x :: pre, acc, h => by
    have hx : (x == l) = false := by simpa using fun e : x = l => h (by simp [e])
    have ih := find?_scanVals o op a l post pre (foldNext o op acc (a x)) fun hm => h (by simp [hm])
    simpa [scanVals_cons, hx] using ih

theorem foldId_eq (ht : IntegerFold o.ty ∨ o.ty = .f32) : op < 6 → foldId o op = match op with
    | 1 => if o.ty = .f32 then 0x7F800000 else if o.ty = .n32 then 0xFFFFFFFF else 0x7FFFFFFF
    | 2 => if o.ty = .f32 then 0xFF800000 else if o.ty = .n32 then 0 else 0x80000000
    | 3 => if o.ty = .f32 then 0 else 0xFFFFFFFF
    | _ => 0 := by
  intro hop
  unfold foldId IntegerFold at *
  match op, hop with
  | 0, _ | 1, _ | 2, _ | 3, _ | 4, _ | 5, _ => rcases ht with (h | h | h) | h <;> rw [h] <;> rfl
end

/-- The lanes of an ascending list before one of its lanes, and up to it. -/
theorem filter_of_ascending {act : List Nat} (hs : act.Pairwise (· < ·)) {l : Nat} (hl : l ∈ act) : ∃ pre post,
    act = pre ++ l :: post ∧ l ∉ pre ∧ act.filter (· < l) = pre ∧ act.filter (· ≤ l) = pre ++ [l] := by
  obtain ⟨pre, post, rfl⟩ := List.append_of_mem hl
  obtain ⟨-, hpost, hpre⟩ := List.pairwise_append.1 hs
  have h1 : ∀ x ∈ pre, x < l := fun x hx => hpre x hx l (by simp)
  have h2 : ∀ x ∈ post, l < x := (List.pairwise_cons.1 hpost).1
  refine ⟨pre, post, rfl, fun h => lt_irrefl l (h1 l h), ?_, ?_⟩
  · rw [List.filter_append, List.filter_eq_self.2 (by simpa using h1), List.filter_eq_nil_iff.2]
    · simp
    · simpa using fun x hx => (h2 x hx).le
  · rw [List.filter_append, List.filter_eq_self.2 fun x hx => by simpa using (h1 x hx).le, List.filter_cons_of_pos (by simp),
      List.filter_eq_nil_iff.2 fun x hx => by simpa using h2 x hx]

theorem activeLanes_ascending (s : State) (h : Hdr) : (activeLanes s h).Pairwise (· < ·) :=
  List.pairwise_lt_range.filter _

/-- Only the values of active lanes count. -/
theorem laneWrites_congr {s t : State} {h : Hdr} {d : Opnd} {v v' : Nat → List Word} {f f' : Nat → Fl}
    (w : LaneWrites s t h d v f) (hv : ∀ l ∈ activeLanes s h, v l = v' l) (hf : ∀ l ∈ activeLanes s h, f l = f' l) :
    LaneWrites s t h d v' f' where
  only := w.only
  rest := w.rest
  lanes := w.lanes
  vec i l j hd hl := hv l hl ▸ w.vec i l j hd hl
  vecKept := w.vecKept
  uni i l j hd hl hs := hv l hl ▸ w.uni i l j hd hl fun m hm => by rw [hv m hm, hv l hl, hs m hm]
  uniKept := w.uniKept
  prd i l hd hi hl hs := hv l hl ▸ w.prd i l hd hi hl fun m hm => by rw [hv m hm]; exact hs m hm
  prdKept l k hk := w.prdKept l k (hk.imp_right fun x => x.imp_right fun y =>
    ⟨fun m hm => by rw [hv m hm]; exact y.1 m hm, y.2⟩)
  flags := w.flags.trans (List.foldl_ext _ _ _ fun _ l hl => by rw [hf l hl])
  memory := w.memory

/-- What SCANL gives lane `l`: the fold of the lanes below it, or up to it. -/
def scanned (s : State) (h : Hdr) (o : AluOps) (l : Nat) : Word :=
  let a := src s s.curG o.imm o.a
  let before := fun lanes : List Nat => scanOut o o.mod.toNat ((lanes.map a).foldl (foldNext o o.mod.toNat) none)
  before ((activeLanes s h).filter fun m => if o.imm.getLsbD 0 then m < l else m ≤ l)

theorem scanl_writes (s : State) (h : Hdr) (o : AluOps) : Gives (exec (.scanl h o) s) fun t =>
    LaneWrites s t h o.d (fun l => [scanned s h o l]) fun _ =>
      let vs := (activeLanes s h).map (src s s.curG o.imm o.a)
      (foldAll o o.mod.toNat (if o.imm.getLsbD 0 then vs.dropLast else vs)).2 := by
  refine ⟨_, rfl, laneWrites_congr (State.perLane_writes s h o.d _ ?_) ?_ ?_⟩
  all_goals
    intro l hl
    obtain ⟨pre, post, hact, hn, hlt, hle⟩ := filter_of_ascending (activeLanes_ascending s h) hl
    have hfind := find?_scanVals o o.mod.toNat (src s s.curG o.imm o.a) l post pre none hn
    rw [← hact] at hfind
    simp only [hfind]
  · simp
  · unfold scanned
    cases o.imm.getLsbD 0
    · simp [hle]
    · simp [hlt]

/-- REDL and SCANL (R157). -/
theorem foldsRunOverActiveLanesInOrder : FoldsRunOverActiveLanesInOrder := by
  intro h o s hop hty act a fold
  have ht : IntegerFold o.ty ∨ o.ty = .f32 := by simpa [IntegerFold, or_assoc] using hty
  constructor
  · refine ⟨_, rfl, State.perLane_writes s h o.d _ fun _ _ => by simp, fun v rest hvs => ?_⟩
    split
    · rename_i hf
      simp only [fold, hvs]
      exact foldAll_f32 hf v rest
    · rename_i hf
      exact foldAll_integer (ht.resolve_right hf) hvs
  · obtain ⟨t, ht', w⟩ := scanl_writes s h o
    refine ⟨t, ht', _, _, w, fun l hl => ?_⟩
    obtain ⟨pre, post, hact, hn, hlt, hle⟩ := filter_of_ascending (activeLanes_ascending s h) hl
    simp only [act, fold, hlt, hle, scanned]
    cases o.imm.getLsbD 0 with
    | false =>
      simp only [Bool.false_eq_true, if_false, hle]
      refine ⟨?_, rfl⟩
      obtain ⟨x, xs, hx⟩ := List.exists_cons_of_ne_nil (show (pre ++ [l]).map a ≠ [] by simp)
      rw [hx]; exact scanOut_fold x xs
    | true =>
      simp only [if_true, hlt]
      rw [hact]
      cases pre with
      | nil =>
        rw [if_pos (by simp)]
        exact foldId_eq ht hop
      | cons x pre =>
        have hx : x ≠ l := fun e => hn (by simp [e])
        rw [if_neg (by simpa using hx)]
        exact scanOut_fold (a x) (pre.map a)

/-- Settles O9: `ShufflesVotesAndMatchesReadTheActiveLanes` and `FoldsRunOverActiveLanesInOrder`. -/
theorem crossLaneOperationsReadTheActiveLanes : Obligations.CrossLaneOperationsReadTheActiveLanes :=
  ⟨shufflesVotesAndMatchesReadTheActiveLanes, foldsRunOverActiveLanesInOrder⟩

end Sys2Proof.ScalarVector
end

section
namespace Sys2Proof.ScalarVector
open Sys2Proof Sys2Proof.Machine Sys2Proof.Safety

/-! ### A call whose destination is a predicate (R55, R122, R123)

`BranchesMoveActiveLanesToTheirTarget` speaks of every operand, legal or not, and says that CALL keeps all predicates; Dst of
R55 makes a predicate destination a predicate write. -/

/-- A subgroup of one running thread, all of whose predicates are false, with a successor other than 0. -/
def oneThread : State :=
  ({ State.reset with cur := ⟨0, 1, 0, 1, none, none, false⟩ } : State).setCurG
    { Group.reset with st := .active, width := 8, lanes := [Lane.reset] }

/-- CALL p0, 0 under the guard pt. -/
def callIntoP0 : Instr := .call ⟨false, 7, false, false, false, false⟩ ⟨.spc 0, .vec 0, .vec 0, 0⟩

/-- No legal word holds it: R122 has D a vector or uniform register. -/
theorem callIntoP0_not_wellFormed : callIntoP0.wellFormed = false := by decide +kernel

theorem callIntoP0_sets_p0 {t : State} (ht : exec callIntoP0 oneThread = .next t) :
    predOf (oneThread.curG.lane 0) 0 = false ∧ predOf (t.curG.lane 0) 0 = true := by
  injection ht with ht
  subst ht
  exact ⟨by decide +kernel, by decide +kernel⟩

/-- Refutes O16: the statement has no hypothesis that CALL's D is a register, and CALL p0 sets p0, which it says is kept. -/
theorem not_branchesAndMeetSetThePlacesOfTheirThreads : ¬ Obligations.BranchesAndMeetSetThePlacesOfTheirThreads := by
  rintro ⟨branches, -⟩
  obtain ⟨-, -, -, -, ⟨t, ht, -, predsKept, -⟩, -⟩ := branches _ _ oneThread
  obtain ⟨before, after⟩ := callIntoP0_sets_p0 ht
  rw [predsKept 0 0, before] at after
  exact Bool.noConfusion after

end Sys2Proof.ScalarVector
end

section
namespace Sys2Proof.TilePredicates
open Sys2Proof Sys2Proof.Machine Sys2Proof.Safety

/-! QSET and QLOG: O31. -/

/-! ### An instruction that changes its group once and moves on

QSET and QLOG act once per issuing subgroup (R226): they write registers of the group, and no lane. -/

/-- The state in which the issuing group is `g` and its subgroup has moved on. -/
def movedOn (s : State) (g : Group) : State := s.setCurG (g.onMask s.cur.mask (laneAdvance s.cur))

theorem advance_eq_movedOn (s : State) : s.advance = movedOn s s.curG := rfl

theorem advance_setCurG_eq_movedOn (s : State) (g : Group) : (s.setCurG g).advance = movedOn s g := by
  simp [State.advance, movedOn]

@[simp] theorem movedOn_curG (s : State) (g : Group) :
    (movedOn s g).curG = g.onMask s.cur.mask (laneAdvance s.cur) := by
  simp [movedOn]

theorem movedOn_onlyGroup (s : State) (g : Group) : OnlyGroup s (movedOn s g) := ⟨_, rfl⟩

@[simp] theorem movedOn_group_other (s : State) (g : Group) {i : Nat} (hi : i ≠ s.cur.slot) :
    (movedOn s g).group i = s.group i := by
  simp [movedOn, State.setCurG, hi]

@[simp] theorem movedOn_readLoc (s : State) (g : Group) (a : Loc) : (movedOn s g).readLoc a = s.readLoc a := by
  simp [movedOn]

theorem movedOn_ureg (s : State) (g : Group) (j : Nat) : (movedOn s g).curG.ureg j = g.ureg j := by
  rw [movedOn_curG]; rfl

theorem movedOn_qreg (s : State) (g : Group) (j : Nat) : (movedOn s g).curG.qreg j = g.qreg j := by
  rw [movedOn_curG]; rfl

section
variable {s : State} {g : Group} (hlanes : g.lanes = s.curG.lanes)
include hlanes

theorem movedOn_lane (l : Nat) : (movedOn s g).curG.lane l =
    if s.cur.mask.getLsbD l ∧ l < s.curG.lanes.length then laneAdvance s.cur (s.curG.lane l) else s.curG.lane l := by
  rw [movedOn_curG, Group.lane_onMask, hlanes, Group.lane, hlanes]; rfl

theorem movedOn_vreg (l j : Nat) : (movedOn s g).curG.vreg l j = s.curG.vreg l j := by
  rw [Group.vreg, movedOn_lane hlanes]; split <;> rfl

theorem movedOn_predOf (l k : Nat) : predOf ((movedOn s g).curG.lane l) k = predOf (s.curG.lane l) k := by
  rw [movedOn_lane hlanes]; split <;> rfl

theorem movedOn_lanesMoved : LanesMoved s (movedOn s g) := by
  refine ⟨by simp [hlanes], fun l hl => ?_⟩
  rw [movedOn_lane hlanes]
  cases s.cur.mask.getLsbD l
  · simp
  · simp [hl, laneAdvance]

theorem movedOn_movedWith {f : Group → Group} (hs : g.s = s.curG.s) (hg : g = f s.curG) : MovedWith s (movedOn s g) f := by
  refine ⟨movedOn_lanesMoved hlanes, ⟨movedOn_vreg hlanes, movedOn_predOf hlanes, fun j => ?_⟩, ?_, ?_, ?_⟩
  · rw [movedOn_ureg, Group.ureg, hs]; rfl
  · rw [movedOn_curG, ← hg]; rfl
  · exact fun i hi => movedOn_group_other s g hi
  · exact movedOn_readLoc s g
end

theorem advance_moves (s : State) : OnlyGroup s s.advance ∧ MovedWith s s.advance id :=
  ⟨movedOn_onlyGroup s _, movedOn_movedWith rfl rfl rfl⟩

/-! ### Writing a tile predicate -/

theorem qreg_setQ (g : Group) (i : Nat) (v : DWord) (j : Nat) : (g.setQ i v).qreg j = if j = i then v else g.qreg j :=
  Tab.get_set _ _ _ _ _

/-- What the statement says of an instruction that gives tile predicate `q` the bits `v`. -/
def SetsTile (s : State) (q : Nat) (v : DWord) (out : Out') : Prop :=
  Gives out fun t => OnlyGroup s t ∧ MovedWith s t (fun g => { g with q := t.curG.q }) ∧
    ∀ j, t.curG.qreg j = if j = q then v else s.curG.qreg j

theorem qset_idle {s : State} {h : Hdr} (hact : activeLanes s h = []) (d : Opnd) (v : Group → DWord) :
    s.qset h d v = .next s.advance := by
  rw [State.qset, hact]

theorem qset_sets {s : State} {h : Hdr} (hact : activeLanes s h ≠ []) (d : Opnd) (v : Group → DWord) :
    SetsTile s (opndIdx d - 8) (v s.curG) (s.qset h d v) := by
  have hout : s.qset h d v = .next (movedOn s (s.curG.setQ (opndIdx d - 8) (v s.curG))) := by
    rw [← advance_setCurG_eq_movedOn, State.qset]
    split
    · contradiction
    · rfl
  refine ⟨_, hout, movedOn_onlyGroup _ _, ?_, fun j => ?_⟩
  · apply movedOn_movedWith
    · rfl
    · rfl
    · rw [movedOn_curG]; rfl
  · rw [movedOn_qreg, qreg_setQ]

/-! ### The values of R228 -/

theorem srcPair_uni (s : State) (g : Group) (imm : Word) (i : BitVec 8) (l : Nat) : srcPair s g imm (.uni i) l =
    (src s g imm (Opnd.plus (.uni i) 0) l).toNat + 2 ^ 32 * (src s g imm (Opnd.plus (.uni i) 1) l).toNat := by
  simp [srcPair, Opnd.plus]

theorem plus_zero (o : Opnd) : Opnd.plus o 0 = o := by
  cases o <;> simp [Opnd.plus]

/-- Bits `lo` to `hi - 1` of QSET.range. -/
theorem testBit_range (lo hi k : Nat) :
    (if lo < hi then 2 ^ hi - 2 ^ lo else 0).testBit k = decide (lo ≤ k ∧ k < hi) := by
  split
  case isTrue h =>
    have hrun : 2 ^ hi - 2 ^ lo = 2 ^ lo * (2 ^ (hi - lo) - 1) := by
      rw [Nat.mul_sub, ← Nat.pow_add, Nat.add_sub_cancel' h.le, Nat.mul_one]
    rw [hrun, Nat.testBit_two_pow_mul, Nat.testBit_two_pow_sub_one, ← Bool.decide_and]
    exact decide_eq_decide.2 (by omega)
  case isFalse h =>
    rw [Nat.zero_testBit, eq_comm, decide_eq_false_iff_not]
    omega

theorem getLsbD_range (lo b k : Nat) :
    (BitVec.ofNat 64 (if lo < min b 64 then 2 ^ min b 64 - 2 ^ lo else 0)).getLsbD k = decide (lo ≤ k ∧ k < min b 64) := by
  rw [BitVec.getLsbD_ofNat, testBit_range, ← Bool.decide_and]
  exact decide_eq_decide.2 (by omega)

theorem qlut_eq_ofBitFn (lut : Word) (a b d : DWord) : qlut lut a b d = BitVec.ofNat 64 (ofBitFn 64 fun t =>
    lut.getLsbD ((a.getLsbD t).toNat + 2 * (b.getLsbD t).toNat + 4 * (d.getLsbD t).toNat)) := by
  have hindex : ∀ x y z : Bool, (if x then 1 else 0) + (if y then 2 else 0) + (if z then 4 else 0) =
      x.toNat + 2 * y.toNat + 4 * z.toNat := by decide
  simp only [qlut, ofBitFn, hindex]

theorem getLsbD_qlut (lut : Word) (a b d : DWord) {k : Nat} (hk : k < 64) : (qlut lut a b d).getLsbD k =
    lut.getLsbD ((a.getLsbD k).toNat + 2 * (b.getLsbD k).toNat + 4 * (d.getLsbD k).toNat) := by
  rw [qlut_eq_ofBitFn, BitVec.getLsbD_ofNat, ScalarVector.testBit_ofBitFn]
  simp [hk]

/-! ### The instructions -/

theorem exec_qsetV (h : Hdr) (o : TileOps) (s : State) : exec (.qsetV h o) s =
    s.qset h o.d fun g => BitVec.ofNat 64 (srcPair s g 0 o.a 0) := rfl

theorem exec_qsetRange (h : Hdr) (o : TileOps) (s : State) : exec (.qsetRange h o) s = s.qset h o.d fun g =>
    let lo := (src s g 0 o.a 0).toNat
    let hi := min (src s g 0 o.b 0).toNat 64
    BitVec.ofNat 64 (if lo < hi then 2 ^ hi - 2 ^ lo else 0) := rfl

theorem exec_qsetAll (h : Hdr) (o : TileOps) (s : State) : exec (.qsetAll h o) s =
    s.qset h o.d fun _ => BitVec.allOnes 64 := rfl

theorem exec_qlog (h : Hdr) (o : TileOps) (s : State) : exec (.qlog h o) s = s.qset h o.d fun g =>
    qlut o.imm (g.qreg (opndIdx o.a - 8)) (g.qreg (opndIdx o.b - 8)) (g.qreg (opndIdx o.d - 8)) := rfl

theorem exec_qsetRd (h : Hdr) (o : TileOps) (s : State) : exec (.qsetRd h o) s = execQsetRd h o s := rfl

theorem exec_qld (h : Hdr) (o : TileOps) (s : State) : exec (.qld h o) s = execQld h o s := rfl

theorem tileOps_idle {s : State} {h : Hdr} (o : TileOps) (hact : activeLanes s h = []) :
    ∀ i ∈ [Instr.qsetV h o, .qsetRange h o, .qsetAll h o, .qsetRd h o, .qlog h o, .qld h o],
      exec i s = .next s.advance := by
  have hrd : execQsetRd h o s = .next s.advance := by rw [execQsetRd, hact]
  have hld : execQld h o s = .next s.advance := by rw [execQld, hact]
  simp [exec_qsetV, exec_qsetRange, exec_qsetAll, exec_qsetRd, exec_qlog, exec_qld, qset_idle hact, hrd, hld]

section
variable {s : State} {h : Hdr} (o : TileOps) (hact : activeLanes s h ≠ [])
include hact

theorem qsetV_sets {i : BitVec 8} (hi : o.a = .uni i) : SetsTile s (opndIdx o.d - 8)
    (BitVec.ofNat 64 ((src s s.curG 0 (Opnd.plus o.a 0) 0).toNat + 2 ^ 32 * (src s s.curG 0 (Opnd.plus o.a 1) 0).toNat))
    (exec (.qsetV h o) s) := by
  rw [exec_qsetV, hi, ← srcPair_uni]
  exact qset_sets hact o.d fun g => BitVec.ofNat 64 (srcPair s g 0 (.uni i) 0)

theorem qsetAll_sets : SetsTile s (opndIdx o.d - 8) (BitVec.allOnes 64) (exec (.qsetAll h o) s) := by
  rw [exec_qsetAll]
  exact qset_sets hact o.d _

theorem qsetRange_sets : ∃ v : DWord, SetsTile s (opndIdx o.d - 8) v (exec (.qsetRange h o) s) ∧
    ∀ k, v.getLsbD k = decide ((src s s.curG 0 (Opnd.plus o.a 0) 0).toNat ≤ k ∧ k < min (src s s.curG 0 o.b 0).toNat 64) := by
  rw [exec_qsetRange, plus_zero]
  exact ⟨_, qset_sets hact o.d _, getLsbD_range _ _⟩

theorem qlog_sets : ∃ v : DWord, SetsTile s (opndIdx o.d - 8) v (exec (.qlog h o) s) ∧
    ∀ k, k < 64 → v.getLsbD k = o.imm.getLsbD (((s.curG.qreg (opndIdx o.a - 8)).getLsbD k).toNat +
      2 * ((s.curG.qreg (opndIdx o.b - 8)).getLsbD k).toNat + 4 * ((s.curG.qreg (opndIdx o.d - 8)).getLsbD k).toNat) := by
  rw [exec_qlog]
  exact ⟨_, qset_sets hact o.d _, fun _ hk => getLsbD_qlut _ _ _ _ hk⟩

theorem qsetRd_gives : exec (.qsetRd h o) s = .next (movedOn s (dstSpan s.curG o.d 0
    [(s.curG.qreg (opndIdx o.a - 8)).extractLsb' 0 32, (s.curG.qreg (opndIdx o.a - 8)).extractLsb' 32 32])) := by
  rw [← advance_setCurG_eq_movedOn, exec_qsetRd, execQsetRd]
  split
  · contradiction
  · rfl
end

theorem ureg_dstSpan_uni_pair (g : Group) {i : BitVec 8} (hi : i.toNat < 255) (l : Nat) (w v : Word) (j : Nat) :
    (dstSpan g (.uni i) l [w, v]).ureg j = if j = i.toNat then w else if j = i.toNat + 1 then v else g.ureg j := by
  have hnext : (i + 1#8).toNat = i.toNat + 1 := BitVec.toNat_add_of_lt (Nat.add_lt_of_lt_sub hi)
  rw [Group.ureg_dstSpan_uni _ _ _ _ _ (by simp)]
  simp only [spanAt, hnext]
  by_cases hlow : j = i.toNat
  · simp [hlow]
  · by_cases hhigh : j = i.toNat + 1 <;> simp [hlow, hhigh]

/-- Settles O31: QSET and QLOG write registers of the group with the values of R228, and the subgroup moves on. -/
theorem tilePredicatesReceiveTheirTableValue : Obligations.TilePredicatesReceiveTheirTableValue := by
  intro h o s
  refine ⟨fun idle i hi => ⟨_, tileOps_idle o idle i hi, advance_moves s⟩, fun hact => ?_⟩
  refine ⟨fun ⟨_, hi⟩ => qsetV_sets o hact hi, qsetRange_sets o hact, qsetAll_sets o hact, qlog_sets o hact, ?_⟩
  intro i hd hi
  refine ⟨_, qsetRd_gives o hact, movedOn_onlyGroup _ _, ?_⟩
  rw [hd]
  refine ⟨movedOn_lanesMoved rfl, ?_, movedOn_vreg rfl, fun j => ?_⟩
  · rw [movedOn_curG]; rfl
  · rw [movedOn_ureg, ureg_dstSpan_uni_pair _ hi]

end Sys2Proof.TilePredicates
end

section
namespace Sys2Proof.DoubleFault
open Sys2Proof Sys2Proof.Machine Sys2Proof.Safety

/-! A trap in supervisor mode: O14. -/

/-! ### The cabinet -/

@[simp] theorem msix_cab (s : State) (v : Nat) : (s.msix v).cab = s.cab := by
  unfold State.msix; split <;> rfl

theorem record_cab (s : State) (ty sev src : Nat) (d0 d1 : DWord) : (s.record ty sev src d0 d1).cab =
    (({ ty, sev, src, seq := s.cabSeq, stamp := s.us, d0, d1 } : CabEv) :: s.cab).take 4096 := by
  unfold State.record; simp only; split
  · exact msix_cab _ _
  · rfl

/-- R375 gives an event two data words; the first of a trap's record is two registers of 32 bits. -/
theorem packed_eq_append (low high : Word) : low.zeroExtend 64 ||| (high.zeroExtend 64 <<< 32) = high ++ low := by
  refine BitVec.eq_of_getLsbD_eq fun i hi => ?_
  rw [BitVec.getLsbD_append]
  split
  case isTrue hlow => simp [hlow, hi]
  case isFalse hhigh => simp [hhigh, hi, BitVec.getLsbD_of_ge low i (Nat.le_of_not_lt hhigh)]

/-! ### What ending a grid leaves to others

Stopping groups, cancelling commands and recording events reach no team, no grid and no byte of memory. -/

/-- The parts of the state that ending a grid changes at most in its own teams and in the grid itself. -/
def bystanders (s : State) : Tab Team × List Grid × (Loc → Byte) := (s.teams, s.grids, s.readLoc)

theorem msix_bystanders (s : State) (v : Nat) : bystanders (s.msix v) = bystanders s := by
  unfold State.msix; split <;> rfl

theorem record_bystanders (s : State) (ty sev src : Nat) (d0 d1 : DWord) :
    bystanders (s.record ty sev src d0 d1) = bystanders s := by
  unfold State.record; simp only; split
  · exact msix_bystanders _ _
  · rfl

theorem cancelled_bystanders (s : State) (c : Cmd) : bystanders (s.cancelled c) = bystanders s := by
  unfold State.cancelled; split
  · rfl
  · split
    · exact record_bystanders _ _ _ _ _ _
    · rfl

theorem foldl_bystanders {α : Type} {f : State → α → State} (hf : ∀ s x, bystanders (f s x) = bystanders s)
    (xs : List α) (s : State) : bystanders (xs.foldl f s) = bystanders s :=
  List.foldlRecOn xs f (motive := fun t => bystanders t = bystanders s) rfl fun t ht x _ => (hf t x).trans ht

/-! ### Stopping the teams of a grid (R350) -/

theorem modTeam_bystanders {s t : State} (h : bystanders t = bystanders s) (tid : Nat) (f : Team → Team) :
    bystanders (t.modTeam tid f) = bystanders (s.modTeam tid f) :=
  congrArg (fun b => (Tab.set Team.reset b.1 tid (f (Tab.get Team.reset b.1 tid)), b.2)) h

theorem killTeam_bystanders (s : State) (tid : Nat) : bystanders (s.killTeam tid) =
    bystanders (s.modTeam tid fun t => { t with dead := true, saved := [], held := [] }) := by
  refine (foldl_bystanders cancelled_bystanders _ _).trans ?_
  refine modTeam_bystanders (foldl_bystanders ?_ _ _) tid _
  exact fun _ _ => rfl

theorem killTeam_grids (s : State) (tid : Nat) : (s.killTeam tid).grids = s.grids :=
  congrArg (·.2.1) (killTeam_bystanders s tid)

theorem killTeam_readLoc (s : State) (tid : Nat) : (s.killTeam tid).readLoc = s.readLoc :=
  congrArg (·.2.2) (killTeam_bystanders s tid)

theorem killTeam_dead (s : State) (tid j : Nat) :
    ((s.killTeam tid).team j).dead = (j == tid || (s.team j).dead) := by
  have hteams : (s.killTeam tid).teams = _ := congrArg (·.1) (killTeam_bystanders s tid)
  by_cases hj : j = tid <;> simp [State.team, hteams, bystanders, State.modTeam, State.setTeam, Tab.get_set, hj]

theorem killTeams_dead (tids : List Nat) (s : State) (j : Nat) :
    ((tids.foldl State.killTeam s).team j).dead = (tids.contains j || (s.team j).dead) := by
  induction tids generalizing s with
  | nil => rfl
  | cons tid tids ih =>
    rw [List.foldl_cons, ih, killTeam_dead, List.contains_cons, Bool.or_left_comm, Bool.or_assoc]

theorem killTeams_grids (tids : List Nat) (s : State) : (tids.foldl State.killTeam s).grids = s.grids :=
  List.foldlRecOn tids State.killTeam (motive := fun t => t.grids = s.grids) rfl
    fun t ht tid _ => (killTeam_grids t tid).trans ht

theorem killTeams_readLoc (tids : List Nat) (s : State) : (tids.foldl State.killTeam s).readLoc = s.readLoc :=
  List.foldlRecOn tids State.killTeam (motive := fun t => t.readLoc = s.readLoc) rfl
    fun t ht tid _ => (killTeam_readLoc t tid).trans ht

/-! ### Ending a grid as faulted (R350) -/

section
variable (s : State) (n : Nat) (cause pc : Word) (addr : Nat)

theorem abortGrid_bystanders : bystanders (s.abortGrid n cause pc addr) =
    bystanders (((s.teamsOf n).foldl State.killTeam s).modGrid n fun g => { g with faulted := true }) :=
  record_bystanders _ _ _ _ _ _

theorem abortGrid_faulted : ∀ g ∈ (s.abortGrid n cause pc addr).grids, g.num = n → g.faulted = true := by
  have hgrids : (s.abortGrid n cause pc addr).grids =
      s.grids.map fun g => if g.num == n then { g with faulted := true } else g := by
    rw [← killTeams_grids (s.teamsOf n) s]
    exact congrArg (·.2.1) (abortGrid_bystanders s n cause pc addr)
  rw [hgrids, List.forall_mem_map]
  intro g _
  split
  case isTrue => exact fun _ => rfl
  case isFalse hne => exact fun heq => absurd (beq_iff_eq.2 heq) hne

theorem abortGrid_dead : ∀ tid ∈ s.teamsOf n, ((s.abortGrid n cause pc addr).team tid).dead = true := by
  intro tid htid
  have hteams : (s.abortGrid n cause pc addr).teams = ((s.teamsOf n).foldl State.killTeam s).teams :=
    congrArg (·.1) (abortGrid_bystanders s n cause pc addr)
  rw [State.team, hteams, ← State.team, killTeams_dead, List.contains_iff_mem.2 htid, Bool.true_or]

theorem abortGrid_readLoc : (s.abortGrid n cause pc addr).readLoc = s.readLoc :=
  (congrArg (·.2.2) (abortGrid_bystanders s n cause pc addr)).trans (killTeams_readLoc _ s)

theorem abortGrid_cab : ∃ e rest, (s.abortGrid n cause pc addr).cab = e :: rest ∧ e.ty = 1 ∧ e.sev = 2 ∧
    e.d1 = BitVec.ofNat 64 addr ∧ e.d0 = pc ++ cause :=
  ⟨_, _, record_cab _ _ _ _ _ _, rfl, rfl, rfl, packed_eq_append _ _⟩
end

/-! ### The double fault (R351) -/

/-- A lane of the subgroup that is in a routine makes the trap a double fault. -/
theorem trap_doubleFault {s : State} {l : Nat} (hlen : l < s.curG.lanes.length) (hsub : inSub s l)
    (hsup : (s.curG.lane l).sup = true) (hlive : (s.curG.lane l).exited = false) (cause detail addr : Nat) :
    s.trap cause detail addr = s.abortGrid (s.team s.curG.tid).grid (trapCause s.cur.slot cause detail)
      (s.cur.pc.zeroExtend 32) addr := by
  have hown := (zipIdx_any (fun x i => s.cur.mask.getLsbD i && x.sup && !x.exited) s.curG.lanes 0).2
    ⟨l, hlen, by simp_all [inSub, Group.lane]⟩
  exact if_pos hown

theorem toNat_trapCause (slot cause detail : Nat) : (trapCause slot cause detail).toNat =
    (cause % 32 + 256 * (detail % 2 ^ 16) + 2 ^ 24 * (slot % 192)) % 2 ^ 32 := by
  rw [trapCause, BitVec.toNat_ofNat, Nat.mul_comm 256, Nat.mul_comm (2 ^ 24)]; rfl

/-- Settles O14: such a trap is `State.abortGrid`, whose grid, teams, record and memory are followed one by one. -/
theorem trapInARoutineEndsTheGrid : Obligations.TrapInARoutineEndsTheGrid := by
  rintro s cause detail addr ⟨l, hlen, -, hsub, hsup, hlive⟩
  simp only [trap_doubleFault hlen hsub hsup hlive]
  refine ⟨abortGrid_faulted _ _ _ _ _, abortGrid_dead _ _ _ _ _, ?_, congrFun (abortGrid_readLoc _ _ _ _ _)⟩
  obtain ⟨e, rest, hcab, hty, hsev, hd1, hd0⟩ := abortGrid_cab s (s.team s.curG.tid).grid
    (trapCause s.cur.slot cause detail) (s.cur.pc.zeroExtend 32) addr
  have hwords : e.d0.toNat = s.cur.pc.toNat * 2 ^ 32 + (trapCause s.cur.slot cause detail).toNat := by
    rw [hd0, ScalarVector.toNat_append_add, BitVec.toNat_setWidth_of_le (by decide)]
  have hcause := toNat_trapCause s.cur.slot cause detail
  exact ⟨e, rest, hcab, hty, hsev, hd1, by omega, by omega⟩

end Sys2Proof.DoubleFault
end
